-- ==== Sys2Proof/Word.lean ====
section
/-! DEFINITION. The plain word types of the EV256 and the sparse map every store of the block is held in. -/

namespace Sys2Proof

/-- One byte. -/
abbrev Byte := BitVec 8
/-- A beat stamp (R21): HFN, SFN, SLOT, SYMBOL and five zero bits. -/
abbrev Stamp := BitVec 32
/-- An Ethernet address. -/
abbrev Mac := BitVec 48

/-- A complex value held exactly: the I part and the Q part. -/
structure Cplx where
  /-- in-phase part -/
  i : Int
  /-- quadrature part -/
  q : Int
deriving DecidableEq, Repr, Inhabited

/-- A sparse store: (key, value) pairs, keys strictly rising; a key that is not listed holds the store's default. -/
abbrev FMap (α : Type) := List (Nat × α)

/-- What key `k` holds, `d` where it is not listed. -/
def FMap.get {α : Type} (d : α) : FMap α → Nat → α
  | [], _ => d
  | (a, x) :: t, k => if a = k then x else FMap.get d t k

/-- What key `k` holds, if it is listed. -/
def FMap.find {α : Type} : FMap α → Nat → Option α
  | [], _ => none
  | (a, x) :: t, k => if a = k then some x else FMap.find t k

/-- Key `k` now holds `v`; the keys stay in rising order. -/
def FMap.set {α : Type} : FMap α → Nat → α → FMap α
  | [], k, v => [(k, v)]
  | (a, x) :: t, k, v =>
    if k < a then (k, v) :: (a, x) :: t
    else if a = k then (k, v) :: t
    else (a, x) :: FMap.set t k v

/-- Key `k` is no longer listed. -/
def FMap.erase {α : Type} (m : FMap α) (k : Nat) : FMap α := m.filter (fun p => !(p.1 == k))

/-- Write in the canonical form of a store with default `d`: the default value is never listed. -/
def FMap.put {α : Type} [DecidableEq α] (d : α) (m : FMap α) (k : Nat) (v : α) : FMap α :=
  if v = d then FMap.erase m k else FMap.set m k v

/-- Change the value at one key. -/
def FMap.modify {α : Type} (d : α) (m : FMap α) (k : Nat) (f : α → α) : FMap α :=
  FMap.set m k (f (FMap.get d m k))

/-- The keys rise strictly. -/
def FMap.sorted {α : Type} : FMap α → Bool
  | [] => true
  | [_] => true
  | (a, _) :: (b, y) :: t => decide (a < b) && FMap.sorted ((b, y) :: t)

/-- The canonical form: keys strictly rising and no listed value equal to the default. -/
def FMap.wf {α : Type} [DecidableEq α] (d : α) (m : FMap α) : Bool :=
  FMap.sorted m && m.all (fun p => !(decide (p.2 = d)))

end Sys2Proof
end

