-- ==== Sys2Proof/Types.lean ====
section
/-! DEFINITION. The closed name sets and the plain records of the manual's formats that commands and state share. -/

namespace Sys2Proof

/-! Modes and units -/

/-- The six operating modes (R18), in the order of the mode encoding of R400. -/
inductive Mode where
  | boot | base | standby | solo | lead | sillage
deriving DecidableEq, Repr, Inhabited

/-- The unit states of the unit state word (R49). -/
inductive UState where
  | off | idle | loaded | loopback | bist | run | mirror | rupture | fenced | frozen
deriving DecidableEq, Repr, Inhabited

/-- A verdict record (R45). -/
structure Verdict where
  /-- beat stamp of the data the verdict affects -/
  beat : Stamp
  /-- nanosecond time stamp of the decision instant -/
  timeNs : BitVec 32
  /-- device-wide verdict sequence number, wraps at 2^32 -/
  seq : BitVec 32
  /-- verdict class (R46) -/
  cls : BitVec 8
  /-- deciding unit code (R26) -/
  unit : BitVec 4
  /-- payload, laid out per class (R46) -/
  payload : BitVec 64
deriving DecidableEq, Repr, Inhabited

/-- A digest record (R52). -/
structure Digest where
  /-- beat stamp of the work beat -/
  beat : Stamp
  /-- time stamp of cycle 66,048 -/
  timeNs : BitVec 32
  /-- sample words digested -/
  txWords : BitVec 32
  /-- packet and frame bytes digested -/
  egressBytes : BitVec 32
  /-- CRC-64 value (R50) -/
  digest : BitVec 64
  /-- active formula -/
  formulaId : BitVec 32
  /-- active formula revision -/
  revision : BitVec 16
deriving DecidableEq, Repr, Inhabited

/-! Entries of a formula image -/

/-- A CARRIERS entry (R31). -/
structure Carrier where
  /-- carrier in use -/
  enable : Bool
  /-- downlink enabled -/
  dlEn : Bool
  /-- uplink enabled -/
  ulEn : Bool
  /-- subband full duplex on this carrier -/
  sbfd : Bool
  /-- channel response index -/
  resp : Fin 32
  /-- minimum-phase variant -/
  minphase : Bool
  /-- FFT size code -/
  fft : Fin 4
  /-- PRBs -/
  nprb : Nat
  /-- admission point -/
  admitBeats : Nat
deriving DecidableEq, Repr, Inhabited

/-- A BUDGETS entry (R32). -/
structure Budget where
  /-- unit code -/
  unit : Nat
  /-- unit instance -/
  inst : Nat
  /-- symbols the entry applies to -/
  mask : BitVec 14
  /-- start offset in cycles -/
  start : Nat
  /-- stop offset in cycles -/
  limit : Nat
  /-- declared worst-case run length -/
  worst : Nat
deriving DecidableEq, Repr, Inhabited

/-- A MOVES entry (R32). -/
structure Move where
  /-- source unit code -/
  src : Nat
  /-- destination unit code -/
  dst : Nat
  /-- symbols the move runs in -/
  mask : BitVec 14
  /-- byte offset in the source move region -/
  srcAddr : Nat
  /-- byte offset in the destination move region -/
  dstAddr : Nat
  /-- start offset in cycles -/
  start : Nat
  /-- length in units of 64 bytes -/
  len : Nat
deriving DecidableEq, Repr, Inhabited

/-- A DEADLINES entry (R32). -/
structure Deadline where
  /-- KIND: 2 DD_READ, 3 ACCORD_PARTIAL, 4 RECOMBINE -/
  kind : Nat
  /-- carrier index or accord slot -/
  scope : Nat
  /-- signed beat offset from the air beat -/
  off : Int
  /-- cycle offset within that beat -/
  cycle : Nat
deriving DecidableEq, Repr, Inhabited

/-- A SUBSTITUTES entry (R32). -/
structure Subst where
  /-- unit code -/
  unit : Nat
  /-- output kind -/
  output : Nat
  /-- rule: 0 ZERO_MISSING, 1 HOLD, 2 SKIP (R33) -/
  rule : Nat
deriving DecidableEq, Repr, Inhabited

/-- EFE carrier parameters (R103). -/
structure EfePar where
  /-- frequency offset in units of 15 kHz -/
  freq : Int := 0
  /-- receive gain, Q2.14 -/
  rxGain : Nat := 0x4000
  /-- transmit gain, Q2.14 -/
  txGain : Nat := 0x4000
deriving DecidableEq, Repr, Inhabited

/-- STU carrier parameters (R115). -/
structure StuPar where
  /-- offset of the erasure table -/
  erBase : Nat := 0
  /-- offset of the receive frequency records -/
  ulBase : Nat := 0
  /-- offset of the transmit frequency records -/
  dlBase : Nat := 0
  /-- periodic blotter report interval in beats -/
  reportPeriod : Nat := 0
  /-- most erased subcarriers -/
  eraseLimit : Nat := 64
  /-- subcarriers erased on each side of a detection -/
  guard : Nat := 1
  /-- averaging shift -/
  avgShift : Nat := 4
  /-- blotter active -/
  blEn : Bool := true
  /-- record ring depth in waves -/
  waves : Nat := 0
  /-- clear ratio, Q8.8 -/
  clear : Nat := 0x0400
  /-- detection ratio, Q8.8 -/
  thresh : Nat := 0x0A00
  /-- inverse output shift -/
  txShift : Nat := 0
  /-- FFT window advance into the CP -/
  winAdvance : Nat := 0
deriving DecidableEq, Repr, Inhabited

/-- SIC carrier parameters (R135); the NL fields are used of instance 0 only. -/
structure SicPar where
  /-- packed input buffer for air beats of even symbol -/
  inEven : Nat := 0
  /-- packed input buffer for air beats of odd symbol -/
  inOdd : Nat := 0
  /-- reference ring, 4 slots -/
  refBase : Nat := 0
  /-- linear coefficient state -/
  stateBase : Nat := 0
  /-- cancelled groups -/
  cancel : BitVec 18 := 0
  /-- linear stage active -/
  linEn : Bool := false
  /-- step on quiet beats -/
  muTrain : Nat := 0x4000
  /-- tracking step -/
  muTrack : Nat := 0x0400
  /-- double-talk margin, Q8.8 -/
  margin : Nat := 0x03FB
  /-- quiet updates before tracking -/
  trainCount : Nat := 4
  /-- regulariser exponent -/
  epsExp : Nat := 20
  /-- shallow threshold -/
  depthMin : Nat := 31623
  /-- nonlinear stage active -/
  nlEn : Bool := false
  /-- reference lead in samples -/
  nlLead : Nat := 1
  /-- slots between quiet slots -/
  quietPeriod : Nat := 20
  /-- quiet symbols of a quiet slot -/
  quietMask : BitVec 14 := 0
  /-- nonlinear training step -/
  nlMuTrain : Nat := 0x2000
  /-- nonlinear tracking step -/
  nlMuTrack : Nat := 0x0200
  /-- nonlinear margin -/
  nlMargin : Nat := 0x03FB
  /-- nonlinear quiet updates before tracking -/
  nlTrainCount : Nat := 4
  /-- nonlinear regulariser exponent -/
  nlEpsExp : Nat := 20
deriving DecidableEq, Repr, Inhabited

/-- One geometry entry (R136): the valid slots (slot number, neighbour element), in slot order. -/
abbrev Geo := List (Nat × Nat)

/-! Lanes -/

/-- The lane states (ch. 03, "Lane states"). -/
inductive LaneSt where
  | off | cdr | block | emb | aligned | service | lost
deriving DecidableEq, Repr, Inhabited

/-- Why an ALIGN verdict was made (R68, R106). -/
inductive AlignReason where
  | sysref | relock | twin
deriving DecidableEq, Repr, Inhabited

/-- A sample of a stream with its missing flag. -/
structure Samp where
  /-- in-phase part -/
  i : Int
  /-- quadrature part -/
  q : Int
  /-- depends on a missing or settling sample -/
  miss : Bool
deriving DecidableEq, Repr, Inhabited

/-! The mailbox -/

/-- Where a command entry came from (R388): PCIe, or a host port with source address and VID. -/
inductive Src where
  | pcie
  | inband (port : Fin 2) (mac : Mac) (vid : BitVec 12)
deriving DecidableEq, Repr, Inhabited

/-- What a mailbox row carries of its entry besides the payload fields (R393, R396). -/
structure Hdr where
  /-- source channel -/
  src : Src
  /-- TAG -/
  tag : BitVec 32
  /-- LENGTH matches the payload and the reserved header bits are zero (step 3 of R396) -/
  hdrOk : Bool
  /-- every reserved field of the payload is zero (R4) -/
  rsvOk : Bool
deriving DecidableEq, Repr, Inhabited

/-- The head of an entry that has arrived and waits to be taken (R396). -/
structure Head where
  /-- source channel -/
  src : Src
  /-- TAG -/
  tag : BitVec 32
  /-- OPCODE -/
  opcode : BitVec 16
deriving DecidableEq, Repr, Inhabited

/-- A field of a response or event payload (R393): a number of `w` bytes, or a byte string. -/
inductive Fld where
  | num (w : Nat) (v : Nat)
  | str (b : List Byte)
deriving DecidableEq, Repr, Inhabited

/-- A response entry (R393). -/
structure Response where
  /-- channel the response goes to -/
  dst : Src
  /-- echoed TAG -/
  tag : BitVec 32
  /-- echoed OPCODE -/
  opcode : BitVec 16
  /-- status code -/
  status : BitVec 16
  /-- stamp of the beat from which the command applies; none: EFFECT_VALID 0 -/
  effect : Option Stamp
  /-- nanoseconds of the arrival instant -/
  arrivalNs : BitVec 32
  /-- FIRST value that continues a paged result -/
  next : Nat
  /-- payload -/
  payload : List Fld
deriving DecidableEq, Repr, Inhabited

/-- An event entry (R403). -/
structure Event where
  /-- event sequence number -/
  seq : BitVec 32
  /-- event code -/
  code : BitVec 8
  /-- raising unit -/
  unit : BitVec 4
  /-- TB_EPOCH -/
  epoch : BitVec 16
  /-- beat stamp -/
  beat : Stamp
  /-- nanoseconds at which the event was raised -/
  timeNs : BitVec 32
  /-- payload -/
  payload : List Fld
deriving DecidableEq, Repr, Inhabited

/-- A time-base instant (R309). -/
structure TInst where
  /-- signed seconds of full time -/
  sec : BitVec 48
  /-- nanoseconds -/
  ns : BitVec 32
  /-- the 16-bit field that holds the sixteenths in its low 4 bits -/
  frac : BitVec 16
deriving DecidableEq, Repr, Inhabited

/-- One context of LAYER.CONFIG (R400). -/
structure LayerItem where
  /-- carrier -/
  carrier : BitVec 8
  /-- layer -/
  layer : BitVec 8
  /-- "Layer context" word -/
  ctx : BitVec 128
deriving DecidableEq, Repr, Inhabited

/-- An effect that waits for a boundary, or that a pair applies together (R365, R399). -/
inductive Act where
  | modeEnter (target : Mode)
  | formulaLoad (offset total : BitVec 32) (final : Bool) (data : List Byte)
  | formulaActivate
  | linkConfig (element : BitVec 8) (scope : BitVec 8) (word : BitVec 64)
  | linkSetup (lane : BitVec 8) (width : BitVec 16) (skew : BitVec 128)
  | sicRetrain (elements : BitVec 256) (carriers : BitVec 8) (nl : Bool)
  | layerConfig (items : List LayerItem)
  | layerWeights (carrier layer : BitVec 8) (firstQ : BitVec 16) (w : List (BitVec 32)) (s : Stamp)
  | portConfig (port : BitVec 8) (word : BitVec 128)
  | soundingTable (seq : BitVec 8) (final : Bool) (offset : BitVec 16) (data : List Byte)
  | queueResize (queue : BitVec 16) (depth : BitVec 8)
  | timeConfig (params : BitVec 512)
  | timeStep (delta : Int)
  | memThaw
  | twinEnter (pairId : BitVec 16) (index : BitVec 8) (role : BitVec 8)
  | twinRejoin
  | twinUnpair
  | takeover (planned : BitVec 8)
  | splitYield
  | accordJoin (slot : BitVec 8) (accord : BitVec 16) (members : List (BitVec 128))
  | accordLeave (slot : BitVec 8)
deriving DecidableEq, Repr, Inhabited

/-! Frames -/

/-- A frame that the PCS of an Ethernet port hands to its MAC. -/
structure RxFrame where
  /-- port: 0 H0, 1 H1, 2 to 5 D0 to D3 -/
  port : Fin 6
  /-- the FCS is correct -/
  fcsOk : Bool
  /-- bytes from the destination address to the last byte before the FCS -/
  bytes : List Byte
  /-- raw capture at the stamp point, in 1/16 ns of full time (R313) -/
  sfd : Int
  /-- raw capture of the last byte, in 1/16 ns of full time (R313) -/
  last : Int
  /-- deskew delay of the PCS lane that carried the captured byte, in 1/16 ns (R313) -/
  deskew : Nat
deriving DecidableEq, Repr, Inhabited

/-- What the model reads of a PTP message (R315, R316): the fields of IEEE 1588-2019 it uses. -/
structure PtpMsg where
  /-- domainNumber -/
  domain : BitVec 8
  /-- clockIdentity of the sender -/
  clockId : BitVec 64
  /-- sequenceId -/
  seq : BitVec 16
  /-- correctionField in 1/16 ns -/
  correction : Int
  /-- origin or receive time stamp carried, in 1/16 ns since the PTP epoch -/
  time : Int
  /-- twoStepFlag of a Sync -/
  twoStep : Bool
  /-- the requestingPortIdentity of a Delay_Resp names this port -/
  forUs : Bool
  /-- transport, addressing and version within the subset of R315 -/
  supported : Bool
deriving DecidableEq, Repr, Inhabited

/-- What an Announce message carries (R315). -/
structure PtpAnnounce where
  /-- grandmasterIdentity -/
  gm : BitVec 64
  /-- clockClass -/
  clockClass : BitVec 8
  /-- the rest of the data set the alternate BMCA compares, lower first (accuracy, variance, priority2, localPriority) -/
  quality : BitVec 64
  /-- stepsRemoved -/
  steps : BitVec 16
deriving DecidableEq, Repr, Inhabited

/-- The header of a TW frame as received (R360, R362). -/
structure TwHdr where
  /-- PAIR_ID -/
  pairId : BitVec 16
  /-- SEQ -/
  seq : BitVec 32
  /-- BEAT -/
  beat : Stamp
  /-- the CRC-32 is correct -/
  crcOk : Bool
  /-- own receive stamp at the stamp point, in 1/16 ns of full time -/
  stamp : Int
deriving DecidableEq, Repr, Inhabited

/-- HELLO payload (R363). -/
structure HelloP where
  /-- PAIR_ID -/
  pairId : BitVec 16
  /-- INDEX -/
  index : BitVec 8
  /-- ROLE: 0 LEAD, 1 SILLAGE, 0xFF none -/
  role : BitVec 8
  /-- DEVICE_ID -/
  deviceId : BitVec 16
  /-- FITNESS -/
  fitness : BitVec 8
  /-- CAUSE -/
  cause : BitVec 8
  /-- FORMULA_ID -/
  formulaId : BitVec 32
  /-- REVISION -/
  revision : BitVec 16
  /-- SHA-384 of the active image -/
  imageHash : BitVec 384
  /-- TB_FRAME_OFFSET in ns -/
  frameOffset : BitVec 64
  /-- LNK_FS_KSPS -/
  fsKsps : BitVec 32
  /-- stamp of this frame -/
  t1 : BitVec 64
  /-- T1 of the last HELLO received from the peer -/
  echoT1 : BitVec 64
  /-- own receive stamp of that HELLO -/
  echoT2 : BitVec 64
deriving DecidableEq, Repr, Inhabited

/-- The payload of a TW frame that the EV256 sends (R360, R363). -/
inductive TwBody where
  | hello (p : HelloP)
  | forward (port : BitVec 4) (merged : Bool) (stamp : BitVec 36) (bytes : List Byte)
  | close (kind : BitVec 8) (index : BitVec 8) (beat : Stamp)
  | verdicts (l : List Verdict)
  | seal (rec : Digest) (digestR : BitVec 64) (verdicts : BitVec 14) (ripening : Bool)
  | heartbeat (fitness cause role : BitVec 8) (last : Stamp)
  | time (tTx : BitVec 64) (boundary : BitVec 72)
  | command (seq : BitVec 32) (opcode : BitVec 16) (act : Act) (go : Bool) (effect : Stamp)
  | ack (kind : BitVec 8) (status : BitVec 16) (seq : BitVec 32)
  | state (kind : BitVec 8) (unit : BitVec 4) (commit : Stamp) (addr : BitVec 64) (data : List Byte)
  | handover (s : Stamp) (planned : BitVec 8)
deriving DecidableEq, Repr, Inhabited

/-! Cluster instructions -/

/-- The fields of an instruction word besides OP (R188). -/
structure AeW where
  /-- destination accumulator -/
  acd : Fin 8
  /-- source accumulator -/
  acs : Fin 8
  /-- clearing form -/
  c : Bool
  /-- negate the term -/
  n : Bool
  /-- conjugate the data operand or source accumulator -/
  j : Bool
  /-- option K -/
  k : Bool
  /-- X address mode -/
  xm : Fin 8
  /-- X pointer -/
  xr : Fin 8
  /-- Y address mode -/
  ym : Fin 8
  /-- Y pointer -/
  yr : Fin 8
  /-- immediate -/
  imm : BitVec 36
deriving DecidableEq, Repr, Inhabited

/-! Pins, starts and outputs -/

/-- The pulse outputs (R65, R325, R326). -/
inductive PinOut where
  | pps
  | beatOut
  | trig (k : Fin 8)
  | align (k : Fin 16)
deriving DecidableEq, Repr, Inhabited

/-- What a start finds outside the block's own state (R409, R414). -/
structure StartRun where
  /-- Nose PLL locks within 1 ms -/
  nosePll : Bool
  /-- core PLL locks within 1 ms -/
  corePll : Bool
  /-- HBM PLL locks within 1 ms -/
  hbmPll : Bool
  /-- ROM BIST of Nose SRAM and ROM passes -/
  bistOk : Bool
  /-- eye (width, centre) of each of the 160 lanes at 8.0 Gb/s -/
  eyes8 : List (Nat × Nat)
  /-- eyes at the STANDBY_RATE -/
  eyesS : List (Nat × Nat)
  /-- the firmware stops on a fatal fault before ready -/
  fwFatal : Bool
  /-- milliseconds from reset release to a failure -/
  elapsedMs : BitVec 32
deriving DecidableEq, Repr, Inhabited

/-- What the block sends or drives outward: one entry of the model's trace of its outputs. -/
inductive Out where
  /-- an MSI-X message on a vector (R392) -/
  | msix (vector : Nat)
  /-- a frame sent on an Ethernet port: bytes from the destination address to the last payload byte -/
  | frame (port : Nat) (bytes : List Byte)
  /-- a response carried in a management frame on a host port (R394) -/
  | rspFrame (port : Nat) (r : Response)
  /-- an event frame to an in-band holder (R404) -/
  | evtFrame (port : Nat) (mac : Mac) (e : Event)
  /-- a Delay_Req on a host port with its sequenceId (R315) -/
  | delayReq (port : Nat) (seq : BitVec 16)
  /-- a type 5 message on a host port: destination, action, measurement ID, stamp in 1/16 ns (R282) -/
  | delayMeas (port : Nat) (mac : Mac) (action id : BitVec 8) (stamp : Int)
  /-- a TW frame (R360) -/
  | tw (flags : BitVec 8) (seq : BitVec 32) (beat : Stamp) (body : TwBody)
  /-- an edge of a pulse output, with its TB time in 2^-40 ns -/
  | pulse (pin : PinOut) (level : Bool) (t40 : Int)
  /-- an extended multiblock of 64 sample pairs on a TX lane (R71) -/
  | laneTx (element : Nat) (parts : List (BitVec 16 × BitVec 16))
deriving DecidableEq, Repr, Inhabited

end Sys2Proof
end

