-- ==== Sys2Proof/Syntax.lean ====
section
/-! DEFINITION. The commands of the block: one constructor for each row of the opcode table, in its order. -/

namespace Sys2Proof

/-- A command: a mailbox command with its entry's fields (R400), a cluster instruction with its cluster, context and
word (R188), or an event with what it brings from outside. -/
inductive Instr where
  -- mailbox commands
  | leaseAcquire (h : Hdr) (holder : BitVec 64) (timeoutMs : BitVec 32) (force : BitVec 8)
  | leaseRelease (h : Hdr)
  | leaseStatus (h : Hdr)
  | noseInfo (h : Hdr)
  | modeEnter (h : Hdr) (target : BitVec 8) (s : Stamp)
  | modeReset (h : Hdr) (scope : BitVec 8)
  | formulaLoad (h : Hdr) (offset total : BitVec 32) (final : BitVec 8) (data : List Byte)
  | formulaActivate (h : Hdr) (s : Stamp)
  | formulaStatus (h : Hdr)
  | counterRead (h : Hdr) (counter first count : BitVec 16)
  | counterClear (h : Hdr) (counter first count : BitVec 16)
  | verdictRead (h : Hdr) (first : BitVec 32) (count : BitVec 16)
  | eventRead (h : Hdr) (first : BitVec 32) (count : BitVec 16)
  | eventMask (h : Hdr) (mask : BitVec 256)
  | errorRead (h : Hdr) (first : BitVec 32) (count : BitVec 16)
  | bootRecords (h : Hdr)
  | linkAlign (h : Hdr) (t : TInst) (pins : BitVec 16) (elements : BitVec 256)
  | linkConfig (h : Hdr) (element scope : BitVec 8) (word : BitVec 64)
  | linkStatus (h : Hdr)
  | linkSetup (h : Hdr) (fs : BitVec 32) (lane : BitVec 8) (width : BitVec 16) (skew : BitVec 128)
  | filterRead (h : Hdr) (set : BitVec 8) (first : BitVec 16)
  | sicDepth (h : Hdr) (carrier : BitVec 8) (first : BitVec 16)
  | sicRetrain (h : Hdr) (elements : BitVec 256) (carriers nl : BitVec 8)
  | aeStatus (h : Hdr)
  | layerConfig (h : Hdr) (s : Stamp) (items : List LayerItem)
  | layerWeights (h : Hdr) (s : Stamp) (carrier layer : BitVec 8) (firstQ nq : BitVec 16) (w : List (BitVec 32))
  | recombineRun (h : Hdr) (carrier mark : BitVec 8) (queue : BitVec 16) (first last : Stamp) (layers : BitVec 64)
  | csiExport (h : Hdr) (carrier : BitVec 8) (queue : BitVec 16) (beat : Stamp) (layers : BitVec 64)
  | ddRewind (h : Hdr) (beat : Stamp)
  | ddFetch (h : Hdr) (mark : BitVec 8) (queue : BitVec 16) (first last : Stamp)
  | ddStatus (h : Hdr)
  | codecRun (h : Hdr) (op reserve : BitVec 8) (queue count : BitVec 16) (src dst dstBytes : BitVec 32)
  | portConfig (h : Hdr) (port : BitVec 8) (word : BitVec 128)
  | portStatus (h : Hdr)
  | soundingTable (h : Hdr) (s : Stamp) (seq final : BitVec 8) (offset : BitVec 16) (data : List Byte)
  | sqStatus (h : Hdr)
  | queueResize (h : Hdr) (queue : BitVec 16) (depth : BitVec 8)
  | timeConfig (h : Hdr) (params : BitVec 512)
  | timeStep (h : Hdr) (s : Stamp) (sixteenths : BitVec 16) (ns : BitVec 32) (seconds : BitVec 48)
  | timeAsymmetry (h : Hdr) (port : BitVec 8) (a : BitVec 64)
  | timeStatus (h : Hdr)
  | triggerArm (h : Hdr) (pin pol : BitVec 8) (count : BitVec 16) (width : BitVec 32) (t : TInst) (period : BitVec 64)
  | triggerDisarm (h : Hdr) (pin : BitVec 8)
  | memConfig (h : Hdr) (regions : BitVec 256) (params : BitVec 128)
  | memStatus (h : Hdr)
  | memDiag (h : Hdr)
  | memFreeze (h : Hdr)
  | memRestore (h : Hdr)
  | memThaw (h : Hdr) (t : Stamp)
  | memRead (h : Hdr) (addr : BitVec 64) (length : BitVec 16)
  | memWrite (h : Hdr) (addr : BitVec 64) (length : BitVec 16) (data : List Byte)
  | twinPair (h : Hdr) (pairId : BitVec 16) (index role : BitVec 8) (s : Stamp)
  | twinRejoin (h : Hdr) (s : Stamp)
  | twinSwap (h : Hdr)
  | twinUnpair (h : Hdr) (s : Stamp)
  | twinStatus (h : Hdr)
  | domainConfig (h : Hdr) (deviceId : BitVec 16)
  | accordJoin (h : Hdr) (slot : BitVec 8) (accord : BitVec 16) (s : Stamp) (members : List (BitVec 128))
  | accordLeave (h : Hdr) (slot : BitVec 8) (s : Stamp)
  | loopbackSet (h : Hdr) (path depth : BitVec 8) (mask : BitVec 256)
  | captureStart (h : Hdr) (point index : BitVec 16) (dest : BitVec 8) (t : TInst) (words : BitVec 32) (offset : BitVec 64)
  | captureStop (h : Hdr) (point index : BitVec 16)
  | bistRun (h : Hdr) (target : BitVec 16)
  | flashWrite (h : Hdr) (offset : BitVec 32) (erase : BitVec 8) (data : List Byte)
  | flashRead (h : Hdr) (offset : BitVec 32) (length : BitVec 16)
  | fuseRead (h : Hdr) (region : BitVec 8)
  | fuseProgram (h : Hdr) (region : BitVec 8) (bit count : BitVec 16) (bits : List Byte)
  -- completions
  | fuseBitProgram (ok : Bool)
  | formulaVerifyComplete
  | hostJobComplete (opcode : BitVec 16)
  | memRestoreComplete (eyes8 eyesS : List (Nat × Nat))
  | bistComplete (fails : BitVec 32) (eyes8 eyesS : List (Nat × Nat))
  | flashWriteComplete
  -- cluster instructions: cluster or lowest gang member, background context, word
  | nop (k : Fin 96) (bg : Bool) (w : AeW)
  | mac (k : Fin 96) (bg : Bool) (w : AeW)
  | tap (k : Fin 96) (bg : Bool) (w : AeW)
  | adds (k : Fin 96) (bg : Bool) (w : AeW)
  | addr (k : Fin 96) (bg : Bool) (w : AeW)
  | adda (k : Fin 96) (bg : Bool) (w : AeW)
  | gxa (k : Fin 96) (bg : Bool) (w : AeW)
  | exp (k : Fin 96) (bg : Bool) (w : AeW)
  | norm (k : Fin 96) (bg : Bool) (w : AeW)
  | ash (k : Fin 96) (bg : Bool) (w : AeW)
  | rcps (k : Fin 96) (bg : Bool) (w : AeW)
  | rsqs (k : Fin 96) (bg : Bool) (w : AeW)
  | rdw (k : Fin 96) (bg : Bool) (w : AeW)
  | rdc (k : Fin 96) (bg : Bool) (w : AeW)
  | rdb (k : Fin 96) (bg : Bool) (w : AeW)
  | rdr (k : Fin 96) (bg : Bool) (w : AeW)
  | mov (k : Fin 96) (bg : Bool) (w : AeW)
  | unpk (k : Fin 96) (bg : Bool) (w : AeW)
  | zero (k : Fin 96) (bg : Bool) (w : AeW)
  | setp (k : Fin 96) (bg : Bool) (w : AeW)
  | addp (k : Fin 96) (bg : Bool) (w : AeW)
  | movp (k : Fin 96) (bg : Bool) (w : AeW)
  | rep (k : Fin 96) (bg : Bool) (w : AeW)
  | loop (k : Fin 96) (bg : Bool) (w : AeW)
  | jmp (k : Fin 96) (bg : Bool) (w : AeW)
  | rel (k : Fin 96) (bg : Bool) (w : AeW)
  | jwait (k : Fin 96) (bg : Bool) (w : AeW)
  | jdone (k : Fin 96) (bg : Bool) (w : AeW)
  | endProg (k : Fin 96) (bg : Bool) (w : AeW)
  | jobPartPlaced (k : Fin 96)
  | bgSuspendRequest (k : Fin 96)
  | bgSuspend (k : Fin 96)
  -- the beat
  | beatBoundary (peerLead peerAlive : Bool)
  | unitStart (unit : Fin 15) (inst : Fin 96)
  | unitComplete (unit : Fin 15) (inst : Fin 96)
  | budgetOverrun (unit : Fin 15) (inst : Fin 96)
  | unitStatePublish (deviating : List (Fin 15 × Fin 96 × UState))
  | digestRecord
  | idleGuardStart
  | moveStart (idx : Nat)
  | moveEnd (idx : Nat)
  | admissionInstant (c : Fin 4)
  | ddReadDeadline (c : Fin 4)
  | accordPartialDeadline (slot : Fin 64)
  | recombineDeadline (c : Fin 4)
  -- element links
  | laneMultiblock (e : Fin 256) (samples : List (BitVec 16 × BitVec 16)) (badHeaders : BitVec 32) (crcOk : Bool)
  | embBoundary (e : Fin 256) (stamp : Int) (inPlace : Bool)
  | laneBlockLock (e : Fin 256)
  | laneEmbLock (e : Fin 256)
  | laneTrainTimeout
  | laneRateFault (e : Fin 256) (ppm : BitVec 16)
  | laneCdrLoss (e : Fin 256)
  | elasticBufferSlip (e : Fin 256)
  | alignPulse
  -- Ethernet ports and time transfer
  | macFrameReject (f : RxFrame)
  | ecpriIqSection (f : RxFrame)
  | ecpriRtControl (f : RxFrame)
  | ecpriDelayMeasurement (f : RxFrame)
  | ptpAnnounce (f : RxFrame) (m : PtpMsg) (a : PtpAnnounce)
  | ptpSync (f : RxFrame) (m : PtpMsg)
  | ptpFollowUp (f : RxFrame) (m : PtpMsg)
  | ptpDelayResp (f : RxFrame) (m : PtpMsg)
  | ptpDelayReqSend (port : Fin 2) (capture : Int)
  | announceReceiptTimeout
  | syncTimeout
  | managementFrame (f : RxFrame)
  | accordExchangeFrame (f : RxFrame)
  | portUp (port : Fin 6)
  | portDown (port : Fin 6) (hiSer : Bool)
  | macTxPop (queue : BitVec 16)
  | macTxDone (port : Fin 6)
  -- egress, drydown, HBM
  | egressStagePush (fifo : Fin 16)
  | egressFifoDrain (fifo : Fin 16)
  | ddGroupEncode (c : Fin 4) (g : Fin 16)
  | hbmRequest (port : Fin 5) (write : Bool) (addr : BitVec 35) (data : List Byte)
  | hbmReadReturn (pc : Fin 32) (syndrome : BitVec 64) (uncorrectable : Bool)
  | stackErrorReport (parity : Bool) (pc : Fin 32)
  | stackCatastrophicTemp
  | refreshInterval (pc : Fin 32)
  | activateTableClear
  | pageTimeout (pc : Fin 32) (bank : Fin 48)
  | idleSelfRefresh
  | hbmFreqChangeDone
  | reservoirScrub
  -- the twin link
  | twHello (h : TwHdr) (p : HelloP)
  | helloSend
  | twForward (h : TwHdr) (port : Fin 6) (merged : Bool) (stamp : BitVec 36) (bytes : List Byte)
  | twClose (h : TwHdr) (kind index : BitVec 8) (beat : Stamp)
  | twVerdicts (h : TwHdr) (l : List Verdict)
  | twSeal (h : TwHdr) (rec : Digest) (digestR : BitVec 64) (verdicts : BitVec 14) (ripening : Bool)
  | twHeartbeat (h : TwHdr) (fitness cause role : BitVec 8) (last : Stamp)
  | twTime (h : TwHdr) (tTx : BitVec 64) (boundary : BitVec 72)
  | twCommand (h : TwHdr) (seq : BitVec 32) (opcode : BitVec 16) (act : Act) (go : Bool) (effect : Stamp)
  | twAck (h : TwHdr) (kind : BitVec 8) (status : BitVec 16) (seq : BitVec 32)
  | twState (h : TwHdr) (kind : BitVec 8) (unit : BitVec 4) (commit : Stamp) (addr : BitVec 64) (data : List Byte)
  | twHandover (h : TwHdr) (s : Stamp) (planned : BitVec 8)
  | twLinkUp
  | twLinkDown
  | commandAckTimeout
  | handoverAckTimeout
  | leadFailure
  | peerLost
  | leadSelSwitch
  | sillageWindowTimeout (c : Fin 4)
  | rejoinTimeout
  | deadManGate
  -- seconds and pulses
  | secondClose
  | holdoverLimit
  | triggerPulse (pin : Fin 8)
  -- BAR0 and the Nose
  | cmdDoorbell (index : BitVec 16) (heads : List (BitVec 32 × BitVec 16))
  | rspConsumeWrite (index : BitVec 16)
  | evtConsumeWrite (index : BitVec 16)
  | nosStatusClear (value : BitVec 32)
  | errStickyClear (value : BitVec 32)
  | snapshotTake (value : BitVec 32)
  | capturePop (ch : Fin 2) (value : BitVec 32)
  | bar0Write (offset : BitVec 16) (size : Fin 9) (value : BitVec 64)
  | msixMessage (vector : Fin 2)
  | leaseExpiry
  | leaseRegisterUpdate
  -- captures
  | captureBegin (ch : Fin 2)
  | captureWord (ch : Fin 2) (word : List Byte)
  -- resets and supply
  | powerOnReset
  | porRelease (run : StartRun)
  | startWatchdog (elapsedMs : BitVec 32)
  | warmReset
  | noseFirmwareFault
  | supplyUndervoltage (rail : Fin 4)
  | evThermal (sensor : Fin 16) (temp : BitVec 16)
  | thermtrip (sensor : Fin 16) (temp : BitVec 16)
  -- later rows
  | hbmCommandIssue (pc : Fin 32)
  | txExtendedMultiblock (e : Fin 256)
  | alignmentFailure
  | partialLoss (alive lead frames : Bool)
  | timeOutputPulseEnd (pin : PinOut)
  | captureFifoDrain (ch : Fin 2)
  | loopbackUnitChecked (path : Fin 4) (item : Fin 256) (ok : Bool)
deriving DecidableEq, Repr, Inhabited

end Sys2Proof
end

