-- ==== Sys2Proof/Config.lean ====
section
/-! DEFINITION. What the manual leaves open, as constants without a body: no proof can see a value of theirs. -/

namespace Sys2Proof.Config

/-- Coefficient `n` of channel response set `set` (0 to 31 linear phase, 32 to 63 minimum phase); R96 gives its
properties and no coefficient. Q1.19. -/
opaque respCoef : Nat → Nat → Int
/-- Coefficients of half-band filter HB1, 15 taps, Q1.17 (R95). -/
opaque hb1Coef : Nat → Int
/-- Coefficients of half-band filter HB2, 39 taps, Q1.17 (R95). -/
opaque hb2Coef : Nat → Int
/-- Coefficient h_j[i] of the resampler prototype, `protoCoef j i`, Q1.17 (R92). -/
opaque protoCoef : Nat → Nat → Int
/-- What a 48-bit sum of the canceller holds where the exact sum needs more than 48 bits (R147, R154 give no rule). -/
opaque sicWide : Nat → BitVec 48
/-- SHA-384 of the Kazren factory key, held in ROM (R412). -/
opaque factoryKeyHash : BitVec 384
/-- What an HBM byte reads as while its contents are undefined: generation, byte address (R337, R351, R445). -/
opaque hbmOpen : Nat → Nat → BitVec 8
/-- What a boot-flash byte reads as where the manual gives none: generation, byte offset (R426). -/
opaque flashOpen : Nat → Nat → BitVec 8
/-- The version of the ROM minimal firmware: major, minor, patch in one word (R414, NOS_ID_FW). -/
opaque romFirmware : BitVec 24
/-- A value the manual does not state, by kind and by the model's own count of such values. -/
opaque freeValue : Nat → Nat → Int
/-- Core cycles from the start of the TB counter to EV_NOSE_READY, by the number of failed starts before; only an upper
bound is given (R409). -/
opaque stepCycles : Nat → Nat
/-- Bytes of an erase sector of the boot flash; the manual names no size (R426). -/
opaque flashSector : Nat
/-- The 8 bytes in which MEM.DIAG gives a command of a pseudo-channel: code, bank, row, column; R351 gives no format. -/
opaque diagCommand : Nat → Nat → Nat → Nat → BitVec 64
/-- Reservoir offset at which the anchor keeps a raw pair: slot, member device, carrier, layer, first PRB, air beat; the
manual gives the pair's content and no place (R230). -/
opaque rawPairAddr : Nat → Nat → Nat → Nat → Nat → Nat → Nat
/-- Reservoir offset at which a move of the formula delivers a combined block, a partial-sum block, an aggregate block or
a job result block to the section builder: kind, carrier, layer, PRB, air beat; the formula fixes it and the manual gives
no map from an offset to a layer (R210, R218, R229, R231). -/
opaque blockAddr : Nat → Nat → Nat → Nat → Nat → Nat
/-- The program of AE instance `cluster` aggregates accord slot `slot` in the formula with this FORMULA_ID: R231 checks such
programs and the manual does not say how the Nose knows them. -/
opaque aggregates : Nat → Nat → Nat → Bool

end Sys2Proof.Config
end

