-- ==== Sys2Proof/Machine/Bytes.lean ====
section
/-! DEFINITION. Byte strings, bit fields, byte order, and the sparse byte memories. -/

namespace Sys2Proof.Machine
open Sys2Proof

/-- Bits [hi:lo] of a number (R2). -/
def bits (v hi lo : Nat) : Nat := v / 2 ^ lo % 2 ^ (hi + 1 - lo)

/-- Bit `i` of a number. -/
def bitN (v i : Nat) : Bool := v / 2 ^ i % 2 == 1

/-- A field of `w` bits read as two's complement. -/
def signed (w v : Nat) : Int := if v % 2 ^ w < 2 ^ (w - 1) then ((v % 2 ^ w : Nat) : Int) else ((v % 2 ^ w : Nat) : Int) - 2 ^ w

/-- An integer modulo 2^w, as the bits of its two's complement. -/
def wrapN (w : Nat) (v : Int) : Nat := (v % (2 ^ w : Int)).toNat

/-- One byte of a number. -/
def byteOf (v i : Nat) : Byte := BitVec.ofNat 8 (v / 2 ^ (8 * i))

/-- `n` bytes of a number, least significant first (R3). -/
def leBytes (n v : Nat) : List Byte := (List.range n).map (byteOf v)

/-- `n` bytes of a number, most significant first (R3). -/
def beBytes (n v : Nat) : List Byte := (leBytes n v).reverse

/-- The number a little-endian byte string holds. -/
def leNat : List Byte → Nat
  | [] => 0
  | b :: t => b.toNat + 256 * leNat t

/-- The number a big-endian byte string holds. -/
def beNat (l : List Byte) : Nat := l.foldl (fun a b => a * 256 + b.toNat) 0

/-- `n` bytes from offset `o`; past the end of the string there is nothing. -/
def slice (l : List Byte) (o n : Nat) : List Byte := (l.drop o).take n

/-- A big-endian field of a byte string. -/
def beAt (l : List Byte) (o n : Nat) : Nat := beNat (slice l o n)

/-- A little-endian field of a byte string. -/
def leAt (l : List Byte) (o n : Nat) : Nat := leNat (slice l o n)

/-- The bits of a number from the most significant of `w`, as a list. -/
def bitsMsb (w v : Nat) : List Bool := (List.range w).map (fun i => bitN v (w - 1 - i))

/-- The number a bit string spells, most significant bit first. -/
def natMsb (l : List Bool) : Nat := l.foldl (fun a b => a * 2 + (if b then 1 else 0)) 0

/-- A bit string packed into bytes, most significant bit first, zero bits at the end (R252). -/
def packBits (l : List Bool) : List Byte :=
  (List.range ((l.length + 7) / 8)).map
    (fun i => BitVec.ofNat 8 (natMsb ((List.range 8).map (fun j => l.getD (8 * i + j) false))))

/-- The bits of a byte string, most significant bit of the first byte first. -/
def unpackBits (l : List Byte) : List Bool := l.flatMap (fun b => bitsMsb 8 b.toNat)

/-- Zero bytes up to the next multiple of `m`. -/
def padTo (m : Nat) (l : List Byte) : List Byte :=
  l ++ List.replicate ((m - l.length % m) % m) 0

/-- `n` rounded up to a multiple of `m`. -/
def roundUp (n m : Nat) : Nat := (n + m - 1) / m * m

/-- The ceiling of a quotient. -/
def ceilDiv (n m : Nat) : Nat := (n + m - 1) / m

/-- The ceiling of an integer quotient by a positive number. -/
def ceilDivI (n : Int) (m : Nat) : Int := -((-n) / (m : Int))

/-! Byte memories: a byte that is not listed reads zero. -/

/-- One byte of a memory. -/
def rd8 (m : FMap Byte) (a : Nat) : Byte := FMap.get 0 m a

/-- One byte written; the memory stays canonical. -/
def wr8 (m : FMap Byte) (a : Nat) (b : Byte) : FMap Byte := FMap.put 0 m a b

/-- `n` bytes from address `a`. -/
def rdBytes (m : FMap Byte) (a n : Nat) : List Byte := (List.range n).map (fun i => rd8 m (a + i))

/-- A byte string stored from address `a`. -/
def wrBytes (m : FMap Byte) (a : Nat) : List Byte → FMap Byte
  | [] => m
  | b :: t => wrBytes (wr8 m a b) (a + 1) t

/-- A little-endian number of `n` bytes at `a`. -/
def rdLe (m : FMap Byte) (a n : Nat) : Nat := leNat (rdBytes m a n)

/-- A little-endian number of `n` bytes stored at `a`. -/
def wrLe (m : FMap Byte) (a n v : Nat) : FMap Byte := wrBytes m a (leBytes n v)

/-- Every byte of [a, a + n) becomes zero. -/
def clearRange (m : FMap Byte) (a n : Nat) : FMap Byte := m.filter (fun p => !(decide (a ≤ p.1 ∧ p.1 < a + n)))

/-- Two address ranges share a byte. -/
def overlaps (a n b m : Nat) : Bool := decide (a < b + m) && decide (b < a + n)

end Sys2Proof.Machine
end

