-- ==== Sys2Proof/Machine/Arith.lean ====
section
/-! DEFINITION. The arithmetic that every chapter narrows with: round_conv, saturation, sums of products, tables. -/

namespace Sys2Proof.Machine
open Sys2Proof

/-- `round_conv` of R88: `f` fraction bits removed, ties to even; nothing removed when `f` is 0. -/
def roundConv (v : Int) (f : Nat) : Int :=
  if f = 0 then v
  else
    let q := v / (2 ^ f : Int)
    let r := v % (2 ^ f : Int)
    let half : Int := 2 ^ (f - 1)
    if r > half || (r == half && q % 2 == 1) then q + 1 else q

/-- The quotient n / d rounded to an integer with ties to even, d positive. -/
def roundDiv (n : Int) (d : Nat) : Int :=
  let q := n / (d : Int)
  let r := n % (d : Int)
  if 2 * r > (d : Int) || (2 * r == (d : Int) && q % 2 == 1) then q + 1 else q

/-- `round_conv` of an exact rational to an integer. -/
def roundRat (q : Rat) : Int := roundDiv q.num q.den

/-- A value limited to [lo, hi]. -/
def clampI (lo hi v : Int) : Int := if v < lo then lo else if v > hi then hi else v

/-- A value saturated to `w`-bit two's complement. -/
def satI (w : Nat) (v : Int) : Int := clampI (-(2 ^ (w - 1))) (2 ^ (w - 1) - 1) v

/-- The value lies in `w`-bit two's complement. -/
def fitsI (w : Nat) (v : Int) : Bool := decide (-(2 ^ (w - 1)) ≤ v) && decide (v < 2 ^ (w - 1))

/-- 1 where saturation to `w` bits changes the value: one saturated part. -/
def satCount (w : Nat) (v : Int) : Nat := if fitsI w v then 0 else 1

/-- Sum of a list of integers. -/
def sumI (l : List Int) : Int := l.foldl (· + ·) 0

/-- Sum of a list of naturals. -/
def sumN (l : List Nat) : Nat := l.foldl (· + ·) 0

/-- Largest of a list, 0 for none. -/
def maxN (l : List Nat) : Nat := l.foldl Nat.max 0

/-- Smallest of a list, if any. -/
def minN : List Nat → Option Nat
  | [] => none
  | a :: t => some (t.foldl Nat.min a)

/-- Sum of the elements of a list of rationals. -/
def sumR (l : List Rat) : Rat := l.foldl (· + ·) 0

/-- Mean of a list of rationals, 0 of none. -/
def meanR (l : List Rat) : Rat := if l.length = 0 then 0 else sumR l / l.length

/-- The integer square root: the largest r with r × r ≤ n, by bisection on `k` bits. -/
def isqrtAux (n : Nat) : Nat → Nat → Nat
  | 0, r => r
  | k + 1, r => if (r + 2 ^ k) * (r + 2 ^ k) ≤ n then isqrtAux n k (r + 2 ^ k) else isqrtAux n k r

/-- Integer square root of a number below 2^256. -/
def isqrt (n : Nat) : Nat := isqrtAux n 128 0

/-! The mixing table of R93, by exact fixed-point series: 80 fraction bits, an angle in the first octant. -/

/-- pi in units of 2^-80. -/
def piFix : Nat := 3797952473636338580787993

/-- Terms of the sine and cosine series with 80 fraction bits: `t` the current term, `k` its index. -/
def trigAux (x2 : Nat) : Nat → Nat → Nat → Int → Int → Int
  | 0, _, _, _, acc => acc
  | fuel + 1, k, t, sgn, acc =>
    let t' := t * x2 / 2 ^ 80 / ((k + 1) * (k + 2))
    trigAux x2 fuel (k + 2) t' (-sgn) (acc - sgn * (t' : Int))

/-- cos of x (2^-80 units, 0 ≤ x ≤ pi/4), in 2^-80 units. -/
def cosFix (x : Nat) : Int := trigAux (x * x / 2 ^ 80) 14 0 (2 ^ 80) 1 (2 ^ 80)

/-- sin of x (2^-80 units, 0 ≤ x ≤ pi/4), in 2^-80 units. -/
def sinFix (x : Nat) : Int := trigAux (x * x / 2 ^ 80) 14 1 x 1 (x : Int)

/-- Cosine of 2 pi p / 32,768 in 2^-80 units, for p below 32,768, by symmetry from the first octant. -/
def cosTurn (p : Nat) : Int :=
  let ang (q : Nat) : Nat := piFix * q / 16384
  let p := p % 32768
  let p' := if p > 16384 then 32768 - p else p
  if p' ≤ 4096 then cosFix (ang p')
  else if p' ≤ 8192 then sinFix (ang (8192 - p'))
  else if p' ≤ 12288 then -(sinFix (ang (p' - 8192)))
  else -(cosFix (ang (16384 - p')))

/-- C(phi) of R93. -/
def mixC (p : Nat) : Int := clampI (-131071) 131071 (roundConv (cosTurn p) 63)

/-- S(phi) of R93: the cosine a quarter turn earlier. -/
def mixS (p : Nat) : Int := mixC (p + 24576)

end Sys2Proof.Machine
end

