-- ==== Sys2Proof/Machine/Parts.lean ====
section
/-! DEFINITION. The register groups, buffers and queues of the block's units: the parts State is made of. Rule numbers
name where the manual gives the piece; a piece marked MODEL is the model's own bookkeeping. -/

namespace Sys2Proof.Machine
open Sys2Proof

/-! ## The formula as the Nose reads it -/

/-- A QUEUE_MAP entry (R288). -/
structure QEntry where
  queue : Nat
  /-- 1 DL_INGRESS, 2 CONTROL, 3 UL_EGRESS, 4 AUX_EGRESS -/
  kind : Nat
  /-- bit 0 H0, bit 1 H1 -/
  ports : BitVec 2
  depth : Nat
  dst : Mac
  ring : Nat
deriving DecidableEq, Repr, Inhabited

/-- An output range of a cluster entry (R175). -/
structure OutRange where
  kind : Nat
  /-- Y memory -/
  y : Bool
  first : Nat
  count : Nat
deriving DecidableEq, Repr, Inhabited

/-- A cluster entry (R175). -/
structure ClEntry where
  fgEntry : Nat := 0
  bgEntry : Nat := 0
  bgxFirst : Nat := 0
  bgxRows : Nat := 0
  bgyFirst : Nat := 0
  bgyRows : Nat := 0
  bgEn : Bool := false
  /-- log2 of the gang size -/
  gang : Nat := 0
  outs : List OutRange := []
deriving DecidableEq, Repr, Inhabited

/-- The AE parameters (R175). -/
structure AePar where
  wgLog2 : List Nat := [0, 0, 0, 0]
  wlag : List Nat := [14, 14, 14, 14]
  suspendLead : Nat := 256
  clusters : List ClEntry := []
deriving DecidableEq, Repr, Inhabited

/-- The SQ parameters (R289); `none` for a base of 0xFFFF_FFFF. -/
structure SqPar where
  clean : List (Option Nat) := []
  sref : List (Option Nat) := []
  ersq : List (Option Nat) := []
  dlb : List (Option Nat) := []
  winBeat : List Nat := []
  winBase : Option Nat := none
  winBytes : Nat := 0
  pktBase : Option Nat := none
  pktBuffers : Nat := 256
  horizon : Nat := 28
deriving DecidableEq, Repr, Inhabited

/-- The drydown parameters (R235). -/
structure DdPar where
  jobClusters : BitVec 96
  base : Nat
  bytes : Nat
  inBase : Nat
  wstore : Nat
  wslotBytes : Nat
  wgBytes : Nat
  resultBase : List Nat
  wslots : Nat
  retain : Nat
  effort : Nat
  resultLog2 : Nat
deriving DecidableEq, Repr, Inhabited

/-- An AE program of an image (R30, R187): the first byte of its range and its bytes. -/
structure Prog where
  cluster : Nat
  first : Nat
  bytes : List Byte
deriving DecidableEq, Repr, Inhabited

/-- A verified formula image, as its sections say (R27 to R34). -/
structure Formula where
  id : BitVec 32
  revision : BitVec 16
  cls : BitVec 32
  length : Nat
  drydown : Bool
  accord : Bool
  sbfd : Bool
  topnote : Bool
  carriers : List Carrier
  queues : List QEntry
  budgets : List Budget
  moves : List Move
  deadlines : List Deadline
  substs : List Subst
  efe : List EfePar
  stu : List (Option StuPar)
  sic : List SicPar
  geo : List Geo
  ae : AePar
  sq : SqPar
  dd : Option DdPar
  progs : List Prog
  /-- SHA-384 of the image (R363) -/
  hash : BitVec 384
deriving DecidableEq, Repr, Inhabited

/-! ## The Nose -/

/-- When a scheduled effect applies. -/
inductive When where
  | now
  | nextSlot
  | nextBeat
  | at (s : Stamp)
deriving DecidableEq, Repr, Inhabited

/-- A command accepted for a boundary (R399). -/
structure Sched where
  /-- boundary -/
  when : When
  /-- effect -/
  act : Act
deriving DecidableEq, Repr, Inhabited

/-- What a long-running command is doing (R397, R400). -/
inductive JobBody where
  | verify
  | recombine (carrier : Nat) (queue : Nat) (first last : Stamp) (layers : BitVec 64)
  | csi (carrier : Nat) (queue : Nat) (beat : Stamp) (layers : BitVec 64)
  | ddFetch (queue : Nat) (first last : Stamp)
  | codec (decode reserve : Bool) (queue count src dst dstBytes : Nat)
  | memRestore
  | bist (target : BitVec 16)
  | flash (offset : Nat) (erase : Bool) (data : List Byte)
  | fuse (region : Nat) (bit : Nat) (bits : List Bool)
  | pairWait (seq : BitVec 32) (act : Act) (when : When) (sentAt : Int) (payload : List Fld)
  | swap (s : Stamp) (acked : Bool)
  /-- ended by an event (R243, R244, R351): the result it will report -/
  | failed (result : Nat)
deriving DecidableEq, Repr, Inhabited

/-- A long-running command in progress. -/
structure Job where
  src : Src
  tag : BitVec 32
  opcode : BitVec 16
  arrivalNs : BitVec 32
  body : JobBody
deriving DecidableEq, Repr, Inhabited

/-- What the check of a command ends in: a response, or a long-running command's later one. -/
inductive Reply where
  | done (status : Nat) (payload : List Fld) (effect : Option Stamp) (next : Nat)
  | later
deriving DecidableEq, Repr, Inhabited

/-- A command an in-band channel has had taken (R395), with its response once there is one. -/
structure Kept where
  src : Src
  tag : BitVec 32
  opcode : BitVec 16
  rsp : Option Response
deriving DecidableEq, Repr, Inhabited

/-- The Nose: lease, rings, events, commands in progress. -/
structure NoseSt where
  /-- operating mode (R18) -/
  mode : Mode
  /-- MBX_READY: the mailbox serves commands (R450 table NOS_MODE) -/
  mbxReady : Bool
  /-- running firmware: major, minor, patch -/
  fwVer : BitVec 24
  /-- FW_KIND -/
  fwKind : BitVec 2
  /-- lease holder and channel; none: free (R388) -/
  lease : Option (BitVec 64 × Src)
  /-- TIMEOUT_MS of the lease (R389) -/
  timeoutMs : Nat
  /-- TB time (2^-40 ns) at which the lease timer last restarted (R389) -/
  leaseAt : Int
  /-- NOS_CMD_PRODUCE (R391) -/
  cmdProd : BitVec 16
  /-- NOS_CMD_CONSUME -/
  cmdCons : BitVec 16
  /-- NOS_RSP_PRODUCE -/
  rspProd : BitVec 16
  /-- NOS_RSP_CONSUME -/
  rspCons : BitVec 16
  /-- NOS_EVT_PRODUCE -/
  evtProd : BitVec 16
  /-- NOS_EVT_CONSUME -/
  evtCons : BitVec 16
  /-- entries that have arrived and are not yet taken, oldest first (R396) -/
  arrived : List Head
  /-- response ring, by slot (R391) -/
  rspRing : FMap Response
  /-- event ring, by slot (R391) -/
  evtRing : FMap Event
  /-- SEQ of the next written event (R403) -/
  evtSeq : BitVec 32
  /-- events dropped and not yet reported by EV_EVENTS_LOST (R404) -/
  evtLost : Nat
  /-- EVENT.MASK (R404) -/
  evtMask : BitVec 256
  /-- kept responses and outstanding commands of in-band channels, newest first (R395) -/
  kept : List Kept
  /-- long-running commands in progress (R397) -/
  jobs : List Job
  /-- commands accepted for a boundary, in arrival order (R399) -/
  sched : List Sched
  /-- responses, events written since the last MSI-X message (R392) -/
  msixDue : BitVec 2
  /-- TB times of the last message per vector (R392) -/
  msixAt : List Int
  /-- DEVICE_ID in force (R383) -/
  deviceId : BitVec 14
  /-- scheduled warm reset: 0 device, 1 Nose (R406) -/
  resetDue : Option (BitVec 8)
deriving DecidableEq, Repr, Inhabited

/-- The fuse array (R423). -/
structure Fuses where
  factory : BitVec 128
  identity : BitVec 304
  fwKeys : BitVec 1544
  fmKeys : BitVec 1544
  rollback : BitVec 64
  policy : BitVec 16
deriving DecidableEq, Repr, Inhabited

/-- Resets, start sequence, always-on domain, flash and fuses (R406 to R426). -/
structure BootSt where
  /-- held in reset (por_n low, undervoltage, thermtrip) or reset not yet released -/
  held : Bool
  /-- the reset whose release is due: 0 power-on, 1 device warm, 2 Nose warm (R406) -/
  kind : Nat
  /-- thermtrip_n asserted (R475) -/
  thermtrip : Bool
  /-- failed-start counter (R413) -/
  failCount : BitVec 2
  /-- boot records, oldest first, at most 4 (R415): 256-bit records -/
  records : List (BitVec 256)
  /-- attempt words of the failed starts of this series, oldest first (R415) -/
  attempts : List (BitVec 64)
  /-- START_CAUSE of NOS_MODE -/
  startCause : BitVec 8
  /-- the mode a Nose warm reset returns to, and the EV_MODE it owes (R407) -/
  noseReturn : Option (Mode × Mode × BitVec 8)
  /-- the fuse array as it now stands (R423) -/
  fuses : Fuses
  /-- the values sensed at the last start (R423) -/
  sensed : Fuses
  /-- boot flash: bytes written since delivery (R411) -/
  flash : FMap Byte
  /-- MODEL: bytes whose contents are undefined after an interrupted write, as (first, count, generation) (R426) -/
  flashUndef : List (Nat × Nat × Nat)
  /-- MODEL: generation of undefined contents -/
  gen : Nat
  /-- TB time of the last EV_THERMAL (R475) -/
  thermalAt : Option Int
deriving DecidableEq, Repr, Inhabited

/-- The BAR0 registers that are no view of other state (R449 to R459). -/
structure Bar0St where
  /-- NOS_STATUS [2:0]: POP_EMPTY, NOSE_RESET, BAD_ACCESS -/
  status : BitVec 3
  /-- NOS_ERR_STICKY [7:0] -/
  sticky : BitVec 8
  /-- NOS_ERR_SUMMARY -/
  summary : BitVec 32
  /-- NOS_ERR_LAST_INDEX -/
  lastIndex : BitVec 32
  /-- NOS_ERR_FENCED_AE0 to AE2 -/
  fencedAe : BitVec 96
  /-- NOS_ERR_FENCED_UNITS -/
  fencedUnits : BitVec 32
  /-- NOS_LEASE_HOLDER_LO and HI -/
  leaseHolder : BitVec 64
  /-- CHANNEL of NOS_LEASE_INFO -/
  leaseChannel : BitVec 8
  /-- REMAIN_MS of NOS_LEASE_INFO -/
  leaseRemain : BitVec 16
  /-- FRM_SNAP_GEN (R456) -/
  snapGen : BitVec 32
  /-- FRM_SNAP_BEAT -/
  snapBeat : Stamp
  /-- unit state words that differ from their reset value, key 128 u + k (R455) -/
  words : FMap (BitVec 32)
  /-- TB_SNAP_CTRL VALID (R457) -/
  tsValid : Bool
  /-- TAKES -/
  tsTakes : BitVec 16
  /-- latched counter -/
  tsCounter : BitVec 72
  /-- latched full-time seconds -/
  tsSec : BitVec 48
  /-- latched full-time nanoseconds -/
  tsNs : BitVec 32
  /-- latched TB_EPOCH -/
  tsEpoch : BitVec 16
  /-- latched beat stamp -/
  tsBeat : Stamp
  /-- latched discipline state -/
  tsState : BitVec 3
  /-- latched cycle offset -/
  tsCycle : BitVec 17
  /-- NOS_SCRATCH0 to 7 -/
  scratch : BitVec 256
  /-- MSI-X table words that have been written, by word offset -/
  msixTable : FMap (BitVec 32)
deriving DecidableEq, Repr, Inhabited

/-! ## The formula sequencer -/

/-- A load in progress (R400, FORMULA.LOAD). -/
structure Load where
  total : Nat
  /-- bytes received so far -/
  got : Nat
  /-- the final chunk has arrived and verification runs -/
  verifying : Bool
deriving DecidableEq, Repr, Inhabited

/-- A packet or frame assembled in the work beat, for the digest (R51). -/
structure Digested where
  /-- 2: packet of a queue, 3: accord frame -/
  group : Nat
  /-- queue ID or port -/
  key : Nat
  /-- section-header BEAT, for DIGEST_R (R381) -/
  beat : Stamp
  /-- a UL_EGRESS queue -/
  ul : Bool
  /-- bytes, time stamps zeroed -/
  bytes : List Byte
deriving DecidableEq, Repr, Inhabited

/-- FRM (R20 to R55, R476, R477). -/
structure FrmSt where
  /-- formula slot in use (R35, FSLOT) -/
  slot : Fin 2
  /-- active image -/
  active : Option Formula
  /-- pending verified image -/
  pending : Option Formula
  /-- load in progress -/
  load : Option Load
  /-- formula executing (R18) -/
  executing : Bool
  /-- linear beat number of the common starting state S (R54) -/
  startBeat : Nat
  /-- linear beat number S of the rupture under way, or of the last one (R39) -/
  ruptureS : Option Nat
  /-- unit instances running their beat program, key 128 u + i -/
  running : List Nat
  /-- unit instances whose program completed in this beat -/
  completed : List Nat
  /-- unit instances stopped at LIMIT in this beat (R24) -/
  overrun : List Nat
  /-- unit instances with a substitute output in this beat (R49 SUBST) -/
  subst : List Nat
  /-- AE instances that touched tainted data in this beat (R185) -/
  taint : List Nat
  /-- close-out done: 0 none, 1 states published, 2 digest written, 3 idle guard begun (R23) -/
  stage : Nat
  /-- next verdict SEQUENCE (R45) -/
  verdictSeq : BitVec 32
  /-- verdict log, oldest first, with the linear beat of each record (R47) -/
  vlog : List (Nat × Verdict)
  /-- records kept of the current beat (R47) -/
  vcount : Nat
  /-- records of this beat dropped under R47 -/
  vdropped : Nat
  /-- the last digest record (R52) -/
  digest : Option Digest
  /-- packets and frames of the work beat (R51) -/
  digested : List Digested
  /-- moves under way: index in the MOVES section (R476) -/
  moving : List Nat
  /-- moves of this beat that have ended -/
  moved : List Nat
  /-- fences in force, key 128 u + i (R437) -/
  fences : List Nat
  /-- consecutive publications at which managed and published state differed, key 128 u + i (R435, R436) -/
  splits : FMap Nat
  /-- instances whose loop run executes (R441): linear beat of its start -/
  loopRun : Option Nat
  /-- a step has opened a beat of the old timeline that lasts until S′ (R322) -/
  stepWait : Bool
deriving DecidableEq, Repr, Inhabited

/-! ## The time base -/

/-- The discipline states (R317), in the order of TIME.STATUS. -/
inductive TbState where
  | free | acquiring | locked | holdover | pathHold | stepNeeded
deriving DecidableEq, Repr, Inhabited

/-- A two-step Sync that waits for its Follow_Up (R316). -/
structure SyncHeld where
  /-- sequenceId -/
  seq : BitVec 16
  /-- receive stamp, 1/16 ns -/
  rx : Int
  /-- its correctionField, 1/16 ns -/
  corr : Int
  /-- the Delay_Req exchange it uses: t3, t4, correction -/
  ex : Option (Int × Int × Int)
deriving DecidableEq, Repr, Inhabited

/-- PTP on one host port (R315, R316). -/
structure PtpPort where
  /-- last Announce, with its sender and receive time (1/16 ns) -/
  announce : Option (PtpAnnounce × BitVec 64 × Int)
  /-- two-step Sync waiting for its Follow_Up -/
  sync : Option SyncHeld
  /-- Delay_Req sent: sequenceId, transmit stamp -/
  req : Option (BitVec 16 × Int)
  /-- next Delay_Req sequenceId -/
  nextSeq : BitVec 16
  /-- completed exchange: t3, t4, correction -/
  exchange : Option (Int × Int × Int)
  /-- delayAsymmetry A(p), 1/16 ns (R316) -/
  asym : Int
  /-- A(p) to use from the next whole second (R319) -/
  asymNext : Option Int
deriving DecidableEq, Repr, Inhabited

/-- An armed trigger (R326). -/
structure Trigger where
  /-- start in 2^-40 ns of full time -/
  t : Int
  /-- high time in ns -/
  width : Nat
  /-- period in ns, 0 for one pulse -/
  period : Nat
  /-- pulses, 0 for no limit -/
  count : Nat
  /-- low pulses -/
  low : Bool
  /-- pulses started -/
  done : Nat
deriving DecidableEq, Repr, Inhabited

/-- TB (R308 to R329). -/
structure TbSt where
  /-- the core clock runs and the counter counts -/
  run : Bool
  /-- full time in units of 2^-40 ns; the 72-bit counter is this modulo 2^72 (R308) -/
  t40 : Int
  /-- increment I (R308) -/
  inc : BitVec 48
  /-- TB_EPOCH (R323) -/
  epoch : BitVec 16
  /-- discipline state (R317) -/
  st : TbState
  /-- core cycles since the boundary that opened the beat (R9) -/
  cyc : Nat
  /-- shift of the beat (R25) -/
  shift : Nat
  /-- stamp of the open beat (R310) -/
  beat : Stamp
  /-- MODEL: beats since frame 0 of full time, not reduced: the linear beat number of the open beat -/
  lin : Nat
  /-- full time (2^-40 ns) of the boundary that opened the beat -/
  openT : Int
  /-- full time (2^-40 ns, rounded up) of the next boundary (R311) -/
  nextT : Int
  /-- frequency correction Fc, ns/s (R317) -/
  fc : Rat
  /-- slew term r, ns/s (R317) -/
  slew : Rat
  /-- sum of r since the state was entered (R316) -/
  slewSum : Rat
  /-- theta of the last second, ns -/
  theta : Rat
  /-- m of the last second, ns -/
  mpd : Rat
  /-- m_ref, ns -/
  mref : Rat
  /-- psi of the last 16 seconds of the state with their numbers, newest first -/
  psi : List (Nat × Rat)
  /-- qualification: theta and mean path delay of the seconds counted so far, newest first (R318) -/
  qual : List (Rat × Rat)
  /-- seconds in the state -/
  secs : Nat
  /-- consecutive seconds beyond TB_STEP_THRESHOLD -/
  big : Nat
  /-- consecutive deviating seconds (R319) -/
  dev : Nat
  /-- Fc at the start of the first deviating second -/
  fcBefore : Rat
  /-- (offset, mean path delay) of the exchanges of this second -/
  values : List (Rat × Rat)
  /-- seconds in HOLDOVER; EV_TIME_HOLDOVER_LIMIT raised -/
  hold : Nat
  holdRaised : Bool
  /-- TIME.ASYMMETRY came in PATH_HOLD and its second is the next to close (R318) -/
  pathAnswer : Nat
  /-- time parameters (R312) -/
  par : BitVec 512
  /-- selected port (R315) -/
  port : Option (Fin 2)
  /-- selected grandmaster and its class -/
  gm : BitVec 64
  gmClass : BitVec 8
  /-- the host ports' PTP state -/
  ptp : List PtpPort
  /-- RATIO in force, and by linear beat for the last beats, newest first (R324) -/
  ratio : BitVec 48
  ratios : List (Nat × BitVec 48)
  /-- stamps (1/16 ns) of the reference lane's boundaries without a gap, newest first (R324) -/
  bounds : List Int
  /-- armed triggers by pin (R326) -/
  triggers : FMap Trigger
  /-- pulse outputs now active, with the full time (2^-40 ns) at which they end (R325) -/
  pulses : List (PinOut × Int)
deriving DecidableEq, Repr, Inhabited

/-! ## Element links -/

/-- One RX lane with its TX lane (R74 to R82). -/
structure Lane where
  st : LaneSt
  /-- RATE_FAULT -/
  rateFault : Bool
  /-- carriers removed under R73, receive and transmit -/
  lateRx : BitVec 4
  lateTx : BitVec 4
  /-- TX_ACTIVE -/
  txActive : Bool
  /-- TX clock and framing from the reference lane (R78) -/
  txRef : Bool
  /-- ALIGNS -/
  aligns : BitVec 16
  /-- T_A(e) in 1/16 ns of full time (R67) -/
  ta : Int
  /-- RX samples and TX slots are numbered from an alignment boundary -/
  indexed : Bool
  /-- arrival stamp of the last extended multiblock boundary, 1/16 ns -/
  last : Option Int
  /-- fixed offset to the reference lane, 1/16 ns (R79) -/
  offset : Int
  /-- the lane regained EMB after LOST and its relock boundary is awaited (R81) -/
  relock : Bool
  /-- the lane holds EMB lock, also in LOST after it has regained it -/
  locked : Bool
  /-- awaits its alignment boundary: the first at or after this instant, 1/16 ns (R67) -/
  awaiting : Option Int
  /-- invalid sync headers among the last 64 blocks, newest in bit 0 (R82) -/
  bad : BitVec 64
  /-- the multiblock held until its CRC-12 arrives (R72) -/
  held : Option (List (BitVec 16 × BitVec 16))
  /-- the held multiblock opened at the last boundary -/
  heldNew : Bool
  /-- sent extended multiblocks since the alignment boundary (R71) -/
  txCount : Nat
  /-- the sillage awaits the lead's RELOCK or SYSREF T_A with this reason (R81, R84): T_A in 1/16 ns -/
  twinTa : Option Int
deriving DecidableEq, Repr, Inhabited

/-- LNK (R56 to R87). -/
structure LnkSt where
  /-- lane parameter words that differ from their reset value, by element (R74) -/
  par : FMap (BitVec 64)
  /-- lanes that differ from their reset value, by element -/
  lanes : FMap Lane
  /-- LNK_FS_KSPS (R61) -/
  fs : Nat
  /-- LNK_RATIO_LANE (R64) -/
  ratioLane : Fin 256
  /-- reference lane in force (R64) -/
  ref : Fin 256
  /-- LNK_SYSREF_WIDTH in ns (R65) -/
  width : Nat
  /-- LNK_ALIGN_SKEW[k] in byte k (R65) -/
  skew : BitVec 128
  /-- accepted LINK.ALIGN: T_S in 1/16 ns, pins, elements, pulse started (R65) -/
  align : Option (Int × BitVec 16 × BitVec 256 × Bool)
  /-- training began at this full time, 1/16 ns (R77) -/
  trainAt : Option Int
  /-- the reference switch whose next boundary is to be checked against its prediction (R79) -/
  refCheck : Bool
deriving DecidableEq, Repr, Inhabited

/-! ## Element front end -/

/-- The settings of one carrier that the EFE uses from a beat on (R103, R104). -/
structure EfeSet where
  carriers : List Carrier
  par : List EfePar
deriving DecidableEq, Repr, Inhabited

/-- Receive chain of one element (R89 to R92, R107). -/
structure EfeRx where
  /-- B0 of a zeroing to come: linear beat, verdict sequence (R107, R109) -/
  zeroAt : Option (Nat × BitVec 32)
  /-- the chain runs -/
  run : Bool
  /-- linear beat B0 of the last zeroing -/
  b0 : Nat
  /-- position register X, 40.40 (R91) -/
  x : BitVec 80
  /-- linear beat and index in it of the next output sample -/
  beat : Nat
  k : Nat
  /-- converter samples kept, oldest first, and the unwrapped index of the first -/
  hist : List Samp
  base : Nat
  /-- snapshots by linear beat: stage 2 and residual samples k = 1,408 to 1,663 (R148) -/
  snaps : FMap (List (Samp × Samp))
deriving DecidableEq, Repr, Inhabited

/-- Receive chain of one element and carrier (R95 to R98, R108). -/
structure EfeRxC where
  /-- stage histories, newest first: decimator input, HB2 input, FIR input -/
  h1 : List Samp
  h2 : List Samp
  h3 : List Samp
  /-- FIR outputs since B0 -/
  n : Nat
  /-- carrier samples of the air beat being collected, newest first, and its linear beat -/
  cur : List Samp
  curBeat : Nat
  /-- complete air beats: linear beat, samples, MISSING or settling (R110) -/
  ready : List (Nat × List Cplx × Bool)
deriving DecidableEq, Repr, Inhabited

/-- Transmit chain of one element and carrier (R100). -/
structure EfeTxC where
  h1 : List Samp
  h2 : List Samp
  h3 : List Samp
  /-- stage 4 samples not yet combined, oldest first, and the absolute index of the first (491.52 MSa/s) -/
  out : List Cplx
  base : Nat
deriving DecidableEq, Repr, Inhabited

/-- Transmit chain of one element after carrier combining (R100, R101). -/
structure EfeTx where
  run : Bool
  /-- position Y, 40.40 (R101) -/
  y : BitVec 80
  /-- linear beat B0 from whose boundary Y counts -/
  b0 : Nat
  /-- stage 5 samples, oldest first, and the absolute index of the first -/
  x5 : List Cplx
  base : Nat
deriving DecidableEq, Repr, Inhabited

/-- EFE (R88 to R111). -/
structure EfeSt where
  rx : FMap EfeRx
  /-- by 4 e + c -/
  rxc : FMap EfeRxC
  tx : FMap EfeTx
  /-- by 4 e + c -/
  txc : FMap EfeTxC
  /-- receive settings in force from a linear beat on, newest first (R104) -/
  rxSet : List (Nat × EfeSet)
  /-- transmit settings in force from a linear beat on, newest first -/
  txSet : List (Nat × EfeSet)
deriving DecidableEq, Repr, Inhabited

/-! ## Spectral transform and canceller -/

/-- One STU instance (R112 to R131). -/
structure StuC where
  /-- averages A[s] (R126) -/
  avg : FMap (BitVec 48)
  /-- the averages are empty -/
  empty : Bool
  /-- erasure table in force for the last air beat decided (R128) -/
  er : BitVec 3276
  /-- that table is not yet written at ER_BASE (R129) -/
  erDue : Bool
  /-- waves done in this beat: forward, inverse (R121) -/
  fwd : Nat
  inv : Nat
  /-- power sums S[s] of the air beat and contributing elements (R125) -/
  pow : FMap Nat
  ne : Nat
  /-- transmit samples of the last air beats, with the missing flag, by 256 × linear air beat + element (R123) -/
  tx : FMap (List Cplx × Bool)
  /-- transmit frequency records of the last air beats, kept for the ARRAY loopback, same key (R439) -/
  recs : FMap (List Byte)
  /-- BL_EN of the last update (R126) -/
  blWas : Bool
deriving DecidableEq, Repr, Inhabited

/-- Linear stage state of one (e, g) (R144, R147). -/
structure SicLin where
  /-- (a, d) per geometry slot -/
  coef : FMap (Cplx × Cplx)
  /-- residual estimate F; none: empty -/
  f : Option Nat
  /-- quiet count Nq -/
  nq : Nat
  /-- E_in and E_r of the last quiet beat -/
  ein : Nat
  er : Nat
  /-- the last non-quiet beat was held -/
  held : Bool
deriving DecidableEq, Repr, Inhabited

/-- Nonlinear stage state of one element (R139, R148). -/
structure SicNl where
  /-- w[q][t] at 4 q + t -/
  w : FMap Cplx
  f : Option Nat
  nq : Nat
  ein : Nat
  er : Nat
  held : Bool
  /-- coefficients that apply from the first RX sample of a linear beat (R149) -/
  next : List (Nat × FMap Cplx)
deriving DecidableEq, Repr, Inhabited

/-- SIC (R132 to R155). -/
structure SicSt where
  /-- linear state by (c × 256 + e) × 32 + g -/
  lin : FMap SicLin
  /-- nonlinear state by e -/
  nl : FMap SicNl
  /-- reference ring stamps by 4 c + slot (R142) -/
  ring : FMap Stamp
  /-- shallow groups of this slot by carrier (R153) -/
  shallow : FMap Nat
  /-- what the running instances will commit (R149): linear states, nonlinear states by element, ring stamps -/
  pendLin : FMap SicLin
  pendNl : FMap SicNl
  pendRing : FMap Stamp
deriving DecidableEq, Repr, Inhabited

/-! ## Array engine -/

/-- A data-memory cell (R158): word, MISS, TAINT, and the state of its check bits. -/
structure Cell where
  word : BitVec 48
  miss : Bool
  taint : Bool
  /-- 0 sound, 1 a single-bit error, 2 uncorrectable -/
  ecc : Fin 3
deriving DecidableEq, Repr, Inhabited

/-- One accumulator part (R166). -/
structure AccPart where
  a : BitVec 48
  x : Int
  lost : Bool
deriving DecidableEq, Repr, Inhabited

/-- One complex accumulator (R164). -/
structure Acc where
  i : AccPart
  q : AccPart
  real : Bool
  taint : Bool
deriving DecidableEq, Repr, Inhabited

/-- A block repeat in progress (R203). -/
structure Loop where
  start : Nat
  stop : Nat
  left : Nat
deriving DecidableEq, Repr, Inhabited

/-- One context, foreground or background, of a cluster (R167, R189). -/
structure Ctx where
  /-- executing its program -/
  run : Bool
  /-- next instruction index -/
  pc : Nat
  /-- scalar registers by select code (R189) -/
  regs : FMap Nat
  /-- accumulators by 128 acc + lane -/
  acc : FMap Acc
  /-- executions of the repeated instruction that remain, and whether it has executed once (R202) -/
  rep : Option Nat
  repFirst : Bool
  /-- block repeats, innermost first (R203) -/
  loops : List Loop
  /-- the last instruction ended an iteration of a block repeat (R178) -/
  iterEnd : Bool
  /-- accumulators written by the last two instructions, newest first (R205) -/
  wrote : List (Option Nat)
  /-- register written by SETP, ADDP or MOVP just before (R205) -/
  wroteReg : Option Nat
  /-- cycles used in this beat (R205) -/
  cycles : Nat
deriving DecidableEq, Repr, Inhabited

/-- A job part in a cluster (R246, R247): its job's carrier, linear air beat and kind, and its weight group. -/
structure Part where
  jobC : Nat
  jobLin : Nat
  host : Bool
  q : Nat
deriving DecidableEq, Repr, Inhabited

/-- One cluster (R156 to R186). -/
structure Cluster where
  x : FMap Cell
  y : FMap Cell
  /-- instruction memory (R187) -/
  imem : FMap (BitVec 64)
  fg : Ctx
  bg : Ctx
  /-- commit buffer of HOLD ranges, key 32,768 × (0 X, 1 Y) + cell (R180) -/
  commit : FMap Cell
  /-- cells the running foreground wrote outside its output ranges, or in a range of KIND 3 or 4 that is not held, same key
  (R179, R184) -/
  written : List Nat
  /-- released outbound cells, same key (R174) -/
  released : List Nat
  /-- sticky OVF (R170) -/
  ovf : Bool
  /-- suspension requested, background suspended (R178) -/
  suspReq : Bool
  suspended : Bool
  /-- the background waits in JWAIT, and the part it works on (R204, R247) -/
  jwait : Bool
  part : Option Part
  /-- the foreground completed in this beat -/
  done : Bool
deriving DecidableEq, Repr, Inhabited

/-- AE (R156 to R186) and the layer contexts (R208). -/
structure AeSt where
  clusters : FMap Cluster
  /-- layer contexts by 64 c + l (R208) -/
  layers : FMap (BitVec 128)
  /-- layer contexts of earlier work beats still needed, by linear beat, newest first (R222) -/
  layerLog : List (Nat × FMap (BitVec 128))
  /-- host weights by ((64 c + l) × 320 + q) × 256 + e: I in [31:16], Q in [15:0] (R215) -/
  weights : FMap (BitVec 32)
  /-- weight versions by 64 c + l: linear beat from which, stamp, newest first (R214, R215) -/
  versions : FMap (List (Nat × Stamp))
  /-- clusters with a tainted commit in this beat (R184) -/
  persist : BitVec 96
deriving DecidableEq, Repr, Inhabited

/-! ## Stream queues -/

/-- An item held in a window (R293): a DL_LAYER section or a control message. -/
structure Item where
  control : Bool
  queue : Nat
  /-- section ID or MSG_ID -/
  ident : Nat
  /-- receiving port -/
  port : Nat
  /-- receive stamp of the last byte, 1/16 ns -/
  stamp : Int
  /-- message bytes after the eCPRI common header, PAYLOAD_SIZE of them -/
  bytes : List Byte
  /-- the frame that it came in, for a forward (R376) -/
  frame : List Byte
  /-- a conflicting copy arrived (R41) -/
  conflict : Bool
deriving DecidableEq, Repr, Inhabited

/-- A reorder window (R293). -/
structure Window where
  c : Nat
  beat : Stamp
  items : List Item
  /-- queue depths under which it opened (R305) -/
  depths : List (Nat × Nat)
  /-- items evicted: identities refused ever after (R294) -/
  evicted : List (Bool × Nat × Nat)
deriving DecidableEq, Repr, Inhabited

/-- A kept control entry (R279). -/
structure CtlEntry where
  /-- 0 DL, 1 UL, 2 SOUNDING -/
  dir : Nat
  layer : Nat
  startPrb : Nat
  numPrb : Nat
  section_ : Nat
  comb : Nat
  offset : Nat
  seq : Nat
deriving DecidableEq, Repr, Inhabited

/-- A stage of an egress or capture FIFO (R299). -/
structure Stage where
  /-- 64 bytes -/
  data : List Byte
  first : Bool
  last : Bool
  valid : Nat
  /-- 0 sound, 1 single-bit error, 2 uncorrectable -/
  ecc : Fin 3
deriving DecidableEq, Repr, Inhabited

/-- One section's combination (R218), aggregate (R231) or re-combination (R227), kept until its heart position. -/
structure Combo where
  n : Nat
  startPrb : Nat
  numPrb : Nat
  /-- PRB payloads -/
  payload : List Byte
  /-- a missing PRB -/
  miss : Bool
  /-- every block is a ZERO_MISSING substitute of the AE (R306) -/
  sub : Bool
  /-- built from tainted data (R183) -/
  prov : Bool
deriving DecidableEq, Repr, Inhabited

/-- An open note (R223, R225). -/
structure Note where
  /-- opening order -/
  id : Nat
  queue : Nat
  c : Nat
  l : Nat
  beat : Stamp
  section_ : Nat
  n : Nat
  startPrb : Nat
  numPrb : Nat
  /-- payload bytes as sent -/
  payload : List Byte
  /-- a dependent note with the notes it waits for; none: a top note -/
  depends : Option (List Nat)
  /-- one of them was revoked -/
  revoked : Bool
deriving DecidableEq, Repr, Inhabited

/-- What an egress packet is (R271, R274). -/
inductive Due where
  /-- top-note section of air beat `lin`: carrier, layer, n, first PRB, PRBs; `sub`: every PRB missing under the rule for
  OUTPUT 0x02 (R306) -/
  | top (c l lin n startPrb numPrb : Nat) (sub : Bool)
  /-- heart section of air beat `lin` -/
  | heart (c l lin : Nat) (b : Combo)
  /-- note record (R224), its time stamp zero, with the fields its section header copies -/
  | note (c l : Nat) (beat : Stamp) (section_ : Nat) (rec : List Byte)
  /-- a section replaced under SKIP -/
  | missing (c l lin n startPrb numPrb : Nat) (heart : Bool)
  /-- output of a host command: section header with its time stamp zero, and what follows it; `void`: the codec failed
  part-way (R303) -/
  | aux (body : List Byte) (void : Bool)
deriving DecidableEq, Repr, Inhabited

/-- A packet in an egress FIFO. -/
structure Pkt where
  queue : Nat
  prov : Bool
  /-- beat stamp of its descriptor -/
  beat : Stamp
  /-- nanoseconds at which the FIFO completed it, and the linear beat in which it did; none: not complete -/
  time : Option (BitVec 32 × Nat)
  /-- frame bytes -/
  len : Nat
  /-- frame offsets of its time-stamp fields (R276) -/
  timeAt : List Nat
  /-- it ends with the void marker (R303) -/
  void : Bool
deriving DecidableEq, Repr, Inhabited

/-- A packet that a FIFO's write side works on. -/
structure Writing where
  queue : Nat
  due : Due
  /-- stages not yet in the FIFO -/
  stages : List Stage
  /-- bytes that the digest takes; none: output of a host command (R51) -/
  digest : Option (List Byte)
  /-- the note that the packet opens -/
  note : Option Note
deriving DecidableEq, Repr, Inhabited

/-- One egress assembly FIFO with its two sides (R299 to R303). -/
structure Fifo where
  stages : List Stage
  /-- packets still to be assembled, in order: queue and what they are -/
  due : List (Nat × Due)
  /-- the packet being pushed -/
  writing : Option Writing
  /-- packets in the FIFO, oldest first -/
  packets : List Pkt
  /-- the drain's open packet: buffer index (none: no free buffer), bytes written, void -/
  draining : Option (Option Nat × Nat × Bool)
deriving DecidableEq, Repr, Inhabited

/-- Descriptor ring state (R290). -/
structure Ring where
  rd : Nat
  wr : Nat
  d : Nat
  /-- DEPTH_LOG2 in force -/
  n : Nat
deriving DecidableEq, Repr, Inhabited

/-- SQ (R288 to R307). -/
structure SqSt where
  windows : List Window
  /-- shadow windows of a sillage (R368) -/
  shadow : List Window
  /-- carrier beats whose window is closed: 4 × linear beat + c, newest first -/
  closed : List Nat
  /-- kept control entries by 4 × linear beat + c (R279); listed once the control was complete -/
  control : FMap (List CtlEntry)
  rings : FMap Ring
  /-- depths set by QUEUE.RESIZE (R305) -/
  depths : FMap Nat
  /-- packet buffers in use (R301) -/
  used : List Nat
  /-- frames being sent by port: buffer, queue, bytes (R292) -/
  sending : FMap (Nat × Nat × Nat)
  fifos : FMap Fifo
  /-- SEQ of each queue (R270) -/
  seq : FMap (BitVec 8)
  notes : List Note
  nextNote : Nat
  /-- blocks delivered by moves of this and the last work beats: linear work beat, offset, length (R210) -/
  delivered : List (Nat × Nat × Nat)
  /-- packets held in SILLAGE by work beat: linear beat, buffer (R373) -/
  held : List (Nat × Nat)
  /-- combinations of R218 whose heart position is to come, by 64 × (4 × linear air beat + c) + l (R222) -/
  combos : FMap (List Combo)
  /-- accord aggregates and re-combinations taken at their deadline, same key (R231, R247) -/
  finals : FMap (List Combo)
  /-- erasure tables of the air beats whose egress is not complete, by 4 × linear air beat + c (R220) -/
  er : FMap (BitVec 3276)
  /-- linear work beat for which SQ's due list was made -/
  listed : Option Nat
deriving DecidableEq, Repr, Inhabited

/-! ## Drydown -/

/-- How a re-combining job stands (R246 to R250). -/
inductive JobSt where
  | running | done | readMissed | overtaken | frozen | failed | rupture | skipped
deriving DecidableEq, Repr, Inhabited

/-- A re-combining job, scheduled (R246) or of RECOMBINE.RUN (R228). -/
structure RcJob where
  c : Nat
  /-- linear air beat -/
  lin : Nat
  /-- of a host command -/
  host : Bool
  st : JobSt
  /-- re-combined layers with their store slots, in ascending layer -/
  slots : List (Nat × Nat)
  /-- parts not yet placed: (group q, cluster) -/
  todo : List (Nat × Nat)
  /-- parts not yet handed back -/
  open_ : Nat
  /-- result blocks of a host job by 512 l + p -/
  out : FMap (List Byte)
deriving DecidableEq, Repr, Inhabited

/-- DD (R235 to R263). -/
structure DdSt where
  /-- write index i (R237) -/
  i : Nat
  /-- ring length N in force -/
  n : Nat
  /-- ring length to take at the next wrap (R241) -/
  nNext : Option Nat
  /-- flacon map: index to air beat stamp (R237) -/
  map : FMap Stamp
  /-- flacons made VALID, with the linear work beat from which they are retained: index, linear beat (R239) -/
  valid : FMap Nat
  /-- flacon being written: index, air beat (linear), groups encoded, coded bytes -/
  writing : Option (Nat × Nat × Nat × Nat)
  /-- linear air beats written since the ring was emptied, newest first (R257) -/
  history : List Nat
  /-- rewind mark (R243) -/
  mark : Option Stamp
  jobs : List RcJob
  /-- linear work beat from which the ring is closed by a freeze (R244) -/
  frozenFrom : Option Nat
  /-- first linear air beat that jobs can read after the last thaw (R244) -/
  firstLin : Nat
  /-- archived channel-state blocks: key of (c, sounding beat linear, layer), blocks (R233) -/
  archive : FMap (List (List Byte))
deriving DecidableEq, Repr, Inhabited

/-! ## Ports -/

/-- State of an Ethernet port (R268, R269). -/
structure PortSt where
  /-- 0 OFF, 1 TRAINING, 2 UP, 3 DOWN -/
  st : Fin 4
  aligned : Bool
  hiSer : Bool
  downs : BitVec 16
  /-- a type 5 message was answered in this beat (R282) -/
  measured : Bool
  /-- own type 5 request outstanding: measurement ID, transmit stamp in 1/16 ns -/
  request : Option (BitVec 8 × Int)
deriving DecidableEq, Repr, Inhabited

/-- A partial sum that arrived at the anchor (R285). -/
structure Partial where
  slot : Nat
  sender : Nat
  beat : Stamp
  c : Nat
  l : Nat
  p0 : Nat
deriving DecidableEq, Repr, Inhabited

/-- FHP (R264 to R287). -/
structure FhpSt where
  /-- port parameter words that differ from their reset value (R268) -/
  par : FMap (BitVec 128)
  ports : FMap PortSt
  arrived : List Partial
  /-- members late at a deadline: slot, sender, linear air beat (R232) -/
  late : List (Nat × Nat × Nat)
  /-- staged sounding sequences: S, sequence, complete, bytes by offset (R400) -/
  staged : List (Stamp × Nat × Bool × FMap Byte)
deriving DecidableEq, Repr, Inhabited

/-! ## Memory -/

/-- A request queued at a pseudo-channel (R341). -/
structure HbmReq where
  /-- arrival number in its pseudo-channel -/
  seq : Nat
  /-- 0 RTW, 1 RTR, 2 NRA, 3 NRC, 4 NRH -/
  port : Fin 5
  write : Bool
  addr : Nat
  /-- bank 0 to 47, row and column (R334) -/
  bank : Nat
  row : Nat
  col : Nat
  data : List Byte
  /-- arrival in 2^-40 ns of full time -/
  at_ : Int
  /-- issued, awaiting its return -/
  issued : Bool
deriving DecidableEq, Repr, Inhabited

/-- A bank of a pseudo-channel (R342, R345, R347). -/
structure Bank where
  /-- open row -/
  row : Option Nat
  /-- L, the row opened last -/
  last : Option Nat
  /-- page counter -/
  ctr : BitVec 2
  /-- activate table: row, count -/
  acts : List (Nat × Nat)
  /-- row that owes a neighbour refresh -/
  neighbour : Option Nat
  /-- in-order mode until the write with this arrival number has issued (R343) -/
  inOrder : Option Nat
  /-- busy with a per-bank refresh until this full time, 2^-40 ns -/
  busy : Int
deriving DecidableEq, Repr, Inhabited

/-- A command of a pseudo-channel, for the freeze capture (R351). -/
structure HbmCmd where
  /-- 1 read, 2 write, 3 per-bank refresh, 4 neighbour refresh, 5 self-refresh entry -/
  code : Nat
  bank : Nat
  row : Nat
  col : Nat
deriving DecidableEq, Repr, Inhabited

/-- A pseudo-channel (R334, R341 to R347). -/
structure PcSt where
  queue : List HbmReq
  nextSeq : Nat
  banks : FMap Bank
  /-- refresh debt -/
  debt : Nat
  /-- banks refreshed of the unit being retired; 0: none begun -/
  unit : Nat
  /-- the unit is forced -/
  forced : Bool
  /-- full time of the last per-bank refresh, 2^-40 ns -/
  refAt : Option Int
  /-- last commands, newest first, at most 64 -/
  last : List HbmCmd
deriving DecidableEq, Repr, Inhabited

/-- HBM power states (R348), in the order of MEM.STATUS. -/
inductive HbmSt where
  | reset | active | selfRefresh | clocksStopped | frozen
deriving DecidableEq, Repr, Inhabited

/-- The freeze capture (R351). -/
structure Diag where
  cause : BitVec 8
  pc : Nat
  sid : Nat
  bank : Nat
  row : Nat
  col : Nat
  synd : BitVec 64
  cmds : List HbmCmd
deriving DecidableEq, Repr, Inhabited

/-- MEM and the on-chip regions (R330 to R355, R476). -/
structure MemSt where
  /-- Reservoir bytes that are not zero (R330) -/
  res : FMap Byte
  /-- 64-byte lines with a latent error, by 2^32 × region + line: 1 single-bit, 2 uncorrectable (R333, R428); region 0 the
  Reservoir, 1 the front-end region, 2 the codec-and-FIFO region -/
  bad : FMap (Fin 3)
  /-- front-end, transform and canceller region, bytes that are not zero -/
  fe : FMap Byte
  /-- codec-and-FIFO region, bytes that are not zero -/
  cf : FMap Byte
  /-- HBM bytes written since their contents were last undefined -/
  hbm : FMap Byte
  /-- MODEL: generation of undefined HBM contents, by byte address range order of change -/
  hbmGen : Nat
  st : HbmSt
  /-- Reservoir lines that hold tainted data (R182) -/
  taint : FMap Bool
  /-- READY (R353) -/
  ready : Bool
  /-- the stack was trained since the last power-on reset -/
  trained : Bool
  /-- reported stack temperature, degrees C -/
  temp : BitVec 16
  /-- region table (R336) -/
  regions : BitVec 256
  /-- MEM parameters (R337) -/
  par : BitVec 128
  /-- eyes (width, centre) per lane at both rates (R338) -/
  eyes8 : List (Nat × Nat)
  eyesS : List (Nat × Nat)
  /-- active rate: 0 at 8.0 Gb/s -/
  rate : BitVec 2
  /-- a frequency change is under way to this rate (R349) -/
  change : Option (BitVec 2)
  /-- an entry to self-refresh has begun and is not past its commit point (R349) -/
  entering : Bool
  pcs : FMap PcSt
  /-- bytes staged for RTW, bytes requested by RTR and not received (R340) -/
  rtw : Nat
  rtr : Nat
  panicW : Bool
  panicR : Bool
  /-- freeze capture (R351) -/
  diag : Option Diag
  /-- full time (2^-40 ns) of the last request (R348) -/
  lastReq : Int
  /-- next Reservoir line of the scrubber (R333) -/
  scrub : Nat
deriving DecidableEq, Repr, Inhabited

/-! ## The twin link -/

/-- Fitness (R372), coded as in TWIN.STATUS. -/
inductive Fitness where
  | fit | preparing | ripening | unfit
deriving DecidableEq, Repr, Inhabited

/-- TWN (R356 to R387). -/
structure TwnSt where
  /-- the link is UP (R359) -/
  up : Bool
  /-- role: 0 none, 1 LEAD, 2 SILLAGE -/
  role : BitVec 8
  pairId : BitVec 16
  index : BitVec 8
  fitness : Fitness
  cause : BitVec 8
  /-- accepted TWIN.PAIR not yet in force: role (R364) -/
  pairing : Option (BitVec 8)
  /-- the lead forwards arrivals (R367) -/
  forwarding : Bool
  /-- next SEQ to send, last SEQ received (R360) -/
  txSeq : BitVec 32
  rxSeq : Option (BitVec 32)
  /-- d_TW in 1/16 ns, and the round trips measured since training (R362) -/
  dTw : Nat
  trips : List Int
  /-- last HELLO of the peer with its receive stamp (R362) -/
  hello : Option (HelloP × Int)
  /-- fitness of the peer in its last HEARTBEAT -/
  peerFit : BitVec 8
  /-- last beat compared or sealed -/
  lastBeat : Stamp
  /-- next command number; commands forwarded to the sillage and not yet gone or dropped (R365) -/
  cmdSeq : BitVec 32
  waiting : List (BitVec 32 × BitVec 16 × Act)
  /-- verdicts of the lead received for the beat, own verdicts of the beat (R48) -/
  leadV : List Verdict
  ownV : List Verdict
  /-- the SEAL of the open beat arrived; beats committed without one (R371) -/
  sealed_ : Bool
  selfRuled : List Stamp
  /-- own digest records of the last beats with their ripening digests, newest first (R371, R372, R381) -/
  records : List (Digest × BitVec 64)
  /-- register save images received in STATE frames, by 2^40 × unit + byte offset (R363, R380) -/
  saved : FMap Byte
  /-- own close outcomes awaiting the lead's verdict: class, beat, payload (R369) -/
  outcomes : List (BitVec 8 × Stamp × BitVec 64)
  /-- handover named or accepted for S (R375) -/
  handover : Option (Stamp × BitVec 8)
  /-- the HANDOVER frame has been acknowledged, and its header SEQ (R375) -/
  handoverAck : Bool
  handoverSeq : BitVec 32
  /-- lead failure declared (R374) -/
  failed : Bool
  /-- MODEL: the last takeover: linear beat of S, this device was the old lead (R87) -/
  swapped : Option (Nat × Bool)
  /-- rejoin: linear beat of acceptance, convergence beat, join boundary (R380) -/
  rejoinAt : Option Nat
  streamDone : Bool
  joinAt : Option Nat
  ripenUntil : Option Nat
  /-- accord slots: accord ID, members (R384) -/
  slots : FMap (BitVec 16 × List (BitVec 128))
  /-- time offsets of the lead's TIME frames of this second, ns (R366) -/
  thetas : List Rat
deriving DecidableEq, Repr, Inhabited

/-! ## Faults, loopbacks, captures, pins -/

/-- An error record (R429). -/
structure ErrRec where
  index : BitVec 32
  beat : Stamp
  /-- linear beat of detection (MODEL, for HANDLED) -/
  lin : Nat
  timeNs : BitVec 32
  epoch : BitVec 16
  code : BitVec 8
  unit : Nat
  inst : Nat
  sev : Nat
  handover : Bool
  preempted : Bool
  fenced : Bool
  rep : Nat
  lost : Nat
  handled : Nat
  detail : BitVec 256
  /-- arrival order (R432) -/
  order : Nat
  /-- linear beat in which it entered the handling slot (R434) -/
  entered : Nat
deriving DecidableEq, Repr, Inhabited

/-- The error handling of the Nose (R427 to R437). -/
structure ErrSt where
  /-- record in handling by 128 u + i (R432) -/
  slot : FMap ErrRec
  /-- pending records by 128 u + i, in arrival order -/
  queue : FMap (List ErrRec)
  /-- LOST of the instance's next logged record (R433) -/
  lost : FMap Nat
  /-- error log, oldest first, at most 1,024 (R431) -/
  log : List ErrRec
  /-- INDEX of the next logged record -/
  index : BitVec 32
  /-- arrival counter (MODEL) -/
  order : Nat
  /-- CONTAINED detections: 128 u + i, code, address, distinct linear beats (R430) -/
  seen : List (Nat × BitVec 8 × BitVec 64 × List Nat)
deriving DecidableEq, Repr, Inhabited

/-- A loopback checker (R440). -/
structure Checker where
  locked : Bool
  /-- consecutive matches while unlocked -/
  good : Nat
  /-- units and errors of the current window of 1,024 -/
  units : Nat
  errs : Nat
deriving DecidableEq, Repr, Inhabited

/-- A capture channel (R442 to R444, R458). -/
structure Capture where
  /-- running: armed or capturing -/
  active : Bool
  point : BitVec 16
  index : BitVec 16
  dest : Fin 2
  /-- T in 1/16 ns of full time -/
  t : Int
  words : Nat
  offset : Nat
  /-- begun -/
  begun : Bool
  /-- words written -/
  done : Nat
  /-- bytes packed and not yet in a stage -/
  partial_ : List Byte
  fifo : List Stage
  /-- filled stages that the FIFO has no room for -/
  owed : List Stage
  /-- END of the trailer that is among them -/
  ending : Option Nat
  buf : List Stage
  /-- bytes written to the CAPTURE region -/
  out : Nat
deriving DecidableEq, Repr, Inhabited

/-- TST (R439 to R445). -/
structure TstSt where
  /-- loopback depth by 256 path + item (R439) -/
  loop : FMap Nat
  checkers : FMap Checker
  caps : FMap Capture
deriving DecidableEq, Repr, Inhabited

/-- The pins (R356, R475). -/
structure PinsSt where
  leadSel : Bool
  twinLead0 : Bool
  twinAlive0 : Bool
  twinLead1 : Bool
  twinAlive1 : Bool
  /-- full time (2^-40 ns) of the last edge on twin_alive[1] -/
  aliveEdge : Option Int
deriving DecidableEq, Repr, Inhabited

end Sys2Proof.Machine
end

