-- ==== Sys2Proof/Machine/State.lean ====
section
/-! DEFINITION. The state of the block as plain data, the reasons a step can stop, and the state right after a
power-on reset. -/

namespace Sys2Proof.Machine
open Sys2Proof

/-- Why a step faults. -/
inductive Fault where
  /-- Raised by `execHbmRequest` for an address at or beyond the 24 GiB of the stack, which the manual says does not
  exist (R334): safe, the model stops. -/
  | noSuchAddress
deriving DecidableEq, Repr, Inhabited

/-- Why a step refuses. -/
inductive Refusal where
  /-- Raised by an arm of `exec` whose command has no meaning yet: safe, the model stops. -/
  | notModelled (mnemonic : String)
deriving DecidableEq, Repr, Inhabited

end Sys2Proof.Machine

namespace Sys2Proof.Machine
open Sys2Proof

/-- The state of the EV256: the registers, buffers and queues of every unit, the commands that wait, and the model's
own trace and count. -/
structure State where
  /-- the Nose: mode, lease, mailbox, events (R388 to R405) -/
  nose : NoseSt
  /-- resets, start sequence, fuses, boot flash (R406 to R426) -/
  boot : BootSt
  /-- BAR0 registers (R449 to R459) -/
  bar0 : Bar0St
  /-- formula sequencer (R20 to R55) -/
  frm : FrmSt
  /-- time base (R308 to R329) -/
  tb : TbSt
  /-- element links (R56 to R87) -/
  lnk : LnkSt
  /-- element front end (R88 to R111) -/
  efe : EfeSt
  /-- spectral transform, by carrier (R112 to R131) -/
  stu : FMap StuC
  /-- self-interference canceller (R132 to R155) -/
  sic : SicSt
  /-- array engine and layer contexts (R156 to R234) -/
  ae : AeSt
  /-- stream queues (R288 to R307) -/
  sq : SqSt
  /-- drydown store (R235 to R263) -/
  dd : DdSt
  /-- fronthaul and domain ports (R264 to R287) -/
  fhp : FhpSt
  /-- memory system (R330 to R355) -/
  mem : MemSt
  /-- twin link and domain (R356 to R387) -/
  twn : TwnSt
  /-- error records (R427 to R437) -/
  err : ErrSt
  /-- loopbacks and captures (R439 to R445) -/
  tst : TstSt
  /-- pins (R356) -/
  pins : PinsSt
  /-- every counter by 65,536 × (unit code × 256 + n) + index (R402) -/
  ctr : FMap Nat
  /-- MODEL: what the block has sent and driven, newest first -/
  outs : List Out
  /-- MODEL: count of the values the manual leaves open that have been used -/
  fresh : Nat
  /-- commands that wait, first in first out -/
  pending : List Instr
deriving DecidableEq, Repr, Inhabited

/-- Default MEM region table (R336). -/
def regionsReset : BitVec 256 :=
  let entry (kind order base len : Nat) : Nat := kind * 2 ^ 60 + order * 2 ^ 58 + base * 2 ^ 32 + len * 2 ^ 16
  BitVec.ofNat 256 (entry 1 0 0 16384 + entry 2 1 16384 20480 * 2 ^ 64 + entry 3 0 36864 10240 * 2 ^ 128
    + entry 4 1 47104 2048 * 2 ^ 192)

/-- Default MEM parameters (R337). -/
def memParReset : BitVec 128 :=
  BitVec.ofNat 128 (512 * 2 ^ 112 + 256 * 2 ^ 96 + 256 * 2 ^ 80 + 128 * 2 ^ 64 + 2048 * 2 ^ 49 + 128 * 2 ^ 41
    + 10 * 2 ^ 25)

/-- Default time parameters (R312). -/
def timeParReset : BitVec 512 :=
  BitVec.ofNat 512 (34360000000 * 2 ^ 278 + 100 * 2 ^ 264 + 1000 * 2 ^ 244 + 50 * 2 ^ 230 + 2 * 2 ^ 224
    + 1000 * 2 ^ 207 + 4096 * 2 ^ 191 + 24 * 2 ^ 183 + 3 * 2 ^ 180 + 1000 * 2 ^ 161)

/-- Fuses of a part as delivered: DESIGN CHOICE SERIAL 0, grade C, everything the host programs blank (log entry 3).
STEPPING is 0xA0 with its parity (R423). -/
def fusesReset : Fuses where
  factory := BitVec.ofNat 128 (0xA0 * 2 ^ 56 + 0x42 * 2 ^ 48)
  identity := 0
  fwKeys := 0
  fmKeys := 0
  rollback := 0
  policy := 0

/-- A port's PTP state with no master. -/
def ptpPortReset : PtpPort where
  announce := none
  sync := none
  req := none
  nextSeq := 0
  exchange := none
  asym := 0
  asymNext := none

/-- TB after a power-on reset or a warm reset that resets it (R308). The full time is 0 (DESIGN CHOICE, log entry 2). -/
def tbReset : TbSt where
  run := false
  t40 := 0
  inc := 0x008235555555#48
  epoch := 0
  st := .free
  cyc := 0
  shift := 0
  beat := 0
  lin := 0
  openT := 0
  nextT := 0
  fc := 0
  slew := 0
  slewSum := 0
  theta := 0
  mpd := 0
  mref := 0
  psi := []
  qual := []
  secs := 0
  big := 0
  dev := 0
  fcBefore := 0
  values := []
  hold := 0
  holdRaised := false
  pathAnswer := 0
  par := timeParReset
  port := none
  gm := 0
  gmClass := 0
  ptp := [ptpPortReset, ptpPortReset]
  ratio := 0x018000000000#48
  ratios := []
  bounds := []
  triggers := []
  pulses := []

/-- The Nose after a reset of it (R388, R453). -/
def noseReset : NoseSt where
  mode := .boot
  mbxReady := false
  fwVer := 0
  fwKind := 0
  lease := none
  timeoutMs := 2000
  leaseAt := 0
  cmdProd := 0
  cmdCons := 0
  rspProd := 0
  rspCons := 0
  evtProd := 0
  evtCons := 0
  arrived := []
  rspRing := []
  evtRing := []
  evtSeq := 0
  evtLost := 0
  evtMask := 0
  kept := []
  jobs := []
  sched := []
  msixDue := 0
  msixAt := [0, 0]
  deviceId := 0
  resetDue := none

/-- The always-on domain and the start state after a power-on reset (R406, R413). -/
def bootReset : BootSt where
  held := true
  kind := 0
  thermtrip := false
  failCount := 0
  records := []
  attempts := []
  startCause := 0
  noseReturn := none
  fuses := fusesReset
  sensed := fusesReset
  flash := []
  flashUndef := []
  gen := 0
  thermalAt := none

/-- BAR0 after a power-on reset (R449 to R459): NOSE_RESET set, no record logged, lease free. -/
def bar0Reset : Bar0St where
  status := 0b010
  sticky := 0
  summary := 0
  lastIndex := 0xFFFFFFFF
  fencedAe := 0
  fencedUnits := 0
  leaseHolder := 0
  leaseChannel := 0xFF
  leaseRemain := 0
  snapGen := 0
  snapBeat := 0
  words := []
  tsValid := false
  tsTakes := 0
  tsCounter := 0
  tsSec := 0
  tsNs := 0
  tsEpoch := 0
  tsBeat := 0
  tsState := 0
  tsCycle := 0
  scratch := 0
  msixTable := []

/-- FRM after a reset: both formula slots empty (R410). -/
def frmReset : FrmSt where
  slot := 0
  active := none
  pending := none
  load := none
  executing := false
  startBeat := 0
  ruptureS := none
  running := []
  completed := []
  overrun := []
  subst := []
  taint := []
  stage := 0
  verdictSeq := 0
  vlog := []
  vcount := 0
  vdropped := 0
  digest := none
  digested := []
  moving := []
  moved := []
  fences := []
  splits := []
  loopRun := none
  stepWait := false

/-- LNK after a reset (R61 to R65, R74). -/
def lnkReset : LnkSt where
  par := []
  lanes := []
  fs := 737280
  ratioLane := 0
  ref := 0
  width := 32
  skew := 0
  align := none
  trainAt := none
  refCheck := false

/-- EFE with no chain running. -/
def efeReset : EfeSt where
  rx := []
  rxc := []
  tx := []
  txc := []
  rxSet := []
  txSet := []

/-- SIC with every coefficient zero, every F empty and every ring stamp invalid (R151). -/
def sicReset : SicSt where
  lin := []
  nl := []
  ring := []
  shallow := []
  pendLin := []
  pendNl := []
  pendRing := []

/-- AE with every cell zero (R409) and every layer context at its reset value (R208). -/
def aeReset : AeSt where
  clusters := []
  layers := []
  layerLog := []
  weights := []
  versions := []
  persist := 0

/-- SQ with no window, empty FIFOs and rings. -/
def sqReset : SqSt where
  windows := []
  shadow := []
  closed := []
  control := []
  rings := []
  depths := []
  used := []
  sending := []
  fifos := []
  seq := []
  notes := []
  nextNote := 0
  delivered := []
  held := []
  combos := []
  finals := []
  er := []
  listed := none

/-- DD with an empty ring (R242). -/
def ddReset : DdSt where
  i := 0
  n := 0
  nNext := none
  map := []
  valid := []
  writing := none
  history := []
  mark := none
  jobs := []
  frozenFrom := none
  firstLin := 0
  archive := []

/-- FHP with every port OFF and every port word at its reset value (R268). -/
def fhpReset : FhpSt where
  par := []
  ports := []
  arrived := []
  late := []
  staged := []

/-- MEM after a power-on reset: memories as R409 leaves them, the stack in reset (R348), defaults of R336 and R337.
The reported temperature is 25 degrees C (DESIGN CHOICE, log entry 4). -/
def memReset : MemSt where
  res := []
  bad := []
  fe := []
  cf := []
  hbm := []
  hbmGen := 0
  taint := []
  st := .reset
  ready := false
  trained := false
  temp := 25
  regions := regionsReset
  par := memParReset
  eyes8 := []
  eyesS := []
  rate := 0
  change := none
  entering := false
  pcs := []
  rtw := 0
  rtr := 0
  panicW := false
  panicR := false
  diag := none
  lastReq := 0
  scrub := 0

/-- TWN with no pair and the link DOWN. -/
def twnReset : TwnSt where
  up := false
  role := 0
  pairId := 0
  index := 0
  fitness := .unfit
  cause := 0
  pairing := none
  forwarding := false
  txSeq := 0
  rxSeq := none
  dTw := 0
  trips := []
  hello := none
  peerFit := 3
  lastBeat := 0
  cmdSeq := 0
  waiting := []
  leadV := []
  ownV := []
  sealed_ := false
  selfRuled := []
  records := []
  saved := []
  outcomes := []
  handover := none
  handoverAck := false
  handoverSeq := 0
  failed := false
  swapped := none
  rejoinAt := none
  streamDone := false
  joinAt := none
  ripenUntil := none
  slots := []
  thetas := []

/-- No error record. -/
def errReset : ErrSt where
  slot := []
  queue := []
  lost := []
  log := []
  index := 0
  order := 0
  seen := []

/-- No loopback, no capture. -/
def tstReset : TstSt where
  loop := []
  checkers := []
  caps := []

/-- The pair outputs low (R357), the inputs low (DESIGN CHOICE, log entry 4). -/
def pinsReset : PinsSt where
  leadSel := false
  twinLead0 := false
  twinAlive0 := false
  twinLead1 := false
  twinAlive1 := false
  aliveEdge := none

/-- The block during a power-on reset (R406): mode BOOT, every unit reset, reset not yet released. -/
def State.reset : State where
  nose := noseReset
  boot := bootReset
  bar0 := bar0Reset
  frm := frmReset
  tb := tbReset
  lnk := lnkReset
  efe := efeReset
  stu := []
  sic := sicReset
  ae := aeReset
  sq := sqReset
  dd := ddReset
  fhp := fhpReset
  mem := memReset
  twn := twnReset
  err := errReset
  tst := tstReset
  pins := pinsReset
  ctr := []
  outs := []
  fresh := 0
  pending := []

end Sys2Proof.Machine
end

