-- ==== Sys2Proof/Machine/Ops.lean ====
section
/-! DEFINITION. The operations every family shares: counters, time, the beat grid, events, verdicts, frames on TW. -/

namespace Sys2Proof.Machine
open Sys2Proof

/-! ## Counters (R7, R402)

A counter's code is unit code × 256 + n, with n in the order in which the counters of a prefix first appear in the
manual's counter tables. -/

/-- Code, width and number of indexes of every counter. -/
def counterTable : List (Nat × Nat × Nat) :=
  -- LNK (R83)
  [(0x000, 32, 256), (0x001, 32, 256), (0x002, 16, 256), (0x003, 16, 256), (0x004, 16, 256), (0x005, 16, 256),
   (0x006, 16, 1)]
  -- EFE (R111)
  ++ [(0x100, 32, 256), (0x101, 32, 256), (0x102, 32, 256), (0x103, 16, 256), (0x104, 32, 1024)]
  -- STU (R131)
  ++ [(0x200, 32, 4), (0x201, 32, 4), (0x202, 32, 4), (0x203, 16, 4), (0x204, 16, 4)]
  -- SIC (R155)
  ++ [(0x300, 32, 4), (0x301, 32, 256), (0x302, 32, 4), (0x303, 32, 1), (0x304, 32, 4), (0x305, 16, 4)]
  -- AE (R186, R234)
  ++ [(0x400, 32, 96), (0x401, 32, 96), (0x402, 32, 96), (0x403, 16, 96), (0x404, 32, 96), (0x405, 32, 96),
   (0x406, 16, 1), (0x407, 32, 4), (0x408, 32, 4), (0x409, 32, 4), (0x40A, 32, 4), (0x40B, 32, 64), (0x40C, 32, 64),
   (0x40D, 16, 1)]
  -- FRM (R43)
  ++ [(0x500, 32, 1), (0x501, 16, 1), (0x502, 32, 1)]
  -- SQ (R43, R234, R307)
  ++ [(0x600, 32, 1), (0x601, 32, 1), (0x602, 32, 1), (0x603, 16, 1), (0x604, 32, 1), (0x605, 16, 1), (0x606, 32, 1),
   (0x607, 32, 4), (0x608, 32, 4), (0x609, 32, 2), (0x60A, 16, 1), (0x60B, 16, 2), (0x60C, 32, 16), (0x60D, 16, 16)]
  -- CDX and DD (R263)
  ++ [(0x700, 32, 1), (0x701, 32, 1), (0x702, 16, 1), (0x703, 16, 1), (0x704, 16, 1), (0x705, 16, 1)]
  ++ [(0x800, 32, 1), (0x801, 16, 1), (0x802, 16, 1), (0x803, 32, 4), (0x804, 32, 4), (0x805, 16, 4), (0x806, 32, 1)]
  -- FHP (R287)
  ++ [(0x900, 48, 6), (0x901, 48, 6), (0x902, 48, 6), (0x903, 48, 6), (0x904, 32, 6), (0x905, 48, 6), (0x906, 32, 6),
   (0x907, 32, 6), (0x908, 32, 6), (0x909, 16, 6), (0x90A, 32, 6), (0x90B, 16, 6), (0x90C, 32, 6), (0x90D, 32, 6),
   (0x90E, 32, 4), (0x90F, 32, 4), (0x910, 32, 4), (0x911, 32, 4)]
  -- TB (R329)
  ++ [(0xA00, 32, 2), (0xA01, 32, 2), (0xA02, 16, 1), (0xA03, 16, 1), (0xA04, 16, 1), (0xA05, 32, 1), (0xA06, 16, 1)]
  -- MEM (R355)
  ++ [(0xB00, 32, 1), (0xB01, 16, 1), (0xB02, 32, 32), (0xB03, 32, 2), (0xB04, 32, 32), (0xB05, 32, 32),
   (0xB06, 32, 32), (0xB07, 32, 32), (0xB08, 16, 1), (0xB09, 16, 1)]
  -- TWN (R387)
  ++ [(0xC00, 32, 1), (0xC01, 32, 1), (0xC02, 16, 1), (0xC03, 16, 1), (0xC04, 16, 1), (0xC05, 16, 1), (0xC06, 16, 1),
   (0xC07, 48, 1), (0xC08, 32, 1), (0xC09, 16, 1)]
  -- NOS (R405)
  ++ [(0xD00, 32, 1), (0xD01, 32, 1), (0xD02, 16, 1), (0xD03, 32, 1), (0xD04, 32, 1), (0xD05, 16, 1), (0xD06, 16, 1),
   (0xD07, 16, 1)]
  -- TST (R448)
  ++ [(0xE00, 48, 256), (0xE01, 32, 256), (0xE02, 48, 6), (0xE03, 32, 6), (0xE04, 48, 1), (0xE05, 32, 1),
   (0xE06, 48, 32), (0xE07, 32, 32), (0xE08, 16, 1), (0xE09, 16, 1), (0xE0A, 32, 1), (0xE0B, 16, 1)]

/-- Width and number of indexes of a counter, if the code names one. -/
def counterInfo (code : Nat) : Option (Nat × Nat) :=
  (counterTable.find? (fun e => e.1 == code)).map (fun e => e.2)

/-- The width of a counter; 32 for a code that names none. -/
def counterWidth (code : Nat) : Nat := (counterInfo code).elim 32 (fun e => e.1)

/-- The key of one counter. -/
def counterKey (code idx : Nat) : Nat := code * 65536 + idx

/-- The value of a counter. -/
def counterGet (s : State) (code idx : Nat) : Nat := FMap.get 0 s.ctr (counterKey code idx)

/-- A counter rises by `n` and saturates at all-ones (R7). -/
def countBy (code idx n : Nat) (s : State) : State :=
  { s with ctr := FMap.put 0 s.ctr (counterKey code idx) (Nat.min (counterGet s code idx + n) (2 ^ counterWidth code - 1)) }

/-- A counter rises by 1. -/
def count (code idx : Nat) (s : State) : State := countBy code idx 1 s

/-- A counter is cleared. -/
def counterClear1 (code idx : Nat) (s : State) : State :=
  { s with ctr := FMap.put 0 s.ctr (counterKey code idx) 0 }

/-! ## Free values -/

/-- A value the manual leaves open: the model's count of such values names it and rises. -/
def freeVal (kind : Nat) (s : State) : Int × State :=
  (Config.freeValue kind s.fresh, { s with fresh := s.fresh + 1 })

/-! ## Time (R308 to R311) -/

/-- The 72-bit counter (R308). -/
def tbCounter (s : State) : BitVec 72 := BitVec.ofInt 72 s.tb.t40

/-- The current instant in 1/16 ns of full time (R309). -/
def now16 (s : State) : Int := s.tb.t40 / (2 ^ 36 : Int)

/-- The nanosecond time stamp of the current instant (R309). -/
def nowNs (s : State) : BitVec 32 := BitVec.ofInt 32 (s.tb.t40 / (2 ^ 40 : Int))

/-- Full-time seconds, nanoseconds and fraction of an instant in 2^-40 ns (R308). -/
def fullTime (t40 : Int) : BitVec 48 × BitVec 32 × Nat :=
  let ns := t40 / (2 ^ 40 : Int)
  (BitVec.ofInt 48 (ns / 1000000000), BitVec.ofInt 32 (ns % 1000000000), (t40 % (2 ^ 40 : Int)).toNat)

/-- A time-base instant of a command in 1/16 ns of full time (R309). -/
def tinst16 (t : TInst) : Int := (t.sec.toInt * 1000000000 + t.ns.toNat) * 16 + (t.frac.toNat % 16 : Nat)

/-- The instant's fields lie in their ranges (R309). -/
def tinstOk (t : TInst) : Bool := decide (t.ns.toNat < 1000000000) && decide (t.frac.toNat < 16)

/-- A field of the time parameters (R312). -/
def timePar (s : State) (hi lo : Nat) : Nat := bits s.tb.par.toNat hi lo

/-- TB_FRAME_OFFSET in ns. -/
def frameOffset (s : State) : Nat := timePar s 319 278

/-- The modulus M of linear beat numbers (R22). -/
def beatMod : Nat := 73400320

/-- MODEL: what is added to the beat count so that it is a natural number at every full time; a multiple of M. -/
def linBase : Int := (73400320 : Int) * 2 ^ 40

/-- Offset of symbol `i` in its slot, in twelfths of a nanosecond (R310). -/
def symbolOffset12 (i : Nat) : Nat := if i = 0 then 0 else 434375 + 428125 * (i - 1)

/-- The symbol that is open at `v12` twelfths of a nanosecond into a slot (R310). -/
def symbolAt12 (v12 : Nat) : Nat := if v12 < 434375 then 0 else 1 + (v12 - 434375) / 428125

/-- The linear beat number, not reduced, at `u12` twelfths of a nanosecond after frame 0 (R310). -/
def linAt12 (u12 : Int) : Nat :=
  let f := u12 / 120000000
  let u := (u12 % 120000000).toNat
  let slot := u / 6000000
  ((f * 280 + (slot * 14 + symbolAt12 (u % 6000000) : Nat)) + linBase).toNat

/-- The boundary that opens beat `lin`, in twelfths of a nanosecond after frame 0 (R310). -/
def boundary12 (lin : Nat) : Int :=
  let b := (lin : Int) - linBase
  let f := b / 280
  let r := (b % 280).toNat
  f * 120000000 + (r / 14 * 6000000 + symbolOffset12 (r % 14) : Nat)

/-- The boundary time of beat `lin` in 2^-40 ns of full time, rounded up (R311). -/
def boundaryT (s : State) (lin : Nat) : Int :=
  ceilDivI ((boundary12 lin + 12 * (frameOffset s : Int)) * 2 ^ 40) 12

/-- The beat stamp of a linear beat number (R21, R310). -/
def stampOfLin (lin : Nat) : Stamp :=
  let b := lin % beatMod
  let f := b / 280
  BitVec.ofNat 32 (f / 1024 % 256 * 2 ^ 24 + f % 1024 * 2 ^ 14 + b % 280 / 14 * 2 ^ 9 + b % 14 * 2 ^ 5)

/-- HFN, SFN, SLOT and SYMBOL of a stamp (R21). -/
def stampHfn (b : Stamp) : Nat := bits b.toNat 31 24
@[inherit_doc stampHfn] def stampSfn (b : Stamp) : Nat := bits b.toNat 23 14
@[inherit_doc stampHfn] def stampSlot (b : Stamp) : Nat := bits b.toNat 13 9
@[inherit_doc stampHfn] def stampSymbol (b : Stamp) : Nat := bits b.toNat 8 5

/-- The stamp is valid (R21). -/
def stampValid (b : Stamp) : Bool :=
  bits b.toNat 4 0 == 0 && decide (stampSymbol b ≤ 13) && decide (stampSlot b ≤ 19)

/-- Linear beat number B of a stamp (R22). -/
def linOf (b : Stamp) : Nat := ((stampHfn b * 1024 + stampSfn b) * 20 + stampSlot b) * 14 + stampSymbol b

/-- (B(b) − B(a)) mod M (R22). -/
def beatDist (a b : Stamp) : Nat := (linOf b + beatMod - linOf a % beatMod) % beatMod

/-- Stamp `a` precedes stamp `b` (R22). -/
def precedes (a b : Stamp) : Bool := decide (1 ≤ beatDist a b) && decide (beatDist a b ≤ 36700159)

/-- The stamp of the open beat. -/
def nowBeat (s : State) : Stamp := s.tb.beat

/-- The linear beat number, near the open beat, that a stamp names. -/
def linNear (s : State) (b : Stamp) : Nat :=
  let d := beatDist s.tb.beat b
  if d ≤ 36700159 then s.tb.lin + d else s.tb.lin + d - beatMod

/-- Symbol of a linear beat number. -/
def linSymbol (lin : Nat) : Nat := lin % 14

/-- The linear beat number opens a slot. -/
def isSlotBeat (lin : Nat) : Bool := lin % 14 == 0

/-- 491.52 MSa/s samples of a beat (R91). -/
def beatSamples (lin : Nat) : Nat := if isSlotBeat lin then 17792 else 17536

/-- Absolute index of the first 491.52 MSa/s sample of a beat (R91). -/
def sampleBase (lin : Nat) : Nat :=
  lin / 14 * 245760 + (if lin % 14 = 0 then 0 else 17792 + (lin % 14 - 1) * 17536)

/-- `n` core cycles pass (R308). -/
def passCycles (n : Nat) (s : State) : State :=
  { s with tb := { s.tb with t40 := s.tb.t40 + n * (s.tb.inc.toNat : Int), cyc := s.tb.cyc + n } }

/-- The counter comes to cycle offset `off` of the beat, delayed by the shift of R25, unless it is past it. -/
def advanceTo (off : Nat) (s : State) : State :=
  if s.tb.run && decide (s.tb.cyc < off + s.tb.shift) then passCycles (off + s.tb.shift - s.tb.cyc) s else s

/-- The counter comes to the full time `t40`, at the first core-cycle edge at or past it. -/
def advanceToTime (t40 : Int) (s : State) : State :=
  if s.tb.run && decide (s.tb.t40 < t40) then
    passCycles (ceilDivI (t40 - s.tb.t40) s.tb.inc.toNat).toNat s
  else s

/-- One core cycle with no command: the counter counts, and stops short of a boundary that no command has opened. -/
def idleCycle (s : State) : State :=
  if s.tb.run && decide (s.tb.t40 < s.tb.nextT) then passCycles 1 s else s

/-- Cycle offset of the current instant, counted from the delayed offset 0 (R25). -/
def offsetNow (s : State) : Nat := s.tb.cyc - s.tb.shift

/-! ## Modes -/

/-- The formula executes and outputs may leave: SOLO, LEAD or SILLAGE. -/
def inService (s : State) : Bool :=
  s.nose.mode == .solo || s.nose.mode == .lead || s.nose.mode == .sillage

/-- Mode codes of R400. -/
def modeCode : Mode → Nat
  | .boot => 0 | .base => 1 | .standby => 2 | .solo => 3 | .lead => 4 | .sillage => 5

/-- The mode a code names. -/
def modeOfCode (n : Nat) : Option Mode :=
  match n with
  | 0 => some .boot | 1 => some .base | 2 => some .standby | 3 => some .solo | 4 => some .lead | 5 => some .sillage
  | _ => none

/-- Codes of the unit states (R49). -/
def ustateCode : UState → Nat
  | .off => 0 | .idle => 1 | .loaded => 2 | .loopback => 3 | .bist => 4 | .run => 5 | .mirror => 6 | .rupture => 7
  | .fenced => 8 | .frozen => 9

/-- Codes of the discipline states (R400). -/
def tbStateCode : TbState → Nat
  | .free => 0 | .acquiring => 1 | .locked => 2 | .holdover => 3 | .pathHold => 4 | .stepNeeded => 5

/-- Codes of the HBM power states (R400). -/
def hbmStCode : HbmSt → Nat
  | .reset => 0 | .active => 1 | .selfRefresh => 2 | .clocksStopped => 3 | .frozen => 4

/-- Codes of fitness (R400). -/
def fitCode : Fitness → Nat
  | .fit => 0 | .preparing => 1 | .ripening => 2 | .unfit => 3

/-- Port status with its reset value (R268). -/
def portReset : PortSt := ⟨0, false, false, 0, false, none⟩

/-- The status of port `p`. -/
def portGet (s : State) (p : Nat) : PortSt := FMap.get portReset s.fhp.ports p

/-- The status of port `p` changes. -/
def portSet (p : Nat) (v : PortSt) (s : State) : State :=
  { s with fhp := { s.fhp with ports := FMap.put portReset s.fhp.ports p v } }

/-- The port is UP (R269). -/
def portIsUp (s : State) (p : Nat) : Bool := (portGet s p).st == 2

/-- An output of the block enters the trace. -/
def emit (o : Out) (s : State) : State := { s with outs := o :: s.outs }

/-- The reset value of a port parameter word: the port's fused address, VID 1, ENABLE 1 (R268). -/
def portWordReset (s : State) (p : Nat) : BitVec 128 :=
  BitVec.ofNat 128 (bits s.boot.sensed.identity.toNat (303 - 48 * p) (256 - 48 * p) * 2 ^ 80 + 2 ^ 64 + 2 ^ 58)

/-- The port parameter word in force (R268). -/
def portWord (s : State) (p : Nat) : BitVec 128 := (FMap.find s.fhp.par p).getD (portWordReset s p)

/-- Fields of the port parameter word. -/
def portMac (s : State) (p : Nat) : Nat := bits (portWord s p).toNat 127 80
@[inherit_doc portMac] def portVid (s : State) (p : Nat) : Nat := bits (portWord s p).toNat 75 64
@[inherit_doc portMac] def portPcp (s : State) (p : Nat) : Nat := bits (portWord s p).toNat 63 61
@[inherit_doc portMac] def portTag (s : State) (p : Nat) : Bool := bitN (portWord s p).toNat 60
@[inherit_doc portMac] def portPtp (s : State) (p : Nat) : Bool := bitN (portWord s p).toNat 59
@[inherit_doc portMac] def portEnable (s : State) (p : Nat) : Bool := bitN (portWord s p).toNat 58

/-- The MAC of a port is handed a frame of `len` bytes before the FCS: sent and counted with its padding and FCS while
the port is UP, else discarded (R269). -/
def macSend (p len : Nat) (o : Out) (s : State) : State :=
  if portIsUp s p then countBy 0x903 p (Nat.max 60 len + 4) (count 0x901 p (emit o s)) else count 0x908 p s

/-- Addresses, tag and EtherType of a frame that a port sends (R267). -/
def ethHead (s : State) (p dst et : Nat) (tagged : Bool) : List Byte :=
  beBytes 6 dst ++ beBytes 6 (portMac s p)
    ++ (if tagged then beBytes 2 0x8100 ++ beBytes 2 (portPcp s p * 2 ^ 13 + portVid s p) else []) ++ beBytes 2 et

/-- Bytes of a payload. -/
def payloadLen (l : List Fld) : Nat := l.foldl (fun a f => a + (match f with
  | .num w _ => w
  | .str b => b.length)) 0

/-- A response travels as a management frame (R394). -/
def sendRsp (p : Nat) (r : Response) (s : State) : State :=
  macSend p (14 + (if portTag s p then 4 else 0) + 8 + 32 + payloadLen r.payload) (.rspFrame p r) s

/-- An event travels as a management frame. -/
def sendEvt (p : Nat) (m : Mac) (e : Event) (s : State) : State :=
  macSend p (14 + (if portTag s p then 4 else 0) + 8 + 64) (.evtFrame p m e) s

/-! ## Events (R403, R404) -/

/-- Entries in the event ring. -/
def evtHeld (s : State) : Nat := (s.nose.evtProd - s.nose.evtCons).toNat

/-- An event is written into the ring and, to an in-band holder, sent as a frame (R394, R404). -/
def writeEvent (code unit : Nat) (beat : Stamp) (payload : List Fld) (s : State) : State :=
  let n := s.nose
  let e : Event := ⟨n.evtSeq, BitVec.ofNat 8 code, BitVec.ofNat 4 unit, s.tb.epoch, beat, nowNs s, payload⟩
  let pcie := match n.lease with
    | some (_, .pcie) => true
    | _ => false
  let cons := if !pcie && evtHeld s == 8192 then n.evtCons + 1 else n.evtCons
  let s := { s with nose := { n with
    evtRing := FMap.set n.evtRing (n.evtProd.toNat % 8192) e
    evtProd := n.evtProd + 1, evtCons := cons, evtSeq := n.evtSeq + 1, msixDue := n.msixDue ||| 2#2 } }
  match n.lease with
  | some (_, .inband p m _) => sendEvt p.val m e s
  | _ => s

/-- An event is raised: masked, dropped at a full ring of a PCIe holder, or written (R404). -/
def raiseAt (code unit : Nat) (beat : Stamp) (payload : List Fld) (s : State) : State :=
  let canMask := code != 0x03 && code != 0x04 && code != 0x05
  if canMask && s.nose.evtMask.getLsbD code then count 0xD04 0 s
  else
    let full := (match s.nose.lease with
      | some (_, .pcie) => true
      | _ => false) && evtHeld s == 8192
    if full then count 0xD03 0 { s with nose := { s.nose with evtLost := s.nose.evtLost + 1 } }
    else writeEvent code unit beat payload s

/-- An event that concerns the open beat. -/
def raiseEv (code unit : Nat) (payload : List Fld) (s : State) : State := raiseAt code unit s.tb.beat payload s

/-- When a slot of the event ring frees, EV_EVENTS_LOST reports the events that were dropped (R404). -/
def reportLost (s : State) : State :=
  if s.nose.evtLost = 0 then s
  else
    let n := s.nose.evtLost
    writeEvent 0x04 0xD s.tb.beat [.num 4 n] { s with nose := { s.nose with evtLost := 0 } }

/-! ## The twin link's sender (R360) -/

/-- A frame is sent on TW while the link is UP. -/
def sendTw (flags : Nat) (body : TwBody) (s : State) : State :=
  if s.twn.up then
    emit (.tw (BitVec.ofNat 8 flags) s.twn.txSeq s.tb.beat body) { s with twn := { s.twn with txSeq := s.twn.txSeq + 1 } }
  else s

/-- A frame that only a lead with a mirroring peer sends. -/
def sendTwLead (flags : Nat) (body : TwBody) (s : State) : State :=
  if s.twn.forwarding then sendTw flags body s else s

/-! ## Verdicts (R44 to R48) -/

/-- Dropping order of R47: SECTION_DISCARD first, DUP_CONFLICT second. -/
def verdictDroppable (cls : Nat) : Bool := cls == 2 || cls == 3

/-- Remove the newest record of a class made in beat `lin` from a log, oldest first. -/
def dropNewest (lin cls : Nat) (l : List (Nat × Verdict)) : List (Nat × Verdict) :=
  let rec go : List (Nat × Verdict) → List (Nat × Verdict)
    | [] => []
    | p :: t => if p.1 == lin && p.2.cls.toNat == cls then t else p :: go t
  (go l.reverse).reverse

/-- The record enters the verdict log; beyond 8,192 records of a beat one is dropped (R47), and records older than 64
beats leave the ring. -/
def logVerdict (v : Verdict) (s : State) : State :=
  let lin := s.tb.lin
  let old := s.frm.vlog.filter (fun p => decide (lin < p.1 + 64))
  if s.frm.vcount < 8192 then
    { s with frm := { s.frm with vlog := old ++ [(lin, v)], vcount := s.frm.vcount + 1 } }
  else
    let has (c : Nat) := old.any (fun p => p.1 == lin && p.2.cls.toNat == c)
    let log := if v.cls == 2#8 then old
      else if has 2 then dropNewest lin 2 old ++ [(lin, v)]
      else if v.cls == 3#8 then old
      else if has 3 then dropNewest lin 3 old ++ [(lin, v)]
      else old ++ [(lin, v)]
    count 0x502 0 { s with frm := { s.frm with vlog := log, vdropped := s.frm.vdropped + 1 } }

/-- A unit makes a verdict (R44, R45). In SILLAGE it is kept aside and takes no effect (R48). -/
def makeVerdict (cls unit : Nat) (beat : Stamp) (payload : Nat) (s : State) : State :=
  let v : Verdict := ⟨beat, nowNs s, s.frm.verdictSeq, BitVec.ofNat 8 cls, BitVec.ofNat 4 unit, BitVec.ofNat 64 payload⟩
  if s.nose.mode == .sillage then { s with twn := { s.twn with ownV := s.twn.ownV ++ [v] } }
  else
    let dropped := s.frm.vdropped
    let s := logVerdict v { s with frm := { s.frm with verdictSeq := s.frm.verdictSeq + 1 } }
    if s.frm.vdropped = dropped then sendTwLead 0 (.verdicts [v]) s else s

/-! ## The active formula -/

/-- The carriers of the active formula; none without one. -/
def carriersOf (s : State) : List Carrier := s.frm.active.elim [] (fun f => f.carriers)

/-- Entry of carrier `c`, all zero without a formula. -/
def carrierOf (s : State) (c : Nat) : Carrier := (carriersOf s).getD c ⟨false, false, false, false, 0, false, 0, 0, 0⟩

/-- FFT length of a carrier entry (R114). -/
def fftLen (c : Carrier) : Nat := 4096 / 2 ^ c.fft.val

/-- Cyclic prefix of a carrier in a beat, in carrier samples (R114). -/
def cpLen (c : Carrier) (lin : Nat) : Nat := (if isSlotBeat lin then 352 else 288) / 2 ^ c.fft.val

/-- Factor from 491.52 MSa/s to the carrier rate (R95). -/
def rateFactor (c : Carrier) : Nat := 4 * 2 ^ c.fft.val

/-- Budget entry of a unit instance for a symbol (R32). -/
def budgetOf (s : State) (u i sym : Nat) : Option Budget :=
  s.frm.active.bind (fun f => f.budgets.find? (fun b => b.unit == u && b.inst == i && b.mask.getLsbD sym))

/-- Key of a unit instance. -/
def unitKey (u i : Nat) : Nat := 128 * u + i

/-- The substitute rule of an output: ZERO_MISSING where no entry names it (R33). -/
def substRule (s : State) (u out : Nat) : Nat :=
  ((s.frm.active.bind (fun f => f.substs.find? (fun e => e.unit == u && e.output == out))).map (fun e => e.rule)).getD 0

/-- The instance is fenced (R437). -/
def isFenced (s : State) (u i : Nat) : Bool := s.frm.fences.contains (unitKey u i)

/-- In a rupture: from boundary S to the end of beat S+7 (R39). -/
def inRupture (s : State) : Bool :=
  s.frm.stepWait || match s.frm.ruptureS with
  | some b => decide (b ≤ s.tb.lin) && decide (s.tb.lin < b + 8)
  | none => false

/-- An air beat lost to a rupture for the uplink: S−3 to S+7 (R39). -/
def lostUp (s : State) (lin : Nat) : Bool :=
  match s.frm.ruptureS with
  | some b => decide (b ≤ lin + 3) && decide (lin < b + 8)
  | none => false

/-- An air beat lost to a rupture for the downlink: S to S+9 (R39). -/
def lostDown (s : State) (lin : Nat) : Bool :=
  match s.frm.ruptureS with
  | some b => decide (b ≤ lin) && decide (lin < b + 10)
  | none => false

/-- The unit's SUBST bit is set for this beat (R49). -/
def markSubst (u i : Nat) (s : State) : State :=
  if s.frm.subst.contains (unitKey u i) then s
  else { s with frm := { s.frm with subst := s.frm.subst ++ [unitKey u i] } }

/-! ## Layer contexts (R208) -/

/-- Layer context word with its reset value. -/
def layerReset : BitVec 128 := BitVec.ofNat 128 (0x0100 * 2 ^ 48 + 0x4000 * 2 ^ 32 + 14 * 2 ^ 25 + 1 * 2 ^ 16)

/-- Context of (c, l) in a context store. -/
def ctxIn (m : FMap (BitVec 128)) (c l : Nat) : BitVec 128 := FMap.get layerReset m (64 * c + l)

/-- Context of (c, l) in force. -/
def ctxOf (s : State) (c l : Nat) : BitVec 128 := ctxIn s.ae.layers c l

/-- Context in force at a work beat: that of the newest log entry not after it (R222). -/
def ctxAt (s : State) (lin c l : Nat) : BitVec 128 :=
  match s.ae.layerLog.find? (fun e => decide (e.1 ≤ lin)) with
  | some (_, m) => ctxIn m c l
  | none => ctxOf s c l

/-- Fields of a layer context (R208). -/
def ctxHeartQ (w : BitVec 128) : Nat := bits w.toNat 127 112
@[inherit_doc ctxHeartQ] def ctxTopQ (w : BitVec 128) : Nat := bits w.toNat 111 96
@[inherit_doc ctxHeartQ] def ctxAccord (w : BitVec 128) : Nat := bits w.toNat 95 84
@[inherit_doc ctxHeartQ] def ctxSlot (w : BitVec 128) : Nat := bits w.toNat 83 78
@[inherit_doc ctxHeartQ] def ctxAnchor (w : BitVec 128) : Nat := bits w.toNat 77 64
@[inherit_doc ctxHeartQ] def ctxReg (w : BitVec 128) : Nat := bits w.toNat 63 48
@[inherit_doc ctxHeartQ] def ctxPscale (w : BitVec 128) : Nat := bits w.toNat 47 32
@[inherit_doc ctxHeartQ] def ctxRcLag (w : BitVec 128) : Nat := bits w.toNat 31 25
@[inherit_doc ctxHeartQ] def ctxAccSh (w : BitVec 128) : Int := signed 6 (bits w.toNat 24 19)
@[inherit_doc ctxHeartQ] def ctxMant (w : BitVec 128) : Nat := bits w.toNat 18 16
@[inherit_doc ctxHeartQ] def ctxMode (w : BitVec 128) : Nat := bits w.toNat 15 13
@[inherit_doc ctxHeartQ] def ctxWsrc (w : BitVec 128) : Bool := bitN w.toNat 12
@[inherit_doc ctxHeartQ] def ctxTopnote (w : BitVec 128) : Bool := bitN w.toNat 11
@[inherit_doc ctxHeartQ] def ctxUlEn (w : BitVec 128) : Bool := bitN w.toNat 10
@[inherit_doc ctxHeartQ] def ctxDlEn (w : BitVec 128) : Bool := bitN w.toNat 9

/-- Mantissa width that a MANT code names (R208). -/
def mantWidth (m : Nat) : Nat :=
  match m with
  | 0 => 8 | 1 => 9 | 2 => 10 | 3 => 12 | 4 => 14 | _ => 16

/-! ## Memory regions -/

/-- Offset of formula slot `n` in the Reservoir (R330). -/
def slotBase (n : Nat) : Nat := 0x02400000 + n * 0x00800000

/-- The 64-byte Reservoir lines of [a, a + n) take a taint bit (R182). -/
def resTaint (a n : Nat) (t : Bool) (s : State) : State :=
  if n = 0 || (!t && s.mem.taint.isEmpty) then s
  else
    let lines := (List.range ((a + n - 1) / 64 + 1 - a / 64)).map (a / 64 + ·)
    { s with mem := { s.mem with taint := lines.foldl (fun m l => FMap.put false m l t) s.mem.taint } }

/-- A line of [a, a + n) holds tainted data. -/
def resTainted (s : State) (a n : Nat) : Bool :=
  n != 0 && s.mem.taint.any (fun p => p.2 && decide (a / 64 ≤ p.1) && decide (p.1 ≤ (a + n - 1) / 64))

/-- Reservoir bytes are written, with no taint. -/
def resWrite (a : Nat) (b : List Byte) (s : State) : State :=
  resTaint a b.length false { s with mem := { s.mem with res := wrBytes s.mem.res a b } }

/-- Front-end region bytes are written. -/
def feWrite (a : Nat) (b : List Byte) (s : State) : State :=
  { s with mem := { s.mem with fe := wrBytes s.mem.fe a b } }

/-- Codec-and-FIFO region bytes are written. -/
def cfWrite (a : Nat) (b : List Byte) (s : State) : State :=
  { s with mem := { s.mem with cf := wrBytes s.mem.cf a b } }

/-- HBM bytes as they read: listed bytes, else a value the manual leaves open (R337, R351). -/
def hbmByte (s : State) (a : Nat) : Byte :=
  match FMap.find s.mem.hbm a with
  | some b => b
  | none => Config.hbmOpen s.mem.hbmGen a

/-- HBM bytes from an address. -/
def hbmRead (s : State) (a n : Nat) : List Byte := (List.range n).map (fun i => hbmByte s (a + i))

/-- HBM bytes stored; every stored byte is listed. -/
def hbmStore (m : FMap Byte) (a : Nat) : List Byte → FMap Byte
  | [] => m
  | b :: t => hbmStore (FMap.set m a b) (a + 1) t

/-- HBM bytes are written. -/
def hbmWrite (a : Nat) (b : List Byte) (s : State) : State :=
  { s with mem := { s.mem with hbm := hbmStore s.mem.hbm a b } }

/-- The HBM contents of [a, a + n) become undefined. -/
def hbmUndefine (a n : Nat) (s : State) : State :=
  { s with mem := { s.mem with hbm := clearRange s.mem.hbm a n, hbmGen := s.mem.hbmGen + 1 } }

end Sys2Proof.Machine
end

