-- ==== Sys2Proof/Machine/Errors.lean ====
section
/-! DEFINITION. Error records, their handling, fences and the planned takeover they can begin (R375, R427 to R438). -/

namespace Sys2Proof.Machine
open Sys2Proof

/-! ## Boundaries to come -/

/-- Linear beat number of the next slot boundary. -/
def nextSlotLin (s : State) : Nat := (s.tb.lin / 14 + 1) * 14

/-- Linear beat number of the first slot boundary that opens at or after a full time in 2^-40 ns. -/
def slotLinFrom (s : State) (t40 : Int) : Nat :=
  let lin := linAt12 (t40 * 12 / 2 ^ 40 - 12 * (frameOffset s : Int))
  let a := lin / 14 * 14
  Nat.max (if boundaryT s a ≥ t40 then a else a + 14) (nextSlotLin s)

/-! ## The kind of a switch (R37) -/

/-- A program range of one image overlaps one of the other for the same cluster. -/
def progOverlap (a b : Formula) : Bool :=
  a.progs.any (fun p => b.progs.any (fun q => p.cluster == q.cluster && overlaps p.first p.bytes.length q.first q.bytes.length))

/-- The switch from the active image is seamless: equal CLASS, no overlapping program range. -/
def switchSeamless (active : Option Formula) (p : Formula) : Bool :=
  match active with
  | some a => a.cls == p.cls && !progOverlap a p
  | none => false

/-- A ruptive switch or a time step is accepted for boundary `b`. -/
def ruptureDueAt (s : State) (b : Stamp) : Bool :=
  s.nose.sched.any (fun e => match e.when, e.act with
    | .at x, .formulaActivate => x == b && (s.frm.pending.elim false (fun p => !switchSeamless s.frm.active p))
    | .at x, .timeStep _ => x == b
    | _, _ => false)

/-- The takeover boundary: the first slot boundary at or after a full time, one later where a ruptive switch or a step
is pending at it (R375). -/
def takeoverStamp (s : State) (t40 : Int) : Stamp :=
  let a := slotLinFrom s t40
  if ruptureDueAt s (stampOfLin a) then stampOfLin (a + 14) else stampOfLin a

/-- The lead names a takeover boundary at least 50 µs ahead and sends HANDOVER; a pending takeover stands (R375, R446). -/
def beginHandover (planned : BitVec 8) (s : State) : State :=
  match s.twn.handover with
  | some _ => s
  | none =>
    let b := takeoverStamp s (s.tb.t40 + 50000 * 2 ^ 40)
    let seq := s.twn.txSeq
    sendTw 0 (.handover b planned)
      { s with twn := { s.twn with handover := some (b, planned), handoverAck := false, handoverSeq := seq } }

/-! ## Records -/

/-- The units whose instances can be fenced (R436). -/
def fenceable (u : Nat) : Bool := [1, 2, 3, 4, 7, 8].contains u

/-- Every instance that can be fenced (R434). -/
def allFenceable (s : State) : List Nat :=
  let ae := match s.frm.active with
    | some f => (f.budgets.filter (fun (b : Budget) => b.unit == 4)).map (fun (b : Budget) => unitKey 4 b.inst)
    | none => []
  [1, 2, 3].flatMap (fun u => [0, 1, 2, 3].map (unitKey u)) ++ ae.eraseDups ++ [unitKey 7 0, unitKey 8 0]

/-- The address of a record: the first 64 bits of its DETAIL (R429). -/
def errAddress (d : BitVec 256) : BitVec 64 := BitVec.ofNat 64 (d.toNat / 2 ^ 192)

/-- DETAIL from its fields, packed from bit 255 downward: (width, value). -/
def errDetail (fields : List (Nat × Nat)) : BitVec 256 :=
  let r := fields.foldl (fun (p : Nat × Nat) f => (p.1 + f.1, p.2 * 2 ^ f.1 + f.2 % 2 ^ f.1)) (0, 0)
  BitVec.ofNat 256 (r.2 * 2 ^ (256 - r.1))

/-- The records an instance has in handling and pending. -/
def errRecords (s : State) (k : Nat) : List ErrRec :=
  (FMap.find s.err.slot k).toList ++ FMap.get [] s.err.queue k

/-- NOS_ERR_SUMMARY and the fence registers as they now stand (R454). -/
def updateSummary (s : State) : State :=
  let held := s.err.slot.map (fun p => p.1 / 128) ++ (s.err.queue.filter (fun p => !p.2.isEmpty)).map (fun p => p.1 / 128)
  let units := (List.range 15).foldl (fun a u => if held.contains u then a + 2 ^ (16 + u) else a) 0
  let top := maxN (s.err.slot.map (fun p => p.2.sev))
  let fences := s.frm.fences.eraseDups
  let ae := fences.foldl (fun (a : Nat) k => if k / 128 = 4 then a + 2 ^ (k % 128) else a) 0
  let un := fences.foldl (fun (a : Nat) k =>
    if k / 128 ≥ 1 && k / 128 ≤ 3 then a + 2 ^ (4 * (k / 128 - 1) + k % 128)
    else if k / 128 = 7 then a + 2 ^ 12 else if k / 128 = 8 then a + 2 ^ 13 else a) 0
  { s with bar0 := { s.bar0 with
    summary := BitVec.ofNat 32 (units + top * 256 + Nat.min fences.length 255)
    fencedAe := BitVec.ofNat 96 ae, fencedUnits := BitVec.ofNat 32 un } }

/-- A record enters the handling slot of its instance (R432); in LEAD with a FIT sillage a fatal one is marked HANDOVER
and begins the planned takeover (R434). -/
def enterSlot (k : Nat) (r : ErrRec) (s : State) : State :=
  let mark := s.nose.mode == .lead && s.twn.peerFit == 0 && decide (r.sev ≥ 4)
  let r := { r with handover := r.handover || mark, entered := s.tb.lin }
  let s := { s with err := { s.err with slot := FMap.set s.err.slot k r } }
  if mark then beginHandover 2 s else s

/-- The pending record that enters next: highest severity, oldest among equals (R432). -/
def bestPending (l : List ErrRec) : Option ErrRec :=
  l.foldl (fun b r => match b with
    | none => some r
    | some x => if r.sev > x.sev || (r.sev == x.sev && r.order < x.order) then some r else some x) none

/-- The pending record that a full queue drops: lowest severity, youngest among equals (R433). -/
def worstPending (l : List ErrRec) : Option ErrRec :=
  l.foldl (fun b r => match b with
    | none => some r
    | some x => if r.sev < x.sev || (r.sev == x.sev && r.order > x.order) then some r else some x) none

/-- A record joins the pending queue of 4; beyond that one is dropped and counted (R433). -/
def joinQueue (k : Nat) (r : ErrRec) (s : State) : State :=
  let q := FMap.get [] s.err.queue k ++ [r]
  if q.length ≤ 4 then { s with err := { s.err with queue := FMap.set s.err.queue k q } }
  else
    let q := match worstPending q with
      | some w => q.filter (fun x => x.order != w.order)
      | none => q
    count 0xE09 0 { s with
      err := { s.err with queue := FMap.set s.err.queue k q, lost := FMap.set s.err.lost k (FMap.get 0 s.err.lost k + 1) }
      bar0 := { s.bar0 with sticky := s.bar0.sticky ||| 0x40#8 } }

/-- A record arrives: slot, pre-emption or queue (R432, R433). -/
def acceptRecord (k : Nat) (r : ErrRec) (s : State) : State :=
  match FMap.find s.err.slot k with
  | none => enterSlot k r s
  | some h =>
    if r.sev > h.sev then
      enterSlot k r (joinQueue k { h with preempted := true }
        { s with err := { s.err with slot := FMap.erase s.err.slot k } })
    else joinQueue k r s

/-- A new record (R429). -/
def newRecord (code unit inst sev : Nat) (detail : BitVec 256) (s : State) : ErrRec where
  index := 0
  beat := s.tb.beat
  lin := s.tb.lin
  timeNs := nowNs s
  epoch := s.tb.epoch
  code := BitVec.ofNat 8 code
  unit := unit
  inst := inst
  sev := sev
  handover := false
  preempted := false
  fenced := false
  rep := 0
  lost := 0
  handled := 0
  detail := detail
  order := s.err.order
  entered := 0

/-- The record is logged: INDEX, LOST and HANDLED are set, EV_ERROR is raised, the slot frees and the next pending
record enters it (R431, R432). -/
def logRecord (k : Nat) (r : ErrRec) (s : State) : State :=
  let r := { r with
    index := s.err.index, lost := Nat.min (FMap.get 0 s.err.lost k) 65535, handled := Nat.min (s.tb.lin - r.lin) 65535 }
  let log := (s.err.log ++ [r])
  let log := log.drop (log.length - 1024)
  let q := FMap.get [] s.err.queue k
  let s := { s with
    err := { s.err with
      log := log, index := s.err.index + 1, lost := FMap.erase s.err.lost k, slot := FMap.erase s.err.slot k }
    bar0 := { s.bar0 with
      lastIndex := r.index
      sticky := s.bar0.sticky ||| BitVec.ofNat 8 (2 ^ r.sev + (if r.code == 0x0A#8 then 128 else 0)) } }
  let s := raiseEv 0x05 0xD [.num 4 r.index.toNat, .num 1 r.sev, .num 1 r.unit, .num 1 r.inst] s
  let s := match bestPending q with
    | some n => enterSlot k n { s with err := { s.err with
        queue := FMap.set s.err.queue k (q.filter (fun x => x.order != n.order)) } }
    | none => s
  updateSummary s

/-- A detection merges into a record in handling or pending with equal code and address, or makes a new one (R430). -/
def recordDetection (code unit inst sev : Nat) (detail : BitVec 256) (s : State) : State :=
  let k := unitKey unit inst
  let same (r : ErrRec) : Bool := r.code.toNat == code && errAddress r.detail == errAddress detail
  let bump (r : ErrRec) : ErrRec := if same r then { r with rep := Nat.min (r.rep + 1) 65535 } else r
  if (errRecords s k).any same then
    let q := FMap.get [] s.err.queue k
    let slot := match FMap.find s.err.slot k with
      | some r => FMap.set s.err.slot k (bump r)
      | none => s.err.slot
    { s with err := { s.err with slot := slot, queue := if q.isEmpty then s.err.queue else FMap.set s.err.queue k (q.map bump) } }
  else
    let r := newRecord code unit inst sev detail s
    let s := acceptRecord k r { s with err := { s.err with order := s.err.order + 1 } }
    -- in BASE handling ends at once (R434)
    if s.nose.mode == .base && decide (sev ≤ 3) then
      match FMap.find s.err.slot k with
      | some h => if h.order == r.order then logRecord k h s else s
      | none => s
    else s

/-- A unit reports a fault (R427 to R430): the detection is recorded, and the eighth distinct beat within 64 of one
CONTAINED code and address raises REPEATED_FAULT. -/
def raiseErr (code unit inst sev : Nat) (detail : BitVec 256) (s : State) : State :=
  let s := recordDetection code unit inst sev detail s
  if sev != 3 then s
  else
    let k := unitKey unit inst
    let a := errAddress detail
    let hit (e : Nat × BitVec 8 × BitVec 64 × List Nat) : Bool := e.1 == k && e.2.1.toNat == code && e.2.2.1 == a
    let old := ((s.err.seen.find? hit).elim [] (fun e => e.2.2.2)).filter (fun b => decide (s.tb.lin < b + 64))
    let beats := if old.contains s.tb.lin then old else s.tb.lin :: old
    let rest := s.err.seen.filter (fun e => !hit e)
    if beats.length ≥ 8 then
      recordDetection 0x09 unit inst (if fenceable unit then 4 else 5) (errDetail [(8, code), (64, a.toNat)])
        { s with err := { s.err with seen := rest } }
    else { s with err := { s.err with seen := (k, BitVec.ofNat 8 code, a, beats) :: rest } }

/-! ## Fences (R437, R438) -/

/-- A fence applies to an instance; a second one does not. -/
def applyFence (k : Nat) (s : State) : State :=
  if s.frm.fences.contains k then s
  else
    raiseEv 0x4A 0xE [.num 1 (k / 128), .num 1 (k % 128), .num 1 1]
      (count 0xE0B 0 { s with frm := { s.frm with fences := s.frm.fences ++ [k] } })

/-- Every fence ends (R438). -/
def releaseFences (s : State) : State :=
  s.frm.fences.foldl (fun s k => raiseEv 0x4A 0xE [.num 1 (k / 128), .num 1 (k % 128), .num 1 0] s)
    { s with frm := { s.frm with fences := [] } }

/-- The fences that records in handling call for apply at this boundary; a DEVICE_FATAL record's handling ends with
them (R434). -/
def fencesAtBoundary (s : State) : State :=
  s.err.slot.foldl (fun s p =>
    let k := p.1
    let r := p.2
    if r.sev = 4 && !r.fenced then
      let fresh := !s.frm.fences.contains k
      let s := applyFence k s
      { s with err := { s.err with slot := FMap.set s.err.slot k { r with fenced := fresh } } }
    else if r.sev = 5 && isSlotBeat s.tb.lin then
      let s := (allFenceable s).foldl (fun s k => applyFence k s) s
      logRecord k { r with fenced := true } s
    else s) s

/-- At a publication the handling of every record that is due ends (R434). -/
def endHandling (s : State) : State :=
  s.err.slot.foldl (fun s p =>
    if p.2.sev ≤ 3 || (p.2.sev = 4 && p.2.entered < s.tb.lin) then logRecord p.1 p.2 s else s) s

/-- Every record in a slot or a queue is dropped and counted (R446). -/
def dropRecords (s : State) : State :=
  let n := s.err.slot.length + sumN (s.err.queue.map (fun p => p.2.length))
  countBy 0xE09 0 n { s with err := { s.err with slot := [], queue := [] } }

/-! ## Fitness -/

/-- Entry to UNFIT raises EV_TWIN_UNFIT with its cause; UNFIT lasts until a rejoin (R372). -/
def goUnfit (cause : Nat) (s : State) : State :=
  if s.twn.fitness == .unfit then s
  else raiseEv 0x38 0xC [.num 1 cause] { s with twn := { s.twn with fitness := .unfit, cause := BitVec.ofNat 8 cause } }

end Sys2Proof.Machine
end

