-- ==== Sys2Proof/Machine/Windows.lean ====
section
/-! DEFINITION. Reorder windows: admission, eviction, the close of a window, its control and its downlink block record
(R39 to R42, R273, R278 to R281, R293 to R296, R441). -/

namespace Sys2Proof.Machine
open Sys2Proof

/-! ## Blocks and payloads -/

/-- A frequency block (R120), as an exponent, a missing flag and its 12 words. -/
structure FBlock where
  e : Nat
  miss : Bool
  prb : Nat
  w : List Cplx
deriving DecidableEq, Repr, Inhabited

/-- The block of a PRB with nothing in it. -/
def fblockMissing (p : Nat) : FBlock := ⟨0, true, p, List.replicate 12 ⟨0, 0⟩⟩

/-- A sample word (R88): I above Q, 24 bits each. -/
def wordOf (c : Cplx) : Nat := wrapN 24 c.i * 2 ^ 24 + wrapN 24 c.q

/-- The parts of a sample word. -/
def cplxOf (w : Nat) : Cplx := ⟨signed 24 (w / 2 ^ 24), signed 24 w⟩

/-- The 80 bytes of a frequency block. -/
def fblockBytes (b : FBlock) : List Byte :=
  leBytes 8 (b.e * 2 ^ 60 + (if b.miss then 2 ^ 59 else 0) + b.prb) ++ b.w.flatMap (fun c => leBytes 6 (wordOf c))

/-- A frequency block read from its 80 bytes. -/
def fblockOf (l : List Byte) : FBlock :=
  let h := leAt l 0 8
  ⟨bits h 63 60, bitN h 59, bits h 8 0, (List.range 12).map (fun k => cplxOf (leAt l (8 + 6 * k) 6))⟩

/-- A PRB payload of width `w` (R272): exponent, missing bit and the 12 pairs of mantissas. -/
def prbParse (w : Nat) (l : List Byte) : Nat × Bool × List Cplx :=
  let b0 := (l.headD 0).toNat
  let m := beNat (slice l 1 (3 * w))
  let part (i : Nat) : Int := signed w (m / 2 ^ (w * (23 - i)))
  (b0 % 16, b0 ≥ 128, (List.range 12).map (fun k => ⟨part (2 * k), part (2 * k + 1)⟩))

/-- The bytes of a PRB payload (R272). -/
def prbBytes (w x : Nat) (miss : Bool) (m : List Cplx) : List Byte :=
  BitVec.ofNat 8 ((if miss then 128 else 0) + x)
    :: beBytes (3 * w) (m.foldl (fun a c => (a * 2 ^ w + wrapN w c.i) * 2 ^ w + wrapN w c.q) 0)

/-- A section payload becomes a frequency block under R221. -/
def prbBlock (w p : Nat) (l : List Byte) : FBlock :=
  let r := prbParse w l
  if r.2.1 then fblockMissing p
  else ⟨r.1, false, p, r.2.2.map (fun c => ⟨c.i * 2 ^ (24 - w), c.q * 2 ^ (24 - w)⟩)⟩

/-! ## PRBS-31 (R440) -/

/-- The next state of x^31 + x^28 + 1. -/
def prbsNext (v : Nat) : Nat :=
  let b := if bitN v 30 != bitN v 27 then 1 else 0
  (v * 2 + b) % 2 ^ 31

/-- The sequence after `n` bits from a seed. -/
def prbsSkip : Nat → Nat → Nat
  | 0, v => v
  | n + 1, v => prbsSkip n (prbsNext v)

/-- `n` bits of the sequence as a number, first bit most significant (DESIGN CHOICE, log entry 6), and the state after. -/
def prbsTake : Nat → Nat → Nat → Nat × Nat
  | 0, v, acc => (acc, v)
  | n + 1, v, acc => prbsTake n (prbsNext v) (acc * 2 + prbsNext v % 2)

/-- The 24 parts of a loop run's downlink block (R441). -/
def loopParts : Nat → Nat → List Int
  | 0, _ => []
  | n + 1, v =>
    let r := prbsTake 12 v 0
    signed 12 r.1 * 256 :: loopParts n r.2

/-! ## Headers (R271, R277, R279) -/

/-- Fields of a section header at byte 4 of a message's payload. -/
def secWord (l : List Byte) : Nat := beAt l 4 16
/-- Air beat of a section or control message. -/
def msgBeat (l : List Byte) : Stamp := BitVec.ofNat 32 (beAt l 4 4)
/-- SECTION, KIND, CARRIER, LAYER, MANT, START_PRB and NUM_PRB of a section header. -/
def secId (l : List Byte) : Nat := bits (secWord l) 95 84
@[inherit_doc secId] def secKind (l : List Byte) : Nat := bits (secWord l) 83 80
@[inherit_doc secId] def secCarrier (l : List Byte) : Nat := bits (secWord l) 79 78
@[inherit_doc secId] def secLayer (l : List Byte) : Nat := bits (secWord l) 77 72
@[inherit_doc secId] def secMant (l : List Byte) : Nat := bits (secWord l) 69 67
@[inherit_doc secId] def secStart (l : List Byte) : Nat := bits (secWord l) 63 55
@[inherit_doc secId] def secNum (l : List Byte) : Nat := bits (secWord l) 54 46

/-- Fields of a control header at byte 4 of a message's payload. -/
def ctlWord (l : List Byte) : Nat := beAt l 4 8
@[inherit_doc ctlWord] def ctlMsg (l : List Byte) : Nat := bits (ctlWord l) 31 20
@[inherit_doc ctlWord] def ctlCarrier (l : List Byte) : Nat := bits (ctlWord l) 19 18
@[inherit_doc ctlWord] def ctlCount (l : List Byte) : Nat := bits (ctlWord l) 16 13 + 1
@[inherit_doc ctlWord] def ctlNent (l : List Byte) : Nat := bits (ctlWord l) 12 5

/-- A control entry (R277). -/
def ctlEntryOf (l : List Byte) (k : Nat) : CtlEntry :=
  let v := beAt l (12 + 8 * k) 8
  ⟨bits v 63 62, bits v 61 56, bits v 55 47, bits v 46 38, bits v 37 26, bits v 37 36, bits v 35 34, bits v 33 26⟩

/-- Its reserved bits are zero. -/
def ctlRsvOk (l : List Byte) (k : Nat) : Bool := bits (beAt l (12 + 8 * k) 8) 25 0 == 0

/-- Comb spacing (R277). -/
def combSpacing (c : Nat) : Nat := if c = 0 then 1 else if c = 1 then 2 else 4

/-! ## Filing (R40, R41, R293, R294) -/

/-- The queue map entry of a queue. -/
def queueOf (s : State) (q : Nat) : Option QEntry := s.frm.active.bind (fun f => f.queues.find? (fun e => e.queue == q))

/-- DEPTH_LOG2 in force of a queue (R305). -/
def depthOf (s : State) (q : Nat) : Nat :=
  match FMap.find s.sq.depths q with
  | some n => n
  | none => (queueOf s q).elim 0 (fun e => e.depth)

/-- SQ parameters of the active formula. -/
def sqPar (s : State) : SqPar := (s.frm.active.map (fun f => f.sq)).getD {}

/-- The rank of an item (R294): control first, then queue, then MSG_ID or section ID. -/
def itemRank (control : Bool) (q ident : Nat) : Nat := (if control then 0 else 2 ^ 40) + q * 2 ^ 16 + ident

/-- What an item occupies (R293). -/
def itemSize (i : Item) : Nat := roundUp i.bytes.length 64 + 64

/-- Items in rank order. -/
def insertRank (i : Item) : List Item → List Item
  | [] => [i]
  | x :: t =>
    if itemRank i.control i.queue i.ident < itemRank x.control x.queue x.ident then i :: x :: t else x :: insertRank i t

/-- The prefix of the ranking that a window keeps, with the bytes and the sections by queue so far (R294). -/
def keepPrefix (cap : Nat) (limit : Nat → Nat) : Nat → List (Nat × Nat) → List Item → List Item × List Item
  | _, _, [] => ([], [])
  | bytes, per, x :: t =>
    let b := bytes + itemSize x
    let n := FMap.get 0 per x.queue + 1
    if b > cap || (!x.control && n > limit x.queue) then ([], x :: t)
    else
      let r := keepPrefix cap limit b (if x.control then per else FMap.set per x.queue n) t
      (x :: r.1, r.2)

/-- Sections of a queue that a window holds at most: its DEPTH when the window opened (R294, R305). -/
def sectionLimit (w : Window) (q : Nat) : Nat :=
  match w.depths.find? (fun d => d.1 == q) with
  | some d => 2 ^ d.2
  | none => 2 ^ 32

/-- A window keeps what R294 keeps; everything else is evicted and counted. An identity at or below the rank at which
an earlier walk stopped is refused, so that the content does not depend on the order of arrival. -/
def windowKeep (w : Window) (s : State) : Window × State :=
  let stop : Item → Bool := fun i =>
    w.evicted.any (fun e => decide (itemRank e.1 e.2.1 e.2.2 ≤ itemRank i.control i.queue i.ident))
  let ok := w.items.filter (fun i => !stop i)
  let r := keepPrefix ((sqPar s).winBeat.getD w.c 0) (sectionLimit w) 0 [] ok
  let out := r.2 ++ w.items.filter stop
  let mark := match r.2 with
    | x :: _ => [(x.control, x.queue, x.ident)]
    | [] => w.evicted
  ({ w with items := r.1, evicted := mark }, countBy 0x608 w.c out.length s)

/-- Windows of the store or of the shadow store. -/
def windowsOf (shadow : Bool) (s : State) : List Window := if shadow then s.sq.shadow else s.sq.windows

/-- Windows replaced. -/
def setWindows (shadow : Bool) (l : List Window) (s : State) : State :=
  if shadow then { s with sq := { s.sq with shadow := l } } else { s with sq := { s.sq with windows := l } }

/-- The window of (c, b), opened if there is none. -/
def windowOpen (c : Nat) (b : Stamp) (l : List Window) (s : State) : Window :=
  match l.find? (fun w => w.c == c && w.beat == b) with
  | some w => w
  | none => ⟨c, b, [], (s.frm.active.elim [] (fun f => (f.queues.filter (fun e => e.kind == 1)).map
      (fun e => (e.queue, depthOf s e.queue)))), []⟩

/-- A window put in place of the one of its carrier and beat. -/
def putWindow (w : Window) (l : List Window) : List Window := l.filter (fun x => !(x.c == w.c && x.beat == w.beat)) ++ [w]

/-- An item is filed into the window of carrier `c` and beat `b` (R41). The answer says whether the arrival was
forwardable: on time and not identical to a held copy (R367). -/
def fileItem (shadow : Bool) (c : Nat) (b : Stamp) (it : Item) (s : State) : Bool × State :=
  let l := windowsOf shadow s
  let same (i : Item) : Bool := i.control == it.control && i.queue == it.queue && i.ident == it.ident
  match l.find? (fun w => w.beat == b && w.items.any same) with
  | some w =>
    let s := count 0x602 0 s
    match w.items.find? same with
    | none => (false, s)
    | some old =>
      if old.bytes.drop 4 == it.bytes.drop 4 then (false, s)
      else
        let s := count 0x603 0 s
        let newer := decide (it.stamp < old.stamp) || (it.stamp == old.stamp && it.port == 0 && old.port != 0)
        let kept := if newer then { it with conflict := true } else { old with conflict := true }
        let home := if newer then c else w.c
        let w' := { w with items := w.items.filter (fun i => !same i) }
        let l := putWindow w' l
        let wh := windowOpen home b l s
        let r := windowKeep { wh with items := insertRank kept wh.items } s
        (true, setWindows shadow (putWindow r.1 l) r.2)
  | none =>
    let w := windowOpen c b l s
    let r := windowKeep { w with items := insertRank it w.items } s
    (true, setWindows shadow (putWindow r.1 l) r.2)

/-- The admission instant of beat `lin` on carrier `c`, in 2^-40 ns (R40). -/
def admissionTime (s : State) (c lin : Nat) : Int := boundaryT s (lin - (carrierOf s c).admitBeats)

/-- The SECTION_DISCARD verdict of a late (1) or early (2) arrival (R41, R46). -/
def discardArrival (q ident : Nat) (b : Stamp) (outcome : Nat) (s : State) : State :=
  makeVerdict 0x02 0x6 b (q * 2 ^ 48 + ident * 2 ^ 36 + outcome) (count (if outcome = 1 then 0x600 else 0x601) 0 s)

/-- A section or control message with a valid stamp meets the table "Ingress outcomes" (R41, R296). -/
def admitItem (shadow : Bool) (c : Nat) (b : Stamp) (it : Item) (s : State) : Bool × State :=
  let d := beatDist s.tb.beat b
  let lin := linNear s b
  if decide ((sqPar s).horizon < d) && decide (d < 36700160) then
    (false, if shadow then s else discardArrival it.queue it.ident b 2 s)
  else if decide (admissionTime s c lin ≤ it.stamp * 2 ^ 36) || s.sq.closed.contains (4 * lin + c) then
    (false, if shadow then s else discardArrival it.queue it.ident b 1 s)
  else
    let r := fileItem shadow c b it s
    if shadow then (r.1, count 0xC01 0 r.2) else r

/-! ## The close of a window (R39, R273, R278 to R281, R295) -/

/-- The control of a window is complete (R278). -/
def controlComplete (w : Window) : Bool :=
  let ctl := w.items.filter (fun i => i.control)
  match ctl with
  | [] => false
  | i :: _ =>
    let n := ctlCount i.bytes
    ctl.all (fun x => ctlCount x.bytes == n && decide (x.ident < n))
      && (List.range n).all (fun k => ctl.any (fun x => x.ident == k))
      && !w.evicted.any (fun e => e.1)

/-- Entries of a control message, in order, with their reserved bits checked. -/
def msgEntries (i : Item) : List (CtlEntry × Bool) :=
  (List.range (ctlNent i.bytes)).map (fun k => (ctlEntryOf i.bytes k, ctlRsvOk i.bytes k))

/-- An entry is kept beside those kept so far (R279). -/
def entryOk (s : State) (c : Nat) (kept : List CtlEntry) (e : CtlEntry) (rsv : Bool) : Bool :=
  let w := ctxOf s c e.layer
  let nprb := (carrierOf s c).nprb
  let peers := kept.filter (fun k => k.dir == e.dir && k.layer == e.layer)
  rsv && decide (e.dir ≤ 2) && decide (1 ≤ e.numPrb) && decide (e.startPrb + e.numPrb ≤ nprb)
    && (if e.dir = 0 then ctxDlEn w else ctxUlEn w)
    && !peers.any (fun k => overlaps k.startPrb k.numPrb e.startPrb e.numPrb)
    && (if e.dir = 0 then !kept.any (fun k => k.dir == 0 && k.section_ == e.section_)
        else if e.dir = 1 then e.section_ == 0 && decide (peers.length < 15)
        else decide (e.comb ≤ 2) && decide (e.offset < combSpacing e.comb))

/-- The kept entries of complete control, in ascending MSG_ID and entry order, and the number discarded. -/
def applyEntries (s : State) (c : Nat) (l : List (CtlEntry × Bool)) : List CtlEntry × Nat :=
  l.foldl (fun a e => if entryOk s c a.1 e.1 e.2 then (a.1 ++ [e.1], a.2) else (a.1, a.2 + 1)) ([], 0)

/-- Control messages in ascending MSG_ID, queues ascending among equals. -/
def byMsgId (l : List Item) : List Item :=
  (List.range 4096).flatMap (fun k => l.filter (fun i => i.ident == k))

/-- A held section passes R273. -/
def sectionOk (s : State) (c : Nat) (i : Item) : Bool :=
  let l := i.bytes
  let car := carrierOf s c
  let ctx := ctxOf s c (secLayer l)
  let w := mantWidth (secMant l)
  let h := secWord l
  (match queueOf s i.queue with
    | some e => e.kind == 1 && e.ports.getLsbD i.port
    | none => false)
    && car.enable && car.dlEn && ctxDlEn ctx && secMant l == ctxMant ctx && decide (secMant l ≤ 5)
    && decide (1 ≤ secNum l) && decide (secStart l + secNum l ≤ car.nprb)
    && l.length == 20 + secNum l * (1 + 3 * w)
    && !bitN h 71 && bits h 66 64 == 0 && bits h 45 32 == 0
    && (List.range (secNum l)).all (fun k => (l.getD (20 + k * (1 + 3 * w)) 0).toNat / 16 % 8 == 0)

/-- The section that a kept DL entry takes: the first in rank order that matches it (R281). -/
def matchSection (secs : List Item) (e : CtlEntry) : Option Item :=
  secs.find? (fun i => secId i.bytes == e.section_ && secLayer i.bytes == e.layer && secStart i.bytes == e.startPrb
    && secNum i.bytes == e.numPrb)

/-- Bytes of a slot of the downlink block record ring (R295). -/
def dlSlotBytes (nprb : Nat) : Nat := 64 * nprb * 80

/-- Offset of the record of (c, b) in the Reservoir, if the carrier has a ring. -/
def dlRecordAt (s : State) (c lin : Nat) : Option Nat :=
  let car := carrierOf s c
  let ring := Nat.max 1 (car.admitBeats - 1)
  ((sqPar s).dlb.getD c none).map (fun b => b + lin % beatMod % ring * dlSlotBytes car.nprb)

/-- The downlink block record is written: the given blocks by (layer, PRB), every other block zero with MISSING. -/
def writeDlRecord (c lin : Nat) (blocks : List (Nat × Nat × FBlock)) (s : State) : State :=
  match dlRecordAt s c lin with
  | none => s
  | some base =>
    let nprb := (carrierOf s c).nprb
    let s := (List.range 64).foldl (fun s l => (List.range nprb).foldl (fun s p =>
      resWrite (base + 80 * (nprb * l + p)) (fblockBytes (fblockMissing p)) s) s) s
    blocks.foldl (fun s b => resWrite (base + 80 * (nprb * b.1 + b.2.1)) (fblockBytes b.2.2) s) s

/-- The blocks of a kept section. -/
def sectionBlocks (i : Item) : List (Nat × Nat × FBlock) :=
  let w := mantWidth (secMant i.bytes)
  (List.range (secNum i.bytes)).map (fun k =>
    let p := secStart i.bytes + k
    (secLayer i.bytes, p, prbBlock w p (slice i.bytes (20 + k * (1 + 3 * w)) (1 + 3 * w))))

/-- The window of (c, b) leaves the store, and is closed from now on. -/
def freeWindow (c lin : Nat) (b : Stamp) (s : State) : State :=
  { s with sq := { s.sq with
    windows := s.sq.windows.filter (fun w => !(w.c == c && w.beat == b))
    closed := (4 * lin + c) :: s.sq.closed.filter (fun k => decide (s.tb.lin < k / 4 + 600)) } }

/-- Entries kept for a carrier beat; absent where the control was not complete (R210, R278). -/
def keepControl (c lin : Nat) (l : List CtlEntry) (s : State) : State :=
  { s with sq := { s.sq with control := FMap.set s.sq.control (4 * lin + c) l } }

/-- Verdicts of a window close: DUP_CONFLICT per conflicting item, then WINDOW_CLOSE (R41, R46). -/
def closeVerdicts (c : Nat) (b : Stamp) (items : List Item) (admitted missing : Nat) (s : State) : State :=
  let s := (items.filter (fun i => i.conflict)).foldl (fun s i =>
    makeVerdict 0x03 0x6 b (i.queue * 2 ^ 48 + i.ident * 2 ^ 36 + i.port) s) s
  makeVerdict 0x01 0x6 b (c * 2 ^ 62 + admitted * 2 ^ 16 + missing) s

/-- SQ closes the window of air beat `lin` on carrier `c` (R295). -/
def closeWindow (c lin : Nat) (s : State) : State :=
  let b := stampOfLin lin
  let car := carrierOf s c
  let w := windowOpen c b s.sq.windows s
  if !(car.enable && (car.ulEn || car.dlEn)) then
    freeWindow c lin b (w.items.foldl (fun s i => if i.control then count 0x90A i.port s else count 0x90E c s) s)
  else
    let ctl := byMsgId (w.items.filter (fun i => i.control))
    let secs := w.items.filter (fun i => !i.control)
    let complete := controlComplete w
    let r := if complete then applyEntries s c (ctl.flatMap msgEntries) else ([], 0)
    let s := if complete then keepControl c lin r.1 (countBy 0x911 c r.2 s) else count 0x910 c s
    if lostDown s lin then
      freeWindow c lin b (closeVerdicts c b w.items 0 0 (countBy 0x606 0 secs.length s))
    else
      let good := secs.filter (sectionOk s c)
      let s := countBy 0x90E c (secs.length - good.length) s
      let dl := r.1.filter (fun e => e.dir == 0)
      let got := dl.filterMap (matchSection good)
      let missing := dl.length - got.length
      let s := countBy 0x604 0 missing (countBy 0x90F c (good.length - got.length) s)
      let s := closeVerdicts c b w.items (if complete then got.length else 0) (if complete then missing else 0) s
      let s := if car.dlEn then writeDlRecord c lin (got.flatMap sectionBlocks) s else s
      freeWindow c lin b s

/-! ## The loop run's control and ingress (R441) -/

/-- The control of a carrier beat in a loop run: every PRB to every layer in use. -/
def loopControl (s : State) (c : Nat) : List CtlEntry :=
  let n := (carrierOf s c).nprb
  (List.range 64).flatMap (fun l =>
    let w := ctxOf s c l
    (if ctxDlEn w then [⟨0, l, 0, n, l, 0, 0, 0⟩] else []) ++ (if ctxUlEn w then [⟨1, l, 0, n, 0, 0, 0, 0⟩] else []))

/-- A loop run's downlink blocks of (c, l) for the `k`-th air beat it makes. -/
def loopBlocks (s : State) (c l k : Nat) : List (Nat × Nat × FBlock) :=
  let n := (carrierOf s c).nprb
  let start := prbsSkip (k * n * 288) (64 * c + l + 1)
  let parts := loopParts (n * 24) start
  (List.range n).map (fun p =>
    (l, p, ⟨0, false, p, (List.range 12).map (fun i => ⟨parts.getD (24 * p + 2 * i) 0, parts.getD (24 * p + 2 * i + 1) 0⟩)⟩))

/-- The close of a carrier beat in a loop run that began at beat `start`. -/
def loopClose (c lin start : Nat) (s : State) : State :=
  let car := carrierOf s c
  if !(car.enable && (car.ulEn || car.dlEn)) then s
  else
    let ctl := loopControl s c
    let s := keepControl c lin ctl s
    let dl := ctl.filter (fun e => e.dir == 0)
    let s := makeVerdict 0x01 0x6 (stampOfLin lin) (c * 2 ^ 62 + dl.length * 2 ^ 16) s
    if car.dlEn then
      writeDlRecord c lin (dl.flatMap (fun e => loopBlocks s c e.layer (lin - (start + car.admitBeats + 1)))) s
    else s

end Sys2Proof.Machine
end

