-- ==== Sys2Proof/Machine/Codec.lean ====
section
/-! DEFINITION. The Absolute codec: conversion, predictors, encoding and decoding of a block (R251 to R259). -/

namespace Sys2Proof.Machine
open Sys2Proof

/-- A codec block: exponents and missing flags of 16 elements, and their 384 parts in stream order (R251). -/
structure CxBlock where
  x : List Nat
  miss : List Bool
  v : Array Int
deriving Repr, Inhabited

/-! ## Conversion (R251) -/

/-- Exponent and parts of one element, and its saturated parts. -/
def cxElement (b : FBlock) : Nat × List Int × Nat :=
  if b.miss then (0, List.replicate 24 0, 0)
  else
    let m := b.w.flatMap (fun c => [c.i, c.q])
    match (List.range (16 - b.e)).find? (fun i => m.all (fun v => fitsI 16 (roundConv v (8 + i)))) with
    | some i => (b.e + i, m.map (fun v => roundConv v (8 + i)), 0)
    | none =>
      let r := m.map (fun v => roundConv v (8 + (15 - b.e)))
      (15, r.map (satI 16), sumN (r.map (satCount 16)))

/-- The codec block of 16 frequency blocks, and its saturated parts. -/
def cxConvert (l : List FBlock) : CxBlock × Nat :=
  let r := l.map cxElement
  (⟨r.map (fun p => p.1), l.map (fun b => b.miss), (r.flatMap (fun p => p.2.1)).toArray⟩, sumN (r.map (fun p => p.2.2)))

/-- The frequency blocks that a decoded block gives back. -/
def cxBlocks (p : Nat) (b : CxBlock) : List FBlock :=
  (List.range 16).map (fun e =>
    if b.miss.getD e false then fblockMissing p
    else ⟨b.x.getD e 0, false, p, (List.range 12).map (fun k =>
      ⟨b.v.getD (24 * e + 2 * k) 0 * 256, b.v.getD (24 * e + 2 * k + 1) 0 * 256⟩)⟩)

/-! ## Predictors (R254, R255) -/

/-- sc(v, X_r): a reference part scaled for a current element. -/
def cxScale (v : Int) (xr xe : Nat) : Int :=
  clampI (-32768) 32767 (if xr ≥ xe then v * 2 ^ (xr - xe) else roundConv v (xe - xr))

/-- c_r and s_r. -/
def rotC (r : Nat) : Int :=
  [16384, 15137, 11585, 6270, 0, -6270, -11585, -15137, -16384].getD (if r ≤ 8 then r else 16 - r) 0
@[inherit_doc rotC] def rotS (r : Nat) : Int := rotC ((r + 12) % 16)

/-- A predictor and its parameter. -/
structure CxPred where
  pred : Nat
  param : Nat
deriving DecidableEq, Repr, Inhabited

/-- A part of a block; zero where the element is missing. -/
def cxPart (b : CxBlock) (e k : Nat) : Int := if b.miss.getD e true then 0 else b.v.getD (24 * e + k) 0

/-- v(e, s) predicted, `k` = 2 s for I and 2 s + 1 for Q. -/
def cxPredict (p : CxPred) (b : CxBlock) (hist : Option CxBlock) (e k : Nat) : Int :=
  let xe := b.x.getD e 0
  match p.pred with
  | 1 =>
    if e = 0 then 0
    else
      let i := cxPart b (e - 1) (k / 2 * 2)
      let q := cxPart b (e - 1) (k / 2 * 2 + 1)
      let r := if k % 2 = 0 then roundConv (i * rotC p.param - q * rotS p.param) 14
        else roundConv (i * rotS p.param + q * rotC p.param) 14
      cxScale r (b.x.getD (e - 1) 0) xe
  | 2 => if e < p.param then 0 else cxScale (cxPart b (e - p.param) k) (b.x.getD (e - p.param) 0) xe
  | 3 =>
    match hist with
    | some h => cxScale (cxPart h e k) (h.x.getD e 0) xe
    | none => 0
  | 4 => if k < 2 then 0 else cxPart b e (k - 2)
  | _ => 0

/-- The rotation that the encoder computes (R255). -/
def cxRotation (b : CxBlock) : Nat :=
  let c := (List.range 15).foldl (fun (a : Int × Int) i =>
    let e := i + 1
    if b.miss.getD e true || b.miss.getD i true then a
    else (List.range 12).foldl (fun a s =>
      let xi := cxPart b e (2 * s)
      let xq := cxPart b e (2 * s + 1)
      let yi := cxPart b i (2 * s)
      let yq := cxPart b i (2 * s + 1)
      (a.1 + (xi * yi + xq * yq), a.2 + (xq * yi - xi * yq))) a) (0, 0)
  let score (r : Nat) : Int := c.1 * rotC r + c.2 * rotS r
  (List.range 16).foldl (fun best r => if score r > score best then r else best) 0

/-! ## Residues (R256) -/

/-- The residue as an unsigned number, and back. -/
def cxFold (r : Int) : Nat := if r ≥ 0 then (2 * r).toNat else (-2 * r - 1).toNat
@[inherit_doc cxFold] def cxUnfold (u : Nat) : Int := if u % 2 = 0 then ((u / 2 : Nat) : Int) else -(((u + 1) / 2 : Nat) : Int)

/-- Length of the code of `u` at parameter K. -/
def cxCodeLen (k u : Nat) : Nat := if u / 2 ^ k < 24 then u / 2 ^ k + 1 + k else 41

/-- The code of `u`. -/
def cxCode (k u : Nat) : List Bool :=
  let q := u / 2 ^ k
  if q < 24 then List.replicate q true ++ [false] ++ bitsMsb k u else List.replicate 24 true ++ bitsMsb 17 u

/-- The folded residues of a block under a predictor, in stream order. -/
def cxResidues (p : CxPred) (b : CxBlock) (hist : Option CxBlock) : List Nat :=
  (List.range 16).flatMap (fun e =>
    if b.miss.getD e true then []
    else (List.range 24).map (fun k => cxFold (cxPart b e k - cxPredict p b hist e k)))

/-! ## Choosing the code (R257, R258) -/

/-- The candidates of an effort level; distance 0 stands for the computed rotation of P1. -/
def cxCandidates (effort : Nat) : List CxPred :=
  let p2 (n : Nat) : List CxPred := (List.range n).map (fun d => ⟨2, d + 1⟩)
  let p3 (n : Nat) : List CxPred := (List.range n).map (fun d => ⟨3, d + 1⟩)
  match effort with
  | 0 => [⟨0, 0⟩, ⟨1, 0⟩]
  | 1 => [⟨0, 0⟩, ⟨1, 0⟩] ++ p3 1
  | 2 => [⟨0, 0⟩, ⟨1, 0⟩] ++ p2 4 ++ p3 2
  | _ => [⟨0, 0⟩, ⟨1, 0⟩] ++ p2 15 ++ p3 13 ++ [⟨4, 0⟩]

/-- n of the table "Effort levels" (R239, R262). -/
def effortN (effort : Nat) : Nat := (cxCandidates effort).length

/-- What an encode keeps: predictor, K, sum and residues. -/
structure CxChoice where
  p : CxPred
  k : Nat
  sum : Nat
  res : List Nat
deriving DecidableEq, Repr, Inhabited

/-- The best K of a candidate. -/
def cxBestK (p : CxPred) (res : List Nat) : CxChoice :=
  let sum (k : Nat) : Nat := sumN (res.map (cxCodeLen k))
  let k := (List.range 16).foldl (fun b k => if sum k < sum b then k else b) 0
  ⟨p, k, sum k, res⟩

/-- The candidate that an encode keeps; `hist` gives the block d beats earlier where P3 may take part. -/
def cxChoose (effort : Nat) (b : CxBlock) (hist : Nat → Option CxBlock) : CxChoice :=
  let r := cxRotation b
  let eval (p : CxPred) : Option CxChoice :=
    if p.pred = 3 then (hist p.param).map (fun h => cxBestK p (cxResidues p b (some h)))
    else if p.pred = 1 then some (cxBestK ⟨1, r⟩ (cxResidues ⟨1, r⟩ b none))
    else some (cxBestK p (cxResidues p b none))
  ((cxCandidates effort).filterMap eval).foldl (fun a c => if c.sum < a.sum then c else a) (cxBestK ⟨0, 0⟩ (cxResidues ⟨0, 0⟩ b none))

/-- The header of a block. -/
def cxHeader (mode : Nat) (p : CxPred) (k : Nat) (b : CxBlock) : List Bool :=
  bitsMsb 2 mode ++ bitsMsb 3 p.pred ++ bitsMsb 4 p.param ++ bitsMsb 5 k
    ++ (List.range 16).map (fun e => b.miss.getD e false)
    ++ (List.range 16).flatMap (fun e => bitsMsb 4 (if b.miss.getD e false then 0 else b.x.getD e 0))

/-- The coded form. -/
def cxCoded (c : CxChoice) (b : CxBlock) : List Byte :=
  padTo 8 (packBits (cxHeader 1 c.p c.k b ++ c.res.flatMap (cxCode c.k)))

/-- The raw form (R253). -/
def cxRaw (b : CxBlock) : List Byte :=
  padTo 8 (packBits (cxHeader 2 ⟨0, 0⟩ 0 b
    ++ (List.range 16).flatMap (fun e => (List.range 24).flatMap (fun k => bitsMsb 16 (wrapN 16 (cxPart b e k))))))

/-- The bytes of an encoded block, and whether the raw form is stored (R258). -/
def cxEncode (effort : Nat) (b : CxBlock) (hist : Nat → Option CxBlock) : List Byte × Bool :=
  let c := cxChoose effort b hist
  if roundUp (94 + c.sum) 64 ≥ 6272 then (cxRaw b, true) else (cxCoded c b, false)

/-! ## Decoding (R259) -/

/-- RESULT codes of the codec (R401). -/
def cxIllegal : Nat := 3
@[inherit_doc cxIllegal] def cxDistance : Nat := 4
@[inherit_doc cxIllegal] def cxOverrun : Nat := 5

/-- The value of `n` bits from position `pos`. -/
def bitsAt (b : Array Bool) (pos n : Nat) : Nat := natMsb ((List.range n).map (fun i => b.getD (pos + i) false))

/-- Leading one-bits from `pos`, at most `fuel`. -/
def onesAt (b : Array Bool) (pos : Nat) : Nat → Nat
  | 0 => 0
  | fuel + 1 => if b.getD pos false then onesAt b (pos + 1) fuel + 1 else 0

/-- One code: its value and its length, or an error. -/
def cxReadCode (b : Array Bool) (pos k : Nat) : Except Nat (Nat × Nat) :=
  let q := onesAt b pos 24
  if q < 24 then
    if pos + q + 1 + k > b.size then .error cxOverrun else .ok (q * 2 ^ k + bitsAt b (pos + q + 1) k, q + 1 + k)
  else if pos + 41 > b.size then .error cxOverrun
  else
    let u := bitsAt b (pos + 24) 17
    if u < 24 * 2 ^ k then .error cxIllegal else .ok (u, 41)

/-- The parts of a coded block, one code after the other. -/
def cxReadParts (bs : Array Bool) (p : CxPred) (k : Nat) (hist : Option CxBlock) :
    Nat → Nat → Nat → CxBlock → Except Nat (CxBlock × Nat)
  | 0, _, pos, b => .ok (b, pos)
  | n + 1, i, pos, b =>
    let e := i / 24
    if b.miss.getD e false then cxReadParts bs p k hist n (i + 1) pos b
    else
      match cxReadCode bs pos k with
      | .error x => .error x
      | .ok (u, len) =>
        let v := cxPredict p b hist e (i % 24) + cxUnfold u
        if fitsI 16 v then cxReadParts bs p k hist n (i + 1) (pos + len) { b with v := b.v.setIfInBounds i v }
        else .error cxIllegal

/-- The padding from `pos` is legal: zero bits, less than one whole 64-bit word. -/
def cxPaddingOk (bs : Array Bool) (pos : Nat) : Bool :=
  decide (bs.size < pos + 64) && (List.range (bs.size - pos)).all (fun i => !bs.getD (pos + i) false)

/-- The parameter lies in the predictor's range. -/
def cxParamOk (pred param : Nat) : Bool :=
  match pred with
  | 0 => param == 0
  | 1 => true
  | 2 => decide (1 ≤ param)
  | 3 => decide (1 ≤ param) && decide (param ≤ 13)
  | 4 => param == 0
  | _ => false

/-- A block decodes, or fails with the first error in stream order. `sym` is the SYMBOL of its beat, `hist` the block d
beats earlier where there is one. -/
def cxDecode (sym : Nat) (hist : Nat → Option CxBlock) (bytes : List Byte) : Except Nat CxBlock :=
  let len := bytes.length
  if len < 16 || len > 784 then .error cxOverrun
  else
    let bs := (unpackBits bytes).toArray
    let mode := bitsAt bs 0 2
    let pred := bitsAt bs 2 3
    let param := bitsAt bs 5 4
    let k := bitsAt bs 9 5
    let miss := (List.range 16).map (fun e => bs.getD (14 + e) false)
    let x := (List.range 16).map (fun e => bitsAt bs (30 + 4 * e) 4)
    let expOk := (List.range 16).all (fun e => !miss.getD e false || x.getD e 0 == 0)
    let b : CxBlock := ⟨x, miss, Array.replicate 384 0⟩
    if mode = 2 then
      if pred ≠ 0 || param ≠ 0 || k ≠ 0 || !expOk then .error cxIllegal
      else if bs.size < 6238 then .error cxOverrun
      else
        let v := (List.range 384).map (fun i => signed 16 (bitsAt bs (94 + 16 * i) 16))
        if (v.zipIdx.any (fun p => miss.getD (p.2 / 24) false && p.1 != 0)) || !cxPaddingOk bs 6238 then .error cxIllegal
        else .ok { b with v := v.toArray }
    else if mode ≠ 1 || !cxParamOk pred param then .error cxIllegal
    else if pred = 3 && (param > sym || (hist param).isNone) then .error cxDistance
    else if k > 15 || !expOk then .error cxIllegal
    else
      match cxReadParts bs ⟨pred, param⟩ k (if pred = 3 then hist param else none) 384 0 94 b with
      | .error e => .error e
      | .ok (r, pos) => if cxPaddingOk bs pos then .ok r else .error cxIllegal

/-- The counter of a decoder error. -/
def countCx (code : Nat) (s : State) : State :=
  count (if code = cxIllegal then 0x703 else if code = cxDistance then 0x704 else 0x705) 0 s

end Sys2Proof.Machine
end

