-- ==== Sys2Proof/Machine/DdStore.lean ====
section
/-! DEFINITION. The flacon ring: layout, retention, the rewind mark, history, and what a freeze or a loss ends (R235 to
R244). -/

namespace Sys2Proof.Machine
open Sys2Proof

/-! ## Layout (R235, R236) -/

/-- The drydown parameters in force; none with DRYDOWN_EN clear. -/
def ddPar (s : State) : Option DdPar := s.frm.active.bind (fun f => if f.drydown then f.dd else none)

/-- The carriers of the active formula with UL_EN set. -/
def ulCarriers (s : State) : List Nat :=
  (List.range 4).filter (fun c => (carrierOf s c).enable && (carrierOf s c).ulEn)

/-- NB of a carrier list. -/
def ddBlocksOf (l : List Carrier) : Nat := 16 * sumN ((l.filter (fun c => c.enable && c.ulEn)).map (fun c => c.nprb))

/-- Bytes of a flacon with `nb` blocks. -/
def flaconBytesOf (nb : Nat) : Nat := roundUp (64 + roundUp nb 64 + 784 * nb) 4096

/-- NB and FLACON_BYTES of the active formula. -/
def ddBlocks (s : State) : Nat := ddBlocksOf (carriersOf s)
@[inherit_doc ddBlocks] def flaconBytes (s : State) : Nat := flaconBytesOf (ddBlocks s)

/-- HBM address of flacon `i`. -/
def flaconAt (s : State) (i : Nat) : Nat := (ddPar s).elim 0 (fun d => d.base) + i * flaconBytes s

/-- Number j of block (c, p, g). -/
def flaconBlock (s : State) (c p g : Nat) : Nat :=
  16 * sumN (((ulCarriers s).filter (fun k => decide (k < c))).map (fun k => (carrierOf s k).nprb)) + 16 * p + g

/-- HBM address of the slot of block `j` of flacon `i`. -/
def flaconSlot (s : State) (i j : Nat) : Nat := flaconAt s i + 64 + roundUp (ddBlocks s) 64 + 784 * j

/-- The bytes of block `j` of flacon `i`, as its index states their length. -/
def flaconRead (s : State) (i j : Nat) : List Byte :=
  hbmRead s (flaconSlot s i j) (8 * (hbmByte s (flaconAt s i + 64 + j)).toNat)

/-! ## Retention (R239, R241) -/

/-- The index of the flacon that holds an air beat, while the ring keeps it. -/
def flaconOf (s : State) (lin : Nat) : Option Nat :=
  (s.dd.valid.find? (fun p => p.2 == lin + 4)).map (fun p => p.1)

/-- The retained air beats, as linear beat numbers in ascending order. -/
def retained (s : State) : List Nat :=
  ((s.dd.valid.filter (fun p => decide (p.2 ≤ s.tb.lin))).map (fun p => p.2 - 4)).mergeSort (fun a b => decide (a ≤ b))

/-- The air beat is retained. -/
def isRetained (s : State) (lin : Nat) : Bool := (retained s).contains lin

/-- A host job in progress reads air beat `lin`. -/
def hostJobReads (s : State) (lin : Nat) (b : JobBody) : Bool :=
  match b with
  | .recombine _ _ first last _ => decide (linNear s first ≤ lin) && decide (lin ≤ linNear s last)
  | .ddFetch _ first last => decide (linNear s first ≤ lin) && decide (lin ≤ linNear s last)
  | _ => false

/-- Host jobs that meet a condition will end with a RESULT (R401). -/
def failHostJobs (p : JobBody → Bool) (result : Nat) (s : State) : State :=
  { s with nose := { s.nose with jobs := s.nose.jobs.map (fun j => if p j.body then { j with body := .failed result } else j) } }

/-- The rewind mark moves to the oldest air beat still retained when the beat it names is lost (R243). -/
def markLost (lost : Nat) (s : State) : State :=
  match s.dd.mark with
  | none => s
  | some m =>
    if linNear s m != lost then s
    else
      let new := (retained s).head?
      let n := match new with
        | some b => b - lost
        | none => 1
      let stamp := match new with
        | some b => stampOfLin b
        | none => 0
      raiseEv 0x1B 0x8 [.num 4 m.toNat, .num 4 stamp.toNat, .num 4 n]
        (count 0x802 0 { s with dd := { s.dd with mark := new.map stampOfLin } })

/-- Flacon `i` no longer holds its air beat. -/
def loseFlacon (i : Nat) (s : State) : State :=
  match FMap.find s.dd.valid i with
  | none => s
  | some v =>
    let s := { s with dd := { s.dd with valid := FMap.erase s.dd.valid i } }
    markLost (v - 4) (failHostJobs (hostJobReads s (v - 4)) 0x11 s)

/-- The scheduled jobs that an air beat's loss by a shrink overtakes: the job's own beat or its history (R250). -/
def overtakeJobs (lin : Nat) (s : State) : State :=
  { s with dd := { s.dd with jobs := s.dd.jobs.map (fun j =>
    if !j.host && j.st == .running && decide (lin ≤ j.lin) && decide (j.lin < lin + 14) && j.lin / 14 == lin / 14 then
      { j with st := .overtaken, todo := [] } else j) } }

/-- Flacon `i` is discarded under a shrink (R241). -/
def discardFlacon (i : Nat) (s : State) : State :=
  match FMap.find s.dd.valid i with
  | none => s
  | some v =>
    let s := overtakeJobs (v - 4) (loseFlacon i s)
    count 0x801 0 { s with dd := { s.dd with map := FMap.erase s.dd.map i } }

/-- The write index after one flacon, with a change of the ring length at the wrap (R237, R241). -/
def ddAdvance (s : State) : State :=
  let next := s.dd.i + 1
  let wrap : State := { s with dd := { s.dd with i := if next ≥ s.dd.n then 0 else next } }
  match s.dd.nNext with
  | none => wrap
  | some m =>
    if m > s.dd.n then
      if next = s.dd.n then { s with dd := { s.dd with i := next, n := m, nNext := none } } else wrap
    else if next = m then
      let s := (List.range (s.dd.n - m)).foldl (fun s k => discardFlacon (m + k) s) s
      { s with dd := { s.dd with i := 0, n := m, nNext := none } }
    else wrap

/-- The ring is emptied (R242). -/
def ddEmpty (s : State) : State :=
  { s with dd := { s.dd with i := 0, map := [], valid := [], writing := none, history := [], mark := none } }

/-- N of the drydown parameters; 0 without. -/
def ddLength (d : Option DdPar) : Nat := d.elim 0 (fun d => 14 * d.retain)

/-! ## History (R254, R257) -/

/-- Block (c, p, g) of air beat `lin` decodes from the ring; history blocks first. -/
def ddDecode (s : State) (c p g : Nat) : Nat → Nat → Except Nat CxBlock
  | 0, _ => .error cxDistance
  | fuel + 1, lin =>
    match s.dd.map.find? (fun e => e.2 == stampOfLin lin) with
    | none => .error cxDistance
    | some (i, _) =>
      cxDecode (linSymbol lin) (fun d => if decide (lin < d) then none else (ddDecode s c p g fuel (lin - d)).toOption)
        (flaconRead s i (flaconBlock s c p g))

/-- The block d beats earlier that an encode of air beat `lin` may use. -/
def ddHistory (s : State) (c p g lin d : Nat) : Option CxBlock :=
  if d ≤ linSymbol lin && s.dd.history.contains (lin - d) then (ddDecode s c p g 14 (lin - d)).toOption else none

/-! ## HBM freeze (R233, R244) -/

/-- DD_READ deadline and RECOMBINE deadline of a carrier: beat offset and cycle. -/
def ddDeadline (s : State) (kind c : Nat) : Option (Nat × Nat) :=
  (s.frm.active.bind (fun f => f.deadlines.find? (fun d => d.kind == kind && d.scope == c))).map (fun d => (d.off.toNat, d.cycle))

/-- An HBM_FREEZE verdict of work beat `f` takes effect: no flacon is written, and jobs fail. -/
def ddFreeze (f : Nat) (s : State) : State :=
  let s := failHostJobs (fun b => match b with
    | .recombine .. => true
    | .csi .. => true
    | .ddFetch .. => true
    | _ => false) 0x12 s
  { s with dd := { s.dd with
    frozenFrom := some f, writing := none
    jobs := s.dd.jobs.map (fun j =>
      let due := (ddDeadline s 2 j.c).elim true (fun d => decide (f ≤ j.lin + d.1))
      if j.st != .rupture && j.st != .skipped && (j.host || due) then { j with st := .frozen, todo := [] } else j) } }

end Sys2Proof.Machine
end

