-- ==== Sys2Proof/Machine/Crypto.lean ====
section
/-! DEFINITION. CRC-32 and CRC-64, SHA-384, ECDSA over P-384 (R28, R34, R50, R412). -/

namespace Sys2Proof.Machine
open Sys2Proof

/-! ## CRCs -/

/-- One bit step of a reflected CRC-32. -/
def crc32Bit (c : Nat) : Nat := if c % 2 = 1 then (c / 2) ^^^ 0xEDB88320 else c / 2

/-- One byte into a reflected CRC-32 register. -/
def crc32Byte (c : Nat) (b : Byte) : Nat :=
  crc32Bit (crc32Bit (crc32Bit (crc32Bit (crc32Bit (crc32Bit (crc32Bit (crc32Bit (c ^^^ b.toNat))))))))

/-- The CRC-32 of IEEE 802.3. -/
def crc32 (l : List Byte) : Nat := (l.foldl crc32Byte 0xFFFFFFFF) ^^^ 0xFFFFFFFF

/-- One bit step of the CRC-64 of R50. -/
def crc64Bit (c : Nat) : Nat :=
  if c ≥ 2 ^ 63 then (2 * c % 2 ^ 64) ^^^ 0x42F0E1EBA9EA3693 else 2 * c

/-- One byte into the CRC-64 register. -/
def crc64Byte (c : Nat) (b : Byte) : Nat :=
  crc64Bit (crc64Bit (crc64Bit (crc64Bit (crc64Bit (crc64Bit (crc64Bit (crc64Bit (c ^^^ (b.toNat * 2 ^ 56)))))))))

/-- Bytes into the CRC-64 register. -/
def crc64From (c : Nat) (l : List Byte) : Nat := l.foldl crc64Byte c

/-- The CRC-64 of R50. -/
def crc64 (l : List Byte) : Nat := crc64From 0 l

/-! ## SHA-384 (FIPS 180-4) -/

/-- The integer cube root of a number below 2^300, by bisection. -/
def icbrtAux (n : Nat) : Nat → Nat → Nat
  | 0, r => r
  | k + 1, r => let t := r + 2 ^ k; if t * t * t ≤ n then icbrtAux n k t else icbrtAux n k r

/-- The first `n` primes. -/
def firstPrimes (n : Nat) : List Nat :=
  ((List.range 420).filter (fun p => p ≥ 2 && (List.range 21).all (fun d => d < 2 || d ≥ p || p % d != 0))).take n

/-- The round constants: fractional bits of the cube roots of the first 80 primes. -/
def shaK : List Nat := (firstPrimes 80).map (fun p => icbrtAux (p * 2 ^ 192) 100 0 % 2 ^ 64)

/-- The initial value of SHA-384: fractional bits of the square roots of the ninth to sixteenth primes. -/
def shaInit : List Nat := ((firstPrimes 16).drop 8).map (fun p => isqrt (p * 2 ^ 128) % 2 ^ 64)

/-- Rotation right of a 64-bit word. -/
def ror64 (x n : Nat) : Nat := x / 2 ^ n + x % 2 ^ n * 2 ^ (64 - n)

/-- The message schedule, newest word first. -/
def shaSchedule : Nat → List Nat → List Nat
  | 0, w => w
  | k + 1, w =>
    let s0 := let x := w.getD 14 0; ror64 x 1 ^^^ ror64 x 8 ^^^ (x / 2 ^ 7)
    let s1 := let x := w.getD 1 0; ror64 x 19 ^^^ ror64 x 61 ^^^ (x / 2 ^ 6)
    shaSchedule k ((w.getD 15 0 + s0 + w.getD 6 0 + s1) % 2 ^ 64 :: w)

/-- One round on the eight working words. -/
def shaRound (v : List Nat) (kw : Nat) : List Nat :=
  match v with
  | [a, b, c, d, e, f, g, h] =>
    let s1 := ror64 e 14 ^^^ ror64 e 18 ^^^ ror64 e 41
    let ch := (e &&& f) ^^^ ((2 ^ 64 - 1 - e) &&& g)
    let t1 := h + s1 + ch + kw
    let s0 := ror64 a 28 ^^^ ror64 a 34 ^^^ ror64 a 39
    let maj := (a &&& b) ^^^ (a &&& c) ^^^ (b &&& c)
    [(t1 + s0 + maj) % 2 ^ 64, a, b, c, (d + t1) % 2 ^ 64, e, f, g]
  | _ => v

/-- One block of 16 words into the chaining value. -/
def shaBlock (hv : List Nat) (block : List Nat) : List Nat :=
  let w := (shaSchedule 64 block.reverse).reverse
  let v := (List.zipWith (· + ·) shaK w).foldl shaRound hv
  List.zipWith (fun a b => (a + b) % 2 ^ 64) hv v

/-- The blocks of a padded message. -/
def shaBlocks : Nat → List Byte → List Nat → List Nat
  | 0, _, hv => hv
  | k + 1, l, hv => shaBlocks k (l.drop 128) (shaBlock hv ((List.range 16).map (fun i => beAt l (8 * i) 8)))

/-- SHA-384 as a number, first byte in the highest bits. -/
def sha384 (l : List Byte) : Nat :=
  let n := l.length
  let m := l ++ [0x80#8] ++ List.replicate ((239 - n % 128) % 128) 0 ++ beBytes 16 (8 * n)
  ((shaBlocks (m.length / 128) m shaInit).take 6).foldl (fun a x => a * 2 ^ 64 + x) 0

/-! ## ECDSA over P-384 (FIPS 186-5) -/

/-- The field prime, the order, the coefficient b and the base point. -/
def ecP : Nat := 2 ^ 384 - 2 ^ 128 - 2 ^ 96 + 2 ^ 32 - 1
@[inherit_doc ecP] def ecN : Nat :=
  0xffffffffffffffffffffffffffffffffffffffffffffffffc7634d81f4372ddf581a0db248b0a77aecec196accc52973
@[inherit_doc ecP] def ecB : Nat :=
  0xb3312fa7e23ee7e4988e056be3f82d19181d9c6efe8141120314088f5013875ac656398d8a2ed19d2a85c8edd3ec2aef
@[inherit_doc ecP] def ecGx : Nat :=
  0xaa87ca22be8b05378eb1c71ef320ad746e1d3b628ba79b9859f741e082542a385502f25dbf55296c3a545e3872760ab7
@[inherit_doc ecP] def ecGy : Nat :=
  0x3617de4a96262c6f5d9e98bf9292dc29f8f41dbd289a147ce9da3113b5f0b8c00a60b1ce1d7e819d7a431d7c90ea0e5f

/-- b^e mod m, over `k` bits of the exponent from the highest. -/
def powModAux (b e m : Nat) : Nat → Nat → Nat
  | 0, r => r
  | k + 1, r =>
    let r := r * r % m
    powModAux b e m k (if bitN e k then r * b % m else r)

/-- The inverse modulo a prime. -/
def invMod (a m : Nat) : Nat := powModAux (a % m) (m - 2) m 384 1

/-- Sum of two points of the curve; `none` is the point at infinity. -/
def ecAdd : Option (Nat × Nat) → Option (Nat × Nat) → Option (Nat × Nat)
  | none, q => q
  | p, none => p
  | some (x1, y1), some (x2, y2) =>
    if x1 = x2 ∧ (y1 + y2) % ecP = 0 then none
    else
      let l := if x1 = x2 then (3 * x1 * x1 + ecP - 3) % ecP * invMod (2 * y1) ecP % ecP
        else (y2 + ecP - y1) % ecP * invMod (x2 + ecP - x1) ecP % ecP
      let x3 := (l * l + 2 * ecP - x1 - x2) % ecP
      some (x3, (l * (x1 + ecP - x3) + ecP - y1) % ecP)

/-- A multiple of a point, over `j` bits of the factor from the highest. -/
def ecMulAux (k : Nat) (p : Option (Nat × Nat)) : Nat → Option (Nat × Nat) → Option (Nat × Nat)
  | 0, r => r
  | j + 1, r =>
    let r := ecAdd r r
    ecMulAux k p j (if bitN k j then ecAdd r p else r)

/-- A multiple of a point. -/
def ecMul (k : Nat) (p : Option (Nat × Nat)) : Option (Nat × Nat) := ecMulAux k p 384 none

/-- The signature (r, s) of a SHA-384 value is valid for an uncompressed public key of 97 bytes. -/
def ecdsaVerify (pub : List Byte) (r s e : Nat) : Bool :=
  let x := beAt pub 1 48
  let y := beAt pub 49 48
  let onCurve := x < ecP && y < ecP && y * y % ecP == (x * x * x + (ecP - 3) * x + ecB) % ecP
  if !onCurve || r = 0 || r ≥ ecN || s = 0 || s ≥ ecN then false
  else
    let w := invMod s ecN
    match ecAdd (ecMul (e * w % ecN) (some (ecGx, ecGy))) (ecMul (r * w % ecN) (some (x, y))) with
    | some (vx, _) => vx % ecN == r
    | none => false

end Sys2Proof.Machine
end

