-- ==== Sys2Proof/Machine/Flags.lean ====
section
/-! DEFINITION. Accumulator arithmetic with its flags: excursion, LOST, REAL and TAINT (R164 to R172, R181, R193, R198,
R199). -/

namespace Sys2Proof.Machine
open Sys2Proof

/-! ## Accumulator parts (R166) -/

/-- A cleared part. -/
def part0 : AccPart := ⟨0, 0, false⟩

/-- A cleared accumulator. -/
def acc0 : Acc := ⟨part0, part0, false, false⟩

/-- The excursion after an update: beyond −8 to 7 it is clamped and LOST is set. -/
def fixExcursion (a x : Int) (lost : Bool) : AccPart :=
  ⟨BitVec.ofInt 48 a, clampI (-8) 7 x, lost || decide (x > 7) || decide (x < -8)⟩

/-- A term is added to a part; the value wraps at 48 bits and the excursion carries. -/
def partAdd (p : AccPart) (t : Int) : AccPart :=
  let s := p.a.toInt + t
  if s > 2 ^ 47 - 1 then fixExcursion (s - 2 ^ 48) (p.x + 1) p.lost
  else if s < -(2 ^ 47) then fixExcursion (s + 2 ^ 48) (p.x - 1) p.lost
  else fixExcursion s p.x p.lost

/-- An accumulator part, negated exactly where asked, is added to a part: value, excursion and LOST. The excursion is
judged once, after the carry; −2^47 negated enters as +2^47 (R166, R193). -/
def partAddPart (neg : Bool) (p q : AccPart) : AccPart :=
  partAdd ⟨p.a, p.x + (if neg then -q.x else q.x), p.lost || q.lost⟩ (if neg then -q.a.toInt else q.a.toInt)

/-- V, the true value of a part. -/
def partValue (p : AccPart) : Int := p.a.toInt + p.x * 2 ^ 48

/-- A part overflows (R170). -/
def partOver (p : AccPart) : Bool := p.x != 0 || p.lost

/-! ## Terms (R168, R193) -/

/-- A complex term with its flags. -/
structure Term where
  i : Int
  q : Int
  real : Bool
  taint : Bool
deriving DecidableEq, Repr

/-- A term enters an accumulator; the clearing form replaces it (R167). -/
def accTerm (clear : Bool) (a : Acc) (t : Term) : Acc :=
  let b := if clear then acc0 else a
  ⟨partAdd b.i t.i, partAdd b.q t.q, b.real || t.real, b.taint || t.taint⟩

/-- The exact negation of a term. -/
def termNeg (n : Bool) (t : Term) : Term := if n then { t with i := -t.i, q := -t.q } else t

/-- A data word with its Q part negated where J says so. -/
def conjIf (j : Bool) (c : Cplx) : Cplx := if j then ⟨c.i, -c.q⟩ else c

/-- The exact product of a data word and a coefficient (R165). -/
def prod (d c : Cplx) : Cplx := ⟨d.i * c.i - d.q * c.q, d.i * c.q + d.q * c.i⟩

/-- The data parts of a word and the coefficient parts of a Y word (R164). -/
def dataParts (w : BitVec 48) : Cplx := ⟨signed 24 (bits w.toNat 47 24), signed 24 (bits w.toNat 23 0)⟩
@[inherit_doc dataParts] def coefParts (w : BitVec 48) : Cplx := ⟨signed 16 (bits w.toNat 47 32), signed 16 (bits w.toNat 31 16)⟩

/-- AUX of a Y word. -/
def auxOf (w : BitVec 48) : Nat := bits w.toNat 15 0

/-- A data word from its parts, 24 bits each. -/
def dataWord (i q : Int) : BitVec 48 := BitVec.ofNat 48 (wrapN 24 i * 2 ^ 24 + wrapN 24 q)

/-- A coefficient word from its parts and an AUX that is kept. -/
def coefWord (i q : Int) (aux : Nat) : BitVec 48 := BitVec.ofNat 48 (wrapN 16 i * 2 ^ 32 + wrapN 16 q * 2 ^ 16 + aux)

/-- The term of a MAC: data from one cell, coefficient from another. -/
def macTerm (j k n : Bool) (d c : Cell) : Term :=
  let p := prod (conjIf j (dataParts d.word)) (conjIf k (coefParts c.word))
  termNeg n ⟨p.i, p.q, !d.miss && !c.miss, d.taint || c.taint⟩

/-- A scaled term. -/
def scaledTerm (j n : Bool) (s : Nat) (d : Cell) : Term :=
  let w := conjIf j (dataParts d.word)
  termNeg n ⟨w.i * 2 ^ s, w.q * 2 ^ s, !d.miss, d.taint⟩

/-- A raw pair as a term: the cell of the first row to I, of the second to Q. -/
def rawTerm (n : Bool) (a b : Cell) : Term :=
  termNeg n ⟨a.word.toInt, b.word.toInt, !a.miss || !b.miss, a.taint || b.taint⟩

/-- An accumulator enters an accumulator (R166, R193): N negates both parts and J the Q part. -/
def accAcc (clear n j : Bool) (a b : Acc) : Acc :=
  let a := if clear then acc0 else a
  ⟨partAddPart n a.i b.i, partAddPart (n != j) a.q b.q, a.real || b.real, a.taint || b.taint⟩

/-! ## Normalisation (R198, R199) -/

/-- EXP of a 48-bit value: the bits from 46 downward that equal bit 47. -/
def exp48 (a : BitVec 48) : Nat :=
  let s := bitN a.toNat 47
  ((List.range 47).takeWhile (fun i => bitN a.toNat (46 - i) == s)).length

/-- NORM of a 48-bit value. -/
def norm48 (a : BitVec 48) (n : Nat) : BitVec 48 := a <<< n

/-- EXP of an accumulator. -/
def accExp (even : Bool) (b : Acc) : Acc :=
  let e (p : AccPart) : Nat := if partOver p then 0 else exp48 p.a
  let n := Nat.min (e b.i) (e b.q)
  let n := if even then n / 2 * 2 else n
  ⟨⟨BitVec.ofNat 48 n, 0, false⟩, part0, b.real, b.taint⟩

/-- NORM of an accumulator by the count in another. -/
def accNorm (a b : Acc) : Acc :=
  let n := (clampI 0 47 b.i.a.toInt).toNat
  let f (p : AccPart) : AccPart :=
    if partOver p then { p with lost := true }
    else ⟨norm48 p.a n, p.x, p.lost || decide (n > exp48 p.a)⟩
  ⟨f a.i, f a.q, a.real, a.taint || b.taint⟩

/-- ASH of a part: its true value is scaled and encoded again. -/
def partAsh (n : Int) (p : AccPart) : AccPart :=
  let v := partValue p
  let w := if n ≥ 0 then v * 2 ^ n.toNat else roundConv v (-n).toNat
  let a := signed 48 (wrapN 48 w)
  fixExcursion a ((w - a) / 2 ^ 48) p.lost

/-- ASH of an accumulator. -/
def accAsh (n : Int) (a : Acc) : Acc := ⟨partAsh n a.i, partAsh n a.q, a.real, a.taint⟩

/-! ## Read-outs (R169 to R172) -/

/-- The overflow treatment of a part: its value, and whether FLAG marks its cells. -/
def overTreat (mode : Nat) (p : AccPart) : Int × Bool :=
  if !partOver p then (p.a.toInt, false)
  else if mode = 0 then
    (if p.lost then 0 else if p.x > 0 then 2 ^ 47 - 1 else -(2 ^ 47), false)
  else if mode = 1 then (p.a.toInt, false)
  else (0, true)

/-- A part narrowed to `w` bits after `f` fraction bits are removed, and whether it saturated. -/
def narrowPart (w f : Nat) (v : Int) : Int × Nat :=
  let r := roundConv v f
  (satI w r, satCount w r)

/-- E of a BLOCK read-out (R171). -/
def blockReadExp (sh : Int) (l : List Int) : Nat :=
  ((List.range 16).find? (fun (e : Nat) => l.all (fun v => fitsI 24 (roundConv v (15 + sh + (e : Int)).toNat)))).getD 15

end Sys2Proof.Machine
end

