-- ==== Sys2Proof/Machine/Operands.lean ====
section
/-! DEFINITION. Clusters, their registers and cells, the address modes, and the course of a cluster program (R156 to R163,
R174, R180, R187 to R191, R202 to R205). -/

namespace Sys2Proof.Machine
open Sys2Proof

/-! ## Clusters and contexts -/

/-- A context before its program starts. -/
def ctxReset : Ctx where
  run := false
  pc := 0
  regs := []
  acc := []
  rep := none
  repFirst := false
  loops := []
  iterEnd := false
  wrote := []
  wroteReg := none
  cycles := 0

/-- A cluster with every cell zero (R409). -/
def clusterReset : Cluster where
  x := []
  y := []
  imem := []
  fg := ctxReset
  bg := ctxReset
  commit := []
  written := []
  released := []
  ovf := false
  suspReq := false
  suspended := false
  jwait := false
  part := none
  done := false

/-- A cluster. -/
def clOf (s : State) (k : Nat) : Cluster := FMap.get clusterReset s.ae.clusters k

/-- A cluster replaced. -/
def clSet (k : Nat) (c : Cluster) (s : State) : State :=
  { s with ae := { s.ae with clusters := FMap.put clusterReset s.ae.clusters k c } }

/-- The context of a cluster. -/
def ctxGet (s : State) (k : Nat) (bg : Bool) : Ctx := if bg then (clOf s k).bg else (clOf s k).fg

/-- The context of a cluster replaced. -/
def ctxSet (k : Nat) (bg : Bool) (c : Ctx) (s : State) : State :=
  clSet k (if bg then { clOf s k with bg := c } else { clOf s k with fg := c }) s

/-- The entry of a cluster in the AE parameters (R175). -/
def clEntry (s : State) (k : Nat) : ClEntry := (s.frm.active.bind (fun f => f.ae.clusters[k]?)).getD {}

/-- The size of the gang of a cluster, and its members from the lowest (R157). -/
def gangSize (s : State) (k : Nat) : Nat := 2 ^ (clEntry s k).gang
@[inherit_doc gangSize] def gangOf (s : State) (k : Nat) : List Nat := (List.range (gangSize s k)).map (k + ·)

/-- Accumulator `a` of a lane. -/
def accGet (c : Ctx) (a lane : Nat) : Acc := FMap.get acc0 c.acc (128 * a + lane)

/-- Accumulator `a` of every lane becomes a function of its lane. -/
def accAll (k : Nat) (bg : Bool) (a : Nat) (f : Nat → Acc) (s : State) : State :=
  let c := ctxGet s k bg
  ctxSet k bg { c with acc := (List.range 128).foldl (fun m l => FMap.put acc0 m (128 * a + l) (f l)) c.acc } s

/-! ## Registers (R189) -/

/-- Width of a register by select code. -/
def regWidth (r : Nat) : Nat := if r < 0x10 then 15 else if r < 0x20 then 16 else if r < 0x23 then 17 else 8

/-- A register read and written modulo its width. -/
def regGet (c : Ctx) (r : Nat) : Nat := FMap.get 0 c.regs r
@[inherit_doc regGet] def regPut (c : Ctx) (r : Nat) (v : Int) : Ctx :=
  { c with regs := FMap.put 0 c.regs r (wrapN (regWidth r) v) }

/-! ## Ranges and cells (R158, R159, R175, R180, R191) -/

/-- The cell lies in the background ranges of its cluster. -/
def inBgRange (s : State) (k : Nat) (y : Bool) (cell : Nat) : Bool :=
  let e := clEntry s k
  let first := if y then e.bgyFirst else e.bgxFirst
  let rows := if y then e.bgyRows else e.bgxRows
  decide (first ≤ cell / 128) && decide (cell / 128 < first + rows)

/-- The output range that holds a cell. -/
def outRangeOf (s : State) (k : Nat) (y : Bool) (cell : Nat) : Option OutRange :=
  (clEntry s k).outs.find? (fun r => r.kind != 0 && r.y == y && decide (r.first ≤ cell) && decide (cell < r.first + r.count))

/-- The kind of a range is substituted with HOLD. -/
def heldRange (s : State) (r : OutRange) : Bool := substRule s 4 r.kind == 1

/-- Key of a cell in the per-cluster cell lists. -/
def cellKey (y : Bool) (cell : Nat) : Nat := (if y then 32768 else 0) + cell

/-- A zero cell, and the cell an error or a range violation delivers. -/
def cell0 : Cell := ⟨0, false, false, 0⟩
@[inherit_doc cell0] def cellMiss : Cell := ⟨0, true, false, 0⟩

/-- The stored cell. -/
def cellRaw (s : State) (k : Nat) (y : Bool) (cell : Nat) : Cell :=
  FMap.get cell0 (if y then (clOf s k).y else (clOf s k).x) cell

/-- The stored cell replaced. -/
def cellStore (k : Nat) (y : Bool) (cell : Nat) (v : Cell) (s : State) : State :=
  let c := clOf s k
  clSet k (if y then { c with y := FMap.put cell0 c.y cell v } else { c with x := FMap.put cell0 c.x cell v }) s

/-- A cell as its memory delivers it: a single-bit error is corrected in place, an uncorrectable one reads zero with MISS
and is reported (R159). -/
def cellDeliver (k : Nat) (bg y : Bool) (cell : Nat) (s : State) : Cell × State :=
  let v := cellRaw s k y cell
  if v.ecc = 0 then (v, s)
  else if v.ecc = 1 then
    let v := { v with ecc := 0 }
    (v, count 0x402 k (cellStore k y cell v s))
  else
    (cellMiss, raiseErr 0x03 4 k 3
      (errDetail [(1, if y then 1 else 0), (15, cell), (7, (Config.freeValue 2 s.fresh).toNat), (1, if bg then 1 else 0)])
      (count 0x403 k { s with fresh := s.fresh + 1 }))

/-- The AE's state word shows tainted data in this beat (R185). -/
def markTaint (k : Nat) (s : State) : State :=
  if s.frm.taint.contains (unitKey 4 k) then s else { s with frm := { s.frm with taint := s.frm.taint ++ [unitKey 4 k] } }

/-- An access outside what its context may reach is reported (R191). -/
def rangeError (k : Nat) (bg y : Bool) (cell pc : Nat) (s : State) : State :=
  raiseErr 0x04 4 k 3 (errDetail [(1, if y then 1 else 0), (15, cell), (13, pc), (1, if bg then 1 else 0)]) s

/-- A context may reach a cell (R191). -/
def mayReach (s : State) (k : Nat) (bg y : Bool) (cell : Nat) : Bool := inBgRange s k y cell == bg

/-- A cell as a context sees it, without the checks of an access. -/
def cellView (s : State) (k : Nat) (bg y : Bool) (cell : Nat) : Cell :=
  (if bg then none else FMap.find (clOf s k).commit (cellKey y cell)).getD (cellRaw s k y cell)

/-- A context reads a cell. -/
def cellRead (k : Nat) (bg y : Bool) (pc cell : Nat) (s : State) : Cell × State :=
  if !mayReach s k bg y cell then (cellMiss, rangeError k bg y cell pc s)
  else
    let r := match (if bg then none else FMap.find (clOf s k).commit (cellKey y cell)) with
      | some v => (v, s)
      | none => cellDeliver k bg y cell s
    (r.1, if r.1.taint && !bg then markTaint k r.2 else r.2)

/-- A context writes a cell: a HOLD range takes it through the commit buffer; a foreground write outside the output ranges is
remembered for a stop, one in a range of weights or estimates for its commit (R179, R180, R184). -/
def cellWrite (k : Nat) (bg y : Bool) (pc cell : Nat) (v : Cell) (s : State) : State :=
  if !mayReach s k bg y cell then rangeError k bg y cell pc s
  else if bg then cellStore k y cell v s
  else
    let s := if v.taint then markTaint k s else s
    let c := clOf s k
    let note (s : State) : State :=
      if c.written.contains (cellKey y cell) then s else clSet k { c with written := cellKey y cell :: c.written } s
    match outRangeOf s k y cell with
    | some r =>
      if heldRange s r then clSet k { c with commit := FMap.set c.commit (cellKey y cell) v } s
      else cellStore k y cell v (if r.kind = 3 ∨ r.kind = 4 then note s else s)
    | none => cellStore k y cell v (note s)

/-- Several cells are read in order. -/
def cellsRead (k : Nat) (bg y : Bool) (pc : Nat) (l : List Nat) (s : State) : Array Cell × State :=
  l.foldl (fun (p : Array Cell × State) a =>
    let r := cellRead k bg y pc a p.2
    (p.1.push r.1, r.2)) (#[], s)

/-- Several cells are written in order. -/
def cellsWrite (k : Nat) (bg y : Bool) (pc : Nat) (l : List (Nat × Cell)) (s : State) : State :=
  l.foldl (fun s a => cellWrite k bg y pc a.1 a.2 s) s

/-! ## Address modes (R190) -/

/-- The cells of a row. -/
def rowCells (r : Nat) : List Nat := (List.range 128).map (fun i => 128 * (r % 256) + i)

/-- The mode is one of ROW, ROW_M, ROW_N; of BC, BC_M, BC_1; is BLK. -/
def isRow (m : Nat) : Bool := m == 1 || m == 2 || m == 3
@[inherit_doc isRow] def isBc (m : Nat) : Bool := m == 4 || m == 5 || m == 6
@[inherit_doc isRow] def isBlk (m : Nat) : Bool := m == 7

/-- The first block of a block access. -/
def blkBase (p : Nat) : Nat := 13 * Nat.min (p / 13) 2510

/-- The pointer of an access. -/
def pointerOf (c : Ctx) (y : Bool) (r : Nat) : Nat := regGet c ((if y then 8 else 0) + r)

/-- The pointer after the access; `raw` is set in RDR and ADDR, which take two rows. -/
def postModify (c : Ctx) (y raw : Bool) (mode r : Nat) : Ctx :=
  let code := (if y then 8 else 0) + r
  let p : Int := regGet c code
  let m : Int := signed 16 (regGet c ((if y then 0x18 else 0x10) + r))
  match mode with
  | 2 | 5 | 7 => regPut c code (p + m)
  | 3 => regPut c code (p + (if raw then 256 else 128))
  | 6 => regPut c code (p + 1)
  | _ => c

/-- Both pointers of an instruction after its access. -/
def postModifies (k : Nat) (bg raw : Bool) (w : AeW) (s : State) : State :=
  let c := ctxGet s k bg
  let c := postModify c false raw w.xm.val w.xr.val
  ctxSet k bg (postModify c true raw w.ym.val w.yr.val) s

/-- The cells that a row or broadcast access reaches. -/
def accessCells (mode p : Nat) : List Nat :=
  if isRow mode then rowCells (p / 128)
  else if isBc mode then [p]
  else if isBlk mode then (List.range 130).map (blkBase p + ·)
  else []

/-- The cell a lane takes of what a row or broadcast access read. -/
def laneCell (mode : Nat) (l : Array Cell) (lane : Nat) : Cell :=
  if isBc mode then l.getD 0 cell0 else l.getD lane cell0

/-! ## The instruction word (R188) -/

/-- The instruction word of an opcode and its fields. -/
def aeEncode (op : Nat) (w : AeW) : BitVec 64 :=
  let b (x : Bool) (k : Nat) : Nat := if x then 2 ^ k else 0
  BitVec.ofNat 64 (op * 2 ^ 58 + w.acd.val * 2 ^ 55 + w.acs.val * 2 ^ 52 + b w.c 51 + b w.n 50 + b w.j 49 + b w.k 48
    + w.xm.val * 2 ^ 45 + w.xr.val * 2 ^ 42 + w.ym.val * 2 ^ 39 + w.yr.val * 2 ^ 36 + w.imm.toNat)

/-- A field of the immediate. -/
def immBits (w : AeW) (hi lo : Nat) : Nat := bits w.imm.toNat hi lo

/-! ## Waiting for moves (R173, R174) -/

/-- The cell, with its memory, that a byte of the AE's move region lies in: cluster, Y, cell (R160 to R162). -/
def aeByteCell (off : Nat) : Nat × Bool × Nat :=
  let r := off % 0x100000
  let win := r / 0x40000
  let i := r % 0x40000
  let cell := if win < 2 then i / 8 else (if i % 80 < 8 then 13 * (i / 80) else 13 * (i / 80) + 1 + (i % 80 - 8) / 6)
  (off / 0x100000, win % 2 == 1, cell)

/-- Bytes of the AE's move region in which a cell lies: its cell window and its block window. -/
def cellBytesAt (k : Nat) (y : Bool) (cell : Nat) : List (Nat × Nat) :=
  let base := k * 0x100000 + (if y then 0x40000 else 0)
  let blk := base + 0x80000 + 80 * (cell / 13)
  (base + 8 * cell, 8) :: (if cell < 32760 then
    [if cell % 13 = 0 then (blk, 8) else (blk + 8 + 6 * (cell % 13 - 1), 6)] else [])

/-- Moves of the beat's symbol, with their numbers. -/
def movesNow (s : State) : List (Move × Nat) :=
  match s.frm.active with
  | none => []
  | some f => f.moves.zipIdx.filter (fun m => m.1.mask.getLsbD (linSymbol s.tb.lin))

/-- A move touches a cell on its AE side. -/
def moveTouches (a len k : Nat) (y : Bool) (cell : Nat) : Bool :=
  (cellBytesAt k y cell).any (fun b => overlaps a (64 * len) b.1 b.2)

/-- The cell is inbound and the move has not written it yet. -/
def inboundPending (s : State) (k : Nat) (y : Bool) (cell : Nat) : Bool :=
  (movesNow s).any (fun m => m.1.dst == 4 && !s.frm.moved.contains m.2 && moveTouches m.1.dstAddr m.1.len k y cell)

/-- The cell is outbound. -/
def outbound (s : State) (k : Nat) (y : Bool) (cell : Nat) : Bool :=
  (movesNow s).any (fun m => m.1.src == 4 && moveTouches m.1.srcAddr m.1.len k y cell)

/-- The cell is released and its move has not read it yet. -/
def releasedPending (s : State) (k : Nat) (y : Bool) (cell : Nat) : Bool :=
  (clOf s k).released.contains (cellKey y cell)
    && (movesNow s).any (fun m => m.1.src == 4 && !s.frm.moved.contains m.2 && moveTouches m.1.srcAddr m.1.len k y cell)

/-- A foreground access waits: it reads or writes an inbound cell, or writes a released outbound one. -/
def accessWaits (s : State) (k : Nat) (reads writes : List (Bool × Nat)) : Bool :=
  (reads ++ writes).any (fun a => inboundPending s k a.1 a.2) || writes.any (fun a => releasedPending s k a.1 a.2)

/-! ## The course of a program (R202, R203, R205) -/

/-- Block repeats whose last instruction has executed: what remains, and where the program goes on. -/
def endIterations : List Loop → Nat → Nat → List Loop × Nat × Bool
  | [], _, next => ([], next, false)
  | l :: t, pc, next =>
    if l.stop ≠ pc then (l :: t, next, false)
    else if l.left > 1 then ({ l with left := l.left - 1 } :: t, l.start, true)
    else
      let r := endIterations t pc next
      (r.1, r.2.1, true)

/-- The loop counters show the iterations that remain, by level. -/
def setLoopRegs (c : Ctx) : Ctx :=
  let ls := c.loops.reverse
  (List.range 3).foldl (fun c i => { c with regs := FMap.put 0 c.regs (0x20 + i) ((ls[i]?).elim 0 (fun l => l.left)) }) c

/-- The program goes on after an instruction. -/
def advancePc (c : Ctx) : Ctx :=
  match c.rep with
  | some n =>
    if n > 1 then { c with rep := some (n - 1), repFirst := false, iterEnd := false }
    else
      let r := endIterations c.loops c.pc (c.pc + 1)
      setLoopRegs { c with rep := none, repFirst := false, loops := r.1, pc := r.2.1, iterEnd := r.2.2 }
  | none =>
    let r := endIterations c.loops c.pc (c.pc + 1)
    setLoopRegs { c with loops := r.1, pc := r.2.1, iterEnd := r.2.2 }

/-- What an instruction reads and writes, for its stalls: accumulators read, the one written, registers used, the one
written, and its own cycles. -/
structure Cost where
  reads : List Nat
  writes : Option Nat
  uses : List Nat
  sets : Option Nat
  cycles : Nat
deriving DecidableEq, Repr

/-- Registers an address mode uses. -/
def modeRegs (y : Bool) (mode r : Nat) : List Nat :=
  if mode = 0 then []
  else ((if y then 8 else 0) + r) :: (if mode = 2 ∨ mode = 5 ∨ mode = 7 then [(if y then 0x18 else 0x10) + r] else [])

/-- Registers that both accesses of a word use. -/
def wordRegs (w : AeW) : List Nat := modeRegs false w.xm.val w.xr.val ++ modeRegs true w.ym.val w.yr.val

/-- Stall cycles of an instruction (R205). -/
def stallCycles (c : Ctx) (d : Cost) : Nat :=
  let hit (i : Nat) : Bool := ((c.wrote[i]?).bind id).any (fun a => d.reads.contains a)
  (if hit 0 then 2 else if hit 1 then 1 else 0) + (if c.wroteReg.any (fun r => d.uses.contains r) then 1 else 0)

/-- Cycles and history after an instruction. -/
def charge (c : Ctx) (d : Cost) : Ctx :=
  { c with
    cycles := c.cycles + d.cycles + stallCycles c d
    wrote := d.writes :: c.wrote.take 1, wroteReg := d.sets }

/-- The context can execute: it runs, and a background context is not suspended, not waiting, and its foreground is
idle. -/
def ctxReady (s : State) (k : Nat) (bg : Bool) : Bool :=
  let c := clOf s k
  if bg then c.bg.run && !c.suspended && !c.jwait && !c.fg.run else c.fg.run

/-- The word is the instruction at the program counter of the context. -/
def atPc (s : State) (k : Nat) (bg : Bool) (op : Nat) (w : AeW) : Bool :=
  ctxReady s k bg && FMap.get 0 (clOf s k).imem (ctxGet s k bg).pc == aeEncode op w

/-- The cells an instruction of a cluster reads and writes. -/
abbrev Access := State → Nat → List (Bool × Nat) × List (Bool × Nat)

/-- One instruction of a solo cluster or gang: where any member must wait for a move, the whole waits; otherwise every
member carries it out, and the program goes on. -/
def aeExec (op k : Nat) (bg : Bool) (w : AeW) (acc : Access) (cost : Cost) (body : Nat → State → State)
    (after : Ctx → Ctx) (s : State) : State :=
  if !atPc s k bg op w then s
  else
    let members := gangOf s k
    if !bg && members.any (fun j => accessWaits s j (acc s j).1 (acc s j).2) then
      members.foldl (fun s j => count 0x404 j s) s
    else
      let s := members.foldl (fun s j => body j s) s
      members.foldl (fun s j => ctxSet j bg (after (charge (ctxGet s j bg) cost)) s) s

/-- The row and broadcast reads of both memories. -/
def readBoth (bg : Bool) (w : AeW) : Access := fun s k =>
  let c := ctxGet s k bg
  ((accessCells w.xm.val (pointerOf c false w.xr.val)).map (fun a => (false, a))
    ++ (accessCells w.ym.val (pointerOf c true w.yr.val)).map (fun a => (true, a)), [])

/-- No access. -/
def noAccess : Access := fun _ _ => ([], [])

/-- The one memory that an instruction with one of X, Y names, its mode and its pointer number. -/
def oneSide (w : AeW) : Bool × Nat × Nat :=
  if w.xm.val ≠ 0 then (false, w.xm.val, w.xr.val) else (true, w.ym.val, w.yr.val)

end Sys2Proof.Machine
end

