-- ==== Sys2Proof/Machine/AeControl.lean ====
section
/-! DEFINITION. Cluster instructions on registers and control: OP 0x20 to 0x2B and 0x3F (R201 to R204). -/

namespace Sys2Proof.Machine
open Sys2Proof

/-- The register an instruction names as its destination. -/
def regDst (w : AeW) : Nat := immBits w 35 30

/-- A register instruction: the cost names the register written. -/
def regCost (w : AeW) (uses : List Nat) : Cost := ⟨[], none, uses, some (regDst w), 1⟩

/-- A register of the context of one cluster is written; the loop counters are read-only. -/
def setReg (bg : Bool) (r : Nat) (v : Ctx → Int) (k : Nat) (s : State) : State :=
  let c := ctxGet s k bg
  if 0x20 ≤ r ∧ r ≤ 0x22 then s else ctxSet k bg (regPut c r (v c)) s

def execSetp (k : Fin 96) (bg : Bool) (w : AeW) (s : State) : Host.Outcome State Fault Refusal :=
  .next (aeExec 0x20 k.val bg w noAccess (regCost w []) (setReg bg (regDst w) (fun _ => immBits w 15 0)) advancePc s)

def execAddp (k : Fin 96) (bg : Bool) (w : AeW) (s : State) : Host.Outcome State Fault Refusal :=
  .next (aeExec 0x21 k.val bg w noAccess (regCost w [])
    (setReg bg (regDst w) (fun c => regGet c (regDst w) + signed 16 (immBits w 15 0))) advancePc s)

def execMovp (k : Fin 96) (bg : Bool) (w : AeW) (s : State) : Host.Outcome State Fault Refusal :=
  .next (aeExec 0x22 k.val bg w noAccess (regCost w [immBits w 29 24])
    (setReg bg (regDst w) (fun c => regGet c (immBits w 29 24))) advancePc s)

/-- The cost of a control instruction. -/
def ctlCost (n : Nat) : Cost := ⟨[], none, [], none, n⟩

/-- REP: the next instruction executes COUNT times. -/
def beginRep (w : AeW) (c : Ctx) : Ctx :=
  { c with rep := some (immBits w 15 0 + 1), repFirst := true, pc := c.pc + 1, iterEnd := false }

def execRep (k : Fin 96) (bg : Bool) (w : AeW) (s : State) : Host.Outcome State Fault Refusal :=
  .next (aeExec 0x28 k.val bg w noAccess (ctlCost 1) (fun _ s => s) (beginRep w) s)

/-- LOOP: the body runs from the next instruction to END, COUNT times. -/
def beginLoop (w : AeW) (c : Ctx) : Ctx :=
  setLoopRegs { c with
    loops := ⟨c.pc + 1, immBits w 28 16, immBits w 15 0 + 1⟩ :: c.loops, pc := c.pc + 1, iterEnd := false }

def execLoop (k : Fin 96) (bg : Bool) (w : AeW) (s : State) : Host.Outcome State Fault Refusal :=
  .next (aeExec 0x29 k.val bg w noAccess (ctlCost 1) (fun _ s => s) (beginLoop w) s)

def execJmp (k : Fin 96) (bg : Bool) (w : AeW) (s : State) : Host.Outcome State Fault Refusal :=
  .next (aeExec 0x2A k.val bg w noAccess (ctlCost 3) (fun _ s => s)
    (fun c => { c with pc := immBits w 12 0, iterEnd := false }) s)

/-- REL: the outbound cells of a range are released; other cells are unaffected. -/
def relBody (w : AeW) (k : Nat) (s : State) : State :=
  let y := immBits w 35 35 == 1
  let first := immBits w 30 16
  let cells := ((List.range (immBits w 14 0 + 1)).map (first + ·)).filter (fun a => outbound s k y a)
  let c := clOf s k
  clSet k { c with released := c.released ++ (cells.map (cellKey y)).filter (fun a => !c.released.contains a) } s

def execRel (k : Fin 96) (bg : Bool) (w : AeW) (s : State) : Host.Outcome State Fault Refusal :=
  .next (aeExec 0x2B k.val bg w noAccess (ctlCost 1) (relBody w) advancePc s)

/-- END: the foreground program is complete; UNIT_COMPLETE commits it. -/
def execEndProg (k : Fin 96) (bg : Bool) (w : AeW) (s : State) : Host.Outcome State Fault Refusal :=
  .next (aeExec 0x3F k.val bg w noAccess (ctlCost 1)
    (fun j s => if bg then s else clSet j { clOf s j with done := true } s) (fun c => { c with run := bg }) s)

end Sys2Proof.Machine
end

