-- ==== Sys2Proof/Machine/AeReadouts.lean ====
section
/-! DEFINITION. Cluster instructions that write cells: the read-outs, MOV, UNPK and ZERO (R169 to R172, R181, R196,
R197). -/

namespace Sys2Proof.Machine
open Sys2Proof

/-! ## Read-outs -/

/-- SH of a read-out. -/
def roSh (w : AeW) : Int := signed 6 (immBits w 35 30)
@[inherit_doc roSh] def roMode (w : AeW) : Nat := immBits w 29 28
@[inherit_doc roSh] def roCount (w : AeW) : Bool := immBits w 27 27 == 1
@[inherit_doc roSh] def roProv (w : AeW) : Bool := immBits w 26 26 == 1

/-- The cost of a read-out. -/
def roCost (w : AeW) (cycles : Nat) : Cost := ⟨[w.acs.val], none, wordRegs w, none, cycles⟩

/-- A read-out that found an overflowing part counts it once and sets the cluster's OVF (R170). -/
def roOverflow (k : Nat) (w : AeW) (l : List Acc) (s : State) : State :=
  if roCount w && l.any (fun a => partOver a.i || partOver a.q) then
    let s := count 0x400 k s
    clSet k { clOf s k with ovf := true } s
  else s

/-- One accumulator narrowed to a pair of `wd`-bit parts: values, MISS, TAINT and saturated parts. -/
def roPair (w : AeW) (wd f : Nat) (a : Acc) : (Int × Int) × Bool × Bool × Nat :=
  let i := overTreat (roMode w) a.i
  let q := overTreat (roMode w) a.q
  let ni := narrowPart wd f i.1
  let nq := narrowPart wd f q.1
  ((ni.1, nq.1), !a.real || i.2 || q.2, a.taint || roProv w, ni.2 + nq.2)

/-- The row a read-out writes through its one access. -/
def roRow (c : Ctx) (w : AeW) : Bool × List Nat :=
  let o := oneSide w
  (o.1, accessCells o.2.1 (pointerOf c o.1 o.2.2))

/-- The cells a read-out writes. -/
def roAccess (bg : Bool) (w : AeW) : Access := fun s k =>
  let r := roRow (ctxGet s k bg) w
  ([], r.2.map (fun a => (r.1, a)))

/-- RDW in one cluster. -/
def rdwBody (bg : Bool) (w : AeW) (k : Nat) (s : State) : State :=
  let c := ctxGet s k bg
  let r := roRow c w
  let accs := (List.range 128).map (fun l => accGet c w.acs.val l)
  let out := accs.map (roPair w 24 (15 + roSh w).toNat)
  let cells := r.2.zip (out.map (fun o => (⟨dataWord o.1.1 o.1.2, o.2.1, o.2.2.1, 0⟩ : Cell)))
  let s := countBy 0x401 k (sumN (out.map (fun o => o.2.2.2))) (roOverflow k w accs s)
  postModifies k bg false w (cellsWrite k bg r.1 c.pc cells s)

def execRdw (k : Fin 96) (bg : Bool) (w : AeW) (s : State) : Host.Outcome State Fault Refusal :=
  .next (aeExec 0x10 k.val bg w (roAccess bg w) (roCost w 1) (rdwBody bg w) advancePc s)

/-- RDC in one cluster: the AUX of every Y cell is kept. -/
def rdcBody (bg : Bool) (w : AeW) (k : Nat) (s : State) : State :=
  let c := ctxGet s k bg
  let row := accessCells w.ym.val (pointerOf c true w.yr.val)
  let accs := (List.range 128).map (fun l => accGet c w.acs.val l)
  let out := accs.map (roPair w 16 (23 + roSh w).toNat)
  let cells := row.zip out |>.map (fun p =>
    (p.1, (⟨coefWord p.2.1.1 p.2.1.2 (auxOf (cellView s k bg true p.1).word), p.2.2.1, p.2.2.2.1, 0⟩ : Cell)))
  let s := countBy 0x401 k (sumN (out.map (fun o => o.2.2.2))) (roOverflow k w accs s)
  postModifies k bg false w (cellsWrite k bg true c.pc cells s)

def execRdc (k : Fin 96) (bg : Bool) (w : AeW) (s : State) : Host.Outcome State Fault Refusal :=
  .next (aeExec 0x11 k.val bg w (roAccess bg w) (roCost w 1) (rdcBody bg w) advancePc s)

/-- The 13 cells of a block read out from 12 accumulators, and the saturated parts. -/
def rdbBlock (w : AeW) (prb : Nat) (accs : List Acc) : List Cell × Nat :=
  let t := accs.map (fun a => (overTreat (roMode w) a.i, overTreat (roMode w) a.q))
  let flagged := t.any (fun p => p.1.2 || p.2.2)
  let missing := flagged || accs.all (fun a => !a.real)
  let taint := roProv w || accs.any (fun a => a.taint)
  let vals := if flagged then t.map (fun _ => ((0 : Int), (0 : Int))) else t.map (fun p => (p.1.1, p.2.1))
  let e := blockReadExp (roSh w) (vals.flatMap (fun v => [v.1, v.2]))
  let n := vals.map (fun v => (narrowPart 24 (15 + roSh w + (e : Int)).toNat v.1, narrowPart 24 (15 + roSh w + (e : Int)).toNat v.2))
  let head : Cell := ⟨BitVec.ofNat 48 (e * 2 ^ 44 + (if missing then 2 ^ 43 else 0) + prb % 512), missing, taint, 0⟩
  (head :: (n.zip accs).map (fun p => (⟨dataWord p.1.1.1 p.1.2.1, flagged || !p.2.real, taint, 0⟩ : Cell)),
    sumN (n.map (fun p => p.1.2 + p.2.2)))

/-- The block cells an RDB writes. -/
def rdbAccess (bg : Bool) (w : AeW) : Access := fun s k =>
  let o := oneSide w
  let b := blkBase (pointerOf (ctxGet s k bg) o.1 o.2.2)
  ([], (List.range (13 * immBits w 15 12)).map (fun i => (o.1, b + i)))

/-- RDB in one cluster. -/
def rdbBody (bg : Bool) (w : AeW) (k : Nat) (s : State) : State :=
  let c := ctxGet s k bg
  let o := oneSide w
  let base := blkBase (pointerOf c o.1 o.2.2)
  let n := immBits w 15 12
  let blocks := (List.range n).map (fun j =>
    rdbBlock w (immBits w 24 16 + j) ((List.range 12).map (fun i => accGet c w.acs.val (12 * j + i))))
  let cells := (blocks.flatMap (fun b => b.1)).zipIdx.map (fun p => (base + p.2, p.1))
  let s := countBy 0x401 k (sumN (blocks.map (fun b => b.2)))
    (roOverflow k w ((List.range (12 * n)).map (fun l => accGet c w.acs.val l)) s)
  postModifies k bg false w (cellsWrite k bg o.1 c.pc cells s)

def execRdb (k : Fin 96) (bg : Bool) (w : AeW) (s : State) : Host.Outcome State Fault Refusal :=
  .next (aeExec 0x12 k.val bg w (rdbAccess bg w) (roCost w 1) (rdbBody bg w) advancePc s)

/-- The two rows an RDR writes. -/
def rdrAccess (bg : Bool) (w : AeW) : Access := fun s k =>
  let o := oneSide w
  let r := pointerOf (ctxGet s k bg) o.1 o.2.2 / 128
  ([], (rowCells r ++ rowCells (r + 1)).map (fun a => (o.1, a)))

/-- RDR in one cluster: the I parts to row r, the Q parts to row r + 1. -/
def rdrBody (bg : Bool) (w : AeW) (k : Nat) (s : State) : State :=
  let c := ctxGet s k bg
  let o := oneSide w
  let r := pointerOf c o.1 o.2.2 / 128
  let accs := (List.range 128).map (fun l => accGet c w.acs.val l)
  let out := accs.map (roPair w 48 0)
  let cell (v : Int) (miss taint : Bool) : Cell := ⟨BitVec.ofInt 48 v, miss, taint, 0⟩
  let a := (rowCells r).zip (out.map (fun p => cell p.1.1 p.2.1 p.2.2.1))
  let b := (rowCells (r + 1)).zip (out.map (fun p => cell p.1.2 p.2.1 p.2.2.1))
  postModifies k bg true w (cellsWrite k bg o.1 c.pc (a ++ b) (roOverflow k w accs s))

def execRdr (k : Fin 96) (bg : Bool) (w : AeW) (s : State) : Host.Outcome State Fault Refusal :=
  .next (aeExec 0x13 k.val bg w (rdrAccess bg w) (roCost w 2) (rdrBody bg w) advancePc s)

/-! ## MOV, UNPK, ZERO -/

/-- Source and destination cells of a MOV: K = 0 copies from X to Y. -/
def movCells (c : Ctx) (w : AeW) : List Nat × List Nat :=
  let x := accessCells w.xm.val (pointerOf c false w.xr.val)
  let y := accessCells w.ym.val (pointerOf c true w.yr.val)
  if w.k then (y, x) else (x, y)

/-- The cells of a MOV, by memory. -/
def movAccess (bg : Bool) (w : AeW) : Access := fun s k =>
  let m := movCells (ctxGet s k bg) w
  (m.1.map (fun a => (w.k, a)), m.2.map (fun a => (!w.k, a)))

/-- MOV in one cluster; a broadcast source goes to every destination cell. -/
def movBody (bg : Bool) (w : AeW) (k : Nat) (s : State) : State :=
  let c := ctxGet s k bg
  let m := movCells c w
  let v := cellsRead k bg w.k c.pc m.1 s
  let out := m.2.zipIdx.map (fun p => (p.1, { (if m.1.length = 1 then v.1.getD 0 cell0 else v.1.getD p.2 cell0) with ecc := 0 }))
  postModifies k bg false w (cellsWrite k bg (!w.k) c.pc out v.2)

def execMov (k : Fin 96) (bg : Bool) (w : AeW) (s : State) : Host.Outcome State Fault Refusal :=
  .next (aeExec 0x18 k.val bg w (movAccess bg w) ⟨[], none, wordRegs w, none, 1⟩ (movBody bg w) advancePc s)

/-- A part of a block word as a part of a row word (R197). -/
def unpkPart (e sb : Nat) (m : Int) : Int × Nat :=
  if e ≥ sb then (satI 24 (m * 2 ^ (e - sb)), satCount 24 (m * 2 ^ (e - sb)))
  else (roundConv m (sb - e), 0)

/-- Block cells and row cells of an UNPK. -/
def unpkCells (c : Ctx) (w : AeW) : List Nat × List Nat :=
  let src := pointerOf c w.k (if w.k then w.yr.val else w.xr.val)
  let dst := pointerOf c (!w.k) (if w.k then w.xr.val else w.yr.val)
  ((List.range (13 * immBits w 15 12)).map (blkBase src + ·), rowCells (dst / 128))

/-- The cells of an UNPK, by memory. -/
def unpkAccess (bg : Bool) (w : AeW) : Access := fun s k =>
  let m := unpkCells (ctxGet s k bg) w
  (m.1.map (fun a => (w.k, a)), m.2.map (fun a => (!w.k, a)))

/-- UNPK in one cluster. -/
def unpkBody (bg : Bool) (w : AeW) (k : Nat) (s : State) : State :=
  let c := ctxGet s k bg
  let m := unpkCells c w
  let n := immBits w 15 12
  let sb := immBits w 35 32
  let v := cellsRead k bg w.k c.pc m.1 s
  let lane (l : Nat) : Cell × Nat :=
    if l ≥ 12 * n then (cellMiss, 0)
    else
      let head := v.1.getD (13 * (l / 12)) cell0
      let word := v.1.getD (13 * (l / 12) + 1 + l % 12) cell0
      let d := dataParts word.word
      let e := bits head.word.toNat 47 44
      let i := unpkPart e sb d.i
      let q := unpkPart e sb d.q
      (⟨dataWord i.1 q.1, head.miss || word.miss, head.taint || word.taint, 0⟩, i.2 + q.2)
  let out := (List.range 128).map lane
  let s := countBy 0x401 k (sumN (out.map (fun o => o.2))) v.2
  postModifies k bg false w (cellsWrite k bg (!w.k) c.pc (m.2.zip (out.map (fun o => o.1))) s)

def execUnpk (k : Fin 96) (bg : Bool) (w : AeW) (s : State) : Host.Outcome State Fault Refusal :=
  .next (aeExec 0x19 k.val bg w (unpkAccess bg w) ⟨[], none, wordRegs w, none, 1⟩ (unpkBody bg w) advancePc s)

/-- ZERO in one cluster. -/
def zeroBody (bg : Bool) (w : AeW) (k : Nat) (s : State) : State :=
  let c := ctxGet s k bg
  let r := roRow c w
  postModifies k bg false w (cellsWrite k bg r.1 c.pc (r.2.map (fun a => (a, cell0))) s)

def execZero (k : Fin 96) (bg : Bool) (w : AeW) (s : State) : Host.Outcome State Fault Refusal :=
  .next (aeExec 0x1A k.val bg w (roAccess bg w) ⟨[], none, wordRegs w, none, 1⟩ (zeroBody bg w) advancePc s)

end Sys2Proof.Machine
end

