-- ==== Sys2Proof/Machine/AeTerms.lean ====
section
/-! DEFINITION. Cluster instructions that work on accumulators and coefficients: OP 0x00 to 0x0C (R192 to R195, R198 to
R200). -/

namespace Sys2Proof.Machine
open Sys2Proof

/-- The cost of an instruction that adds to ACD without reading it. -/
def termCost (w : AeW) (extra : List Nat) (cycles : Nat) : Cost := ⟨[], some w.acd.val, wordRegs w ++ extra, none, cycles⟩

/-- C clears on the first execution only (R193). -/
def clearsNow (s : State) (k : Nat) (bg : Bool) (w : AeW) : Bool :=
  let c := ctxGet s k bg
  w.c && (c.rep.isNone || c.repFirst)

/-- A term enters ACD in every lane. -/
def addTerms (k : Nat) (bg : Bool) (w : AeW) (t : Nat → Term) (s : State) : State :=
  let c := ctxGet s k bg
  let cl := clearsNow s k bg w
  let s := if (List.range 128).any (fun l => (t l).taint) && !bg then markTaint k s else s
  accAll k bg w.acd.val (fun l => accTerm cl (accGet c w.acd.val l) (t l)) s

/-! NOP -/

def execNop (k : Fin 96) (bg : Bool) (w : AeW) (s : State) : Host.Outcome State Fault Refusal :=
  .next (aeExec 0x00 k.val bg w noAccess ⟨[], none, [], none, 1⟩ (fun _ s => s) advancePc s)

/-! MAC -/

/-- MAC in one cluster. -/
def macBody (bg : Bool) (w : AeW) (k : Nat) (s : State) : State :=
  let c := ctxGet s k bg
  let x := cellsRead k bg false c.pc (accessCells w.xm.val (pointerOf c false w.xr.val)) s
  let y := cellsRead k bg true c.pc (accessCells w.ym.val (pointerOf c true w.yr.val)) x.2
  postModifies k bg false w (addTerms k bg w (fun l =>
    macTerm w.j w.k w.n (laneCell w.xm.val x.1 l) (laneCell w.ym.val y.1 l)) y.2)

def execMac (k : Fin 96) (bg : Bool) (w : AeW) (s : State) : Host.Outcome State Fault Refusal :=
  .next (aeExec 0x01 k.val bg w (readBoth bg w) (termCost w [] 1) (macBody bg w) advancePc s)

/-! TAP -/

/-- The X row that TAP reads: the tap-delay base plus AUX[7:0] of its coefficient. -/
def tapRow (c : Ctx) (coef : Cell) : Nat := (regGet c 0x23 + auxOf coef.word % 256) % 256

/-- The cells of TAP: its coefficient, its row, and the row it moves to. -/
def tapAccess (bg : Bool) (w : AeW) : Access := fun s k =>
  let c := ctxGet s k bg
  let p := pointerOf c true w.yr.val
  let a := tapRow c (cellView s k bg true p)
  ((true, p) :: (rowCells a).map (fun i => (false, i)), if w.k then [] else (rowCells (a + 1)).map (fun i => (false, i)))

/-- TAP in one cluster: the read takes effect before the write. -/
def tapBody (bg : Bool) (w : AeW) (k : Nat) (s : State) : State :=
  let c := ctxGet s k bg
  let y := cellsRead k bg true c.pc [pointerOf c true w.yr.val] s
  let coef := y.1.getD 0 cell0
  let a := tapRow c coef
  let x := cellsRead k bg false c.pc (rowCells a) y.2
  let s := addTerms k bg w (fun l => macTerm w.j false w.n (x.1.getD l cell0) coef) x.2
  let s := if w.k then s
    else cellsWrite k bg false c.pc ((rowCells (a + 1)).zip (x.1.toList.map (fun v => { v with ecc := 0 }))) s
  postModifies k bg false w s

def execTap (k : Fin 96) (bg : Bool) (w : AeW) (s : State) : Host.Outcome State Fault Refusal :=
  .next (aeExec 0x02 k.val bg w (tapAccess bg w) (termCost w [0x23] 1) (tapBody bg w) advancePc s)

/-! ADDS -/

/-- ADDS in one cluster: K selects the source memory. -/
def addsBody (bg : Bool) (w : AeW) (k : Nat) (s : State) : State :=
  let c := ctxGet s k bg
  let mode := if w.k then w.ym.val else w.xm.val
  let r := if w.k then w.yr.val else w.xr.val
  let x := cellsRead k bg w.k c.pc (accessCells mode (pointerOf c w.k r)) s
  postModifies k bg false w (addTerms k bg w (fun l => scaledTerm w.j w.n (immBits w 4 0) (laneCell mode x.1 l)) x.2)

def execAdds (k : Fin 96) (bg : Bool) (w : AeW) (s : State) : Host.Outcome State Fault Refusal :=
  .next (aeExec 0x03 k.val bg w (readBoth bg w) (termCost w [] 1) (addsBody bg w) advancePc s)

/-! ADDR -/

/-- The two rows of a raw access. -/
def rawAccess (bg : Bool) (w : AeW) (writes : Bool) : Access := fun s k =>
  let o := oneSide w
  let r := pointerOf (ctxGet s k bg) o.1 o.2.2 / 128
  let l := (rowCells r ++ rowCells (r + 1)).map (fun a => (o.1, a))
  if writes then ([], l) else (l, [])

/-- ADDR in one cluster. -/
def addrBody (bg : Bool) (w : AeW) (k : Nat) (s : State) : State :=
  let c := ctxGet s k bg
  let o := oneSide w
  let r := pointerOf c o.1 o.2.2 / 128
  let a := cellsRead k bg o.1 c.pc (rowCells r) s
  let b := cellsRead k bg o.1 c.pc (rowCells (r + 1)) a.2
  postModifies k bg true w (addTerms k bg w (fun l => rawTerm w.n (a.1.getD l cell0) (b.1.getD l cell0)) b.2)

def execAddr (k : Fin 96) (bg : Bool) (w : AeW) (s : State) : Host.Outcome State Fault Refusal :=
  .next (aeExec 0x04 k.val bg w (rawAccess bg w false) (termCost w [] 2) (addrBody bg w) advancePc s)

/-! ADDA and GXA -/

/-- An accumulator of every lane enters ACD. -/
def addAccs (k : Nat) (bg : Bool) (w : AeW) (clear : Bool) (src : Nat → Acc) (s : State) : State :=
  let c := ctxGet s k bg
  let s := if (List.range 128).any (fun l => (src l).taint) && !bg then markTaint k s else s
  accAll k bg w.acd.val (fun l => accAcc clear w.n w.j (accGet c w.acd.val l) (src l)) s

def execAdda (k : Fin 96) (bg : Bool) (w : AeW) (s : State) : Host.Outcome State Fault Refusal :=
  .next (aeExec 0x05 k.val bg w noAccess ⟨[w.acs.val], some w.acd.val, [], none, 1⟩
    (fun j s => addAccs j bg w (clearsNow s j bg w) (fun l => accGet (ctxGet s j bg) w.acs.val l) s) advancePc s)

/-- Every member adds the accumulator of its partner as it stood before the instruction. -/
def execGxa (k : Fin 96) (bg : Bool) (w : AeW) (s : State) : Host.Outcome State Fault Refusal :=
  .next (aeExec 0x06 k.val bg w noAccess ⟨[w.acs.val], some w.acd.val, [], none, 2⟩
    (fun j s' =>
      let partner := k.val + ((j - k.val) ^^^ immBits w 3 0)
      addAccs j bg w false (fun l => accGet (ctxGet s partner bg) w.acs.val l) s') advancePc s)

/-! EXP, NORM, ASH -/

def execExp (k : Fin 96) (bg : Bool) (w : AeW) (s : State) : Host.Outcome State Fault Refusal :=
  .next (aeExec 0x08 k.val bg w noAccess ⟨[w.acs.val], some w.acd.val, [], none, 1⟩
    (fun j s => accAll j bg w.acd.val (fun l => accExp (immBits w 0 0 == 1) (accGet (ctxGet s j bg) w.acs.val l)) s)
    advancePc s)

def execNorm (k : Fin 96) (bg : Bool) (w : AeW) (s : State) : Host.Outcome State Fault Refusal :=
  .next (aeExec 0x09 k.val bg w noAccess ⟨[w.acs.val, w.acd.val], some w.acd.val, [], none, 1⟩
    (fun j s =>
      let c := ctxGet s j bg
      accAll j bg w.acd.val (fun l => accNorm (accGet c w.acd.val l) (accGet c w.acs.val l)) s) advancePc s)

def execAsh (k : Fin 96) (bg : Bool) (w : AeW) (s : State) : Host.Outcome State Fault Refusal :=
  .next (aeExec 0x0A k.val bg w noAccess ⟨[w.acd.val], some w.acd.val, [], none, 1⟩
    (fun j s => accAll j bg w.acd.val (fun l => accAsh (signed 6 (immBits w 5 0)) (accGet (ctxGet s j bg) w.acd.val l)) s)
    advancePc s)

/-! RCPS and RSQS -/

/-- The seed of 0.5 / d, if D is legal: the integer nearest 2^14 / m. -/
def seedRcp (d : Nat) : Option Nat :=
  if d < 0x400000 || d > 0x7FFFFF then none
  else some (Nat.min 32767 (roundDiv (2 ^ 26) (2 * (d / 4096) + 1)).toNat)

/-- The integer nearest 2^14 / √m for m = (2i + 1) / 2,048, ties to even. -/
def nearestRoot (i : Nat) : Nat :=
  -- 2^14 / √m = √(2^39 / (2i + 1)); the half-integers are compared exactly
  let n := 2 ^ 39
  let d := 2 * i + 1
  let r := isqrt (n / d)
  let twice := (2 * r + 1) * (2 * r + 1) * d
  if 4 * n > twice || (4 * n == twice && r % 2 == 1) then r + 1 else r

/-- The seed of 0.5 / √d, if D is legal. -/
def seedRsq (d : Nat) : Option Nat :=
  if d < 0x200000 || d > 0x7FFFFF then none else some (Nat.min 32767 (nearestRoot (d / 8192)))

/-- A seed operation in one cluster: the I part of the X cell gives the Y cell of the same lane. -/
def seedBody (seed : Nat → Option Nat) (bg : Bool) (w : AeW) (k : Nat) (s : State) : State :=
  let c := ctxGet s k bg
  let x := cellsRead k bg false c.pc (accessCells w.xm.val (pointerOf c false w.xr.val)) s
  let row := accessCells w.ym.val (pointerOf c true w.yr.val)
  let out := row.zipIdx.map (fun p =>
    let v := x.1.getD p.2 cell0
    let d := (dataParts v.word).i
    let r := if d < 0 then none else seed d.toNat
    (p.1, (⟨coefWord (r.getD 0) 0 (auxOf (cellView s k bg true p.1).word), v.miss || r.isNone, v.taint, 0⟩ : Cell)))
  postModifies k bg false w (cellsWrite k bg true c.pc out x.2)

/-- The cells of a seed operation. -/
def seedAccess (bg : Bool) (w : AeW) : Access := fun s k =>
  let c := ctxGet s k bg
  ((accessCells w.xm.val (pointerOf c false w.xr.val)).map (fun a => (false, a)),
    (accessCells w.ym.val (pointerOf c true w.yr.val)).map (fun a => (true, a)))

def execRcps (k : Fin 96) (bg : Bool) (w : AeW) (s : State) : Host.Outcome State Fault Refusal :=
  .next (aeExec 0x0B k.val bg w (seedAccess bg w) ⟨[], none, wordRegs w, none, 1⟩ (seedBody seedRcp bg w) advancePc s)

def execRsqs (k : Fin 96) (bg : Bool) (w : AeW) (s : State) : Host.Outcome State Fault Refusal :=
  .next (aeExec 0x0C k.val bg w (seedAccess bg w) ⟨[], none, wordRegs w, none, 1⟩ (seedBody seedRsq bg w) advancePc s)

end Sys2Proof.Machine
end

