-- ==== Sys2Proof/Machine/Program.lean ====
section
/-! DEFINITION. The check of a cluster program at load: encoding, control structure, run lengths (R178, R192, R202 to R207,
R248). -/

namespace Sys2Proof.Machine
open Sys2Proof

/-! ## Instruction words (R188, R192) -/

/-- OP of an instruction word. -/
def aeOp (v : Nat) : Nat := bits v 63 58

/-- The other fields of an instruction word. -/
def aeFields (v : Nat) : AeW where
  acd := Fin.ofNat 8 (bits v 57 55)
  acs := Fin.ofNat 8 (bits v 54 52)
  c := bitN v 51
  n := bitN v 50
  j := bitN v 49
  k := bitN v 48
  xm := Fin.ofNat 8 (bits v 47 45)
  xr := Fin.ofNat 8 (bits v 44 42)
  ym := Fin.ofNat 8 (bits v 41 39)
  yr := Fin.ofNat 8 (bits v 38 36)
  imm := BitVec.ofNat 36 v

/-- The modes R and B of the table "Operations". -/
def modeRB (m : Fin 8) : Bool := isRow m.val || isBc m.val

/-- A memory takes no part: mode and pointer zero. -/
def noX (w : AeW) : Bool := w.xm == 0 && w.xr == 0
@[inherit_doc noX] def noY (w : AeW) : Bool := w.ym == 0 && w.yr == 0

/-- Exactly one memory has a mode, and it meets a condition. -/
def oneMode (w : AeW) (ok : Nat → Bool) : Bool := (w.xm == 0) != (w.ym == 0) && ok (oneSide w).2.1

/-- Flags other than the allowed ones are clear. -/
def flagsOnly (w : AeW) (c n j k : Bool) : Bool := (c || !w.c) && (n || !w.n) && (j || !w.j) && (k || !w.k)

/-- No accumulator field, no destination, no source. -/
def noAcd (w : AeW) : Bool := w.acd == 0
@[inherit_doc noAcd] def noAcs (w : AeW) : Bool := w.acs == 0

/-- No flag, mode or accumulator. -/
def bareWord (w : AeW) : Bool := flagsOnly w false false false false && noX w && noY w && noAcd w && noAcs w

/-- The immediate of a read-out (R196). -/
def readoutOk (w : AeW) (block raw : Bool) : Bool :=
  let sh := signed 6 (immBits w 35 30)
  let n := immBits w 15 12
  immBits w 29 28 != 3 && immBits w 25 25 == 0 && immBits w 11 0 == 0
    && (if raw then sh == 0 else decide (-15 ≤ sh) && decide (sh ≤ 24))
    && (if block then decide (1 ≤ n) && decide (n ≤ 10) else n == 0 && immBits w 24 16 == 0)

/-- The register is one that SETP, ADDP and MOVP write (R189, R201). -/
def regWritable (r : Nat) : Bool := decide (r < 0x20) || r == 0x23

/-- A defined instruction with legal fields, in a gang of size `gang` (R188, R192 to R204). -/
def aeLegal (gang op : Nat) (w : AeW) : Bool :=
  let imm := w.imm.toNat
  match op with
  | 0x00 => bareWord w && imm == 0
  | 0x01 => modeRB w.xm && modeRB w.ym && noAcs w && imm == 0
  | 0x02 => noX w && isBc w.ym.val && noAcs w && imm == 0
  | 0x03 => (if w.k then noX w && modeRB w.ym else noY w && modeRB w.xm) && noAcs w && decide (imm ≤ 24)
  | 0x04 => oneMode w isRow && flagsOnly w true true false false && noAcs w && imm == 0
  | 0x05 => noX w && noY w && flagsOnly w true true true false && imm == 0
  | 0x06 => noX w && noY w && flagsOnly w false false false false && [1, 2, 4, 8].contains imm && decide (imm < gang)
  | 0x08 => noX w && noY w && flagsOnly w false false false false && decide (imm ≤ 1)
  | 0x09 => noX w && noY w && flagsOnly w false false false false && imm == 0
  | 0x0A => noX w && noY w && flagsOnly w false false false false && noAcs w && decide (imm < 64)
      && decide (-24 ≤ signed 6 imm) && decide (signed 6 imm ≤ 24)
  | 0x0B | 0x0C => isRow w.xm.val && isRow w.ym.val && flagsOnly w false false false false && noAcd w && noAcs w && imm == 0
  | 0x10 => oneMode w isRow && flagsOnly w false false false false && noAcd w && readoutOk w false false
  | 0x11 => noX w && isRow w.ym.val && flagsOnly w false false false false && noAcd w && readoutOk w false false
  | 0x12 => oneMode w isBlk && flagsOnly w false false false false && noAcd w && readoutOk w true false
  | 0x13 => oneMode w isRow && flagsOnly w false false false false && noAcd w && readoutOk w false true
  | 0x18 =>
    let src := if w.k then w.ym.val else w.xm.val
    let dst := if w.k then w.xm.val else w.ym.val
    modeRB w.xm && modeRB w.ym && (!isBc dst || isBc src) && flagsOnly w false false false true && noAcd w && noAcs w && imm == 0
  | 0x19 =>
    (if w.k then isBlk w.ym.val && isRow w.xm.val else isBlk w.xm.val && isRow w.ym.val)
      && flagsOnly w false false false true && noAcd w && noAcs w && immBits w 31 16 == 0 && immBits w 11 0 == 0
      && decide (1 ≤ immBits w 15 12) && decide (immBits w 15 12 ≤ 10)
  | 0x1A => oneMode w isRow && flagsOnly w false false false false && noAcd w && noAcs w && imm == 0
  | 0x20 | 0x21 => bareWord w && immBits w 29 16 == 0 && regWritable (immBits w 35 30)
  | 0x22 => bareWord w && immBits w 23 0 == 0 && regWritable (immBits w 35 30) && decide (immBits w 29 24 ≤ 0x23)
  | 0x28 => bareWord w && decide (imm < 2 ^ 16)
  | 0x29 => bareWord w && decide (imm < 2 ^ 29)
  | 0x2A => bareWord w && decide (imm < 2 ^ 13)
  | 0x2B => bareWord w && immBits w 34 31 == 0 && immBits w 15 15 == 0
  | 0x2C | 0x3F => bareWord w && imm == 0
  | 0x2D => bareWord w && decide (imm ≤ 1)
  | _ => false

/-- What an instruction reads, writes and costs (R205). -/
def aeCost (op : Nat) (w : AeW) : Cost :=
  match op with
  | 0x01 | 0x03 => termCost w [] 1
  | 0x02 => termCost w [0x23] 1
  | 0x04 => termCost w [] 2
  | 0x05 => ⟨[w.acs.val], some w.acd.val, [], none, 1⟩
  | 0x06 => ⟨[w.acs.val], some w.acd.val, [], none, 2⟩
  | 0x08 => ⟨[w.acs.val], some w.acd.val, [], none, 1⟩
  | 0x09 => ⟨[w.acs.val, w.acd.val], some w.acd.val, [], none, 1⟩
  | 0x0A => ⟨[w.acd.val], some w.acd.val, [], none, 1⟩
  | 0x10 | 0x11 | 0x12 => roCost w 1
  | 0x13 => roCost w 2
  | 0x20 | 0x21 => regCost w []
  | 0x22 => regCost w [immBits w 29 24]
  | 0x2A => ctlCost 3
  | 0x28 | 0x29 | 0x2B | 0x2C | 0x2D | 0x3F => ctlCost 1
  | _ => ⟨[], none, wordRegs w, none, 1⟩

/-! ## Programs -/

/-- A program as the check sees it: its first and last instruction, its words, and the gang it runs in. -/
structure AeProg where
  first : Nat
  last : Nat
  words : Array Nat
  gang : Nat

/-- The word of instruction `i`. -/
def progWord (p : AeProg) (i : Nat) : Nat := p.words.getD (i - p.first) 0

/-- Instruction `i` lies in the range. -/
def progHas (p : AeProg) (i : Nat) : Bool := decide (p.first ≤ i) && decide (i ≤ p.last)

/-- One reachable instruction meets the table "Program checks"; `ends` are the ENDs of the loops around it, innermost
first. -/
def instrOk (p : AeProg) (bg : Bool) (ends : List Nat) (i : Nat) : Bool :=
  let v := progWord p i
  let op := aeOp v
  let w := aeFields v
  let stop := immBits w 28 16
  progHas p i && aeLegal p.gang op w
    && (match op with
      | 0x28 => decide (i < p.last) && decide (aeOp (progWord p (i + 1)) ≤ 0x1A)
      | 0x29 => p.gang == 1 && decide (i < stop) && progHas p stop && (ends.head?).all (fun e => decide (stop ≤ e))
          && decide (ends.length < 3) && !([0x28, 0x29, 0x2A, 0x3F].contains (aeOp (progWord p stop)))
      | 0x2A => ends.isEmpty && progHas p (immBits w 12 0)
      | 0x2C | 0x2D => bg
      | 0x3F => !bg
      | _ => true)

/-- The instructions reachable from one are traced; every block repeat is walked once. `jumps` are the targets already
taken. A foreground path ends at END, a background path where it comes round. -/
def traceOk (p : AeProg) (bg : Bool) : Nat → List Nat → List Nat → Nat → Bool
  | 0, _, _, _ => false
  | fuel + 1, jumps, ends, i =>
    if !instrOk p bg ends i then false
    else
      let w := aeFields (progWord p i)
      match aeOp (progWord p i) with
      | 0x3F => true
      | 0x2A =>
        let t := immBits w 12 0
        if jumps.contains t then bg else traceOk p bg fuel (t :: jumps) [] t
      | 0x29 => traceOk p bg fuel jumps (immBits w 28 16 :: ends) (i + 1)
      | _ => traceOk p bg fuel jumps (ends.dropWhile (fun e => e == i)) (i + 1)

/-- Most instructions that a trace can visit. -/
def traceFuel : Nat := 8193 * 8193

/-- A program passes R206 from its entries; the background entry counts where BG_EN is set. -/
def programOk (p : AeProg) (e : ClEntry) : Bool :=
  traceOk p false traceFuel [e.fgEntry] [] e.fgEntry && (!e.bgEn || traceOk p true traceFuel [e.bgEntry] [] e.bgEntry)

/-! ## Run lengths (R205, R207, R248) -/

/-- The course of a context through one instruction; `cap` bounds the iterations of a block repeat. -/
def progStep (p : AeProg) (cap : Nat) (c : Ctx) : Ctx :=
  let v := progWord p c.pc
  let w := aeFields v
  let c := charge c (aeCost (aeOp v) w)
  match aeOp v with
  | 0x28 => beginRep w c
  | 0x29 =>
    let b := beginLoop w c
    { b with loops := match b.loops with
      | l :: t => { l with left := Nat.min l.left cap } :: t
      | [] => [] }
  | 0x2A => { c with pc := immBits w 12 0, iterEnd := false }
  | _ => advancePc c

/-- Cycles from an instruction up to and with the first instruction of one opcode; none beyond `limit` cycles. -/
def runLength (p : AeProg) (stop limit : Nat) : Nat → Ctx → Option Nat
  | 0, _ => none
  | fuel + 1, c =>
    let op := aeOp (progWord p c.pc)
    let d := progStep p (2 ^ 17) c
    if d.cycles > limit then none
    else if op = stop then some d.cycles
    else runLength p stop limit fuel d

/-- The run length of a foreground program, none where it exceeds `limit` (R207). -/
def fgLength (p : AeProg) (entry limit : Nat) : Option Nat := runLength p 0x3F limit (limit + 1) { ctxReset with pc := entry }

/-- C_P: the cost of the background path from JWAIT to JDONE, none beyond `limit` or without a JWAIT (R248). -/
def jobCost (p : AeProg) (entry limit : Nat) : Option Nat :=
  let rec go : Nat → Ctx → Option Nat
    | 0, _ => none
    | fuel + 1, c =>
      if aeOp (progWord p c.pc) = 0x2C then runLength p 0x2D limit (limit + 1) { c with cycles := 0 }
      else go fuel (progStep p 3 c)
  go traceFuel { ctxReset with pc := entry }

/-- The longest run between interruptible points of a background program stays within `limit` (R178): block repeats are
walked three times, which meets every history that the stalls of R205 depend on. -/
def runsWithin (p : AeProg) (limit : Nat) : Nat → List Nat → Ctx → Bool
  | 0, _, _ => false
  | fuel + 1, jumps, c =>
    let v := progWord p c.pc
    let d := progStep p 3 c
    if d.cycles > limit then false
    else
      let d := if d.rep.isNone && (d.loops.isEmpty || d.iterEnd) then { d with cycles := 0 } else d
      if aeOp v = 0x2A then
        if 2 ≤ jumps.count d.pc then true else runsWithin p limit fuel (d.pc :: jumps) d
      else runsWithin p limit fuel jumps d

/-- The check of R178 for one background program. -/
def suspendOk (p : AeProg) (entry lead : Nat) : Bool :=
  decide (64 ≤ lead) && runsWithin p (lead - 64) (traceFuel * 2 ^ 24) [] { ctxReset with pc := entry }

end Sys2Proof.Machine
end

