-- ==== Sys2Proof/Machine/Response.lean ====
section
/-! DEFINITION. The channel responses, their delays and settle lengths, and the allowances of the element links (R73,
R95 to R99). -/

namespace Sys2Proof.Machine
open Sys2Proof

/-- A row of the table "Channel responses". -/
structure Resp where
  /-- bandwidth in kHz -/
  bw : Nat
  /-- FFT code of its carrier rate -/
  fft : Nat
  /-- pass-band edge in kHz -/
  fp : Nat
  /-- taps, linear and minimum phase -/
  tapsLin : Nat
  tapsMin : Nat
  /-- delay in tenths of a carrier sample, linear and minimum phase -/
  delLin : Nat
  delMin : Nat
  /-- settle length in carrier samples, linear and minimum phase -/
  setLin : Nat
  setMin : Nat
deriving DecidableEq, Repr, Inhabited

/-- The 32 channel responses (R97). -/
def responses : List Resp :=
  [⟨5000, 3, 2458, 191, 96, 950, 285, 196, 101⟩, ⟨7500, 3, 3686, 129, 65, 640, 192, 134, 70⟩, ⟨10000, 3, 4915, 97, 49, 480, 144, 102, 54⟩, ⟨12500, 2, 6144, 153, 77, 760, 228, 157, 81⟩]
  ++ [⟨15000, 2, 7373, 129, 65, 640, 192, 133, 69⟩, ⟨17500, 2, 8601, 111, 56, 550, 165, 115, 60⟩, ⟨20000, 2, 9830, 97, 49, 480, 144, 101, 53⟩, ⟨22500, 2, 11059, 85, 43, 420, 126, 89, 47⟩]
  ++ [⟨25000, 2, 12288, 77, 39, 380, 114, 81, 43⟩, ⟨27500, 1, 13516, 139, 70, 690, 207, 143, 74⟩, ⟨30000, 1, 14745, 129, 65, 640, 192, 133, 69⟩, ⟨32500, 1, 15974, 119, 60, 590, 177, 123, 64⟩]
  ++ [⟨35000, 1, 17203, 111, 56, 550, 165, 115, 60⟩, ⟨37500, 1, 18431, 103, 52, 510, 153, 107, 56⟩, ⟨40000, 1, 19660, 97, 49, 480, 144, 101, 53⟩, ⟨42500, 1, 20889, 91, 46, 450, 135, 95, 50⟩]
  ++ [⟨45000, 1, 22118, 85, 43, 420, 126, 89, 47⟩, ⟨47500, 1, 23346, 81, 41, 400, 120, 85, 45⟩, ⟨50000, 1, 24575, 77, 39, 380, 114, 81, 43⟩, ⟨52500, 0, 25804, 147, 74, 730, 219, 173, 100⟩]
  ++ [⟨55000, 0, 27033, 139, 70, 690, 207, 165, 96⟩, ⟨57500, 0, 28261, 133, 67, 660, 198, 159, 93⟩, ⟨60000, 0, 29490, 129, 65, 640, 192, 155, 91⟩, ⟨62500, 0, 30719, 123, 62, 610, 183, 149, 88⟩]
  ++ [⟨65000, 0, 31948, 119, 60, 590, 177, 145, 86⟩, ⟨70000, 0, 34405, 111, 56, 550, 165, 137, 82⟩, ⟨75000, 0, 36863, 103, 52, 510, 153, 129, 78⟩, ⟨80000, 0, 39320, 97, 49, 480, 144, 123, 75⟩]
  ++ [⟨85000, 0, 41778, 91, 46, 450, 135, 117, 72⟩, ⟨90000, 0, 44235, 85, 43, 420, 126, 111, 69⟩, ⟨95000, 0, 46693, 81, 41, 400, 120, 107, 67⟩, ⟨100000, 0, 49150, 77, 39, 380, 114, 103, 65⟩]

/-- The response of a carrier entry. -/
def respOf (c : Carrier) : Resp := responses.getD c.resp.val default

/-- Taps of the channel FIR. -/
def tapsOf (c : Carrier) : Nat := if c.minphase then (respOf c).tapsMin else (respOf c).tapsLin

/-- Index of the coefficient set of a carrier. -/
def respSet (c : Carrier) : Nat := c.resp.val + (if c.minphase then 32 else 0)

/-- Settle length L in carrier samples (R108). -/
def settleOf (c : Carrier) : Nat := if c.minphase then (respOf c).setMin else (respOf c).setLin

/-- Pre-FIR delay in carrier samples (R95). -/
def preDelay (fft : Nat) : Rat :=
  match fft with
  | 0 => mkRat 45 4
  | 1 => mkRat 21 16
  | 2 => mkRat 15 8
  | _ => mkRat 155 64

/-- d(c), the total delay in carrier samples (R98). -/
def totalDelay (c : Carrier) : Rat :=
  preDelay c.fft.val + mkRat (if c.minphase then (respOf c).delMin else (respOf c).delLin) 10

/-- K(c) (R98). -/
def advanceOf (c : Carrier) : Nat := (roundRat (totalDelay c)).toNat

/-- Carrier rate in kSa/s (R114). -/
def carrierRate (c : Carrier) : Nat := 122880 / 2 ^ c.fft.val

/-- P, the extended multiblock period, in ns. -/
def embPeriod (fs : Nat) : Rat := mkRat 64000000 fs

/-- D_RX(c) and D_TX(c) in ns at a converter rate in kSa/s (R99). -/
def delayRx (fs : Nat) (c : Carrier) : Rat :=
  embPeriod fs + mkRat 8000000 fs + totalDelay c * mkRat 1000000 (carrierRate c) + 40
@[inherit_doc delayRx] def delayTx (fs : Nat) (c : Carrier) : Rat :=
  totalDelay c * mkRat 1000000 (carrierRate c) + mkRat 8000000 fs + 40

/-- Budget entries of a unit instance in a formula. -/
def budgetsOf (f : Formula) (u i : Nat) : List Budget := f.budgets.filter (fun b => b.unit == u && b.inst == i)

/-- A number of nominal core cycles in ns. -/
def cyclesNs (n : Int) : Rat := mkRat (n * 3125) 6144

/-- A_RX(c) in ns, from the largest START of the STU's entries (R73). -/
def allowRx (fs : Nat) (f : Formula) (c : Nat) (car : Carrier) : Rat :=
  cyclesNs (maxN ((budgetsOf f 2 c).map (fun b => b.start))) - delayRx fs car - 64

/-- A_TX(c) in ns, from the largest LIMIT of the STU's entries (R73). -/
def allowTx (fs : Nat) (f : Formula) (c : Nat) (car : Carrier) : Rat :=
  cyclesNs (70144 - (maxN ((budgetsOf f 2 c).map (fun b => b.limit)) : Int)) - delayTx fs car - 64

end Sys2Proof.Machine
end

