-- ==== Sys2Proof/Machine/Mailbox.lean ====
section
/-! DEFINITION. The mailbox: lease, order of service, the checks of R396, responses, boundaries (R388 to R399). -/

namespace Sys2Proof.Machine
open Sys2Proof

/-! ## Status codes (table "Status codes") -/

/-- ST_OK and the other status codes. -/
def stOk : Nat := 0x0000
@[inherit_doc stOk] def stBadField : Nat := 0x0001
@[inherit_doc stOk] def stBadOpcode : Nat := 0x0002
@[inherit_doc stOk] def stBadMode : Nat := 0x0003
@[inherit_doc stOk] def stNoLease : Nat := 0x0004
@[inherit_doc stOk] def stBusy : Nat := 0x0005
@[inherit_doc stOk] def stTooLate : Nat := 0x0006
@[inherit_doc stOk] def stBadImage : Nat := 0x0010
@[inherit_doc stOk] def stAuthFail : Nat := 0x0011
@[inherit_doc stOk] def stBudget : Nat := 0x0012
@[inherit_doc stOk] def stNoPending : Nat := 0x0013
@[inherit_doc stOk] def stCapacity : Nat := 0x0014
@[inherit_doc stOk] def stUnavailable : Nat := 0x0020
@[inherit_doc stOk] def stNotRetained : Nat := 0x0021
@[inherit_doc stOk] def stTrainFail : Nat := 0x0022
@[inherit_doc stOk] def stNotReady : Nat := 0x0023
@[inherit_doc stOk] def stJobFailed : Nat := 0x0024
@[inherit_doc stOk] def stNotLead : Nat := 0x0030
@[inherit_doc stOk] def stTwinRefused : Nat := 0x0031

/-! ## Opcodes -/

/-- Every opcode of the command catalogue (R400). -/
def opcodes : List Nat :=
  [0x0101, 0x0102, 0x0103, 0x0201, 0x0301, 0x0302, 0x0401, 0x0402, 0x0403, 0x0501, 0x0502, 0x0601, 0x0701, 0x0702,
   0x0801, 0x3A01]
  ++ [0x1001, 0x1002, 0x1003, 0x1004, 0x1101, 0x1201, 0x1202, 0x1301, 0x1401, 0x1402, 0x1501, 0x1601, 0x1701, 0x1702,
   0x1703, 0x1801, 0x1901, 0x1902, 0x1A01, 0x1B01, 0x1C01]
  ++ [0x2001, 0x2002, 0x2003, 0x2004, 0x2101, 0x2102, 0x2201, 0x2202, 0x2203, 0x2204, 0x2205, 0x2206, 0x2207, 0x2208,
   0x2801, 0x2802, 0x2803, 0x2804, 0x2805, 0x2901, 0x2A01, 0x2A02]
  ++ [0x3001, 0x3002, 0x3003, 0x3004, 0x3801, 0x3802, 0x3901, 0x3902]

/-- The family of a command, FAMILY.VERB: the opcode's high byte, but for 0x30, which three families share. -/
def familyOf (op : Nat) : Nat :=
  if op = 0x3001 then 0x130 else if op = 0x3004 then 0x230 else op / 256

/-! ## Channels and the lease (R388 to R390) -/

/-- CHANNEL code of a source. -/
def channelCode : Src → Nat
  | .pcie => 0
  | .inband p _ _ => 1 + p.val

/-- CHANNEL, HOLDER as the lease stands. -/
def leaseChannel (s : State) : Nat := s.nose.lease.elim 0xFF (fun l => channelCode l.2)
@[inherit_doc leaseChannel] def leaseHolderId (s : State) : BitVec 64 := s.nose.lease.elim 0 (fun l => l.1)

/-- One millisecond in 2^-40 ns. -/
def ms40 : Int := 1000000 * 2 ^ 40

/-- Milliseconds until the lease expires. -/
def leaseRemain (s : State) : Nat :=
  if s.nose.lease.isSome then ((s.nose.leaseAt + s.nose.timeoutMs * ms40 - s.tb.t40) / ms40).toNat else 0

/-- The three lease registers take the current values (R453). -/
def updateLeaseRegs (s : State) : State :=
  { s with bar0 := { s.bar0 with
    leaseHolder := leaseHolderId s, leaseChannel := BitVec.ofNat 8 (leaseChannel s)
    leaseRemain := BitVec.ofNat 16 (Nat.min (leaseRemain s) 65535) } }

/-- The lease has a new holder, or none: NOS_LEASE_CHANGES rises, EV_LEASE is raised, the registers follow. -/
def setLease (l : Option (BitVec 64 × Src)) (reason : Nat) (s : State) : State :=
  if s.nose.lease = l then s
  else
    let old := leaseHolderId s
    let s := count 0xD07 0 { s with nose := { s.nose with lease := l } }
    let s := raiseEv 0x03 0xD [.num 8 old.toNat, .num 8 (leaseHolderId s).toNat, .num 1 (leaseChannel s), .num 1 reason] s
    let s := match l with
      | some (_, .pcie) => s
      | _ => reportLost s
    updateLeaseRegs s

/-- The source holds the lease. -/
def holdsLease (src : Src) (s : State) : Bool :=
  match s.nose.lease with
  | some (_, c) => c == src
  | none => false

/-- A source other than the holder may have this command taken (R389). -/
def leaseFree (op : Nat) : Bool := op == 0x0101 || op == 0x0103 || op == 0x0201

/-! ## Arrival and service (R391 to R396) -/

/-- Long-running PCIe commands whose response is still owed. -/
def owedPcie (s : State) : Nat :=
  (s.nose.jobs.filter (fun j => match j.src with
    | .pcie => true
    | _ => false)).length

/-- The Nose may take this entry now: a PCIe entry needs a free response slot, and BASE serves PCIe only. -/
def servable (s : State) (h : Head) : Bool :=
  s.nose.mbxReady && s.nose.mode != .boot && (match h.src with
    | .pcie => decide ((s.nose.rspProd - s.nose.rspCons).toNat + owedPcie s < 64)
    | .inband _ _ _ => s.nose.mode != .base)

/-- The entry the Nose takes next: the oldest it may take. -/
def nextHead (s : State) : Option Head := s.nose.arrived.find? (servable s)

/-- The commands of an in-band channel whose responses are kept: the last 64 it had taken (R395). -/
def keepLast (src : Src) (n : Nat) : List Kept → List Kept
  | [] => []
  | k :: t => if k.src == src then (if n = 0 then keepLast src 0 t else k :: keepLast src (n - 1) t) else k :: keepLast src n t

/-- The Nose takes an entry: it leaves its ring, is counted, and restarts the holder's lease timer. -/
def takeHead (h : Head) (s : State) : State :=
  let n := s.nose
  let n := { n with arrived := n.arrived.erase h }
  let n := match h.src with
    | .pcie => { n with cmdCons := n.cmdCons + 1 }
    | .inband _ _ _ => { n with kept := keepLast h.src 64 (⟨h.src, h.tag, h.opcode, none⟩ :: n.kept) }
  let n := if holdsLease h.src s then { n with leaseAt := s.tb.t40 } else n
  count 0xD00 0 { s with nose := n }

/-- A response goes to its channel: the response ring, or a frame on the host port and the kept list (R392, R394). -/
def respond (dst : Src) (tag : BitVec 32) (op : Nat) (arrivalNs : BitVec 32) (status : Nat) (effect : Option Stamp)
    (next : Nat) (payload : List Fld) (s : State) : State :=
  let r : Response := ⟨dst, tag, BitVec.ofNat 16 op, BitVec.ofNat 16 status, effect, arrivalNs, next, payload⟩
  let s := if status = stOk then s else count 0xD01 0 s
  match dst with
  | .pcie =>
    { s with nose := { s.nose with
      rspRing := FMap.set s.nose.rspRing (s.nose.rspProd.toNat % 64) r
      rspProd := s.nose.rspProd + 1, msixDue := s.nose.msixDue ||| 1#2 } }
  | .inband p _ _ =>
    let s := { s with nose := { s.nose with
      kept := s.nose.kept.map (fun k =>
        if k.src == dst && k.tag == tag && k.opcode.toNat == op && k.rsp.isNone then { k with rsp := some r } else k) } }
    sendRsp p.val r s

/-- A long-running command of the family is in progress (R396 step 5, R397). -/
def familyBusy (op : Nat) (s : State) : Bool := s.nose.jobs.any (fun j => familyOf j.opcode.toNat == familyOf op)

/-- A response with a status alone. -/
def fails (status : Nat) (s : State) : Reply × State := (.done status [] none 0, s)

/-- ST_OK with a payload. -/
def okWith (payload : List Fld) (s : State) : Reply × State := (.done stOk payload none 0, s)

/-- Entries at the front whose OPCODE is not defined are answered as they come (R396 step 2). -/
def answerUndefined : Nat → State → State
  | 0, s => s
  | fuel + 1, s =>
    match nextHead s with
    | some h =>
      if opcodes.contains h.opcode.toNat then s
      else
        let s := takeHead h s
        let st := if holdsLease h.src s then stBadOpcode else stNoLease
        answerUndefined fuel (respond h.src h.tag h.opcode.toNat (nowNs s) st none 0 [] s)
    | none => s

/-- The mailbox looks at what waits. -/
def serveUndefined (s : State) : State := answerUndefined s.nose.arrived.length s

/-- Step 4 of R396 for the modes of the catalogue. -/
def inModes (l : List Mode) (s : State) : Nat := if l.contains s.nose.mode then stOk else stBadMode

/-- Mode sets of the catalogue. -/
def modesBYOLM : List Mode := [.base, .standby, .solo, .lead, .sillage]
@[inherit_doc modesBYOLM] def modesYOLM : List Mode := [.standby, .solo, .lead, .sillage]
@[inherit_doc modesBYOLM] def modesYOL : List Mode := [.standby, .solo, .lead]
@[inherit_doc modesBYOLM] def modesOL : List Mode := [.solo, .lead]
@[inherit_doc modesBYOLM] def modesOLM : List Mode := [.solo, .lead, .sillage]

/-- Step 4 for a command that only the lead of a pair accepts (R365). -/
def leadModes (l : List Mode) (s : State) : Nat :=
  if s.nose.mode == .sillage then stNotLead else inModes l s

/-- The checks of R396 in their order; the first that fails decides the status. -/
def checked (op : Nat) (h : Hdr) (mode : Nat) (body : State → Reply × State) (s : State) : Reply × State :=
  if !leaseFree op && !holdsLease h.src s then fails stNoLease s
  else if !h.hdrOk then fails stBadField s
  else if mode ≠ stOk then fails mode s
  else if familyBusy op s then fails stBusy s
  else if !h.rsvOk then fails stBadField s
  else body s

/-- The entry that command row `op` with header `h` carries is the one the Nose takes next. -/
def isNext (op : Nat) (h : Hdr) (s : State) : Bool :=
  match nextHead s with
  | some x => x.src == h.src && x.tag == h.tag && x.opcode.toNat == op
  | none => false

/-- The answer of a taken command. -/
def answer (op : Nat) (h : Hdr) (p : Reply × State) : State :=
  match p.1 with
  | .done st payload eff nx => respond h.src h.tag op (nowNs p.2) st eff nx payload p.2
  | .later => p.2

/-- A mailbox command is taken, checked, carried out and answered; an entry that is not the next one stays where it
is. `mode` is step 4, `body` step 6 and the command's effect. -/
def serve (op : Nat) (h : Hdr) (mode : State → Nat) (body : State → Reply × State) (s : State) : State :=
  if isNext op h s then
    let s := takeHead ⟨h.src, h.tag, BitVec.ofNat 16 op⟩ s
    serveUndefined (answer op h (checked op h (mode s) body s))
  else s

/-! ## Long-running commands and boundaries (R397 to R399) -/

/-- A long-running command begins; its response follows later. -/
def startJob (op : Nat) (h : Hdr) (body : JobBody) (s : State) : Reply × State :=
  (.later, { s with nose := { s.nose with jobs := s.nose.jobs ++ [⟨h.src, h.tag, BitVec.ofNat 16 op, nowNs s, body⟩] } })

/-- A long-running command ends with its response (R397); it leaves the list of those in progress. -/
def endJob (j : Job) (status : Nat) (effect : Option Stamp) (payload : List Fld) (s : State) : State :=
  serveUndefined (respond j.src j.tag j.opcode.toNat j.arrivalNs status effect 0 payload
    { s with nose := { s.nose with jobs := s.nose.jobs.erase j } })

/-- The job in progress with this opcode, if any. -/
def jobOf (op : Nat) (s : State) : Option Job := s.nose.jobs.find? (fun j => j.opcode.toNat == op)

/-- R398: what a slot boundary S in a command must meet, in its order. -/
def checkS (b : Stamp) (s : State) : Nat :=
  if !stampValid b || stampSymbol b != 0 then stBadField
  else
    let d := beatDist s.tb.beat b
    if d ≤ 14 || d ≥ 36700160 then stTooLate
    else if d ≥ 28001 then stBadField
    else stOk

/-- R398 for a command whose S must be zero in STANDBY and BASE. -/
def checkSZero (b : Stamp) (s : State) : Nat :=
  if s.nose.mode == .standby || s.nose.mode == .base then (if b == 0#32 then stOk else stBadField) else checkS b s

/-- R398 for an instant T in 1/16 ns of full time: at least 10 µs after arrival. -/
def checkT (t16 : Int) (s : State) : Nat := if t16 < now16 s + 160000 then stTooLate else stOk

/-- The stamp of the beat from which a scheduled effect applies. -/
def effectStamp (w : When) (s : State) : Option Stamp :=
  match w with
  | .now => none
  | .nextSlot => some (stampOfLin (nextSlotLin s))
  | .nextBeat => some (stampOfLin (s.tb.lin + 1))
  | .at b => some b

/-- An accepted effect waits for its boundary. -/
def schedule (w : When) (a : Act) (s : State) : State :=
  { s with nose := { s.nose with sched := s.nose.sched ++ [⟨w, a⟩] } }

/-- A command accepted for a boundary answers ST_OK with EFFECT (R399). -/
def accept (w : When) (a : Act) (payload : List Fld) (applyNow : State → State) (s : State) : Reply × State :=
  match w with
  | .now => (.done stOk payload none 0, applyNow s)
  | w => (.done stOk payload (effectStamp w s) 0, schedule w a s)

/-- A command that the lead and its sillage apply together (R365): in LEAD it is forwarded and waits for the ACK,
otherwise it is accepted. -/
def acceptPair (op : Nat) (h : Hdr) (w : When) (a : Act) (payload : List Fld) (applyNow : State → State) (s : State) :
    Reply × State :=
  if s.nose.mode == .lead then
    let n := s.twn.cmdSeq
    let s := sendTw 0 (.command n (BitVec.ofNat 16 op) a false 0) { s with twn := { s.twn with cmdSeq := n + 1 } }
    startJob op h (.pairWait n a w s.tb.t40 payload) s
  else accept w a payload applyNow s

/-! ## In-band arrival (R394, R395) -/

/-- Commands of an in-band channel that are outstanding. -/
def outstanding (src : Src) (s : State) : Nat :=
  (s.nose.arrived.filter (fun h => h.src == src)).length
    + (s.nose.kept.filter (fun k => k.src == src && k.rsp.isNone)).length

/-- A command entry arrives in band: a repeat is answered from the kept response, a seventeenth is discarded. -/
def inbandArrive (src : Src) (port : Nat) (tag : BitVec 32) (op : BitVec 16) (s : State) : State :=
  match s.nose.kept.find? (fun k => k.src == src && k.tag == tag && k.opcode == op) with
  | some k =>
    let s := count 0xD05 0 s
    match k.rsp with
    | some r => sendRsp port r s
    | none => s
  | none =>
    if s.nose.arrived.any (fun h => h.src == src && h.tag == tag && h.opcode == op) then count 0xD05 0 s
    else if outstanding src s ≥ 16 then count 0xD06 0 s
    else serveUndefined { s with nose := { s.nose with arrived := s.nose.arrived ++ [⟨src, tag, op⟩] } }

end Sys2Proof.Machine
end

