-- ==== Sys2Proof/Machine/TimeBase.lean ====
section
/-! DEFINITION. The time base: parameters, discipline, steps, the resampler ratio, time outputs and triggers (R308 to
R329). -/

namespace Sys2Proof.Machine
open Sys2Proof

/-! ## Parameters (R312) -/

/-- Every field of a time parameter word lies in its range and its reserved bits are zero. -/
def timeParOk (p : Nat) : Bool :=
  let inR (hi lo a b : Nat) : Bool := decide (a ≤ bits p hi lo) && decide (bits p hi lo ≤ b)
  inR 319 278 0 2621439999999 && inR 277 264 1 10000 && inR 263 244 100 1000000 && inR 243 230 10 10000
    && inR 229 224 1 60 && inR 223 207 1 86400 && inR 206 191 256 65535 && inR 190 183 24 43 && inR 179 161 1 500000
    && bits p 158 0 == 0

/-- TIME.CONFIG: legal values take effect at the next slot boundary; TB_FRAME_OFFSET changes in STANDBY only. -/
def timeConfig (params : BitVec 512) (s : State) : Reply × State :=
  if !timeParOk params.toNat then fails stBadField s
  else if s.nose.mode != .standby && bits params.toNat 319 278 != frameOffset s then fails stBadField s
  else accept .nextSlot (.timeConfig params) [] id s

/-- SILLAGE rejects TIME.CONFIG and TIME.STEP with ST_BAD_FIELD (R312, R321). -/
def timeModes (s : State) : Nat := if s.nose.mode == .sillage then stBadField else inModes modesYOL s

def execTimeConfig (h : Hdr) (params : BitVec 512) (s : State) : Host.Outcome State Fault Refusal :=
  .next (serve 0x2001 h timeModes (timeConfig params) s)

/-- RX_EXTRA and TX_EXTRA of a port, in 1/16 ns. -/
def rxExtra (s : State) (p : Nat) : Nat := timePar s (32 * p + 351) (32 * p + 336)
@[inherit_doc rxExtra] def txExtra (s : State) (p : Nat) : Nat := timePar s (32 * p + 335) (32 * p + 320)

/-! ## State changes (R317, R318) -/

/-- A signed number of 1/16 ns from nanoseconds. -/
def sixteenths (x : Rat) : Int := roundRat (x * 16)

/-- A signed payload field. -/
def sfld (w : Nat) (v : Int) : Fld := .num w (wrapN (8 * w) v)

/-- The TB enters a discipline state: the sums of the state restart, r is 0, and EV_TIME_STATE is raised on a change. -/
def setTbState (st : TbState) (s : State) : State :=
  let old := s.tb.st
  let s := { s with tb := { s.tb with
    st := st, slew := 0, slewSum := 0, psi := [], qual := [], secs := 0, big := 0, dev := 0, pathAnswer := 0 } }
  let s := if st == .holdover then
      count 0xA04 0 { s with tb := { s.tb with hold := 0, holdRaised := false } }
    else s
  if old == st then s
  else raiseEv 0x28 0xA [.num 1 (tbStateCode old), .num 1 (tbStateCode st), .num 6 0, sfld 8 (sixteenths s.tb.theta),
    sfld 8 (sixteenths s.tb.mpd)] s

/-- The states in which a master disciplines the TB. -/
def tbActive (s : State) : Bool :=
  s.tb.st == .acquiring || s.tb.st == .locked || s.tb.st == .pathHold || s.tb.st == .stepNeeded

/-- The master is lost or changed (R318). -/
def tbLose (s : State) : State := if tbActive s then setTbState .holdover s else s

/-- A master is selected: by the BMCA, or in SILLAGE the lead over TW (R366). -/
def followsLead (s : State) : Bool := s.nose.mode == .sillage || s.twn.pairing == some 2#8

/-- A master is selected. -/
def masterSelected (s : State) : Bool := if followsLead s then !s.twn.thetas.isEmpty else s.tb.port.isSome

/-! ## The close of a second (R316 to R320) -/

/-- A rational limited to ±lim. -/
def clampR (lim x : Rat) : Rat := if x < -lim then -lim else if x > lim then lim else x

/-- Absolute value. -/
def absR (x : Rat) : Rat := if x < 0 then -x else x

/-- The least-squares slope of numbered values. -/
def slope (l : List (Nat × Rat)) : Rat :=
  let xm := meanR (l.map (fun p => (p.1 : Rat)))
  let ym := meanR (l.map (fun p => p.2))
  let d := sumR (l.map (fun p => ((p.1 : Rat) - xm) * ((p.1 : Rat) - xm)))
  if d = 0 then 0 else sumR (l.map (fun p => ((p.1 : Rat) - xm) * (p.2 - ym))) / d

/-- Fc changes by −s/4 limited to the slew bound, and stays within ±250,000 ns/s (R317). -/
def fcUpdate (psi : Rat) (s : State) : State :=
  let hist := ((s.tb.secs, psi) :: s.tb.psi).filter (fun p => decide (s.tb.secs < p.1 + 16))
  let s := { s with tb := { s.tb with psi := hist } }
  if hist.length < 2 then s
  else
    let fc := s.tb.fc + clampR (timePar s 277 264) (-(slope hist) / 4)
    if absR fc > 250000 then
      raiseEv 0x2D 0xA [sfld 8 (roundRat (clampR 250000 fc * 65536))] { s with tb := { s.tb with fc := clampR 250000 fc } }
    else { s with tb := { s.tb with fc := fc } }

/-- r = clamp(−θ/8, ±TB_SLEW_LIMIT) (R317). -/
def setSlew (theta : Rat) (s : State) : State :=
  let lim : Rat := timePar s 277 264
  let s := { s with tb := { s.tb with slew := clampR lim (-theta / 8) } }
  if absR (theta / 8) > lim then count 0xA05 0 s else s

/-- The values of a second drive the state (R318 to R320). -/
def discipline (theta m : Rat) (s : State) : State :=
  let thr : Rat := timePar s 263 244
  let pstep : Rat := timePar s 243 230
  let psi := theta - s.tb.slewSum
  match s.tb.st with
  | .acquiring =>
    let q := s.tb.qual
    let q := if !q.isEmpty && decide (absR (m - meanR (q.map (fun e => e.2))) > pstep) then [] else q
    let q := (theta, m) :: q
    let s := fcUpdate psi { s with tb := { s.tb with qual := q } }
    let n := timePar s 229 224
    if q.length < n then s
    else if (q.take n).all (fun e => decide (absR e.1 ≤ thr)) then
      setSlew theta (setTbState .locked { s with tb := { s.tb with mref := meanR ((q.take n).map (fun e => e.2)) } })
    else if absR theta > thr then setTbState .stepNeeded s
    else s
  | .locked =>
    let big := if absR theta > thr then s.tb.big + 1 else 0
    let s := { s with tb := { s.tb with big := big } }
    if absR (m - s.tb.mref) > pstep then
      let before := if s.tb.dev = 0 then s.tb.fc else s.tb.fcBefore
      let s := { s with tb := { s.tb with dev := s.tb.dev + 1, fcBefore := before, slew := 0 } }
      if s.tb.dev ≥ 2 then
        let s := count 0xA03 0 { s with tb := { s.tb with fc := before } }
        let s := raiseEv 0x2A 0xA [sfld 8 (sixteenths s.tb.mref), sfld 8 (sixteenths m), sfld 8 (sixteenths theta)] s
        setTbState .pathHold s
      else if big ≥ 2 then
        setTbState .stepNeeded (raiseEv 0x29 0xA [sfld 8 (sixteenths theta)] s)
      else s
    else
      let s := { s with tb := { s.tb with dev := 0 } }
      if big ≥ 2 then setTbState .stepNeeded (raiseEv 0x29 0xA [sfld 8 (sixteenths theta)] s)
      else setSlew theta (fcUpdate psi s)
  | .pathHold =>
    if s.tb.pathAnswer = 0 then s
    else if absR theta ≤ thr then setSlew theta (setTbState .locked { s with tb := { s.tb with mref := m } })
    else setTbState .stepNeeded s
  | _ => s

/-- The nominal increment, 2^40 × 3,125 / 6,144. -/
def incNominal : Rat := mkRat (2 ^ 40 * 3125) 6144

/-- The increment for a frequency correction and a slew term (R317). -/
def incFor (f : Rat) : BitVec 48 := BitVec.ofInt 48 (roundRat (incNominal * (1 + f * mkRat 1 1000000000)))

/-- An asymmetry set by the host applies from this second (R316, R319). -/
def applyAsymmetry (s : State) : State :=
  let answered := s.tb.st == .pathHold && (match s.tb.port with
    | some p => ((s.tb.ptp[p.val]?).bind (fun q => q.asymNext)).isSome
    | none => false)
  { s with tb := { s.tb with
    ptp := s.tb.ptp.map (fun p => { p with asym := p.asymNext.getD p.asym, asymNext := none })
    pathAnswer := if answered then 1 else s.tb.pathAnswer } }

/-- A pulse output rises now and is due to fall `w40` later. -/
def pulseRise (pin : PinOut) (level : Bool) (at_ w40 : Int) (s : State) : State :=
  emit (.pulse pin level at_) { s with tb := { s.tb with pulses := s.tb.pulses.filter (fun p => p.1 != pin) ++ [(pin, at_ + w40)] } }

/-- The modes in which the time outputs are driven (R325). -/
def timePinsOn (s : State) : Bool := s.nose.mode == .standby || inService s

/-- One second in 2^-40 ns. -/
def sec40 : Int := 1000000000 * 2 ^ 40

/-- The full time comes to the next whole second, unless a boundary lies before it. -/
def toWholeSecond (s : State) : State :=
  let t := ceilDivI s.tb.t40 (1000000000 * 2 ^ 40) * sec40
  if s.tb.run && decide (t ≤ s.tb.nextT) then advanceToTime t s else s

/-- The Nose closes a second: the values of its exchanges drive the discipline, the increment is written, and pps_out
rises (R316, R317, R325). -/
def secondClose (s : State) : State :=
  if !s.tb.run then s
  else
    let s := toWholeSecond s
    let s := { s with tb := { s.tb with secs := s.tb.secs + 1, slewSum := s.tb.slewSum + s.tb.slew } }
    let lead := followsLead s
    let vals := if lead then s.twn.thetas.map (fun t => (t, mkRat s.twn.dTw 16)) else s.tb.values
    let selected := masterSelected s
    let theta := meanR (vals.map (fun v => v.1))
    let m := meanR (vals.map (fun v => v.2))
    let s := if vals.isEmpty then
        -- a second without values breaks the run of qualification seconds
        { s with tb := { s.tb with qual := [] } }
      else discipline theta m { s with tb := { s.tb with theta := theta, mpd := m } }
    let s := if selected && (s.tb.st == .free || s.tb.st == .holdover) then setTbState .acquiring s else s
    let s := if lead && !vals.isEmpty && decide (absR theta > 250) && s.nose.mode == .sillage then goUnfit 5 s else s
    let s := applyAsymmetry { s with
      tb := { s.tb with values := [], hold := if s.tb.st == .holdover then s.tb.hold + 1 else s.tb.hold }
      twn := { s.twn with thetas := [] } }
    let fc := if s.tb.st == .free then 0 else s.tb.fc
    let r := if s.tb.st == .locked then s.tb.slew else 0
    let s := { s with tb := { s.tb with inc := incFor (fc + r) } }
    if timePinsOn s then
      pulseRise .pps true (s.tb.t40 / sec40 * sec40) (timePar s 179 161 * 1000 * 2 ^ 40) s
    else s

def execSecondClose (s : State) : Host.Outcome State Fault Refusal := .next (secondClose s)

/-- TB_HOLDOVER_LIMIT seconds have passed in HOLDOVER: the event is raised once (R318). -/
def holdoverLimit (s : State) : State :=
  if s.tb.st == .holdover && !s.tb.holdRaised then
    raiseEv 0x2C 0xA [.num 4 (Nat.max s.tb.hold (timePar s 223 207))] { s with tb := { s.tb with holdRaised := true } }
  else s

def execHoldoverLimit (s : State) : Host.Outcome State Fault Refusal := .next (holdoverLimit s)

/-! ## Triggers and pulses (R325 to R327) -/

/-- TRIGGER.ARM. -/
def triggerArm (pin pol : BitVec 8) (count : BitVec 16) (width : BitVec 32) (t : TInst) (period : BitVec 64) (s : State) :
    Reply × State :=
  let w := width.toNat
  let p := period.toNat
  if pin.toNat > 7 || pol.toNat > 1 || w < 8 || w > 1000000 || !tinstOk t
      || !(p = 0 || (2 * w ≤ p && p ≤ 10000000000)) then fails stBadField s
  else if checkT (tinst16 t) s ≠ stOk then fails (checkT (tinst16 t) s) s
  else
    let tr : Trigger := ⟨tinst16 t * 2 ^ 36, w, p, count.toNat, pol == 1#8, 0⟩
    okWith [] { s with tb := { s.tb with triggers := FMap.set s.tb.triggers pin.toNat tr } }

def execTriggerArm (h : Hdr) (pin pol : BitVec 8) (count : BitVec 16) (width : BitVec 32) (t : TInst) (period : BitVec 64)
    (s : State) : Host.Outcome State Fault Refusal :=
  .next (serve 0x2101 h (inModes modesYOLM) (triggerArm pin pol count width t period) s)

/-- TRIGGER.DISARM ends what is armed on a pin. -/
def triggerDisarm (pin : BitVec 8) (s : State) : Reply × State :=
  if pin.toNat > 7 then fails stBadField s
  else okWith [] { s with tb := { s.tb with triggers := FMap.erase s.tb.triggers pin.toNat } }

def execTriggerDisarm (h : Hdr) (pin : BitVec 8) (s : State) : Host.Outcome State Fault Refusal :=
  .next (serve 0x2102 h (inModes modesYOLM) (triggerDisarm pin) s)

/-- The next pulse of an armed trigger starts, at T plus its number times the period (R326). -/
def triggerPulse (k : Fin 8) (s : State) : State :=
  match FMap.find s.tb.triggers k.val with
  | none => s
  | some tr =>
    let at_ := tr.t + (tr.done * tr.period : Nat) * 2 ^ 40
    let s := if at_ ≤ s.tb.nextT then advanceToTime at_ s else s
    let last := tr.period = 0 || tr.done + 1 = tr.count
    let trs := if last then FMap.erase s.tb.triggers k.val
      else FMap.set s.tb.triggers k.val { tr with done := tr.done + 1 }
    let s := { s with tb := { s.tb with triggers := trs } }
    if timePinsOn s then pulseRise (.trig k) (!tr.low) at_ (tr.width * 2 ^ 40) s else s

def execTriggerPulse (pin : Fin 8) (s : State) : Host.Outcome State Fault Refusal := .next (triggerPulse pin s)

/-- A pulse output returns to its idle level at the end of its high time (R325, R326). The idle level of a low pulse is
the opposite of the level it was driven to. -/
def pulseEnd (pin : PinOut) (s : State) : State :=
  match s.tb.pulses.find? (fun p => p.1 == pin) with
  | none => s
  | some (_, t) =>
    let level := (s.outs.findSome? (fun o => match o with
      | .pulse q l _ => if q == pin then some l else none
      | _ => none)).getD true
    let s := if t ≤ s.tb.nextT then advanceToTime t s else s
    emit (.pulse pin (!level) t) { s with tb := { s.tb with pulses := s.tb.pulses.filter (fun p => p.1 != pin) } }

def execTimeOutputPulseEnd (pin : PinOut) (s : State) : Host.Outcome State Fault Refusal := .next (pulseEnd pin s)

/-! ## Asymmetry and status -/

/-- TIME.ASYMMETRY: stored; used from the next whole second (R319, R320). -/
def timeAsymmetry (port : BitVec 8) (a : BitVec 64) (s : State) : Reply × State :=
  if port.toNat > 1 || a.toInt < -16000000 || a.toInt > 16000000 then fails stBadField s
  else okWith [] { s with tb := { s.tb with
    ptp := s.tb.ptp.modify port.toNat (fun p => { p with asymNext := some a.toInt }) } }

def execTimeAsymmetry (h : Hdr) (port : BitVec 8) (a : BitVec 64) (s : State) : Host.Outcome State Fault Refusal :=
  .next (serve 0x2003 h (inModes modesYOL) (timeAsymmetry port a) s)

/-- A(p) of a host port, 1/16 ns. -/
def asymOf (s : State) (p : Nat) : Int := (s.tb.ptp[p]?).elim 0 (fun q => q.asym)

/-- TIME.STATUS (R328). The manual gives PORT no value for "none": a free value then. -/
def timeStatus (s : State) : Reply × State :=
  let ft := fullTime s.tb.t40
  let fv := freeVal 1 s
  let port := match s.tb.port with
    | some p => (p.val, s)
    | none => (wrapN 8 fv.1, fv.2)
  let s := port.2
  okWith [.num 1 (tbStateCode s.tb.st), .num 1 port.1, .num 2 s.tb.epoch.toNat, .num 1 s.tb.gmClass.toNat, .num 3 0,
    .num 6 ft.1.toNat, .num 4 ft.2.1.toNat, .num 2 (ft.2.2 / 2 ^ 36), .num 9 (tbCounter s).toNat, .num 7 0,
    sfld 8 (sixteenths s.tb.theta), sfld 8 (sixteenths s.tb.mpd), sfld 8 (sixteenths s.tb.mref),
    sfld 8 (roundRat (s.tb.fc * 65536)), sfld 8 (roundRat (s.tb.slew * 65536)), .num 6 s.tb.inc.toNat, .num 2 0,
    .num 8 s.tb.gm.toNat, sfld 8 (asymOf s 0), sfld 8 (asymOf s 1), .num 6 s.tb.ratio.toNat, .num 2 0] s

def execTimeStatus (h : Hdr) (s : State) : Host.Outcome State Fault Refusal :=
  .next (serve 0x2004 h (inModes modesYOLM) timeStatus s)

/-! ## Steps (R321 to R323, R327) -/

/-- Δ of a TIME.STEP in 1/16 ns. -/
def stepDelta (sixteenths' : BitVec 16) (ns : BitVec 32) (seconds : BitVec 48) : Int :=
  (seconds.toInt * 1000000000 + ns.toNat) * 16 + sixteenths'.toNat

/-- Δ is added to every held stamp (R322); `d` in 1/16 ns. -/
def shiftStamps (d : Int) (s : State) : State :=
  let d40 := d * 2 ^ 36
  { s with
    nose := { s.nose with leaseAt := s.nose.leaseAt + d40, msixAt := s.nose.msixAt.map (· + d40) }
    boot := { s.boot with thermalAt := s.boot.thermalAt.map (· + d40) }
    tb := { s.tb with
      openT := s.tb.openT + d40, bounds := s.tb.bounds.map (· + d)
      ptp := s.tb.ptp.map (fun p => { p with
        announce := p.announce.map (fun a => (a.1, a.2.1, a.2.2 + d)), req := p.req.map (fun r => (r.1, r.2 + d))
        sync := none, exchange := none }) }
    lnk := { s.lnk with
      lanes := s.lnk.lanes.map (fun l => (l.1, { l.2 with
        ta := l.2.ta + d, last := l.2.last.map (· + d), twinTa := l.2.twinTa.map (· + d) }))
      trainAt := s.lnk.trainAt.map (· + d), align := s.lnk.align.map (fun a => (a.1 + d, a.2)) }
    sq := { s.sq with
      windows := s.sq.windows.map (fun w => { w with items := w.items.map (fun i => { i with stamp := i.stamp + d }) })
      shadow := s.sq.shadow.map (fun w => { w with items := w.items.map (fun i => { i with stamp := i.stamp + d }) }) }
    fhp := { s.fhp with ports := s.fhp.ports.map (fun p => (p.1, { p.2 with request := p.2.request.map (fun r => (r.1, r.2 + d)) })) }
    mem := { s.mem with
      lastReq := s.mem.lastReq + d40
      pcs := s.mem.pcs.map (fun p => (p.1, { p.2 with queue := p.2.queue.map (fun r => { r with at_ := r.at_ + d40 }) })) }
    pins := { s.pins with aliveEdge := s.pins.aliveEdge.map (· + d40) } }

/-- What a step disarms (R327). -/
def disarmAtStep (s : State) : State :=
  let pins := s.tb.triggers.foldl (fun a p => a + 2 ^ p.1) 0
  let align := match s.lnk.align with
    | some (_, _, _, started) => !started
    | none => false
  let s := { s with
    tb := { s.tb with triggers := [] }
    lnk := { s.lnk with align := if align then none else s.lnk.align } }
  if pins = 0 && !align then s
  else raiseEv 0x2E 0xA [.num 1 pins, .num 1 (if align then 1 else 0)] s

/-- The counter moves by Δ (1/16 ns): held stamps follow, triggers are disarmed, a negative Δ advances the epoch, and
the discipline restarts where a master is selected (R318, R322, R323). -/
def stepTime (d : Int) (s : State) : State :=
  let s := shiftStamps d s
  let s := count 0xA02 0 { s with tb := { s.tb with t40 := s.tb.t40 + d * 2 ^ 36 } }
  let s := if d < 0 then
      let e := s.tb.epoch + 1
      raiseEv 0x2B 0xA [.num 2 e.toNat, .num 2 0, .num 2 (wrapN 4 d), .num 4 ((d / 16) % 1000000000).toNat,
        sfld 6 (d / 16 / 1000000000)] { s with tb := { s.tb with epoch := e } }
    else s
  let s := disarmAtStep s
  if masterSelected s then setTbState .acquiring s else s

/-- A step in STANDBY applies before the response; the open beat closes at the first boundary of the new timeline. -/
def stepNow (d : Int) (s : State) : State :=
  let s := stepTime d s
  let lin := linAt12 (s.tb.t40 * 12 / 2 ^ 40 - 12 * (frameOffset s : Int))
  { s with tb := { s.tb with nextT := boundaryT s (lin + 1) } }

/-- The accepted time of an effect of a kind, if any. -/
def schedAt (f : Act → Bool) (s : State) : Option Stamp :=
  s.nose.sched.findSome? (fun e => match e.when with
    | .at b => if f e.act then some b else none
    | _ => none)

/-- The effect is a TIME.STEP; a FORMULA.ACTIVATE. -/
def isStep : Act → Bool
  | .timeStep _ => true
  | _ => false
@[inherit_doc isStep] def isActivate : Act → Bool
  | .formulaActivate => true
  | _ => false

/-- What a TIME.STEP for boundary S must meet besides its fields (R321, R322). -/
def checkTimeStep (b : Stamp) (s : State) : Nat :=
  let c := checkSZero b s
  if c ≠ stOk then c
  else match schedAt isActivate s with
    | some a => if precedes b a && s.nose.mode != .standby then stBusy else stOk
    | none => stOk

/-- TIME.STEP: in STANDBY at once, otherwise at S; a second one replaces the first. -/
def timeStep (h : Hdr) (b : Stamp) (sixteenths' : BitVec 16) (ns : BitVec 32) (seconds : BitVec 48) (s : State) : Reply × State :=
  if ns.toNat ≥ 1000000000 || sixteenths'.toNat ≥ 16 then fails stBadField s
  else
    let c := checkTimeStep b s
    if c ≠ stOk then fails c s
    else
      let d := stepDelta sixteenths' ns seconds
      if s.nose.mode == .standby then acceptPair 0x2002 h .now (.timeStep d) [] (stepNow d) s
      else
        let s' := { s with nose := { s.nose with sched := s.nose.sched.filter (fun e => !isStep e.act) } }
        acceptPair 0x2002 h (.at b) (.timeStep d) [] id (if s.nose.mode == .lead then s else s')

def execTimeStep (h : Hdr) (b : Stamp) (sixteenths' : BitVec 16) (ns : BitVec 32) (seconds : BitVec 48) (s : State) :
    Host.Outcome State Fault Refusal :=
  .next (serve 0x2002 h timeModes (timeStep h b sixteenths' ns seconds) s)

/-! ## The resampler ratio (R324) -/

/-- The initial ratio. -/
def initialRatio (s : State) : Int := roundRat (mkRat (2 ^ 40 * (s.lnk.fs : Int)) 491520)

/-- The ratio from the reference lane's boundaries, `none` where the previous one is repeated. -/
def measuredRatio (s : State) : Option Int :=
  let k := timePar s 206 191
  let limit := s.tb.openT / 2 ^ 36 + ((65536 + s.tb.shift) * s.tb.inc.toNat : Nat) / 2 ^ 36
  let b := s.tb.bounds.dropWhile (fun t => decide (t ≥ limit))
  match b.head?, b[k]? with
  | some t0, some tk =>
    if t0 ≤ tk then none
    else
      let r := roundDiv (2 ^ 40 * 6250 * (k : Int)) (3 * (t0 - tk).toNat)
      if (r - initialRatio s).natAbs * 1000000 > 200 * (initialRatio s).natAbs then none else some r
  | _, _ => none

/-- A ratio applies from the boundary of beat `lin` on. -/
def setRatio (lin : Nat) (r : BitVec 48) (s : State) : State :=
  { s with tb := { s.tb with ratio := r, ratios := ((lin, r) :: s.tb.ratios.filter (fun p => p.1 != lin)).take 64 } }

/-- The RATIO verdict for the next beat, formed at close-out. In SILLAGE the lead's verdict applies (R48). -/
def formRatio (s : State) : State :=
  let m := measuredRatio s
  let s := if m.isNone then count 0xA06 0 s else s
  let r := match m with
    | some v => BitVec.ofInt 48 v
    | none => s.tb.ratio
  let s := if s.nose.mode == .sillage then s else setRatio (s.tb.lin + 1) r s
  makeVerdict 0x05 0xA (stampOfLin (s.tb.lin + 1)) r.toNat s

/-- The ratio in force in a beat: that of the newest RATIO verdict not after it. -/
def ratioAt (s : State) (lin : Nat) : BitVec 48 :=
  match s.tb.ratios.find? (fun p => decide (p.1 ≤ lin)) with
  | some p => p.2
  | none => BitVec.ofInt 48 (initialRatio s)

end Sys2Proof.Machine
end

