-- ==== Sys2Proof/Machine/Efe.lean ====
section
/-! DEFINITION. The element front end and the canceller's nonlinear stage: both sample chains of an element, zeroing,
settling, and FILTER.READ (R88 to R111, R138, R139). -/

namespace Sys2Proof.Machine
open Sys2Proof

/-! ## Filters -/

/-- A filter over a history, newest sample first: exact sums and whether a missing sample took part. -/
def fir (h : Nat → Int) : Nat → Nat → List Samp → Int → Int → Bool → Int × Int × Bool
  | _, _, [], a, b, m => (a, b, m)
  | i, n, x :: t, a, b, m => if i ≥ n then (a, b, m) else fir h (i + 1) n t (a + h i * x.i) (b + h i * x.q) (m || x.miss)

/-- Narrow a complex value to Q1.23: fraction bits removed, saturated; with the number of saturated parts. -/
def narrow24 (f : Nat) (i q : Int) (miss : Bool) : Samp × Nat :=
  let a := roundConv i f
  let b := roundConv q f
  (⟨satI 24 a, satI 24 b, miss⟩, satCount 24 a + satCount 24 b)

/-- The product of two polynomials. -/
def polyMul (a b : List Int) : List Int :=
  (List.range (a.length + b.length - 1)).map (fun k =>
    sumI ((List.range (k + 1)).map (fun i => a.getD i 0 * b.getD (k - i) 0)))

/-- The impulse response of an N-fold running sum of D samples: a CIC without its decimation (R95). -/
def boxPow (d : Nat) : Nat → List Int
  | 0 => [1]
  | n + 1 => polyMul (boxPow d n) (List.replicate d 1)

/-- Order of the CIC of an FFT code, log2 of its factor (R95). -/
def cicOrder (fft : Nat) : Nat := if fft = 1 then 3 else if fft = 2 then 4 else 5
@[inherit_doc cicOrder] def cicLog (fft : Nat) : Nat := 2 + fft

/-- The zero sample. -/
def samp0 : Samp := ⟨0, 0, false⟩

/-! ## Beats of sample indexes (R91) -/

/-- The beat that holds an absolute 491.52 MSa/s sample index, and the index in it. -/
def beatOfSample (a : Nat) : Nat × Nat :=
  let r := a % 245760
  if r < 17792 then (a / 245760 * 14, r) else (a / 245760 * 14 + 1 + (r - 17792) / 17536, (r - 17792) % 17536)

/-- A 40-bit wrapped index next to an unwrapped one (R102). -/
def unwrap40 (w near : Nat) : Nat :=
  let d := (w + 2 ^ 40 - near % 2 ^ 40) % 2 ^ 40
  if d < 2 ^ 39 then near + d else near + d - 2 ^ 40

/-! ## Settings (R103, R104) -/

/-- Settings in force at a beat. -/
def efeSetAt (l : List (Nat × EfeSet)) (lin : Nat) : EfeSet :=
  (l.find? (fun e => decide (e.1 ≤ lin))).elim ⟨[], []⟩ (fun e => e.2)

/-- Carriers in use in a direction. -/
def efeCarriers (st : EfeSet) (ul : Bool) : List Nat :=
  (List.range 4).filter (fun c => (st.carriers[c]?).any (fun x => x.enable && (if ul then x.ulEn else x.dlEn)))

/-- Carrier entry and parameters of a setting. -/
def efeCar (st : EfeSet) (c : Nat) : Carrier := st.carriers.getD c ⟨false, false, false, false, 0, false, 0, 0, 0⟩
@[inherit_doc efeCar] def efeParOf (st : EfeSet) (c : Nat) : EfePar := st.par.getD c {}

/-- The mixing phase of sample `k` of a beat (R93). -/
def mixPhase (freq : Int) (lin k : Nat) : Nat :=
  let cp : Int := if isSlotBeat lin then 1408 else 1152
  ((freq * ((k : Int) - cp)) % 32768).toNat

/-! ## The resampler (R92) -/

/-- Sample with unwrapped index `n` of a history that starts at `base`, zero outside it. -/
def histAt (hist : List Samp) (base : Nat) (n : Int) : Samp :=
  if n < base then samp0 else hist.getD (n - base).toNat samp0

/-- Integer part and phase of a position (R92). -/
def resampleAt (x : Nat) : Nat × Nat :=
  let j := (roundConv (x % 2 ^ 40 : Nat) 30).toNat
  if j = 1024 then (x / 2 ^ 40 + 1, 0) else (x / 2 ^ 40, j)

/-- The resampler output at integer part `m` (unwrapped) and phase `j`. -/
def resample (hist : List Samp) (base m j : Nat) : Samp × Nat :=
  let x := (List.range 16).map (fun (i : Nat) => histAt hist base ((m : Int) - 7 + (i : Int)))
  let r := fir (Config.protoCoef j) 0 16 x 0 0 false
  narrow24 17 r.1 r.2.1 r.2.2

/-! ## The nonlinear stage (R138, R139) -/

/-- The 8 basis samples and the number of parts saturated in forming them. -/
def nlBasis (x : Cplx) : List Cplx × Nat :=
  let p := roundConv (x.i * x.i + x.q * x.q) 23
  let m2 := if p > 8388607 then 8388607 else p
  let m4 := roundConv (m2 * m2) 23
  let m6 := roundConv (m4 * m2) 23
  let by_ (m : Int) : Cplx := ⟨roundConv (x.i * m) 23, roundConv (x.q * m) 23⟩
  let conj (c : Cplx) : Cplx := ⟨c.i, satI 24 (-c.q)⟩
  let csat (c : Cplx) : Nat := satCount 24 (-c.q)
  let b2 := by_ m2
  let b4 := by_ m4
  let b6 := by_ m6
  ([x, conj x, b2, conj b2, b4, conj b4, b6, conj b6],
    (if p > 8388607 then 1 else 0) + csat x + csat b2 + csat b4 + csat b6)

/-- Reference sample of element `e` at an absolute index: stage 5 of its transmit chain (R138). -/
def refSample (s : State) (e a : Nat) : Cplx :=
  match FMap.find s.efe.tx e with
  | some t => if a < t.base then ⟨0, 0⟩ else t.x5.getD (a - t.base) ⟨0, 0⟩
  | none => ⟨0, 0⟩

/-- Coefficients of the nonlinear stage that apply to a beat (R149). -/
def nlCoef (s : State) (e lin : Nat) : FMap Cplx :=
  match FMap.find s.sic.nl e with
  | some n => ((n.next.find? (fun p => decide (p.1 ≤ lin))).map (fun p => p.2)).getD n.w
  | none => []

/-- SIC parameters of instance `c`. -/
def sicPar (s : State) (c : Nat) : SicPar := (s.frm.active.bind (fun f => f.sic[c]?)).getD {}

/-- The nonlinear stage is active. -/
def nlOn (s : State) : Bool := (s.frm.active.any (fun f => f.sbfd)) && (sicPar s 0).nlEn

/-- r[k] of a sample at absolute index `a` of beat `lin`, and the saturated parts. -/
def nlStage (s : State) (e lin a : Nat) (x : Samp) : Samp × Nat :=
  if !nlOn s then (x, 0)
  else
    let lead := (sicPar s 0).nlLead
    let w := nlCoef s e lin
    let sum := (List.range 4).foldl (fun (acc : Int × Int) t =>
      let b := (nlBasis (refSample s e (a + lead - t))).1
      b.zipIdx.foldl (fun acc p =>
        let c := FMap.get ⟨0, 0⟩ w (4 * p.2 + t)
        (acc.1 + c.i * p.1.i - c.q * p.1.q, acc.2 + c.i * p.1.q + c.q * p.1.i)) acc) (0, 0)
    let i := x.i - roundConv sum.1 22
    let q := x.q - roundConv sum.2 22
    (⟨satI 24 i, satI 24 q, x.miss⟩,
      (nlBasis (refSample s e (a + lead))).2 + satCount 24 i + satCount 24 q)

/-! ## The receive chain of one carrier (R93, R95, R96, R98, R108) -/

/-- A receive chain with nothing in it. -/
def efeRxCReset : EfeRxC := ⟨[], [], [], 0, [], 0, []⟩

/-- Stage 5: the decimated sample that sample index `k` completes, if it completes one; histories and saturations. -/
def decimate (fft k : Nat) (x : Samp) (rc : EfeRxC) : Option Samp × EfeRxC × Nat :=
  if fft = 0 then
    let rc := { rc with h1 := (x :: rc.h1).take 15 }
    if k % 2 != 0 then (none, rc, 0)
    else
      let r := fir Config.hb1Coef 0 15 rc.h1 0 0 false
      let y := narrow24 17 r.1 r.2.1 r.2.2
      let rc := { rc with h2 := (y.1 :: rc.h2).take 39 }
      if k % 4 != 0 then (none, rc, y.2)
      else
        let r := fir Config.hb2Coef 0 39 rc.h2 0 0 false
        let z := narrow24 17 r.1 r.2.1 r.2.2
        (some z.1, rc, y.2 + z.2)
  else
    let n := cicOrder fft
    let lg := cicLog fft
    let box := boxPow (2 ^ lg) n
    let rc := { rc with h1 := (x :: rc.h1).take box.length }
    if k % 2 ^ lg != 0 then (none, rc, 0)
    else
      let r := fir (fun i => box.getD i 0) 0 box.length rc.h1 0 0 false
      let z := narrow24 (n * lg) r.1 r.2.1 r.2.2
      (some z.1, rc, z.2)

/-- A carrier sample joins its air beat; a complete beat becomes ready (R98, R108, R110). -/
def collect (b0 : Nat) (car : Carrier) (y : Samp) (rc : EfeRxC) : EfeRxC :=
  let n := rc.n
  let rc := { rc with n := n + 1 }
  if n < advanceOf car then rc
  else
    let settling := rc.curBeat == b0 && decide (rc.cur.length < settleOf car)
    let y := if settling then ⟨0, 0, true⟩ else y
    let cur := y :: rc.cur
    if cur.length < fftLen car + cpLen car rc.curBeat then { rc with cur := cur }
    else
      let l := cur.reverse
      { rc with
        cur := [], curBeat := rc.curBeat + 1
        ready := rc.ready ++ [(rc.curBeat, l.map (fun x => ⟨x.i, x.q⟩), l.any (fun x => x.miss))] }

/-- Stages 4 to 7 for one 491.52 MSa/s sample; the saturated parts beside the chain. -/
def rxCarrier (st : EfeSet) (b0 c lin k : Nat) (x : Samp) (rc : EfeRxC) : EfeRxC × Nat :=
  let car := efeCar st c
  let par := efeParOf st c
  let ph := mixPhase par.freq lin k
  let m := narrow24 17 (x.i * mixC ph + x.q * mixS ph) (x.q * mixC ph - x.i * mixS ph) x.miss
  let d := decimate car.fft.val k m.1 rc
  match d.1 with
  | none => (d.2.1, m.2 + d.2.2)
  | some y =>
    let rc := { d.2.1 with h3 := (y :: d.2.1.h3).take (tapsOf car) }
    let r := fir (Config.respCoef (respSet car)) 0 (tapsOf car) rc.h3 0 0 false
    let z := narrow24 19 r.1 r.2.1 r.2.2
    let g := narrow24 14 (z.1.i * par.rxGain) (z.1.q * par.rxGain) z.1.miss
    (collect b0 car g.1 rc, m.2 + d.2.2 + z.2 + g.2)

/-! ## The receive chain of one element -/

/-- A receive front end with nothing in it. -/
def efeRxReset : EfeRx := ⟨none, false, 0, 0, 0, 0, [], 0, []⟩

/-- Receive front end of an element. -/
def rxOf (s : State) (e : Nat) : EfeRx := FMap.get efeRxReset s.efe.rx e

/-- Receive front end of an element replaced. -/
def rxSetE (e : Nat) (r : EfeRx) (s : State) : State :=
  { s with efe := { s.efe with rx := FMap.put efeRxReset s.efe.rx e r } }

/-- One output sample of stage 2 goes through the later stages; position and beat advance. -/
def rxOutput (e : Nat) (x : Samp) (s : State) : State :=
  let r := rxOf s e
  let a := sampleBase r.beat + r.k
  let nl := nlStage s e r.beat a x
  let st := efeSetAt s.efe.rxSet r.beat
  let one (s : State) (c : Nat) : State :=
    let y := rxCarrier st r.b0 c r.beat r.k nl.1 (FMap.get efeRxCReset s.efe.rxc (4 * e + c))
    let s := { s with efe := { s.efe with rxc := FMap.set s.efe.rxc (4 * e + c) y.1 } }
    countBy 0x100 e y.2 s
  let s := (efeCarriers st true).foldl one s
  let s := countBy 0x301 e nl.2 s
  let snaps := if nlOn s && decide (1408 ≤ r.k) && decide (r.k ≤ 1663) then
      FMap.modify [] (r.snaps.filter (fun p => decide (r.beat < p.1 + 5))) r.beat (fun l => l ++ [(x, nl.1)])
    else r.snaps
  let last := r.k + 1 = beatSamples r.beat
  rxSetE e { r with
    x := r.x + (ratioAt s r.beat).setWidth 80
    beat := if last then r.beat + 1 else r.beat
    k := if last then 0 else r.k + 1
    snaps := snaps } s

/-- DIGITAL loopback of an element in a loop run: stage 5 of its transmit chain replaces stage 2 (R439). -/
def digitalLoop (s : State) (e : Nat) : Bool := s.frm.loopRun.isSome && FMap.get 0 s.tst.loop e == 4

/-- Output samples whose converter samples have arrived are produced. -/
def rxDrain (e : Nat) : Nat → State → State
  | 0, s => s
  | fuel + 1, s =>
    let r := rxOf s e
    if !r.run then s
    else
      let p := resampleAt r.x.toNat
      let m := unwrap40 (p.1 % 2 ^ 40) r.base
      if r.base + r.hist.length ≤ m + 8 then s
      else
        let y := resample r.hist r.base m p.2
        let s := countBy 0x100 e y.2 s
        let x : Samp := if digitalLoop s e then
            let c := refSample s e (sampleBase r.beat + r.k)
            ⟨c.i, c.q, false⟩
          else y.1
        rxDrain e fuel (rxOutput e x s)

/-- Samples of a lane enter the front end. Of the history only what a later output can need is kept. -/
def efeInput (e : Nat) (l : List Samp) (s : State) : State :=
  let r := rxOf s e
  let s := rxSetE e { r with hist := r.hist ++ l } s
  let s := rxDrain e 1024 s
  let r := rxOf s e
  let keep := if r.run then unwrap40 (r.x.toNat / 2 ^ 40) r.base - 16 else r.base + r.hist.length - 32
  if keep ≤ r.base then s else rxSetE e { r with hist := r.hist.drop (keep - r.base), base := keep } s

/-! ## The transmit chain (R100, R101) -/

/-- A transmit chain with nothing in it. -/
def efeTxCReset : EfeTxC := ⟨[], [], [], [], 0⟩
@[inherit_doc efeTxCReset] def efeTxReset : EfeTx := ⟨false, 0, 0, [], 0⟩

/-- Transmit front end of an element. -/
def txOf (s : State) (e : Nat) : EfeTx := FMap.get efeTxReset s.efe.tx e

/-- Transmit front end of an element replaced. -/
def txSetE (e : Nat) (t : EfeTx) (s : State) : State := { s with efe := { s.efe with tx := FMap.put efeTxReset s.efe.tx e t } }

/-- One zero-stuffed interpolation by 2 with gain 2: both outputs, from a history of inputs, newest first. -/
def interp2 (h : Nat → Int) (taps : Nat) (hist : List Samp) : List Samp × Nat :=
  let one (ph : Nat) : Samp × Nat :=
    let r := fir (fun i => 2 * h (2 * i + ph)) 0 ((taps + 1 - ph) / 2) hist 0 0 false
    narrow24 17 r.1 r.2.1 r.2.2
  let a := one 0
  let b := one 1
  ([a.1, b.1], a.2 + b.2)

/-- Stage 3 for one carrier-rate sample: its 491.52 MSa/s outputs, histories and saturations. -/
def interpolate (fft : Nat) (x : Samp) (tc : EfeTxC) : List Samp × EfeTxC × Nat :=
  if fft = 0 then
    let h2 := (x :: tc.h2).take 20
    let a := interp2 Config.hb2Coef 39 h2
    let r := a.1.foldl (fun (p : List Samp × List Samp × Nat) y =>
      let h3 := (y :: p.2.1).take 8
      let b := interp2 Config.hb1Coef 15 h3
      (p.1 ++ b.1, h3, p.2.2 + b.2)) ([], tc.h3, a.2)
    (r.1, { tc with h2 := h2, h3 := r.2.1 }, r.2.2)
  else
    let n := cicOrder fft
    let lg := cicLog fft
    let d := 2 ^ lg
    let box := boxPow d n
    let h2 := (x :: tc.h2).take (n + 1)
    let outs := (List.range d).map (fun ph =>
      let r := fir (fun i => box.getD (d * i + ph) 0) 0 (n + 1) h2 0 0 false
      narrow24 ((n - 1) * lg) r.1 r.2.1 false)
    (outs.map (fun y => y.1), { tc with h2 := h2 }, sumN (outs.map (fun y => y.2)))

/-- One sample of the transform goes through stages 1 to 3 of a carrier. -/
def txCarrier (car : Carrier) (par : EfePar) (x : Cplx) (tc : EfeTxC) : List Samp × EfeTxC × Nat :=
  let g := narrow24 14 (x.i * par.txGain) (x.q * par.txGain) false
  let tc := { tc with h1 := (g.1 :: tc.h1).take (tapsOf car) }
  let r := fir (Config.respCoef (respSet car)) 0 (tapsOf car) tc.h1 0 0 false
  let z := narrow24 19 r.1 r.2.1 false
  let o := interpolate car.fft.val z.1 tc
  (o.1, o.2.1, g.2 + z.2 + o.2.2)

/-- Stage 4 of a sample at an absolute index. -/
def txMix (s : State) (c a : Nat) (x : Samp) : Cplx × Nat :=
  let b := beatOfSample a
  let ph := mixPhase (efeParOf (efeSetAt s.efe.txSet b.1) c).freq b.1 b.2
  let m := narrow24 17 (x.i * mixC ph - x.q * mixS ph) (x.q * mixC ph + x.i * mixS ph) false
  (⟨m.1.i, m.1.q⟩, m.2)

/-- Stage 5: samples are combined as far as every carrier in use has them. A carrier removed under R73 adds nothing. -/
def txCombine (e : Nat) (late : BitVec 4) (s : State) : State :=
  let t := txOf s e
  let next := t.base + t.x5.length
  let cs := efeCarriers (efeSetAt s.efe.txSet (beatOfSample next).1) false
  let chain (c : Nat) : EfeTxC := FMap.get efeTxCReset s.efe.txc (4 * e + c)
  let upto := (minN (cs.map (fun c => (chain c).base + (chain c).out.length))).getD next
  let outs := (List.range (upto - next)).map (fun i =>
    let a := next + i
    let sum := cs.foldl (fun (p : Int × Int) c =>
      let tc := chain c
      let v := if late.getLsbD c || a < tc.base then ⟨0, 0⟩ else tc.out.getD (a - tc.base) ⟨0, 0⟩
      (p.1 + v.i, p.2 + v.q)) (0, 0)
    ((⟨satI 24 sum.1, satI 24 sum.2⟩ : Cplx), satCount 24 sum.1 + satCount 24 sum.2))
  let all := t.x5 ++ outs.map (fun o => o.1)
  let cut := all.length - 90000
  let s := txSetE e { t with x5 := all.drop cut, base := t.base + cut } s
  let s := cs.foldl (fun s c =>
    let tc := FMap.get efeTxCReset s.efe.txc (4 * e + c)
    let n := upto - tc.base
    { s with efe := { s.efe with txc := FMap.set s.efe.txc (4 * e + c) { tc with out := tc.out.drop n, base := tc.base + Nat.min n tc.out.length } } }) s
  countBy 0x101 e (sumN (outs.map (fun o => o.2))) s

/-- The transform's samples of air beat `lin` enter the transmit chain of (e, c). An element zeroed at that beat starts
from cleared delay lines (R107). -/
def txPush (e c lin : Nat) (l : List Cplx) (late : BitVec 4) (s : State) : State :=
  let st := efeSetAt s.efe.txSet lin
  let car := efeCar st c
  let zero := (rxOf s e).zeroAt.any (fun z => z.1 == lin)
  let tc0 := FMap.get efeTxCReset s.efe.txc (4 * e + c)
  let start := sampleBase lin - advanceOf car * rateFactor car
  let tc := if zero then { efeTxCReset with out := tc0.out, base := tc0.base } else tc0
  let tc := if tc.out.isEmpty then { tc with base := start } else tc
  let r := l.foldl (fun (p : EfeTxC × Nat) x =>
    let o := txCarrier car (efeParOf st c) x p.1
    let mixed := o.1.zipIdx.map (fun y => txMix s c (p.1.base + p.1.out.length + y.2) y.1)
    ({ o.2.1 with out := o.2.1.out ++ mixed.map (fun y => y.1) }, p.2 + o.2.2 + sumN (mixed.map (fun y => y.2)))) (tc, 0)
  txCombine e late (countBy 0x102 e r.2 { s with efe := { s.efe with txc := FMap.set s.efe.txc (4 * e + c) r.1 } })

/-! ## Zeroing (R107 to R109) -/

/-- X at B0 (R107): Δ in 1/16 ns. -/
def initialX (delta : Int) (ratio : Nat) : BitVec 80 := BitVec.ofInt 80 (roundDiv (delta * ratio * 96) 3125)

/-- The zeroing of an element at the boundary of beat `lin`: both chains are cleared and the position is set. `ta` is
T_A and `lat` LAT_RX, in 1/16 ns. -/
def efeZero (e lin : Nat) (ta : Int) (lat : Nat) (s : State) : State :=
  let r := rxOf s e
  let d := ceilDivI (boundaryT s lin) (2 ^ 36) - ta + lat
  let x := initialX d (ratioAt s lin).toNat
  let m := x.toNat / 2 ^ 40
  let st := efeSetAt s.efe.rxSet lin
  let hist := r.hist.zipIdx.map (fun p => if r.base + p.2 < m then samp0 else p.1)
  let s := rxSetE e { r with zeroAt := none, run := true, b0 := lin, x := x, beat := lin, k := 0, hist := hist, snaps := [] } s
  let s := (List.range 4).foldl (fun s c =>
    let key := 4 * e + c
    let on := (efeCarriers st true).contains c
    { s with efe := { s.efe with rxc := if on then FMap.set s.efe.rxc key { efeRxCReset with curBeat := lin } else FMap.erase s.efe.rxc key } }) s
  let t := txOf s e
  count 0x103 e (txSetE e { t with run := false, b0 := lin } s)

/-- The front end of every element stops and holds nothing; transmit chains begin at beat `lin`. -/
def efeStop (lin : Nat) (s : State) : State :=
  { s with efe := { s.efe with
    rx := s.efe.rx.map (fun p => (p.1, { p.2 with run := false, snaps := [] }))
    rxc := [], txc := []
    tx := (List.range 256).map (fun e => (e, { efeTxReset with base := sampleBase lin })) } }

/-! ## FILTER.READ (R99) -/

/-- Coefficients of a set of FILTER.READ. -/
def filterSet (n : Nat) : Option (List Int) :=
  if n < 64 then
    let r := responses.getD (n % 32) default
    let taps := if n < 32 then r.tapsLin else r.tapsMin
    some ((List.range taps).map (Config.respCoef n))
  else if n = 64 then some ((List.range 15).map Config.hb1Coef)
  else if n = 65 then some ((List.range 39).map Config.hb2Coef)
  else if n = 66 then some ((List.range 16384).map (fun i => Config.protoCoef (i % 1024) (i / 1024)))
  else none

/-- FILTER.READ: a page of at most 1,000 coefficients with the CRC of the whole set. -/
def filterRead (set : BitVec 8) (first : BitVec 16) (s : State) : Reply × State :=
  match filterSet set.toNat with
  | none => fails stBadField s
  | some l =>
    let f := first.toNat
    if f ≥ l.length then fails stBadField s
    else
      let n := Nat.min 1000 (l.length - f)
      let crc := crc32 (l.flatMap (fun v => leBytes 4 (wrapN 32 v)))
      (.done stOk ([.num 2 l.length, .num 2 n, .num 4 crc] ++ ((l.drop f).take n).map (sfld 4)) none
        (if f + n < l.length then f + n else 0), s)

def execFilterRead (h : Hdr) (set : BitVec 8) (first : BitVec 16) (s : State) : Host.Outcome State Fault Refusal :=
  .next (serve 0x1101 h (inModes modesYOLM) (filterRead set first) s)

end Sys2Proof.Machine
end

