-- ==== Sys2Proof/Machine/Lnk.lean ====
section
/-! DEFINITION. The element links: lane parameters, training, alignment, lane errors, the reference lane, and the
transmit lanes (R56 to R87). -/

namespace Sys2Proof.Machine
open Sys2Proof

/-! ## Lanes and their parameter words (R74) -/

/-- A lane before training. -/
def laneReset : Lane where
  st := .off
  rateFault := false
  lateRx := 0
  lateTx := 0
  txActive := false
  txRef := false
  aligns := 0
  ta := 0
  indexed := false
  last := none
  offset := 0
  relock := false
  locked := false
  awaiting := none
  bad := 0
  held := none
  heldNew := false
  txCount := 0
  twinTa := none

/-- The lane of an element. -/
def laneOf (s : State) (e : Nat) : Lane := FMap.get laneReset s.lnk.lanes e

/-- The lane of an element replaced. -/
def laneSet (e : Nat) (l : Lane) (s : State) : State :=
  { s with lnk := { s.lnk with lanes := FMap.put laneReset s.lnk.lanes e l } }

/-- The reset value of a lane parameter word: ALIGN_PIN is the element's row, both enables are 1, CRC_ACTION marks. -/
def laneWordReset (e : Nat) : BitVec 64 := BitVec.ofNat 64 (e / 16 * 2 ^ 12 + 2 ^ 9 + 2 ^ 8 + 2 ^ 6)

/-- The lane parameter word in force. -/
def laneWord (s : State) (e : Nat) : BitVec 64 := FMap.get (laneWordReset e) s.lnk.par e

/-- Fields of a lane parameter word: latencies and phases in 1/16 ns. -/
def lwLatRx (w : BitVec 64) : Nat := bits w.toNat 63 48
@[inherit_doc lwLatRx] def lwLatTx (w : BitVec 64) : Nat := bits w.toNat 47 32
@[inherit_doc lwLatRx] def lwTxPhase (w : BitVec 64) : Int := 8 * signed 8 (bits w.toNat 31 24)
@[inherit_doc lwLatRx] def lwFanout (w : BitVec 64) : Int := 8 * signed 8 (bits w.toNat 23 16)
@[inherit_doc lwLatRx] def lwAlignPin (w : BitVec 64) : Nat := bits w.toNat 15 12
@[inherit_doc lwLatRx] def lwRxEn (w : BitVec 64) : Bool := bitN w.toNat 9
@[inherit_doc lwLatRx] def lwTxEn (w : BitVec 64) : Bool := bitN w.toNat 8
@[inherit_doc lwLatRx] def lwCrcAction (w : BitVec 64) : Nat := bits w.toNat 7 6

/-- The bits of the word that a SCOPE writes (R75): SHARED, LOCAL. -/
def scopeMask (scope : Nat) : BitVec 64 := if scope = 0 then 0xFFFFFFFF0000F3C0#64 else 0x00000000FFFF0C00#64

/-- The word that a write under a scope leaves. -/
def laneMerge (scope : Nat) (old new : BitVec 64) : BitVec 64 := (old &&& ~~~(scopeMask scope)) ||| (new &&& scopeMask scope)

/-- Code of a lane state. -/
def laneStCode : LaneSt → Nat
  | .off => 0 | .cdr => 1 | .block => 2 | .emb => 3 | .aligned => 4 | .service => 5 | .lost => 6

/-- The lane status word. -/
def laneStatus (s : State) (e : Nat) : Nat :=
  let l := laneOf s e
  let b (x : Bool) (k : Nat) : Nat := if x then 2 ^ k else 0
  laneStCode l.st * 2 ^ 28 + b l.rateFault 27 + b (l.lateRx != 0 || l.lateTx != 0) 26 + b (s.lnk.ref.val == e) 25
    + b l.txActive 24 + l.aligns.toNat

def execLinkStatus (h : Hdr) (s : State) : Host.Outcome State Fault Refusal :=
  .next (serve 0x1003 h (inModes modesYOLM) (fun s => okWith ((List.range 256).map (fun e => Fld.num 4 (laneStatus s e))) s) s)

/-! ## Late elements (R73) -/

/-- The carriers an element is removed from, receive and transmit. -/
def lateCarriers (s : State) (e : Nat) : BitVec 4 × BitVec 4 :=
  match s.frm.active with
  | none => (0, 0)
  | some f =>
    let w := laneWord s e
    let mask (p : Nat → Carrier → Bool) : BitVec 4 := BitVec.ofNat 4 (sumN (f.carriers.zipIdx.map (fun x =>
      if x.1.enable && p x.2 x.1 then 2 ^ x.2 else 0)))
    (mask (fun c car => decide (mkRat (lwLatRx w) 16 > allowRx s.lnk.fs f c car)),
      mask (fun c car => decide (mkRat (lwLatTx w) 16 > allowTx s.lnk.fs f c car)))

/-- The Nose computes the allowances of one element: it is removed where its latency exceeds them. -/
def lateUpdate (e : Nat) (s : State) : State :=
  let m := lateCarriers s e
  let s := laneSet e { laneOf s e with lateRx := m.1, lateTx := m.2 } s
  if m.1 != 0 || m.2 != 0 then raiseEv 0x12 0x0 [.num 1 e, .num 1 m.1.toNat, .num 1 m.2.toNat] s else s

/-- The Nose computes the allowances of every element. -/
def lateUpdateAll (s : State) : State := (List.range 256).foldl (fun s e => lateUpdate e s) s

/-! ## Training (R77, R78) -/

/-- The reference lane holds EMB lock. -/
def refLocked (s : State) : Bool := (laneOf s s.lnk.ref.val).locked

/-- TX lane of an element takes clock and framing from the reference lane (R78). -/
def txFromRef (s : State) (e : Nat) : Bool := !lwRxEn (laneWord s e) || (laneOf s e).txRef

/-- A TX lane starts transmitting when the lane that clocks it holds EMB lock. -/
def txStart (e : Nat) (s : State) : State :=
  let l := laneOf s e
  if lwTxEn (laneWord s e) && !l.txActive && (if txFromRef s e then refLocked s else l.locked) then
    laneSet e { l with txActive := true } s
  else s

/-- Every TX lane that may start does. -/
def txStartAll (s : State) : State := (List.range 256).foldl (fun s e => txStart e s) s

/-- Training of one lane starts, where RX_EN is set; its front end holds nothing. -/
def trainLane (e : Nat) (s : State) : State :=
  let l := laneOf s e
  let s := laneSet e { laneReset with
    st := if lwRxEn (laneWord s e) then .cdr else .off, lateRx := l.lateRx, lateTx := l.lateTx, aligns := l.aligns } s
  rxSetE e efeRxReset s

/-- The EV256 trains every lane (R77): start-up, leaving BASE, a new sample rate. -/
def trainAll (s : State) : State :=
  let s := (List.range 256).foldl (fun s e => trainLane e s) s
  { s with
    lnk := { s.lnk with ref := s.lnk.ratioLane, trainAt := some (now16 s), refCheck := false }
    tb := { s.tb with bounds := [] } }

/-- 64 consecutive valid sync headers. -/
def laneBlockLock (e : Nat) (s : State) : State :=
  let l := laneOf s e
  if l.st == .cdr then laneSet e { l with st := .block, bad := 0 } s else s

def execLaneBlockLock (e : Fin 256) (s : State) : Host.Outcome State Fault Refusal := .next (laneBlockLock e.val s)

/-- The marker stood in place in 4 consecutive extended multiblocks: the lane reaches EMB, or, from LOST, awaits its
relock boundary (R81); TX lanes that waited for this lock start. -/
def laneEmbLock (e : Nat) (s : State) : State :=
  let l := laneOf s e
  match l.st with
  | .block => txStartAll (laneSet e { l with st := .emb, locked := true, bad := 0, held := none } s)
  | .lost =>
    if l.locked then s
    else txStartAll (laneSet e { l with locked := true, relock := true, bad := 0, held := none } s)
  | _ => s

def execLaneEmbLock (e : Fin 256) (s : State) : Host.Outcome State Fault Refusal := .next (laneEmbLock e.val s)

/-- A 256-bit element mask. -/
def elementMask (l : List Nat) : Nat := sumN (l.map (fun e => 2 ^ e))

/-- 100 µs after training began: lanes short of EMB are reported, and their TX lanes fall back to the reference lane. -/
def laneTrainTimeout (s : State) : State :=
  match s.lnk.trainAt with
  | none => s
  | some _ =>
    let short := (List.range 256).filter (fun e =>
      let l := laneOf s e
      l.st == .cdr || l.st == .block)
    let s := { s with lnk := { s.lnk with trainAt := none } }
    let s := short.foldl (fun s e =>
      let l := laneOf s e
      laneSet e { l with txRef := l.txRef || lwTxEn (laneWord s e) } s) s
    let s := txStartAll s
    if short.isEmpty then s else raiseEv 0x13 0x0 [.num 32 (elementMask short)] s

def execLaneTrainTimeout (s : State) : Host.Outcome State Fault Refusal := .next (laneTrainTimeout s)

/-! ## The reference lane (R64, R79) -/

/-- The lane is in service and can be the reference. -/
def inServiceLane (s : State) (e : Nat) : Bool := (laneOf s e).st == .service

/-- LNK takes the next lane in service as reference; offsets are re-based so that no prediction moves, and the next
boundary of the new lane is checked against its own prediction. With no lane in service the reference stays. -/
def refSwitch (s : State) : State :=
  let old := s.lnk.ref.val
  match ((List.range 255).map (fun i => (old + 1 + i) % 256)).find? (inServiceLane s) with
  | none => s
  | some n => if hn : n < 256 then
      let o := (laneOf s n).offset
      let s := (List.range 256).foldl (fun s e =>
        let l := laneOf s e
        if l.indexed then laneSet e { l with offset := l.offset - o } s else s) s
      let s := count 0x006 0 { s with lnk := { s.lnk with ref := ⟨n, hn⟩, refCheck := true }, tb := { s.tb with bounds := [] } }
      raiseEv 0x11 0x0 [.num 1 old, .num 1 n] s
    else s

/-- An instant relative to a grid of period P, as the distance to the nearest grid point; all in 1/16 ns. -/
def gridDist (s : State) (x : Rat) : Rat :=
  let p := embPeriod s.lnk.fs * 16
  let k : Int := (x / p + mkRat 1 2).floor
  absR (x - k * p)

/-- P/4 in 1/16 ns. -/
def quarterPeriod (s : State) : Rat := embPeriod s.lnk.fs * 4

/-- A boundary of lane `e` lies within P/4 of its prediction: the reference lane's boundaries plus the fixed offset. A
new reference lane is held against its own earlier boundaries. -/
def boundaryOk (e : Nat) (stamp : Int) (s : State) : Bool :=
  let l := laneOf s e
  if e = s.lnk.ref.val then
    !s.lnk.refCheck || l.last.all (fun t => decide (gridDist s ((stamp - t : Int) : Rat) ≤ quarterPeriod s))
  else
    (laneOf s s.lnk.ref.val).last.all (fun t => decide (gridDist s ((stamp - t - l.offset : Int) : Rat) ≤ quarterPeriod s))

/-! ## Samples (R72, R110) -/

/-- Missing samples. -/
def missing (n : Nat) : List Samp := List.replicate n ⟨0, 0, true⟩

/-- The part of a lane converted to Q1.23 (R58). -/
def laneSamp (p : BitVec 16 × BitVec 16) : Samp := ⟨p.1.toInt * 256, p.2.toInt * 256, false⟩

/-- Converter position, in 2^-40 samples, before which an aligned lane's samples are still missing (R110); none once
settling has ended. -/
def settleEnd (e : Nat) (s : State) : Option Nat :=
  let r := rxOf s e
  if !r.run || r.beat != r.b0 then none
  else
    let st := efeSetAt s.efe.rxSet r.b0
    let n := maxN ((efeCarriers st true).map (fun c => settleOf (efeCar st c) * rateFactor (efeCar st c)))
    if r.k ≥ n then none
    else some (unwrap40 (r.x.toNat / 2 ^ 40) r.base * 2 ^ 40 + r.x.toNat % 2 ^ 40 + (n - r.k) * (ratioAt s r.b0).toNat)

/-- A released multiblock enters the front end: its samples, or missing samples. -/
def releaseBlock (e : Nat) (l : List (BitVec 16 × BitVec 16)) (crcOk : Bool) (s : State) : State :=
  let lane := laneOf s e
  let r := rxOf s e
  if !lane.indexed then s
  else if lane.st == .lost || r.zeroAt.isSome || (!crcOk && lwCrcAction (laneWord s e) == 1) then
    efeInput e (missing l.length) s
  else if lane.st == .aligned then
    match settleEnd e s with
    | none => efeInput e (l.map laneSamp) s
    | some x =>
      let n := r.base + r.hist.length
      efeInput e (l.zipIdx.map (fun p => if (n + p.2) * 2 ^ 40 < x then ⟨0, 0, true⟩ else laneSamp p.1)) s
  else if lane.st == .service then efeInput e (l.map laneSamp) s
  else s

/-! ## Loss of lock (R80, R82) -/

/-- A lane loses lock: from ALIGNED or SERVICE it becomes LOST, and what is held of it is missing; short of that it
trains again. `err` is the ERROR of EV_LANE_LOST. -/
def loseLock (e err : Nat) (s : State) : State :=
  let l := laneOf s e
  let gone := { l with locked := false, relock := false, bad := 0, held := none }
  match l.st with
  | .aligned | .service =>
    let s := laneSet e { gone with st := .lost } s
    let s := if l.held.isSome then releaseBlock e (l.held.getD []) false s else s
    let s := raiseEv 0x14 0x0 [.num 1 e, .num 1 err] (count 0x004 e s)
    if l.st == .service && s.lnk.ref.val == e then refSwitch s else s
  | .emb | .block => laneSet e { gone with st := .cdr } s
  | .lost => laneSet e gone s
  | _ => s

def execLaneCdrLoss (e : Fin 256) (s : State) : Host.Outcome State Fault Refusal := .next (loseLock e.val 3 s)

/-- An elastic buffer slips. -/
def elasticSlip (e : Nat) (s : State) : State :=
  if (laneOf s e).st == .off then s else loseLock e 2 (count 0x003 e s)

def execElasticBufferSlip (e : Fin 256) (s : State) : Host.Outcome State Fault Refusal := .next (elasticSlip e.val s)

/-- A lane's measured rate lies outside ±100 ppm: it is kept out of service (R62). -/
def laneRateFault (e : Nat) (ppm : BitVec 16) (s : State) : State :=
  let l := laneOf s e
  if l.st == .off then s
  else
    let out := l.st == .aligned || l.st == .service
    let s := laneSet e { l with rateFault := true, st := if out then .lost else l.st } s
    let s := if out then count 0x004 e s else s
    let s := raiseEv 0x10 0x0 [.num 1 e, .num 1 0, .num 2 ppm.toNat] s
    if l.st == .service && s.lnk.ref.val == e then refSwitch s else s

def execLaneRateFault (e : Fin 256) (ppm : BitVec 16) (s : State) : Host.Outcome State Fault Refusal :=
  .next (laneRateFault e.val ppm s)

/-- Sync headers of a multiblock, first block in bit 0: the history of 64 blocks, and whether any window of 64 held 16
invalid ones. -/
def headerScan (bad : BitVec 64) (hdrs : BitVec 32) : BitVec 64 × Bool :=
  (List.range 32).foldl (fun (p : BitVec 64 × Bool) i =>
    let b := (p.1 <<< 1) ||| (if hdrs.getLsbD i then 1#64 else 0#64)
    (b, p.2 || decide (sumN ((List.range 64).map (fun j => if b.getLsbD j then 1 else 0)) ≥ 16))) (bad, false)

/-- A multiblock arrives: its header errors count, its CRC-12 judges the multiblock held before it, which is released,
and it is held in turn. -/
def laneMultiblock (e : Nat) (samples : List (BitVec 16 × BitVec 16)) (hdrs : BitVec 32) (crcOk : Bool) (s : State) : State :=
  let l := laneOf s e
  if l.st == .off || l.st == .cdr then s
  else
    let n := sumN ((List.range 32).map (fun i => if hdrs.getLsbD i then 1 else 0))
    let sc := headerScan l.bad hdrs
    let s := countBy 0x000 e n (laneSet e { l with bad := sc.1 } s)
    if sc.2 then loseLock e 0 s
    else if !l.locked then s
    else
      let s := match l.held with
        | none => s
        | some x => releaseBlock e x crcOk (if crcOk then s else count 0x001 e s)
      laneSet e { laneOf s e with held := some (samples.take 64), heldNew := true } s

def execLaneMultiblock (e : Fin 256) (samples : List (BitVec 16 × BitVec 16)) (badHeaders : BitVec 32) (crcOk : Bool)
    (s : State) : Host.Outcome State Fault Refusal :=
  .next (laneMultiblock e.val samples badHeaders crcOk s)

/-! ## Alignment (R67, R68, R81, R84, R106) -/

/-- The linear beat that contains an instant of full time in 1/16 ns. -/
def beatAt16 (t16 : Int) (s : State) : Nat := linAt12 ((t16 * 12 - 192 * (frameOffset s : Int)) / 16)

/-- REASON code of an ALIGN verdict. -/
def alignCode : AlignReason → Nat
  | .sysref => 0 | .relock => 1 | .twin => 2

/-- Payload of an ALIGN verdict. -/
def alignPayload (e reason : Nat) (failed : Bool) (ta : Int) : Nat :=
  e * 2 ^ 56 + reason * 2 ^ 54 + (if failed then 2 ^ 53 else 0) + wrapN 36 ta

/-- LNK makes an ALIGN verdict: element `e` is numbered from the boundary that arrived at `ta`, `k` boundaries before
the last one; B0 is two beats after the beat of `ta`. `stamp` is the element's own boundary. -/
def alignElement (e : Nat) (ta stamp : Int) (k : Nat) (reason : AlignReason) (s : State) : State :=
  let l := laneOf s e
  let n := beatAt16 ta s
  let seq := s.frm.verdictSeq
  let refLast := if e = s.lnk.ref.val then none else (laneOf s s.lnk.ref.val).last
  let s := laneSet e { l with
    st := if l.locked then .aligned else l.st
    ta := ta, indexed := true, relock := false, awaiting := none, twinTa := none
    offset := refLast.elim 0 (fun t => stamp - t)
    aligns := l.aligns + 1, txCount := k
    held := if l.heldNew then l.held else none } s
  let r := rxOf s e
  let s := rxSetE e { r with zeroAt := some (n + 2, seq), run := false, hist := [], base := 64 * k, snaps := [] } s
  let s := if reason = .relock then count 0x005 e s else s
  makeVerdict 0x07 0x0 (stampOfLin (n + 2)) (alignPayload e (alignCode reason) false ta) s

/-- The sillage takes the lead's alignment of an element: the own boundary within P/4 of T_A plus FANOUT_SKEW, which may
have arrived already (R81, R84). -/
def twinAlign (e : Nat) (ta : Int) (s : State) : State :=
  let l := laneOf s e
  let p := embPeriod s.lnk.fs * 16
  let target := ta + lwFanout (laneWord s e)
  match l.last with
  | none => laneSet e { l with twinTa := some ta } s
  | some t =>
    let k := (((t - target : Int) : Rat) / p + mkRat 1 2).floor
    if k < 0 then laneSet e { l with twinTa := some ta } s
    else if l.locked && decide (absR ((t - target : Int) - k * p) ≤ quarterPeriod s) then
      alignElement e ta t k.toNat .twin s
    else s

/-- The elements that follow the reference lane's alignment: RX disabled, or no EMB 100 µs after training began (R78). -/
def followers (s : State) : List Nat :=
  (List.range 256).filter (fun e =>
    let l := laneOf s e
    let w := laneWord s e
    l.awaiting.isSome && lwTxEn w && (!lwRxEn w || (l.txRef && !l.locked)))

/-- A boundary of a lane that holds EMB lock is taken: alignment, relock, or the check against its prediction. -/
def lockedBoundary (e : Nat) (stamp : Int) (s : State) : State :=
  let l := laneOf s e
  if l.rateFault then s
  else if l.awaiting.any (fun t => decide (t ≤ stamp)) then alignElement e stamp stamp 0 .sysref s
  else if l.twinTa.any (fun t => decide (absR ((stamp - (t + lwFanout (laneWord s e)) : Int) : Rat) ≤ quarterPeriod s)) then
    alignElement e (l.twinTa.getD 0) stamp 0 .twin s
  else if l.st == .lost then
    if l.relock && l.indexed && s.nose.mode != .sillage && boundaryOk e stamp s then alignElement e stamp stamp 0 .relock s
    else laneSet e { l with relock := false } s
  else if (l.st == .aligned || l.st == .service) && !boundaryOk e stamp s then loseLock e 1 (count 0x002 e s)
  else s

/-- The reference lane's boundary is reported to the time base, and aligns the elements that follow it. -/
def refBoundary (stamp : Int) (s : State) : State :=
  let p := embPeriod s.lnk.fs * 16
  let b := match s.tb.bounds with
    | t :: _ => if absR ((stamp - t : Int) - p) ≤ quarterPeriod s then (stamp :: s.tb.bounds).take 66000 else [stamp]
    | [] => [stamp]
  let s := { s with tb := { s.tb with bounds := b }, lnk := { s.lnk with refCheck := false } }
  (followers s).foldl (fun s e =>
    if (laneOf s e).awaiting.any (fun t => decide (t ≤ stamp)) then alignElement e stamp stamp 0 .sysref s else s) s

/-- An extended multiblock boundary arrives on a lane. -/
def embBoundary (e : Nat) (stamp : Int) (inPlace : Bool) (s : State) : State :=
  let l := laneOf s e
  if !l.locked then s
  else if !inPlace then loseLock e 1 (count 0x002 e s)
  else
    let s := laneSet e { l with heldNew := false } s
    let s := lockedBoundary e stamp s
    let l := laneOf s e
    if !l.locked then s
    else
      let s := laneSet e { l with last := some stamp } s
      if e = s.lnk.ref.val then refBoundary stamp s else s

def execEmbBoundary (e : Fin 256) (stamp : Int) (inPlace : Bool) (s : State) : Host.Outcome State Fault Refusal :=
  .next (embBoundary e.val stamp inPlace s)

/-! ## SYSREF (R65 to R69) -/

/-- The elements of a mask. -/
def maskElements (m : BitVec 256) : List Nat := (List.range 256).filter (fun e => m.getLsbD e)

/-- LINK.ALIGN: a later one replaces one whose T_S has not come. -/
def linkAlign (t : TInst) (pins : BitVec 16) (elements : BitVec 256) (s : State) : Reply × State :=
  if !tinstOk t then fails stBadField s
  else if s.nose.mode != .standby && (maskElements elements).any (inServiceLane s) then fails stBadField s
  else if checkT (tinst16 t) s ≠ stOk then fails (checkT (tinst16 t) s) s
  else okWith [] { s with lnk := { s.lnk with align := some (tinst16 t, pins, elements, false) } }

/-- SILLAGE rejects LINK.ALIGN with ST_BAD_FIELD (R69). -/
def alignModes (s : State) : Nat := if s.nose.mode == .sillage then stBadField else inModes modesYOL s

def execLinkAlign (h : Hdr) (t : TInst) (pins : BitVec 16) (elements : BitVec 256) (s : State) :
    Host.Outcome State Fault Refusal :=
  .next (serve 0x1001 h alignModes (linkAlign t pins elements) s)

/-- At T_S each masked pin is driven high for LNK_SYSREF_WIDTH, delayed by its skew, and each masked element awaits its
alignment boundary from T_S + 4,096 ns on. A sillage drives no pin. -/
def alignPulse (s : State) : State :=
  match s.lnk.align with
  | some (t, pins, elems, false) =>
    let s := if t * 2 ^ 36 ≤ s.tb.nextT then advanceToTime (t * 2 ^ 36) s else s
    if s.nose.mode == .sillage then { s with lnk := { s.lnk with align := none } }
    else
      let s := { s with lnk := { s.lnk with align := some (t, pins, elems, true) } }
      let s := (List.finRange 16).foldl (fun s k =>
        if pins.getLsbD k.val then
          let d : Nat := bits s.lnk.skew.toNat (8 * k.val + 7) (8 * k.val) * s.tb.inc.toNat / 8
          pulseRise (.align k) true (t * 2 ^ 36 + d) (s.lnk.width * 2 ^ 40) s
        else s) s
      (maskElements elems).foldl (fun s e => laneSet e { laneOf s e with awaiting := some (t + 65536) } s) s
  | _ => s

def execAlignPulse (s : State) : Host.Outcome State Fault Refusal := .next (alignPulse s)

/-- The RX lane tested for an element at T_S + 4,096 ns is in EMB or higher. -/
def alignTestOk (s : State) (e : Nat) : Bool :=
  let l := laneOf s e
  let w := laneWord s e
  if lwTxEn w && (!lwRxEn w || (l.txRef && !l.locked)) then refLocked s else l.locked && !l.rateFault

/-- At T_S + 4,096 ns the elements whose lane is not in EMB are not aligned: a failing ALIGN verdict each. -/
def alignmentFailure (s : State) : State :=
  match s.lnk.align with
  | some (t, _, elems, true) =>
    let s := if (t + 65536) * 2 ^ 36 ≤ s.tb.nextT then advanceToTime ((t + 65536) * 2 ^ 36) s else s
    let s := { s with lnk := { s.lnk with align := none } }
    (maskElements elems).foldl (fun s e =>
      let l := laneOf s e
      if l.awaiting.isNone || alignTestOk s e then s
      else
        let lose := l.st != .off && l.st != .lost
        let s := laneSet e { l with
          awaiting := none, aligns := l.aligns + 1, st := if lose then .lost else l.st } s
        let s := if lose then count 0x004 e s else s
        makeVerdict 0x07 0x0 (stampOfLin (beatAt16 (t + 65536) s)) (alignPayload e 0 true 0) s) s
  | _ => s

def execAlignmentFailure (s : State) : Host.Outcome State Fault Refusal := .next (alignmentFailure s)

/-! ## LINK.CONFIG and LINK.SETUP (R74 to R76) -/

/-- The status of a lane parameter word. -/
def linkWordStatus (e scope : Nat) (word : BitVec 64) (s : State) : Nat :=
  let old := laneWord s e
  let new := laneMerge scope old word
  if scope > 1 || bits word.toNat 5 0 != 0 then stBadField
  else if lwLatRx new > 32768 || lwLatTx new > 32768 || lwCrcAction new > 1 then stBadField
  else if s.nose.mode != .standby && inServiceLane s e
      && (lwAlignPin old != lwAlignPin new || lwRxEn old != lwRxEn new || lwTxEn old != lwTxEn new) then stBadField
  else stOk

/-- LINK.CONFIG, by scope. -/
def linkConfig (h : Hdr) (element scope : BitVec 8) (word : BitVec 64) (s : State) : Reply × State :=
  let st := linkWordStatus element.toNat scope.toNat word s
  if st ≠ stOk then fails st s
  else if scope = 0 then acceptPair 0x1002 h .nextSlot (.linkConfig element scope word) [] id s
  else accept .nextSlot (.linkConfig element scope word) [] id s

def execLinkConfig (h : Hdr) (element scope : BitVec 8) (word : BitVec 64) (s : State) : Host.Outcome State Fault Refusal :=
  .next (serve 0x1002 h (if scope = 0 then leadModes modesYOLM else inModes modesYOLM) (linkConfig h element scope word) s)

/-- A lane parameter word takes effect: enables start and stop their lane, and the allowances are computed again. -/
def applyLinkConfig (e scope : Nat) (word : BitVec 64) (s : State) : State :=
  let old := laneWord s e
  let new := laneMerge scope old word
  let s := { s with lnk := { s.lnk with par := FMap.put (laneWordReset e) s.lnk.par e new } }
  let wasRef := s.lnk.ref.val == e && inServiceLane s e
  let s := if lwRxEn old && !lwRxEn new then
      let l := laneOf s e
      let s := rxSetE e efeRxReset (laneSet e { l with
        st := .off, locked := false, relock := false, held := none, last := none, rateFault := false } s)
      if wasRef then refSwitch s else s
    else if !lwRxEn old && lwRxEn new then laneSet e { laneOf s e with st := .cdr, txRef := false } s
    else s
  let s := if !lwTxEn new then laneSet e { laneOf s e with txActive := false } s else txStart e s
  lateUpdate e s

/-- LINK.SETUP. A new sample rate takes effect at once, in STANDBY, and retrains every lane. -/
def linkSetup (fs : BitVec 32) (lane : BitVec 8) (width : BitVec 16) (skew : BitVec 128) (s : State) : Reply × State :=
  let f := fs.toNat
  if f < 491520 || f > 984840 || width.toNat < 8 || width.toNat > 256 then fails stBadField s
  else if f ≠ s.lnk.fs && s.nose.mode != .standby then fails stBadField s
  else
    let s := if f = s.lnk.fs then s
      else
        let s := trainAll { s with lnk := { s.lnk with fs := f } }
        { s with tb := { s.tb with ratio := BitVec.ofInt 48 (initialRatio s), ratios := [] } }
    accept .nextSlot (.linkSetup lane width skew) [] id s

def execLinkSetup (h : Hdr) (fs : BitVec 32) (lane : BitVec 8) (width : BitVec 16) (skew : BitVec 128) (s : State) :
    Host.Outcome State Fault Refusal :=
  .next (serve 0x1004 h (inModes modesYOLM) (linkSetup fs lane width skew) s)

/-- The local link settings take effect; a newly named reference lane takes over with its offsets (R79). -/
def applyLinkSetup (lane : BitVec 8) (width : BitVec 16) (skew : BitVec 128) (s : State) : State :=
  let n : Fin 256 := lane.toFin
  let s := { s with lnk := { s.lnk with width := width.toNat, skew := skew } }
  if n = s.lnk.ratioLane then s
  else
    let old := s.lnk.ref.val
    let s := { s with lnk := { s.lnk with ratioLane := n } }
    if n.val = old then s
    else
      let o := (laneOf s n.val).offset
      let s := (List.range 256).foldl (fun s e =>
        let l := laneOf s e
        if l.indexed then laneSet e { l with offset := l.offset - o } s else s) s
      let s := count 0x006 0 { s with lnk := { s.lnk with ref := n, refCheck := true }, tb := { s.tb with bounds := [] } }
      raiseEv 0x11 0x0 [.num 1 old, .num 1 n.val] s

/-! ## Transmit lanes (R71, R87, R100, R101, R108) -/

/-- The device's own transmit samples go to the lane for an air instant, in 1/16 ns: in SOLO and LEAD, and around a
takeover by the air time of the sample (R87). -/
def txComputed (airLin : Nat) (air16 : Rat) (s : State) : Bool :=
  let at_ (lin : Nat) : Rat := (boundaryT s lin / 2 ^ 36 : Int)
  let own := s.nose.mode == .solo || s.nose.mode == .lead
  let inMode :=
    match s.twn.handover, s.twn.swapped with
    | some (b, _), _ =>
      let t := at_ (linNear s b)
      if s.nose.mode == .lead then decide (air16 < t + 65536) else decide (air16 ≥ t - 65536)
    | none, some (b, wasLead) =>
      let t := at_ b
      if wasLead then (if s.nose.mode == .sillage then decide (air16 < t + 65536) else own) else own && decide (air16 ≥ t - 65536)
    | none, none => own
  let leaving := s.nose.sched.any (fun e => match e.when, e.act with
    | .at b, .modeEnter .standby => decide (air16 ≥ at_ (linNear s b))
    | _, _ => false)
  inMode && !leaving && !lostDown s airLin

/-- Slot `n` of a lane: where Y stands after it, and its sample pair; saturated parts beside it. -/
def txSlot (n : Nat) (w : BitVec 64) (l : Lane) (t : EfeTx) (s : State) : EfeTx × (BitVec 16 × BitVec 16) × Nat :=
  let z : BitVec 16 × BitVec 16 := (0, 0)
  let tb0 := ceilDivI (boundaryT s t.b0) (2 ^ 36)
  let step := (ratioAt s t.b0).toNat
  let t := if t.run || step = 0 then t
    else
      -- t_tx − t(B0), in 491.52 MSa/s samples: latency and T_A in 1/16 ns, n converter samples at the ratio
      let y : Rat := mkRat ((l.ta + lwLatTx w - tb0) * 96) 3125 + mkRat ((n : Int) * 2 ^ 40) step
      if y < 0 then t else { t with run := true, y := BitVec.ofInt 80 (roundRat (y * 2 ^ 40)) }
  if !t.run then (t, z, 0)
  else
    let first := sampleBase t.b0
    let p := resampleAt t.y.toNat
    let m := first + p.1
    let lin := (beatOfSample (first + t.y.toNat / 2 ^ 40)).1
    let air16 : Rat := (tb0 : Rat) + mkRat ((t.y.toNat : Int) * 3125) (96 * 2 ^ 40)
    let st := efeSetAt s.efe.txSet t.b0
    let settle := maxN ((efeCarriers st false).map (fun c => settleOf (efeCar st c) * rateFactor (efeCar st c)))
    let x := resample (t.x5.map (fun c => ⟨c.i, c.q, false⟩)) t.base m p.2
    let i := roundConv x.1.i 8
    let q := roundConv x.1.q 8
    let quiet := decide (t.y.toNat < settle * 2 ^ 40) || !txComputed lin air16 s
    let inv := roundDiv (2 ^ 80) (Nat.max 1 (ratioAt s lin).toNat)
    ({ t with y := t.y + BitVec.ofInt 80 inv },
      if quiet then z else (BitVec.ofInt 16 (satI 16 i), BitVec.ofInt 16 (satI 16 q)),
      if quiet then 0 else x.2 + satCount 16 i + satCount 16 q)

/-- A transmit lane sends an extended multiblock of 64 sample pairs at its framing boundary. -/
def txMultiblock (e : Nat) (s : State) : State :=
  let l := laneOf s e
  if !l.txActive then s
  else if !l.indexed || (rxOf s e).zeroAt.isSome then
    emit (.laneTx e (List.replicate 64 (0, 0)))
      (laneSet e { l with txCount := if l.indexed then l.txCount + 1 else l.txCount } s)
  else
    let w := laneWord s e
    let r := (List.range 64).foldl (fun (p : EfeTx × List (BitVec 16 × BitVec 16) × Nat) i =>
      let o := txSlot (64 * l.txCount + i) w l p.1 s
      (o.1, p.2.1 ++ [o.2.1], p.2.2 + o.2.2)) (txOf s e, [], 0)
    let s := txSetE e r.1 (laneSet e { l with txCount := l.txCount + 1 } s)
    emit (.laneTx e r.2.1) (countBy 0x102 e r.2.2 s)

def execTxExtendedMultiblock (e : Fin 256) (s : State) : Host.Outcome State Fault Refusal := .next (txMultiblock e.val s)

end Sys2Proof.Machine
end

