-- ==== Sys2Proof/Machine/Stu.lean ====
section
/-! DEFINITION. The spectral transform and the blotter (R112 to R131). -/

namespace Sys2Proof.Machine
open Sys2Proof

/-! ## The transform (R117) -/

/-- The twiddle of index `t` for length `n`; `inv` selects the inverse direction. -/
def twiddle (n : Nat) (inv : Bool) (d : Cplx) (t : Nat) : Cplx :=
  if t = 0 then d
  else if 4 * t = n then (if inv then ⟨-d.q, d.i⟩ else ⟨d.q, -d.i⟩)
  else
    let p := t * (32768 / n)
    let c := mixC p
    let s := mixS p
    if inv then ⟨roundConv (d.i * c - d.q * s) 17, roundConv (d.q * c + d.i * s) 17⟩
    else ⟨roundConv (d.i * c + d.q * s) 17, roundConv (d.q * c - d.i * s) 17⟩

/-- The butterfly stages on 2^k values of a transform of length `n`, in place order. -/
def fftStages (n : Nat) (inv : Bool) : Nat → List Cplx → List Cplx
  | 0, x => x
  | k + 1, x =>
    let h := 2 ^ k
    let a := x.take h
    let b := x.drop h
    let sum := List.zipWith (fun u v => (⟨u.i + v.i, u.q + v.q⟩ : Cplx)) a b
    let dif := List.zipWith (fun u v => (⟨u.i - v.i, u.q - v.q⟩ : Cplx)) a b
    fftStages n inv k sum ++ fftStages n inv k (dif.zipIdx.map (fun p => twiddle n inv p.1 (p.2 * (n / (2 * h)))))

/-- The low `k` bits of a number in reverse order. -/
def bitrev : Nat → Nat → Nat
  | 0, _ => 0
  | k + 1, v => v % 2 * 2 ^ k + bitrev k (v / 2)

/-- log2 of the FFT length of a code. -/
def fftLog (c : Carrier) : Nat := 12 - c.fft.val

/-- The transform of `x`, in natural order. -/
def transform (lg : Nat) (inv : Bool) (x : List Cplx) : Array Cplx :=
  let y := (fftStages (2 ^ lg) inv lg x).toArray
  ((List.range (2 ^ lg)).map (fun k => y.getD (bitrev lg k) ⟨0, 0⟩)).toArray

/-! ## Records (R118 to R120) -/

/-- The FFT bin of subcarrier `s` of a carrier (R118). -/
def binOf (car : Carrier) (sc : Nat) : Nat := (((sc : Int) - 6 * car.nprb) % (2 ^ fftLog car : Nat)).toNat

/-- The block exponent of a PRB (R119). -/
def blockExp (l : List Int) : Nat :=
  ((List.range 14).find? (fun e => l.all (fun v => fitsI 24 (roundConv v e)))).getD 13

/-- The frequency block of the transform outputs of a PRB. -/
def blockOf (p : Nat) (y : List Cplx) : FBlock :=
  let e := blockExp (y.flatMap (fun c => [c.i, c.q]))
  ⟨e, false, p, y.map (fun c => ⟨roundConv c.i e, roundConv c.q e⟩)⟩

/-- Bytes of a frequency record. -/
def recordSize (nprb : Nat) : Nat := roundUp (80 * nprb) 64

/-- The bytes of a frequency record. -/
def recordBytes (l : List FBlock) : List Byte := padTo 64 (l.flatMap fblockBytes)

/-- RING (R120). -/
def ringOf (par : StuPar) : Nat := if 1 ≤ par.waves ∧ par.waves ≤ 15 then 16 * par.waves else 256

/-- STU parameters of carrier `c`. -/
def stuParOf (s : State) (c : Nat) : StuPar := (s.frm.active.bind (fun f => (f.stu[c]?).bind id)).getD {}

/-- STU instance state before anything ran. -/
def stuReset : StuC := ⟨[], true, 0, false, 0, 0, [], 0, [], [], false⟩

/-- State of STU instance `c`. -/
def stuOf (s : State) (c : Nat) : StuC := FMap.get stuReset s.stu c

/-- State of STU instance `c` replaced. -/
def stuSet (c : Nat) (x : StuC) (s : State) : State := { s with stu := FMap.put stuReset s.stu c x }

/-! ## The forward side (R116, R122, R125) -/

/-- The loop depth of an element in a loop run (R439). -/
def loopDepth (s : State) (e : Nat) : Nat := if s.frm.loopRun.isSome then FMap.get 0 s.tst.loop e else 0

/-- A loop run takes the ARRAY loopback: it is set for the whole array. -/
def arrayLoop (s : State) : Bool := (List.range 256).any (fun e => loopDepth s e == 6)

/-- The blocks of a receive record from the samples of an air beat. -/
def forwardBlocks (car : Carrier) (par : StuPar) (lin : Nat) (x : List Cplx) : List FBlock :=
  let lg := fftLog car
  let y := transform lg false ((x.drop (cpLen car lin - par.winAdvance)).take (2 ^ lg))
  (List.range car.nprb).map (fun p => blockOf p ((List.range 12).map (fun k => y.getD (binOf car (12 * p + k)) ⟨0, 0⟩)))

/-- The samples the forward transform of (e, c) takes for an air beat; none where the element is missing. -/
def forwardInput (s : State) (e c lin : Nat) : Option (List Cplx) × Bool :=
  if loopDepth s e == 5 then
    match FMap.find (stuOf s c).tx (256 * lin + e) with
    | some (l, m) => (if m then none else some l, false)
    | none => (none, false)
  else if (laneOf s e).lateRx.getLsbD c || isFenced s 1 c then (none, false)
  else
    match (FMap.get efeRxCReset s.efe.rxc (4 * e + c)).ready.find? (fun r => r.1 == lin) with
    | some (_, l, m) => (if m then none else some l, m)
    | none => (none, true)

/-- The receive record of element `e` for air beat `lin`. -/
def forwardRecord (e c lin : Nat) (s : State) : State :=
  let car := carrierOf s c
  let par := stuParOf s c
  let x := stuOf s c
  let put (b : List Byte) (s : State) : State := feWrite (par.ulBase + e % ringOf par * recordSize car.nprb) b s
  let drop (s : State) : State :=
    match FMap.find s.efe.rxc (4 * e + c) with
    | some r => { s with efe := { s.efe with rxc := FMap.set s.efe.rxc (4 * e + c) { r with
        ready := r.ready.filter (fun y => decide (lin < y.1)) } } }
    | none => s
  let missing := (List.range car.nprb).map fblockMissing
  if arrayLoop s then
    put ((FMap.find x.recs (256 * lin + e)).getD (recordBytes missing)) s
  else
    let i := forwardInput s e c lin
    let s := if i.2 then count 0x104 (4 * e + c) s else s
    let s := drop s
    match i.1 with
    | none => put (recordBytes missing) (count 0x201 c s)
    | some l =>
      let blocks := forwardBlocks car par lin l
      let s := put (recordBytes blocks) s
      if !par.blEn then s
      else
        let pow := blocks.foldl (fun (m : FMap Nat) b => b.w.zipIdx.foldl (fun m w =>
          FMap.modify 0 m (12 * b.prb + w.2) (fun v => v + ((w.1.i * w.1.i + w.1.q * w.1.q).toNat * 4 ^ b.e))) m) x.pow
        stuSet c { stuOf s c with pow := pow, ne := x.ne + 1 } s

/-! ## The inverse side (R123) -/

/-- The samples of a transmit record: the missing flag with zeros where every block is missing; saturated parts. -/
def inverseSamples (car : Carrier) (par : StuPar) (lin : Nat) (blocks : List FBlock) : List Cplx × Bool × Nat :=
  let lg := fftLog car
  let n := 2 ^ lg
  let cp := cpLen car lin
  if blocks.all (fun b => b.miss) then (List.replicate (n + cp) ⟨0, 0⟩, true, 0)
  else
    let y := blocks.zipIdx.foldl (fun (y : Array Cplx) b =>
      if b.1.miss then y
      else b.1.w.zipIdx.foldl (fun y w =>
        y.setIfInBounds (binOf car (12 * b.2 + w.2)) ⟨w.1.i * 2 ^ b.1.e, w.1.q * 2 ^ b.1.e⟩) y)
      (Array.replicate n ⟨0, 0⟩)
    let z := (transform lg true y.toList).toList.map (fun c => (roundConv c.i par.txShift, roundConv c.q par.txShift))
    let out := z.map (fun c => (⟨satI 24 c.1, satI 24 c.2⟩ : Cplx))
    (out.drop (n - cp) ++ out, false, sumN (z.map (fun c => satCount 24 c.1 + satCount 24 c.2)))

/-- The inverse transform of element `e` for air beat `lin`. -/
def inverseRecord (e c lin : Nat) (s : State) : State :=
  let car := carrierOf s c
  let par := stuParOf s c
  let b := rdBytes s.mem.fe (par.dlBase + e % ringOf par * recordSize car.nprb) (80 * car.nprb)
  let blocks := (List.range car.nprb).map (fun p => fblockOf (slice b (80 * p) 80))
  let r := inverseSamples car par lin blocks
  let x := stuOf s c
  let recs := if arrayLoop s then FMap.set x.recs (256 * lin + e) (padTo 64 b) else x.recs
  countBy 0x200 c r.2.2 (stuSet c { x with tx := FMap.set x.tx (256 * lin + e) (r.1, r.2.1), recs := recs } s)

/-! ## The beat program (R112, R121) -/

/-- Waves of a direction. -/
def wavesOf (on : Bool) : Nat := if on then 16 else 0

/-- START and the cycles per wave of instance `c` in a work beat. -/
def stuStart (s : State) (c lin : Nat) : Nat := (budgetOf s 2 c (linSymbol lin)).elim 0 (fun b => b.start)
@[inherit_doc stuStart] def stuWave (car : Carrier) : Nat := fftLen car / 4 + 96

/-- The elements of a wave. -/
def waveElements (w : Nat) : List Nat := (List.range 16).map (fun i => 16 * w + i)

/-- Waves whose work lies before cycle offset `upto` run, in order; all of them where `upto` is none. -/
def stuProgress (c : Nat) (upto : Option Nat) : Nat → State → State
  | 0, s => s
  | fuel + 1, s =>
    let car := carrierOf s c
    let x := stuOf s c
    let start := stuStart s c s.tb.lin
    let t := stuWave car
    if x.fwd < wavesOf car.ulEn then
      if upto.any (fun o => decide (o < start + (x.fwd + 1) * t + 256)) then s
      else
        let s := (waveElements x.fwd).foldl (fun s e => forwardRecord e c (s.tb.lin - 1) s) s
        stuProgress c upto fuel (stuSet c { stuOf s c with fwd := x.fwd + 1 } s)
    else if x.inv < wavesOf car.dlEn then
      if upto.any (fun o => decide (o < start + (wavesOf car.ulEn + x.inv) * t)) then s
      else
        let s := (waveElements x.inv).foldl (fun s e => inverseRecord e c (s.tb.lin + 1) s) s
        stuProgress c upto fuel (stuSet c { stuOf s c with inv := x.inv + 1 } s)
    else s

/-- The running STU instances have done what falls before the current cycle offset. -/
def stuCatchUp (s : State) : State :=
  (List.range 4).foldl (fun s c =>
    if s.frm.running.contains (unitKey 2 c) then stuProgress c (some (offsetNow s)) 33 s else s) s

/-- Instance `c` begins its beat program. -/
def stuBegin (c : Nat) (s : State) : State :=
  let x := stuOf s c
  let keep (k : Nat) : Bool := decide (s.tb.lin ≤ k / 256 + 2)
  stuSet c { x with
    fwd := 0, inv := 0, pow := [], ne := 0
    tx := x.tx.filter (fun p => keep p.1), recs := x.recs.filter (fun p => keep p.1) } s

/-- The samples of air beat n+1 go to the front ends of every element; a fenced front end of the carrier takes zeros (R437). -/
def stuPush (c : Nat) (s : State) : State :=
  let lin := s.tb.lin + 1
  let car := carrierOf s c
  let zero : List Cplx := List.replicate (fftLen car + cpLen car lin) ⟨0, 0⟩
  if !car.enable || !car.dlEn then s
  else (List.range 256).foldl (fun s e =>
    let l := if isFenced s 1 c then zero else (FMap.find (stuOf s c).tx (256 * lin + e)).elim zero (fun p => p.1)
    txPush e c lin l (laneOf s e).lateTx s) s

/-! ## The blotter (R125 to R130) -/

/-- P[s] of the air beat. -/
def blotterPower (x : StuC) (sc : Nat) : Int := roundConv (FMap.get 0 x.pow sc * roundDiv (2 ^ 24) x.ne) 54

/-- The averages after the update. -/
def blotterAverages (x : StuC) (par : StuPar) (n : Nat) : List Nat :=
  (List.range n).map (fun sc =>
    let p := blotterPower x sc
    let a : Int := (FMap.get 0 x.avg sc).toNat
    wrapN 48 (if x.empty || !x.blWas then p else a + roundConv (p - a) par.avgShift))

/-- The reference r of R127. -/
def blotterRef (a : List Nat) (er : BitVec 3276) : Nat :=
  let open_ := (a.zipIdx.filter (fun p => !er.getLsbD p.2)).map (fun p => p.1)
  let l := if open_.isEmpty then a else open_
  if l.isEmpty then 0 else sumN l / l.length

/-- The new erasure set before the limit. -/
def blotterSet (a : List Nat) (r : Nat) (er : BitVec 3276) (par : StuPar) : List Bool :=
  let det := a.zipIdx.map (fun p =>
    if er.getLsbD p.2 then decide (256 * p.1 ≥ r * par.clear) else decide (256 * p.1 > r * par.thresh))
  (List.range a.length).map (fun sc =>
    (List.range (2 * par.guard + 1)).any (fun i => decide (par.guard ≤ sc + i) && det.getD (sc + i - par.guard) false))

/-- What the blotter finds: averages, reference, erasure set, and whether ERASE_LIMIT held the set. -/
structure Blot where
  avg : List Nat
  ref : Nat
  set_ : BitVec 3276
  hit : Bool
deriving DecidableEq, Repr

/-- The blotter's result for the air beat, if it makes an update. -/
def blotterFind (s : State) (c : Nat) : Option Blot :=
  let x := stuOf s c
  let par := stuParOf s c
  let n := 12 * (carrierOf s c).nprb
  if !par.blEn || x.ne = 0 then none
  else
    let a := blotterAverages x par n
    let r := blotterRef a x.er
    let nw := blotterSet a r x.er par
    if (nw.filter id).length > par.eraseLimit then some ⟨a, r, x.er, true⟩
    else some ⟨a, r, BitVec.ofNat 3276 (sumN (nw.zipIdx.map (fun p => if p.1 then 2 ^ p.2 else 0))), false⟩

/-- The 12 bits of a PRB in an erasure table. -/
def erPrb (t : BitVec 3276) (p : Nat) : Nat := t.toNat / 2 ^ (12 * p) % 4096

/-- The PRBs whose erasure differs, with their new bits. -/
def erChanges (nprb : Nat) (old new : BitVec 3276) : List (Nat × Nat) :=
  (List.range nprb).filterMap (fun p => if erPrb old p ≠ erPrb new p then some (p, erPrb new p) else none)

/-- The table with the bits of some PRBs replaced. -/
def erApply (t : BitVec 3276) (l : List (Nat × Nat)) : BitVec 3276 :=
  l.foldl (fun t x => BitVec.ofNat 3276 (t.toNat - erPrb t x.1 * 2 ^ (12 * x.1) + x.2 % 4096 * 2 ^ (12 * x.1))) t

/-- The blotter makes its verdicts for the air beat of work beat `lin`. -/
def blotterVerdicts (c lin : Nat) (s : State) : State :=
  match blotterFind s c with
  | none => s
  | some b =>
    let l := erChanges (carrierOf s c).nprb (stuOf s c).er b.set_
    let s := countBy 0x203 c l.length s
    l.foldl (fun s x => makeVerdict 0x06 0x2 (stampOfLin (lin - 1)) (c * 2 ^ 62 + x.1 * 2 ^ 53 + x.2 * 2 ^ 41) s) s

/-- Erased subcarriers of a table. -/
def erCount (t : BitVec 3276) : Nat := sumN ((List.range 3276).map (fun i => if t.getLsbD i then 1 else 0))

/-- The blotter report (R130). -/
def blotterReport (c lin changed : Nat) (b : Blot) (er : BitVec 3276) (periodic : Bool) (s : State) : State :=
  let beat := stampOfLin (lin - 1)
  let peak := b.avg.zipIdx.foldl (fun (m : Nat × Nat) p => if p.1 > m.1 then p else m) (0, 0)
  let v := beat.toNat * 2 ^ 224 + wrapN 32 (boundaryT s (lin + 1) / 2 ^ 40) * 2 ^ 192 + c * 2 ^ 190
    + (if b.hit then 2 ^ 189 else 0) + (if periodic then 2 ^ 188 else 0) + Nat.min 1023 (erCount er) * 2 ^ 178
    + peak.2 * 2 ^ 166 + peak.1 * 2 ^ 112 + b.ref % 2 ^ 48 * 2 ^ 64 + changed * 2 ^ 48
  raiseAt 0x18 0x2 beat [.num 32 v] s

/-- Instance `c` commits what its beat program of work beat `lin` made: averages and erasure table, `changes` being the
verdicts that apply (R24, R128), and issues its report. -/
def stuCommit (c lin : Nat) (changes : List (Nat × Nat)) (s : State) : State :=
  let x := stuOf s c
  let par := stuParOf s c
  let car := carrierOf s c
  if !car.ulEn then s
  else if !par.blEn then stuSet c { x with er := 0, erDue := true, blWas := false } s
  else
    let b := blotterFind s c
    let er := erApply x.er changes
    let old : Blot := ⟨(List.range (12 * car.nprb)).map (fun i => (FMap.get 0 x.avg i).toNat),
      blotterRef ((List.range (12 * car.nprb)).map (fun i => (FMap.get 0 x.avg i).toNat)) x.er, x.er, false⟩
    let avg := match b with
      | some v => v.avg.zipIdx.foldl (fun (m : FMap (BitVec 48)) p => FMap.put 0 m p.2 (BitVec.ofNat 48 p.1)) x.avg
      | none => x.avg
    let s := stuSet c { x with
      avg := avg, empty := x.empty && b.isNone, er := er, erDue := true, blWas := x.blWas || b.isSome } s
    let s := countBy 0x202 c (erCount er) s
    let hit := b.any (fun v => v.hit)
    let s := if hit then count 0x204 c s else s
    let age := lin - s.frm.startBeat
    let due := par.reportPeriod != 0 && age != 0 && age % par.reportPeriod == 0
    if !changes.isEmpty || hit then blotterReport c lin changes.length (b.getD old) er false s
    else if due then blotterReport c lin 0 (b.getD old) er true s
    else s

/-- The erasure tables that are due are written at ER_BASE, from cycle offset 256 on (R129). -/
def stuErFlush (s : State) : State :=
  if offsetNow s < 256 then s
  else (List.range 4).foldl (fun s c =>
    let x := stuOf s c
    if !x.erDue then s
    else
      let n := roundUp (ceilDiv (12 * (carrierOf s c).nprb) 8) 64
      feWrite (stuParOf s c).erBase (leBytes n x.er.toNat) (stuSet c { x with erDue := false } s)) s

/-- The erasure changes that the blotter of instance `c` finds. -/
def stuChanges (s : State) (c : Nat) : List (Nat × Nat) :=
  match blotterFind s c with
  | some b => erChanges (carrierOf s c).nprb (stuOf s c).er b.set_
  | none => []

/-- The program of instance `c` completes: all its waves are done, its verdicts are made, its transmit samples go to the
front ends, and it commits; a sillage holds both until the SEAL of the beat (R371). -/
def stuComplete (c : Nat) (s : State) : State :=
  let s := stuProgress c none 33 s
  let changes := stuChanges s c
  let s := blotterVerdicts c s.tb.lin s
  if s.nose.mode == .sillage then s else stuCommit c s.tb.lin changes (stuPush c s)

/-- The instance is stopped or does not run: what it has not finished is replaced by its substitutes, all ZERO_MISSING
(R24, R124). -/
def stuSubstitute (c : Nat) (s : State) : State :=
  let car := carrierOf s c
  let par := stuParOf s c
  let x := stuOf s c
  let s := if x.fwd < wavesOf car.ulEn then
      (List.range 256).foldl (fun s e => feWrite (par.ulBase + e % ringOf par * recordSize car.nprb)
        (recordBytes ((List.range car.nprb).map fblockMissing)) s) s
    else s
  let s := if x.inv < wavesOf car.dlEn then
      stuSet c { stuOf s c with tx := (stuOf s c).tx.filter (fun p => decide (p.1 / 256 ≠ s.tb.lin + 1)) } s
    else s
  stuPush c s

/-- Zeroing of the blotter's averages (R126). -/
def stuZero (s : State) : State :=
  { s with stu := s.stu.map (fun p => (p.1, { p.2 with avg := [], empty := true })) }

end Sys2Proof.Machine
end

