-- ==== Sys2Proof/Machine/Sic.lean ====
section
/-! DEFINITION. The self-interference canceller: reference capture, the linear stage, adaptation of both stages, depth
monitoring, SIC.DEPTH and SIC.RETRAIN (R132 to R155). The nonlinear stage itself is in the receive chain. -/

namespace Sys2Proof.Machine
open Sys2Proof

/-! ## Groups and packed buffers (R134, R140) -/

/-- PRBs of coupling group `g`. -/
def groupPrbs (nprb g : Nat) : Nat := Nat.min (nprb - 16 * g) 16

/-- Bytes of a group in a packed buffer. -/
def groupBytes (nprb g : Nat) : Nat := roundUp (80 * groupPrbs nprb g) 64

/-- The cancelled groups of a carrier. -/
def cancelGroups (par : SicPar) (nprb : Nat) : List Nat :=
  (List.range 18).filter (fun g => par.cancel.getLsbD g && decide (16 * g < nprb))

/-- W, the element stride of a packed buffer. -/
def packStride (par : SicPar) (nprb : Nat) : Nat := sumN ((cancelGroups par nprb).map (groupBytes nprb))

/-- Offset of a group in an element's part of a packed buffer. -/
def groupOffset (par : SicPar) (nprb g : Nat) : Nat :=
  sumN (((cancelGroups par nprb).filter (fun x => decide (x < g))).map (groupBytes nprb))

/-- The geometry of an element: valid slots with their neighbours. -/
def geoOf (s : State) (e : Nat) : Geo := (s.frm.active.bind (fun f => f.geo[e]?)).getD []

/-- The air beat is quiet (R137). -/
def quietBeat (s : State) (lin : Nat) : Bool :=
  let p := sicPar s 0
  let b := stampOfLin lin
  (stampSfn b * 20 + stampSlot b) % Nat.max 1 p.quietPeriod == 0 && p.quietMask.getLsbD (stampSymbol b)

/-! ## State (R144, R147) -/

/-- A linear state that is empty. -/
def sicLinReset : SicLin := ⟨[], none, 0, 0, 0, false⟩
@[inherit_doc sicLinReset] def sicNlReset : SicNl := ⟨[], none, 0, 0, 0, false, []⟩

/-- Key of a linear state. -/
def linKey (c e g : Nat) : Nat := (c * 256 + e) * 32 + g

/-- The newest nonlinear coefficients of an element. -/
def nlLatest (n : SicNl) : FMap Cplx := (n.next.head?.map (fun p => p.2)).getD n.w

/-- A sum kept in 48 bits. -/
def sum48 (v : Nat) : Nat := if v < 2 ^ 48 then v else (Config.sicWide v).toNat

/-- |z|² as a natural number. -/
def normSq (z : Cplx) : Nat := (z.i * z.i + z.q * z.q).toNat

/-- conj(x) × r. -/
def conjMul (x r : Cplx) : Int × Int := (x.i * r.i + x.q * r.q, x.i * r.q - x.q * r.i)

/-- The step rule for one coefficient part (R146), and whether it saturated. -/
def stepPart (a g : Int) (mu inv : Nat) : Int × Nat :=
  let v := a + roundConv (g * mu * inv) 58
  (satI 24 v, satCount 24 v)

/-- The step rule for one coefficient. -/
def stepCoef (a : Cplx) (g : Int × Int) (mu inv : Nat) : Cplx × Nat :=
  let i := stepPart a.i g.1 mu inv
  let q := stepPart a.q g.2 mu inv
  (⟨i.1, q.1⟩, i.2 + q.2)

/-- What the estimate, the quiet count and the hold become, and the step to take; none: no step (R147). -/
structure Adapt where
  f : Option Nat
  nq : Nat
  ein : Nat
  er : Nat
  held : Bool
  mu : Option Nat
  /-- the update was held -/
  hold : Bool
deriving DecidableEq, Repr

/-- The adaptation rule of R147. -/
def adaptRule (quiet : Bool) (f : Option Nat) (nq ein er : Nat) (ein0 er0 : Nat) (held0 : Bool) (muTrain muTrack margin count : Nat) : Adapt :=
  if quiet then
    let f' := match f with
      | none => er
      | some v => ((v : Int) + roundConv ((er : Int) - v) 2).toNat
    ⟨some (sum48 f'), Nat.min (nq + 1) 255, sum48 ein, sum48 er, held0, some muTrain, false⟩
  else
    let hold := decide (256 * er > margin * f.getD 0)
    ⟨f, nq, ein0, er0, hold, if nq ≥ count && !hold then some muTrack else none, hold⟩

/-! ## Reference capture (R142, R143) -/

/-- Offset of ring slot `k` of a carrier. -/
def refSlot (par : SicPar) (nprb k : Nat) : Nat := par.refBase + k * 256 * packStride par nprb

/-- The transmit blocks of the cancelled groups of air beat `lin` are copied into their ring slot; the stamp waits for
the commit. -/
def sicCapture (c lin : Nat) (s : State) : State :=
  let par := sicPar s c
  let car := carrierOf s c
  let stu := stuParOf s c
  let b := stampOfLin lin
  let k := linOf b % 4
  let w := packStride par car.nprb
  let s := (List.range 256).foldl (fun s e => (cancelGroups par car.nprb).foldl (fun s g =>
    let src := stu.dlBase + e % ringOf stu * recordSize car.nprb + 1280 * g
    feWrite (refSlot par car.nprb k + e * w + groupOffset par car.nprb g) (rdBytes s.mem.fe src (80 * groupPrbs car.nprb g)) s) s) s
  { s with sic := { s.sic with pendRing := FMap.set s.sic.pendRing (4 * c + k) b } }

/-- The reference of air beat `b` is valid. -/
def refValid (s : State) (c : Nat) (b : Stamp) : Bool := FMap.find s.sic.ring (4 * c + linOf b % 4) == some b

/-! ## The linear stage (R141 to R147) -/

/-- Blocks of a group at an offset of the region. -/
def groupBlocks (m : FMap Byte) (a n : Nat) : List FBlock := (List.range n).map (fun i => fblockOf (rdBytes m (a + 80 * i) 80))

/-- The value of a resource element of a list of blocks, in units of 2^-23. -/
def reValue (l : Array FBlock) (u : Nat) : Cplx :=
  let b := l.getD (u / 12) (fblockMissing 0)
  if b.miss then ⟨0, 0⟩
  else
    let w := b.w.getD (u % 12) ⟨0, 0⟩
    ⟨w.i * 2 ^ b.e, w.q * 2 ^ b.e⟩

/-- V_j(u). -/
def slopeTerm (u : Nat) (x : Cplx) : Cplx := ⟨roundConv (((u : Int) - 96) * x.i) 7, roundConv (((u : Int) - 96) * x.q) 7⟩

/-- Y(u) narrowed: the estimated coupling of a resource element. -/
def coupling (terms : List ((Cplx × Cplx) × Cplx)) (u : Nat) : Cplx :=
  let y := terms.foldl (fun (y : Int × Int) t =>
    let a := t.1.1
    let d := t.1.2
    let x := t.2
    let v := slopeTerm u x
    (y.1 + a.i * x.i - a.q * x.q + d.i * v.i - d.q * v.q, y.2 + a.i * x.q + a.q * x.i + d.i * v.q + d.q * v.i)) (0, 0)
  ⟨roundConv y.1 22, roundConv y.2 22⟩

/-- A cancelled block: exponent of R119, saturated at 13 where nothing fits; saturated parts beside it (R145). -/
def reblock (p : Nat) (l : List Cplx) : FBlock × Nat :=
  let b := blockOf p l
  ({ b with w := b.w.map (fun c => ⟨satI 24 c.i, satI 24 c.q⟩) },
    sumN (b.w.map (fun c => satCount 24 c.i + satCount 24 c.q)))

/-- Cancellation and adaptation of one (e, g) for air beat `lin`. -/
def sicGroup (c e g lin : Nat) (s : State) : State :=
  let par := sicPar s c
  let nprb := (carrierOf s c).nprb
  let stu := stuParOf s c
  let b := stampOfLin lin
  let w := packStride par nprb
  let off := groupOffset par nprb g
  let np := groupPrbs nprb g
  let base := (if stampSymbol b % 2 = 0 then par.inEven else par.inOdd) + e * w + off
  let inp := (groupBlocks s.mem.fe base np).toArray
  let slots := geoOf s e
  let refs := slots.map (fun j => (groupBlocks s.mem.fe (refSlot par nprb (linOf b % 4) + j.2 * w + off) np).toArray)
  let st := FMap.get sicLinReset s.sic.lin (linKey c e g)
  let coef (j : Nat) : Cplx × Cplx := FMap.get (⟨0, 0⟩, ⟨0, 0⟩) st.coef j
  let res (u : Nat) : Cplx :=
    let x := reValue inp u
    let y := coupling ((slots.zip refs).map (fun p => (coef p.1.1, reValue p.2 u))) u
    ⟨x.i - y.i, x.q - y.q⟩
  -- cancellation in place
  let out := (List.range np).map (fun i =>
    let ib := inp.getD i (fblockMissing 0)
    if ib.miss then (ib, 0)
    else
      let r := reblock ib.prb ((List.range 12).map (fun k => res (12 * i + k)))
      r)
  let s := feWrite base (out.flatMap (fun o => fblockBytes o.1)) s
  let s := countBy 0x300 c (sumN (out.map (fun o => o.2))) s
  -- adaptation
  let erased (u : Nat) : Bool :=
    let i := 192 * g + u
    bitN (rd8 s.mem.fe (stu.erBase + i / 8)).toNat (i % 8)
  let probe := (List.range (12 * np)).filter (fun u =>
    u % 4 == linOf b % 4 && !(inp.getD (u / 12) (fblockMissing 0)).miss
      && refs.all (fun r => !(r.getD (u / 12) (fblockMissing 0)).miss) && !erased u)
  if probe.isEmpty then s
  else
    let rs := probe.map (fun u => (u, res u))
    let er := sumN (rs.map (fun p => normSq p.2))
    let ein := sumN (probe.map (fun u => normSq (reValue inp u)))
    let quiet := quietBeat s lin
    let ad := adaptRule quiet st.f st.nq ein er st.ein st.er st.held par.muTrain par.muTrack par.margin par.trainCount
    let s := if ad.hold then count 0x302 c s else s
    let s := if quiet && er != 0 && decide (ein < par.depthMin * er) then
        let s := count 0x304 c s
        { s with sic := { s.sic with shallow := FMap.modify 0 s.sic.shallow c (· + 1) } }
      else s
    let new : FMap (Cplx × Cplx) × Nat := match ad.mu with
      | none => (st.coef, 0)
      | some mu =>
        let pw := 2 ^ par.epsExp + sumN (refs.map (fun r => sumN (probe.map (fun u =>
          normSq (reValue r u) + normSq (slopeTerm u (reValue r u))))))
        let inv := 2 ^ 64 / pw
        (slots.zip refs).foldl (fun (m : FMap (Cplx × Cplx) × Nat) p =>
          let ga := rs.foldl (fun (a : Int × Int) q =>
            let t := conjMul (reValue p.2 q.1) q.2
            (a.1 + t.1, a.2 + t.2)) (0, 0)
          let gd := rs.foldl (fun (a : Int × Int) q =>
            let t := conjMul (slopeTerm q.1 (reValue p.2 q.1)) q.2
            (a.1 + t.1, a.2 + t.2)) (0, 0)
          let a := stepCoef (coef p.1.1).1 ga mu inv
          let d := stepCoef (coef p.1.1).2 gd mu inv
          (FMap.put (⟨0, 0⟩, ⟨0, 0⟩) m.1 p.1.1 (a.1, d.1), m.2 + a.2 + d.2)) (st.coef, 0)
    let s := countBy 0x300 c new.2 s
    { s with sic := { s.sic with
      pendLin := FMap.set s.sic.pendLin (linKey c e g) ⟨new.1, ad.f, ad.nq, ad.ein, ad.er, ad.held⟩ } }

/-! ## Nonlinear adaptation (R148) -/

/-- Adaptation of the nonlinear stage of an element from the snapshot of air beat `lin`. -/
def sicNonlinear (e lin : Nat) (s : State) : State :=
  let par := sicPar s 0
  let snap := FMap.get [] (rxOf s e).snaps lin
  if snap.length ≠ 256 || snap.any (fun p => p.1.miss) then s
  else
    let st := FMap.get sicNlReset s.sic.nl e
    let a0 := sampleBase lin + 1408
    let rs := snap.zipIdx.map (fun p => (a0 + p.2, (⟨p.1.2.i, p.1.2.q⟩ : Cplx)))
    let er := sumN (rs.map (fun p => normSq p.2))
    let ein := sumN (snap.map (fun p => normSq ⟨p.1.i, p.1.q⟩))
    let quiet := quietBeat s lin
    let ad := adaptRule quiet st.f st.nq ein er st.ein st.er st.held par.nlMuTrain par.nlMuTrack par.nlMargin par.nlTrainCount
    let s := if ad.hold then count 0x303 0 s else s
    let s := if quiet && er != 0 && decide (ein < par.depthMin * er) then
        let s := count 0x304 0 s
        { s with sic := { s.sic with shallow := FMap.modify 0 s.sic.shallow 0 (· + 1) } }
      else s
    let old := nlLatest st
    let basis (a t : Nat) : List Cplx := (nlBasis (refSample s e (a + par.nlLead - t))).1
    let new : FMap Cplx × Nat := match ad.mu with
      | none => (old, 0)
      | some mu =>
        let pw := 2 ^ par.nlEpsExp + sumN (rs.map (fun p => sumN ((List.range 4).map (fun t =>
          sumN ((basis p.1 t).map normSq)))))
        let inv := 2 ^ 64 / pw
        (List.range 32).foldl (fun (m : FMap Cplx × Nat) i =>
          let g := rs.foldl (fun (a : Int × Int) p =>
            let t := conjMul ((basis p.1 (i % 4)).getD (i / 4) ⟨0, 0⟩) p.2
            (a.1 + t.1, a.2 + t.2)) (0, 0)
          let r := stepCoef (FMap.get ⟨0, 0⟩ old i) g mu inv
          (FMap.put ⟨0, 0⟩ m.1 i r.1, m.2 + r.2)) (old, 0)
    let s := countBy 0x301 e new.2 s
    { s with sic := { s.sic with
      pendNl := FMap.set s.sic.pendNl e ⟨st.w, ad.f, ad.nq, ad.ein, ad.er, ad.held, (s.tb.lin + 1, new.1) :: st.next.take 4⟩ } }

/-! ## The beat program -/

/-- Instance `c` runs in work beat n: capture for n+1, cancellation of n−2, nonlinear update from n−2. -/
def sicBegin (c : Nat) (s : State) : State :=
  let par := sicPar s c
  let car := carrierOf s c
  let n := s.tb.lin
  let on := s.frm.active.any (fun f => f.sbfd)
  if !on then s
  else
    let s := if !par.linEn then s
      else
        let s := sicCapture c (n + 1) s
        if refValid s c (stampOfLin (n - 2)) then
          (List.range 256).foldl (fun s e => (cancelGroups par car.nprb).foldl (fun s g => sicGroup c e g (n - 2) s) s) s
        else markSubst 3 c (count 0x305 c s)
    if c = 0 && par.nlEn then (List.range 256).foldl (fun s e => sicNonlinear e (n - 2) s) s else s

/-- What instance `c` prepared is dropped. -/
def sicDropPending (c : Nat) (s : State) : State :=
  { s with sic := { s.sic with
    pendLin := s.sic.pendLin.filter (fun p => decide (p.1 / 8192 ≠ c))
    pendNl := if c = 0 then [] else s.sic.pendNl
    pendRing := s.sic.pendRing.filter (fun p => decide (p.1 / 4 ≠ c)) } }

/-- Instance `c` commits its updates and its ring stamp (R142, R149). -/
def sicCommit (c : Nat) (s : State) : State :=
  let lin := (s.sic.pendLin.filter (fun p => decide (p.1 / 8192 = c))).foldl (fun m p => FMap.set m p.1 p.2) s.sic.lin
  let nl := if c = 0 then s.sic.pendNl.foldl (fun m p => FMap.set m p.1 p.2) s.sic.nl else s.sic.nl
  let ring := (s.sic.pendRing.filter (fun p => decide (p.1 / 4 = c))).foldl (fun m p => FMap.set m p.1 p.2) s.sic.ring
  sicDropPending c { s with sic := { s.sic with lin := lin, nl := nl, ring := ring } }

/-- The program completes; a sillage commits with the SEAL of the beat. -/
def sicComplete (c : Nat) (s : State) : State := if s.nose.mode == .sillage then s else sicCommit c s

/-- Every state of instance `c` restarts empty. -/
def sicRestartLin (c : Nat) (s : State) : State :=
  { s with sic := { s.sic with lin := s.sic.lin.filter (fun p => decide (p.1 / 8192 ≠ c)) } }

/-- The instance is stopped or does not run: its blocks are ZERO_MISSING, its states hold or restart (R152). -/
def sicSubstitute (c : Nat) (s : State) : State :=
  let par := sicPar s c
  let nprb := (carrierOf s c).nprb
  let b := stampOfLin (s.tb.lin - 2)
  let s := sicDropPending c s
  let s := if !par.linEn then s
    else
      let base := if stampSymbol b % 2 = 0 then par.inEven else par.inOdd
      (List.range 256).foldl (fun s e => (cancelGroups par nprb).foldl (fun s g =>
        feWrite (base + e * packStride par nprb + groupOffset par nprb g)
          ((List.range (groupPrbs nprb g)).flatMap (fun i => fblockBytes (fblockMissing (16 * g + i)))) s) s) s
  let s := if substRule s 3 2 = 0 then sicRestartLin c s else s
  if c = 0 && substRule s 3 3 = 0 then { s with sic := { s.sic with nl := [] } } else s

/-- The SIC at a common starting state (R151). -/
def sicZero (s : State) : State := { s with sic := { sicReset with shallow := s.sic.shallow } }

/-- A seamless switch: linear states whose group or neighbours changed restart, a changed NL_LEAD restarts the nonlinear
states (R151). -/
def sicSwitch (old new : Formula) (s : State) : State :=
  let par (f : Formula) (c : Nat) : SicPar := (f.sic[c]?).getD {}
  let nb (f : Formula) (e j : Nat) : Option Nat := ((f.geo.getD e []).find? (fun p => p.1 == j)).map (fun p => p.2)
  let lin := s.sic.lin.filterMap (fun p =>
    let c := p.1 / 8192
    let e := p.1 / 32 % 256
    let g := p.1 % 32
    if (par old c).cancel.getLsbD g && (par new c).cancel.getLsbD g then
      let keep := p.2.coef.filter (fun q => nb old e q.1 == nb new e q.1 && (nb new e q.1).isSome)
      some (p.1, if (List.range 8).all (fun j => nb old e j == nb new e j) then p.2 else { sicLinReset with coef := keep })
    else none)
  let nl := if (par old 0).nlLead = (par new 0).nlLead then s.sic.nl else []
  { s with sic := { s.sic with lin := lin, nl := nl } }

/-- At the end of a slot every carrier that counted a shallow group raises EV_SIC_SHALLOW once (R153). -/
def sicSlotEnd (s : State) : State :=
  let l := s.sic.shallow
  let s := { s with sic := { s.sic with shallow := [] } }
  l.foldl (fun s p => if p.2 = 0 then s else raiseEv 0x19 0x3 [.num 1 p.1, .num 1 0, .num 2 (Nat.min p.2 65535)] s) s

/-! ## SIC.DEPTH and SIC.RETRAIN (R154) -/

/-- A depth entry. -/
def depthEntry (ein er e g : Nat) (trained held : Bool) : Nat :=
  ein * 2 ^ 80 + er * 2 ^ 32 + e * 2 ^ 24 + g * 2 ^ 19 + (if trained then 2 ^ 18 else 0) + (if held then 2 ^ 17 else 0)

/-- Every depth entry of a carrier. -/
def depthEntries (s : State) (c : Nat) : List Nat :=
  let par := sicPar s c
  let p0 := sicPar s 0
  (List.range 256).flatMap (fun e =>
    (cancelGroups par (carrierOf s c).nprb).map (fun g =>
      let x := FMap.get sicLinReset s.sic.lin (linKey c e g)
      depthEntry x.ein x.er e g (decide (x.nq ≥ par.trainCount)) x.held)
    ++ [let x := FMap.get sicNlReset s.sic.nl e
        depthEntry x.ein x.er e 31 (decide (x.nq ≥ p0.nlTrainCount)) x.held])

/-- SIC.DEPTH: a page of at most 250 entries. -/
def sicDepth (carrier : BitVec 8) (first : BitVec 16) (s : State) : Reply × State :=
  let l := depthEntries s carrier.toNat
  let f := first.toNat
  if carrier.toNat > 3 || f ≥ l.length then fails stBadField s
  else
    let n := Nat.min 250 (l.length - f)
    (.done stOk ([.num 2 n, .num 2 0] ++ ((l.drop f).take n).map (fun v => Fld.num 16 v)) none
      (if f + n < l.length then f + n else 0), s)

def execSicDepth (h : Hdr) (carrier : BitVec 8) (first : BitVec 16) (s : State) : Host.Outcome State Fault Refusal :=
  .next (serve 0x1201 h (inModes modesOLM) (sicDepth carrier first) s)

/-- SIC.RETRAIN: legal masks wait for the next slot boundary. -/
def sicRetrain (h : Hdr) (elements : BitVec 256) (carriers nl : BitVec 8) (s : State) : Reply × State :=
  if carriers.toNat > 15 || nl.toNat > 1 then fails stBadField s
  else acceptPair 0x1202 h .nextSlot (.sicRetrain elements carriers (nl == 1#8)) [] id s

def execSicRetrain (h : Hdr) (elements : BitVec 256) (carriers nl : BitVec 8) (s : State) :
    Host.Outcome State Fault Refusal :=
  .next (serve 0x1202 h (leadModes modesYOLM) (sicRetrain h elements carriers nl) s)

/-- The named states restart empty. -/
def applySicRetrain (elements : BitVec 256) (carriers : BitVec 8) (nl : Bool) (s : State) : State :=
  { s with sic := { s.sic with
    lin := s.sic.lin.filter (fun p => !(elements.getLsbD (p.1 / 32 % 256) && carriers.getLsbD (p.1 / 8192)))
    nl := if nl then s.sic.nl.filter (fun p => !(elements.getLsbD p.1)) else s.sic.nl } }

end Sys2Proof.Machine
end

