-- ==== Sys2Proof/Machine/ImageParts.lean ====
section
/-! DEFINITION. The formula image: header, directory, and the entries and parameters of its sections (R27 to R34, R103, R115,
R135, R136, R175, R235, R288, R289). -/

namespace Sys2Proof.Machine
open Sys2Proof

/-! ## Header and directory (R27 to R30) -/

/-- A directory entry. -/
structure Sec where
  type : Nat
  unit : Nat
  inst : Nat
  off : Nat
  len : Nat
  /-- its reserved bits are zero -/
  rsv : Bool
deriving DecidableEq, Repr, Inhabited

/-- A field of the header. -/
def imgHead (b : List Byte) (hi lo : Nat) : Nat := bits (leAt b 0 64) hi lo

/-- Entry `i` of the directory. -/
def secAt (b : List Byte) (i : Nat) : Sec :=
  let v := leAt b (64 + 16 * i) 16
  ⟨bits v 7 0, bits v 15 12, bits v 23 16, bits v 63 32, bits v 95 64,
    bits v 11 8 == 0 && bits v 31 24 == 0 && bits v 127 96 == 0⟩

/-- The directory. -/
def secsOf (b : List Byte) : List Sec := (List.range (imgHead b 159 144)).map (secAt b)

/-- The bytes of the section of a type, unit and instance; none without it. -/
def secBytes (b : List Byte) (type unit inst : Nat) : Option (List Byte) :=
  ((secsOf b).find? (fun e => e.type == type && e.unit == unit && e.inst == inst)).map (fun e => slice b e.off e.len)

/-- A section that the image must have; empty where it is absent. -/
def secMust (b : List Byte) (type : Nat) : List Byte := (secBytes b type 5 0).getD []

/-- The parameters of a unit instance, as a number. -/
def secPar (b : List Byte) (unit inst : Nat) : Option Nat := (secBytes b 0x11 unit inst).map leNat

/-- Step 1 of the table "Formula verification". -/
def headerOk (b : List Byte) : Bool :=
  imgHead b 31 0 == 0x4B5A4631 && imgHead b 47 32 == 1 && imgHead b 55 48 == 0xA0 && imgHead b 95 64 == b.length
    && imgHead b 63 60 == 0 && imgHead b 511 208 == 0

/-- Every byte of the image outside some ranges is zero. -/
def zeroOutside (b : List Byte) (used : List (Nat × Nat)) : Bool :=
  b.zipIdx.all (fun p => p.1 == 0 || used.any (fun u => decide (u.1 ≤ p.2) && decide (p.2 < u.1 + u.2)))

/-- Ranges (first, count) overlap nowhere. -/
def disjointRanges : List (Nat × Nat) → Bool
  | [] => true
  | a :: t => t.all (fun b => !overlaps a.1 a.2 b.1 b.2) && disjointRanges t

/-- The section types that stand exactly once, with UNIT 0x5 and INSTANCE 0. -/
def singleTypes : List Nat := [0x01, 0x02, 0x03, 0x04, 0x05, 0x06, 0xFF]

/-- How often a type may stand (R29). -/
def secCounts (l : List Sec) : Bool :=
  singleTypes.all (fun t => (l.filter (fun e => e.type == t)).length == 1)
    && l.all (fun e => if singleTypes.contains e.type then e.unit == 5 && e.inst == 0
        else (e.type == 0x10 || e.type == 0x11)
          && (l.filter (fun x => x.type == e.type && x.unit == e.unit && x.inst == e.inst)).length == 1)

/-- The layout of R27 and R29, and the fixed fields of the signature section (R34). -/
def layoutOk (b : List Byte) : Bool :=
  let n := imgHead b 159 144
  let l := secsOf b
  let used := [(0, 64), (64, 16 * n)] ++ l.map (fun e => (e.off, e.len))
  b.length % 64 == 0 && decide (4096 ≤ b.length) && decide (b.length ≤ 0x800000)
    && decide (7 ≤ n) && decide (n ≤ 1024)
    && l.all (fun e => e.rsv && e.off % 64 == 0 && e.len % 64 == 0 && decide (e.off + e.len ≤ b.length))
    && disjointRanges used && secCounts l
    && l.all (fun e => e.type != 0xFF || (e.off == b.length - 256 && e.len == 256))
    && zeroOutside b used

/-- A field of the signature section. -/
def sigField (b : List Byte) (hi lo : Nat) : Nat := bits (leAt b (b.length - 256) 256) hi lo

/-- ALG, the first byte of PUBKEY and the reserved bits of the signature section (R34). -/
def sigFixedOk (b : List Byte) : Bool :=
  sigField b 7 0 == 1 && sigField b 127 16 == 0 && sigField b 1023 904 == 0 && sigField b 2047 1792 == 0
    && sigField b 135 128 == 4

/-! ## Entries (R31, R32, R288) -/

/-- The entries of a section, each a number, padding left out. -/
def secEntries (size : Nat) (b : List Byte) : List Nat :=
  ((List.range (b.length / size)).map (fun i => leAt b (size * i) size)).filter (fun v => v != 0)

/-- A CARRIERS entry. -/
def carrierEntry (v : Nat) : Carrier where
  enable := bitN v 63
  dlEn := bitN v 62
  ulEn := bitN v 61
  sbfd := bitN v 60
  resp := Fin.ofNat 32 (bits v 59 55)
  minphase := bitN v 54
  fft := Fin.ofNat 4 (bits v 53 52)
  nprb := bits v 51 43
  admitBeats := bits v 42 39

/-- The four CARRIERS entries. -/
def imgCarriers (b : List Byte) : List Carrier := (List.range 4).map (fun c => carrierEntry (leAt (secMust b 1) (8 * c) 8))

/-- A BUDGETS entry. -/
def budgetEntry (v : Nat) : Budget :=
  ⟨bits v 127 124, bits v 123 116, BitVec.ofNat 14 (bits v 115 102), bits v 95 64, bits v 63 32, bits v 31 0⟩

/-- A MOVES entry. -/
def moveEntry (v : Nat) : Move :=
  ⟨bits v 127 124, bits v 123 120, BitVec.ofNat 14 (bits v 111 98), bits v 95 64, bits v 63 32, bits v 31 15, bits v 14 0⟩

/-- A DEADLINES entry. -/
def deadlineEntry (v : Nat) : Deadline := ⟨bits v 63 56, bits v 55 48, signed 8 (bits v 47 40), bits v 31 0⟩

/-- A SUBSTITUTES entry. -/
def substEntry (v : Nat) : Subst := ⟨bits v 31 28, bits v 27 20, bits v 19 16⟩

/-- A QUEUE_MAP entry. -/
def queueEntry (v : Nat) : QEntry :=
  ⟨bits v 255 240, bits v 239 236, BitVec.ofNat 2 (bits v 235 234), bits v 233 230, BitVec.ofNat 48 (bits v 223 176),
    bits v 159 128⟩

/-! ## Parameters -/

/-- EFE carrier parameters. -/
def efeEntry (v : Nat) : EfePar := ⟨signed 16 (bits v 63 48), bits v 47 32, bits v 31 16⟩

/-- STU carrier parameters. -/
def stuEntry (v : Nat) : StuPar where
  erBase := bits v 287 256
  ulBase := bits v 255 224
  dlBase := bits v 223 192
  reportPeriod := bits v 191 176
  eraseLimit := bits v 175 166
  guard := bits v 165 163
  avgShift := bits v 162 159
  blEn := bitN v 158
  waves := bits v 150 144
  clear := bits v 143 128
  thresh := bits v 127 112
  txShift := bits v 15 12
  winAdvance := bits v 6 0

/-- SIC carrier parameters. -/
def sicEntry (v : Nat) : SicPar where
  inEven := bits v 511 480
  inOdd := bits v 479 448
  refBase := bits v 447 416
  stateBase := bits v 415 384
  cancel := BitVec.ofNat 18 (bits v 383 366)
  linEn := bitN v 352
  muTrain := bits v 351 336
  muTrack := bits v 335 320
  margin := bits v 319 304
  trainCount := bits v 303 296
  epsExp := bits v 295 290
  depthMin := bits v 287 256
  nlEn := bitN v 127
  nlLead := bits v 126 123
  quietPeriod := bits v 122 112
  quietMask := BitVec.ofNat 14 (bits v 111 98)
  nlMuTrain := bits v 95 80
  nlMuTrack := bits v 79 64
  nlMargin := bits v 63 48
  nlTrainCount := bits v 47 40
  nlEpsExp := bits v 39 34

/-- The default geometry of element `e` (R136): its neighbours on the panel in ascending index. -/
def geoDefault (e : Nat) : Geo :=
  let near := (List.range 256).filter (fun n => n != e
    && decide (n / 16 ≤ e / 16 + 1) && decide (e / 16 ≤ n / 16 + 1) && decide (n % 16 ≤ e % 16 + 1) && decide (e % 16 ≤ n % 16 + 1))
  near.zipIdx.map (fun p => (p.2, p.1))

/-- A geometry entry. -/
def geoEntry (v : Nat) : Geo :=
  (List.range 8).filterMap (fun k => if bitN v (64 + k) then some (k, bits v (8 * k + 7) (8 * k)) else none)

/-- The geometry of an image: its table, or the default. -/
def imgGeo (b : List Byte) : List Geo :=
  match secBytes b 0x11 3 0 with
  | some t => if t.length = 4160 then (List.range 256).map (fun e => geoEntry (leAt t (64 + 16 * e) 16))
      else (List.range 256).map geoDefault
  | none => (List.range 256).map geoDefault

/-- An output range. -/
def outRange (v : Nat) : OutRange := ⟨bits v 39 32, bitN v 31, bits v 30 16, bits v 15 0⟩

/-- A cluster entry. -/
def clusterEntry (v : Nat) : ClEntry where
  fgEntry := bits v 319 307
  bgEntry := bits v 306 294
  bgxFirst := bits v 293 286
  bgxRows := bits v 285 277
  bgyFirst := bits v 276 269
  bgyRows := bits v 268 260
  bgEn := bitN v 259
  gang := bits v 258 256
  outs := (List.range 4).map (fun i => outRange (bits v (359 + 40 * i) (320 + 40 * i)))

/-- The AE parameters of an image. -/
def imgAe (b : List Byte) : AePar :=
  match secBytes b 0x11 4 0 with
  | none => {}
  | some t =>
    let h := leAt t 0 64
    { wgLog2 := (List.range 4).map (fun c => bits h (12 * c + 27) (12 * c + 25))
      wlag := (List.range 4).map (fun c => bits h (12 * c + 24) (12 * c + 16))
      suspendLead := bits h 15 0
      clusters := (List.range 96).map (fun k => clusterEntry (leAt t (64 + 64 * k) 64)) }

/-- A base of the SQ parameters. -/
def sqBase (v : Nat) : Option Nat := if v = 0xFFFFFFFF then none else some v

/-- The SQ parameters. -/
def sqEntry (v : Nat) : SqPar where
  clean := (List.range 4).map (fun c => sqBase (bits v (32 * c + 927) (32 * c + 896)))
  sref := (List.range 4).map (fun c => sqBase (bits v (32 * c + 799) (32 * c + 768)))
  ersq := (List.range 4).map (fun c => sqBase (bits v (32 * c + 671) (32 * c + 640)))
  dlb := (List.range 4).map (fun c => sqBase (bits v (32 * c + 543) (32 * c + 512)))
  winBeat := (List.range 4).map (fun c => bits v (32 * c + 415) (32 * c + 384))
  winBase := sqBase (bits v 383 352)
  winBytes := bits v 351 320
  pktBase := sqBase (bits v 319 288)
  pktBuffers := bits v 287 276
  horizon := bits v 275 267

/-- The drydown parameters. -/
def ddEntry (v : Nat) : DdPar where
  jobClusters := BitVec.ofNat 96 (bits v 1023 928)
  base := bits v 927 888
  bytes := bits v 887 848
  inBase := bits v 847 816
  wstore := bits v 815 784
  wslotBytes := bits v 783 752
  wgBytes := bits v 751 720
  resultBase := (List.range 4).map (fun c => bits v (32 * c + 623) (32 * c + 592))
  wslots := bits v 591 584
  retain := bits v 583 578
  effort := bits v 577 576
  resultLog2 := bits v 575 573

/-- The cluster programs of an image, as bytes of their stores (R30). -/
def imgProgs (b : List Byte) : List Prog :=
  ((secsOf b).filter (fun e => e.type == 0x10)).map (fun e =>
    let t := slice b e.off e.len
    let first := leAt t 0 4
    ⟨e.inst, first, slice t 8 (leAt t 4 4 + 1 - first)⟩)

/-- The formula that an image spells. -/
def imgFormula (b : List Byte) : Formula where
  id := BitVec.ofNat 32 (imgHead b 127 96)
  revision := BitVec.ofNat 16 (imgHead b 143 128)
  cls := BitVec.ofNat 32 (imgHead b 191 160)
  length := b.length
  drydown := imgHead b 59 59 == 1
  accord := imgHead b 58 58 == 1
  sbfd := imgHead b 57 57 == 1
  topnote := imgHead b 56 56 == 1
  carriers := imgCarriers b
  queues := (secEntries 32 (secMust b 2)).map queueEntry
  budgets := (secEntries 16 (secMust b 3)).map budgetEntry
  moves := (secEntries 16 (secMust b 4)).map moveEntry
  deadlines := (secEntries 8 (secMust b 5)).map deadlineEntry
  substs := (secEntries 4 (secMust b 6)).map substEntry
  efe := (List.range 4).map (fun c => (secPar b 1 c).elim {} efeEntry)
  stu := (List.range 4).map (fun c => (secPar b 2 c).map stuEntry)
  sic := (List.range 4).map (fun c => (secPar b 3 c).elim {} (fun v => sicEntry (v % 2 ^ 512)))
  geo := imgGeo b
  ae := imgAe b
  sq := (secPar b 6 0).elim {} sqEntry
  dd := if imgHead b 59 59 == 1 then (secPar b 8 0).map ddEntry else none
  progs := imgProgs b
  hash := BitVec.ofNat 384 (sha384 b)

end Sys2Proof.Machine
end

