-- ==== Sys2Proof/Machine/Fhp.lean ====
section
/-! DEFINITION. The Ethernet ports: parameter words, link state, acceptance of frames, eCPRI, delay measurement, the
management stream and accord frames (R264 to R287, R313, R394, R230). -/

namespace Sys2Proof.Machine
open Sys2Proof

/-! ## Port words and link state (R268, R269) -/

/-- A port parameter word obeys its ranges and reserved bits. -/
def portWordOk (p : Nat) (w : Nat) : Bool :=
  bits w 79 76 == 0 && bits w 49 0 == 0 && decide (1 ≤ bits w 75 64) && decide (bits w 75 64 ≤ 4094)
    && (p < 2 || !bitN w 59)

/-- PORT.CONFIG: accepted for the next slot boundary; ENABLE and the inversions change in STANDBY only. -/
def portConfig (port : BitVec 8) (word : BitVec 128) (s : State) : Reply × State :=
  let p := port.toNat
  if p > 5 then fails stBadField s
  else if !portWordOk p word.toNat then fails stBadField s
  else if s.nose.mode != .standby && bits word.toNat 58 50 != bits (portWord s p).toNat 58 50 then fails stBadField s
  else accept .nextSlot (.portConfig port word) [] id s

def execPortConfig (h : Hdr) (port : BitVec 8) (word : BitVec 128) (s : State) : Host.Outcome State Fault Refusal :=
  .next (serve 0x1901 h (inModes modesYOLM) (portConfig port word) s)

/-- A port word takes effect: ENABLE begins training or turns the port off. -/
def applyPortConfig (p : Nat) (w : BitVec 128) (s : State) : State :=
  let on := bitN w.toNat 58
  let was := portEnable s p
  let par := if w = portWordReset s p then FMap.erase s.fhp.par p else FMap.set s.fhp.par p w
  let s := { s with fhp := { s.fhp with par := par } }
  if on == was then s
  else portSet p { portGet s p with st := if on then 1 else 0, aligned := false, hiSer := false } s

/-- A port status word (R268). -/
def portStatusWord (s : State) (p : Nat) : Nat :=
  let v := portGet s p
  v.st.val * 2 ^ 28 + (if v.aligned then 2 ^ 27 else 0) + (if v.hiSer then 2 ^ 26 else 0) + v.downs.toNat

def execPortStatus (h : Hdr) (s : State) : Host.Outcome State Fault Refusal :=
  .next (serve 0x1902 h (inModes modesYOLM)
    (fun s => okWith ((List.range 6).map (fun p => .num 4 (portStatusWord s p))) s) s)

/-- ALIGNED set and HI_SER clear: a port that trains or is DOWN enters UP. -/
def portUp (p : Nat) (s : State) : State :=
  let v := portGet s p
  if v.st == 1 || v.st == 3 then
    raiseEv 0x20 0x9 [.num 1 p] (portSet p { v with st := 2, aligned := true, hiSer := false } s)
  else s

def execPortUp (port : Fin 6) (s : State) : Host.Outcome State Fault Refusal := .next (portUp port.val s)

/-- Alignment fails, or the high symbol error rate sets in: a port that is UP enters DOWN. -/
def portDown (p : Nat) (hiSer : Bool) (s : State) : State :=
  let v := portGet s p
  if v.st == 2 then
    raiseEv 0x21 0x9 [.num 1 p] (count 0x909 p
      (portSet p { v with st := 3, aligned := hiSer, hiSer := hiSer, downs := v.downs + 1 } s))
  else if v.st == 0 then s
  else portSet p { v with aligned := v.aligned && hiSer, hiSer := hiSer } s

def execPortDown (port : Fin 6) (hiSer : Bool) (s : State) : Host.Outcome State Fault Refusal :=
  .next (portDown port.val hiSer s)

/-! ## Stamps (R313) -/

/-- Loopback depth of a port. -/
def portLoop (s : State) (p : Nat) : Nat := FMap.get 0 s.tst.loop (256 + p)

/-- Ingress correction, in 1/16 ns, and whether the deskew term applies. -/
def ingressCorrection (s : State) (p : Nat) : Nat × Bool :=
  match portLoop s p with
  | 1 => (3892, true)
  | 2 => (976, false)
  | 3 => (96, false)
  | _ => (3944, true)

/-- Egress correction, in 1/16 ns. -/
def egressCorrection (s : State) (p : Nat) : Nat :=
  match portLoop s p with
  | 2 => 680
  | 3 => 72
  | _ => 1900

/-- The receive stamp of a raw capture. -/
def rxStamp (s : State) (f : RxFrame) (capture : Int) : Int :=
  let c := ingressCorrection s f.port.val
  capture - c.1 - (if c.2 then f.deskew else 0) - rxExtra s f.port.val

/-- The transmit stamp of a raw capture. -/
def txStamp (s : State) (p : Nat) (capture : Int) : Int := capture + egressCorrection s p + txExtra s p

/-! ## Acceptance (R265 to R267) -/

/-- The parts of a frame up to its EtherType. -/
structure EthParts where
  dst : Nat
  src : Nat
  /-- VID of the tag, if there is one -/
  vid : Option Nat
  et : Nat
  body : List Byte
deriving DecidableEq, Repr

/-- Addresses, tag, EtherType and the bytes after it. -/
def ethParts (b : List Byte) : EthParts :=
  if beAt b 12 2 = 0x8100 then ⟨beAt b 0 6, beAt b 6 6, some (beAt b 14 2 % 4096), beAt b 16 2, b.drop 18⟩
  else ⟨beAt b 0 6, beAt b 6 6, none, beAt b 12 2, b.drop 14⟩

/-- The EtherType is accepted on the port. -/
def etherTypeOk (s : State) (p et : Nat) : Bool :=
  if p < 2 then et == 0xAEFE || et == 0x88B6 || (et == 0x88F7 && portPtp s p) else et == 0x88B5

/-- The frame is accepted (R266, R267), its FCS aside. -/
def frameOk (s : State) (p : Nat) (b : List Byte) : Bool :=
  let e := ethParts b
  let ptp := e.et == 0x88F7
  decide (64 ≤ b.length + 4) && decide (b.length + 4 ≤ 9600) && etherTypeOk s p e.et
    && (e.dst == portMac s p || (ptp && (e.dst == 0x011B19000000 || e.dst == 0x0180C200000E)))
    && (if ptp || !portTag s p then e.vid.isNone else e.vid == some (portVid s p))

/-- The modes in which fronthaul and accord frames are received (R18, R420). -/
def fronthaulOn (s : State) : Bool := inService s

/-! ## eCPRI (R270 to R282) -/

/-- The common header and what follows it: type, PAYLOAD_SIZE bytes; none where R270 discards on the header. -/
def ecpriParse (b : List Byte) : Option (Nat × List Byte) :=
  let h := beAt b 0 4
  let t := bits h 23 16
  let n := bits h 15 0
  if b.length < 4 || bits h 31 28 != 1 || bitN h 24 || !(t == 0 || t == 2 || t == 5) || b.length < 4 + n then none
  else some (t, slice b 4 n)

/-- A message of type 0 or 2 passes R270 and, for control, R277. -/
def messageOk (s : State) (p t : Nat) (l : List Byte) : Bool :=
  (if t = 0 then decide (20 ≤ l.length) && secKind l == 0 else decide (12 ≤ l.length) && l.length == 12 + 8 * ctlNent l
      && (match queueOf s (beAt l 0 2) with
        | some e => e.kind == 2 && e.ports.getLsbD p
        | none => false))
    && beAt l 3 1 == 0x80

/-- Forward an arrival to the sillage (R367). -/
def forwardArrival (p : Nat) (stamp : Int) (frame : List Byte) (s : State) : State :=
  sendTwLead 0 (.forward (BitVec.ofNat 4 p) false (BitVec.ofInt 36 stamp) frame) s

/-- An item from a message. -/
def itemOf (p t : Nat) (stamp : Int) (l frame : List Byte) : Item :=
  ⟨t == 2, beAt l 0 2, if t = 2 then ctlMsg l else secId l, p, stamp, l, frame, false⟩

/-- A layer section or control message arrives at port `p`: `shadow` is the sillage's own ingress (R368). -/
def messageArrive (shadow : Bool) (p t : Nat) (stamp : Int) (l frame : List Byte) (s : State) : State :=
  if !messageOk s p t l then count 0x90A p s
  else if !stampValid (msgBeat l) then count 0x605 0 s
  else
    let c := if t = 2 then ctlCarrier l else secCarrier l
    let r := admitItem shadow c (msgBeat l) (itemOf p t stamp l frame) s
    if r.1 && !shadow then forwardArrival p stamp frame r.2 else r.2

/-- A type 5 message is discarded. -/
def delayDiscard (p : Nat) (s : State) : State := count 0x90B p s

/-- Wire length of a type 5 message before the FCS. -/
def delayLen (s : State) (p : Nat) : Nat := 14 + (if portTag s p then 4 else 0) + 24

/-- Seconds and nanoseconds of a stamp in 1/16 ns. -/
def stampFlds (t16 : Int) : List Fld :=
  let ns := t16 / 16
  [sfld 6 (ns / 1000000000), .num 4 (ns % 1000000000).toNat]

/-- A one-way delay measurement message (R282): at most one answer per port in each beat. -/
def delayMessage (p : Nat) (src : Mac) (rx : Int) (l : List Byte) (s : State) : State :=
  if l.length < 20 then count 0x90A p s
  else if s.nose.mode == .sillage then delayDiscard p s
  else
    let id := l.getD 0 0
    let act := (l.getD 1 0).toNat
    let v := portGet s p
    if act = 0 && !v.measured then
      macSend p (delayLen s p) (.delayMeas p src 2 id rx) (portSet p { v with measured := true } s)
    else if act = 3 && !v.measured then
      let tx := txStamp s p (now16 s)
      macSend p (delayLen s p) (.delayMeas p src 0 id tx) (portSet p { v with measured := true, request := some (id, tx) } s)
    else if act = 2 && v.request.any (fun r => r.1 == id) then
      let tx := (v.request.map (fun r => r.2)).getD 0
      raiseEv 0x22 0x9 ([.num 1 p, .num 1 id.toNat] ++ stampFlds tx ++ [.num 6 (beAt l 2 6), .num 4 (beAt l 8 4)])
        (portSet p { v with request := none } s)
    else delayDiscard p s

/-- An accepted eCPRI frame. -/
def ecpriFrame (f : RxFrame) (e : EthParts) (s : State) : State :=
  let p := f.port.val
  match ecpriParse e.body with
  | none => count 0x90A p s
  | some (t, l) =>
    if t = 5 then delayMessage p (BitVec.ofNat 48 e.src) (rxStamp s f f.sfd) l s
    else messageArrive (s.nose.mode == .sillage) p t (rxStamp s f f.last) l f.bytes s

/-! ## The management stream (R394) -/

/-- An accepted management frame: its entry arrives at the mailbox, or it is dropped. -/
def managementEntry (p : Nat) (e : EthParts) (s : State) : State :=
  let h := beAt e.body 0 8
  let n := bits h 47 32
  if bits h 63 60 != 1 || bits h 59 56 != 1 || n < 16 || e.body.length < 8 + n then count 0xD06 0 s
  else
    let port : Fin 2 := if p = 0 then 0 else 1
    inbandArrive (.inband port (BitVec.ofNat 48 e.src) (BitVec.ofNat 12 (e.vid.getD 0))) p
      (BitVec.ofNat 32 (beAt e.body 8 4)) (BitVec.ofNat 16 (beAt e.body 12 2)) s

/-! ## Accord exchange frames (R230, R283 to R285) -/

/-- One accord section: P0, the missing bits and the blocks' exponents and mantissas. -/
structure AccSection where
  p0 : Nat
  nblk : Nat
  miss : Nat
  blocks : List (Nat × List Int)
deriving DecidableEq, Repr

/-- The 24 mantissas and the exponent of a 73-byte block. -/
def accBlock (l : List Byte) : Nat × List Int :=
  ((l.headD 0).toNat % 16, (List.range 24).map (fun i => signed 24 (beAt l (1 + 3 * i) 3)))

/-- The accord sections of a frame: `none` where a section is malformed. -/
def accSections : Nat → List Byte → Option (List AccSection)
  | 0, _ => some []
  | n + 1, l =>
    let h := beAt l 0 8
    let k := bits h 54 51
    if l.length < 8 + 73 * k || k = 0 || k > 10 || bits h 40 0 != 0
        || (List.range k).any (fun j => (l.getD (8 + 73 * j) 0).toNat ≥ 16) then none
    else (accSections n (l.drop (8 + 73 * k))).map (fun r =>
      ⟨bits h 63 55, k, bits h 50 41, (List.range k).map (fun j => accBlock (slice l (8 + 73 * j) 73))⟩ :: r)

/-- The device IDs of an accord slot joined to an accord. -/
def slotMembers (s : State) (slot accord : Nat) : List Nat :=
  match FMap.find s.twn.slots slot with
  | some (a, l) => if a.toNat = accord then l.map (fun m => bits m.toNat 127 114) else []
  | none => []

/-- The ACCORD_PARTIAL deadline of a slot: beat offset and cycle. -/
def slotDeadline (s : State) (slot : Nat) : Option (Int × Nat) :=
  (s.frm.active.bind (fun f => f.deadlines.find? (fun d => d.kind == 3 && d.scope == slot))).map (fun d => (d.off, d.cycle))

/-- The time-base time of a slot's deadline for an air beat, in 2^-40 ns. -/
def deadlineTime (s : State) (lin : Nat) (d : Int × Nat) : Int :=
  let b := ((lin : Int) + d.1).toNat
  let shift := if b = s.tb.lin then s.tb.shift else 0
  boundaryT s b + ((d.2 + shift) * s.tb.inc.toNat : Nat)

/-- One 48-bit cell of a raw pair with its flags, as 8 bytes (R161). -/
def cellBytes (v : Int) (miss taint : Bool) : List Byte :=
  leBytes 6 (wrapN 48 v) ++ [BitVec.ofNat 8 ((if miss then 1 else 0) + (if taint then 2 else 0)), 0]

/-- The value of a raw-pair cell (R230): M × 2^(15 + ACC_SH + E), saturated. -/
def rawValue (m : Int) (accSh : Int) (e : Nat) : Int :=
  let k := 15 + accSh + (e : Int)
  satI 48 (if k ≥ 0 then m * 2 ^ k.toNat else m)

/-- A raw-pair cell saturates. -/
def rawSat (m : Int) (accSh : Int) (e : Nat) : Nat :=
  let k := 15 + accSh + (e : Int)
  satCount 48 (if k ≥ 0 then m * 2 ^ k.toNat else m)

/-- The two rows of a raw pair: lane 12 j + k of the first row holds I, of the second Q. -/
def rawRows (accSh : Int) (taint : Bool) (x : AccSection) : List Byte :=
  let row (q : Nat) : List Byte := (List.range 128).flatMap (fun lane =>
    let j := lane / 12
    let k := lane % 12
    match x.blocks[j]? with
    | some b => if bitN x.miss j || lane ≥ 120 then cellBytes 0 true taint
      else cellBytes (rawValue (b.2.getD (2 * k + q) 0) accSh b.1) false taint
    | none => cellBytes 0 true false)
  row 0 ++ row 1

/-- Saturated cells of a raw pair. -/
def rawSats (accSh : Int) (x : AccSection) : Nat :=
  sumN (x.blocks.zipIdx.map (fun b => if bitN x.miss b.2 then 0 else sumN (b.1.2.map (fun m => rawSat m accSh b.1.1))))

/-- The anchor stores a raw pair. -/
def storeRaw (slot dev c l lin : Nat) (accSh : Int) (taint : Bool) (x : AccSection) (s : State) : State :=
  let a := Config.rawPairAddr slot dev c l x.p0 lin
  let b := rawRows accSh taint x
  countBy 0x40D 0 (rawSats accSh x) (resTaint a b.length taint (resWrite a b s))

/-- One accord section is filed: late, duplicate or arrived (R285, R232). -/
def fileAccord (p slot dev c l : Nat) (beat : Stamp) (late : Bool) (accSh : Int) (taint : Bool) (x : AccSection) (s : State) :
    State :=
  let lin := linNear s beat
  let r : Partial := ⟨slot, dev, beat, c, l, x.p0⟩
  if late || s.fhp.late.contains (slot, dev, lin) then count 0x40C slot s
  else if s.fhp.arrived.contains r then count 0x90D p s
  else storeRaw slot dev c l lin accSh taint x { s with fhp := { s.fhp with arrived := s.fhp.arrived ++ [r] } }

/-- An accepted accord frame at the anchor. `shadow`: the sillage's own ingress; `stamp`: that of its last byte. -/
def accordFrame (shadow : Bool) (p : Nat) (stamp : Int) (e : EthParts) (frame : List Byte) (s : State) : State :=
  let h := beAt e.body 0 24
  let accord := bits h 175 164
  let c := bits h 163 162
  let l := bits h 127 122
  let dev := bits h 159 146
  let ctx := ctxOf s c l
  let n := bits h 103 96
  let beat := BitVec.ofNat 32 (bits h 95 64)
  let slot := ctxSlot ctx
  let rsv := bits h 182 176 == 0 && bits h 161 160 == 0 && bits h 145 144 == 0 && bits h 129 128 == 0
    && bits h 115 104 == 0 && bits h 31 0 == 0
  let own := ctxUlEn ctx && ctxMode ctx == 2 && ctxAccord ctx == accord
  let secs := if n = 0 || n > 12 then none else accSections n (e.body.drop 24)
  match secs with
  | none => count 0x90C p s
  | some secs =>
    if e.body.length < 24 || bits h 191 188 != 1 || bits h 187 184 != 1 || !rsv || bits h 143 130 != s.nose.deviceId.toNat
        || !own || !(slotMembers s slot accord).contains dev || signed 6 (bits h 121 116) != ctxAccSh ctx
        || secs.any (fun x => x.p0 % 10 != 0 || x.p0 + x.nblk > (carrierOf s c).nprb) then count 0x90C p s
    else if !stampValid beat then count 0x605 0 s
    else
      let d := beatDist s.tb.beat beat
      if decide ((sqPar s).horizon < d) && decide (d < 36700160) then
        if shadow then s else discardArrival 0 0 beat 2 s
      else if shadow then countBy 0xC01 0 secs.length s
      else
        let late := match slotDeadline s slot with
          | some dl => decide (deadlineTime s (linNear s beat) dl ≤ stamp * 2 ^ 36)
          | none => false
        let s' := secs.foldl (fun s x => fileAccord p slot dev c l beat late (ctxAccSh ctx) (bitN h 183) x s) s
        if s'.fhp.arrived.length = s.fhp.arrived.length then s' else forwardArrival p stamp frame s'

/-! ## What the MAC does with a frame -/

/-- What a PTP frame does beyond its acceptance. -/
abbrev PtpUse := RxFrame → State → State

/-- A frame from the PCS meets R266 to R269 and its traffic's rules; `ptp` is what a PTP message does. -/
def frameReceive (f : RxFrame) (ptp : PtpUse) (s : State) : State :=
  let p := f.port.val
  if !portIsUp s p || s.nose.mode == .boot || s.nose.mode == .base then s
  else if !f.fcsOk then count 0x904 p s
  else
    let e := ethParts f.bytes
    let fronthaul := e.et == 0xAEFE || e.et == 0x88B5
    if !frameOk s p f.bytes || (fronthaul && !fronthaulOn s) || (e.et == 0x88F7 && s.nose.mode == .sillage) then
      count 0x907 p s
    else
      let s := countBy 0x902 p (f.bytes.length + 4) (count 0x900 p s)
      if e.et = 0xAEFE then ecpriFrame f e s
      else if e.et = 0x88B6 then managementEntry p e s
      else if e.et = 0x88B5 then accordFrame (s.nose.mode == .sillage) p (rxStamp s f f.last) e f.bytes s
      else ptp f s

/-- A PTP frame that carries no message of the supported subset (R315). -/
def ptpDiscard : PtpUse := fun f s => count 0xA01 f.port.val s

def execMacFrameReject (f : RxFrame) (s : State) : Host.Outcome State Fault Refusal := .next (frameReceive f ptpDiscard s)
def execEcpriIqSection (f : RxFrame) (s : State) : Host.Outcome State Fault Refusal := .next (frameReceive f ptpDiscard s)
def execEcpriRtControl (f : RxFrame) (s : State) : Host.Outcome State Fault Refusal := .next (frameReceive f ptpDiscard s)
def execEcpriDelayMeasurement (f : RxFrame) (s : State) : Host.Outcome State Fault Refusal :=
  .next (frameReceive f ptpDiscard s)
def execManagementFrame (f : RxFrame) (s : State) : Host.Outcome State Fault Refusal := .next (frameReceive f ptpDiscard s)
def execAccordExchangeFrame (f : RxFrame) (s : State) : Host.Outcome State Fault Refusal := .next (frameReceive f ptpDiscard s)

end Sys2Proof.Machine
end

