-- ==== Sys2Proof/Machine/Layers.lean ====
section
/-! DEFINITION. Layer contexts, host weights and weight versions, the capacity check, the sounding table and AE.STATUS (R170,
R208, R209, R214, R215, R280, R286). -/

namespace Sys2Proof.Machine
open Sys2Proof

/-! ## Layer contexts (R208, R209) -/

/-- The fields of a context lie in their ranges; those that count only with UL_EN set are else not checked. -/
def ctxFieldsOk (w : BitVec 128) : Bool :=
  bits w.toNat 8 0 == 0 && decide (ctxMant w ≤ 5) && decide (ctxPscale w ≤ 0x7FFF)
    && (!ctxUlEn w || (decide (ctxMode w ≤ 3) && decide (1 ≤ ctxRcLag w) && decide (ctxRcLag w ≤ 112)
      && decide (-15 ≤ ctxAccSh w) && decide (ctxAccSh w ≤ 24)))

/-- A queue of a formula's map is a UL_EGRESS queue. -/
def isUlEgress (f : Formula) (q : Nat) : Bool := f.queues.any (fun e => e.queue == q && e.kind == 3)

/-- A deadline of a formula: beat offset and cycle. -/
def deadlineOf (f : Formula) (kind scope : Nat) : Option (Nat × Nat) :=
  (f.deadlines.find? (fun d => d.kind == kind && d.scope == scope)).map (fun d => (d.off.toNat, d.cycle))

/-- L of R246: the largest RC_LAG of the carrier's layers in MODE RECOMBINE; none without such a layer. -/
def maxLag (m : FMap (BitVec 128)) (c : Nat) : Option Nat :=
  let l := ((List.range 64).map (ctxIn m c)).filter (fun w => ctxUlEn w && ctxMode w == 1)
  if l.isEmpty then none else some (maxN (l.map ctxRcLag))

/-- One context passes R209 under a formula; `m` holds every context as it will stand. -/
def ctxRuleOk (s : State) (f : Formula) (m : FMap (BitVec 128)) (c l : Nat) : Bool :=
  let w := ctxIn m c l
  let car := f.carriers.getD c ⟨false, false, false, false, 0, false, 0, 0, 0⟩
  let ul := ctxUlEn w
  let mode := ctxMode w
  ctxFieldsOk w
    && (!ul || (car.enable && car.ulEn)) && (!ctxDlEn w || (car.enable && car.dlEn))
    && (!ctxTopnote w || (ul && mode != 3 && f.topnote && isUlEgress f (ctxTopQ w)))
    && (!ul || (isUlEgress f (ctxHeartQ w)
      && (mode != 1 || (f.drydown && match f.dd, deadlineOf f 2 c, deadlineOf f 4 c, maxLag m c with
        | some d, some dr, some rc, some lag =>
          decide (ctxRcLag w + 3 ≤ dr.1) && decide (rc.1 ≤ 2 ^ d.resultLog2 + lag + 1)
        | _, _, _, _ => false))
      && (!(mode == 2 || mode == 3) || (f.accord && (deadlineOf f 3 (ctxSlot w)).isSome
        && (FMap.find s.twn.slots (ctxSlot w)).any (fun x => x.1.toNat == ctxAccord w)))))

/-- Every context passes R209 under a formula. -/
def contextsOk (s : State) (f : Formula) (m : FMap (BitVec 128)) : Bool :=
  m.all (fun p => ctxRuleOk s f m (p.1 / 64) (p.1 % 64))

/-! ## Capacity (R286) -/

/-- NMAX of a mantissa width (R274). -/
def nmax (w : Nat) : Nat := 8960 / (1 + 3 * w)

/-- The host port of a queue. -/
def queuePort (f : Formula) (q : Nat) : Option Nat :=
  (f.queues.find? (fun e => e.queue == q)).map (fun e => if e.ports.getLsbD 0 then 0 else 1)

/-- Port, MAC_A and MAC_B of a device in an accord slot (R384). -/
def memberEntry (s : State) (slot dev : Nat) : Option (Nat × Mac × Mac) :=
  ((FMap.find s.twn.slots slot).bind (fun x => x.2.find? (fun m => bits m.toNat 127 114 == dev))).map
    (fun m => (bits m.toNat 113 112, BitVec.ofNat 48 (bits m.toNat 95 48), BitVec.ofNat 48 (bits m.toNat 47 0)))

/-- Worst-case egress bytes of one layer in a beat, by port 0 to 5. -/
def layerEgress (s : State) (f : Formula) (c : Nat) (w : BitVec 128) : List (Nat × Nat) :=
  let n := (f.carriers.getD c ⟨false, false, false, false, 0, false, 0, 0, 0⟩).nprb
  let mw := mantWidth (ctxMant w)
  let secs := ceilDiv n (nmax mw)
  let pay := n * (1 + 3 * mw) + 66 * secs
  if !ctxUlEn w then []
  else if ctxMode w = 3 then
    let acc := ceilDiv n 10
    match memberEntry s (ctxSlot w) (ctxAnchor w) with
    | some m => [(2 + m.1, 8 * acc + 73 * n + 66 * ceilDiv acc 12)]
    | none => []
  else
    let notes := if ctxTopnote w || ctxMode w == 1 || ctxMode w == 2 then 98 * secs else 0
    ((queuePort f (ctxHeartQ w)).map (fun p => (p, pay + notes))).toList
      ++ (if ctxTopnote w then ((queuePort f (ctxTopQ w)).map (fun p => (p, pay))).toList else [])

/-- Every port's worst-case egress stays within the capacity. -/
def capacityOk (s : State) (f : Formula) (m : FMap (BitVec 128)) : Bool :=
  let l := m.flatMap (fun p => layerEgress s f (p.1 / 64) p.2)
  (List.range 6).all (fun p => decide (sumN ((l.filter (fun e => e.1 == p)).map (fun e => e.2)) ≤ 1696428))

/-- The contexts after a list of items. -/
def putContexts (m : FMap (BitVec 128)) (items : List LayerItem) : FMap (BitVec 128) :=
  items.foldl (fun m i => FMap.put layerReset m (64 * i.carrier.toNat + i.layer.toNat) i.ctx) m

/-- The contexts that will stand once every accepted LAYER.CONFIG has taken effect. -/
def contextsDue (s : State) : FMap (BitVec 128) :=
  s.nose.sched.foldl (fun m e => match e.act with
    | .layerConfig items => putContexts m items
    | _ => m) s.ae.layers

/-- The status of a list of contexts against the active formula (R209, R286). -/
def layerItemsStatus (items : List LayerItem) (s : State) : Nat :=
  let m := putContexts (contextsDue s) items
  let ok := match s.frm.active with
    | some f => items.all (fun i => ctxRuleOk s f m i.carrier.toNat i.layer.toNat)
    | none => items.all (fun i => ctxFieldsOk i.ctx)
  if !ok then stBadField
  else if !(s.frm.active.elim true (fun f => capacityOk s f m)) then stCapacity
  else stOk

/-- LAYER.CONFIG. -/
def layerConfig (h : Hdr) (b : Stamp) (items : List LayerItem) (s : State) : Reply × State :=
  if items.isEmpty || items.length > 128 || items.any (fun i => i.carrier.toNat > 3 || i.layer.toNat > 63) then fails stBadField s
  else
    let st := checkS b s
    if st ≠ stOk then fails st s
    else
      let m := layerItemsStatus items s
      if m ≠ stOk then fails m s
      else acceptPair 0x1401 h (.at b) (.layerConfig items) [] id s

def execLayerConfig (h : Hdr) (b : Stamp) (items : List LayerItem) (s : State) : Host.Outcome State Fault Refusal :=
  .next (serve 0x1401 h (leadModes modesYOLM) (layerConfig h b items) s)

/-- Contexts take effect; those of the last beats are kept for the egress of their air beats (R222). -/
def applyLayerConfig (items : List LayerItem) (s : State) : State :=
  let m := putContexts s.ae.layers items
  let log := if s.ae.layerLog.isEmpty then [(0, s.ae.layers)] else s.ae.layerLog
  let log := (s.tb.lin, m) :: log.filter (fun e => e.1 != s.tb.lin)
  { s with ae := { s.ae with layers := m, layerLog := log } }

/-! ## Weights (R214, R215) -/

/-- G_W of a carrier (R213). -/
def groupSize (s : State) (c : Nat) : Nat := 2 ^ ((s.frm.active.map (fun f => f.ae.wgLog2.getD c 0)).getD 0)

/-- Weight groups of a carrier: those of its PRBs, or the most there can be without a formula. -/
def weightGroups (s : State) (c : Nat) : Nat :=
  match s.frm.active with
  | some _ => ceilDiv (carrierOf s c).nprb (groupSize s c)
  | none => 273

/-- LAYER.WEIGHTS. -/
def layerWeights (h : Hdr) (b : Stamp) (carrier layer : BitVec 8) (firstQ nq : BitVec 16) (w : List (BitVec 32)) (s : State) :
    Reply × State :=
  if carrier.toNat > 3 || layer.toNat > 63 || nq.toNat = 0 || nq.toNat > 3
      || firstQ.toNat + nq.toNat > weightGroups s carrier.toNat then fails stBadField s
  else
    let st := checkS b s
    if st ≠ stOk then fails st s
    else acceptPair 0x1402 h (.at b) (.layerWeights carrier layer firstQ w b) [] id s

def execLayerWeights (h : Hdr) (b : Stamp) (carrier layer : BitVec 8) (firstQ nq : BitVec 16) (w : List (BitVec 32)) (s : State) :
    Host.Outcome State Fault Refusal :=
  .next (serve 0x1402 h (leadModes modesYOLM) (layerWeights h b carrier layer firstQ nq w) s)

/-- Key of a layer's versions: from sounding, or from the host. -/
def versionKey (host : Bool) (c l : Nat) : Nat := (if host then 256 else 0) + 64 * c + l

/-- A weight version takes effect from an air beat. -/
def addVersion (host : Bool) (c l lin : Nat) (v : Stamp) (s : State) : State :=
  let k := versionKey host c l
  let l := (lin, v) :: (FMap.get [] s.ae.versions k).filter (fun e => e.1 != lin)
  { s with ae := { s.ae with versions := FMap.set s.ae.versions k l } }

/-- Host weights take effect for air beats from S onward. -/
def applyLayerWeights (carrier layer : BitVec 8) (firstQ : BitVec 16) (w : List (BitVec 32)) (b : Stamp) (s : State) : State :=
  let base := ((64 * carrier.toNat + layer.toNat) * 320 + firstQ.toNat) * 256
  let m := w.zipIdx.foldl (fun m p => FMap.put 0#32 m (base + p.2) p.1) s.ae.weights
  addVersion true carrier.toNat layer.toNat s.tb.lin b { s with ae := { s.ae with weights := m } }

/-- The version "none" (R214). -/
def versionNone : Stamp := 0xFFFFFFFF#32

/-- The weight version of (c, l) in effect for an air beat, under a context. -/
def versionAt (s : State) (w : BitVec 128) (c l lin : Nat) : Stamp :=
  let v := FMap.get [] s.ae.versions (versionKey (ctxWsrc w) c l)
  (((v.filter (fun e => decide (e.1 ≤ lin))).foldl (fun (a : Option (Nat × Stamp)) e => match a with
    | some x => if x.1 < e.1 then some e else a
    | none => some e) none).map (fun e => e.2)).getD versionNone

/-- WLAG of a carrier (R175). -/
def wlagOf (s : State) (c : Nat) : Nat := (s.frm.active.map (fun f => f.ae.wlag.getD c 14)).getD 14

/-- The control kept for an air beat of a carrier. -/
def controlOf (s : State) (c lin : Nat) : List CtlEntry := FMap.get [] s.sq.control (4 * lin + c)

/-- The air beat is a sounding beat of the carrier (R280). -/
def isSounding (s : State) (c lin : Nat) : Bool := (controlOf s c lin).any (fun e => e.dir == 2)

/-- The version of a sounding beat takes effect for every layer of the active set (R213, R214); without a cleaned copy no
weights are computed (R298). -/
def commitVersion (c lin : Nat) (s : State) : State :=
  if !isSounding s c lin || ((sqPar s).clean.getD c none).isNone then s
  else (List.range 64).foldl (fun s l =>
    let w := ctxOf s c l
    if !ctxWsrc w && (ctxUlEn w || ctxDlEn w) then addVersion false c l (lin + wlagOf s c) (stampOfLin lin) s else s) s

/-- A stopped weight program keeps the set it had: versions whose commit is still to come are dropped (R214, R179). -/
def dropVersions (s : State) : State :=
  { s with ae := { s.ae with versions := s.ae.versions.map (fun p =>
    if p.1 < 256 then (p.1, p.2.filter (fun e => decide (e.1 < s.tb.lin + 3))) else p) } }

/-! ## The sounding reference table (R280) -/

/-- Offset of the sounding reference table in the Reservoir (R330). -/
def soundingBase : Nat := 0x02000000

/-- An accepted chunk enters the staging for its boundary. -/
def stageSounding (b : Stamp) (seq : BitVec 8) (final : Bool) (offset : BitVec 16) (data : List Byte) (s : State) : State :=
  let key (e : Stamp × Nat × Bool × FMap Byte) : Bool := e.1 == b && e.2.1 == seq.toNat
  let old := (s.fhp.staged.find? key).getD (b, seq.toNat, false, [])
  let m := data.zipIdx.foldl (fun m p => FMap.set m (offset.toNat + p.2) p.1) old.2.2.2
  { s with fhp := { s.fhp with staged := s.fhp.staged.filter (fun e => !key e) ++ [(b, seq.toNat, old.2.2.1 || final, m)] } }

/-- SOUNDING.TABLE: a chunk is staged for S; the room is 64 sequences. -/
def soundingTable (h : Hdr) (b : Stamp) (seq final : BitVec 8) (offset : BitVec 16) (data : List Byte) (s : State) :
    Reply × State :=
  if final.toNat > 1 || data.isEmpty || data.length % 4 != 0 || data.length > 4064 || offset.toNat + data.length > 13104 then
    fails stBadField s
  else
    let st := checkS b s
    if st ≠ stOk then fails st s
    else if !s.fhp.staged.any (fun e => e.1 == b && e.2.1 == seq.toNat) && decide (64 ≤ s.fhp.staged.length) then fails stBusy s
    else if s.nose.mode == .lead then acceptPair 0x1A01 h (.at b) (.soundingTable seq (final == 1#8) offset data) [] id s
    else (.done stOk [] (some b) 0, stageSounding b seq (final == 1#8) offset data s)

def execSoundingTable (h : Hdr) (b : Stamp) (seq final : BitVec 8) (offset : BitVec 16) (data : List Byte) (s : State) :
    Host.Outcome State Fault Refusal :=
  .next (serve 0x1A01 h (leadModes modesYOLM) (soundingTable h b seq final offset data) s)

/-- At S each complete sequence replaces its sequence, and the others are discarded. -/
def applySounding (b : Stamp) (s : State) : State :=
  let due := s.fhp.staged.filter (fun e => e.1 == b)
  let s := { s with fhp := { s.fhp with staged := s.fhp.staged.filter (fun e => e.1 != b) } }
  due.foldl (fun s e =>
    if e.2.2.1 then e.2.2.2.foldl (fun s p => resWrite (soundingBase + 13104 * e.2.1 + p.1) [p.2] s) s else s) s

/-- Reference value `i` of a sequence (R280). -/
def soundingRef (s : State) (seq i : Nat) : Nat := rdLe s.mem.res (soundingBase + 13104 * seq + 4 * i) 4

/-! ## AE.STATUS (R170) -/

def execAeStatus (h : Hdr) (s : State) : Host.Outcome State Fault Refusal :=
  .next (serve 0x1301 h (inModes modesYOLM) (fun s =>
    let v := sumN ((List.range 96).map (fun k => if (clOf s k).ovf then 2 ^ k else 0))
    okWith [.num 12 v] (s.ae.clusters.foldl (fun s p => clSet p.1 { clOf s p.1 with ovf := false } s) s)) s)

end Sys2Proof.Machine
end

