-- ==== Sys2Proof/Machine/ImageMoves.lean ====
section
/-! DEFINITION. Steps 6 and 7 of the table "Formula verification": the budgets and the moves of an image (R32, R113, R121, R133,
R142, R146, R150, R157, R160, R173, R176, R178, R207, R238, R239, R248, R262, R295, R476). -/

namespace Sys2Proof.Machine
open Sys2Proof

/-! ## Elements and runs -/

/-- Elements with UL_EN, or DL_EN, set on carrier `c`: the field is the carrier's (R31), so all of them or none. -/
def elementsOn (f : Formula) (ul : Bool) (c : Nat) : List Nat :=
  let car := f.carriers.getD c default
  if (if ul then car.ulEn else car.dlEn) then List.range 256 else []

/-- Cycles of one transform (R113). -/
def transformCycles (car : Carrier) : Nat := fftLen car / 4 + 96

/-- Waves of a number of elements. -/
def waveCount (n : Nat) : Nat := ceilDiv n 16

/-- The run length of an STU instance (R113). -/
def stuRun (f : Formula) (c : Nat) (car : Carrier) : Nat :=
  (waveCount (elementsOn f true c).length + waveCount (elementsOn f false c).length) * transformCycles car + 512

/-- Cycles of the reference capture (R142). -/
def captureCycles (f : Formula) (c : Nat) (par : SicPar) (car : Carrier) : Nat :=
  if par.linEn then ceilDiv ((elementsOn f false c).length * packStride par car.nprb) 512 else 0

/-- The run length of a SIC instance (R150). -/
def sicRun (f : Formula) (c : Nat) (par : SicPar) (car : Carrier) : Nat :=
  let gs := cancelGroups par car.nprb
  let nl := sumN ((elementsOn f true c).map (fun e => (f.geo.getD e []).length))
  let nc := sumN (gs.map (groupPrbs car.nprb))
  captureCycles f c par car
    + (if par.linEn then ceilDiv (nl * nc * 30) 512 + 96 * gs.length + 256 else 0)
    + (if c = 0 && par.nlEn then 4352 else 0)

/-- Entry of a cluster in an image's AE parameters. -/
def imgCluster (f : Formula) (k : Nat) : ClEntry := (f.ae.clusters[k]?).getD {}

/-- Cluster `k` is solo or the lowest member of a gang (R157). -/
def lowestMember (f : Formula) (k : Nat) : Bool :=
  let g := (imgCluster f k).gang
  decide (k < 96) && decide (g ≤ 4) && k % 2 ^ g == 0

/-- INSTANCE is one that R26 allows for the unit. -/
def instanceOk (f : Formula) (u i : Nat) : Bool :=
  if u = 4 then lowestMember f i else if u = 1 ∨ u = 2 ∨ u = 3 then decide (i < 4) else i == 0

/-- The program of a cluster as the check sees it. -/
def progOf (f : Formula) (k : Nat) : Option AeProg :=
  (f.progs.find? (fun p => p.cluster == k)).map (fun p =>
    ⟨p.first / 8, (p.first + p.bytes.length) / 8 - 1,
      ((List.range (p.bytes.length / 8)).map (fun i => leAt p.bytes (8 * i) 8)).toArray, 2 ^ (imgCluster f k).gang⟩)

/-! ## Budgets (step 6) -/

/-- The budget entries of a unit that apply to a symbol. -/
def budgetsAt (f : Formula) (u sym : Nat) : List Budget := f.budgets.filter (fun b => b.unit == u && b.mask.getLsbD sym)

/-- One entry: unit, instance, reserved bits and START + WORST ≤ LIMIT ≤ 65,536. -/
def budgetOk (f : Formula) (v : Nat) : Bool :=
  let b := budgetEntry v
  b.unit != 15 && instanceOk f b.unit b.inst && bits v 101 96 == 0 && decide (b.start + b.worst ≤ b.limit)
    && decide (b.limit ≤ 65536)

/-- No two entries of a unit instance share a symbol. -/
def budgetsDistinct : List Budget → Bool
  | [] => true
  | b :: t => t.all (fun x => !(x.unit == b.unit && x.inst == b.inst) || (x.mask &&& b.mask) == 0#14) && budgetsDistinct t

/-- STU entries cover the run length; SIC entries cover theirs, start late enough, capture in time and do not overlap
one another (R113, R133, R142, R146, R150). -/
def frontBudgetsOk (f : Formula) : Bool :=
  let car (c : Nat) : Carrier := f.carriers.getD c default
  let par (c : Nat) : SicPar := f.sic.getD c {}
  f.budgets.all (fun b =>
    if b.unit = 2 then decide (stuRun f b.inst (car b.inst) ≤ b.worst)
    else if b.unit = 3 then
      decide (256 ≤ b.start) && decide (sicRun f b.inst (par b.inst) (car b.inst) ≤ b.worst)
        && (List.range 14).all (fun i => !b.mask.getLsbD i || (budgetsAt f 2 i).all (fun x =>
          x.inst != b.inst || decide (b.start + captureCycles f b.inst (par b.inst) (car b.inst) ≤ x.limit)))
    else true)
    && (List.range 14).all (fun i =>
      let l := budgetsAt f 3 i
      l.all (fun a => l.all (fun b => a.inst == b.inst || !overlaps a.start a.worst b.start b.worst)))

/-- Cluster programs: the foreground fits its WORST, the background its suspension lead (R178, R207). -/
def programBudgetsOk (f : Formula) : Bool :=
  (List.range 96).all (fun k =>
    match progOf f k with
    | none => true
    | some p =>
      let e := imgCluster f k
      (f.budgets.filter (fun b => b.unit == 4 && b.inst == k)).all (fun b => (fgLength p e.fgEntry b.worst).isSome)
        && (!e.bgEn || suspendOk p e.bgEntry f.ae.suspendLead))

/-- Clusters of JOB_CLUSTERS in ascending order. -/
def jobClusters (d : DdPar) : List Nat := (List.range 96).filter (fun k => d.jobClusters.getLsbD k)

/-- Weight groups of a carrier of an image. -/
def imgGroups (f : Formula) (c : Nat) : Nat := ceilDiv (f.carriers.getD c default).nprb (2 ^ f.ae.wgLog2.getD c 0)

/-- The largest number of parts that the `i`-th of `n` job clusters receives from one air beat. -/
def partsOf (f : Formula) (n i : Nat) : Nat :=
  sumN ((List.range 4).map (fun c =>
    let car := f.carriers.getD c default
    if car.enable && car.ulEn then (imgGroups f c + n - 1 - i) / n else 0))

/-- Guaranteed background cycles of a cluster in a beat (R248). -/
def bgCycles (f : Formula) (k : Nat) : Int :=
  70144 - (maxN ((f.budgets.filter (fun b => b.unit == 4 && b.inst == k && b.mask != 0#14)).map (fun b =>
    b.limit - b.start + f.ae.suspendLead + 128)) : Int)

/-- The job clusters keep up (R248), and the codec keeps up with the drydown writer (R262). -/
def drydownBudgetsOk (f : Formula) : Bool :=
  match f.dd with
  | none => true
  | some d =>
    let ks := jobClusters d
    decide (ceilDiv (ddBlocksOf f.carriers) 32 * (12 * effortN d.effort + 28) ≤ 49152)
      && ks.zipIdx.all (fun k =>
        let n := partsOf f ks.length k.2
        n == 0 || match progOf f k.1 with
          | none => false
          | some p => match jobCost p (imgCluster f k.1).bgEntry 70144 with
            | some c => decide ((((c + 64) * n : Nat) : Int) ≤ bgCycles f k.1)
            | none => false)

/-- Step 6 of the table "Formula verification". -/
def budgetsOk (b : List Byte) (f : Formula) : Bool :=
  (secEntries 16 (secMust b 3)).all (budgetOk f) && budgetsDistinct f.budgets && frontBudgetsOk f
    && programBudgetsOk f && drydownBudgetsOk f

/-! ## Move regions (R160, R476) -/

/-- The move region of a unit: 1 the front-end region, 4 the AE windows, 6 the Reservoir, 7 the codec region; 0 none. -/
def moveRegion (u : Nat) : Nat := if u = 1 ∨ u = 2 ∨ u = 3 then 1 else if u = 4 ∨ u = 6 ∨ u = 7 then u else 0

/-- Bytes of a move region. -/
def regionBytes (r : Nat) : Nat := if r = 1 then 0x800000 else if r = 4 then 0x6000000 else if r = 6 then 0x1D00000 else if r = 7 then 0x180000 else 0

/-- Used bytes of an AE window. -/
def windowBytes (win : Nat) : Nat := if win % 4 < 2 then 262144 else 201600

/-- The pieces of an AE range by window: window number, first and last byte in it. -/
def windowPieces (a n : Nat) : List (Nat × Nat × Nat) :=
  if n = 0 then []
  else (List.range ((a + n - 1) / 0x40000 + 1 - a / 0x40000)).map (fun i =>
    let w := a / 0x40000 + i
    (w, (Nat.max a (w * 0x40000)) % 0x40000, Nat.min (a + n - 1) (w * 0x40000 + 0x3FFFF) % 0x40000))

/-- A range lies in a move region, and in the used part of the AE windows. -/
def moveSideOk (r a n : Nat) : Bool :=
  r != 0 && decide (a + n ≤ regionBytes r)
    && (r != 4 || (windowPieces a n).all (fun p => decide (p.2.2 < windowBytes p.1)))

/-- A move entry meets R476. -/
def moveOk (v : Nat) : Bool :=
  let m := moveEntry v
  bits v 119 112 == 0 && bits v 97 96 == 0 && decide (m.start ≤ 65535) && decide (1 ≤ m.len)
    && moveSideOk (moveRegion m.src) m.srcAddr (64 * m.len) && moveSideOk (moveRegion m.dst) m.dstAddr (64 * m.len)

/-- The moves of a symbol. -/
def movesAt (f : Formula) (sym : Nat) : List Move := f.moves.filter (fun m => m.mask.getLsbD sym)

/-- The checked end of a move (R476). -/
def checkedEnd (m : Move) : Nat := m.start + m.len + 64

/-- Two moves write overlapping bytes. -/
def writesOverlap (a b : Move) : Bool :=
  moveRegion a.dst == moveRegion b.dst && overlaps a.dstAddr (64 * a.len) b.dstAddr (64 * b.len)

/-- No two of a list of moves write overlapping bytes. -/
def writesDistinct : List Move → Bool
  | [] => true
  | a :: t => t.all (fun b => !writesOverlap a b) && writesDistinct t

/-! ## Cells that moves touch (R173, R176) -/

/-- The cells of an AE range: cluster, Y, first and last cell, one entry for each window. -/
def cellRuns (a n : Nat) : List (Nat × Bool × Nat × Nat) :=
  (windowPieces a n).map (fun p =>
    let c (o : Nat) : Nat := (aeByteCell (p.1 * 0x40000 + o)).2.2
    (p.1 / 4, p.1 % 2 == 1, c p.2.1, c p.2.2))

/-- Cells written and read by a move. -/
def inboundRuns (m : Move) : List (Nat × Bool × Nat × Nat) := if m.dst = 4 then cellRuns m.dstAddr (64 * m.len) else []
@[inherit_doc inboundRuns] def outboundRuns (m : Move) : List (Nat × Bool × Nat × Nat) :=
  if m.src = 4 then cellRuns m.srcAddr (64 * m.len) else []

/-- Two runs share a cell. -/
def runsMeet (a b : Nat × Bool × Nat × Nat) : Bool :=
  a.1 == b.1 && a.2.1 == b.2.1 && decide (a.2.2.1 ≤ b.2.2.2) && decide (b.2.2.1 ≤ a.2.2.2)

/-- The background ranges of the clusters as runs. -/
def bgRuns (f : Formula) : List (Nat × Bool × Nat × Nat) :=
  (List.range 96).flatMap (fun k =>
    let e := imgCluster f k
    let run (y : Bool) (first rows : Nat) : List (Nat × Bool × Nat × Nat) :=
      if rows = 0 then [] else [(k, y, 128 * first, 128 * (first + rows) - 1)]
    run false e.bgxFirst e.bgxRows ++ run true e.bgyFirst e.bgyRows)

/-- No cell is both inbound and outbound in a symbol, and no move touches a background range. -/
def cellMovesOk (f : Formula) : Bool :=
  let bg := bgRuns f
  (List.range 14).all (fun i =>
    let l := movesAt f i
    let ins := l.flatMap inboundRuns
    let outs := l.flatMap outboundRuns
    ins.all (fun a => outs.all (fun b => !runsMeet a b)))
    && f.moves.all (fun m => (inboundRuns m ++ outboundRuns m).all (fun a => bg.all (fun b => !runsMeet a b)))

/-! ## Waves of the STU rings (R121) -/

/-- Ring slots of one wave that [a, a + n) touches, of a ring of `waves` waves at `base`. -/
def slotsTouched (base size waves a n : Nat) : List Nat := (List.range waves).filter (fun r => overlaps a n (base + r * 16 * size) (16 * size))

/-- Numbers of the waves that use a ring slot. -/
def wavesOfSlot (waves r : Nat) : List Nat := (List.range 16).filter (fun w => w % waves == r)

/-- The moves of a symbol keep the wave windows of one STU instance. -/
def waveMovesOk (f : Formula) (sym c : Nat) : Bool :=
  match (f.stu.getD c none), (budgetsAt f 2 sym).find? (fun b => b.inst == c) with
  | some par, some b =>
    let car := f.carriers.getD c default
    if !(decide (1 ≤ par.waves) && decide (par.waves ≤ 15) && car.enable) then true
    else
      let size := recordSize car.nprb
      let t := transformCycles car
      let rx := waveCount (elementsOn f true c).length
      let inPlace (w : Nat) : Nat := b.start + (w + 1) * t + 256
      let writeStart (w : Nat) : Nat := b.start + w * t
      let invStart (w : Nat) : Nat := b.start + (rx + w) * t
      let invEnd (w : Nat) : Nat := b.start + (rx + w + 1) * t + 256
      (movesAt f sym).all (fun m =>
        (!(car.ulEn && moveRegion m.src == 1) || (slotsTouched par.ulBase size par.waves m.srcAddr (64 * m.len)).all (fun r =>
          (wavesOfSlot par.waves r).any (fun w => decide (inPlace w < m.start)
            && (decide (16 ≤ w + par.waves) || decide (checkedEnd m < writeStart (w + par.waves))))))
        && (!(car.dlEn && moveRegion m.dst == 1) || (slotsTouched par.dlBase size par.waves m.dstAddr (64 * m.len)).all (fun r =>
          (wavesOfSlot par.waves r).any (fun w => (decide (w < par.waves) || decide (invEnd (w - par.waves) < m.start))
            && decide (checkedEnd m < invStart w)))))
  | _, _ => true

/-! ## Downlink records (R295) -/

/-- A move that reads a downlink record in the beat that writes it starts after the write. -/
def recordMovesOk (f : Formula) (sym c : Nat) : Bool :=
  let car := f.carriers.getD c default
  match f.sq.dlb.getD c none with
  | none => true
  | some base =>
    if !(car.enable && car.dlEn) then true
    else
      let size := dlSlotBytes car.nprb
      let ring := Nat.max 1 (car.admitBeats - 1)
      let done := ceilDiv size 256 + 128
      let g := Nat.gcd 14 ring
      (movesAt f sym).all (fun m => m.src != 6 || (List.range ring).all (fun r =>
        r % g != (sym + car.admitBeats) % g || !overlaps m.srcAddr (64 * m.len) (base + r * size) size || decide (done < m.start)))

/-! ## Drydown groups (R238, R239) -/

/-- A move into the drydown input window: absolute start and checked end in cycles, its beat, and its bytes in the window. -/
structure Fill where
  start : Nat
  stop : Nat
  beat : Nat
  a : Nat
  n : Nat
deriving DecidableEq, Repr

/-- Cycles of a beat by symbol, and from the first of `n` beats on. -/
def beatCycles (sym : Nat) : Nat := if sym % 14 = 0 then 71168 else 70144
@[inherit_doc beatCycles] def cyclesBefore (n : Nat) : Nat := sumN ((List.range n).map beatCycles)

/-- The moves into the window over two slots of beats, in the order of their starts. -/
def fillsOf (f : Formula) (d : DdPar) : List Fill :=
  (List.range 28).flatMap (fun i =>
    (((movesAt f (i % 14)).filter (fun m => m.dst == 7 && overlaps m.dstAddr (64 * m.len) d.inBase 700416)).map (fun m =>
      (⟨cyclesBefore i + m.start, cyclesBefore i + checkedEnd m, i, m.dstAddr, 64 * m.len⟩ : Fill))).mergeSort
        (fun a b => decide (a.start ≤ b.start)))

/-- Every byte of [a, b) lies in some range. -/
def coveredBy (l : List (Nat × Nat)) : Nat → Nat → Nat → Bool
  | 0, a, b => decide (b ≤ a)
  | fuel + 1, a, b =>
    if b ≤ a then true
    else match l.find? (fun r => decide (r.1 ≤ a) && decide (a < r.1 + r.2)) with
      | some r => coveredBy l fuel (r.1 + r.2) b
      | none => false

/-- What one group slot holds: the number of its group in the air beat, the ranges written, the last checked end, and
whether the group is complete. -/
structure SlotFill where
  group : Nat
  got : List (Nat × Nat)
  stop : Nat
  full : Bool
deriving DecidableEq, Repr

/-- The carriers of the groups of an air beat, in order. -/
def groupCarriers (f : Formula) : List Carrier :=
  (f.carriers.filter (fun c => c.enable && c.ulEn)).flatMap (fun c => List.replicate 16 c)

/-- T_G of a group (R239). -/
def groupCycles (d : DdPar) (c : Carrier) : Nat := ceilDiv c.nprb 32 * (12 * effortN d.effort + 28) + 64

/-- The 16 records of a group stand in the slot at `base`. -/
def groupFull (base : Nat) (c : Carrier) (got : List (Nat × Nat)) : Bool :=
  (List.range 16).all (fun i => coveredBy got (got.length + 1) (base + 21888 * i) (base + 21888 * i + recordSize c.nprb))

/-- One fill into a slot of `n` groups: the slot after it, whether a group became complete, and whether the encoder was
done with the group before. -/
def fillSlot (d : DdPar) (cars : List Carrier) (base : Nat) (x : SlotFill) (m : Fill) : SlotFill × Bool × Bool :=
  let n := cars.length
  let ok := !x.full || decide (x.stop + groupCycles d (cars.getD x.group default) ≤ m.start)
  let x := if x.full then ⟨(x.group + 2) % n, [], 0, false⟩ else x
  let got := (m.a, m.n) :: x.got
  let full := groupFull base (cars.getD x.group default) got
  (⟨x.group, got, Nat.max x.stop m.stop, full⟩, full && !x.full, ok)

/-- All fills in order, from slots that hold the groups before `first`: groups completed in each beat, or none where a
move comes too early. -/
def runFills (d : DdPar) (cars : List Carrier) : List Fill → SlotFill × SlotFill → List Nat → Option (List Nat)
  | [], _, done => some done
  | m :: t, (x, y), done =>
    let touch (base : Nat) : Bool := overlaps m.a m.n base 350208
    let a := if touch d.inBase then fillSlot d cars d.inBase x m else (x, false, true)
    let b := if touch (d.inBase + 350208) then fillSlot d cars (d.inBase + 350208) y m else (y, false, true)
    if !a.2.2 || !b.2.2 then none
    else runFills d cars t (a.1, b.1) (done ++ (if a.2.1 then [m.beat] else []) ++ (if b.2.1 then [m.beat] else []))

/-- The fills of a slot in the beat before the first, newest first. -/
def fillsBefore (base : Nat) (fills : List Fill) : List (Nat × Nat) :=
  ((fills.filter (fun m => m.beat == 13 && overlaps m.a m.n base 350208)).map (fun m => (m.a, m.n))).reverse

/-- With `r` groups of the air beat before still to come at the first beat, of which the slots hold what the last `i` and
`j` moves of the beat before brought, every group arrives in its two beats: in each beat the groups left from the beat
before complete, and no more than those and the new air beat's. -/
def deliversFrom (d : DdPar) (cars : List Carrier) (fills : List Fill) (r i j : Nat) : Bool :=
  let n := cars.length
  let first := (n - r) % n
  let slot (k : Nat) : SlotFill :=
    ⟨if first % 2 = k then first else (first + 1) % n,
      (fillsBefore (d.inBase + 350208 * k) fills).take (if k = 0 then i else j), 0, false⟩
  match runFills d cars fills (slot 0, slot 1) [] with
  | none => false
  | some done =>
    let per := (List.range 28).map (fun i => done.count i)
    let chk := per.foldl (fun (a : Bool × Nat) k => (a.1 && decide (a.2 ≤ k) && decide (k ≤ a.2 + n), a.2 + n - k)) (true, r)
    chk.1 && chk.2 == r && sumN (per.take 14) == 14 * n

/-- The drydown input moves meet R238 and R239. -/
def drydownMovesOk (f : Formula) : Bool :=
  match f.dd with
  | none => true
  | some d =>
    let cars := groupCarriers f
    let fills := fillsOf f d
    let held (k : Nat) : List Nat := List.range ((fillsBefore (d.inBase + 350208 * k) fills).length + 1)
    cars.isEmpty || (List.range (cars.length + 1)).any (fun r =>
      (held 0).any (fun i => (held 1).any (fun j => deliversFrom d cars fills r i j)))

/-- Step 7 of the table "Formula verification". -/
def movesOk (b : List Byte) (f : Formula) : Bool :=
  (secEntries 16 (secMust b 4)).all moveOk
    && (List.range 14).all (fun i => writesDistinct (movesAt f i)
      && (List.range 4).all (fun c => waveMovesOk f i c && recordMovesOk f i c))
    && cellMovesOk f && drydownMovesOk f

end Sys2Proof.Machine
end

