-- ==== Sys2Proof/Machine/Regions.lean ====
section
/-! DEFINITION. The on-chip regions as they are read: SEC-DED lines, the scrubber, and the region table of the HBM (R331 to
R336, R428, R476). -/

namespace Sys2Proof.Machine
open Sys2Proof

/-! ## Reads with SEC-DED (R333, R428) -/

/-- A region's bytes: 0 the Reservoir, 1 the front-end region, 2 the codec-and-FIFO region. -/
def regionMem (s : State) (r : Nat) : FMap Byte := if r = 0 then s.mem.res else if r = 1 then s.mem.fe else s.mem.cf

/-- Key of a 64-byte line. -/
def lineKey (r line : Nat) : Nat := r * 2 ^ 32 + line

/-- The state of a line. -/
def lineState (s : State) (r line : Nat) : Fin 3 := FMap.get 0 s.mem.bad (lineKey r line)

/-- Lines of [a, a + n) with a latent error. -/
def badLines (s : State) (r a n : Nat) : List Nat :=
  if s.mem.bad.isEmpty || n = 0 then []
  else (s.mem.bad.filter (fun p => decide (lineKey r (a / 64) ≤ p.1) && decide (p.1 ≤ lineKey r ((a + n - 1) / 64)))).map
    (fun p => p.1 % 2 ^ 32)

/-- Some byte of [a, a + n) lies in an uncorrectable line. -/
def regionMissing (s : State) (r a n : Nat) : Bool := (badLines s r a n).any (fun l => lineState s r l == 2)

/-- A line with an error is read: a single-bit error is corrected in place, an uncorrectable one is counted and recorded.
`unit` and `inst` own the region, `requester` is a rank of R332. -/
def lineError (r unit inst requester line : Nat) (s : State) : State :=
  if lineState s r line = 1 then
    let s := { s with mem := { s.mem with bad := FMap.erase s.mem.bad (lineKey r line) } }
    if r = 0 then count 0xB00 0 s else s
  else
    let fv := freeVal 5 s
    let syn := wrapN 8 fv.1
    if r = 0 then
      raiseErr 0x01 0xB 0 3 (errDetail [(32, 64 * line), (4, requester), (8, syn)]) (count 0xB01 0 fv.2)
    else raiseErr 0x06 unit inst 3 (errDetail [(32, 64 * line), (8, syn)]) fv.2

/-- Bytes of a region as its memory delivers them: an uncorrectable line reads zero. -/
def regionRead (r unit inst requester a n : Nat) (s : State) : List Byte × State :=
  let bad := badLines s r a n
  if bad.isEmpty then (rdBytes (regionMem s r) a n, s)
  else
    let b := (List.range n).map (fun i => if lineState s r ((a + i) / 64) == 2 then 0 else rd8 (regionMem s r) (a + i))
    (b, bad.foldl (fun s l => lineError r unit inst requester l s) s)

/-- A Reservoir line as the scrubber finds it. -/
def scrubLine (s : State) : State :=
  let l := s.mem.scrub
  let s' := { s with mem := { s.mem with scrub := (l + 1) % 1048576 } }
  if lineState s 0 l = 1 then
    count 0xB00 0 { s' with mem := { s'.mem with bad := FMap.erase s'.mem.bad (lineKey 0 l) } }
  else if lineState s 0 l = 2 then
    let fv := freeVal 5 s'
    raiseErr 0x02 0xB 0 1 (errDetail [(32, 64 * l), (8, wrapN 8 fv.1)]) fv.2
  else s'

/-! ## The region table (R336) -/

/-- One entry of a region table. -/
structure RegEntry where
  kind : Nat
  order : Nat
  rsv : Bool
  base : Nat
  len : Nat
deriving DecidableEq, Repr, Inhabited

/-- Entry `i` of a region table word; BASE and LENGTH in units of 512 KiB. -/
def regEntry (t : BitVec 256) (i : Nat) : RegEntry :=
  let w := t.toNat / 2 ^ (64 * i)
  ⟨bits w 63 60, bits w 59 58, bits w 57 48 != 0 || bits w 15 0 != 0, bits w 47 32, bits w 31 16⟩

/-- The four entries. -/
def regEntries (t : BitVec 256) : List RegEntry := (List.range 4).map (regEntry t)

/-- First byte and length of an entry, in bytes. -/
def regBase (e : RegEntry) : Nat := e.base * 524288
@[inherit_doc regBase] def regLen (e : RegEntry) : Nat := e.len * 524288

/-- The region of a kind: first byte and length. -/
def regionOfKind (t : BitVec 256) (kind : Nat) : Option (Nat × Nat) :=
  ((regEntries t).find? (fun e => e.kind == kind)).map (fun e => (regBase e, regLen e))

/-- [a, a + n) lies in the region of a kind. -/
def inRegion (t : BitVec 256) (kind a n : Nat) : Bool :=
  (regionOfKind t kind).any (fun r => decide (r.1 ≤ a) && decide (a + n ≤ r.1 + r.2))

/-- A formula's ring lies in the DRYDOWN region of a table (R336). -/
def ringFits (t : BitVec 256) (f : Formula) : Bool :=
  if f.drydown then f.dd.elim true (fun d => inRegion t 1 d.base d.bytes) else true

end Sys2Proof.Machine
end

