-- ==== Sys2Proof/Machine/Image.lean ====
section
/-! DEFINITION. The table "Formula verification" (R35): step 2 for programs, step 3 to 5, step 8 and step 9, and the whole. -/

namespace Sys2Proof.Machine
open Sys2Proof

/-! ## Programs of an image (R29, R30, R187, R206) -/

/-- A UNIT_PROGRAM section: its unit and cluster, its range, zeros after the program, its entries, and the traces. -/
def progSecOk (b : List Byte) (f : Formula) (e : Sec) : Bool :=
  let t := slice b e.off e.len
  let first := leAt t 0 4
  let last := leAt t 4 4
  let c := imgCluster f e.inst
  let entryIn (i : Nat) : Bool := decide (first ≤ 8 * i) && decide (8 * i ≤ last)
  e.unit == 4 && lowestMember f e.inst && decide (8 ≤ e.len)
    && decide (first ≤ last) && decide (last - first + 9 ≤ e.len) && (t.drop (8 + (last + 1 - first))).all (fun x => x == 0)
    && first % 8 == 0 && last % 8 == 7 && decide (last ≤ 65535)
    && entryIn c.fgEntry && (!c.bgEn || entryIn c.bgEntry)
    && (match progOf f e.inst with
      | some p => programOk p c
      | none => false)

/-- Step 2. -/
def structureOk (b : List Byte) (f : Formula) : Bool :=
  layoutOk b && sigFixedOk b && ((secsOf b).filter (fun e => e.type == 0x10)).all (progSecOk b f)

/-! ## Keys and signature (R34, R424) -/

/-- A key slot is enabled in a key region of the fuses: ENABLE set, REVOKE clear. -/
def keyEnabled (keys : BitVec 1544) (k : Nat) : Bool :=
  decide (k < 4) && bitN keys.toNat (1536 + k) && !bitN keys.toNat (1540 + k)

/-- The key hash of a slot. -/
def keyHash (keys : BitVec 1544) (k : Nat) : Nat := bits keys.toNat (384 * k + 383) (384 * k)

/-- The signature section of an image that ends with one: PUBKEY, the two values, and the key slot. -/
def sigPub (b : List Byte) : List Byte := slice b (b.length - 240) 97
@[inherit_doc sigPub] def sigR (b : List Byte) : Nat := beAt b (b.length - 128) 48
@[inherit_doc sigPub] def sigS (b : List Byte) : Nat := beAt b (b.length - 80) 48
@[inherit_doc sigPub] def sigKey (b : List Byte) : Nat := sigField b 15 8

/-- Step 3. -/
def keyOk (s : State) (b : List Byte) : Bool :=
  keyEnabled s.boot.sensed.fmKeys (sigKey b) && sha384 (sigPub b) == keyHash s.boot.sensed.fmKeys (sigKey b)

/-- Step 4: the signature covers everything before SIG_R. -/
def signatureOk (b : List Byte) : Bool := ecdsaVerify (sigPub b) (sigR b) (sigS b) (sha384 (b.take (b.length - 128)))

/-- Step 5. -/
def classOk (b : List Byte) : Bool := crc32 (secMust b 1 ++ secMust b 2) == imgHead b 191 160

/-! ## Carriers (R31, R94, R97, R114) -/

/-- The most PRBs of an FFT size. -/
def nprbLimit (fft : Nat) : Nat := [273, 133, 65, 24].getD fft 0

/-- A CARRIERS entry with its frequency offset. -/
def carrierOk (v : Nat) (freq : Int) : Bool :=
  let c := carrierEntry v
  let r := respOf c
  if !c.enable then v == 0
  else bits v 38 0 == 0 && decide (2 ≤ c.admitBeats) && decide (c.admitBeats ≤ 8) && decide (1 ≤ c.nprb)
    && decide (c.nprb ≤ nprbLimit c.fft.val) && r.fft == c.fft.val && decide (c.nprb * 360 ≤ 2 * r.fp)
    && decide (30 * freq.natAbs + r.bw ≤ 400000)

/-- The CARRIERS section. -/
def carriersOk (b : List Byte) (f : Formula) : Bool :=
  let t := secMust b 1
  t.length == 64 && (t.drop 32).all (fun x => x == 0)
    && (List.range 4).all (fun c => carrierOk (leAt t (8 * c) 8) (f.efe.getD c {}).freq)

/-! ## Deadlines and substitutes (R33, R231, R248, R477) -/

/-- The entry of a kind and scope. -/
def deadlineIn (f : Formula) (kind scope : Nat) : Option Deadline := f.deadlines.find? (fun d => d.kind == kind && d.scope == scope)

/-- One DEADLINES entry. -/
def deadlineOk (f : Formula) (v : Nat) : Bool :=
  let d := deadlineEntry v
  let car := f.carriers.getD d.scope default
  let onCarrier := decide (d.scope < 4) && car.enable && car.ulEn && f.drydown
  bits v 39 32 == 0 && decide (d.cycle ≤ 65535)
    && (f.deadlines.filter (fun x => x.kind == d.kind && x.scope == d.scope)).length == 1
    && (match d.kind with
      | 2 => onCarrier && decide (4 ≤ d.off) && decide (d.off ≤ 14 * ((f.dd.elim 0 (fun p => p.retain) : Nat) : Int) - 12)
      | 3 => f.accord && decide (d.scope < 64) && decide (3 ≤ d.off) && decide (d.off ≤ 6)
          && (f.budgets.filter (fun b => b.unit == 4 && Config.aggregates f.id.toNat d.scope b.inst)).all
            (fun b => decide (d.cycle < b.start))
      | 4 => onCarrier && (deadlineIn f 2 d.scope).any (fun r => decide (r.off + 1 ≤ d.off) && decide (r.cycle ≤ d.cycle))
          && decide (d.off ≤ 127)
      | _ => false)

/-- The rules that an output may take (R105, R124, R152, R180, R306); none for an output the manual does not number. -/
def legalRules (unit output : Nat) : List Nat :=
  match unit, output with
  | 1, 1 | 1, 2 | 2, 1 | 2, 2 | 3, 1 | 4, 1 | 4, 2 | 4, 5 | 6, 1 | 6, 3 => [0]
  | 3, 2 | 3, 3 | 4, 3 | 4, 4 => [0, 1]
  | 6, 2 => [0, 2]
  | _, _ => []

/-- One SUBSTITUTES entry. -/
def substOk (f : Formula) (v : Nat) : Bool :=
  let e := substEntry v
  bits v 15 0 == 0 && (legalRules e.unit e.output).contains e.rule
    && (f.substs.filter (fun x => x.unit == e.unit && x.output == e.output)).length == 1

/-! ## Parameter sections (R29) -/

/-- A UNIT_PARAMS section is one of the table "Parameter sections". -/
def parSecOk (e : Sec) : Bool :=
  match e.unit with
  | 1 | 2 => decide (e.inst < 4) && e.len == 64
  | 3 => decide (e.inst < 4) && (e.len == 64 || (e.inst == 0 && e.len == 4160))
  | 4 => e.inst == 0 && e.len == 6208
  | 6 => e.inst == 0 && e.len == 128
  | 8 => e.inst == 0 && e.len == 128
  | _ => false

/-- A value lies in a range. -/
def within (lo hi v : Nat) : Bool := decide (lo ≤ v) && decide (v ≤ hi)

/-- EFE parameters (R103). -/
def efeSecOk (v : Nat) : Bool :=
  bits v 511 64 == 0 && bits v 15 0 == 0 && decide ((signed 16 (bits v 63 48)).natAbs ≤ 13333)

/-- STU parameters (R115). -/
def stuSecOk (car : Carrier) (v : Nat) : Bool :=
  let p := stuEntry v
  bits v 511 288 == 0 && bits v 157 151 == 0 && bits v 111 16 == 0 && bits v 11 7 == 0
    && within 0 6 p.guard && within 0 8 p.avgShift && within 0 16 p.waves && within 0x100 0xFFFF p.thresh
    && within 0x100 p.thresh p.clear && within 0 (cpLen car 1 / 4) p.winAdvance

/-- SIC parameters (R135). -/
def sicSecOk (inst v : Nat) : Bool :=
  let p := sicEntry v
  bits v 365 353 == 0 && bits v 289 288 == 0 && bits v 255 128 == 0
    && decide (1 ≤ p.muTrain) && decide (0x100 ≤ p.margin) && decide (1 ≤ p.trainCount) && decide (1 ≤ p.depthMin)
    && (if inst = 0 then
        bits v 97 96 == 0 && bits v 33 0 == 0 && decide (p.nlLead ≤ 8) && within 1 1024 p.quietPeriod
          && decide (1 ≤ p.nlMuTrain) && decide (0x100 ≤ p.nlMargin) && decide (1 ≤ p.nlTrainCount)
      else bits v 127 0 == 0)

/-- No value stands twice in a list. -/
def allDistinct : List Nat → Bool
  | [] => true
  | a :: t => !t.contains a && allDistinct t

/-- A geometry entry (R136). -/
def geoEntryOk (e v : Nat) : Bool :=
  let l := (geoEntry v).map (fun p => p.2)
  bits v 127 72 == 0 && !l.contains e && allDistinct l

/-- The geometry table of a SIC section. -/
def geoSecOk (t : List Byte) : Bool :=
  t.length != 4160 || (List.range 256).all (fun e => geoEntryOk e (leAt t (64 + 16 * e) 16))

/-- A cluster entry (R175). -/
def clusterSecOk (v : Nat) : Bool :=
  let e := clusterEntry v
  bits v 511 480 == 0 && bits v 255 0 == 0 && decide (e.gang ≤ 4)
    && decide (e.bgxFirst + e.bgxRows ≤ 256) && decide (e.bgyFirst + e.bgyRows ≤ 256)
    && e.outs.all (fun r => if r.kind = 0 then !r.y && r.first == 0 && r.count == 0
        else decide (r.kind ≤ 5) && decide (1 ≤ r.count) && decide (r.first + r.count ≤ 32768))

/-- AE parameters (R175). -/
def aeSecOk (t : List Byte) : Bool :=
  let h := leAt t 0 64
  bits h 511 64 == 0 && within 128 4096 (bits h 15 0)
    && (List.range 4).all (fun c => decide (bits h (12 * c + 27) (12 * c + 25) ≤ 4) && within 5 280 (bits h (12 * c + 24) (12 * c + 16)))
    && (List.range 96).all (fun k => clusterSecOk (leAt t (64 + 64 * k) 64))

/-- Cells as (first, count) in the numbering of `cellKey`. -/
def rangeCells (r : OutRange) : Nat × Nat := (cellKey r.y r.first, r.count)

/-- The clusters of an image meet R176. -/
def clustersOk (f : Formula) : Bool :=
  let hold (r : OutRange) : Bool := f.substs.any (fun x => x.unit == 4 && x.output == r.kind && x.rule == 1)
  (List.range 96).all (fun k =>
    let e := imgCluster f k
    let g := 2 ^ e.gang
    let outs := e.outs.filter (fun r => r.kind != 0)
    let cells := outs.map rangeCells ++ (if e.bgxRows = 0 then [] else [(128 * e.bgxFirst, 128 * e.bgxRows)])
      ++ (if e.bgyRows = 0 then [] else [(32768 + 128 * e.bgyFirst, 128 * e.bgyRows)])
    (List.range g).all (fun i => (imgCluster f (k / g * g + i)).gang == e.gang)
      && (e.gang == 0 || !e.bgEn) && disjointRanges cells
      && decide (sumN ((outs.filter hold).map (fun r => r.count)) ≤ 4096))

/-- SQ parameters (R289). -/
def sqSecOk (v : Nat) (f : Formula) : Bool :=
  let p := sqEntry v
  let bases := p.clean ++ p.sref ++ p.ersq ++ p.dlb ++ [p.winBase, p.pktBase]
  bits v 266 0 == 0 && bases.all (fun b => b.all (fun a => a % 64 == 0)) && p.winBase.isSome && p.pktBase.isSome
    && p.winBeat.all (fun n => n % 64 == 0) && within 16 4095 p.pktBuffers && within 9 280 p.horizon
    && decide (p.horizon * sumN p.winBeat ≤ p.winBytes)
    && (List.range 4).all (fun c =>
      let car := f.carriers.getD c default
      !(car.enable && car.dlEn) || (p.dlb.getD c none).isSome)

/-- Drydown parameters (R235, R236, R248, R336). -/
def ddSecOk (s : State) (v : Nat) (f : Formula) : Bool :=
  let p := ddEntry v
  let ul := (List.range 4).filter (fun c => (f.carriers.getD c default).enable && (f.carriers.getD c default).ulEn)
  let gw (c : Nat) : Nat := 2 ^ f.ae.wgLog2.getD c 0
  let most := maxN (ul.map (fun c => Nat.min (gw c) (f.carriers.getD c default).nprb))
  bits v 572 0 == 0 && p.base % 4096 == 0 && p.bytes % 4096 == 0 && p.inBase % 64 == 0
    && decide (p.inBase + 700416 ≤ 0x180000) && p.wslotBytes % 64 == 0 && p.wgBytes % 64 == 0
    && within 1 64 p.wslots && within 1 40 p.retain && decide (p.resultLog2 ≤ 6)
    && decide (14 * p.retain * flaconBytesOf (ddBlocksOf f.carriers) ≤ p.bytes)
    && inRegion s.mem.regions 1 p.base p.bytes
    && ul.all (fun c => decide (64 + p.wgBytes * ceilDiv (f.carriers.getD c default).nprb (gw c) ≤ p.wslotBytes))
    && (jobClusters p).all (fun k =>
      let e := imgCluster f k
      e.gang == 0 && e.bgEn && e.bgyFirst % 13 == 0
        && decide (1 + ceilDiv (4 * p.wgBytes) 1024 ≤ e.bgxRows) && decide (13 * 256 * most ≤ 128 * e.bgyRows))

/-- One parameter section against its format. -/
def parFormatOk (s : State) (b : List Byte) (f : Formula) (e : Sec) : Bool :=
  let t := slice b e.off e.len
  let v := leNat t
  match e.unit with
  | 1 => efeSecOk v
  | 2 => stuSecOk (f.carriers.getD e.inst default) v
  | 3 => sicSecOk e.inst (v % 2 ^ 512) && geoSecOk t
  | 4 => aeSecOk t
  | 6 => sqSecOk v f
  | 8 => !f.drydown || ddSecOk s v f
  | _ => false

/-- The sections that the image's carriers and header need (R115, R235, R289). -/
def parNeeded (b : List Byte) (f : Formula) : Bool :=
  (List.range 4).all (fun c => !(f.carriers.getD c default).enable || (secPar b 2 c).isSome)
    && (f.carriers.all (fun c => !c.enable) || (secPar b 6 0).isSome) && (!f.drydown || f.dd.isSome)

/-! ## Structures (R115, R121, R134, R135, R288, R331) -/

/-- The structures of one carrier in the front-end region. -/
def frontStructs (f : Formula) (c : Nat) : List (Nat × Nat) :=
  let car := f.carriers.getD c default
  let n := recordSize car.nprb
  let stu := match f.stu.getD c none with
    | some p => (if car.ulEn then [(p.ulBase, ringOf p * n), (p.erBase, roundUp (ceilDiv (12 * car.nprb) 8) 64)] else [])
        ++ (if car.dlEn then [(p.dlBase, ringOf p * n)] else [])
    | none => []
  let p := f.sic.getD c {}
  let w := packStride p car.nprb
  if !car.enable then []
  else stu ++ (if p.linEn then [(p.inEven, 256 * w), (p.inOdd, 256 * w), (p.refBase, 1024 * w)] else [])

/-- The front-end structures lie in the region, aligned and apart; STATE_BASE lies in it, aligned. -/
def frontOk (f : Formula) : Bool :=
  let l := (List.range 4).flatMap (frontStructs f)
  l.all (fun r => r.1 % 64 == 0 && decide (r.1 + r.2 ≤ 0x800000)) && disjointRanges l
    && f.sic.all (fun p => !p.linEn || (p.stateBase % 64 == 0 && decide (p.stateBase < 0x800000)))

/-- Full duplex is enabled as R134 and R121 allow. -/
def duplexOk (f : Formula) : Bool :=
  f.sbfd == f.carriers.any (fun c => c.enable && c.sbfd)
    && f.sic.zipIdx.all (fun p =>
      let car := f.carriers.getD p.2 default
      (!p.1.linEn || (f.sbfd && car.enable && car.dlEn && car.ulEn && car.sbfd
        && (match f.stu.getD p.2 none with
          | some x => x.waves == 0 || x.waves == 16
          | none => false)))
        && (!p.1.nlEn || f.sbfd))

/-- One QUEUE_MAP entry. -/
def queueOk (v : Nat) : Bool :=
  let e := queueEntry v
  let ingress := e.kind == 1 || e.kind == 2
  bits v 229 224 == 0 && bits v 175 160 == 0 && bits v 127 0 == 0 && within 1 4 e.kind && within 3 12 e.depth
    && (if ingress then e.ports != 0#2 && e.dst == 0#48 && e.ring == 0
      else (e.ports == 1#2 || e.ports == 2#2) && e.ring % 64 == 0)

/-- Values rise strictly. -/
def rising : List Nat → Bool
  | a :: b :: t => decide (a < b) && rising (b :: t)
  | _ => true

/-- The structures in the formula area of the Reservoir. -/
def areaStructs (f : Formula) : List (Nat × Nat) :=
  let rings := (f.queues.filter (fun e => e.kind == 3 || e.kind == 4)).map (fun e => (e.ring, 16 * 2 ^ e.depth))
  let per := (List.range 4).flatMap (fun c =>
    let car := f.carriers.getD c default
    let at' (o : Option Nat) (n : Nat) : List (Nat × Nat) := match o with
      | some a => [(a, n)]
      | none => []
    if !car.enable then []
    else at' (f.sq.clean.getD c none) (Nat.max (256 * recordSize car.nprb) (104 * 256 * car.nprb))
      ++ at' (f.sq.sref.getD c none) (4 * 12 * car.nprb * 64)
      ++ at' (f.sq.ersq.getD c none) (roundUp (ceilDiv (12 * car.nprb) 8) 64)
      ++ (if car.dlEn then at' (f.sq.dlb.getD c none) (Nat.max 1 (car.admitBeats - 1) * dlSlotBytes car.nprb) else [])
      ++ (match f.dd with
        | some d => if car.ulEn then [(d.resultBase.getD c 0, 2 ^ d.resultLog2 * dlSlotBytes car.nprb)] else []
        | none => []))
  let store := match f.dd with
    | some d => [(d.wstore, d.wslots * d.wslotBytes)]
    | none => []
  let one (o : Option Nat) (n : Nat) : List (Nat × Nat) := match o with
    | some a => [(a, n)]
    | none => []
  rings ++ per ++ store ++ one f.sq.winBase f.sq.winBytes ++ one f.sq.pktBase (9088 * f.sq.pktBuffers)

/-- They lie in the formula area and apart. -/
def areaOk (f : Formula) : Bool :=
  let l := areaStructs f
  l.all (fun r => decide (r.1 + r.2 ≤ 0x1D00000)) && disjointRanges l

/-- Step 8. -/
def entriesOk (s : State) (b : List Byte) (f : Formula) : Bool :=
  let pars := (secsOf b).filter (fun e => e.type == 0x11)
  carriersOk b f && (secEntries 8 (secMust b 5)).all (deadlineOk f) && (secEntries 4 (secMust b 6)).all (substOk f)
    && pars.all parSecOk && pars.all (parFormatOk s b f) && parNeeded b f && clustersOk f && frontOk f && duplexOk f
    && (secEntries 32 (secMust b 2)).all queueOk && rising (f.queues.map (fun e => e.queue)) && areaOk f

/-- Step 9: MIN_FW is not above the running firmware. -/
def firmwareOk (s : State) (b : List Byte) : Bool := decide (imgHead b 207 192 ≤ bits s.nose.fwVer.toNat 23 8)

/-! ## Verification (R35) -/

/-- The status that verification of an image of `b.length` bytes ends in. -/
def verifyImage (s : State) (b : List Byte) : Nat :=
  let f := imgFormula b
  if !headerOk b then stBadImage
  else if !structureOk b f then stBadImage
  else if !keyOk s b then stAuthFail
  else if !signatureOk b then stAuthFail
  else if !classOk b then stBadImage
  else if !budgetsOk b f then stBudget
  else if !movesOk b f then stBudget
  else if !entriesOk s b f then stBadImage
  else if !firmwareOk s b then stBadImage
  else stOk

end Sys2Proof.Machine
end

