-- ==== Sys2Proof/Machine/Nose.lean ====
section
/-! DEFINITION. The Nose's own commands: lease, identity, counters, records, rings and doorbells (R388 to R405, R478). -/

namespace Sys2Proof.Machine
open Sys2Proof

/-! ## Lease and identity -/

/-- LEASE.ACQUIRE (R390). -/
def leaseAcquire (h : Hdr) (holder : BitVec 64) (timeoutMs : BitVec 32) (force : BitVec 8) (s : State) : Reply × State :=
  let t := timeoutMs.toNat
  let prev := leaseHolderId s
  let mine := s.nose.lease == some (holder, h.src)
  let forced := force == 1#8 && h.src == .pcie
  if holder = 0 || t < 100 || t > 60000 || force.toNat > 1 then fails stBadField s
  else if s.nose.lease.isNone || mine || forced then
    let reason := if s.nose.lease.isSome && !mine then 3 else 0
    okWith [.num 8 prev.toNat] (setLease (some (holder, h.src)) reason
      { s with nose := { s.nose with timeoutMs := t, leaseAt := s.tb.t40 } })
  else fails stBusy s

def execLeaseAcquire (h : Hdr) (holder : BitVec 64) (timeoutMs : BitVec 32) (force : BitVec 8) (s : State) :
    Host.Outcome State Fault Refusal :=
  .next (serve 0x0101 h (inModes modesBYOLM) (leaseAcquire h holder timeoutMs force) s)

/-- LEASE.RELEASE: the lease becomes free (R389). -/
def execLeaseRelease (h : Hdr) (s : State) : Host.Outcome State Fault Refusal :=
  .next (serve 0x0102 h (inModes modesBYOLM) (fun s => okWith [] (setLease none 1 s)) s)

/-- What LEASE.STATUS returns. -/
def leaseStatus (s : State) : List Fld :=
  let vid := match s.nose.lease with
    | some (_, .inband _ _ v) => v.toNat
    | _ => 0
  let mac := match s.nose.lease with
    | some (_, .inband _ m _) => m.toNat
    | _ => 0
  [.num 8 (leaseHolderId s).toNat, .num 1 (leaseChannel s), .num 1 0, .num 2 vid, .num 6 mac, .num 4 (leaseRemain s)]

def execLeaseStatus (h : Hdr) (s : State) : Host.Outcome State Fault Refusal :=
  .next (serve 0x0103 h (inModes modesBYOLM) (fun s => okWith (leaseStatus s) s) s)

/-- What NOSE.INFO returns; SERIAL is the FACTORY value sensed at the last start (R423). -/
def noseInfo (s : State) : List Fld :=
  [.num 1 0xA0, .num 1 (bits s.nose.fwVer.toNat 23 16), .num 1 (bits s.nose.fwVer.toNat 15 8),
   .num 1 (bits s.nose.fwVer.toNat 7 0), .num 1 (modeCode s.nose.mode), .num 1 0, .num 2 s.nose.deviceId.toNat,
   .num 8 (bits s.boot.sensed.factory.toNat 127 64)]

def execNoseInfo (h : Hdr) (s : State) : Host.Outcome State Fault Refusal :=
  .next (serve 0x0201 h (inModes modesBYOLM) (fun s => okWith (noseInfo s) s) s)

/-! ## Counters (R402) -/

/-- The range of a counter command lies in the counter's scope. -/
def counterRangeOk (counter first count : BitVec 16) : Bool :=
  match counterInfo counter.toNat with
  | some (_, n) => decide (1 ≤ count.toNat) && decide (count.toNat ≤ 256) && decide (first.toNat + count.toNat ≤ n)
  | none => false

/-- COUNTER.READ. -/
def counterRead (counter first count : BitVec 16) (s : State) : Reply × State :=
  if counterRangeOk counter first count then
    okWith ((List.range count.toNat).map (fun i => .num 8 (counterGet s counter.toNat (first.toNat + i)))) s
  else fails stBadField s

def execCounterRead (h : Hdr) (counter first count : BitVec 16) (s : State) : Host.Outcome State Fault Refusal :=
  .next (serve 0x0501 h (inModes modesYOLM) (counterRead counter first count) s)

/-- COUNTER.CLEAR. -/
def counterClear (counter first count : BitVec 16) (s : State) : Reply × State :=
  if counterRangeOk counter first count then
    okWith [] ((List.range count.toNat).foldl (fun s i => counterClear1 counter.toNat (first.toNat + i) s) s)
  else fails stBadField s

def execCounterClear (h : Hdr) (counter first count : BitVec 16) (s : State) : Host.Outcome State Fault Refusal :=
  .next (serve 0x0502 h (inModes modesYOLM) (counterClear counter first count) s)

/-! ## Records by sequence number (R478) -/

/-- The held records from FIRST on, at most COUNT; none ahead of the newest; otherwise not retained. -/
def readRecords (held : List (BitVec 32 × List Fld)) (newest first : BitVec 32) (count : Nat) : Nat × List Fld :=
  if held.any (fun r => r.1 == first) then
    (stOk, ((held.dropWhile (fun r => r.1 != first)).take count).flatMap (fun r => r.2))
  else
    let d := (first - newest).toNat
    if 1 ≤ d ∧ d ≤ 2 ^ 31 - 1 then (stOk, []) else (stNotRetained, [])

/-- A record read command: COUNT in its range, then R478. -/
def readCmd (held : List (BitVec 32 × List Fld)) (newest first : BitVec 32) (count : BitVec 16) (limit : Nat) (s : State) :
    Reply × State :=
  if count.toNat < 1 || count.toNat > limit then fails stBadField s
  else
    let r := readRecords held newest first count.toNat
    (.done r.1 r.2 none 0, s)

/-- A verdict record's 24 bytes (R45). -/
def verdictBytes (v : Verdict) : List Byte :=
  leBytes 24 (v.beat.toNat * 2 ^ 160 + v.timeNs.toNat * 2 ^ 128 + v.seq.toNat * 2 ^ 96 + v.cls.toNat * 2 ^ 88
    + v.unit.toNat * 2 ^ 84 + v.payload.toNat)

/-- The verdicts of the last 64 beats, in SEQUENCE order (R47). -/
def heldVerdicts (s : State) : List (BitVec 32 × List Fld) :=
  (s.frm.vlog.filter (fun p => decide (s.tb.lin < p.1 + 64))).map (fun p => (p.2.seq, [.str (verdictBytes p.2)]))

def execVerdictRead (h : Hdr) (first : BitVec 32) (count : BitVec 16) (s : State) : Host.Outcome State Fault Refusal :=
  .next (serve 0x0601 h (inModes modesOLM)
    (fun s => readCmd (heldVerdicts s) (s.frm.verdictSeq - 1) first count 160 s) s)

/-- Bytes of a payload field. -/
def fldBytes : Fld → Nat
  | .num w _ => w
  | .str b => b.length

/-- An event entry field by field from its lowest byte (R393, R403). -/
def eventFields (e : Event) : List Fld :=
  e.payload ++ [.str (List.replicate (48 - sumN (e.payload.map fldBytes)) 0), .num 4 e.timeNs.toNat, .num 4 e.beat.toNat,
    .num 2 e.epoch.toNat, .num 1 (e.unit.toNat * 16), .num 1 e.code.toNat, .num 4 e.seq.toNat]

/-- The entries in the event ring, in SEQ order: the latest 8,192 written. -/
def heldEvents (s : State) : List (BitVec 32 × List Fld) :=
  let n := s.nose.evtRing.length
  (List.range n).filterMap (fun i =>
    (FMap.find s.nose.evtRing ((s.nose.evtProd.toNat + 65536 - n + i) % 8192)).map (fun e => (e.seq, eventFields e)))

def execEventRead (h : Hdr) (first : BitVec 32) (count : BitVec 16) (s : State) : Host.Outcome State Fault Refusal :=
  .next (serve 0x0701 h (inModes modesBYOLM)
    (fun s => readCmd (heldEvents s) (s.nose.evtSeq - 1) first count 63 s) s)

/-- EVENT.MASK: bit n masks event code n. -/
def execEventMask (h : Hdr) (mask : BitVec 256) (s : State) : Host.Outcome State Fault Refusal :=
  .next (serve 0x0702 h (inModes modesBYOLM)
    (fun s => okWith [] { s with nose := { s.nose with evtMask := mask } }) s)

/-- An error record's 64 bytes (R429). -/
def errBytes (r : ErrRec) : List Byte :=
  let b (x : Bool) (i : Nat) : Nat := if x then 2 ^ i else 0
  leBytes 64 (r.index.toNat * 2 ^ 480 + r.beat.toNat * 2 ^ 448 + r.timeNs.toNat * 2 ^ 416 + r.epoch.toNat * 2 ^ 400
    + r.code.toNat * 2 ^ 392 + r.unit * 2 ^ 388 + r.inst * 2 ^ 376 + r.sev * 2 ^ 373 + b r.handover 372
    + b r.preempted 371 + b r.fenced 370 + r.rep * 2 ^ 352 + r.lost * 2 ^ 336 + r.handled * 2 ^ 320 + r.detail.toNat)

/-- The error log, in INDEX order (R431). -/
def heldErrors (s : State) : List (BitVec 32 × List Fld) := s.err.log.map (fun r => (r.index, [.str (errBytes r)]))

def execErrorRead (h : Hdr) (first : BitVec 32) (count : BitVec 16) (s : State) : Host.Outcome State Fault Refusal :=
  .next (serve 0x0801 h (inModes modesBYOLM)
    (fun s => readCmd (heldErrors s) (s.err.index - 1) first count 63 s) s)

/-- BOOT.RECORDS: the records kept, oldest first (R415). -/
def execBootRecords (h : Hdr) (s : State) : Host.Outcome State Fault Refusal :=
  .next (serve 0x3A01 h (inModes modesBYOLM)
    (fun s => okWith ([.num 1 s.boot.records.length, .num 3 0] ++ s.boot.records.map (fun r => .str (leBytes 32 r.toNat))) s) s)

/-! ## Doorbells (R392, R453) -/

/-- A write of NOS_CMD_PRODUCE: more than 64 entries outstanding is ignored and counted; otherwise the entries it
announces have arrived. `heads` says what their slots hold; a slot not said holds an entry of zeros. -/
def cmdDoorbell (index : BitVec 16) (heads : List (BitVec 32 × BitVec 16)) (s : State) : State :=
  let n := s.nose
  if !n.mbxReady then s
  else if (index - n.cmdCons).toNat > 64 then count 0xD02 0 s
  else
    let held := (n.cmdProd - n.cmdCons).toNat
    let want := (index - n.cmdCons).toNat
    let isPcie (h : Head) : Bool := h.src == .pcie
    let arrived :=
      if want ≤ held then
        -- entries beyond the index are no longer announced
        (n.arrived.foldl (fun (p : List Head × Nat) h =>
          if isPcie h then (if p.2 < want then (p.1 ++ [h], p.2 + 1) else p) else (p.1 ++ [h], p.2)) ([], 0)).1
      else
        n.arrived ++ (List.range (want - held)).map (fun i =>
          let e := heads.getD i (0, 0)
          (⟨.pcie, e.1, e.2⟩ : Head))
    serveUndefined { s with nose := { n with cmdProd := index, arrived := arrived } }

def execCmdDoorbell (index : BitVec 16) (heads : List (BitVec 32 × BitVec 16)) (s : State) :
    Host.Outcome State Fault Refusal := .next (cmdDoorbell index heads s)

/-- A write of NOS_RSP_CONSUME: from the consume index to the produce index, else ignored and counted. -/
def rspConsume (index : BitVec 16) (s : State) : State :=
  let n := s.nose
  if !n.mbxReady then s
  else if (index - n.rspCons).toNat > (n.rspProd - n.rspCons).toNat then count 0xD02 0 s
  else serveUndefined { s with nose := { n with rspCons := index } }

def execRspConsumeWrite (index : BitVec 16) (s : State) : Host.Outcome State Fault Refusal := .next (rspConsume index s)

/-- A write of NOS_EVT_CONSUME: ignored unless the holder is on PCIe, then checked as the response index. -/
def evtConsume (index : BitVec 16) (s : State) : State :=
  let n := s.nose
  let pcie := match n.lease with
    | some (_, .pcie) => true
    | _ => false
  if !n.mbxReady || !pcie then s
  else if (index - n.evtCons).toNat > evtHeld s then count 0xD02 0 s
  else
    let freed := index != n.evtCons
    let s := { s with nose := { n with evtCons := index } }
    if freed then reportLost s else s

def execEvtConsumeWrite (index : BitVec 16) (s : State) : Host.Outcome State Fault Refusal := .next (evtConsume index s)

/-! ## Lease time -/

/-- TIMEOUT_MS passes with no command of the holder: the lease becomes free (R389). -/
def execLeaseExpiry (s : State) : Host.Outcome State Fault Refusal := .next (setLease none 2 s)

/-- The periodic update of the lease registers (R453). -/
def execLeaseRegisterUpdate (s : State) : Host.Outcome State Fault Refusal := .next (updateLeaseRegs s)

end Sys2Proof.Machine
end

