-- ==== Sys2Proof/Machine/Bar0.lean ====
section
/-! DEFINITION. The BAR0 window: writes, the value every offset reads, snapshots and the MSI-X messages (R449 to R459). -/

namespace Sys2Proof.Machine
open Sys2Proof

/-! ## Write-one-to-clear and scratch -/

/-- A write of NOS_STATUS clears the bits written 1. -/
def nosStatusClear (value : BitVec 32) (s : State) : State :=
  { s with bar0 := { s.bar0 with status := s.bar0.status &&& ~~~(value.setWidth 3) } }

def execNosStatusClear (value : BitVec 32) (s : State) : Host.Outcome State Fault Refusal := .next (nosStatusClear value s)

/-- A write of NOS_ERR_STICKY clears the bits written 1. -/
def errStickyClear (value : BitVec 32) (s : State) : State :=
  { s with bar0 := { s.bar0 with sticky := s.bar0.sticky &&& ~~~(value.setWidth 8) } }

def execErrStickyClear (value : BitVec 32) (s : State) : Host.Outcome State Fault Refusal := .next (errStickyClear value s)

/-! ## Time snapshot (R457) -/

/-- A write of TB_SNAP_CTRL with TAKE set latches every field of the time snapshot; ignored while the core clock is
stopped. -/
def snapshotTake (value : BitVec 32) (s : State) : State :=
  if value.getLsbD 0 && s.tb.run then
    let ft := fullTime s.tb.t40
    { s with bar0 := { s.bar0 with
      tsValid := true, tsTakes := s.bar0.tsTakes + 1, tsCounter := tbCounter s, tsSec := ft.1, tsNs := ft.2.1
      tsEpoch := s.tb.epoch, tsBeat := s.tb.beat, tsState := BitVec.ofNat 3 (tbStateCode s.tb.st)
      tsCycle := BitVec.ofNat 17 s.tb.cyc } }
  else s

def execSnapshotTake (value : BitVec 32) (s : State) : Host.Outcome State Fault Refusal := .next (snapshotTake value s)

/-! ## Capture buffer (R458) -/

/-- A capture channel with nothing in it. -/
def capReset : Capture where
  active := false
  point := 0
  index := 0
  dest := 0
  t := 0
  words := 0
  offset := 0
  begun := false
  done := 0
  partial_ := []
  fifo := []
  owed := []
  ending := none
  buf := []
  out := 0

/-- A capture channel. -/
def capGet (s : State) (n : Nat) : Capture := FMap.get capReset s.tst.caps n

/-- A capture channel changes. -/
def capSet (n : Nat) (c : Capture) (s : State) : State :=
  { s with tst := { s.tst with caps := FMap.put capReset s.tst.caps n c } }

/-- A write of TST_CAPn_POP with POP set removes the head stage; at BUF = 0 it sets POP_EMPTY. -/
def capturePop (ch : Fin 2) (value : BitVec 32) (s : State) : State :=
  if !value.getLsbD 0 then s
  else
    let c := capGet s ch.val
    match c.buf with
    | [] => { s with bar0 := { s.bar0 with status := s.bar0.status ||| 0b100#3 } }
    | _ :: t => capSet ch.val { c with buf := t } s

def execCapturePop (ch : Fin 2) (value : BitVec 32) (s : State) : Host.Outcome State Fault Refusal :=
  .next (capturePop ch value s)

/-! ## Word writes (R450) -/

/-- The reset value of an MSI-X table word: vector control masks its vector, as PCIe defines (PRESUMED, log entry 5). -/
def msixReset (o : Nat) : BitVec 32 := if o % 16 = 12 then 1 else 0

/-- A 32-bit word of the MSI-X table. -/
def msixWord (s : State) (o : Nat) : BitVec 32 := FMap.get (msixReset o) s.bar0.msixTable o

/-- An aligned 32-bit write. -/
def bar0Word (o : Nat) (v : BitVec 32) (s : State) : State :=
  if o = 0x0024 then nosStatusClear v s
  else if o = 0x0100 then cmdDoorbell (v.setWidth 16) [] s
  else if o = 0x010C then rspConsume (v.setWidth 16) s
  else if o = 0x0114 then evtConsume (v.setWidth 16) s
  else if o = 0x0304 then errStickyClear v s
  else if o = 0x0400 then snapshotTake v s
  else if o = 0x0508 then capturePop 0 v s
  else if o = 0x0588 then capturePop 1 v s
  else if 0x3000 ≤ o ∧ o ≤ 0x301C then
    let sh := 8 * (o - 0x3000)
    let old := s.bar0.scratch.toNat
    { s with bar0 := { s.bar0 with
      scratch := BitVec.ofNat 256 (old - old / 2 ^ sh % 2 ^ 32 * 2 ^ sh + v.toNat * 2 ^ sh) } }
  else if 0xF000 ≤ o ∧ o < 0xF020 then
    { s with bar0 := { s.bar0 with msixTable := FMap.set s.bar0.msixTable (o - 0xF000) v } }
  else s

/-- A write access: aligned 32-bit, or aligned 64-bit as two; any other is ignored and sets BAD_ACCESS. -/
def bar0Write (offset : Nat) (size : Nat) (value : BitVec 64) (s : State) : State :=
  if size = 4 ∧ offset % 4 = 0 then bar0Word offset (value.setWidth 32) s
  else if size = 8 ∧ offset % 8 = 0 then
    bar0Word (offset + 4) (BitVec.ofNat 32 (value.toNat / 2 ^ 32)) (bar0Word offset (value.setWidth 32) s)
  else { s with bar0 := { s.bar0 with status := s.bar0.status ||| 1#3 } }

def execBar0Write (offset : BitVec 16) (size : Fin 9) (value : BitVec 64) (s : State) : Host.Outcome State Fault Refusal :=
  .next (bar0Write offset.toNat size.val value s)

/-! ## MSI-X (R392) -/

/-- A message is sent for a vector with entries written since the last one, at most one every 1 µs; a masked vector
stays pending. -/
def msixMessage (v : Nat) (s : State) : State :=
  let last := s.nose.msixAt.getD v 0
  if s.nose.msixDue.getLsbD v && !(msixWord s (16 * v + 12)).getLsbD 0
      && (last = 0 || decide (s.tb.t40 - last ≥ 1000 * 2 ^ 40) || !s.tb.run) then
    emit (.msix v) { s with nose := { s.nose with
      msixDue := s.nose.msixDue &&& ~~~(BitVec.ofNat 2 (2 ^ v)), msixAt := s.nose.msixAt.set v s.tb.t40 } }
  else s

def execMsixMessage (vector : Fin 2) (s : State) : Host.Outcome State Fault Refusal := .next (msixMessage vector.val s)

/-! ## What a read returns -/

/-- The unit state word of (u, k) in the snapshot: STATE OFF and the unit code until it is published (R455, R456). -/
def stateWord (s : State) (u k : Nat) : BitVec 32 :=
  FMap.get (BitVec.ofNat 32 (u * 2 ^ 16)) s.bar0.words (unitKey u k)

/-- Instances that a unit has (R455). -/
def unitInstances (u : Nat) : Nat := if u = 4 then 96 else if u = 1 ∨ u = 2 ∨ u = 3 then 4 else 1

/-- An edge on twin_alive[1] within the last 100 µs. -/
def peerAlive (s : State) : Bool :=
  match s.pins.aliveEdge with
  | some t => decide (s.tb.t40 - t ≤ 100000 * 2 ^ 40)
  | none => false

/-- NOS_MODE. -/
def nosMode (s : State) : Nat :=
  let b (x : Bool) (i : Nat) : Nat := if x then 2 ^ i else 0
  modeCode s.nose.mode * 2 ^ 28 + s.boot.failCount.toNat * 2 ^ 26 + b s.nose.mbxReady 25 + hbmStCode s.mem.st * 2 ^ 22
    + tbStateCode s.tb.st * 2 ^ 19 + b s.pins.leadSel 18 + b s.pins.twinLead1 17 + b (peerAlive s) 16
    + (if s.nose.mode == .boot then s.boot.startCause.toNat else 0)

/-- A capture register at its offset in the channel. -/
def captureReg (s : State) (n o : Nat) : Nat :=
  let c := capGet s n
  let b (x : Bool) (i : Nat) : Nat := if x then 2 ^ i else 0
  if o = 0 then b c.active 31 + c.dest.val * 2 ^ 30 + c.fifo.length * 2 ^ 16 + c.buf.length
  else match c.buf with
    | [] => 0
    | h :: _ =>
      if o = 4 then b h.first 31 + b h.last 30 + h.valid % 64 * 2 ^ 24
      else if 0x40 ≤ o ∧ o ≤ 0x7C ∧ o % 4 = 0 then beAt h.data (o - 0x40) 4
      else 0

/-- The 32-bit word that an aligned BAR0 offset reads. -/
def bar0Read (s : State) (o : Nat) : BitVec 32 :=
  let f := s.boot.sensed.factory.toNat
  let b := s.bar0
  let w (n : Nat) : BitVec 32 := BitVec.ofNat 32 n
  if o = 0x0000 then w 0x4B5A4556
  else if o = 0x0004 then w (0x0256 * 2 ^ 16 + 0xA0 * 256 + bits f 55 55)
  else if o = 0x0008 then w (bits f 95 64)
  else if o = 0x000C then w (bits f 127 96)
  else if o = 0x0010 then w (s.nose.fwVer.toNat * 256 + s.nose.fwKind.toNat)
  else if o = 0x0014 then w s.nose.deviceId.toNat
  else if o = 0x0020 then w (nosMode s)
  else if o = 0x0024 then w b.status.toNat
  else if o = 0x0100 then w s.nose.cmdProd.toNat
  else if o = 0x0104 then w s.nose.cmdCons.toNat
  else if o = 0x0108 then w s.nose.rspProd.toNat
  else if o = 0x010C then w s.nose.rspCons.toNat
  else if o = 0x0110 then w s.nose.evtProd.toNat
  else if o = 0x0114 then w s.nose.evtCons.toNat
  else if o = 0x0200 then w b.leaseHolder.toNat
  else if o = 0x0204 then w (b.leaseHolder.toNat / 2 ^ 32)
  else if o = 0x0208 then w (b.leaseChannel.toNat * 2 ^ 24 + b.leaseRemain.toNat)
  else if o = 0x0300 then b.summary
  else if o = 0x0304 then w b.sticky.toNat
  else if o = 0x0308 then b.lastIndex
  else if o = 0x030C then w b.fencedAe.toNat
  else if o = 0x0310 then w (b.fencedAe.toNat / 2 ^ 32)
  else if o = 0x0314 then w (b.fencedAe.toNat / 2 ^ 64)
  else if o = 0x0318 then b.fencedUnits
  else if o = 0x0400 then w ((if b.tsValid then 2 ^ 31 else 0) + b.tsTakes.toNat * 256)
  else if o = 0x0404 then w (b.tsCounter.toNat / 2 ^ 40)
  else if o = 0x0408 then w b.tsCounter.toNat
  else if o = 0x040C then w (bits b.tsCounter.toNat 39 32)
  else if o = 0x0410 then w b.tsSec.toNat
  else if o = 0x0414 then w (b.tsEpoch.toNat * 2 ^ 16 + bits b.tsSec.toNat 47 32)
  else if o = 0x0418 then b.tsNs
  else if o = 0x041C then b.tsBeat
  else if o = 0x0420 then w (b.tsState.toNat * 2 ^ 28 + b.tsCycle.toNat)
  else if 0x0500 ≤ o ∧ o < 0x0580 then w (captureReg s 0 (o - 0x0500))
  else if 0x0580 ≤ o ∧ o < 0x0600 then w (captureReg s 1 (o - 0x0580))
  else if o = 0x0F00 then b.snapGen
  else if o = 0x0F04 then b.snapBeat
  else if 0x1000 ≤ o ∧ o < 0x2E00 ∧ o % 4 = 0 then
    let u := (o - 0x1000) / 0x200
    let k := (o - 0x1000) % 0x200 / 4
    if k < unitInstances u then stateWord s u k else 0
  else if 0x3000 ≤ o ∧ o ≤ 0x301C ∧ o % 4 = 0 then w (b.scratch.toNat / 2 ^ (8 * (o - 0x3000)))
  else if 0xF000 ≤ o ∧ o < 0xF020 then msixWord s (o - 0xF000)
  else if o = 0xF800 then
    w ((if s.nose.msixDue.getLsbD 0 && (msixWord s 12).getLsbD 0 then 1 else 0)
      + (if s.nose.msixDue.getLsbD 1 && (msixWord s 28).getLsbD 0 then 2 else 0))
  else 0

end Sys2Proof.Machine
end

