-- ==== Sys2Proof/Machine/Capture.lean ====
section
/-! DEFINITION. Captures: the two channels, their stream, FIFOs and ends (R442 to R444). -/

namespace Sys2Proof.Machine
open Sys2Proof

/-- Number of indexes of a capture point; none for a code that names no point. -/
def captureIndexes (point : Nat) : Option Nat :=
  if point = 1 || point = 2 || point = 3 || point = 0x21 || point = 0x22 then some 256
  else if point = 4 || point = 0x10 || point = 0x12 || point = 0x20 then some 1024
  else if point = 0x11 then some 64
  else none

/-- Bytes of a word of a capture point (R442); for points with one word per beat, the largest. -/
def captureWordBytes (s : State) (point index : Nat) : Nat :=
  if point = 1 || point = 0x22 then 4
  else if point = 0x10 || point = 0x12 then roundUp (80 * (carrierOf s (index / 256)).nprb) 64
  else if point = 0x11 then 792 * (carrierOf s (index / 16)).nprb
  else 6

/-- The point yields one word per beat. -/
def capturePerBeat (point : Nat) : Bool := 0x10 ≤ point && point ≤ 0x12

/-- A stage of 64 bytes. -/
def stageOf (b : List Byte) (first last : Bool) : Stage :=
  ⟨(b ++ List.replicate 64 0).take 64, first, last, b.length % 64, 0⟩

/-- Stages enter the FIFO while it has room; when the trailer has entered, the capture has ended and says so. -/
def captureFlush (n : Nat) (s : State) : State :=
  let c := capGet s n
  let room := 32 - c.fifo.length
  let c := { c with fifo := c.fifo ++ c.owed.take room, owed := c.owed.drop room }
  match c.owed, c.ending with
  | [], some e =>
    raiseEv 0x48 0xE [.num 2 c.point.toNat, .num 2 c.index.toNat, .num 4 c.done, .num 1 e]
      (capSet n { c with active := false, ending := none } s)
  | _, _ => capSet n c s

/-- A capture ends with END `e`: what is packed and the trailer follow (R443, R444). -/
def captureEnd (n e : Nat) (s : State) : State :=
  let c := capGet s n
  if !c.active || c.ending.isSome then s
  else
    let part := if c.partial_.isEmpty then [] else [stageOf c.partial_ false false]
    let trailer := stageOf (beBytes 4 c.done ++ [BitVec.ofNat 8 e] ++ List.replicate 59 0) false true
    let s := if e = 2 then count 0xE08 0 s else s
    captureFlush n (capSet n { c with partial_ := [], owed := c.owed ++ part ++ [trailer], ending := some e } s)

/-- Every capture ends: mode change, ruptive switch or step. -/
def captureEndAll (s : State) : State := captureEnd 1 4 (captureEnd 0 4 s)

/-- An HBM freeze ends a DEST 1 capture; its region's contents are undefined. -/
def captureFreeze (s : State) : State :=
  [0, 1].foldl (fun s n =>
    let c := capGet s n
    if c.active && c.dest = 1 then
      raiseEv 0x48 0xE [.num 2 c.point.toNat, .num 2 c.index.toNat, .num 4 c.done, .num 1 3]
        (capSet n { c with active := false, ending := none, owed := [], fifo := [], partial_ := [] } s)
    else s) s

/-- The channel is in use. -/
def captureBusy (s : State) (n : Nat) : Bool := (capGet s n).active || !(capGet s n).fifo.isEmpty

/-- CAPTURE.START takes the lower free channel. -/
def captureStart (point index : BitVec 16) (dest : BitVec 8) (t : TInst) (words : BitVec 32) (offset : BitVec 64) (s : State) :
    Reply × State :=
  let size := 128 + roundUp (words.toNat * captureWordBytes s point.toNat index.toNat) 64
  let fits := (regionOfKind s.mem.regions 3).any (fun r => decide (offset.toNat + size ≤ r.2))
  if (captureIndexes point.toNat).all (fun n => decide (n ≤ index.toNat)) || dest.toNat > 1 || !tinstOk t then fails stBadField s
  else if dest = 1 && !fits then fails stBadField s
  else if checkT (tinst16 t) s ≠ stOk then fails (checkT (tinst16 t) s) s
  else if dest = 1 && (s.mem.st == .frozen || s.mem.st == .reset) then fails stUnavailable s
  else
    match [0, 1].find? (fun n => !captureBusy s n) with
    | none => fails stBusy s
    | some n =>
      okWith [] (capSet n { capReset with
        active := true, point := point, index := index, dest := if dest = 1 then 1 else 0, t := tinst16 t
        words := words.toNat, offset := offset.toNat, buf := (capGet s n).buf } s)

def execCaptureStart (h : Hdr) (point index : BitVec 16) (dest : BitVec 8) (t : TInst) (words : BitVec 32) (offset : BitVec 64)
    (s : State) : Host.Outcome State Fault Refusal :=
  .next (serve 0x3002 h (inModes modesYOLM) (captureStart point index dest t words offset) s)

/-- CAPTURE.STOP ends the running capture of a point and index. -/
def captureStop (point index : BitVec 16) (s : State) : Reply × State :=
  match [0, 1].find? (fun n =>
      let c := capGet s n
      c.active && c.point == point && c.index == index) with
  | none => fails stBadField s
  | some n => okWith [.num 4 (capGet s n).done] (captureEnd n 1 s)

def execCaptureStop (h : Hdr) (point index : BitVec 16) (s : State) : Host.Outcome State Fault Refusal :=
  .next (serve 0x3003 h (inModes modesYOLM) (captureStop point index) s)

/-- The header stage (R443). The word length of a point with one word per beat does not fit its field, and the place of a
word within the beat comes from the tap: free values. -/
def captureHeader (c : Capture) (len : Nat) (s : State) : List Byte × State :=
  let a := if len < 256 then ((len : Int), s) else freeVal 6 s
  let b := if capturePerBeat c.point.toNat then ((0 : Int), a.2) else freeVal 7 a.2
  let s := b.2
  (beBytes 64 (c.point.toNat * 2 ^ 496 + c.index.toNat * 2 ^ 480 + wrapN 8 a.1 * 2 ^ 472 + s.tb.epoch.toNat * 2 ^ 456
    + s.tb.beat.toNat * 2 ^ 424 + (nowNs s).toNat * 2 ^ 392 + wrapN 32 b.1 * 2 ^ 360 + c.words % 2 ^ 32 * 2 ^ 328), s)

/-- An armed capture starts with the first word at or after T. -/
def captureBegin (n : Nat) (s : State) : State :=
  let c := capGet s n
  if !c.active || c.begun || c.ending.isSome then s
  else
    let s := if c.t * 2 ^ 36 ≤ s.tb.nextT then advanceToTime (c.t * 2 ^ 36) s else s
    let h := captureHeader c (captureWordBytes s c.point.toNat c.index.toNat) s
    let s := captureFlush n (capSet n { c with begun := true, owed := c.owed ++ [stageOf h.1 true false] } h.2)
    if c.words = 0 then captureEnd n 0 s else s

def execCaptureBegin (ch : Fin 2) (s : State) : Host.Outcome State Fault Refusal := .next (captureBegin ch.val s)

/-- Full stages of a byte string, and the bytes left. -/
def fullStages : Nat → List Byte → List Stage × List Byte
  | 0, l => ([], l)
  | k + 1, l =>
    if l.length < 64 then ([], l)
    else
      let r := fullStages k (l.drop 64)
      (stageOf (l.take 64) false false :: r.1, r.2)

/-- The tap produces a word: it is packed, or the full FIFO truncates the capture. -/
def captureWord (n : Nat) (word : List Byte) (s : State) : State :=
  let c := capGet s n
  if !c.active || !c.begun || c.ending.isSome then s
  else if c.fifo.length ≥ 32 then captureEnd n 2 s
  else
    let b := c.partial_ ++ word
    let r := fullStages (b.length / 64) b
    let s := captureFlush n (capSet n { c with partial_ := r.2, owed := c.owed ++ r.1, done := c.done + 1 } s)
    if c.done + 1 = c.words then captureEnd n 0 s else s

def execCaptureWord (ch : Fin 2) (word : List Byte) (s : State) : Host.Outcome State Fault Refusal :=
  .next (captureWord ch.val word s)

/-- The FIFO pops a stage into its capture buffer of 256 KiB, or hands it to the NRC port for the CAPTURE region. -/
def captureDrain (n : Nat) (s : State) : State :=
  let c := capGet s n
  match c.fifo with
  | [] => s
  | h :: t =>
    if c.dest = 0 then
      if c.buf.length ≥ 4096 then s else captureFlush n (capSet n { c with fifo := t, buf := c.buf ++ [h] } s)
    else if s.mem.st == .active || s.mem.st == .selfRefresh then
      let base := (regionOfKind s.mem.regions 3).elim 0 (fun r => r.1)
      captureFlush n (capSet n { c with fifo := t, out := c.out + 64 } (hbmWrite (base + c.offset + c.out) h.data s))
    else s

def execCaptureFifoDrain (ch : Fin 2) (s : State) : Host.Outcome State Fault Refusal := .next (captureDrain ch.val s)

end Sys2Proof.Machine
end

