-- ==== Sys2Proof/Machine/Sections.lean ====
section
/-! DEFINITION. The section builder's formats: PRB payloads, sections of a layer, headers, note records, codec sections and
the frames that egress packets become (R218 to R224, R267, R270 to R276, R299 to R301). -/

namespace Sys2Proof.Machine
open Sys2Proof

/-! ## PRB payloads (R219, R220) -/

/-- Section exponent, mantissas and saturated mantissas of a block at width `w`. -/
def bfpConvert (w e : Nat) (m : List Cplx) : Nat × List Cplx × Nat :=
  let parts := m.flatMap (fun c => [c.i, c.q])
  let x0 := e + w - 24
  let f (x : Nat) : Nat := 24 - w + x - e
  match (List.range (16 - x0)).find? (fun i => parts.all (fun v => fitsI w (roundConv v (f (x0 + i))))) with
  | some i => (x0 + i, m.map (fun c => ⟨roundConv c.i (f (x0 + i)), roundConv c.q (f (x0 + i))⟩), 0)
  | none =>
    let r := m.map (fun c => (⟨roundConv c.i (f 15), roundConv c.q (f 15)⟩ : Cplx))
    (15, r.map (fun c => ⟨satI w c.i, satI w c.q⟩), sumN (r.map (fun c => satCount w c.i + satCount w c.q)))

/-- Payload of a missing PRB. -/
def prbMissing (w : Nat) : List Byte := prbBytes w 0 true (List.replicate 12 ⟨0, 0⟩)

/-- Payload of a block with the erased resource elements of `er` at zero, and its saturated mantissas. -/
def prbPayload (w er : Nat) (b : FBlock) : List Byte × Nat :=
  if b.miss then (prbMissing w, 0)
  else
    let m := b.w.zipIdx.map (fun p => if bitN er p.2 then ⟨0, 0⟩ else p.1)
    let r := bfpConvert w b.e m
    (prbBytes w r.1 false r.2.1, r.2.2)

/-! ## Blocks that moves delivered (R210, R218, R229, R231) -/

/-- Kinds of `Config.blockAddr`: combined blocks, accord partial sums, aggregates, channel estimates. -/
def blkCombined : Nat := 1
@[inherit_doc blkCombined] def blkPartial : Nat := 5
@[inherit_doc blkCombined] def blkAggregate : Nat := 3
@[inherit_doc blkCombined] def blkEstimate : Nat := 4

/-- The place of a block of (c, l, p), air beat `lin`. -/
def blkAddr (kind c l p lin : Nat) : Nat := Config.blockAddr kind c l p (lin % beatMod)

/-- A move of work beat `work` delivered [a, a + n) to the SQ region. -/
def deliveredIn (s : State) (work a n : Nat) : Bool :=
  s.sq.delivered.any (fun d => d.1 == work && decide (d.2.1 ≤ a) && decide (a + n ≤ d.2.1 + d.2.2))

/-- The block of (c, l, p) that work beat `work` delivered, missing where none was, and its taint. -/
def blockIn (s : State) (kind c l p lin work : Nat) : FBlock × Bool :=
  let a := blkAddr kind c l p lin
  if !deliveredIn s work a 80 || regionMissing s 0 a 80 then (fblockMissing p, false)
  else (fblockOf (rdBytes s.mem.res a 80), resTainted s a 80)

/-- Errors that reading the block finds. -/
def blockErrors (kind c l p lin work : Nat) (s : State) : State :=
  let a := blkAddr kind c l p lin
  if deliveredIn s work a 80 then (regionRead 0 0xB 0 2 a 80 s).2 else s

/-- Every block of this kind is a substitute: an AE instance with outputs of the kind was replaced in this beat (R306). -/
def aeSubstituted (s : State) (kind : Nat) : Bool :=
  s.frm.subst.any (fun k => k / 128 == 4 && (gangOf s (k % 128)).any (fun j => (clEntry s j).outs.any (fun r => r.kind == kind)))

/-! ## Sections of a layer (R274) -/

/-- A run is cut into sections of at most `n` PRBs. -/
def cutRun (n : Nat) : Nat → Nat → Nat → List (Nat × Nat)
  | 0, _, _ => []
  | fuel + 1, start, len =>
    if len = 0 then [] else if len ≤ n || n = 0 then [(start, len)] else (start, n) :: cutRun n fuel (start + n) (len - n)

/-- The kept UL entries of a layer, in ascending START_PRB. -/
def ulEntries (s : State) (c l lin : Nat) : List CtlEntry :=
  ((controlOf s c lin).filter (fun e => e.dir == 1 && e.layer == l)).mergeSort (fun a b => decide (a.startPrb ≤ b.startPrb))

/-- The layer's sections of an air beat: n, first PRB, PRBs. -/
def sectionsOf (s : State) (c l lin w : Nat) : List (Nat × Nat × Nat) :=
  (((ulEntries s c l lin).flatMap (fun e => cutRun (nmax w) 273 e.startPrb e.numPrb)).zipIdx).map
    (fun p => (p.2, p.1.1, p.1.2))

/-- The context that governs an air beat's egress (R222). -/
def ctxBeat (s : State) (c l lin : Nat) : BitVec 128 := ctxAt s (lin + 2) c l

/-- Erasure table of an air beat. -/
def erOf (s : State) (c lin : Nat) : BitVec 3276 := FMap.get 0 s.sq.er (4 * lin + c)

/-- Erased subcarriers of a PRB as a 12-bit mask. -/
def erMask (t : BitVec 3276) (p : Nat) : Nat := t.toNat / 2 ^ (12 * p) % 4096

/-- One section formed from the blocks of a kind. -/
def formCombo (c l lin kind work n start num : Nat) (s : State) : Combo × State :=
  let w := mantWidth (ctxMant (ctxBeat s c l lin))
  let blocks := (List.range num).map (fun i => blockIn s kind c l (start + i) lin work)
  let t := erOf s c lin
  let pay := blocks.zipIdx.map (fun b => prbPayload w (erMask t (start + b.2)) b.1.1)
  let miss := blocks.map (fun b => b.1.miss)
  let s := (List.range num).foldl (fun s i => blockErrors kind c l (start + i) lin work s) s
  (⟨n, start, num, pay.flatMap (fun p => p.1), miss.any id, miss.all id && aeSubstituted s kind, blocks.any (fun b => b.2)⟩,
   countBy 0x607 c (sumN (pay.map (fun p => p.2))) s)

/-- Every section of a layer. -/
def formCombos (c l lin kind work : Nat) (s : State) : List Combo × State :=
  (sectionsOf s c l lin (mantWidth (ctxMant (ctxBeat s c l lin)))).foldl (fun (a : List Combo × State) x =>
    let r := formCombo c l lin kind work x.1 x.2.1 x.2.2 a.2
    (a.1 ++ [r.1], r.2)) ([], s)

/-- A section with every PRB missing. -/
def missingCombo (w : Nat) (b : Combo) : Combo :=
  { b with payload := (List.range b.numPrb).flatMap (fun _ => prbMissing w), miss := true, sub := false, prov := false }

/-! ## Headers (R267, R270, R271) -/

/-- The section header, TIME_NS zero. -/
def secHeader (beat : Stamp) (section_ kind c l : Nat) (prov miss : Bool) (mant start num : Nat) : List Byte :=
  beBytes 16 (beat.toNat * 2 ^ 96 + section_ % 4096 * 2 ^ 84 + kind * 2 ^ 80 + c * 2 ^ 78 + l * 2 ^ 72
    + (if prov then 2 ^ 71 else 0) + (if miss then 2 ^ 70 else 0) + mant * 2 ^ 67 + start * 2 ^ 55 + num * 2 ^ 46)

/-- SECTION of section n of (c, l). -/
def sectionId (c l n : Nat) : Nat := 1024 * c + 16 * l + n

/-- The eCPRI message of a queue: common header, PC_ID, SEQ_ID and what follows. -/
def ecpriMessage (q seq : Nat) (body : List Byte) : List Byte :=
  beBytes 4 (0x10000000 + (4 + body.length)) ++ beBytes 2 q ++ [BitVec.ofNat 8 seq, 0x80#8] ++ body

/-- A note record, TIME_NS zero (R224). -/
def noteRecord (beat : Stamp) (noteQ section_ kind reason c l heartQ : Nat) (resolved ver : Stamp) : List Byte :=
  beBytes 32 (beat.toNat * 2 ^ 224 + noteQ * 2 ^ 176 + section_ % 4096 * 2 ^ 164 + kind * 2 ^ 160 + reason * 2 ^ 152
    + l * 2 ^ 146 + c * 2 ^ 144 + heartQ * 2 ^ 128 + resolved.toNat * 2 ^ 96 + ver.toNat * 2 ^ 64)

/-! ## Packets (R300, R301) -/

/-- The stages of a frame: the head stage, then 64 bytes each. -/
def stagesOf (frame : List Byte) : List Stage :=
  let n := ceilDiv frame.length 64
  ⟨List.replicate 64 0, true, false, 0, 0⟩
    :: (List.range n).map (fun i =>
      let b := slice frame (64 * i) 64
      ⟨padTo 64 b, false, i + 1 == n, b.length % 64, 0⟩)

/-- What a due packet becomes: message bytes, provisional, descriptor beat, offsets of its time stamps in the message, and the
note it opens. -/
structure Formed where
  body : List Byte
  prov : Bool
  beat : Stamp
  timeAt : List Nat
  note : Option Note
deriving DecidableEq, Repr, Inhabited

/-- Top notes that are open. -/
def openTops (s : State) : List Nat := (s.sq.notes.filter (fun n => n.depends.isNone)).map (fun n => n.id)

/-- The rule for egress sections (OUTPUT 0x02) is SKIP (R306). -/
def egressSkip (s : State) : Bool := substRule s 6 2 == 2

/-- A MISSING_RECORD. -/
def formMissing (s : State) (c l lin n start num : Nat) (heart : Bool) : Formed :=
  let w := ctxBeat s c l lin
  let b := stampOfLin lin
  ⟨secHeader b (sectionId c l n) 4 c l (!heart) true (ctxMant w) start num, false, b, [20], none⟩

/-- A due packet is formed; a top-note section takes its blocks now. -/
def formDue (q : Nat) (d : Due) (s : State) : Formed × State :=
  match d with
  | .top c l lin n start num sub =>
    let w := ctxBeat s c l lin
    let kind := if ctxMode w = 2 then blkPartial else blkCombined
    let r := if sub then (missingCombo (mantWidth (ctxMant w)) ⟨n, start, num, [], true, false, true⟩, s)
      else formCombo c l lin kind (lin + 2) n start num s
    if r.1.sub && egressSkip r.2 then (formMissing r.2 c l lin n start num false, r.2)
    else
      let b := stampOfLin lin
      let id := sectionId c l n
      (⟨secHeader b id 2 c l true r.1.miss (ctxMant w) start num ++ r.1.payload, true, b, [20],
        some ⟨r.2.sq.nextNote, q, c, l, b, id, n, start, num, r.1.payload, none, false⟩⟩, r.2)
  | .heart c l lin x =>
    let w := ctxBeat s c l lin
    if x.sub && egressSkip s then (formMissing s c l lin x.n x.startPrb x.numPrb true, s)
    else
      let b := stampOfLin lin
      let id := sectionId c l x.n
      (⟨secHeader b id 1 c l x.prov x.miss (ctxMant w) x.startPrb x.numPrb ++ x.payload, x.prov, b, [20],
        if x.prov then some ⟨s.sq.nextNote, q, c, l, b, id, x.n, x.startPrb, x.numPrb, x.payload, some (openTops s), false⟩
        else none⟩, s)
  | .note c l beat sec rec =>
    (⟨secHeader beat sec 3 c l false false 0 0 0 ++ rec, false, beat, [20, 28], none⟩, s)
  | .missing c l lin n start num heart => (formMissing s c l lin n start num heart, s)
  | .aux body _ => (⟨body, false, BitVec.ofNat 32 (beAt body 0 4), [20], none⟩, s)

/-! ## Codec sections (R275, R304) -/

/-- The tag of a codec entry. -/
def codecTag (beat : Stamp) (c p g l len : Nat) : List Byte :=
  beBytes 8 (beat.toNat * 2 ^ 32 + c * 2 ^ 30 + p * 2 ^ 21 + g * 2 ^ 17 + l * 2 ^ 11 + len % 128 * 2 ^ 4)

/-- A codec entry from its block. -/
def codecEntry (beat : Stamp) (c p g l : Nat) (block : List Byte) : List Byte :=
  codecTag beat c p g l (block.length / 8) ++ block

/-- SECTION of the `k`-th CODEC section of a job; the manual gives none. -/
def codecSection (k : Nat) : Nat := wrapN 12 (Config.freeValue 9 k)

/-- One CODEC section; its header takes BEAT, CARRIER and LAYER of the first entry. -/
def codecBody (k : Nat) (payload : List Byte) : List Byte :=
  let t := beAt payload 0 8
  secHeader (BitVec.ofNat 32 (t / 2 ^ 32)) (codecSection k) 6 (bits t 31 30) (bits t 16 11) false false 0 0 0 ++ payload

/-- Entries fill sections; one closes when fewer than 792 bytes remain of its 8,960. -/
def codecSections : List (List Byte) → List Byte → List (List Byte)
  | [], cur => if cur.isEmpty then [] else [cur]
  | e :: t, cur =>
    let cur := cur ++ e
    if 8960 < cur.length + 792 then cur :: codecSections t [] else codecSections t cur

end Sys2Proof.Machine
end

