-- ==== Sys2Proof/Machine/Egress.lean ====
section
/-! DEFINITION. Egress assembly FIFOs, descriptor rings, packet buffers, the MAC's side of them, and resizing (R290 to R292,
R299 to R305). -/

namespace Sys2Proof.Machine
open Sys2Proof

/-! ## FIFOs -/

/-- An empty FIFO. -/
def fifoReset : Fifo := ⟨[], [], none, [], none⟩

/-- One FIFO. -/
def fifoOf (s : State) (i : Nat) : Fifo := FMap.get fifoReset s.sq.fifos i

/-- One FIFO replaced. -/
def fifoSet (i : Nat) (f : Fifo) (s : State) : State :=
  { s with sq := { s.sq with fifos := FMap.put fifoReset s.sq.fifos i f } }

/-- The host port of an egress queue. -/
def egressPort (s : State) (q : Nat) : Nat := if (queueOf s q).any (fun e => e.ports.getLsbD 0) then 0 else 1

/-- The FIFO of an egress queue (R299). -/
def fifoIndex (s : State) (q : Nat) : Nat := 8 * egressPort s q + q % 8

/-- The queue is an egress queue of a kind. -/
def isEgress (s : State) (kind q : Nat) : Bool := (queueOf s q).any (fun e => e.kind == kind)

/-- A packet is due on a queue; one for a queue that is not mapped is not assembled. -/
def addDue (q : Nat) (d : Due) (s : State) : State :=
  if isEgress s 3 q || isEgress s 4 q then
    let i := fifoIndex s q
    let f := fifoOf s i
    fifoSet i { f with due := f.due ++ [(q, d)] } s
  else s

/-- SEQ of a queue. -/
def queueSeq (s : State) (q : Nat) : BitVec 8 := FMap.get 0 s.sq.seq q

/-- The write side begins the next due packet. -/
def fifoBegin (i : Nat) (s : State) : State :=
  let f := fifoOf s i
  match f.writing, f.due with
  | none, (q, d) :: rest =>
    let r := formDue q d s
    let s := r.2
    let p := i / 8
    let eth := ethHead s p ((queueOf s q).elim 0 (fun e => e.dst.toNat)) 0xAEFE (portTag s p)
    let msg := ecpriMessage q (queueSeq s q).toNat r.1.body
    let frame := eth ++ msg
    let len := Nat.max 60 frame.length
    let host := match d with
      | .aux _ _ => true
      | _ => false
    let void := match d with
      | .aux _ v => v
      | _ => false
    let w : Writing := ⟨q, d, stagesOf (frame ++ List.replicate (60 - frame.length) 0), if host then none else some msg, r.1.note⟩
    let pkt : Pkt := ⟨q, r.1.prov, r.1.beat, none, len, r.1.timeAt.map (eth.length + ·), void⟩
    fifoSet i { f with due := rest, writing := some w, packets := f.packets ++ [pkt] } s
  | _, _ => s

/-- The newest packet of a FIFO that is not complete becomes complete. -/
def completePkt (t : BitVec 32 × Nat) (l : List Pkt) : List Pkt :=
  l.map (fun p => if p.time.isNone then { p with time := some t } else p)

/-- The LAST stage of a packet has entered the FIFO: its time is stamped, SEQ counts it, the digest takes it, and the note
it opens is open (R51, R223, R225, R270). -/
def fifoComplete (i : Nat) (w : Writing) (void : Bool) (s : State) : State :=
  let f := fifoOf s i
  let s := fifoSet i { f with writing := none, packets := completePkt (nowNs s, s.tb.lin) f.packets } s
  if void then s
  else
    let s := { s with sq := { s.sq with seq := FMap.set s.sq.seq w.queue (queueSeq s w.queue + 1) } }
    let s := match w.digest with
      | some b => { s with frm := { s.frm with
          digested := s.frm.digested ++ [⟨2, w.queue, BitVec.ofNat 32 (beAt b 8 4), isEgress s 3 w.queue, b⟩] } }
      | none => s
    match w.note with
    | some n => { s with sq := { s.sq with notes := s.sq.notes ++ [{ n with id := s.sq.nextNote }], nextNote := s.sq.nextNote + 1 } }
    | none => s

/-- The write side pushes one stage; with all 32 stages full it waits (R300, R302). -/
def stagePush (i : Nat) (s : State) : State :=
  let s := fifoBegin i s
  let f := fifoOf s i
  match f.writing with
  | none => s
  | some w =>
    if f.stages.length ≥ 32 then s
    else
      match w.stages with
      | [] => fifoSet i { f with writing := none } s
      | st :: rest =>
        let s := fifoSet i { f with stages := f.stages ++ [st], writing := some { w with stages := rest } } s
        if st.last then fifoComplete i w (f.packets.any (fun p => p.time.isNone && p.void)) s else s

def execEgressStagePush (fifo : Fin 16) (s : State) : Host.Outcome State Fault Refusal := .next (stagePush fifo.val s)

/-- SQ is stopped while a packet has entered a FIFO in part: the packet ends at once with the void marker (R303, R306). The
due packet is given back. -/
def fifoCut (i : Nat) (s : State) : State × Option (Nat × Due) :=
  let f := fifoOf s i
  match f.writing with
  | none => (s, none)
  | some w =>
    if (match w.due with
      | .aux _ _ => true
      | _ => false) then (s, none)
    else
      let st : Stage := match w.stages with
        | x :: _ => { x with last := true }
        | [] => ⟨List.replicate 64 0, false, true, 0, 0⟩
      let pkts := f.packets.map (fun p => if p.time.isNone then { p with void := true } else p)
      (fifoSet i { f with writing := some { w with stages := [st], digest := none, note := none }, packets := pkts } s,
        some (w.queue, w.due))

/-! ## Rings and buffers (R290 to R292, R301) -/

/-- The ring of a queue. -/
def ringState (s : State) (q : Nat) : Ring := (FMap.find s.sq.rings q).getD ⟨0, 0, 0, depthOf s q⟩

/-- The ring of a queue replaced. -/
def ringPut (q : Nat) (r : Ring) (s : State) : State := { s with sq := { s.sq with rings := FMap.set s.sq.rings q r } }

/-- Reservoir offset of an entry of a queue's ring. -/
def ringEntryAt (s : State) (q i : Nat) : Nat := (queueOf s q).elim 0 (fun e => e.ring) + 16 * i

/-- Reservoir offset of a packet buffer. -/
def bufferAt (s : State) (b : Nat) : Nat := (sqPar s).pktBase.getD 0 + 9088 * b

/-- The buffer at a Reservoir offset. -/
def bufferOf (s : State) (a : Nat) : Nat := (a - (sqPar s).pktBase.getD 0) / 9088

/-- A buffer is freed. -/
def bufferFree (b : Nat) (s : State) : State :=
  { s with sq := { s.sq with used := s.sq.used.filter (fun x => x != b), held := s.sq.held.filter (fun x => x.2 != b) } }

/-- The lowest free buffer of the pool. -/
def bufferTake (s : State) : Option Nat := (List.range (sqPar s).pktBuffers).find? (fun b => !s.sq.used.contains b)

/-- A descriptor (R290). -/
def descriptor (beat : Stamp) (buf : Nat) (time : BitVec 32) (q : Nat) (prov void : Bool) : List Byte :=
  leBytes 16 (beat.toNat * 2 ^ 96 + buf * 2 ^ 64 + time.toNat * 2 ^ 32 + q * 2 ^ 16 + (if prov then 2 else 0)
    + (if void then 1 else 0))

/-- A push onto a ring; a full one fails (R291). -/
def ringPush (q : Nat) (d : List Byte) (s : State) : Option State :=
  let r := ringState s q
  if r.d ≥ 2 ^ r.n then none
  else some (ringPut q { r with wr := (r.wr + 1) % 2 ^ r.n, d := r.d + 1 } (resWrite (ringEntryAt s q r.wr) d s))

/-- A pop from a ring: the entry's offset. -/
def ringPop (q : Nat) (s : State) : Option (Nat × State) :=
  let r := ringState s q
  if r.d = 0 then none else some (ringEntryAt s q r.rd, ringPut q { r with rd := (r.rd + 1) % 2 ^ r.n, d := r.d - 1 } s)

/-- The drain ends a packet: length word or void marker, time stamps, descriptor (R301, R303, R292). In a loop run it is
discarded (R441). -/
def drainEnd (i : Nat) (pkt : Pkt) (buf : Option Nat) (void : Bool) (s : State) : State :=
  let p := i / 8
  match buf with
  | none => count 0x609 p s
  | some b =>
    let base := bufferAt s b
    let t := pkt.time.getD (0, s.tb.lin)
    let s := resWrite base (leBytes 4 (if void then 0xFFFFFFFF else pkt.len)) s
    let s := if void then count 0x60B p s
      else pkt.timeAt.foldl (fun s o => resWrite (base + 64 + o) (beBytes 4 t.1.toNat) s) s
    if s.frm.loopRun.isSome && s.frm.executing then bufferFree b s
    else match ringPush pkt.queue (descriptor pkt.beat base t.1 pkt.queue pkt.prov void) s with
    | some s => if s.nose.mode == .sillage then { s with sq := { s.sq with held := s.sq.held ++ [(t.2, b)] } } else s
    | none => bufferFree b (count 0x609 p s)

/-- The drain pops one stage (R301, R303). -/
def fifoDrain (i : Nat) (s : State) : State :=
  let f := fifoOf s i
  match f.stages, f.packets with
  | st :: rest, pkt :: pkts =>
    let s := fifoSet i { f with stages := rest } s
    let s := if st.ecc = 1 then count 0x60C i s else s
    let opened := if st.first then
        match bufferTake s with
        | some b => ((some b, 0, false), { s with sq := { s.sq with used := b :: s.sq.used } })
        | none => ((none, 0, false), s)
      else (f.draining.getD (none, 0, false), s)
    let s := opened.2
    let (buf, off, v) := opened.1
    let s := if st.ecc = 2 then
        raiseErr 0x05 6 0 3 (errDetail [(4, i), (16, pkt.queue), (5, Nat.min (off / 64) 31)]) (count 0x60D i s)
      else s
    let void := v || st.ecc == 2
    let s := match buf with
      | some b => if void then s else resWrite (bufferAt s b + off) st.data s
      | none => s
    let f := fifoOf s i
    if st.last then drainEnd i pkt buf (void || pkt.void) (fifoSet i { f with packets := pkts, draining := none } s)
    else fifoSet i { f with draining := some (buf, off + 64, void) } s
  | _, _ => s

def execEgressFifoDrain (fifo : Fin 16) (s : State) : Host.Outcome State Fault Refusal := .next (fifoDrain fifo.val s)

def execSqStatus (h : Hdr) (s : State) : Host.Outcome State Fault Refusal :=
  .next (serve 0x1B01 h (inModes modesYOLM)
    (fun s => okWith ((List.range 16).map (fun i => .num 1 (fifoOf s i).stages.length)) s) s)

/-! ## The MAC (R292) -/

/-- The MAC of a queue's port takes the next descriptor: it sends the frame, or frees a void packet. A sillage sends
nothing (R373). -/
def macTxPop (q : Nat) (s : State) : State :=
  let p := egressPort s q
  if !(isEgress s 3 q || isEgress s 4 q) || s.nose.mode == .sillage || (FMap.find s.sq.sending p).isSome then s
  else
    match ringPop q s with
    | none => s
    | some (a, s) =>
      let r := regionRead 0 0xB 0 2 a 16 s
      let d := leNat r.1
      let s := r.2
      let buf := bits d 95 64
      let b := bufferOf s buf
      let len := rdLe s.mem.res buf 4
      if bitN d 0 || len = 0xFFFFFFFF then bufferFree b s
      else
        let f := regionRead 0 0xB 0 2 (buf + 64) len s
        let s := f.2
        let sent := macSend p len (.frame p f.1) s
        if portIsUp s p then { sent with sq := { sent.sq with sending := FMap.set sent.sq.sending p (b, q, len) } }
        else bufferFree b sent

def execMacTxPop (queue : BitVec 16) (s : State) : Host.Outcome State Fault Refusal := .next (macTxPop queue.toNat s)

/-- The last byte of a frame has left its port: its buffer is free. -/
def macTxDone (p : Nat) (s : State) : State :=
  match FMap.find s.sq.sending p with
  | some x => bufferFree x.1 { s with sq := { s.sq with sending := FMap.erase s.sq.sending p } }
  | none => s

def execMacTxDone (port : Fin 6) (s : State) : Host.Outcome State Fault Refusal := .next (macTxDone port.val s)

/-! ## Resizing (R305) -/

/-- Indexes of a ring's entries, oldest first. -/
def ringIndexes (r : Ring) : List Nat := (List.range r.d).map (fun i => (r.rd + i) % 2 ^ r.n)

/-- A ring is laid out anew: the entries kept stand from `rd` on, in their order; the buffers of the others are freed. -/
def ringRelay (q n rd : Nat) (keep : Nat → List Byte → Bool) (s : State) : State :=
  let r := ringState s q
  let all := ((ringIndexes r).map (fun i => rdBytes s.mem.res (ringEntryAt s q i) 16)).zipIdx
  let kept := (all.filter (fun e => keep e.2 e.1)).map (fun e => e.1)
  let s := (all.filter (fun e => !keep e.2 e.1)).foldl (fun s e => bufferFree (bufferOf s (leAt e.1 8 4)) s) s
  let s := kept.zipIdx.foldl (fun s e => resWrite (ringEntryAt s q ((rd + e.2) % 2 ^ n)) e.1 s) s
  ringPut q ⟨rd % 2 ^ n, (rd + kept.length) % 2 ^ n, kept.length, n⟩ s

/-- The ring of an egress queue takes a new depth: the oldest entries beyond it are discarded. -/
def ringResize (q n : Nat) (s : State) : State :=
  let r := ringState s q
  let drop := r.d - 2 ^ n
  ringRelay q n ((r.rd + drop) % 2 ^ n) (fun i _ => decide (drop ≤ i)) (countBy 0x60A 0 drop s)

/-- QUEUE.RESIZE: the boundary from which the new depth is in force. -/
def resizeBoundary (s : State) : Nat := s.tb.lin + (if offsetNow s < 66560 then 1 else 2)

/-- QUEUE.RESIZE. -/
def queueResize (h : Hdr) (queue : BitVec 16) (depth : BitVec 8) (s : State) : Reply × State :=
  if (queueOf s queue.toNat).isNone || depth.toNat < 3 || depth.toNat > 12 then fails stBadField s
  else acceptPair 0x1C01 h (.at (stampOfLin (resizeBoundary s))) (.queueResize queue depth) [] id s

def execQueueResize (h : Hdr) (queue : BitVec 16) (depth : BitVec 8) (s : State) : Host.Outcome State Fault Refusal :=
  .next (serve 0x1C01 h (leadModes modesYOLM) (queueResize h queue depth) s)

/-- In the idle guard before its boundary a resize moves the entries of an egress ring. -/
def resizeGuard (s : State) : State :=
  let b := stampOfLin (s.tb.lin + 1)
  s.nose.sched.foldl (fun s e => match e.when, e.act with
    | .at x, .queueResize q d => if x == b && (isEgress s 3 q.toNat || isEgress s 4 q.toNat) then ringResize q.toNat d.toNat s else s
    | _, _ => s) s

/-- From its boundary on the new depth stands. -/
def applyQueueResize (queue : BitVec 16) (depth : BitVec 8) (s : State) : State :=
  { s with sq := { s.sq with depths := FMap.set s.sq.depths queue.toNat depth.toNat } }

/-- The queues of a new map, each with its own depth: the rings whose entry did not change keep their packets, the others
are emptied (R305). -/
def remapQueues (old new : List QEntry) (s : State) : State :=
  let s := { s with sq := { s.sq with depths := [] } }
  old.foldl (fun s e =>
    if (FMap.find s.sq.rings e.queue).isNone then s
    else
      match new.find? (fun x => x.queue == e.queue) with
      | some x =>
        if x.kind == e.kind && x.ports == e.ports && x.ring == e.ring then ringResize e.queue x.depth s
        else { s with sq := { s.sq with rings := FMap.erase s.sq.rings e.queue } }
      | none => { s with sq := { s.sq with rings := FMap.erase s.sq.rings e.queue } }) s

/-- SQ is reset (R54, R302): empty FIFOs, rings and windows, SEQ at 0, no open note. -/
def sqClear (s : State) : State :=
  { s with sq := { sqReset with depths := s.sq.depths } }

/-- The sillage frees every packet that it assembled in a beat that the lead has sealed (R373). -/
def freeHeld (lin : Nat) (s : State) : State :=
  let bufs := (s.sq.held.filter (fun h => h.1 == lin)).map (fun h => h.2)
  if bufs.isEmpty then s
  else s.sq.rings.foldl (fun s p =>
    ringRelay p.1 p.2.n p.2.rd (fun _ d => !bufs.contains (bufferOf s (leAt d 8 4))) s) s

end Sys2Proof.Machine
end

