-- ==== Sys2Proof/Machine/Mem.lean ====
section
/-! DEFINITION. The HBM controller: addresses, requests, scheduling, refresh, power states, freeze, restore and thaw, and the
commands that reach it; the Reservoir scrubber (R333 to R354). -/

namespace Sys2Proof.Machine
open Sys2Proof

/-! ## Parameters and addresses (R335, R337) -/

/-- Fields of the MEM parameters: levels in KiB, RH_THRESHOLD, PAGE_TIMEOUT, IDLE_SR, STANDBY_RATE. -/
def memPar (s : State) (hi lo : Nat) : Nat := bits s.mem.par.toNat hi lo

/-- Bytes of the stack. -/
def hbmSize : Nat := 24 * 2 ^ 30

/-- Where a burst lies: pseudo-channel, bank over the three SIDs, row, column (R334, R335). -/
structure HbmAddr where
  pc : Nat
  bank : Nat
  row : Nat
  col : Nat
deriving DecidableEq, Repr, Inhabited

/-- An address under an ORDER. -/
def hbmAddr (order a : Nat) : HbmAddr :=
  let sid := a / 2 ^ 33
  let b := a % 2 ^ 33
  let row := bits b 32 19
  let at_ (pc bank col : Nat) : HbmAddr := ⟨pc, 16 * sid + bank, row, col⟩
  match order with
  | 0 => at_ (bits b 9 5) (bits b 13 10) (bits b 18 14)
  | 1 => at_ (bits b 14 10) (bits b 18 15) (bits b 9 5)
  | 2 => at_ (bits b 18 14) (bits b 13 10) (bits b 9 5)
  | _ => at_ (bits b 14 10 ^^^ (row % 32)) (bits b 18 15 ^^^ (row / 32 % 16)) (bits b 9 5)

/-- The ORDER of the region that holds an address; SPREAD outside every region. -/
def orderAt (s : State) (a : Nat) : Nat :=
  ((regEntries s.mem.regions).find? (fun e => e.kind != 0 && decide (regBase e ≤ a) && decide (a < regBase e + regLen e))).elim 0
    (fun e => e.order)

/-- A bank before it opens a row. -/
def bankReset : Bank := ⟨none, none, 1, [], none, none, 0⟩

/-- A pseudo-channel with nothing queued. -/
def pcReset : PcSt := ⟨[], 0, [], 0, 0, false, none, []⟩

/-- A pseudo-channel. -/
def pcOf (s : State) (p : Nat) : PcSt := FMap.get pcReset s.mem.pcs p

/-- A pseudo-channel replaced. -/
def pcSet (p : Nat) (v : PcSt) (s : State) : State := { s with mem := { s.mem with pcs := FMap.put pcReset s.mem.pcs p v } }

/-- A bank of a pseudo-channel. -/
def bankOf (p : PcSt) (b : Nat) : Bank := FMap.get bankReset p.banks b

/-- A bank replaced. -/
def bankPut (b : Nat) (v : Bank) (p : PcSt) : PcSt := { p with banks := FMap.put bankReset p.banks b v }

/-- A command enters the history of its pseudo-channel. -/
def pcLog (c : HbmCmd) (p : PcSt) : PcSt := { p with last := (c :: p.last).take 64 }

/-! ## Freeze (R350 to R352) -/

/-- The controller freezes. `loc` is where the cause was found; a cause without a place leaves the capture's fields open.
A cause while FROZEN keeps the first capture, fails a restore in progress and cancels a thaw (R354). -/
def hbmFreeze (cause : Nat) (loc : Option (Nat × HbmCmd × BitVec 64)) (s : State) : State :=
  if s.mem.st == .reset || s.mem.st == .clocksStopped then s
  else if s.mem.st == .frozen then
    { s with
      mem := { s.mem with ready := false }
      nose := { s.nose with
        sched := s.nose.sched.filter (fun e => match e.act with
          | .memThaw => false
          | _ => true)
        jobs := s.nose.jobs.map (fun j => match j.body with
          | .memRestore => { j with body := .failed 0 }
          | _ => j) } }
  else
    let fv := freeVal 4 s
    let v := (fv.1 % 2 ^ 128).toNat
    let s := match loc with
      | some _ => s
      | none => fv.2
    let d : Diag := match loc with
      | some (pc, c, syn) => ⟨BitVec.ofNat 8 cause, pc, c.bank / 16, c.bank % 16, c.row, c.col, syn, (pcOf s pc).last⟩
      | none => ⟨BitVec.ofNat 8 cause, bits v 4 0, bits v 6 5, bits v 11 8, bits v 29 16, bits v 34 30,
          BitVec.ofNat 64 (v / 2 ^ 64), (pcOf s (bits v 4 0)).last⟩
    let s := hbmUndefine 0 hbmSize { s with mem := { s.mem with
      st := .frozen, ready := false, change := none, entering := false, rtw := 0, rtr := 0, panicW := false, panicR := false
      diag := some d
      pcs := s.mem.pcs.map (fun p => (p.1, { p.2 with queue := [], banks := p.2.banks.map (fun b => (b.1, { b.2 with row := none })) })) } }
    let s := raiseEv 0x30 0xB [.num 1 cause, .num 1 d.pc] (count 0xB09 0 s)
    let s := raiseErr 0x07 0xB 0 2 (errDetail [(8, cause), (5, d.pc)]) s
    let s := captureFreeze s
    if inService s then
      let s := makeVerdict 0x09 0xB s.tb.beat (cause * 2 ^ 56) s
      if s.nose.mode == .sillage then goUnfit 6 s else ddFreeze s.tb.lin s
    else s

/-! ## Panic and staging (R340, R344) -/

/-- Panic follows the levels of the staging buffers. -/
def panicUpdate (s : State) : State :=
  let kib (hi lo : Nat) : Nat := memPar s hi lo * 1024
  let w := if s.mem.panicW then decide (s.mem.rtw > kib 111 96) else decide (s.mem.rtw ≥ kib 127 112)
  let r := if s.mem.panicR then decide (s.mem.rtr > kib 79 64) else decide (s.mem.rtr ≥ kib 95 80)
  let s' := { s with mem := { s.mem with panicW := w, panicR := r } }
  let s' := if w && !s.mem.panicW then count 0xB03 0 s' else s'
  if r && !s.mem.panicR then count 0xB03 1 s' else s'

/-- A real-time port is in panic. -/
def inPanic (s : State) : Bool := s.mem.panicW || s.mem.panicR

/-- The writer stages `n` bytes for RTW; a staged write that finds no room freezes the controller. -/
def rtwStage (n : Nat) (s : State) : State :=
  if s.mem.rtw + n > 1048576 then hbmFreeze 4 none s
  else panicUpdate { s with mem := { s.mem with rtw := s.mem.rtw + n } }

/-! ## Self-refresh and frequency (R348, R349) -/

/-- Some request is queued. -/
def hbmBusy (s : State) : Bool := s.mem.pcs.any (fun p => !p.2.queue.isEmpty)

/-- The controller leaves self-refresh: one unit is retired for every pseudo-channel before it serves requests. -/
def srExit (s : State) : State :=
  { s with mem := { s.mem with
    st := .active, entering := false
    pcs := s.mem.pcs.map (fun p => (p.1, { p.2 with debt := p.2.debt - 1, unit := 0, forced := false })) } }

/-- A frequency change begins. -/
def startFreqChange (rate : BitVec 2) (s : State) : State :=
  if rate = s.mem.rate || !(s.mem.st == .active || s.mem.st == .selfRefresh) then s
  else { s with mem := { s.mem with change := some rate, entering := s.mem.st == .active } }

/-- The host or a port reaches the controller: an entry to self-refresh short of its commit point is abandoned, an idle
self-refresh ends. -/
def hbmTouch (s : State) : State :=
  let s := if s.mem.entering then count 0xB08 0 { s with mem := { s.mem with entering := false } } else s
  let s := if s.mem.st == .selfRefresh && s.mem.change.isNone then srExit s else s
  { s with mem := { s.mem with lastReq := s.tb.t40 } }

/-- In STANDBY after IDLE_SR without a request the entry to self-refresh begins. -/
def idleSelfRefresh (s : State) : State :=
  if s.nose.mode == .standby && s.mem.st == .active && s.mem.change.isNone && !hbmBusy s && memPar s 40 25 != 0 then
    { s with mem := { s.mem with entering := true } }
  else s

def execIdleSelfRefresh (s : State) : Host.Outcome State Fault Refusal := .next (idleSelfRefresh s)

/-- A frequency change completes: the rate's shadow set is active and waiting requests are served. -/
def freqChangeDone (s : State) : State :=
  match s.mem.change with
  | none => s
  | some r =>
    if s.mem.st == .active || s.mem.st == .selfRefresh then srExit { s with mem := { s.mem with rate := r, change := none } }
    else s

def execHbmFreqChangeDone (s : State) : Host.Outcome State Fault Refusal := .next (freqChangeDone s)

/-! ## Requests (R341, R343) -/

/-- A request reaches the controller and is queued at its pseudo-channel. -/
def hbmRequest (port : Fin 5) (write : Bool) (addr : Nat) (data : List Byte) (s : State) : State :=
  if !(s.mem.st == .active || s.mem.st == .selfRefresh) then s
  else if port = 1 && !write && s.mem.rtr + 32 > 1048576 then s
  else
    let s := hbmTouch s
    let a := addr / 32 * 32
    let d := hbmAddr (orderAt s a) a
    let p := pcOf s d.pc
    let r : HbmReq := ⟨p.nextSeq, port, write, a, d.bank, d.row, d.col, data.take 32, s.tb.t40, false⟩
    let b := bankOf p d.bank
    let hazard := p.queue.filter (fun q => q.write && !q.issued && q.bank == d.bank && q.row == d.row)
    let enter := !write && !hazard.isEmpty && b.inOrder.isNone
    let p := { p with queue := p.queue ++ [r], nextSeq := p.nextSeq + 1 }
    let p := if write || hazard.isEmpty then p
      else bankPut d.bank { b with inOrder := some (maxN (hazard.map (fun q => q.seq))) } p
    let s := pcSet d.pc p s
    let s := if enter then count 0xB07 d.pc s else s
    if port = 1 && !write then panicUpdate { s with mem := { s.mem with rtr := s.mem.rtr + 32 } } else s

/-- A request to an address that the stack does not have faults. -/
def execHbmRequest (port : Fin 5) (write : Bool) (addr : BitVec 35) (data : List Byte) (s : State) :
    Host.Outcome State Fault Refusal :=
  if addr.toNat ≥ hbmSize then .fault .noSuchAddress else .next (hbmRequest port write addr.toNat data s)

/-! ## Scheduling (R341, R342, R345 to R347) -/

/-- Class of a request under R341; a non-real-time request that has waited 16 µs outside panic joins class 4. -/
def requestClass (s : State) (r : HbmReq) : Nat :=
  if r.port = 0 then (if s.mem.panicW then 30 else 40)
  else if r.port = 1 then (if s.mem.panicR then 31 else 40)
  else if !inPanic s && decide (s.tb.t40 - r.at_ ≥ 16000 * 2 ^ 40) then 40
  else 48 + r.port.val

/-- A request that may issue now. -/
def requestEligible (s : State) (p : PcSt) (r : HbmReq) : Bool :=
  let b := bankOf p r.bank
  let older := p.queue.filter (fun q => !q.issued && q.bank == r.bank && decide (q.seq < r.seq))
  !r.issued && decide (b.busy ≤ s.tb.t40) && (b.inOrder.isNone || older.isEmpty)
    && !(r.write && p.queue.any (fun q => !q.write && !q.issued && q.addr == r.addr && decide (q.seq < r.seq)))

/-- Order of requests: class, then row hits, then age. -/
def requestKey (s : State) (p : PcSt) (r : HbmReq) : Nat × Nat × Nat :=
  (requestClass s r, if (bankOf p r.bank).row == some r.row then 0 else 1, r.seq)

/-- The first request of a pseudo-channel in that order. -/
def firstRequest (s : State) (p : PcSt) : Option HbmReq :=
  (p.queue.filter (requestEligible s p)).foldl (fun b r => match b with
    | none => some r
    | some x =>
      let k := requestKey s p r
      let m := requestKey s p x
      if k.1 < m.1 || (k.1 == m.1 && (k.2.1 < m.2.1 || (k.2.1 == m.2.1 && k.2.2 < m.2.2))) then some r else some x) none

/-- The activate table after an activate, with the row that reaches the threshold (R347). -/
def activate (threshold row : Nat) (b : Bank) : Bank :=
  let acts := b.acts
  let acts := match acts.find? (fun a => a.1 == row) with
    | some _ => acts.map (fun a => if a.1 = row then (row, a.2 + 1) else a)
    | none =>
      if acts.length < 16 then acts ++ [(row, 1)]
      else
        let m := (minN (acts.map (fun a => a.2))).getD 0
        let i := acts.findIdx (fun a => a.2 == m)
        acts.set i (row, m + 1)
  let hit := acts.any (fun a => a.1 == row && decide (a.2 ≥ threshold))
  { b with acts := acts, neighbour := if hit then some row else b.neighbour }

/-- A bank comes to hold a request's row open: the page counter and the activate table follow (R342, R347). -/
def openRow (threshold row : Nat) (b : Bank) : Bank :=
  if b.row = some row then b
  else
    let c := if b.last = some row then (if b.ctr = 3 then b.ctr else b.ctr + 1) else (if b.ctr = 0 then b.ctr else b.ctr - 1)
    activate threshold row { b with row := some row, last := some row, ctr := c }

/-- A read or a write issues. A write's bytes are in the stack from now on; a read waits for its return. -/
def issueRequest (pc : Nat) (r : HbmReq) (s : State) : State :=
  let p := pcOf s pc
  let b := openRow (memPar s 63 49) r.row (bankOf p r.bank)
  let b := if b.inOrder = some r.seq then { b with inOrder := none } else b
  let queue := if r.write then p.queue.filter (fun q => q.seq != r.seq)
    else p.queue.map (fun q => if q.seq = r.seq then { q with issued := true } else q)
  let waiting := queue.any (fun q => !q.issued && q.bank == r.bank)
  let b := if waiting || b.ctr.toNat ≥ 2 then b else { b with row := none }
  let p := pcLog ⟨if r.write then 2 else 1, r.bank, r.row, r.col⟩ (bankPut r.bank b { p with queue := queue })
  let s := pcSet pc p s
  if r.write then
    let s := hbmWrite r.addr r.data s
    if r.port = 0 then panicUpdate { s with mem := { s.mem with rtw := s.mem.rtw - 32 } } else s
  else s

/-- One per-bank refresh of the unit being retired. -/
def issueRefresh (pc : Nat) (s : State) : State :=
  let p := pcOf s pc
  let begins := p.unit = 0
  let forced := if begins then inPanic s else p.forced
  let b := bankOf p p.unit
  let p' := pcLog ⟨3, p.unit, 0, 0⟩ (bankPut p.unit { b with row := none, busy := s.tb.t40 + 200 * 2 ^ 40 }
    { p with refAt := some s.tb.t40, forced := forced })
  let p' := if p.unit + 1 = 48 then { p' with unit := 0, debt := p.debt - 1, forced := false } else { p' with unit := p.unit + 1 }
  let s := pcSet pc p' s
  if begins && forced then count 0xB05 pc s else s

/-- A neighbour refresh of a bank. -/
def issueNeighbour (pc bank row : Nat) (s : State) : State :=
  let p := pcOf s pc
  let b := bankOf p bank
  let b := { b with row := none, neighbour := none, acts := b.acts.map (fun a => if a.1 = row then (row, 0) else a) }
  count 0xB06 pc (pcSet pc (pcLog ⟨4, bank, row, 0⟩ (bankPut bank b p)) s)

/-- A per-bank refresh may issue: 25 ns after the last. -/
def refreshReady (s : State) (p : PcSt) : Bool :=
  p.refAt.all (fun t => decide (s.tb.t40 ≥ t + 25 * 2 ^ 40)) && decide ((bankOf p p.unit).busy ≤ s.tb.t40)

/-- A pseudo-channel issues its first eligible command. An entry to self-refresh commits with its command to
pseudo-channel 0, once nothing is queued. -/
def commandIssue (pc : Nat) (s : State) : State :=
  if !(s.mem.st == .active) then s
  else if s.mem.entering && !hbmBusy s then
    if pc = 0 then
      { s with mem := { s.mem with
        st := .selfRefresh, entering := false
        pcs := s.mem.pcs.map (fun p => (p.1, pcLog ⟨5, 0, 0, 0⟩ { p.2 with banks := p.2.banks.map (fun b => (b.1, { b.2 with row := none })) })) } }
    else s
  else if s.mem.change.isSome && !s.mem.entering && !hbmBusy s then { s with mem := { s.mem with entering := true } }
  else
    let p := pcOf s pc
    let panic := inPanic s
    let owed := p.banks.find? (fun b => b.2.neighbour.isSome)
    let force := (p.unit != 0 && p.forced) || (panic && decide (p.debt ≥ 8))
    match owed with
    | some (b, v) => issueNeighbour pc b (v.neighbour.getD 0) s
    | none =>
      if force && refreshReady s p then issueRefresh pc s
      else if decide (p.debt ≥ 1) && !panic && refreshReady s p then issueRefresh pc s
      else match firstRequest s p with
        | some r => issueRequest pc r s
        | none => s

def execHbmCommandIssue (pc : Fin 32) (s : State) : Host.Outcome State Fault Refusal := .next (commandIssue pc.val s)

/-- tREFI has passed for a pseudo-channel: its debt rises; in panic the unit is postponed until the debt reaches 8. -/
def refreshInterval (pc : Nat) (s : State) : State :=
  if !(s.mem.st == .active) then s
  else
    let p := pcOf s pc
    let s := pcSet pc { p with debt := p.debt + 1 } s
    if inPanic s && decide (p.debt + 1 < 8) then count 0xB04 pc s else s

def execRefreshInterval (pc : Fin 32) (s : State) : Host.Outcome State Fault Refusal := .next (refreshInterval pc.val s)

/-- The activate tables clear. -/
def activateClear (s : State) : State :=
  { s with mem := { s.mem with pcs := s.mem.pcs.map (fun p =>
    (p.1, { p.2 with banks := p.2.banks.map (fun b => (b.1, { b.2 with acts := [] })) })) } }

def execActivateTableClear (s : State) : Host.Outcome State Fault Refusal := .next (activateClear s)

/-- An open page closes after PAGE_TIMEOUT idle cycles. -/
def pageTimeout (pc bank : Nat) (s : State) : State :=
  let p := pcOf s pc
  if p.queue.any (fun q => !q.issued && q.bank == bank) then s
  else pcSet pc (bankPut bank { bankOf p bank with row := none } p) s

def execPageTimeout (pc : Fin 32) (bank : Fin 48) (s : State) : Host.Outcome State Fault Refusal :=
  .next (pageTimeout pc.val bank.val s)

/-- The oldest issued read of a pseudo-channel returns and is checked. -/
def readReturn (pc : Nat) (syndrome : BitVec 64) (uncorrectable : Bool) (s : State) : State :=
  let p := pcOf s pc
  match p.queue.find? (fun q => q.issued) with
  | none => s
  | some r =>
    let s := pcSet pc { p with queue := p.queue.filter (fun q => q.seq != r.seq) } s
    let s := if r.port = 1 then panicUpdate { s with mem := { s.mem with rtr := s.mem.rtr - 32 } } else s
    if uncorrectable then hbmFreeze 1 (some (pc, ⟨1, r.bank, r.row, r.col⟩, syndrome)) s
    else if syndrome != 0 then count 0xB02 pc s
    else s

def execHbmReadReturn (pc : Fin 32) (syndrome : BitVec 64) (uncorrectable : Bool) (s : State) :
    Host.Outcome State Fault Refusal := .next (readReturn pc.val syndrome uncorrectable s)

/-- The stack reports a command parity error, or a write-data error, of a pseudo-channel's last command. -/
def stackError (parity : Bool) (pc : Nat) (s : State) : State :=
  hbmFreeze (if parity then 2 else 1) ((pcOf s pc).last.head?.map (fun c => (pc, c, 0#64))) s

def execStackErrorReport (parity : Bool) (pc : Fin 32) (s : State) : Host.Outcome State Fault Refusal :=
  .next (stackError parity pc.val s)

def execStackCatastrophicTemp (s : State) : Host.Outcome State Fault Refusal := .next (hbmFreeze 3 none s)

def execReservoirScrub (s : State) : Host.Outcome State Fault Refusal := .next (scrubLine s)

/-! ## MEM.CONFIG and status (R336 to R338) -/

/-- A region table obeys its ranges: used entries do not overlap and carry distinct kinds. -/
def regionsOk (t : BitVec 256) : Bool :=
  let es := regEntries t
  let used := es.zipIdx.filter (fun e => e.1.kind != 0)
  es.all (fun e => decide (e.kind ≤ 4) && !e.rsv)
    && used.all (fun e => decide (e.1.base ≤ 49151) && decide (1 ≤ e.1.len) && decide (e.1.base + e.1.len ≤ 49152))
    && used.all (fun a => used.all (fun b =>
      a.2 == b.2 || (a.1.kind != b.1.kind && !overlaps a.1.base a.1.len b.1.base b.1.len)))

/-- The MEM parameters obey their ranges. -/
def memParOk (p : Nat) : Bool :=
  let f := bits p
  decide (64 ≤ f 127 112) && decide (f 127 112 ≤ 960) && decide (f 111 96 + 64 ≤ f 127 112)
    && decide (32 ≤ f 95 80) && decide (f 95 80 ≤ 960) && decide (f 79 64 + 32 ≤ f 95 80)
    && decide (256 ≤ f 63 49) && decide (f 63 49 ≤ 16384) && decide (16 ≤ f 48 41) && decide (f 24 23 ≤ 2) && f 22 0 == 0

/-- MEM.CONFIG: the tables take effect before the response; a region that moves loses its contents. -/
def memConfig (regions : BitVec 256) (params : BitVec 128) (s : State) : Reply × State :=
  let fits (f : Option Formula) : Bool := f.all (ringFits regions)
  if !regionsOk regions || !memParOk params.toNat || !fits s.frm.active || !fits s.frm.pending then fails stBadField s
  else
    let changed := (List.range 4).filter (fun i =>
      let a := regEntry s.mem.regions i
      let b := regEntry regions i
      a.base != b.base || a.len != b.len || a.order != b.order)
    let wipe (t : BitVec 256) (s : State) : State :=
      changed.foldl (fun s i => hbmUndefine (regBase (regEntry t i)) (regLen (regEntry t i)) s) s
    let s := wipe regions (wipe s.mem.regions s)
    let s := panicUpdate { s with mem := { s.mem with regions := regions, par := params } }
    okWith [] (startFreqChange (BitVec.ofNat 2 (memPar s 24 23)) s)

def execMemConfig (h : Hdr) (regions : BitVec 256) (params : BitVec 128) (s : State) : Host.Outcome State Fault Refusal :=
  .next (serve 0x2201 h (inModes [.standby]) (memConfig regions params) s)

/-- MEM.STATUS. -/
def memStatus (s : State) : List Fld :=
  let eyes (l : List (Nat × Nat)) : List Fld :=
    (List.range 160).flatMap (fun i => let e := l.getD i (0, 0); [Fld.num 1 e.1, Fld.num 1 e.2])
  [.num 1 (hbmStCode s.mem.st), .num 1 (if s.mem.ready then 1 else 0), .num 2 s.mem.temp.toNat, .num 4 0]
    ++ eyes s.mem.eyes8 ++ eyes s.mem.eyesS

def execMemStatus (h : Hdr) (s : State) : Host.Outcome State Fault Refusal :=
  .next (serve 0x2202 h (inModes modesYOLM) (fun s => okWith (memStatus s) s) s)

/-- MEM.DIAG. Before any freeze the capture's values are not stated: free values. The manual gives a command no format. -/
def memDiag (s : State) : Reply × State :=
  let cmds (l : List HbmCmd) : List Fld :=
    ((List.range 64).map (fun i => match l[63 - i]? with
      | some c => Fld.num 8 (Config.diagCommand c.code c.bank c.row c.col).toNat
      | none => Fld.num 8 (Config.diagCommand 0 0 0 0).toNat))
  match s.mem.diag with
  | some d => okWith ([.num 1 d.cause.toNat, .num 1 d.pc, .num 1 d.sid, .num 1 d.bank, .num 2 d.row, .num 1 d.col, .num 1 0,
      .num 8 d.synd.toNat] ++ cmds d.cmds) s
  | none =>
    let fv := freeVal 8 s
    okWith ([.num 1 (wrapN 8 fv.1), .num 1 (wrapN 8 fv.1), .num 1 (wrapN 8 fv.1), .num 1 (wrapN 8 fv.1), .num 2 (wrapN 16 fv.1),
      .num 1 (wrapN 8 fv.1), .num 1 0, .num 8 (wrapN 64 fv.1)] ++ cmds []) fv.2

def execMemDiag (h : Hdr) (s : State) : Host.Outcome State Fault Refusal :=
  .next (serve 0x2203 h (inModes modesYOLM) memDiag s)

/-! ## Freeze, restore, thaw (R350, R353) -/

def execMemFreeze (h : Hdr) (s : State) : Host.Outcome State Fault Refusal :=
  .next (serve 0x2204 h (inModes [.standby]) (fun s => okWith [] (hbmFreeze 5 none s)) s)

/-- MEM.RESTORE of a frozen controller. -/
def memRestore (h : Hdr) (s : State) : Reply × State :=
  if s.mem.st == .frozen then startJob 0x2205 h .memRestore s else fails stBadField s

def execMemRestore (h : Hdr) (s : State) : Host.Outcome State Fault Refusal :=
  .next (serve 0x2205 h (inModes modesYOLM) (memRestore h) s)

/-- Every lane's eye is at least 16 steps. -/
def eyesOk (l : List (Nat × Nat)) : Bool := l.length == 160 && l.all (fun e => decide (16 ≤ e.1))

/-- Training under MEM.RESTORE ends. -/
def memRestoreComplete (eyes8 eyesS : List (Nat × Nat)) (s : State) : State :=
  match jobOf 0x2205 s with
  | none => s
  | some j =>
    let bad := match j.body with
      | .failed _ => true
      | _ => false
    if bad || !eyesOk eyes8 || !eyesOk eyesS then endJob j stTrainFail none [] s
    else
      let s := { s with mem := { s.mem with ready := true, eyes8 := eyes8, eyesS := eyesS } }
      endJob j stOk none [] (raiseEv 0x31 0xB [] s)

def execMemRestoreComplete (eyes8 eyesS : List (Nat × Nat)) (s : State) : Host.Outcome State Fault Refusal :=
  .next (memRestoreComplete eyes8 eyesS s)

/-- The thaw at T: the controller returns to service and the ring is emptied (R244, R353). -/
def memThawApply (t : Stamp) (s : State) : State :=
  if s.mem.st == .frozen && s.mem.ready then
    let s := srExit { s with mem := { s.mem with ready := false } }
    let s := ddEmpty { s with dd := { s.dd with frozenFrom := none, firstLin := s.tb.lin - 2 } }
    raiseEv 0x32 0xB [.num 4 t.toNat] s
  else s

/-- MEM.THAW names T; in STANDBY T is zero and the thaw takes effect at once. -/
def memThaw (h : Hdr) (t : Stamp) (s : State) : Reply × State :=
  let c := checkSZero t s
  if c = stBadField then fails c s
  else if !s.mem.ready then fails stNotReady s
  else if c ≠ stOk then fails c s
  else if s.nose.mode == .standby then acceptPair 0x2206 h .now .memThaw [] (memThawApply 0) s
  else acceptPair 0x2206 h (.at t) .memThaw [] id s

/-- MEM.THAW is a command of the lead; a sillage that is UNFIT after its own freeze takes it too (R365). -/
def thawModes (s : State) : Nat :=
  if s.nose.mode == .sillage && !(s.twn.fitness == .unfit && s.twn.cause == 6) then stNotLead else inModes modesYOLM s

def execMemThaw (h : Hdr) (t : Stamp) (s : State) : Host.Outcome State Fault Refusal :=
  .next (serve 0x2206 h thawModes (memThaw h t) s)

/-! ## Host accesses (R336) -/

/-- A host memory command may reach [a, a + n): the HOST region, in STANDBY any one region. -/
def hostReach (s : State) (a n : Nat) : Bool :=
  if s.nose.mode == .standby then [1, 2, 3, 4].any (fun k => inRegion s.mem.regions k a n) else inRegion s.mem.regions 4 a n

/-- The controller serves host commands. -/
def hbmServes (s : State) : Bool := s.mem.st == .active || s.mem.st == .selfRefresh

/-- A byte with the queued writes that arrived before (R343). -/
def hbmView (s : State) (a : Nat) : Byte :=
  let d := hbmAddr (orderAt s (a / 32 * 32)) (a / 32 * 32)
  match ((pcOf s d.pc).queue.filter (fun q => q.write && !q.issued && decide (q.addr ≤ a) && decide (a < q.addr + q.data.length))).getLast? with
  | some q => q.data.getD (a - q.addr) 0
  | none => hbmByte s a

/-- MEM.READ. -/
def memRead (addr : BitVec 64) (length : BitVec 16) (s : State) : Reply × State :=
  let a := addr.toNat
  let n := length.toNat
  if n < 1 || n > 4064 || !hostReach s a n then fails stBadField s
  else if !hbmServes s then fails stUnavailable s
  else
    let s := hbmTouch s
    okWith [.str ((List.range n).map (fun i => hbmView s (a + i)))] s

def execMemRead (h : Hdr) (addr : BitVec 64) (length : BitVec 16) (s : State) : Host.Outcome State Fault Refusal :=
  .next (serve 0x2207 h (inModes modesYOLM) (memRead addr length) s)

/-- A queued write overwritten in part by a later one keeps its own bytes elsewhere: later bytes win when it issues. -/
def overlayWrites (a : Nat) (b : List Byte) (s : State) : State :=
  { s with mem := { s.mem with pcs := s.mem.pcs.map (fun p => (p.1, { p.2 with queue := p.2.queue.map (fun q =>
    if q.write && !q.issued && overlaps q.addr q.data.length a b.length then
      { q with data := q.data.zipIdx.map (fun x => if a ≤ q.addr + x.2 && q.addr + x.2 < a + b.length then b.getD (q.addr + x.2 - a) 0 else x.1) }
    else q) })) } }

/-- MEM.WRITE. -/
def memWrite (addr : BitVec 64) (length : BitVec 16) (data : List Byte) (s : State) : Reply × State :=
  let a := addr.toNat
  let n := length.toNat
  if n < 1 || n > 4064 || data.length ≠ n || !hostReach s a n then fails stBadField s
  else if !hbmServes s then fails stUnavailable s
  else okWith [] (hbmWrite a data (overlayWrites a data (hbmTouch s)))

def execMemWrite (h : Hdr) (addr : BitVec 64) (length : BitVec 16) (data : List Byte) (s : State) :
    Host.Outcome State Fault Refusal :=
  .next (serve 0x2208 h (inModes modesYOL) (memWrite addr length data) s)

end Sys2Proof.Machine
end

