-- ==== Sys2Proof/Machine/Modes.lean ====
section
/-! DEFINITION. Changes of mode: the common starting state, what stops in STANDBY, the dead-man gate, a switch of the
formula, the rupture (R36 to R39, R54, R357, R417 to R422). -/

namespace Sys2Proof.Machine
open Sys2Proof

/-! ## Programs (R38, R39, R189) -/

/-- The instruction words of a program enter the instruction memory of its cluster. -/
def loadProg (p : Prog) (s : State) : State :=
  let words := (List.range (p.bytes.length / 8)).map (fun i => BitVec.ofNat 64 (leAt p.bytes (8 * i) 8))
  let c := clOf s p.cluster
  clSet p.cluster { c with imem := words.zipIdx.foldl (fun m w => FMap.put 0 m (p.first / 8 + w.2) w.1) c.imem } s

/-- Every program of the active formula is loaded. -/
def loadProgs (s : State) : State := (s.frm.active.elim [] (fun f => f.progs)).foldl (fun s p => loadProg p s) s

/-- The background of every cluster restarts at BG_ENTRY with its registers cleared. -/
def bgRestart (s : State) : State :=
  (List.range 96).foldl (fun s k =>
    let e := clEntry s k
    let bg := if e.bgEn then { ctxReset with run := true, pc := e.bgEntry } else ctxReset
    clSet k { clOf s k with bg := bg, suspReq := false, suspended := false, jwait := false, part := none } s) s

/-- Nothing of a foreground program is under way in any cluster. -/
def fgIdle (s : State) : State :=
  { s with ae := { s.ae with clusters := s.ae.clusters.map (fun p =>
    (p.1, { p.2 with fg := ctxReset, commit := [], written := [], released := [], done := false })) } }

/-- Every weight is zero and has no version (R214). -/
def clearWeights (s : State) : State :=
  let s := { s with ae := { s.ae with weights := [], versions := [] } }
  (List.range 96).foldl (fun s k =>
    ((clEntry s k).outs.filter (fun r => r.kind == 3)).foldl (fun s r =>
      let c := clOf s k
      let cut (m : FMap Cell) : FMap Cell := m.filter (fun p => !(decide (r.first ≤ p.1) && decide (p.1 < r.first + r.count)))
      clSet k (if r.y then { c with y := cut c.y } else { c with x := cut c.x }) s) s) s

/-! ## Mode changes (R417) -/

/-- STANDBY_RATE (R337). -/
def standbyRate (s : State) : BitVec 2 := BitVec.ofNat 2 (memPar s 24 23)

/-- The mode becomes `m`: captures end, and the HBM takes the rate of the mode. -/
def changeMode (m : Mode) (s : State) : State :=
  let old := s.nose.mode
  let s := captureEndAll s
  let s := { s with nose := { s.nose with mode := m } }
  if m == .standby then startFreqChange (standbyRate s) s
  else if old == .standby then startFreqChange 0 (if s.mem.st == .selfRefresh && s.mem.change.isNone then srExit s else s)
  else s

/-- EV_MODE. -/
def evMode (old new : Mode) (cause : Nat) (s : State) : State :=
  raiseEv 0x02 0xD [.num 1 (modeCode old), .num 1 (modeCode new), .num 1 cause] s

/-- A change of mode with its event. -/
def setMode (m : Mode) (cause : Nat) (s : State) : State := evMode s.nose.mode m cause (changeMode m s)

/-- No beat program is under way. -/
def stopPrograms (s : State) : State :=
  fgIdle { s with frm := { s.frm with
    running := [], completed := [], overrun := [], subst := [], taint := [], moving := [], moved := [] } }

/-- From a boundary on the formula does not execute: no beat program, zeros on the lanes, no packet or note that is not
assembled (R421, R422). -/
def stopService (s : State) : State :=
  let s := stopPrograms { s with frm := { s.frm with executing := false, ruptureS := none, stepWait := false, loopRun := none } }
  let s := (List.range 16).foldl (fun s i =>
    let r := (fifoCut i s).1
    fifoSet i { fifoOf r i with due := (fifoOf r i).due.filter (fun d => match d.2 with
      | .aux _ _ => true
      | _ => false) } r) s
  efeStop s.tb.lin (releaseFences { s with sq := { s.sq with notes := [], windows := [], shadow := [] } })

/-- The ring is emptied under the active formula's length; host jobs that read it lose their beats (R242, R243). -/
def emptyStore (s : State) : State :=
  let l := retained s
  let s := failHostJobs (fun b => l.any (fun lin => hostJobReads s lin b)) 0x11 s
  ddEmpty { s with dd := { s.dd with n := ddLength (ddPar s), nNext := none } }

/-- Every adaptive state is in its reset condition, and the reorder windows are empty (R54); the formula executes from
here. -/
def commonReset (s : State) : State :=
  let s := stopPrograms { s with
    frm := { s.frm with executing := true, startBeat := s.tb.lin, ruptureS := none, stepWait := false, digested := [] }
    stu := []
    fhp := { s.fhp with arrived := [], late := [] } }
  let s := emptyStore (sicZero (sqClear s))
  bgRestart (clearWeights { s with dd := { s.dd with jobs := [] } })

/-- The common starting state at which service begins: every loopback is cleared (R420). -/
def commonStart (s : State) : State :=
  commonReset { s with tst := { s.tst with loop := [], checkers := [] }, frm := { s.frm with loopRun := none } }

/-! ## The dead-man gate and the pair (R357, R375) -/

/-- The pair outputs are low. -/
def gatePins (s : State) : State :=
  { s with pins := { s.pins with leadSel := false, twinLead0 := false, twinAlive0 := false } }

/-- The device is in no pair. -/
def leavePair (s : State) : State :=
  { s with twn := { s.twn with
    role := 0, fitness := .unfit, cause := 0, pairing := none, forwarding := false, waiting := [], leadV := [], ownV := []
    sealed_ := false, selfRuled := [], outcomes := [], handover := none, handoverAck := false, failed := false
    rejoinAt := none, streamDone := false, joinAt := none, ripenUntil := none, thetas := [] } }

/-- Commands that wait for the sillage's ACK when the pair ends are refused (R365). -/
def refuseWaits (s : State) : State :=
  s.nose.jobs.foldl (fun s j => match j.body with
    | .pairWait .. => endJob j stTwinRefused none [] s
    | .swap .. => endJob j stTwinRefused none [] s
    | _ => s) s

/-- LEAD or SILLAGE is left for STANDBY with a cause. -/
def pairToStandby (cause : Nat) (s : State) : State :=
  let s := refuseWaits s
  setMode .standby cause (leavePair (gatePins (stopService s)))

/-- The dead-man gate acts: the pair outputs go low, and LEAD or SILLAGE is left at once (R357, R422). -/
def deadManGate (s : State) : State :=
  if s.nose.mode == .lead || s.nose.mode == .sillage then pairToStandby 0x07 s else gatePins s

def execDeadManGate (s : State) : Host.Outcome State Fault Refusal := .next (deadManGate s)

/-! ## A switch of the formula (R36 to R39) -/

/-- What EV_FORMULA_SWITCHED carries: 0 seamless, 1 ruptive (R36). -/
def switchKind (seamless : Bool) : Nat := if seamless then 0 else 1

/-- The pending image becomes active, the previous one is released, and the event carries the beat (R36). -/
def activatePending (f : Formula) (seamless : Bool) (b : Stamp) (s : State) : State :=
  let s := { s with frm := { s.frm with active := some f, pending := none, slot := s.frm.slot + 1 } }
  raiseAt 0x08 0x5 b [.num 4 b.toNat, .num 4 f.id.toNat, .num 2 f.revision.toNat, .num 1 (switchKind seamless)] s

/-- The parameters that the EFE uses from a beat on (R103, R104). -/
def efeSetOf (s : State) : EfeSet := ⟨carriersOf s, s.frm.active.elim [] (fun f => f.efe)⟩

/-- The EFE's settings take effect: receive from a beat, transmit from another. -/
def efeSwitch (rx tx : Nat) (s : State) : State :=
  { s with efe := { s.efe with
    rxSet := ((rx, efeSetOf s) :: s.efe.rxSet).take 8, txSet := ((tx, efeSetOf s) :: s.efe.txSet).take 8 } }

/-- The front end of every aligned element is zeroed at the beat that opens (R107, R109). -/
def efeZeroAll (s : State) : State :=
  (List.range 256).foldl (fun s e =>
    let l := laneOf s e
    if l.indexed && (l.st == .service || l.st == .aligned) && (rxOf s e).zeroAt.isNone then
      efeZero e s.tb.lin l.ta (lwLatRx (laneWord s e)) s
    else s) s

/-- A job that a rupture from beat `lin` on ends: its RECOMBINE deadline lies in or after it (R250). -/
def ruptureHits (lin : Nat) (j : RcJob) (s : State) : Bool :=
  match ddDeadline s 4 j.c with
  | some d => decide (lin ≤ j.lin + d.1)
  | none => true

/-- What a ruptive switch or a time step takes from the beat it opens: no beat program, the ring emptied, jobs that
reach past it lost (R39, R242, R250). Host jobs lose the beats they read. -/
def beginRupture (s : State) : State :=
  let lin := s.tb.lin
  let s := stopPrograms { s with frm := { s.frm with ruptureS := some lin } }
  let s := { s with dd := { s.dd with jobs := s.dd.jobs.map (fun j =>
    if j.host then (if j.st == .running then { j with st := .overtaken, todo := [] } else j)
    else if (j.st == .running || j.st == .done) && ruptureHits lin j s then { j with st := .rupture, todo := [] }
    else j) } }
  captureEndAll (efeStop lin (emptyStore s))

/-- The switch in STANDBY takes effect at once and is reported as ruptive (R36). -/
def switchStandby (s : State) : State :=
  match s.frm.pending with
  | none => s
  | some f => lateUpdateAll (loadProgs (activatePending f false s.tb.beat s))

/-- The switch at boundary S while the formula executes: seamless (R38) or ruptive (R39). -/
def switchAt (s : State) : State :=
  match s.frm.pending with
  | none => s
  | some f =>
    let seamless := switchSeamless s.frm.active f
    let old := s.frm.active
    let lin := s.tb.lin
    let s := activatePending f seamless s.tb.beat s
    if seamless then
      let s := match old with
        | some o => sicSwitch o f s
        | none => s
      let n := ddLength f.dd
      let s := if s.dd.n = n then s else { s with dd := { s.dd with nNext := some n } }
      efeSwitch lin (lin + 1) (lateUpdateAll (bgRestart (loadProgs s)))
    else
      let s := remapQueues (old.elim [] (fun o => o.queues)) f.queues s
      lateUpdateAll (beginRupture s)

/-- At S+7 of a rupture the canceller and the blotter restart, the front ends are zeroed under the new carriers, and the
programs are loaded (R39, R109, R126, R151). -/
def ruptureZero (s : State) : State :=
  let lin := s.tb.lin
  efeZeroAll (bgRestart (loadProgs (efeSwitch lin lin (stuZero (sicZero s)))))

end Sys2Proof.Machine
end

