-- ==== Sys2Proof/Machine/Boot.lean ====
section
/-! DEFINITION. Resets, the start sequence, failed starts, base-note mode, the boot flash and the fuses, supply and
temperature (R406 to R426, R472, R475). -/

namespace Sys2Proof.Machine
open Sys2Proof

/-! ## Boot flash (R411, R426) -/

/-- A byte of the boot flash: as written, else what the manual leaves open. -/
def flashByte (s : State) (a : Nat) : Byte :=
  match FMap.find s.boot.flash a with
  | some b => b
  | none =>
    match s.boot.flashUndef.find? (fun u => decide (u.1 ≤ a) && decide (a < u.1 + u.2.1)) with
    | some u => Config.flashOpen u.2.2 a
    | none => Config.flashOpen 0 a

/-- Bytes of the boot flash. -/
def flashBytes (s : State) (a n : Nat) : List Byte := (List.range n).map (fun i => flashByte s (a + i))

/-- The sectors that hold [a, a + n) have undefined contents. -/
def flashUndefine (a n : Nat) (s : State) : State :=
  let z := Config.flashSector
  let first := a / z * z
  let count := ((a + n - 1) / z + 1) * z - first
  { s with boot := { s.boot with
    flash := clearRange s.boot.flash first count, gen := s.boot.gen + 1
    flashUndef := (first, count, s.boot.gen + 1) :: s.boot.flashUndef } }

/-- A reset cuts a FLASH.WRITE short: the sectors being written are undefined. -/
def flashCut (s : State) : State :=
  s.nose.jobs.foldl (fun s j => match j.body with
    | .flash off _ data => flashUndefine off data.length s
    | _ => s) s

/-- FLASH.WRITE checks its fields; the write ends later. -/
def flashWrite (h : Hdr) (offset : BitVec 32) (erase : BitVec 8) (data : List Byte) (s : State) : Reply × State :=
  if erase.toNat > 1 || data.isEmpty || data.length > 4064 || offset.toNat + data.length > 2 ^ 32 then fails stBadField s
  else startJob 0x3801 h (.flash offset.toNat (erase == 1#8) data) s

/-- In BASE the fuse BASE_FLASH_LOCK bars FLASH.WRITE (R423). -/
def flashModes (s : State) : Nat :=
  if s.nose.mode == .base && s.boot.sensed.policy.getLsbD 5 then stBadMode else inModes [.base, .standby] s

def execFlashWrite (h : Hdr) (offset : BitVec 32) (erase : BitVec 8) (data : List Byte) (s : State) :
    Host.Outcome State Fault Refusal :=
  .next (serve 0x3801 h flashModes (flashWrite h offset erase data) s)

/-- A flash write ends: with ERASE its sectors were erased first, and the data stand. -/
def flashWriteComplete (s : State) : State :=
  match jobOf 0x3801 s with
  | none => s
  | some j =>
    match j.body with
    | .flash off erase data =>
      let s := if erase then flashUndefine off data.length s else s
      endJob j stOk none [] { s with boot := { s.boot with
        flash := data.zipIdx.foldl (fun m p => FMap.set m (off + p.2) p.1) s.boot.flash } }
    | _ => s

def execFlashWriteComplete (s : State) : Host.Outcome State Fault Refusal := .next (flashWriteComplete s)

/-- FLASH.READ. -/
def flashRead (offset : BitVec 32) (length : BitVec 16) (s : State) : Reply × State :=
  let n := length.toNat
  if n = 0 || n > 4064 || offset.toNat + n > 2 ^ 32 then fails stBadField s
  else okWith [.str (flashBytes s offset.toNat n)] s

def execFlashRead (h : Hdr) (offset : BitVec 32) (length : BitVec 16) (s : State) : Host.Outcome State Fault Refusal :=
  .next (serve 0x3802 h (inModes [.base, .standby]) (flashRead offset length) s)

/-! ## Fuses (R423 to R425) -/

/-- Bits of a fuse region; 0 for a code that names none. -/
def fuseSize (region : Nat) : Nat := [128, 304, 1544, 1544, 64, 16].getD region 0

/-- Contents of a fuse region. -/
def fuseValue (f : Fuses) (region : Nat) : Nat :=
  match region with
  | 0 => f.factory.toNat
  | 1 => f.identity.toNat
  | 2 => f.fwKeys.toNat
  | 3 => f.fmKeys.toNat
  | 4 => f.rollback.toNat
  | 5 => f.policy.toNat
  | _ => 0

/-- One fuse of a region is programmed to 1. -/
def fuseSet (f : Fuses) (region bit : Nat) : Fuses :=
  match region with
  | 1 => { f with identity := f.identity ||| BitVec.ofNat 304 (2 ^ bit) }
  | 2 => { f with fwKeys := f.fwKeys ||| BitVec.ofNat 1544 (2 ^ bit) }
  | 3 => { f with fmKeys := f.fmKeys ||| BitVec.ofNat 1544 (2 ^ bit) }
  | 4 => { f with rollback := f.rollback ||| BitVec.ofNat 64 (2 ^ bit) }
  | 5 => { f with policy := f.policy ||| BitVec.ofNat 16 (2 ^ bit) }
  | _ => f

/-- The region is locked: FACTORY always, the others by the lock fuses sensed at the last start. -/
def fuseLocked (s : State) (region : Nat) : Bool :=
  match region with
  | 0 => true
  | 1 => s.boot.sensed.policy.getLsbD 1
  | 2 => s.boot.sensed.policy.getLsbD 2
  | 3 => s.boot.sensed.policy.getLsbD 2
  | 5 => s.boot.sensed.policy.getLsbD 3
  | _ => false

/-- FUSE.READ: the array as it now stands. -/
def fuseRead (region : BitVec 8) (s : State) : Reply × State :=
  if region.toNat > 5 then fails stBadField s
  else okWith [.str (leBytes (fuseSize region.toNat / 8) (fuseValue s.boot.fuses region.toNat))] s

def execFuseRead (h : Hdr) (region : BitVec 8) (s : State) : Host.Outcome State Fault Refusal :=
  .next (serve 0x3901 h (inModes modesBYOLM) (fuseRead region) s)

/-- FUSE.PROGRAM checks its fields; the bits follow one by one. -/
def fuseProgram (h : Hdr) (region : BitVec 8) (bit count : BitVec 16) (bits' : List Byte) (s : State) : Reply × State :=
  let r := region.toNat
  let n := count.toNat
  if r > 5 || fuseLocked s r || n = 0 || n > 1544 || bit.toNat + n > fuseSize r || bits'.length ≠ ceilDiv n 8 then fails stBadField s
  else startJob 0x3902 h (.fuse r bit.toNat ((List.range n).map (fun i => bitN (leNat bits') i))) s

def execFuseProgram (h : Hdr) (region : BitVec 8) (bit count : BitVec 16) (bits' : List Byte) (s : State) :
    Host.Outcome State Fault Refusal :=
  .next (serve 0x3902 h (inModes [.standby]) (fuseProgram h region bit count bits') s)

/-- The bits from the first that is to be programmed on, and its number. -/
def fuseSkip (bit : Nat) : List Bool → Nat × List Bool
  | [] => (bit, [])
  | true :: t => (bit, true :: t)
  | false :: t => fuseSkip (bit + 1) t

/-- The Nose programs one bit and reads it back, in up to three attempts; `ok`: it reads 1 (R425). -/
def fuseBitProgram (ok : Bool) (s : State) : State :=
  match jobOf 0x3902 s with
  | none => s
  | some j =>
    match j.body with
    | .fuse region bit l =>
      match fuseSkip bit l with
      | (b, _ :: t) =>
        if ok then
          let s := { s with boot := { s.boot with fuses := fuseSet s.boot.fuses region b } }
          let left := fuseSkip (b + 1) t
          if left.2.isEmpty then endJob j stOk none [] s
          else { s with nose := { s.nose with jobs := s.nose.jobs.map (fun x =>
            if x == j then { x with body := .fuse region left.1 left.2 } else x) } }
        else endJob j stJobFailed none [] (raiseErr 0x08 0xD 0 1 (errDetail [(8, region), (16, b)]) s)
      | (_, []) => endJob j stOk none [] s
    | _ => s

def execFuseBitProgram (ok : Bool) (s : State) : Host.Outcome State Fault Refusal := .next (fuseBitProgram ok s)

/-! ## Resets (R406, R407) -/

/-- What every reset of the block keeps: the fuse array, the flash, the pins driven from outside, and the model's own
trace, count and queue. -/
def resetKeep (s t : State) : State :=
  { t with
    pins := { t.pins with twinLead1 := s.pins.twinLead1, twinAlive1 := s.pins.twinAlive1 }
    outs := s.outs, fresh := s.fresh, pending := s.pending
    boot := { t.boot with
      fuses := s.boot.fuses, sensed := s.boot.sensed, flash := s.boot.flash, flashUndef := s.boot.flashUndef
      gen := s.boot.gen }
    mem := { t.mem with hbm := [], hbmGen := s.mem.hbmGen + 1, temp := s.mem.temp } }

/-- A power-on reset: every unit and the always-on domain. -/
def powerOnReset (s : State) : State := let s := flashCut s; resetKeep s State.reset

def execPowerOnReset (s : State) : Host.Outcome State Fault Refusal := .next (powerOnReset s)

/-- A device warm reset: every unit, the Nose and the HBM; the always-on domain and the kept fields stay. -/
def deviceReset (s : State) : State :=
  let s := flashCut s
  let t := resetKeep s State.reset
  { t with
    boot := { t.boot with
      kind := 1, thermtrip := s.boot.thermtrip, failCount := s.boot.failCount, records := s.boot.records
      attempts := s.boot.attempts, startCause := s.boot.startCause }
    bar0 := { t.bar0 with scratch := s.bar0.scratch }
    mem := { t.mem with trained := s.mem.trained } }

/-- The Nose, the mailbox and the lease are reset; what the Nose had accepted or was doing is gone (R407, R446). -/
def noseResetApply (s : State) : State :=
  let s := dropRecords (flashCut s)
  let loading := s.frm.load.isSome
  let lost := s.bar0
  let s := { s with
    nose := { noseReset with mode := s.nose.mode, deviceId := s.nose.deviceId }
    err := errReset
    bar0 := { bar0Reset with
      snapGen := lost.snapGen, snapBeat := lost.snapBeat, words := lost.words, tsValid := lost.tsValid
      tsTakes := lost.tsTakes, tsCounter := lost.tsCounter, tsSec := lost.tsSec, tsNs := lost.tsNs
      tsEpoch := lost.tsEpoch, tsBeat := lost.tsBeat, tsState := lost.tsState, tsCycle := lost.tsCycle
      scratch := lost.scratch, msixTable := lost.msixTable }
    frm := { s.frm with load := none, pending := if loading then none else s.frm.pending, splits := [] }
    fhp := { s.fhp with staged := [] }
    lnk := { s.lnk with align := s.lnk.align.filter (fun a => a.2.2.2) }
    dd := { s.dd with jobs := s.dd.jobs.filter (fun j => !j.host) }
    ctr := s.ctr.filter (fun p => p.1 / 65536 / 256 ≠ 0xD) }
  updateSummary s

/-- A Nose warm reset begins: in LEAD and SILLAGE the gate acts and the device is in STANDBY at once (R407). In BASE the
ROM firmware restarts (R416). -/
def noseWarmReset (s : State) : State :=
  if s.nose.mode == .base then
    let s := noseResetApply s
    raiseEv 0x03 0xD [.num 8 0, .num 8 0, .num 1 0xFF, .num 1 4]
      { s with nose := { s.nose with mbxReady := true, fwVer := Config.romFirmware, fwKind := 1 } }
  else
    let old := s.nose.mode
    let gated := old == .lead || old == .sillage
    let s := gatePins s
    let s := leavePair (if gated then changeMode .standby (stopService s) else s)
    let s := noseResetApply s
    { s with boot := { s.boot with
      held := true, kind := 2, noseReturn := if gated then some (old, .standby, 9) else none } }

/-- The reset that MODE.RESET or MODE.ENTER scheduled begins; a device warm reset leaves its mode with EV_MODE. -/
def warmReset (s : State) : State :=
  match s.nose.resetDue with
  | none => s
  | some k =>
    if k = 1#8 then noseWarmReset s
    else deviceReset (evMode s.nose.mode .boot (if k = 2#8 then 0x01 else 0x08) s)

def execWarmReset (s : State) : Host.Outcome State Fault Refusal := .next (warmReset s)

/-- MODE.RESET: the reset follows its response. In BASE both scopes are a device warm reset (R416). -/
def modeReset (scope : BitVec 8) (s : State) : Reply × State :=
  if scope.toNat > 1 then fails stBadField s
  else okWith [] { s with nose := { s.nose with resetDue := some (if s.nose.mode == .base then 0 else scope) } }

def execModeReset (h : Hdr) (scope : BitVec 8) (s : State) : Host.Outcome State Fault Refusal :=
  .next (serve 0x0302 h (inModes modesBYOLM) (modeReset scope) s)

/-- A fatal fault of the running firmware begins a Nose warm reset. -/
def noseFirmwareFault (s : State) : State := if s.nose.mode == .boot || s.boot.held then s else noseWarmReset s

def execNoseFirmwareFault (s : State) : Host.Outcome State Fault Refusal := .next (noseFirmwareFault s)

/-! ## Authentication (R411, R412) -/

/-- The header at a flash offset, if its MAGIC and CRC are correct. -/
def bootHeader (s : State) (a : Nat) : Option (List Byte) :=
  let b := flashBytes s a 64
  if leAt b 0 4 == 0x4B5A4231 && leAt b 20 4 == crc32 (b.take 20) then some b else none

/-- A copy's offset and length are in range. -/
def copyInRange (off len : Nat) : Bool :=
  off % 65536 == 0 && decide (0x20000 ≤ off) && decide (4096 ≤ len) && decide (len ≤ 3 * 2 ^ 20)

/-- Ones of a number of `n` bits. -/
def popCount (n v : Nat) : Nat := sumN ((List.range n).map (fun i => if bitN v i then 1 else 0))

/-- The key hash rule of step 2: the named slot where some slot is enabled, else the factory key. -/
def firmwareKeyOk (f : Fuses) (b : List Byte) : Bool :=
  let k := sigKey b
  let hash := sha384 (sigPub b)
  if (List.range 4).any (keyEnabled f.fwKeys) then keyEnabled f.fwKeys k && hash == keyHash f.fwKeys k
  else hash == Config.factoryKeyHash.toNat

/-- The cause that rejects a copy; 0 where it passes. -/
def copyCause (s : State) (off len : Nat) : Nat :=
  if !copyInRange off len then 0x01
  else
    let b := flashBytes s off len
    if leAt b 0 4 != 0x4B5A4E31 || imgHead b 167 160 != 0xA0 || imgHead b 511 176 != 0 || imgHead b 103 32 != 0
        || imgHead b 159 128 != len then 0x02
    else if !firmwareKeyOk s.boot.sensed b then 0x03
    else if !signatureOk b then 0x04
    else if imgHead b 175 168 < popCount 64 s.boot.sensed.rollback.toNat then 0x05
    else 0

/-- What the firmware image step finds: cause (0: none), cause that rejected copy A, last copy tried, version. -/
structure FirmwareRead where
  cause : Nat
  causeA : Nat
  copy : Nat
  version : BitVec 24
deriving DecidableEq, Repr

/-- The ROM tries copy A, then copy B. -/
def firmwareRead (s : State) : FirmwareRead :=
  match (bootHeader s 0).or (bootHeader s 0x10000) with
  | none => ⟨0x01, 0, 0, 0⟩
  | some h =>
    let offA := leAt h 4 4
    let offB := leAt h 12 4
    let version (off : Nat) : BitVec 24 := BitVec.ofNat 24 (imgHead (flashBytes s off 64) 127 104)
    let a := copyCause s offA (leAt h 8 4)
    if a = 0 then ⟨0, 0, 1, version offA⟩
    else
      let b := copyCause s offB (leAt h 16 4)
      ⟨b, a, 2, if b = 0 then version offB else 0⟩

/-- FACTORY is blank or fails its parity (R423). -/
def factoryBad (f : BitVec 128) : Bool :=
  f == 0#128 || (List.range 7).any (fun i =>
    let ones := sumN ((List.range 73).map (fun j => if j % 7 == i && bitN f.toNat (55 + j) then 1 else 0))
    (ones + (if bitN f.toNat (48 + i) then 1 else 0)) % 2 == 1)

/-! ## Failed starts and BASE (R413 to R416) -/

/-- An attempt word. -/
def attemptWord (cause causeA copy ms : Nat) : BitVec 64 :=
  BitVec.ofNat 64 (cause * 2 ^ 56 + causeA * 2 ^ 48 + copy * 2 ^ 46 + ms % 2 ^ 32)

/-- A boot record over the attempts of the series. -/
def bootRecord (kind : Nat) (l : List (BitVec 64)) : BitVec 256 :=
  let w (j : Nat) : Nat := (l.getD j 0).toNat * 2 ^ (64 * j)
  BitVec.ofNat 256 (kind * 2 ^ 248 + l.length * 2 ^ 240 + w 0 + w 1 + w 2)

/-- A record joins those of the always-on domain, which keeps the last 4; the series of attempts ends. -/
def keepRecord (kind : Nat) (s : State) : State :=
  let l := s.boot.records ++ [bootRecord kind (s.boot.attempts.take 3)]
  { s with boot := { s.boot with records := l.drop (l.length - 4), attempts := [] } }

/-- The device is in BASE: the core clock is stopped, the HBM is in CLOCKS_STOPPED or, never trained, in RESET, and the
ROM minimal firmware serves PCIe. -/
def baseState (s : State) : State :=
  { s with
    nose := { s.nose with mode := .base, mbxReady := true, fwVer := Config.romFirmware, fwKind := 1 }
    boot := { s.boot with held := false, startCause := 0, noseReturn := none }
    tb := { s.tb with run := false }
    mem := { s.mem with st := if s.mem.trained then .clocksStopped else .reset } }

/-- EV_LEASE REASON 4 of a restarted firmware (R388). -/
def leaseResetEvent (s : State) : State := raiseEv 0x03 0xD [.num 8 0, .num 8 0, .num 1 0xFF, .num 1 4] s

/-- A start fails with a cause (R413, R414). -/
def failStart (cause causeA copy ms : Nat) (s : State) : State :=
  let kind := s.boot.kind
  let c := Nat.min (s.boot.failCount.toNat + 1) 3
  let s := { s with boot := { s.boot with
    failCount := BitVec.ofNat 2 c, attempts := s.boot.attempts ++ [attemptWord cause causeA copy ms]
    startCause := BitVec.ofNat 8 cause, noseReturn := none } }
  if c < 3 then deviceReset s
  else
    let s := evMode .boot .base 0x02 (baseState (keepRecord 1 (deviceReset s)))
    if kind = 0 then s else leaseResetEvent s

/-- Units come up: the TB counter runs, the stack is trained, lanes and ports begin training (R409). -/
def bringUp (run : StartRun) (s : State) : State :=
  let s := { s with tb := { s.tb with run := true, t40 := (Config.stepCycles s.boot.failCount.toNat * s.tb.inc.toNat : Nat) } }
  let lin := linAt12 (s.tb.t40 * 12 / 2 ^ 40 - 12 * (frameOffset s : Int))
  let open_ := boundaryT s lin
  let s := { s with tb := { s.tb with
    lin := lin, beat := stampOfLin lin, openT := open_, nextT := boundaryT s (lin + 1)
    cyc := ((s.tb.t40 - open_) / (s.tb.inc.toNat : Int)).toNat } }
  let s := { s with mem := { s.mem with
    st := .active, trained := true, eyes8 := run.eyes8, eyesS := run.eyesS, lastReq := s.tb.t40 } }
  let id := s.boot.sensed.identity.toNat
  let s := { s with nose := { s.nose with deviceId := if bitN id 1 then BitVec.ofNat 14 (bits id 15 2) else 0 } }
  (List.range 6).foldl (fun s p => if portEnable s p then portSet p { portGet s p with st := 1 } s else s) (trainAll s)

/-- The start succeeds: firmware runs, a RECOVERED record covers failed attempts, EV_NOSE_READY and the events that follow
it are raised (R388, R407, R409, R413, R414). -/
def startSucceeds (fw : FirmwareRead) (run : StartRun) (s : State) : State :=
  let kind := s.boot.kind
  let n := s.boot.failCount.toNat
  let s := if kind = 2 then s else bringUp run s
  let s := if n = 1 || n = 2 then keepRecord 2 s else s
  let ret := s.boot.noseReturn
  let s := { s with
    nose := { s.nose with mbxReady := true, fwVer := fw.version, fwKind := 2 }
    boot := { s.boot with held := false, failCount := 0, attempts := [], startCause := 0, noseReturn := none } }
  let mode := if kind = 2 then s.nose.mode else .standby
  let s := raiseEv 0x01 0xD [.num 1 (bits fw.version.toNat 23 16), .num 1 (bits fw.version.toNat 15 8),
    .num 1 (bits fw.version.toNat 7 0), .num 1 (modeCode mode)] s
  if kind = 2 then
    let s := match ret with
      | some (old, new, cause) => evMode old new cause.toNat s
      | none => s
    leaseResetEvent s
  else setMode .standby 0x00 (if kind = 0 then s else leaseResetEvent s)

/-- The start sequence: the first step that fails decides (R409). A Nose warm reset runs the rows of the firmware alone. -/
def startSequence (run : StartRun) (s : State) : State :=
  let full := s.boot.kind ≠ 2
  let ms := run.elapsedMs.toNat
  if full && !run.nosePll then failStart 0x10 0 0 ms s
  else
    let s := if full then { s with boot := { s.boot with sensed := s.boot.fuses } } else s
    if full && factoryBad s.boot.sensed.factory then failStart 0x13 0 0 ms s
    else if full && !run.bistOk then failStart 0x12 0 0 ms s
    else
      let fw := firmwareRead s
      let copyA := if fw.copy = 2 then fw.causeA else 0
      if fw.cause ≠ 0 then failStart fw.cause copyA fw.copy ms s
      else if full && (!run.corePll || !run.hbmPll) then failStart 0x10 copyA fw.copy ms s
      else if full && (!eyesOk run.eyes8 || !eyesOk run.eyesS) then failStart 0x11 copyA fw.copy ms s
      else if run.fwFatal then failStart 0x21 copyA fw.copy ms s
      else startSucceeds fw run s

/-- Reset is released and the start runs to its end. -/
def porRelease (run : StartRun) (s : State) : State := if s.boot.held && !s.boot.thermtrip then startSequence run s else s

def execPorRelease (run : StartRun) (s : State) : Host.Outcome State Fault Refusal := .next (porRelease run s)

/-- 2,000 ms pass without EV_NOSE_READY. -/
def startWatchdog (ms : Nat) (s : State) : State :=
  if s.boot.held && !s.boot.thermtrip then
    let s := if s.boot.kind ≠ 2 then { s with boot := { s.boot with sensed := s.boot.fuses } } else s
    let fw := firmwareRead s
    failStart 0x20 (if fw.copy = 2 then fw.causeA else 0) fw.copy ms s
  else s

def execStartWatchdog (elapsedMs : BitVec 32) (s : State) : Host.Outcome State Fault Refusal :=
  .next (startWatchdog elapsedMs.toNat s)

/-! ## Supply and temperature (R472, R475) -/

/-- The block is held as though por_n were low, with the always-on domain kept. -/
def holdReset (s : State) : State :=
  let t := deviceReset s
  { t with boot := { t.boot with kind := 0 }, mem := { t.mem with trained := false } }

/-- A monitored rail dips: 0 VDD_CORE, 1 VDD_SRAM, 2 VDD_NOSE, 3 VDD_AON. A dip within a start is a failed start, whose
attempt word the manual does not state. -/
def supplyUndervoltage (rail : Nat) (s : State) : State :=
  if rail = 3 then powerOnReset s
  else if s.boot.held then
    let v := freeVal 10 s
    let s := v.2
    holdReset { s with boot := { s.boot with
      failCount := BitVec.ofNat 2 (Nat.min (s.boot.failCount.toNat + 1) 3)
      attempts := (s.boot.attempts ++ [BitVec.ofInt 64 v.1]).take 3 } }
  else holdReset s

def execSupplyUndervoltage (rail : Fin 4) (s : State) : Host.Outcome State Fault Refusal :=
  .next (supplyUndervoltage rail.val s)

/-- A junction sensor reads above 105 degrees C: the event is raised at most once per second. -/
def evThermal (sensor : Nat) (temp : BitVec 16) (s : State) : State :=
  let due := match s.boot.thermalAt with
    | some t => decide (s.tb.t40 ≥ t + sec40)
    | none => true
  if s.nose.mbxReady && decide (temp.toInt > 105) && due then
    raiseEv 0x50 0xD [.num 1 sensor, .num 2 temp.toNat] { s with boot := { s.boot with thermalAt := some s.tb.t40 } }
  else s

def execEvThermal (sensor : Fin 16) (temp : BitVec 16) (s : State) : Host.Outcome State Fault Refusal :=
  .next (evThermal sensor.val temp s)

/-- A sensor reads 125 degrees C or more: thermtrip_n is asserted and the block held until the next power-on reset. -/
def thermtrip (temp : BitVec 16) (s : State) : State :=
  if temp.toInt ≥ 125 then
    let t := holdReset s
    { t with boot := { t.boot with thermtrip := true } }
  else s

def execThermtrip (_sensor : Fin 16) (temp : BitVec 16) (s : State) : Host.Outcome State Fault Refusal :=
  .next (thermtrip temp s)

end Sys2Proof.Machine
end

