-- ==== Sys2Proof/Machine/Loop.lean ====
section
/-! DEFINITION. Loopbacks with their checkers, the loop run, the self-tests (R439 to R441, R445). -/

namespace Sys2Proof.Machine
open Sys2Proof

/-! ## Loopbacks (R439) -/

/-- Items and depths of a path. -/
def loopItems (path : Nat) : Nat := [256, 6, 8, 32].getD path 0
@[inherit_doc loopItems] def loopDepths (path : Nat) : Nat := [6, 4, 2, 2].getD path 0

/-- The depth takes the whole path: ARRAY of the element links, FRAME of the twin link. -/
def loopWhole (path depth : Nat) : Bool := (path == 0 && depth == 6) || (path == 2 && depth == 2)

/-- Key of an item of a path. -/
def loopKey (path item : Nat) : Nat := 256 * path + item

/-- Some loopback is set. -/
def anyLoop (s : State) : Bool := !s.tst.loop.isEmpty

/-- Units that a loopback takes. -/
def loopUnits (path depth : Nat) : List Nat :=
  match path with
  | 0 => if depth ≤ 3 then [0] else [1, 2, 3, 4, 6, 7, 8, 11]
  | 1 => if depth = 4 then [9, 6] else [9]
  | 2 => [12]
  | _ => [11]

/-- The target of the self-test in progress. -/
def bistTarget (s : State) : Option Nat :=
  (jobOf 0x3004 s).bind (fun j => match j.body with
    | .bist t => some t.toNat
    | _ => none)

/-- Units that a self-test target runs in. -/
def bistUnits (kind : Nat) : List Nat :=
  match kind with
  | 0x01 => [11]
  | 0x02 => [4]
  | 0x03 => [1, 2, 3]
  | 0x04 => [6, 7]
  | 0x05 => [12]
  | 0x20 => [4]
  | _ => [11]

/-- Some element is in a loopback that a loop run serves. -/
def runLoop (s : State) : Bool := (List.range 256).any (fun e => decide (4 ≤ FMap.get 0 s.tst.loop e))

/-- The first slot boundary that opens at least 28 beats after now. -/
def slot28 (s : State) : Nat := (s.tb.lin + 28 + 13) / 14 * 14

/-- The loop run follows the loopbacks: it is due with the first DIGITAL, SPECTRAL or ARRAY depth and ends with the last
(R441). -/
def loopRunUpdate (s : State) : State :=
  if runLoop s then
    if s.frm.loopRun.isSome then s else { s with frm := { s.frm with loopRun := some (slot28 s) } }
  else if s.frm.loopRun.isNone then s
  else if s.frm.executing then stopService s
  else { s with frm := { s.frm with loopRun := none } }

/-- The depth of the masked items of a path becomes `depth`; a loopback of the whole path is one loopback. -/
def setLoops (path depth : Nat) (mask : BitVec 256) (s : State) : State :=
  let items := List.range (loopItems path)
  let whole := items.any (fun i => loopWhole path (FMap.get 0 s.tst.loop (loopKey path i)))
  let hit (i : Nat) : Bool := loopWhole path depth || mask.getLsbD i
  let clear := if whole then items else items.filter hit
  let base := clear.foldl (fun m i => FMap.erase m (loopKey path i)) s.tst.loop
  let loops := if depth = 0 then base else (items.filter hit).foldl (fun m i => FMap.set m (loopKey path i) depth) base
  let chk := (clear ++ items.filter hit).foldl (fun m i => FMap.erase m (loopKey path i)) s.tst.checkers
  { s with tst := { s.tst with loop := loops, checkers := chk } }

/-- LOOPBACK.SET. -/
def loopbackSet (path depth : BitVec 8) (mask : BitVec 256) (s : State) : Reply × State :=
  let p := path.toNat
  let d := depth.toNat
  if p > 3 || d > loopDepths p || (!loopWhole p d && mask.toNat ≥ 2 ^ loopItems p) then fails stBadField s
  else if p = 0 && d ≥ 4 && s.frm.active.isNone then fails stNoPending s
  else if d ≠ 0 && (bistTarget s).any (fun t => (bistUnits (t % 256)).any (fun u => (loopUnits p d).contains u)) then fails stBusy s
  else okWith [] (loopRunUpdate (setLoops p d mask s))

def execLoopbackSet (h : Hdr) (path depth : BitVec 8) (mask : BitVec 256) (s : State) : Host.Outcome State Fault Refusal :=
  .next (serve 0x3001 h (inModes [.standby]) (loopbackSet path depth mask) s)

/-- The boundary of a loop run opens: the formula executes in every real-time unit, as from a common starting state, and
the HBM leaves self-refresh (R441). -/
def loopRunStart (s : State) : State :=
  if s.frm.loopRun == some s.tb.lin && s.nose.mode == .standby && s.frm.active.isSome then
    let s := if s.mem.st == .selfRefresh && s.mem.change.isNone then srExit s else s
    commonReset s
  else s

/-! ## Checkers (R440) -/

/-- A checker that has seen nothing. -/
def checkerReset : Checker := ⟨false, 0, 0, 0⟩

/-- The counters of a path's checkers: units, errors, and the index of an item. -/
def loopCounters (path item : Nat) : Nat × Nat × Nat :=
  match path with
  | 0 => (0xE00, 0xE01, item)
  | 1 => (0xE02, 0xE03, item)
  | 2 => (0xE04, 0xE05, 0)
  | _ => (0xE06, 0xE07, item)

/-- The pattern source drives this loopback. -/
def patternLoop (s : State) (path item : Nat) : Bool :=
  let d := FMap.get 0 s.tst.loop (loopKey path item)
  decide (1 ≤ d) && (path != 0 || decide (d ≤ 3))

/-- A checker takes one unit: it locks after 64 matches in a row, counts while locked, and loses lock at 64 errors within
1,024 units. -/
def checkUnit (ok : Bool) (c : Checker) : Checker :=
  if !c.locked then
    if !ok then { c with good := 0 }
    else if c.good + 1 ≥ 64 then ⟨true, 0, 0, 0⟩
    else { c with good := c.good + 1 }
  else
    let errs := c.errs + (if ok then 0 else 1)
    if errs ≥ 64 then checkerReset
    else if c.units + 1 ≥ 1024 then { c with units := 0, errs := 0 }
    else { c with units := c.units + 1, errs := errs }

/-- A unit of a pattern returns. -/
def loopbackUnit (path item : Nat) (ok : Bool) (s : State) : State :=
  if !patternLoop s path item then s
  else
    let key := loopKey path item
    let c := FMap.get checkerReset s.tst.checkers key
    let (units, errors, idx) := loopCounters path item
    let s := if c.locked then count units idx (if ok then s else count errors idx s) else s
    { s with tst := { s.tst with checkers := FMap.put checkerReset s.tst.checkers key (checkUnit ok c) } }

def execLoopbackUnitChecked (path : Fin 4) (item : Fin 256) (ok : Bool) (s : State) : Host.Outcome State Fault Refusal :=
  .next (loopbackUnit path.val item.val ok s)

/-! ## Self-tests (R445) -/

/-- A target that exists. -/
def bistOk (kind idx : Nat) : Bool :=
  ([0x01, 0x02, 0x03, 0x04, 0x05, 0x11].contains kind && idx == 0) || (kind == 0x10 && decide (idx ≤ 3))
    || (kind == 0x20 && (decide (idx ≤ 95) || idx == 0xFF))

/-- BIST.RUN. -/
def bistRun (h : Hdr) (target : BitVec 16) (s : State) : Reply × State :=
  let kind := target.toNat % 256
  if !bistOk kind (target.toNat / 256) then fails stBadField s
  else if anyLoop s then fails stBusy s
  else if (kind = 0x10 || kind = 0x11) && (s.mem.st == .frozen || s.mem.st == .reset) then fails stUnavailable s
  else startJob 0x3004 h (.bist target) s

def execBistRun (h : Hdr) (target : BitVec 16) (s : State) : Host.Outcome State Fault Refusal :=
  .next (serve 0x3004 h (inModes [.standby]) (bistRun h target) s)

/-- Latent errors of a region are gone. -/
def clearBad (r : Nat) (s : State) : State :=
  { s with mem := { s.mem with bad := s.mem.bad.filter (fun p => decide (p.1 / 2 ^ 32 ≠ r)) } }

/-- What a self-test leaves. -/
def bistLeaves (kind idx : Nat) (eyes8 eyesS : List (Nat × Nat)) (s : State) : State :=
  match kind with
  | 0x01 =>
    clearBad 0 { s with
      mem := { s.mem with res := [], taint := [] }
      frm := { s.frm with vlog := [], vcount := 0, vdropped := 0 }
      fhp := { s.fhp with staged := [] }
      sq := sqReset }
  | 0x02 => { s with ae := { s.ae with clusters := s.ae.clusters.map (fun p => (p.1, { p.2 with x := [], y := [], imem := [] })) } }
  | 0x03 => clearBad 1 { s with mem := { s.mem with fe := [] }, stu := [], sic := sicReset }
  | 0x04 => clearBad 2 { s with
      mem := { s.mem with cf := [] }
      sq := { s.sq with fifos := [] }
      tst := { s.tst with caps := s.tst.caps.map (fun p => (p.1, { p.2 with fifo := [], owed := [], buf := [], partial_ := [] })) } }
  | 0x10 => hbmUndefine (regBase (regEntry s.mem.regions idx)) (regLen (regEntry s.mem.regions idx)) s
  | 0x11 => { s with mem := { s.mem with eyes8 := eyes8, eyesS := eyesS } }
  | 0x20 =>
    { s with ae := { s.ae with clusters := s.ae.clusters.map (fun p =>
      if idx = 0xFF || p.1 = idx then (p.1, { p.2 with fg := ctxReset, bg := ctxReset }) else p) } }
  | _ => s

/-- The active and the pending formula are released and FRM is idle. -/
def releaseFormulas (s : State) : State :=
  lateUpdateAll { s with frm := { s.frm with active := none, pending := none, executing := false } }

/-- A self-test ends: RESULT and FAILS are returned and EV_BIST_END is raised. -/
def bistComplete (fails' : BitVec 32) (eyes8 eyesS : List (Nat × Nat)) (s : State) : State :=
  match jobOf 0x3004 s with
  | none => s
  | some j =>
    match j.body with
    | .bist target =>
      let kind := target.toNat % 256
      let s := bistLeaves kind (target.toNat / 256) eyes8 eyesS s
      let s := if kind = 0x10 || kind = 0x11 then s else releaseFormulas s
      let result := if fails' = 0#32 then 0 else 1
      let s := raiseEv 0x49 0xE [.num 2 target.toNat, .num 2 0, .num 4 result, .num 4 fails'.toNat] s
      endJob j stOk none [.num 4 result, .num 4 fails'.toNat] s
    | _ => s

def execBistComplete (fails' : BitVec 32) (eyes8 eyesS : List (Nat × Nat)) (s : State) : Host.Outcome State Fault Refusal :=
  .next (bistComplete fails' eyes8 eyesS s)

end Sys2Proof.Machine
end

