-- ==== Sys2Proof/Machine/Formula.lean ====
section
/-! DEFINITION. The formula commands: load and verification, activation, status (R35 to R37, R209, R286, R369, R400). -/

namespace Sys2Proof.Machine
open Sys2Proof

/-! ## FORMULA.LOAD (R35, R400) -/

/-- Reservoir offset of the pending slot. -/
def pendingBase (s : State) : Nat := slotBase (if s.frm.slot = 0 then 1 else 0)

/-- An accepted activation holds the pending slot (R36). -/
def pendingHeld (s : State) : Bool := s.nose.sched.any (fun e => isActivate e.act)

/-- A TOTAL in its range (R27). -/
def totalOk (total : Nat) : Bool := total % 64 == 0 && decide (4096 ≤ total) && decide (total ≤ 8388608)

/-- The status of a chunk. -/
def chunkStatus (offset total : Nat) (final : Bool) (len : Nat) (s : State) : Nat :=
  let fits := decide (offset + len ≤ total) && final == decide (offset + len = total)
  if pendingHeld s then stBusy
  else if offset = 0 then (if totalOk total && fits then stOk else stBadField)
  else match s.frm.load with
    | none => stBadField
    | some l => if l.total == total && l.got == offset && fits then stOk else stBadField

/-- The load is abandoned and the pending slot is empty. -/
def abandonLoad (s : State) : State := { s with frm := { s.frm with load := none, pending := none } }

/-- A chunk that fails: one that begins a load with a TOTAL out of range leaves the slot as it was; every other one abandons
the load. -/
def chunkFails (offset total : Nat) (st : Nat) (s : State) : State :=
  if st = stBadField && (offset ≠ 0 || totalOk total) then abandonLoad s else s

/-- A chunk enters the pending slot. -/
def storeChunk (offset total : Nat) (final : Bool) (data : List Byte) (s : State) : State :=
  let s := resWrite (pendingBase s + offset) data s
  { s with frm := { s.frm with pending := none, load := some ⟨total, offset + data.length, final⟩ } }

/-- FORMULA.LOAD: a chunk is stored; the final one starts verification, a long-running part. -/
def formulaLoad (h : Hdr) (offset total : BitVec 32) (final : BitVec 8) (data : List Byte) (s : State) : Reply × State :=
  let fin := final == 1#8
  if final.toNat > 1 || data.isEmpty || data.length > 4068 then fails stBadField s
  else
    let st := chunkStatus offset.toNat total.toNat fin data.length s
    if st ≠ stOk then fails st (chunkFails offset.toNat total.toNat st s)
    else if s.nose.mode == .lead then acceptPair 0x0401 h .now (.formulaLoad offset total fin data) [] id s
    else
      let s := storeChunk offset.toNat total.toNat fin data s
      if fin then startJob 0x0401 h .verify s else okWith [] s

def execFormulaLoad (h : Hdr) (offset total : BitVec 32) (final : BitVec 8) (data : List Byte) (s : State) :
    Host.Outcome State Fault Refusal :=
  .next (serve 0x0401 h (leadModes modesYOLM) (formulaLoad h offset total final data) s)

/-- The image that the pending slot holds, and its status under the table "Formula verification". -/
def verifyPending (s : State) : Nat × Option Formula × State :=
  match s.frm.load with
  | none => (stNoPending, none, s)
  | some l =>
    let r := regionRead 0 0xB 0 6 (pendingBase s) l.total s
    let st := verifyImage r.2 r.1
    (st, if st = stOk then some (imgFormula r.1) else none, r.2)

/-- Verification ends: the slot holds a verified image or is empty, and the final chunk's response carries the status. -/
def verifyComplete (s : State) : State :=
  match jobOf 0x0401 s with
  | none => s
  | some j =>
    match j.body with
    | .verify =>
      let r := verifyPending s
      let s := { r.2.2 with frm := { r.2.2.frm with load := none, pending := r.2.1 } }
      endJob j r.1 none (match r.2.1 with
        | some f => [.num 4 f.id.toNat, .num 2 f.revision.toNat, .num 2 0]
        | none => []) s
    | _ => s

def execFormulaVerifyComplete (s : State) : Host.Outcome State Fault Refusal := .next (verifyComplete s)

/-! ## FORMULA.ACTIVATE (R36, R209, R286, R322, R369) -/

/-- A formula that a pair may run (R369): moves that read a downlink block record and aggregation programs start 2,560
cycles late enough, and every ACCORD_PARTIAL deadline lies early enough. -/
def pairTimingOk (f : Formula) : Bool :=
  let car (c : Nat) : Carrier := f.carriers.getD c ⟨false, false, false, false, 0, false, 0, 0, 0⟩
  let record (c : Nat) : Option (Nat × Nat) :=
    if (car c).enable && (car c).dlEn then ((f.sq.dlb.getD c none).map (fun b => (b, Nat.max 1 ((car c).admitBeats - 1) * dlSlotBytes (car c).nprb))) else none
  let finish (c : Nat) : Nat := ceilDiv (64 * (car c).nprb * 80) 256 + 128
  f.moves.all (fun m => m.src != 6 || [0, 1, 2, 3].all (fun c =>
      match record c with
      | some (b, n) => !overlaps m.srcAddr (64 * m.len) b n || decide (finish c + 2560 ≤ m.start)
      | none => true))
    && (f.deadlines.filter (fun d => d.kind == 3)).all (fun d => decide (d.cycle ≤ 61440)
      && (f.budgets.filter (fun b => b.unit == 4 && Config.aggregates f.id.toNat d.scope b.inst)).all
        (fun b => decide (d.cycle + 2560 ≤ b.start)))

/-- What an activation must meet besides its fields and S. -/
def activateCheck (f : Formula) (s : State) : Nat :=
  let m := contextsDue s
  if !contextsOk s f m then stBadField
  else if !capacityOk s f m then stCapacity
  else if s.nose.mode == .lead && !pairTimingOk f then stBudget
  else stOk

/-- S against a step that applies before it (R322). -/
def activateStep (b : Stamp) (s : State) : Nat :=
  match schedAt isStep s with
  | some t => if precedes t b && s.nose.mode != .standby then stBusy else stOk
  | none => stOk

/-- S against an activation and a step that are accepted already (R36, R322). -/
def activateMeets (b : Stamp) (s : State) : Nat :=
  match schedAt isActivate s with
  | some a => if linNear s a ≤ s.tb.lin + 14 then stTooLate else activateStep b s
  | none => activateStep b s

/-- An accepted activation; it replaces an earlier one. -/
def dropActivations (s : State) : State :=
  { s with nose := { s.nose with sched := s.nose.sched.filter (fun e => !isActivate e.act) } }

/-- The switch in STANDBY, where no formula executes but that of a loop run, which starts again (R36, R441). -/
def switchNow (s : State) : State :=
  let run := s.frm.loopRun.isSome
  let s := if run && s.frm.executing then stopService s else s
  let s := switchStandby s
  if run then { s with frm := { s.frm with loopRun := some ((s.tb.lin + 28 + 13) / 14 * 14) } } else s

/-- FORMULA.ACTIVATE. -/
def formulaActivate (h : Hdr) (b : Stamp) (s : State) : Reply × State :=
  let c := checkSZero b s
  if c = stBadField then fails c s
  else match s.frm.pending with
    | none => fails stNoPending s
    | some f =>
      if c ≠ stOk then fails c s
      else
        let m := activateMeets b s
        if m ≠ stOk then fails m s
        else
          let a := activateCheck f s
          if a ≠ stOk then fails a s
          else
            let standby := s.nose.mode == .standby
            let kind := switchKind (!standby && switchSeamless s.frm.active f)
            acceptPair 0x0402 h (if standby then .now else .at b) .formulaActivate [.num 1 kind, .num 3 0] switchNow
              (if standby || s.nose.mode == .lead then s else dropActivations s)

def execFormulaActivate (h : Hdr) (b : Stamp) (s : State) : Host.Outcome State Fault Refusal :=
  .next (serve 0x0402 h (leadModes modesYOLM) (formulaActivate h b) s)

/-! ## FORMULA.STATUS -/

/-- The fields of a slot. -/
def slotFields (state rev id len : Nat) : List Fld := [.num 1 state, .num 1 0, .num 2 rev, .num 4 id, .num 4 len]

/-- Fields of a slot that holds a formula or nothing. -/
def formulaFields (f : Option Formula) : List Fld :=
  match f with
  | some f => slotFields 1 f.revision.toNat f.id.toNat f.length
  | none => slotFields 0 0 0 0

/-- FORMULA.STATUS. -/
def formulaStatus (s : State) : List Fld :=
  formulaFields s.frm.active ++ (match s.frm.load with
    | some l => slotFields 2 0 0 l.got
    | none => formulaFields s.frm.pending)

def execFormulaStatus (h : Hdr) (s : State) : Host.Outcome State Fault Refusal :=
  .next (serve 0x0403 h (inModes modesYOLM) (fun s => okWith (formulaStatus s) s) s)

end Sys2Proof.Machine
end

