-- ==== Sys2Proof/Machine/Moves.lean ====
section
/-! DEFINITION. The moves of the formula: what a move reads and writes in each region, and its start and end (R32, R160 to
R163, R173, R174, R182, R476). -/

namespace Sys2Proof.Machine
open Sys2Proof

/-! ## AE windows (R160 to R163) -/

/-- The bytes of the AE's move region that hold the cell of a byte: first byte and number. -/
def cellSpan (off : Nat) : Nat × Nat :=
  let i := off % 0x40000
  if off % 0x100000 < 0x80000 then (off - i % 8, 8)
  else if i % 80 < 8 then (off - i % 80, 8)
  else (off - (i % 80 - 8) % 6, 6)

/-- The cells that [a, a + n) touches, as their spans. -/
def cellSpans : Nat → Nat → Nat → List (Nat × Nat)
  | 0, _, _ => []
  | fuel + 1, a, stop =>
    if stop ≤ a then []
    else
      let p := cellSpan a
      p :: cellSpans fuel (p.1 + p.2) stop

/-- The spans of [a, a + n). -/
def spansOf (a n : Nat) : List (Nat × Nat) := cellSpans (n + 1) a (a + n)

/-- The span is one of a cell window; of a header in a block window. -/
def inCellWindow (off : Nat) : Bool := decide (off % 0x100000 < 0x80000)
@[inherit_doc inCellWindow] def isHeader (off : Nat) : Bool := !inCellWindow off && decide (off % 0x40000 % 80 < 8)

/-- A cell as the bytes of its span. -/
def cellImage (off : Nat) (c : Cell) : List Byte :=
  let w := c.word.toNat
  if inCellWindow off then leBytes 6 w ++ [BitVec.ofNat 8 ((if c.miss then 1 else 0) + (if c.taint then 2 else 0)), 0]
  else if isHeader off then
    leBytes 8 (bits w 47 44 * 2 ^ 60 + (if bitN w 43 || c.miss then 2 ^ 59 else 0) + bits w 8 0)
  else leBytes 6 w

/-- A cell from the bytes of its span; it takes the taint bit. -/
def cellFrom (off : Nat) (taint : Bool) (b : List Byte) : Cell :=
  if inCellWindow off then ⟨BitVec.ofNat 48 (leAt b 0 6), (b.getD 6 0).getLsbD 0, taint, 0⟩
  else if isHeader off then
    let h := leAt b 0 8
    ⟨BitVec.ofNat 48 (bits h 63 60 * 2 ^ 44 + (if bitN h 59 then 2 ^ 43 else 0) + bits h 8 0), bitN h 59, taint, 0⟩
  else ⟨BitVec.ofNat 48 (leAt b 0 6), false, taint, 0⟩

/-- The lowest member of the gang of a cluster. -/
def gangLead (s : State) (k : Nat) : Nat := k / gangSize s k * gangSize s k

/-- The program of a cluster has completed in this beat: a sillage's commit buffer then counts, which waits for the SEAL. -/
def programEnded (s : State) (k : Nat) : Bool := s.frm.completed.contains (unitKey 4 (gangLead s k))

/-- Bytes [a, a + n) of the AE's region with the taint of each 64, as a move reads them. -/
def aeRead (a n : Nat) (s : State) : (List Byte × List Bool) × State :=
  let r := (spansOf a n).foldl (fun (x : (List Byte × List (Nat × Bool)) × State) p =>
    let t := aeByteCell p.1
    let c := match FMap.find (clOf x.2 t.1).commit (cellKey t.2.1 t.2.2) with
      | some v => if programEnded x.2 t.1 then (v, x.2) else cellDeliver t.1 false t.2.1 t.2.2 x.2
      | none => cellDeliver t.1 false t.2.1 t.2.2 x.2
    let s := if c.1.taint then markTaint t.1 c.2 else c.2
    ((x.1.1 ++ cellImage p.1 c.1, x.1.2 ++ [(p.1, c.1.taint)]), s)) (([], []), s)
  let first := ((spansOf a n).headD (a, 0)).1
  let touched (u : Nat) : Bool := r.1.2.any (fun c => c.2 && overlaps c.1 (cellSpan c.1).2 (a + 64 * u) 64)
  ((slice r.1.1 (a - first) n, (List.range (n / 64)).map touched), r.2)

/-- Bytes are written to the AE's region: covered bytes of a cell change, the others stay; a cell takes the OR of the taint
bits of the transfers that touch it. -/
def aeWrite (a : Nat) (data : List Byte) (taint : List Bool) (s : State) : State :=
  let n := data.length
  (spansOf a n).foldl (fun s p =>
    let t := aeByteCell p.1
    let old := cellImage p.1 (cellRaw s t.1 t.2.1 t.2.2)
    let new := old.zipIdx.map (fun b => if a ≤ p.1 + b.2 && p.1 + b.2 < a + n then data.getD (p.1 + b.2 - a) 0 else b.1)
    let bit := taint.zipIdx.any (fun b => b.1 && overlaps p.1 p.2 (a + 64 * b.2) 64)
    let s := if bit then markTaint t.1 s else s
    cellStore t.1 t.2.1 t.2.2 (cellFrom p.1 bit new) s) s

/-! ## Sources and destinations (R182, R476) -/

/-- What a move reads: its bytes and the taint of each 64. -/
def moveRead (unit a n : Nat) (s : State) : (List Byte × List Bool) × State :=
  let units := n / 64
  let r := moveRegion unit
  if r = 4 then aeRead a n s
  else
    let b := if r = 6 then regionRead 0 0xB 0 1 a n s
      else if r = 7 then regionRead 2 7 0 1 a n s
      else regionRead 1 unit 0 1 a n s
    ((b.1, (List.range units).map (fun u => r == 6 && resTainted s (a + 64 * u) 64)), b.2)

/-- What a move writes. The section builder takes blocks from what the moves of a work beat delivered (R210). -/
def moveWrite (unit a : Nat) (data : List Byte) (taint : List Bool) (s : State) : State :=
  let r := moveRegion unit
  if r = 4 then aeWrite a data taint s
  else if r = 6 then
    let s := resWrite a data s
    let s := taint.zipIdx.foldl (fun s t => if t.1 then resTaint (a + 64 * t.2) 64 true s else s) s
    { s with sq := { s.sq with delivered := s.sq.delivered ++ [(s.tb.lin, a, data.length)] } }
  else if r = 7 then cfWrite a data s
  else feWrite a data s

/-! ## Start and end -/

/-- A source cell can be read: it is released, its program has ended, or it has none in this symbol (R174, R180). -/
def cellReadable (s : State) (k : Nat) (y : Bool) (cell : Nat) : Bool :=
  let lead := gangLead s k
  let key := unitKey 4 lead
  let ended := s.frm.completed.contains key || s.frm.overrun.contains key || s.frm.fences.contains key
    || (budgetOf s 4 lead (linSymbol s.tb.lin)).isNone
  ended || ((clOf s k).released.contains (cellKey y cell) && !(outRangeOf s k y cell).any (heldRange s))

/-- The move's source is ready. -/
def sourceReady (s : State) (m : Move) : Bool :=
  m.src != 4 || (spansOf m.srcAddr (64 * m.len)).all (fun p =>
    let t := aeByteCell p.1
    cellReadable s t.1 t.2.1 t.2.2)

/-- The move with this number of the beat's symbol. -/
def moveNo (s : State) (idx : Nat) : Option Move := ((movesNow s).find? (fun m => m.2 == idx)).map (fun m => m.1)

/-- FRM starts a move at its START offset; no move runs in a rupture or where the formula does not execute. -/
def moveStart (idx : Nat) (s : State) : State :=
  match moveNo s idx with
  | none => s
  | some m =>
    if !s.frm.executing || inRupture s || s.frm.moving.contains idx || s.frm.moved.contains idx then s
    else
      let s := stuErFlush (stuCatchUp (advanceTo m.start s))
      { s with frm := { s.frm with moving := s.frm.moving ++ [idx] } }

def execMoveStart (idx : Nat) (s : State) : Host.Outcome State Fault Refusal := .next (moveStart idx s)

/-- A move ends: what it carries stands at its destination. It waits while a source cell is not released. -/
def moveEnd (idx : Nat) (s : State) : State :=
  match moveNo s idx with
  | none => s
  | some m =>
    if !s.frm.moving.contains idx || !sourceReady s m then s
    else
      let s := stuErFlush (stuCatchUp (advanceTo (m.start + m.len) s))
      let r := moveRead m.src m.srcAddr (64 * m.len) s
      let s := moveWrite m.dst m.dstAddr r.1.1 r.1.2 r.2
      { s with frm := { s.frm with moving := s.frm.moving.filter (fun i => i != idx), moved := s.frm.moved ++ [idx] } }

def execMoveEnd (idx : Nat) (s : State) : Host.Outcome State Fault Refusal := .next (moveEnd idx s)

end Sys2Proof.Machine
end

