-- ==== Sys2Proof/Machine/Dd.lean ====
section
/-! DEFINITION. The drydown writer, re-combining jobs and their parts, the host jobs that read the store, the channel-state
archive and CODEC.RUN (R178, R204, R227, R228, R233, R238, R239, R243 to R250, R260, R261, R401). -/

namespace Sys2Proof.Machine
open Sys2Proof

/-! ## The writer (R237 to R240) -/

/-- The groups of an air beat, in their order. -/
def ddGroups (s : State) : List (Nat × Nat) := (ulCarriers s).flatMap (fun c => (List.range 16).map (fun g => (c, g)))

/-- DD writes a flacon for an air beat (R237, R39, R244, R437). -/
def ddWrites (s : State) (lin : Nat) : Bool :=
  s.frm.executing && (ddPar s).isSome && decide (s.frm.startBeat ≤ lin) && !lostUp s lin
    && !isFenced s 8 0 && !isFenced s 7 0
    && (match s.dd.frozenFrom with
      | some f => decide (s.tb.lin < f)
      | none => true)
    && decide (s.dd.firstLin ≤ lin)

/-- The index of the next flacon to be begun. -/
def ddNextIndex (s : State) : Nat := if s.dd.writing.isSome then (ddAdvance s).dd.i else s.dd.i

/-- At the start of a work beat the flacon that will be written in it stops being retained (R239). -/
def ddRetire (s : State) : State :=
  if ddWrites s (s.tb.lin - 2) && !(ddGroups s).isEmpty then loseFlacon (ddNextIndex s) s else s

/-- The 16 receive blocks of (p, group slot), elements in order; a block in an uncorrectable line is missing. -/
def ddGroupBlocks (slot p : Nat) (s : State) : List FBlock × State :=
  (List.range 16).foldl (fun (a : List FBlock × State) e =>
    let o := slot + 21888 * e + 80 * p
    let miss := regionMissing a.2 2 o 80
    let r := regionRead 2 7 0 5 o 80 a.2
    (a.1 ++ [if miss then fblockMissing p else fblockOf r.1], r.2)) ([], s)

/-- One block of a group is encoded into its slot: its bytes. -/
def ddEncodeBlock (d : DdPar) (i slot c g lin p : Nat) (s : State) : Nat × State :=
  let r := ddGroupBlocks slot p s
  let b := cxConvert r.1
  let s := countBy 0x701 0 b.2 r.2
  let e := cxEncode d.effort b.1 (fun k => ddHistory s c p g lin k)
  let s := if e.2 then count 0x700 0 s else s
  let j := flaconBlock s c p g
  let s := hbmWrite (flaconSlot s i j) e.1 (hbmWrite (flaconAt s i + 64 + j) [BitVec.ofNat 8 (e.1.length / 8)] s)
  (e.1.length, rtwStage e.1.length s)

/-- The header of a flacon (R236). -/
def flaconHeader (s : State) (lin coded : Nat) : List Byte :=
  let f := s.frm.active
  leBytes 64 ((f.elim 0 (fun f => f.revision.toNat)) * 2 ^ 160 + (f.elim 0 (fun f => f.id.toNat)) * 2 ^ 128
    + (stampOfLin lin).toNat * 2 ^ 96 + coded * 2 ^ 64 + ddBlocks s * 2 ^ 48 + 1)

/-- After the last group: index padding, header with STATE VALID, and the ring moves on. -/
def flaconComplete (i lin coded : Nat) (s : State) : State :=
  let nb := ddBlocks s
  let s := hbmWrite (flaconAt s i) (flaconHeader s lin coded)
    (hbmWrite (flaconAt s i + 64 + nb) (List.replicate (roundUp nb 64 - nb) 0) s)
  let s := rtwStage (64 + roundUp nb 64) s
  ddAdvance (count 0x800 0 { s with dd := { s.dd with
    valid := FMap.set s.dd.valid i (lin + 4), history := lin :: s.dd.history.filter (fun b => decide (lin < b + 14)), writing := none } })

/-- The writer encodes a group. The first group of an air beat comes in work beat b+2 and begins its flacon; a group of a
beat that DD does not write is discarded. -/
def groupEncode (c g : Nat) (s : State) : State :=
  match ddPar s with
  | none => s
  | some d =>
    let groups := ddGroups s
    match groups.findIdx? (fun x => x == (c, g)) with
    | none => s
    | some k =>
      let s := if k = 0 then
          let lin := s.tb.lin - 2
          if s.dd.writing.isNone && ddWrites s lin then
            let i := s.dd.i
            let s := loseFlacon i s
            { s with dd := { s.dd with map := FMap.set s.dd.map i (stampOfLin lin), writing := some (i, lin, 0, 0) } }
          else s
        else s
      match s.dd.writing with
      | none => s
      | some (i, lin, n, coded) =>
        if n ≠ k || isFenced s 8 0 || isFenced s 7 0 then s
        else
          let slot := d.inBase + 350208 * (k % 2)
          let r := (List.range (carrierOf s c).nprb).foldl (fun (a : Nat × State) p =>
            let e := ddEncodeBlock d i slot c g lin p a.2
            (a.1 + e.1, e.2)) (coded, s)
          if k + 1 = groups.length then flaconComplete i lin r.1 r.2
          else { r.2 with dd := { r.2.dd with writing := some (i, lin, k + 1, r.1) } }

def execDdGroupEncode (c : Fin 4) (g : Fin 16) (s : State) : Host.Outcome State Fault Refusal := .next (groupEncode c.val g.val s)

/-! ## Job decisions (R227, R245, R246) -/

/-- The layers of a carrier that re-combine an air beat. -/
def recombineLayers (s : State) (c lin : Nat) : List Nat :=
  (List.range 64).filter (fun l => ctxUlEn (ctxBeat s c l lin) && ctxMode (ctxBeat s c l lin) == 1)

/-- The lowest weight-store slot with this carrier and version (R245). -/
def storeSlot (s : State) (d : DdPar) (c : Nat) (v : Stamp) : Option Nat :=
  (List.range d.wslots).find? (fun n =>
    let h := rdLe s.mem.res (d.wstore + n * d.wslotBytes) 8
    bitN h 34 && bits h 33 32 == c && bits h 31 0 == v.toNat)

/-- The parts of a job: group q and its cluster, round-robin over the job clusters. -/
def jobParts (s : State) (d : DdPar) (c : Nat) : List (Nat × Nat) :=
  let k := (List.range 96).filter (fun i => d.jobClusters.getLsbD i)
  if k.isEmpty then [] else (List.range (ceilDiv (carrierOf s c).nprb (groupSize s c))).map (fun q => (q, k.getD (q % k.length) 0))

/-- A job for air beat `lin` with the versions its layers need. -/
def makeJob (d : DdPar) (c lin : Nat) (host : Bool) (vers : List (Nat × Stamp)) (s : State) : State :=
  let slots := vers.map (fun v => (v.1, storeSlot s d c v.2))
  let distinct := (slots.filterMap (fun p => p.2)).eraseDups
  let bad := slots.any (fun p => p.2.isNone) || decide (4 < distinct.length)
  let frozen := s.dd.frozenFrom.isSome || decide (lin < s.dd.firstLin)
  let st : JobSt := if frozen then .frozen else if bad || isFenced s 8 0 then .failed else .running
  let todo := if st == .running then jobParts s d c else []
  let job : RcJob := ⟨c, lin, host, if st == .running && todo.isEmpty then .done else st,
    slots.map (fun p => (p.1, p.2.getD 0)), todo, 0, []⟩
  let s := if bad && !frozen then count 0x805 c s else s
  count 0x803 c { s with dd := { s.dd with jobs := s.dd.jobs ++ [job] } }

/-- DD decides on the job of one air beat of a carrier. -/
def jobDecision (c lin : Nat) (s : State) : State :=
  match ddPar s with
  | none => s
  | some d =>
    let layers := recombineLayers s c lin
    let need (l : Nat) : Stamp :=
      let w := ctxBeat s c l lin
      versionAt s w c l (lin + ctxRcLag w)
    let used (l : Nat) : Stamp := versionAt s (ctxBeat s c l lin) c l lin
    let vers := layers.map (fun l => (l, need l))
    if inRupture s then { s with dd := { s.dd with jobs := s.dd.jobs ++ [⟨c, lin, false, .rupture, [], [], 0, []⟩] } }
    else if layers.all (fun l => need l == used l) then
      { s with dd := { s.dd with jobs := s.dd.jobs ++ [⟨c, lin, false, .skipped, [], [], 0, []⟩] } }
    else makeJob d c lin false vers s

/-- The decisions of the start of a work beat: air beat a with a + L + 2 the open beat (R246). -/
def jobDecisions (s : State) : State :=
  if (ddPar s).isNone then s
  else (ulCarriers s).foldl (fun s c =>
    ((List.range 112).map (fun i => 112 - i)).foldl (fun s lag =>
      let lin := s.tb.lin - lag - 2
      if decide (s.tb.lin < lag + 2) || decide (lin < s.frm.startBeat) || lostUp s lin
          || s.dd.jobs.any (fun j => !j.host && j.c == c && j.lin == lin) then s
      else
        let l := recombineLayers s c lin
        if l.isEmpty || maxN (l.map (fun k => ctxRcLag (ctxBeat s c k lin))) != lag then s else jobDecision c lin s) s) s

/-! ## Parts (R204, R247) -/

/-- The part that a cluster takes next: scheduled jobs in ascending air beat, then carrier, then q; host jobs after them. -/
def nextPart (s : State) (k : Nat) : Option (RcJob × Nat) :=
  let cand := (s.dd.jobs.filter (fun j => j.st == .running)).flatMap (fun j =>
    (j.todo.filter (fun p => p.2 == k)).map (fun p => (j, p.1)))
  let before (a b : RcJob × Nat) : Bool :=
    decide (((if a.1.host then 1 else 0) * 2 ^ 80 + a.1.lin) * 2048 + a.1.c * 512 + a.2
      < ((if b.1.host then 1 else 0) * 2 ^ 80 + b.1.lin) * 2048 + b.1.c * 512 + b.2)
  cand.foldl (fun b x => match b with
    | none => some x
    | some y => if before x y then some x else some y) none

/-- Cells are written by a job transfer, TAINT clear. -/
def placeCells (k : Nat) (y : Bool) (l : List (Nat × BitVec 48 × Bool)) (s : State) : State :=
  l.foldl (fun s c => cellStore k y c.1 ⟨c.2.1, c.2.2, false, 0⟩ s) s

/-- The 13 cells of a frequency block (R162). -/
def blockCells (first : Nat) (b : FBlock) : List (Nat × BitVec 48 × Bool) :=
  (first, BitVec.ofNat 48 (b.e * 2 ^ 44 + (if b.miss then 2 ^ 43 else 0) + b.prb), b.miss)
    :: (b.w.zipIdx.map (fun p => (first + 1 + p.2, BitVec.ofNat 48 (wordOf p.1), b.miss)))

/-- A codec block of a flacon as 16 frequency blocks; one that does not decode is missing and counted. -/
def jobBlock (s : State) (c p g lin : Nat) : List FBlock × Option Nat :=
  match ddDecode s c p g 15 lin with
  | .ok b => (cxBlocks p b, none)
  | .error e => (List.replicate 16 (fblockMissing p), some e)

/-- A decoded part is placed in the background ranges of a cluster that waits (table "Job part layout"). -/
def placePart (k : Nat) (j : RcJob) (q : Nat) (d : DdPar) (s : State) : State :=
  let e := clEntry s k
  let gw := groupSize s j.c
  let p0 := gw * q
  let n := Nat.min gw ((carrierOf s j.c).nprb - p0)
  let distinct := (j.slots.map (fun p => p.2)).eraseDups
  let x0 := 128 * e.bgxFirst
  let u (i v : Nat) : Nat × BitVec 48 × Bool := (x0 + i, BitVec.ofNat 48 v, false)
  let desc := [u 0 (stampOfLin j.lin).toNat, u 1 j.c, u 2 q, u 3 p0, u 4 n, u 5 distinct.length]
    ++ (List.range 64).map (fun l => u (64 + l) (match j.slots.find? (fun p => p.1 == l) with
      | some p => distinct.idxOf p.2
      | none => 0xFFFFFFFF))
  let s := placeCells k false desc s
  let s := distinct.zipIdx.foldl (fun s v =>
    let a := d.wstore + v.1 * d.wslotBytes + 64 + q * d.wgBytes
    let r := regionRead 0 0xB 0 5 a d.wgBytes s
    let first := x0 + 128 + v.2 * (d.wgBytes / 8)
    placeCells k false ((List.range (d.wgBytes / 8)).map (fun i =>
      (first + i, BitVec.ofNat 48 (leAt r.1 (8 * i) 6), bitN (leAt r.1 (8 * i + 6) 1) 0))) r.2) s
  let y0 := 128 * e.bgyFirst
  let s := (List.range n).foldl (fun s pj => (List.range 16).foldl (fun s g =>
    let b := jobBlock s j.c (p0 + pj) g j.lin
    let s := match b.2 with
      | some code => count 0x806 0 (countCx code s)
      | none => s
    placeCells k true (b.1.zipIdx.flatMap (fun x => blockCells (y0 + 13 * (256 * pj + 16 * g + x.2)) x.1)) s) s) s
  let upd (x : RcJob) : RcJob :=
    if x.c == j.c && x.lin == j.lin && x.host == j.host then
      { x with todo := x.todo.filter (fun p => p.1 != q), open_ := x.open_ + 1 } else x
  let s := { s with dd := { s.dd with jobs := s.dd.jobs.map upd } }
  clSet k { clOf s k with jwait := false, part := some ⟨j.c, j.lin, j.host, q⟩ } s

/-- The job engine places the next part of a cluster that waits in JWAIT, once the flacon is retained. -/
def jobPartPlaced (k : Nat) (s : State) : State :=
  match ddPar s, nextPart s k with
  | some d, some (j, q) =>
    if (clOf s k).jwait && hbmServes s && !isFenced s 7 0 && isRetained s j.lin then placePart k j q d s else s
  | _, _ => s

def execJobPartPlaced (k : Fin 96) (s : State) : Host.Outcome State Fault Refusal := .next (jobPartPlaced k.val s)

def execJwait (k : Fin 96) (bg : Bool) (w : AeW) (s : State) : Host.Outcome State Fault Refusal :=
  .next (aeExec 0x2C k.val bg w noAccess ⟨[], none, [], none, 1⟩
    (fun j s => if bg then clSet j { clOf s j with jwait := true } s else s) advancePc s)

/-- Bytes of a frequency block that 13 cells hold. -/
def cellsBlock (k first : Nat) (s : State) : List Byte × State :=
  let r := (List.range 13).foldl (fun (a : List Nat × State) i =>
    let c := cellDeliver k true true (first + i) a.2
    (a.1 ++ [c.1.word.toNat + (if c.1.miss then 2 ^ 48 else 0)], c.2)) ([], s)
  let h := r.1.getD 0 0
  (fblockBytes ⟨bits h 47 44, bitN h 43 || bitN h 48, bits h 8 0, (r.1.drop 1).map cplxOf⟩, r.2)

/-- A job changes. -/
def jobUpdate (c lin : Nat) (host : Bool) (f : RcJob → RcJob) (s : State) : State :=
  { s with dd := { s.dd with jobs := s.dd.jobs.map (fun j => if j.c == c && j.lin == lin && j.host == host then f j else j) } }

/-- A part is handed back with success: its result blocks go to the result ring, or to the host job. -/
def partResults (k : Nat) (p : Part) (j : RcJob) (d : DdPar) (s : State) : State :=
  let gw := groupSize s p.jobC
  let p0 := gw * p.q
  let nprb := (carrierOf s p.jobC).nprb
  let n := Nat.min gw (nprb - p0)
  let y0 := 128 * (clEntry s k).bgyFirst
  let ring := d.resultBase.getD p.jobC 0 + p.jobLin % beatMod % 2 ^ d.resultLog2 * (64 * nprb * 80)
  j.slots.zipIdx.foldl (fun s x => (List.range n).foldl (fun s i =>
    let r := cellsBlock k (y0 + 13 * (x.2 * n + i)) s
    if p.host then
      jobUpdate p.jobC p.jobLin true (fun j => { j with out := FMap.set j.out (512 * x.1.1 + p0 + i) r.1 }) r.2
    else resWrite (ring + 80 * (nprb * x.1.1 + p0 + i)) r.1 r.2) s) s

/-- JDONE with a result code. -/
def jobDone (k code : Nat) (s : State) : State :=
  let c := clOf s k
  match c.part, ddPar s with
  | some p, some d =>
    let s := clSet k { c with part := none } s
    match s.dd.jobs.find? (fun j => j.c == p.jobC && j.lin == p.jobLin && j.host == p.host) with
    | none => s
    | some j =>
      if j.st != .running then s
      else if code ≠ 0 then
        jobUpdate p.jobC p.jobLin p.host (fun j => { j with st := .failed, todo := [], open_ := j.open_ - 1 }) s
      else
        jobUpdate p.jobC p.jobLin p.host (fun j =>
          let o := j.open_ - 1
          { j with open_ := o, st := if o = 0 && j.todo.isEmpty then .done else j.st }) (partResults k p j d s)
  | _, _ => clSet k { c with part := none } s

def execJdone (k : Fin 96) (bg : Bool) (w : AeW) (s : State) : Host.Outcome State Fault Refusal :=
  .next (aeExec 0x2D k.val bg w noAccess ⟨[], none, [], none, 1⟩
    (fun j s => if bg then jobDone j (immBits w 3 0) s else s) advancePc s)

/-! ## Suspension (R178) -/

/-- FRM requests suspension of a background program. -/
def bgSuspendRequest (k : Nat) (s : State) : State :=
  if (clEntry s k).bgEn && !(clOf s k).suspended then clSet k { clOf s k with suspReq := true } s else s

def execBgSuspendRequest (k : Fin 96) (s : State) : Host.Outcome State Fault Refusal := .next (bgSuspendRequest k.val s)

/-- The background of a cluster is at an interruptible point. -/
def interruptible (c : Cluster) : Bool := c.jwait || (c.bg.rep.isNone && (c.bg.loops.isEmpty || c.bg.iterEnd))

/-- The background stops at an interruptible point; its registers are saved with it. -/
def bgSuspend (k : Nat) (s : State) : State :=
  let c := clOf s k
  if c.suspReq && !c.suspended && interruptible c then count 0x405 k (clSet k { c with suspended := true, suspReq := false } s)
  else s

def execBgSuspend (k : Fin 96) (s : State) : Host.Outcome State Fault Refusal := .next (bgSuspend k.val s)

/-! ## Deadlines (R248, R249) -/

/-- A DD_READ_MISS verdict takes effect: the job's remaining parts are abandoned. -/
def applyDdMiss (c lin : Nat) (s : State) : State :=
  if s.dd.jobs.any (fun j => !j.host && j.c == c && j.lin == lin && j.st == .running) then
    count 0x804 c (jobUpdate c lin false (fun j => { j with st := .readMissed, todo := [] }) s)
  else s

/-- The DD_READ deadline of a carrier. -/
def ddReadDeadline (c : Nat) (s : State) : State :=
  match ddDeadline s 2 c with
  | none => s
  | some (off, cycle) =>
    let s := advanceTo cycle s
    let lin := s.tb.lin - off
    if s.dd.jobs.any (fun j => !j.host && j.c == c && j.lin == lin && j.st == .running && !j.todo.isEmpty) then
      let id := c * 2 ^ 30 + lin % beatMod
      let s := makeVerdict 0x08 0x8 (stampOfLin lin) (id * 2 ^ 32) s
      if s.nose.mode == .sillage then s else applyDdMiss c lin s
    else s

def execDdReadDeadline (c : Fin 4) (s : State) : Host.Outcome State Fault Refusal := .next (ddReadDeadline c.val s)

/-- A re-combined section from the result ring. -/
def resultCombo (c l lin base nprb w n start num : Nat) (s : State) : Combo × State :=
  let t := erOf s c lin
  let pay := (List.range num).map (fun i =>
    let p := start + i
    let a := base + 80 * (nprb * l + p)
    let b := if regionMissing s 0 a 80 then fblockMissing p else fblockOf (rdBytes s.mem.res a 80)
    (prbPayload w (erMask t p) b, b.miss))
  (⟨n, start, num, pay.flatMap (fun p => p.1.1), pay.any (fun p => p.2), false, false⟩,
    countBy 0x607 c (sumN (pay.map (fun p => p.1.2))) s)

/-- At the RECOMBINE deadline the section builder takes the results of a finished job (R247). -/
def recombineDeadline (c : Nat) (s : State) : State :=
  match ddDeadline s 4 c, ddPar s with
  | some (off, cycle), some d =>
    let s := advanceTo cycle s
    let lin := s.tb.lin - off
    match s.dd.jobs.find? (fun j => !j.host && j.c == c && j.lin == lin && j.st == .done) with
    | none => s
    | some j =>
      let nprb := (carrierOf s c).nprb
      let base := d.resultBase.getD c 0 + lin % beatMod % 2 ^ d.resultLog2 * (64 * nprb * 80)
      j.slots.foldl (fun s x =>
        let w := mantWidth (ctxMant (ctxBeat s c x.1 lin))
        let r := (sectionsOf s c x.1 lin w).foldl (fun (a : List Combo × State) y =>
          let r := resultCombo c x.1 lin base nprb w y.1 y.2.1 y.2.2 a.2
          (a.1 ++ [r.1], r.2)) ([], s)
        { r.2 with sq := { r.2.sq with finals := FMap.set r.2.sq.finals (64 * (4 * lin + c) + x.1) r.1 } }) s
  | _, _ => s

def execRecombineDeadline (c : Fin 4) (s : State) : Host.Outcome State Fault Refusal := .next (recombineDeadline c.val s)

/-! ## The channel-state archive (R233) -/

/-- The codec blocks of one sounded layer: ascending PRB, then group. -/
def archiveLayer (s : State) (c l lin : Nat) : List (List Byte) :=
  (List.range (carrierOf s c).nprb).flatMap (fun p => (List.range 16).map (fun g =>
    let blocks := (List.range 16).map (fun e =>
      fblockOf (rdBytes s.mem.cf (blkAddr blkEstimate c (256 * l + 16 * g + e) p lin) 80))
    (cxEncode 0 (cxConvert blocks).1 (fun _ => none)).1))

/-- Key of an archive entry. -/
def archiveKey (c l lin : Nat) : Nat := 64 * (4 * lin + c) + l

/-- The estimates of a sounding beat enter the archive; entries past the retention leave it. A freeze keeps them out. -/
def archiveBeat (c lin : Nat) (s : State) : State :=
  match ddPar s with
  | none => s
  | some d =>
    let keep := s.dd.archive.filter (fun p => decide (s.tb.lin ≤ p.1 / 256 + 14 * d.retain))
    let s := { s with dd := { s.dd with archive := keep } }
    if !isSounding s c lin || s.mem.st == .frozen || s.dd.frozenFrom.isSome || isFenced s 7 0 then s
    else
      let used (l : Nat) : Bool := !ctxWsrc (ctxOf s c l) && (ctxUlEn (ctxOf s c l) || ctxDlEn (ctxOf s c l))
      let layers := (List.range 64).filter used
      let m := layers.foldl (fun m l => FMap.set m (archiveKey c l lin) (archiveLayer s c l lin)) s.dd.archive
      { s with dd := { s.dd with archive := m } }

/-! ## Host jobs (R228, R233, R243, R261, R401) -/

/-- The drydown or the codec is not to be had. -/
def storeAway (s : State) : Bool := s.mem.st == .frozen

/-- FIRST_BEAT, replaced by the mark under MARK. -/
def firstBeat (s : State) (mark : BitVec 8) (first : Stamp) : Option Stamp := if mark == 1#8 then s.dd.mark else some first

/-- The checks of a range of air beats: valid stamps, in order, both named beats retained. -/
def rangeCheck (s : State) (mark : BitVec 8) (first last : Stamp) : Nat :=
  if mark.toNat > 1 || (mark == 0#8 && !stampValid first) || !stampValid last then stBadField
  else if storeAway s || isFenced s 7 0 then stUnavailable
  else
    match firstBeat s mark first with
    | none => stNotRetained
    | some f =>
      if !isRetained s (linNear s f) || !isRetained s (linNear s last) then stNotRetained
      else if linNear s last < linNear s f then stBadField
      else stOk

/-- Carrier and queue of a host job are legal. -/
def jobFieldsOk (s : State) (carrier : Nat) (queue : Nat) : Bool :=
  decide (carrier < 4) && (carrierOf s carrier).enable && isEgress s 4 queue

/-- RECOMBINE.RUN: one job for each retained air beat of the range, under the versions now in effect. -/
def recombineRun (h : Hdr) (carrier mark : BitVec 8) (queue : BitVec 16) (first last : Stamp) (layers : BitVec 64) (s : State) :
    Reply × State :=
  let c := carrier.toNat
  if !jobFieldsOk s c queue.toNat then fails stBadField s
  else
    let st := rangeCheck s mark first last
    if st ≠ stOk then fails st s
    else
      match ddPar s, firstBeat s mark first with
      | some d, some f =>
        let a := linNear s f
        let beats := (retained s).filter (fun b => decide (a ≤ b) && decide (b ≤ linNear s last))
        let s := beats.foldl (fun s b =>
          let ls := (List.range 64).filter (fun l => layers.getLsbD l && ctxUlEn (ctxBeat s c l b))
          makeJob d c b true (ls.map (fun l => (l, versionAt s (ctxOf s c l) c l s.tb.lin))) s) s
        startJob 0x1501 h (.recombine c queue.toNat f last layers) s
      | _, _ => fails stNotRetained s

def execRecombineRun (h : Hdr) (carrier mark : BitVec 8) (queue : BitVec 16) (first last : Stamp) (layers : BitVec 64)
    (s : State) : Host.Outcome State Fault Refusal :=
  .next (serve 0x1501 h (inModes modesOL) (recombineRun h carrier mark queue first last layers) s)

/-- CSI.EXPORT. -/
def csiExport (h : Hdr) (carrier : BitVec 8) (queue : BitVec 16) (beat : Stamp) (layers : BitVec 64) (s : State) :
    Reply × State :=
  let c := carrier.toNat
  if !jobFieldsOk s c queue.toNat || !stampValid beat then fails stBadField s
  else if storeAway s || isFenced s 7 0 then fails stUnavailable s
  else
    let lin := linNear s beat
    let there := (List.range 64).any (fun l => (FMap.find s.dd.archive (archiveKey c l lin)).isSome)
    let within := (ddPar s).any (fun d => decide (lin ≤ s.tb.lin) && decide (s.tb.lin ≤ lin + 14 * d.retain))
    if there then startJob 0x1601 h (.csi c queue.toNat beat layers) s
    else if within && isSounding s c lin then fails stUnavailable s
    else fails stNotRetained s

def execCsiExport (h : Hdr) (carrier : BitVec 8) (queue : BitVec 16) (beat : Stamp) (layers : BitVec 64) (s : State) :
    Host.Outcome State Fault Refusal :=
  .next (serve 0x1601 h (inModes modesOL) (csiExport h carrier queue beat layers) s)

/-- DD.REWIND. -/
def ddRewind (beat : Stamp) (s : State) : Reply × State :=
  if !stampValid beat then fails stBadField s
  else if storeAway s then fails stUnavailable s
  else if !isRetained s (linNear s beat) then fails stNotRetained s
  else okWith [] { s with dd := { s.dd with mark := some beat } }

def execDdRewind (h : Hdr) (beat : Stamp) (s : State) : Host.Outcome State Fault Refusal :=
  .next (serve 0x1701 h (inModes modesOL) (ddRewind beat) s)

/-- DD.FETCH. -/
def ddFetch (h : Hdr) (mark : BitVec 8) (queue : BitVec 16) (first last : Stamp) (s : State) : Reply × State :=
  if !isEgress s 4 queue.toNat then fails stBadField s
  else
    let st := rangeCheck s mark first last
    if st ≠ stOk then fails st s
    else startJob 0x1702 h (.ddFetch queue.toNat ((firstBeat s mark first).getD first) last) s

def execDdFetch (h : Hdr) (mark : BitVec 8) (queue : BitVec 16) (first last : Stamp) (s : State) :
    Host.Outcome State Fault Refusal :=
  .next (serve 0x1702 h (inModes modesOL) (ddFetch h mark queue first last) s)

/-- DD.STATUS. -/
def ddStatus (s : State) : Reply × State :=
  if storeAway s then fails stUnavailable s
  else
    let r := retained s
    let stamp (b : Option Nat) : Nat := b.elim 0 (fun b => (stampOfLin b).toNat)
    okWith [.num 2 s.dd.i, .num 2 s.dd.n, .num 4 (stamp r.head?), .num 4 (stamp r.getLast?),
      .num 4 (s.dd.mark.elim 0 (fun m => m.toNat)), .num 1 ((if r.isEmpty then 0 else 1) + (if s.dd.mark.isSome then 2 else 0)),
      .num 3 0] s

def execDdStatus (h : Hdr) (s : State) : Host.Outcome State Fault Refusal :=
  .next (serve 0x1703 h (inModes modesOLM) ddStatus s)

/-- CODEC.RUN: the fields that it checks. SRC and DST are Reservoir offsets. -/
def codecRun (h : Hdr) (op reserve : BitVec 8) (queue count : BitVec 16) (src dst dstBytes : BitVec 32) (s : State) :
    Reply × State :=
  let toQ := queue != 0xFFFF#16
  let inLen := if op == 0#8 then 1288 * count.toNat else 24 * count.toNat
  if op.toNat > 1 || reserve.toNat > 1 || (reserve == 0#8 && s.nose.mode != .standby) || (toQ && !isEgress s 4 queue.toNat)
      || src.toNat + inLen > 0x4000000 || (!toQ && dst.toNat + dstBytes.toNat > 0x4000000) then fails stBadField s
  else if isFenced s 7 0 then fails stUnavailable s
  else startJob 0x1801 h (.codec (op == 1#8) (reserve == 1#8) queue.toNat count.toNat src.toNat dst.toNat dstBytes.toNat) s

def execCodecRun (h : Hdr) (op reserve : BitVec 8) (queue count : BitVec 16) (src dst dstBytes : BitVec 32) (s : State) :
    Host.Outcome State Fault Refusal :=
  .next (serve 0x1801 h (inModes modesYOL) (codecRun h op reserve queue count src dst dstBytes) s)

/-! ### CODEC.RUN at work -/

/-- How CODEC.RUN stands: blocks done, stored raw, RESULT, source offset, output bytes, decoded blocks so far (for P3
history) by (carrier, PRB, group, linear beat of their tag), and whether the last output broke off. -/
structure CodecRun where
  done : Nat
  raw : Nat
  result : Nat
  src : Nat
  out : List (List Byte)
  hist : List ((Nat × Nat × Nat × Nat) × CxBlock)
  cut : Option (List Byte)
deriving Repr, Inhabited

/-- Bytes written so far. -/
def codecWritten (r : CodecRun) : Nat := sumN (r.out.map List.length)

/-- Room in the section or buffer for the next output. -/
def codecRoom (toQ : Bool) (dstBytes : Nat) (r : CodecRun) : Nat :=
  if toQ then 8960 - ((codecSections r.out []).getLast?.elim 0 (fun l => if 8960 < l.length + 792 then 0 else l.length))
  else dstBytes - codecWritten r

/-- An output of the job: with RESERVE the room is reserved before the block; without, the output may break off within it. -/
def codecPut (toQ reserve : Bool) (dstBytes need : Nat) (b : List Byte) (r : CodecRun) : CodecRun :=
  let room := codecRoom toQ dstBytes r
  if (if reserve then decide (room < need) else decide (room < b.length)) then
    { r with result := 2, cut := if reserve then none else some (b.take room) }
  else { r with done := r.done + 1, out := r.out ++ [b] }

/-- One block of CODEC.RUN. -/
def codecStep (decode reserve toQ : Bool) (dstBytes : Nat) (a : CodecRun × State) : CodecRun × State :=
  let r := a.1
  let s := a.2
  let tag := regionRead 0 0xB 0 6 r.src 8 s
  let t := beNat tag.1
  let s := tag.2
  let c := bits t 31 30
  let p := bits t 29 21
  let g := bits t 20 17
  let beat : Stamp := BitVec.ofNat 32 (t / 2 ^ 32)
  if !decode then
    let d := regionRead 0 0xB 0 6 (r.src + 8) 1280 s
    let b := cxConvert ((List.range 16).map (fun e => fblockOf (slice d.1 (80 * e) 80)))
    let s := countBy 0x701 0 b.2 d.2
    let ch := cxChoose 0 b.1 (fun _ => none)
    let e := if reserve then cxEncode 0 b.1 (fun _ => none) else (cxCoded ch b.1, false)
    let r1 := codecPut toQ reserve dstBytes 792 (codecTag beat c p g (bits t 16 11) (e.1.length / 8) ++ e.1) r
    if r1.result = 2 then (r1, s)
    else ({ r1 with src := r.src + 1288, raw := r1.raw + (if e.2 then 1 else 0) }, if e.2 then count 0x700 0 s else s)
  else
    let len := 8 * bits t 10 4
    let d := regionRead 0 0xB 0 6 (r.src + 8) len s
    let s := d.2
    let lin := linOf beat
    let hist (k : Nat) : Option CxBlock := (r.hist.find? (fun x => x.1 == (c, p, g, lin - k) && decide (k ≤ lin))).map (fun x => x.2)
    match cxDecode (stampSymbol beat) hist d.1 with
    | .error e => ({ r with result := e }, countCx e s)
    | .ok b =>
      let out := tag.1 ++ (cxBlocks p b).flatMap fblockBytes
      let r1 := codecPut toQ reserve dstBytes out.length out r
      if r1.result = 2 then (r1, s)
      else ({ r1 with src := r.src + 8 + len, hist := ((c, p, g, lin), b) :: r.hist }, s)

/-- The blocks of CODEC.RUN, to the first that fails. -/
def codecLoop (decode reserve toQ : Bool) (dstBytes : Nat) : Nat → CodecRun × State → CodecRun × State
  | 0, a => a
  | n + 1, a => if a.1.result = 0 then codecLoop decode reserve toQ dstBytes n (codecStep decode reserve toQ dstBytes a) else a

/-- CODEC sections are handed to a queue. -/
def sendCodec (q : Nat) (entries : List (List Byte)) (s : State) : State :=
  (codecSections entries []).zipIdx.foldl (fun s e => addDue q (.aux (codecBody e.2 e.1) false) s) s

/-- The output of CODEC.RUN goes to its destination. -/
def codecOutput (reserve : Bool) (queue dst : Nat) (r : CodecRun) (s : State) : State :=
  if queue = 0xFFFF then
    resWrite dst (r.out.flatten ++ r.cut.getD []) s
  else
    match r.cut with
    | none => sendCodec queue r.out s
    | some part =>
      let secs := codecSections r.out []
      let openLast := secs.getLast?.any (fun l => decide (l.length + 792 ≤ 8960))
      let full := if openLast then secs.dropLast else secs
      let last := (if openLast then secs.getLast?.getD [] else []) ++ part
      let s := full.zipIdx.foldl (fun s e => addDue queue (.aux (codecBody e.2 e.1) false) s) s
      if reserve then s else addDue queue (.aux (codecBody full.length last) true) s

/-- CODEC.RUN ends. -/
def codecComplete (j : Job) (decode reserve : Bool) (queue count_ src dst dstBytes : Nat) (s : State) : State :=
  let r := codecLoop decode reserve (queue != 0xFFFF) dstBytes count_ (⟨0, 0, 0, src, [], [], none⟩, s)
  let s := codecOutput reserve queue dst r.1 r.2
  let s := if r.1.result = 2 then count 0x702 0 s else s
  let result := if r.1.result = 0 && decide (0 < r.1.raw) then 1 else r.1.result
  endJob j (if result ≤ 1 then stOk else stJobFailed) none
    [.num 2 r.1.done, .num 2 r.1.raw, .num 1 result, .num 3 0,
      .num 4 (if queue = 0xFFFF then dst + codecWritten r.1 else 0)] s

/-! ### The others -/

/-- The response of a host job: a count, RESULT and 3 reserved bytes. -/
def jobReply (j : Job) (n result : Nat) (s : State) : State :=
  endJob j (if result ≤ 1 then stOk else stJobFailed) none [.num 4 n, .num 1 result, .num 3 0] s

/-- Sections of a host job's re-combined air beat: UL_REPLAY, over the kept UL entries. -/
def replaySections (j : RcJob) (s : State) : List (List Byte) × State :=
  (j.slots.map (fun x => x.1)).foldl (fun (a : List (List Byte) × State) l =>
    let ctx := ctxBeat a.2 j.c l j.lin
    let w := mantWidth (ctxMant ctx)
    (sectionsOf a.2 j.c l j.lin w).foldl (fun a y =>
      let t := erOf a.2 j.c j.lin
      let pay := (List.range y.2.2).map (fun i =>
        let p := y.2.1 + i
        let b := match FMap.find j.out (512 * l + p) with
          | some x => fblockOf x
          | none => fblockMissing p
        (prbPayload w (erMask t p) b, b.miss))
      let body := secHeader (stampOfLin j.lin) (sectionId j.c l y.1) 5 j.c l false (pay.any (fun p => p.2)) (ctxMant ctx)
        y.2.1 y.2.2 ++ pay.flatMap (fun p => p.1.1)
      (a.1 ++ [body], countBy 0x607 j.c (sumN (pay.map (fun p => p.1.2))) a.2)) a) ([], s)

/-- RECOMBINE.RUN ends once every beat's job has ended: the finished beats leave on the queue. -/
def recombineComplete (j : Job) (c queue : Nat) (s : State) : State :=
  let jobs := s.dd.jobs.filter (fun x => x.host && x.c == c)
  if jobs.any (fun x => x.st == .running) then s
  else
    let done := jobs.filter (fun x => x.st == .done)
    let s := done.foldl (fun s x =>
      let r := replaySections x s
      r.1.foldl (fun s b => addDue queue (.aux b false) s) r.2) s
    jobReply j done.length 0 { s with dd := { s.dd with jobs := s.dd.jobs.filter (fun x => !x.host) } }

/-- CSI.EXPORT sends the archived blocks of its layers. -/
def csiComplete (j : Job) (c queue : Nat) (beat : Stamp) (layers : BitVec 64) (s : State) : State :=
  let lin := linNear s beat
  let entries := ((List.range 64).filter (fun l => layers.getLsbD l)).flatMap (fun l =>
    (FMap.get [] s.dd.archive (archiveKey c l lin)).zipIdx.map (fun b => codecEntry beat c (b.2 / 16) (b.2 % 16) l b.1))
  jobReply j entries.length 0 (sendCodec queue entries s)

/-- DD.FETCH sends the stored blocks of its range. -/
def fetchComplete (j : Job) (queue : Nat) (first last : Stamp) (s : State) : State :=
  let a := linNear s first
  let beats := (retained s).filter (fun b => decide (a ≤ b) && decide (b ≤ linNear s last))
  let entries := beats.flatMap (fun b => match flaconOf s b with
    | none => []
    | some i => (ulCarriers s).flatMap (fun c => (List.range (carrierOf s c).nprb).flatMap (fun p => (List.range 16).map (fun g =>
        codecEntry (stampOfLin b) c p g 0 (flaconRead s i (flaconBlock s c p g))))))
  jobReply j entries.length 0 (sendCodec queue entries s)

/-- A host job ends. -/
def hostJobComplete (op : Nat) (s : State) : State :=
  match jobOf op s with
  | none => s
  | some j =>
    match j.body with
    | .recombine c q _ _ _ => recombineComplete j c q s
    | .csi c q b l => csiComplete j c q b l s
    | .ddFetch q a b => fetchComplete j q a b s
    | .codec d r q n a b c => codecComplete j d r q n a b c s
    | .failed r =>
      if op = 0x1501 || op = 0x1601 || op = 0x1702 then
        let jobs := if op = 0x1501 then s.dd.jobs.filter (fun x => !x.host) else s.dd.jobs
        jobReply j 0 r { s with dd := { s.dd with jobs := jobs } }
      else s
    | _ => s

def execHostJobComplete (opcode : BitVec 16) (s : State) : Host.Outcome State Fault Refusal :=
  .next (hostJobComplete opcode.toNat s)

end Sys2Proof.Machine
end

