-- ==== Sys2Proof/Machine/Notes.lean ====
section
/-! DEFINITION. The SQ beat program: what is due in a work beat, top notes and their resolution, accord partial sums, the
erasure-cleaned copy and the sounding references, and SQ's substitutes (R210 to R212, R222 to R232, R274, R284, R297, R298,
R306). -/

namespace Sys2Proof.Machine
open Sys2Proof

/-! ## Heart positions (R222, R223, R226, R227) -/

/-- Carrier, layer and linear air beat of a key of `combos` or `finals`. -/
def keyParts (k : Nat) : Nat × Nat × Nat := (k / 64 % 4, k % 64, k / 256)

/-- Key of a layer's air beat. -/
def beatKey (c l lin : Nat) : Nat := 64 * (4 * lin + c) + l

/-- D of the table "Uplink egress by mode": the beat offset of the deadline that settles the heart result. -/
def heartOffset (s : State) (c : Nat) (w : BitVec 128) : Nat :=
  if ctxMode w = 1 then (ddDeadline s 4 c).elim 0 (fun d => d.1)
  else if ctxMode w = 2 then ((slotDeadline s (ctxSlot w)).elim 0 (fun d => d.1.toNat))
  else 2

/-- The air beat's heart position is the open work beat. After a rupture every air beat before S that is still unresolved is
resolved in S+8. -/
def heartDue (s : State) (c l lin : Nat) : Bool :=
  match s.frm.ruptureS with
  | some b =>
    if decide (s.tb.lin = b + 8) && decide (lin < b) then true
    else decide (s.tb.lin = lin + heartOffset s c (ctxBeat s c l lin) + 1)
  | none => decide (s.tb.lin = lin + heartOffset s c (ctxBeat s c l lin) + 1)

/-- The heart result of an air beat. -/
inductive HeartResult where
  /-- formed: its sections, and the reason of a CONFIRM that finds them identical -/
  | formed (l : List Combo)
  /-- re-combining was skipped -/
  | skipped
  /-- not formed -/
  | fallback (reason : Nat)
deriving DecidableEq, Repr

/-- The heart result of (c, l) for an air beat. -/
def heartResult (s : State) (c l lin : Nat) : HeartResult :=
  let w := ctxBeat s c l lin
  let combos := FMap.get [] s.sq.combos (beatKey c l lin)
  if s.frm.ruptureS.any (fun b => decide (s.tb.lin = b + 8) && decide (lin < b)) then .fallback 7
  else if ctxMode w = 0 then .formed combos
  else if ctxMode w = 2 then
    .formed ((FMap.find s.sq.finals (beatKey c l lin)).getD (combos.map (missingCombo (mantWidth (ctxMant w)))))
  else
    match s.dd.jobs.find? (fun j => !j.host && j.c == c && j.lin == lin) with
    | some j =>
      match j.st with
      | .done => .formed ((FMap.find s.sq.finals (beatKey c l lin)).getD (combos.map (missingCombo (mantWidth (ctxMant w)))))
      | .skipped => .skipped
      | .readMissed => .fallback 3
      | .overtaken => .fallback 4
      | .frozen => .fallback 5
      | .rupture => .fallback 7
      | .failed => .fallback 6
      | .running => .fallback 6
    | none => .fallback 6

/-- Version of the weights of a layer's final result. -/
def finalVersion (s : State) (c l lin : Nat) (re : Bool) : Stamp :=
  let w := ctxBeat s c l lin
  if re && ctxMode w == 1 then versionAt s w c l (lin + ctxRcLag w) else versionAt s w c l lin

/-- A note record is due, and is counted. -/
def recordDue (q noteQ kind reason c l lin section_ heartQ : Nat) (ver : Stamp) (s : State) : State :=
  let b := stampOfLin lin
  addDue q (.note c l b section_ (noteRecord b noteQ section_ kind reason c l heartQ s.tb.beat ver)) (count (0x406 + kind) c s)

/-- A top note is resolved: it is no longer open; a revoked one marks the notes that depend on it. -/
def closeNote (id : Nat) (revoked : Bool) (s : State) : State :=
  let l := (s.sq.notes.filter (fun n => n.id != id)).map (fun n =>
    if revoked && n.depends.any (fun d => d.contains id) then { n with revoked := true } else n)
  { s with sq := { s.sq with notes := l } }

/-- One section at its heart position. `sub`: SQ has no budget in the beat. -/
def heartSection (sub : Bool) (c l lin : Nat) (x : Combo) (s : State) : State :=
  let w := ctxBeat s c l lin
  let b := stampOfLin lin
  let q := ctxHeartQ w
  let id := sectionId c l x.n
  let mw := mantWidth (ctxMant w)
  let note := s.sq.notes.find? (fun n => n.depends.isNone && n.c == c && n.l == l && n.beat == b && n.n == x.n)
  let send (y : Combo) (s : State) : State :=
    if sub then
      addDue q (if egressSkip s then .missing c l lin y.n y.startPrb y.numPrb true else .heart c l lin (missingCombo mw y)) s
    else addDue q (.heart c l lin y) s
  let record (kind reason : Nat) (re : Bool) (s : State) : State :=
    recordDue q (note.elim q (fun n => n.queue)) kind reason c l lin id q (finalVersion s c l lin re) s
  match heartResult s c l lin, note with
  | .formed ys, some n =>
    let y := (ys.find? (fun y => y.n == x.n)).getD (missingCombo mw x)
    let y := if sub then missingCombo mw y else y
    if y.payload == n.payload then closeNote n.id false (record 1 0 true s)
    else send y (closeNote n.id true (record 2 1 true s))
  | .formed ys, none => send ((ys.find? (fun y => y.n == x.n)).getD (missingCombo mw x)) s
  | .skipped, some n => closeNote n.id false (record 1 8 false s)
  | .skipped, none => send x s
  | .fallback r, some n => closeNote n.id false (record 3 r false s)
  | .fallback r, none => send x (record 3 r false s)

/-- One layer's air beat at its heart position. -/
def heartLayer (sub : Bool) (k : Nat) (l : List Combo) (s : State) : State :=
  let p := keyParts k
  let s := l.foldl (fun s x => heartSection sub p.1 p.2.1 p.2.2 x s) s
  { s with sq := { s.sq with combos := FMap.erase s.sq.combos k, finals := FMap.erase s.sq.finals k } }

/-- The heart positions of the open work beat, in ascending air beat, carrier and layer. -/
def heartDues (sub : Bool) (s : State) : State :=
  let due := s.sq.combos.filter (fun p => let q := keyParts p.1
    heartDue s q.1 q.2.1 q.2.2)
  let skips := (due.filter (fun p => let q := keyParts p.1
    heartResult s q.1 q.2.1 q.2.2 == .skipped && ctxTopnote (ctxBeat s q.1 q.2.1 q.2.2))).map (fun p => p.1 / 64)
  let s := skips.eraseDups.foldl (fun s k => count 0x40A (k % 4) s) s
  due.foldl (fun s p => heartLayer sub p.1 p.2 s) s

/-- The top-note sections of the air beat of work beat b+2. -/
def topDues (sub : Bool) (s : State) : State :=
  let lin := s.tb.lin - 2
  if decide (lin < s.frm.startBeat) || lostUp s lin then s
  else (ulCarriers s).foldl (fun s c => (List.range 64).foldl (fun s l =>
    let w := ctxBeat s c l lin
    if ctxUlEn w && ctxTopnote w && decide (ctxMode w < 3) then
      (sectionsOf s c l lin (mantWidth (ctxMant w))).foldl (fun s x =>
        addDue (ctxTopQ w)
          (if sub && egressSkip s then .missing c l lin x.1 x.2.1 x.2.2 false else .top c l lin x.1 x.2.1 x.2.2 sub) s) s
    else s) s) s

/-- Dependent notes whose top notes have all been resolved (R225). -/
def dependentDues (s : State) : State :=
  let tops := openTops s
  let ready := (s.sq.notes.filter (fun n => n.depends.any (fun d => d.all (fun i => !tops.contains i)))).mergeSort
    (fun a b => decide (linNear s a.beat * 4096 + a.section_ ≤ linNear s b.beat * 4096 + b.section_))
  ready.foldl (fun s n =>
    let s := { s with sq := { s.sq with notes := s.sq.notes.filter (fun m => m.id != n.id) } }
    recordDue n.queue n.queue (if n.revoked then 2 else 1) (if n.revoked then 2 else 0) n.c n.l (linNear s n.beat) n.section_
      n.queue (finalVersion s n.c n.l (linNear s n.beat) true) s) s

/-- What is due in the open work beat, made once. -/
def listDues (sub : Bool) (s : State) : State :=
  if s.sq.listed = some s.tb.lin then s
  else dependentDues (topDues sub (heartDues sub { s with sq := { s.sq with listed := some s.tb.lin } }))

/-! ## Keeping what later beats need (R210, R220, R222, R231) -/

/-- The erasure table that the formula moved in for an air beat. -/
def keepErasures (lin : Nat) (s : State) : State :=
  (List.range 4).foldl (fun s c =>
    match (sqPar s).ersq.getD c none with
    | none => s
    | some a =>
      let n := ceilDiv (12 * (carrierOf s c).nprb) 8
      let t : BitVec 3276 := BitVec.ofNat 3276 (rdLe s.mem.res a n)
      { s with sq := { s.sq with er := FMap.put 0 s.sq.er (4 * lin + c) t } }) s

/-- Layers of a carrier in MODE LOCAL, RECOMBINE or ACCORD_ANCHOR, with their contexts. -/
def heartLayers (s : State) (c lin : Nat) : List (Nat × BitVec 128) :=
  ((List.range 64).map (fun l => (l, ctxBeat s c l lin))).filter (fun p => ctxUlEn p.2 && decide (ctxMode p.2 < 3))

/-- A layer's sections formed from the blocks of a kind; saturations of a combination that its top note also carried are
counted there. -/
def keepCombos (kind c l lin work : Nat) (quiet : Bool) (s : State) : List Combo × State :=
  let r := formCombos c l lin kind work s
  (r.1, if quiet then s else r.2)

/-- At the end of work beat `lin`: the combinations of air beat lin − 2, and the aggregates of the accords due. -/
def keepBeat (s : State) : State :=
  let work := s.tb.lin
  let a := work - 2
  let s := if decide (a < s.frm.startBeat) || lostUp s a then s
    else (ulCarriers s).foldl (fun s c => (heartLayers s c a).foldl (fun s p =>
      let kind := if ctxMode p.2 = 2 then blkPartial else blkCombined
      let r := keepCombos kind c p.1 a work (ctxTopnote p.2) s
      if r.1.isEmpty then r.2
      else { r.2 with sq := { r.2.sq with combos := FMap.set r.2.sq.combos (beatKey c p.1 a) r.1 } }) s) s
  s.sq.combos.foldl (fun s e =>
    let q := keyParts e.1
    let w := ctxBeat s q.1 q.2.1 q.2.2
    if ctxMode w = 2 && decide (q.2.2 + heartOffset s q.1 w = work) then
      let r := keepCombos blkAggregate q.1 q.2.1 q.2.2 work false s
      { r.2 with sq := { r.2.sq with finals := FMap.set r.2.sq.finals e.1 r.1 } }
    else s) s

/-! ## Sounding structures (R297, R298, R306) -/

/-- The cell layout of a frequency block, erased words at zero with MISS (R297). -/
def cleanBytes (er : Nat) (sub : Bool) (b : FBlock) : List Byte :=
  let cell (w : Nat) (miss : Bool) : List Byte := leBytes 6 w ++ [if miss then 1 else 0, 0]
  cell (b.e * 2 ^ 44 + (if b.miss || sub then 2 ^ 43 else 0) + b.prb) (b.miss || sub)
    ++ b.w.zipIdx.flatMap (fun p => if sub || bitN er p.2 then cell 0 true else cell (wordOf p.1) false)

/-- The receive records of a sounding beat are rewritten in place into the cell layout. -/
def cleanCopy (c lin base : Nat) (sub : Bool) (s : State) : State :=
  let nprb := (carrierOf s c).nprb
  let t := erOf s c lin
  let blocks := (List.range 256).flatMap (fun e => (List.range nprb).map (fun p =>
    let a := base + 21888 * e + 80 * p
    if regionMissing s 0 a 80 then fblockMissing p else fblockOf (rdBytes s.mem.res a 80)))
  resWrite base (blocks.zipIdx.flatMap (fun b => cleanBytes (erMask t (b.2 % nprb)) sub b.1)) s

/-- The reference of a layer at a subcarrier of a sounding beat: the value and whether there is one. -/
def soundingAt (s : State) (c lin l t : Nat) : Nat :=
  match (controlOf s c lin).find? (fun e => e.dir == 2 && e.layer == l && decide (12 * e.startPrb ≤ t)
      && decide (t < 12 * (e.startPrb + e.numPrb)) && (t - 12 * e.startPrb) % combSpacing e.comb == e.offset) with
  | some e => soundingRef s e.seq ((t - 12 * e.startPrb) / combSpacing e.comb)
  | none => 0

/-- The references of a sounding beat, at 4 bytes each. -/
def soundingRefs (c lin base : Nat) (sub : Bool) (s : State) : State :=
  let n := 12 * (carrierOf s c).nprb
  resWrite base ((List.range 64).flatMap (fun l => (List.range n).flatMap (fun t =>
    leBytes 4 (if sub then 0 else soundingAt s c lin l t)))) s

/-- Both structures of the sounding beats of air beat lin − 2. -/
def soundingWork (sub : Bool) (s : State) : State :=
  let lin := s.tb.lin - 2
  if decide (lin < s.frm.startBeat) || lostUp s lin then s
  else (ulCarriers s).foldl (fun s c =>
    match isSounding s c lin, (sqPar s).clean.getD c none with
    | true, some base =>
      let s := cleanCopy c lin base sub s
      match (sqPar s).sref.getD c none with
      | some r => soundingRefs c lin r sub s
      | none => s
    | _, _ => s) s

/-! ## Accord frames (R229, R283, R284, R385) -/

/-- The accord sections of a layer's air beat: P0 ascending. -/
def accordSections (c l lin work : Nat) (s : State) : List (AccSection × Bool) :=
  let nprb := (carrierOf s c).nprb
  let ent := ulEntries s c l lin
  let allocated (p : Nat) : Bool := ent.any (fun e => decide (e.startPrb ≤ p) && decide (p < e.startPrb + e.numPrb))
  let t := erOf s c lin
  ((List.range (ceilDiv nprb 10)).map (fun i => (10 * i, Nat.min 10 (nprb - 10 * i)))).filterMap (fun x =>
    let ps := (List.range x.2).map (x.1 + ·)
    if !ps.any allocated then none
    else
      let b := ps.map (fun p => if allocated p then blockIn s blkPartial c l p lin work else (fblockMissing p, false))
      let miss := sumN (b.zipIdx.map (fun y => if y.1.1.miss then 2 ^ y.2 else 0))
      let blocks := b.zipIdx.map (fun y =>
        let m := y.1.1.w.zipIdx.map (fun z => if bitN (erMask t (x.1 + y.2)) z.2 then ⟨0, 0⟩ else z.1)
        if y.1.1.miss then (0, List.replicate 24 0) else (y.1.1.e, m.flatMap (fun (z : Cplx) => [z.i, z.q])))
      some (⟨x.1, x.2, miss, blocks⟩, b.any (fun y => y.2)))

/-- Bytes of an accord section (R283). -/
def accordSectionBytes (x : AccSection) : List Byte :=
  beBytes 8 (x.p0 * 2 ^ 55 + x.nblk * 2 ^ 51 + x.miss * 2 ^ 41)
    ++ x.blocks.flatMap (fun b => BitVec.ofNat 8 b.1 :: b.2.flatMap (fun m => beBytes 3 (wrapN 24 m)))

/-- The accord header with a time stamp (R283). -/
def accordHeader (s : State) (w : BitVec 128) (c l nsec : Nat) (beat : Stamp) (taint : Bool) (time : Nat) : List Byte :=
  beBytes 24 (2 ^ 188 + 2 ^ 184 + (if taint then 2 ^ 183 else 0) + ctxAccord w * 2 ^ 164 + c * 2 ^ 162
    + s.nose.deviceId.toNat * 2 ^ 146 + ctxAnchor w * 2 ^ 130 + l * 2 ^ 122 + wrapN 6 (ctxAccSh w) * 2 ^ 116
    + nsec * 2 ^ 96 + beat.toNat * 2 ^ 64 + time * 2 ^ 32)

/-- Lists of at most 12 sections. -/
def chunk12 {α : Type} : Nat → List α → List (List α)
  | 0, _ => []
  | n + 1, l => if l.isEmpty then [] else l.take 12 :: chunk12 n (l.drop 12)

/-- One accord frame leaves on the port of the anchor's entry, in two copies for a twin pair; a sillage sends nothing. -/
def accordSend (w : BitVec 128) (c l lin : Nat) (secs : List (AccSection × Bool)) (s : State) : State :=
  let beat := stampOfLin lin
  let taint := secs.any (fun x => x.2)
  let body := secs.flatMap (fun x => accordSectionBytes x.1)
  match memberEntry s (ctxSlot w) (ctxAnchor w) with
  | none => s
  | some (port, macA, macB) =>
    let p := 2 + port
    let zeroed := accordHeader s w c l secs.length beat taint 0 ++ body
    let s := { s with frm := { s.frm with digested := s.frm.digested ++ [⟨3, p, beat, false, zeroed⟩] } }
    if s.nose.mode == .sillage then s
    else
      let msg := accordHeader s w c l secs.length beat taint (nowNs s).toNat ++ body
      let put (m : Mac) (s : State) : State :=
        let b := ethHead s p m.toNat 0x88B5 (portTag s p) ++ msg
        macSend p b.length (.frame p b) s
      let s := put macA s
      if macB = 0#48 then s else put macB s

/-- The partial sums of air beat lin − 2: a member sends its own, an anchor keeps its own as though they had been sent. -/
def accordWork (s : State) : State :=
  let work := s.tb.lin
  let lin := work - 2
  if decide (lin < s.frm.startBeat) || lostUp s lin then s
  else
    let all := (ulCarriers s).flatMap (fun c => ((List.range 64).map (fun l => (c, l, ctxBeat s c l lin))).filter
      (fun x => ctxUlEn x.2.2 && decide (2 ≤ ctxMode x.2.2)))
    let members := (all.filter (fun x => ctxMode x.2.2 == 3)).mergeSort
      (fun a b => decide ((ctxAnchor a.2.2 * 4 + a.1) * 64 + a.2.1 ≤ (ctxAnchor b.2.2 * 4 + b.1) * 64 + b.2.1))
    let s := members.foldl (fun s x =>
      (chunk12 28 (accordSections x.1 x.2.1 lin work s)).foldl (fun s f => accordSend x.2.2 x.1 x.2.1 lin f s) s) s
    (all.filter (fun x => ctxMode x.2.2 == 2)).foldl (fun s x =>
      (accordSections x.1 x.2.1 lin work s).foldl (fun s y =>
        fileAccord 2 (ctxSlot x.2.2) s.nose.deviceId.toNat x.1 x.2.1 (stampOfLin lin) false (ctxAccSh x.2.2) y.2 y.1 s) s) s

/-! ## The accord deadline (R232) -/

/-- The partial sums that an anchor awaits from each member of a slot for an air beat: carrier, layer, P0, PRBs. -/
def accordExpected (s : State) (slot lin : Nat) : List (Nat × Nat × Nat × Nat) :=
  (ulCarriers s).flatMap (fun c => (List.range 64).flatMap (fun l =>
    let w := ctxBeat s c l lin
    if ctxUlEn w && ctxMode w == 2 && ctxSlot w == slot then
      (accordSections c l lin (lin + 2) s).map (fun x => (c, l, x.1.p0, x.1.nblk))
    else []))

/-- An ACCORD_LATE verdict takes effect: every raw pair of the member for the air beat is zero with MISS. -/
def applyAccordLate (slot dev lin : Nat) (s : State) : State :=
  if s.fhp.late.contains (slot, dev, lin) then s
  else
    let s := (accordExpected s slot lin).foldl (fun s x =>
      let none_ : AccSection := ⟨x.2.2.1, x.2.2.2, 1023, List.replicate x.2.2.2 (0, List.replicate 24 0)⟩
      resWrite (Config.rawPairAddr slot dev x.1 x.2.1 x.2.2.1 lin) (rawRows 0 false none_) s) s
    count 0x40B slot { s with fhp := { s.fhp with late := s.fhp.late ++ [(slot, dev, lin)] } }

/-- An accord slot is closed for air beat `lin`: one verdict for every member that something is awaited from. -/
def accordClose (slot lin : Nat) (s : State) : State :=
  match FMap.find s.twn.slots slot with
  | none => s
  | some (accord, members) =>
    let want := accordExpected s slot lin
    let devs := (members.map (fun m => bits m.toNat 127 114)).mergeSort (fun a b => decide (a ≤ b))
    let have_ (dev : Nat) : Bool := want.all (fun x =>
      s.fhp.arrived.contains ⟨slot, dev, stampOfLin lin, x.1, x.2.1, x.2.2.1⟩)
    if want.isEmpty || lostUp s lin then s
    else (devs.filter (fun d => !have_ d)).foldl (fun s dev =>
      let s := makeVerdict 0x0A 0x4 (stampOfLin lin) (accord.toNat * 2 ^ 52 + dev * 2 ^ 38) s
      if s.nose.mode == .sillage then s else applyAccordLate slot dev lin s) s

/-- The ACCORD_PARTIAL deadline of a slot. In LEAD its CLOSE goes before the verdicts; a sillage closes the slot when the
lead's CLOSE arrives (R369). -/
def accordDeadline (slot : Nat) (s : State) : State :=
  match slotDeadline s slot with
  | none => s
  | some (off, cycle) =>
    let s := advanceTo cycle s
    let lin := ((s.tb.lin : Int) - off).toNat
    if s.nose.mode == .sillage then s
    else accordClose slot lin (sendTwLead 0 (.close 2 (BitVec.ofNat 8 slot) (stampOfLin lin)) s)

def execAccordPartialDeadline (slot : Fin 64) (s : State) : Host.Outcome State Fault Refusal :=
  .next (accordDeadline slot.val s)

/-! ## The beat program of SQ (R306) -/

/-- A due packet under the rule for OUTPUT 0x02. -/
def dueSubst (s : State) (d : Due) : Due :=
  match d with
  | .top c l lin n a b _ => if egressSkip s then .missing c l lin n a b false else .top c l lin n a b true
  | .heart c l lin x =>
    if egressSkip s then .missing c l lin x.n x.startPrb x.numPrb true
    else .heart c l lin (missingCombo (mantWidth (ctxMant (ctxBeat s c l lin))) x)
  | d => d

/-- SQ starts its beat program. -/
def sqBegin (s : State) : State := listDues false s

/-- SQ's beat program completes: its FIFOs have taken everything due, and the copies, references and accord frames are
written. -/
def sqComplete (s : State) : State := accordWork (soundingWork false s)

/-- Everything due has been pushed. -/
def sqDone (s : State) : Bool := (List.range 16).all (fun i => (fifoOf s i).due.isEmpty && (fifoOf s i).writing.isNone)

/-- SQ is stopped under R24, or does no budgeted work in the beat: what is due follows its substitutes. -/
def sqSubstitute (s : State) : State :=
  let s := listDues true s
  let s := (List.range 16).foldl (fun s i =>
    let r := fifoCut i s
    let s := r.1
    let f := fifoOf s i
    fifoSet i { f with due := (r.2.toList ++ f.due).map (fun e => (e.1, dueSubst s e.2)) } s) s
  soundingWork true s

end Sys2Proof.Machine
end

