-- ==== Sys2Proof/Machine/Pair.lean ====
section
/-! DEFINITION. The pair at its boundaries: entry into a role, the end of a pair, splits, takeovers with what they merge, and
the state that a rejoin carries over (R364, R367, R375 to R381). -/

namespace Sys2Proof.Machine
open Sys2Proof

/-! ## Pins and roles (R356, R364) -/

/-- `lead_sel` and `twin_lead[0]` take a level together (R356). -/
def setLead (on : Bool) (s : State) : State := { s with pins := { s.pins with leadSel := on, twinLead0 := on } }

/-- The device is in its role from this boundary on. -/
def takeRole (pairId : BitVec 16) (index role : BitVec 8) (f : Fitness) (s : State) : State :=
  { s with twn := { s.twn with
    role := role, pairId := pairId, index := index, fitness := f, cause := 0, pairing := none
    peerFit := BitVec.ofNat 8 (fitCode f), leadV := [], ownV := [], sealed_ := false, selfRuled := [], outcomes := []
    records := [], handover := none, handoverAck := false, failed := false, swapped := none
    forwarding := role == 1#8 } }

/-- A device in STANDBY starts service in a mode: its boundary is a common starting state (R54, R420). -/
def startService (m : Mode) (cause : Nat) (s : State) : State := commonStart (setMode m cause s)

/-- A lead enters LEAD: from STANDBY at a common starting state, with a FIT sillage; from SOLO without interruption, with a
sillage that is to join. -/
def enterLead (pairId : BitVec 16) (index : BitVec 8) (s : State) : State :=
  if s.nose.mode == .solo then takeRole pairId index 1 .unfit (setLead true (setMode .lead 3 s))
  else if s.nose.mode == .standby then takeRole pairId index 1 .fit (setLead true (startService .lead 3 s))
  else s

/-- A sillage enters SILLAGE from STANDBY: FIT at a cold pairing, PREPARING at a rejoin. -/
def enterSillage (pairId : BitVec 16) (index : BitVec 8) (f : Fitness) (s : State) : State :=
  if s.nose.mode == .standby then takeRole pairId index 2 f (startService .sillage 3 s) else s

/-- TWIN.PAIR takes effect at S (R364). -/
def applyTwinEnter (pairId : BitVec 16) (index role : BitVec 8) (s : State) : State :=
  if role = 0#8 then enterLead pairId index s else enterSillage pairId index .fit s

/-- TWIN.UNPAIR takes effect at S: the lead enters SOLO, the sillage STANDBY. -/
def applyUnpair (s : State) : State :=
  if s.nose.mode == .lead then setMode .solo 4 (setLead false (leavePair (refuseWaits s)))
  else if s.nose.mode == .sillage then pairToStandby 4 s
  else s

/-- After a split the device with INDEX 1 enters SILLAGE as UNFIT (R378). -/
def applySplit (s : State) : State :=
  if s.nose.mode == .lead then
    let s := refuseWaits (goUnfit 3 (setMode .sillage 6 (setLead false s)))
    tbLose { s with twn := { s.twn with role := 2, cause := 3, forwarding := false, handover := none, handoverAck := false } }
  else s

/-! ## Shadow windows (R376) -/

/-- The identity of an item is held in a window. -/
def itemHeld (s : State) (b : Stamp) (i : Item) : Bool :=
  s.sq.windows.any (fun w => w.beat == b
    && w.items.any (fun j => j.control == i.control && j.queue == i.queue && j.ident == i.ident))

/-- A shadow item that is not held is filed; a lead forwards it with MERGED set. -/
def mergeItem (w : Window) (i : Item) (s : State) : State :=
  if itemHeld s w.beat i then s
  else
    let r := fileItem false w.c w.beat i s
    if r.1 then sendTwLead 0 (.forward (BitVec.ofNat 4 i.port) true (BitVec.ofInt 36 i.stamp) i.frame) r.2 else r.2

/-- The shadow items of the chosen windows are merged, and those windows leave the shadow. -/
def mergeShadow (pick : Window → Bool) (s : State) : State :=
  let l := s.sq.shadow.filter pick
  let s := { s with sq := { s.sq with shadow := s.sq.shadow.filter (fun w => !pick w) } }
  l.foldl (fun s w => w.items.foldl (fun s i => mergeItem w i s) s) s

/-! ## Takeover at S (R375 to R377) -/

/-- EV_TWIN_TAKEOVER; ROLE is coded as in TWIN.STATUS. -/
def evTakeover (planned role : BitVec 8) (s : State) : State :=
  raiseEv 0x3D 0xC [.num 4 s.tb.beat.toNat, .num 1 planned.toNat, .num 1 role.toNat] s

/-- What the new lead's fitness makes of the takeover (R377). -/
def takeoverOutcome (was : Fitness) (join : Option Nat) (s : State) : State :=
  match was with
  | .fit => s
  | .ripening =>
    let j0 := join.getD s.tb.lin
    { s with dd := { s.dd with jobs := s.dd.jobs.map (fun j =>
      if j.lin < j0 && (j.st == .running || j.st == .done) then { j with st := .overtaken, todo := [] } else j) } }
  | _ => beginRupture s

/-- The sillage becomes the lead. After a planned takeover the old lead mirrors it; after an unplanned one no sillage
does. -/
def takeoverNew (planned : BitVec 8) (s : State) : State :=
  let was := s.twn.fitness
  let join := s.twn.joinAt
  let on := planned != 0#8
  let s := count 0xC05 0 (setMode .lead 5 (setLead true s))
  let s := { s with
    twn := { s.twn with
      role := 1, handover := none, handoverAck := false, failed := false, swapped := some (s.tb.lin, false)
      forwarding := on, fitness := if on then .fit else .unfit, cause := 0, peerFit := if on then 0 else 3
      leadV := [], ownV := [], sealed_ := false, selfRuled := [], outcomes := [], waiting := []
      rejoinAt := none, streamDone := false, joinAt := none, ripenUntil := none }
    sq := { s.sq with held := [] } }
  let s := takeoverOutcome was join (evTakeover planned 1 s)
  mergeShadow (fun _ => true) s

/-- The lead becomes the sillage, FIT, after a planned takeover; a TWIN.SWAP ends here. -/
def takeoverOld (planned : BitVec 8) (s : State) : State :=
  let s := setMode .sillage 5 (setLead false s)
  let s := { s with twn := { s.twn with
    role := 2, handover := none, handoverAck := false, failed := false, swapped := some (s.tb.lin, true)
    forwarding := false, fitness := .fit, cause := 0, leadV := [], ownV := [], sealed_ := false, selfRuled := []
    outcomes := [], rejoinAt := none, streamDone := false, joinAt := none, ripenUntil := none } }
  let s := evTakeover planned 2 s
  let b := s.tb.beat
  let s := s.nose.jobs.foldl (fun s j => match j.body with
    | .swap .. => endJob j stOk (some b) [] s
    | .pairWait .. => endJob j stTwinRefused none [] s
    | _ => s) s
  tbLose s

/-- A planned takeover is given up: a TWIN.SWAP is refused (R375). -/
def abandonHandover (s : State) : State :=
  let s := { s with twn := { s.twn with handover := none, handoverAck := false } }
  s.nose.jobs.foldl (fun s j => match j.body with
    | .swap .. => endJob j stTwinRefused none [] s
    | _ => s) s

/-- The takeover that is due at the boundary that opens, if any. -/
def takeoverAt (s : State) : State :=
  match s.twn.handover with
  | none => s
  | some (b, planned) =>
    if b ≠ s.tb.beat then s
    else if s.nose.mode == .sillage then takeoverNew planned s
    else if s.nose.mode == .lead then (if s.twn.handoverAck then takeoverOld planned s else abandonHandover s)
    else { s with twn := { s.twn with handover := none } }

/-! ## Historic state (R379) -/

/-- The historic registers: what the table "Historic state" lists and no storage region holds. -/
structure Hist where
  /-- T_A(e) and lane indexing by element (R68) -/
  lane : FMap (Int × Bool)
  /-- X with the beat of its zeroing, Y with that of its own, by element (R91, R101) -/
  pos : FMap ((BitVec 80 × Nat) × (BitVec 80 × Nat))
  /-- averages, empty flag and erasure table by carrier (R126, R128) -/
  stu : FMap (FMap (BitVec 48) × Bool × BitVec 3276)
  /-- linear and nonlinear states (R144, R148) -/
  lin : FMap SicLin
  nl : FMap SicNl
  /-- weight versions (R214) -/
  versions : FMap (List (Nat × Stamp))
  /-- SEQ of every queue (R270) -/
  seq : FMap (BitVec 8)
  /-- open notes with their resolution state, and the next note's number (R225) -/
  notes : List Note
  nextNote : Nat
deriving DecidableEq, Repr, Inhabited

/-- The register save image of a unit (R363): the manual gives its place in a STATE frame and no layout. -/
opaque saveImage : Nat → Hist → List Byte

/-- What a unit's register save image holds. -/
opaque savedHist : Nat → FMap Byte → Hist

/-- The historic registers as they stand. -/
def histOf (s : State) : Hist where
  lane := s.lnk.lanes.map (fun p => (p.1, (p.2.ta, p.2.indexed)))
  pos := s.efe.rx.map (fun p =>
    let t := txOf s p.1
    (p.1, ((p.2.x, p.2.b0), (t.y, t.b0))))
  stu := s.stu.map (fun p => (p.1, (p.2.avg, p.2.empty, p.2.er)))
  lin := s.sic.lin
  nl := s.sic.nl
  versions := s.ae.versions
  seq := s.sq.seq
  notes := s.sq.notes
  nextNote := s.sq.nextNote

/-- Units with a register save image: LNK, EFE, STU, SIC, AE, SQ. -/
def histUnits : List Nat := [0, 1, 2, 3, 4, 6]

/-- A unit takes the registers of an image. -/
def putHist (unit : Nat) (h : Hist) (s : State) : State :=
  match unit with
  | 0 => h.lane.foldl (fun s p => laneSet p.1 { laneOf s p.1 with ta := p.2.1, indexed := p.2.2 } s) s
  | 1 => h.pos.foldl (fun s p =>
      let s := rxSetE p.1 { rxOf s p.1 with x := p.2.1.1, b0 := p.2.1.2 } s
      txSetE p.1 { txOf s p.1 with y := p.2.2.1, b0 := p.2.2.2 } s) s
  | 2 => h.stu.foldl (fun s p =>
      stuSet p.1 { stuOf s p.1 with avg := p.2.1, empty := p.2.2.1, er := p.2.2.2 } s) s
  | 3 => { s with sic := { s.sic with lin := h.lin, nl := h.nl } }
  | 4 => { s with ae := { s.ae with versions := h.versions } }
  | 6 => { s with sq := { s.sq with seq := h.seq, notes := h.notes, nextNote := h.nextNote } }
  | _ => s

/-- A cell as the AE's storage region gives it, 8 bytes with its flags (R160). -/
def cellFlagBytes (c : Cell) : List Byte :=
  leBytes 6 c.word.toNat ++ [BitVec.ofNat 8 ((if c.miss then 1 else 0) + (if c.taint then 2 else 0)), 0]

/-- The stored parts of the historic state: unit, byte offset in its storage region, bytes. -/
def histRegions (s : State) : List (Nat × Nat × List Byte) :=
  let stu := (List.range 4).filterMap (fun c =>
    if (carrierOf s c).enable && (carrierOf s c).ulEn then
      let a := (stuParOf s c).erBase
      some (2, a, rdBytes s.mem.fe a (roundUp (ceilDiv (12 * (carrierOf s c).nprb) 8) 64))
    else none)
  let ae := (List.range 96).flatMap (fun k =>
    ((clEntry s k).outs.filter (fun r => r.kind == 3 || r.kind == 4)).map (fun r =>
      (4, k * 0x100000 + (if r.y then 0x40000 else 0) + 8 * r.first,
        (List.range r.count).flatMap (fun i => cellFlagBytes (cellRaw s k r.y (r.first + i))))))
  let sq := match s.frm.active.bind (fun f => f.dd) with
    | some d => [(6, d.wstore, rdBytes s.mem.res d.wstore (d.wslots * d.wslotBytes))]
    | none => []
  stu ++ ae ++ sq

/-- Bytes of a storage region in frames of at most 8,192 bytes. -/
def stateChunks : Nat → Nat → List Byte → List (Nat × List Byte)
  | 0, _, _ => []
  | n + 1, a, l => if l.isEmpty then [] else (a, l.take 8192) :: stateChunks n (a + 8192) (l.drop 8192)

/-- The historic state in STATE frames of a KIND: the stored parts, then the save images. -/
def sendHist (kind : BitVec 8) (commit : Stamp) (s : State) : State :=
  let send (u base : Nat) (l : List Byte) (s : State) : State :=
    (stateChunks (l.length + 1) base l).foldl (fun s c =>
      sendTw 0 (.state kind (BitVec.ofNat 4 u) commit (BitVec.ofNat 64 c.1) c.2) s) s
  let s := (histRegions s).foldl (fun s r => send r.1 r.2.1 r.2.2 s) s
  let h := histOf s
  histUnits.foldl (fun s u => send u (2 ^ 63) (saveImage u h) s) s

/-- A STATE frame's bytes take their place; bytes of a save image are kept until they are read. -/
def applyState (unit addr : Nat) (data : List Byte) (s : State) : State :=
  if 2 ^ 63 ≤ addr then
    let base := unit * 2 ^ 40 + (addr - 2 ^ 63)
    let m := data.zipIdx.foldl (fun m p => FMap.set m (base + p.2) p.1) s.twn.saved
    let s := { s with twn := { s.twn with saved := m } }
    let own := (m.filter (fun p => decide (p.1 / 2 ^ 40 = unit))).map (fun p => (p.1 % 2 ^ 40, p.2))
    putHist unit (savedHist unit own) s
  else if unit = 2 then feWrite addr data s
  else if unit = 6 then resWrite addr data s
  else if unit = 4 then
    (List.range (data.length / 8)).foldl (fun s i =>
      let t := aeByteCell (addr + 8 * i)
      let f := (data.getD (8 * i + 6) 0).toNat
      cellStore t.1 t.2.1 t.2.2 ⟨BitVec.ofNat 48 (leAt data (8 * i) 6), bitN f 0, bitN f 1, 0⟩ s) s
  else s

/-! ## The configuration that a rejoin sends (R380) -/

/-- Lists of at most `k` elements. -/
def chunksOf {α : Type} (k : Nat) : Nat → List α → List (List α)
  | 0, _ => []
  | n + 1, l => if l.isEmpty then [] else l.take k :: chunksOf k n (l.drop k)

/-- Every layer context, as LAYER.CONFIG commands. -/
def configLayers (s : State) : List (Nat × Act) :=
  let items := (List.range 256).map (fun k =>
    (⟨BitVec.ofNat 8 (k / 64), BitVec.ofNat 8 (k % 64), ctxOf s (k / 64) (k % 64)⟩ : LayerItem))
  (chunksOf 128 3 items).map (fun l => (0x1401, .layerConfig l))

/-- The host weights of every layer that has a version from the host, as LAYER.WEIGHTS commands. -/
def configWeights (s : State) : List (Nat × Act) :=
  (List.range 256).flatMap (fun k =>
    match FMap.find s.ae.versions (256 + k) with
    | some ((_, v) :: _) =>
      (chunksOf 3 320 (List.range (weightGroups s (k / 64)))).map (fun q =>
        (0x1402, .layerWeights (BitVec.ofNat 8 (k / 64)) (BitVec.ofNat 8 (k % 64)) (BitVec.ofNat 16 (q.headD 0))
          (q.flatMap (fun i => (List.range 256).map (fun e => FMap.get 0#32 s.ae.weights ((k * 320 + i) * 256 + e)))) v))
    | _ => [])

/-- The sounding sequences that are not zero, as SOUNDING.TABLE commands. -/
def configSounding (s : State) : List (Nat × Act) :=
  (List.range 256).flatMap (fun q =>
    let a := soundingBase + 13104 * q
    if s.mem.res.any (fun p => decide (a ≤ p.1) && decide (p.1 < a + 13104)) then
      (List.range 4).map (fun i =>
        (0x1A01, .soundingTable (BitVec.ofNat 8 q) (i == 3) (BitVec.ofNat 16 (4064 * i))
          (rdBytes s.mem.res (a + 4064 * i) (Nat.min 4064 (13104 - 4064 * i)))))
    else [])

/-- The pending image, as FORMULA.LOAD commands. -/
def configImage (s : State) : List (Nat × Act) :=
  match s.frm.pending with
  | none => []
  | some f =>
    (List.range (ceilDiv f.length 4068)).map (fun i =>
      let n := Nat.min 4068 (f.length - 4068 * i)
      (0x0401, .formulaLoad (BitVec.ofNat 32 (4068 * i)) (BitVec.ofNat 32 f.length) (4068 * i + n == f.length)
        (rdBytes s.mem.res (pendingBase s + 4068 * i) n)))

/-- The lead's configuration as commands. -/
def configActs (s : State) : List (Nat × Act) :=
  (List.range 256).map (fun e => (0x1002, .linkConfig (BitVec.ofNat 8 e) 0 (laneWord s e)))
    ++ s.twn.slots.map (fun p => (0x2A01, .accordJoin (BitVec.ofNat 8 p.1) p.2.1 p.2.2))
    ++ configLayers s ++ configWeights s
    ++ s.sq.depths.map (fun p => (0x1C01, .queueResize (BitVec.ofNat 16 p.1) (BitVec.ofNat 8 p.2)))
    ++ configSounding s ++ configImage s

/-- A command is sent to the sillage with its GO, which no ACK delays: the lead's own configuration, or the lead's word
that a rejoin or the end of the pair has been accepted. -/
def sendPair (op : Nat) (a : Act) (effect : Stamp) (s : State) : State :=
  let n := s.twn.cmdSeq
  let s := { s with twn := { s.twn with cmdSeq := n + 1 } }
  sendTw 1 (.command n (BitVec.ofNat 16 op) a true effect) (sendTw 0 (.command n (BitVec.ofNat 16 op) a false 0) s)

/-- The rejoin begins at S: in the lead the configuration, then the stream; a STANDBY peer enters SILLAGE, and a sillage
that is there already keeps its states (R380). -/
def applyRejoin (s : State) : State :=
  if s.nose.mode == .lead then
    let s := (configActs s).foldl (fun s p => sendPair p.1 p.2 s.tb.beat s) s
    let s := sendTw 0 (.state 3 0 0 0 []) (sendHist 1 0 s)
    { s with twn := { s.twn with streamDone := true } }
  else
    let pend := s.nose.sched.findSome? (fun e => match e.act with
      | .twinEnter p i r => if r = 1#8 then some (p, i) else none
      | _ => none)
    let s := match s.nose.mode, pend with
      | .standby, some (p, i) =>
        enterSillage p i .preparing { s with nose := { s.nose with sched := s.nose.sched.filter (fun e => match e.act with
          | .twinEnter .. => false
          | _ => true) } }
      | _, _ => s
    if s.nose.mode == .sillage then
      { s with twn := { s.twn with
        fitness := .preparing, cause := 0, rejoinAt := some s.tb.lin, streamDone := false, joinAt := none, ripenUntil := none
        saved := [] } }
    else s

/-- The commit log of the open beat, while a rejoin is under way in the lead (R380). -/
def sendCommitLog (s : State) : State :=
  if s.nose.mode == .lead && s.twn.streamDone && s.twn.rejoinAt.isSome && (s.twn.joinAt.any (fun j => decide (s.tb.lin < j)) || s.twn.joinAt.isNone)
  then sendHist 2 s.tb.beat s else s

/-- The join boundary of a convergence beat: the first slot boundary at or after the boundary of n_c + 16 (R380). -/
def joinOf (nc : Nat) : Nat := (nc + 16 + 13) / 14 * 14

/-- The SEAL of the open beat makes it the convergence beat where the stream is complete. -/
def converge (lin : Nat) (s : State) : State :=
  if s.twn.streamDone && s.twn.joinAt.isNone && s.twn.rejoinAt.isSome then
    { s with twn := { s.twn with joinAt := some (joinOf lin), ripenUntil := some (joinOf lin + 128) } }
  else s

/-- The join boundary and the end of ripening, in both twins (R380, R381). -/
def ripen (s : State) : State :=
  let s := if s.twn.joinAt == some s.tb.lin && s.twn.fitness == .preparing then
      let s := { s with twn := { s.twn with fitness := .ripening } }
      if s.nose.mode == .sillage then emptyStore s else s
    else s
  if s.twn.ripenUntil == some s.tb.lin then
    let joined := s.twn.fitness == .ripening
    let j := s.twn.joinAt.getD s.tb.lin
    let s := { s with twn := { s.twn with
      fitness := if joined then .fit else s.twn.fitness, rejoinAt := none, streamDone := false, joinAt := none
      ripenUntil := none, saved := [] } }
    if joined && s.nose.mode == .sillage then raiseEv 0x40 0xC [.num 4 (stampOfLin j).toNat] s else s
  else s

/-- DIGEST_R is in force: from the join boundary to the end of ripening (R381). -/
def ripening (s : State) : Bool :=
  s.twn.joinAt.any (fun j => decide (j ≤ s.tb.lin)) && s.twn.ripenUntil.any (fun e => decide (s.tb.lin < e))

end Sys2Proof.Machine
end

