-- ==== Sys2Proof/Machine/Acts.lean ====
section
/-! DEFINITION. MODE.ENTER, DOMAIN.CONFIG and the accord commands, and what every accepted effect does: checked by a sillage,
kept for its boundary, applied (R365, R383, R384, R399, R417 to R420). -/

namespace Sys2Proof.Machine
open Sys2Proof

/-! ## MODE.ENTER (R416 to R420) -/

/-- STANDBY is left for BASE at once: nothing runs, the lease is freed, the ROM firmware serves PCIe. Jobs but those of flash
and fuses end unanswered. -/
def enterBase (s : State) : State :=
  let s := if s.frm.executing then stopService s else s
  let s := evMode .standby .base 1 (baseState (captureEndAll (gatePins s)))
  let s := { s with
    nose := { s.nose with sched := [], jobs := s.nose.jobs.filter (fun j => match j.body with
      | .flash .. => true
      | .fuse .. => true
      | _ => false) }
    lnk := { s.lnk with lanes := [], align := none, trainAt := none }
    fhp := { s.fhp with ports := s.fhp.ports.map (fun p => (p.1, { p.2 with st := 0, aligned := false, hiSer := false })) }
    mem := { s.mem with change := none, entering := false }
    twn := { s.twn with up := false, pairing := none } }
  setLease none 5 s

/-- The conditions of R419, in their order. -/
def soloCheck (s : State) : Nat :=
  match s.frm.active with
  | none => stNoPending
  | some f =>
    if (jobOf 0x3004 s).isSome then stBusy
    else if f.drydown && (s.mem.st == .frozen || s.mem.st == .reset) then stUnavailable
    else if !contextsOk s f (contextsDue s) then stBadField
    else if !capacityOk s f (contextsDue s) then stCapacity
    else stOk

/-- A takeover is pending at boundary S, or a ruptive switch or a step. -/
def boundaryTaken (b : Stamp) (s : State) : Bool :=
  ruptureDueAt s b || s.twn.handover.any (fun h => h.1 == b)

/-- MODE.ENTER. -/
def modeEnter (target : BitVec 8) (b : Stamp) (s : State) : Reply × State :=
  match s.nose.mode, modeOfCode target.toNat with
  | .base, some .standby =>
    if b ≠ 0#32 then fails stBadField s
    else okWith [] { s with nose := { s.nose with resetDue := some 2 } }
  | .standby, some .base => if b ≠ 0#32 then fails stBadField s else okWith [] (enterBase s)
  | .standby, some .solo =>
    if b ≠ 0#32 then fails stBadField s
    else
      let c := soloCheck s
      if c ≠ stOk then fails c s else accept (.at (stampOfLin (slot28 s))) (.modeEnter .solo) [] id s
  | .solo, some .standby =>
    let c := checkS b s
    if c ≠ stOk then fails c s
    else if boundaryTaken b s then fails stBusy s
    else accept (.at b) (.modeEnter .standby) [] id s
  | _, _ => fails stBadField s

/-- The modes of MODE.ENTER. -/
def modesBYO : List Mode := [.base, .standby, .solo]

def execModeEnter (h : Hdr) (target : BitVec 8) (b : Stamp) (s : State) : Host.Outcome State Fault Refusal :=
  .next (serve 0x0301 h (inModes modesBYO) (modeEnter target b) s)

/-- The mode change of a MODE.ENTER at its boundary. -/
def applyModeEnter (m : Mode) (s : State) : State :=
  match s.nose.mode, m with
  | .standby, .solo => startService .solo 1 s
  | .solo, .standby => setMode .standby 1 (stopService s)
  | _, _ => s

/-! ## The domain and its accords (R383, R384) -/

/-- DOMAIN.CONFIG. -/
def domainConfig (deviceId : BitVec 16) (s : State) : Reply × State :=
  if deviceId.toNat > 16383 then fails stBadField s
  else okWith [] { s with nose := { s.nose with deviceId := BitVec.ofNat 14 deviceId.toNat } }

def execDomainConfig (h : Hdr) (deviceId : BitVec 16) (s : State) : Host.Outcome State Fault Refusal :=
  .next (serve 0x2901 h (inModes [.standby]) (domainConfig deviceId) s)

/-- The status of an ACCORD.JOIN's fields. -/
def joinStatus (slot : BitVec 8) (accord : BitVec 16) (members : List (BitVec 128)) (s : State) : Nat :=
  if slot.toNat > 63 || accord.toNat > 4095 || members.length < 2 || members.length > 64
      || members.any (fun m => bits m.toNat 111 96 != 0)
      || !members.any (fun m => bits m.toNat 127 114 == s.nose.deviceId.toNat) then stBadField
  else stOk

/-- ACCORD.JOIN. -/
def accordJoin (h : Hdr) (slot : BitVec 8) (accord : BitVec 16) (b : Stamp) (members : List (BitVec 128)) (s : State) :
    Reply × State :=
  let f := joinStatus slot accord members s
  if f ≠ stOk then fails f s
  else
    let c := checkS b s
    if c ≠ stOk then fails c s
    else acceptPair 0x2A01 h (.at b) (.accordJoin slot accord members) [] id s

def execAccordJoin (h : Hdr) (slot : BitVec 8) (accord : BitVec 16) (b : Stamp) (members : List (BitVec 128)) (s : State) :
    Host.Outcome State Fault Refusal :=
  .next (serve 0x2A01 h (leadModes modesYOL) (accordJoin h slot accord b members) s)

/-- A layer context, in force or accepted, names an accord slot. -/
def slotNamed (slot : Nat) (s : State) : Bool :=
  (contextsDue s).any (fun p => decide (2 ≤ ctxMode p.2) && ctxSlot p.2 == slot)
    || s.ae.layers.any (fun p => decide (2 ≤ ctxMode p.2) && ctxSlot p.2 == slot)

/-- The status of an ACCORD.LEAVE's fields. -/
def leaveStatus (slot : BitVec 8) (s : State) : Nat :=
  if slot.toNat > 63 || slotNamed slot.toNat s then stBadField else stOk

/-- ACCORD.LEAVE. -/
def accordLeave (h : Hdr) (slot : BitVec 8) (b : Stamp) (s : State) : Reply × State :=
  let f := leaveStatus slot s
  if f ≠ stOk then fails f s
  else
    let c := checkS b s
    if c ≠ stOk then fails c s else acceptPair 0x2A02 h (.at b) (.accordLeave slot) [] id s

def execAccordLeave (h : Hdr) (slot : BitVec 8) (b : Stamp) (s : State) : Host.Outcome State Fault Refusal :=
  .next (serve 0x2A02 h (leadModes modesYOL) (accordLeave h slot b) s)

/-! ## The effects (R365, R399) -/

/-- The sillage's own status for a command that its lead forwards. -/
def checkAct (a : Act) (s : State) : Nat :=
  match a with
  | .formulaLoad offset total final data =>
    let st := chunkStatus offset.toNat total.toNat final data.length s
    if st ≠ stOk || !final then st
    else (verifyPending (storeChunk offset.toNat total.toNat final data s)).1
  | .formulaActivate => match s.frm.pending with
    | none => stNoPending
    | some f => activateCheck f s
  | .linkConfig element scope word => linkWordStatus element.toNat scope.toNat word s
  | .layerConfig items => layerItemsStatus items s
  | .layerWeights carrier _ firstQ w _ =>
    if firstQ.toNat + ceilDiv w.length 256 > weightGroups s carrier.toNat then stBadField else stOk
  | .queueResize queue _ => if (queueOf s queue.toNat).isNone then stBadField else stOk
  | .soundingTable .. => stOk
  | .memThaw => if s.mem.st == .frozen && !s.mem.ready then stNotReady else stOk
  | .accordJoin slot accord members => joinStatus slot accord members s
  | .accordLeave slot => leaveStatus slot s
  | _ => stOk

/-- The thaw at T in this device: its own controller, or the drydown that the lead's freeze had closed (R244, R382). -/
def applyThaw (s : State) : State :=
  if s.mem.st == .frozen then memThawApply s.tb.beat s
  else if s.dd.frozenFrom.isSome then ddEmpty { s with dd := { s.dd with frozenFrom := none, firstLin := s.tb.lin - 2 } }
  else s

/-- A chunk stands in the pending slot of a sillage, which verifies the image with its last one. -/
def sillageChunk (offset total : BitVec 32) (final : Bool) (data : List Byte) (s : State) : State :=
  let s := storeChunk offset.toNat total.toNat final data s
  if final then
    let r := verifyPending s
    { r.2.2 with frm := { r.2.2.frm with load := none, pending := r.2.1 } }
  else s

/-- Time parameters take effect. A new TB_FRAME_OFFSET moves the next boundary (R312). -/
def applyTimeConfig (params : BitVec 512) (s : State) : State :=
  let old := frameOffset s
  let s := { s with tb := { s.tb with par := params } }
  if frameOffset s = old then s
  else
    let lin := linAt12 (s.tb.t40 * 12 / 2 ^ 40 - 12 * (frameOffset s : Int))
    { s with tb := { s.tb with nextT := boundaryT s (lin + 1) } }

/-- An effect applies. A step is part of its boundary, and a takeover has its own place in it. -/
def applyAct (a : Act) (s : State) : State :=
  match a with
  | .modeEnter m => applyModeEnter m s
  | .formulaLoad offset total final data => sillageChunk offset total final data s
  | .formulaActivate => if s.frm.executing && s.nose.mode != .standby then switchAt s else switchNow s
  | .linkConfig element scope word => applyLinkConfig element.toNat scope.toNat word s
  | .linkSetup lane width skew => applyLinkSetup lane width skew s
  | .sicRetrain elements carriers nl => applySicRetrain elements carriers nl s
  | .layerConfig items => applyLayerConfig items s
  | .layerWeights carrier layer firstQ w b => applyLayerWeights carrier layer firstQ w b s
  | .portConfig port word => applyPortConfig port.toNat word s
  | .soundingTable .. => s
  | .queueResize queue depth => applyQueueResize queue depth s
  | .timeConfig params => applyTimeConfig params s
  | .timeStep _ => s
  | .memThaw => applyThaw s
  | .twinEnter pairId index role => applyTwinEnter pairId index role s
  | .twinRejoin => applyRejoin s
  | .twinUnpair => applyUnpair s
  | .takeover _ => s
  | .splitYield => applySplit s
  | .accordJoin slot accord members =>
    { s with twn := { s.twn with slots := FMap.set s.twn.slots slot.toNat (accord, members) } }
  | .accordLeave slot => { s with twn := { s.twn with slots := FMap.erase s.twn.slots slot.toNat } }

/-- A command that both twins have agreed on is kept for its boundary, or applies at once. -/
def commitAct (w : When) (a : Act) (s : State) : State :=
  match a, w with
  | .soundingTable seq final offset data, .at b => stageSounding b seq final offset data s
  | .formulaActivate, .at b => schedule (.at b) a (dropActivations s)
  | .timeStep _, .at b =>
    schedule (.at b) a { s with nose := { s.nose with sched := s.nose.sched.filter (fun e => !isStep e.act) } }
  | a, .now => applyAct a s
  | a, w => schedule w a s

/-- The configuration of a rejoin applies at once in the sillage. -/
def configAct (a : Act) (s : State) : State :=
  match a with
  | .soundingTable seq final offset data =>
    let s := stageSounding s.tb.beat seq final offset data s
    if final then applySounding s.tb.beat s else s
  | a => applyAct a s

end Sys2Proof.Machine
end

