-- ==== Sys2Proof/Machine/Units.lean ====
section
/-! DEFINITION. The course of a beat: starts, completions and stops of the units' beat programs, and the close-out with the state
words, the digest record and the idle guard (R23 to R25, R49 to R52, R177 to R180, R184, R434 to R437, R456). -/

namespace Sys2Proof.Machine
open Sys2Proof

/-! ## Starts (R23) -/

/-- The instance runs its beat program. -/
def unitRunning (s : State) (u i : Nat) : Bool := s.frm.running.contains (unitKey u i)

/-- The instance has ended its beat program, completed or stopped. -/
def unitEnded (s : State) (u i : Nat) : Bool :=
  s.frm.completed.contains (unitKey u i) || s.frm.overrun.contains (unitKey u i)

/-- The budget under which FRM can start an instance in this beat. The EFE streams without one. -/
def startBudget (s : State) (u i : Nat) : Option Budget :=
  if s.frm.executing && !inRupture s && u != 1 && !isFenced s u i && !unitRunning s u i && !unitEnded s u i then
    budgetOf s u i (linSymbol s.tb.lin)
  else none

/-- A gang starts its program at FG_ENTRY. -/
def aeStart (k : Nat) (s : State) : State :=
  let entry := (clEntry s k).fgEntry
  (gangOf s k).foldl (fun s j => clSet j { clOf s j with
    fg := { ctxReset with run := true, pc := entry }, commit := [], written := [], released := [], done := false } s) s

/-- What a unit does at its START. -/
def unitBegin (u i : Nat) (s : State) : State :=
  match u with
  | 2 => stuBegin i s
  | 3 => sicBegin i s
  | 4 => aeStart i s
  | 6 => sqBegin s
  | _ => s

/-- At its START offset an instance starts its beat program. -/
def unitStart (u i : Nat) (s : State) : State :=
  match startBudget s u i with
  | none => s
  | some b =>
    let s := stuErFlush (stuCatchUp (advanceTo b.start s))
    unitBegin u i { s with frm := { s.frm with running := s.frm.running ++ [unitKey u i] } }

def execUnitStart (unit : Fin 15) (inst : Fin 96) (s : State) : Host.Outcome State Fault Refusal :=
  .next (unitStart unit.val inst.val s)

/-! ## Completion (R24, R180, R184) -/

/-- The clusters of a gang with tainted data in a range of weights or estimates that their program wrote. -/
def taintedCommit (s : State) (j : Nat) : Bool :=
  let c := clOf s j
  let kept (key : Nat) : Bool := (outRangeOf s j (decide (32768 ≤ key)) (key % 32768)).any (fun r => r.kind == 3 || r.kind == 4)
  c.commit.any (fun p => p.2.taint && kept p.1)
    || c.written.any (fun key => kept key && (cellRaw s j (decide (32768 ≤ key)) (key % 32768)).taint)

/-- The commit buffer of a cluster is written to its cells; tainted weights or estimates are reported. -/
def aeCommitOne (j : Nat) (s : State) : State :=
  let bad := taintedCommit s j && !s.ae.persist.getLsbD j
  let c := clOf s j
  let s := c.commit.foldl (fun s p => cellStore j (decide (32768 ≤ p.1)) (p.1 % 32768) p.2 s) s
  let s := clSet j { clOf s j with commit := [], written := [] } s
  if bad then
    raiseEv 0x1A 0x4 [.num 12 (2 ^ j)]
      (count 0x406 0 { s with ae := { s.ae with persist := s.ae.persist ||| BitVec.ofNat 96 (2 ^ j) } })
  else s

/-- A gang commits. -/
def aeCommit (k : Nat) (s : State) : State := (gangOf s k).foldl (fun s j => aeCommitOne j s) s

/-- The foreground of a gang has ended: the background resumes (R178). -/
def fgEnd (k : Nat) (s : State) : State :=
  (gangOf s k).foldl (fun s j => clSet j { clOf s j with fg := ctxReset, suspReq := false, suspended := false } s) s

/-- The program of an instance is at its end. -/
def programDone (s : State) (u i : Nat) : Bool :=
  match u with
  | 4 => (clOf s i).done
  | 6 => sqDone s
  | _ => true

/-- What a unit does when its program completes. A sillage holds its commits until the SEAL (R371). -/
def unitFinish (u i : Nat) (s : State) : State :=
  match u with
  | 2 => stuComplete i s
  | 3 => sicComplete i s
  | 4 => let s := fgEnd i s
         if s.nose.mode == .sillage then s else aeCommit i s
  | 6 => sqComplete s
  | _ => s

/-- An instance completes its beat program, at the latest at LIMIT. -/
def unitComplete (u i : Nat) (s : State) : State :=
  let inTime := (budgetOf s u i (linSymbol s.tb.lin)).any (fun b => decide (offsetNow s ≤ b.limit))
  if unitRunning s u i && programDone s u i && inTime then
    let k := unitKey u i
    unitFinish u i { s with frm := { s.frm with
      running := s.frm.running.filter (fun x => x != k), completed := s.frm.completed ++ [k] } }
  else s

def execUnitComplete (unit : Fin 15) (inst : Fin 96) (s : State) : Host.Outcome State Fault Refusal :=
  .next (unitComplete unit.val inst.val s)

/-! ## Stops (R24, R179) -/

/-- A cell that a stop leaves: zero with MISS. -/
def stopCell (j : Nat) (y : Bool) (cell : Nat) (s : State) : State := cellStore j y cell cellMiss s

/-- The substitutes of a cluster's output ranges: HOLD keeps the committed contents. -/
def aeSubstOne (j : Nat) (s : State) : State :=
  (clEntry s j).outs.foldl (fun s r =>
    if r.kind = 0 || heldRange s r then s
    else (List.range r.count).foldl (fun s i => stopCell j r.y (r.first + i) s) s) s

/-- The stop of one cluster (R179). -/
def aeStopOne (j : Nat) (s : State) : State :=
  let c := clOf s j
  let s := c.written.foldl (fun s key => stopCell j (decide (32768 ≤ key)) (key % 32768) s) s
  let s := clSet j { clOf s j with
    fg := ctxReset, commit := [], written := [], done := false, suspReq := false, suspended := false } s
  let s := aeSubstOne j s
  if (clEntry s j).outs.any (fun r => r.kind == 3) then dropVersions s else s

/-- FRM stops a gang. -/
def aeStop (k : Nat) (s : State) : State := (gangOf s k).foldl (fun s j => aeStopOne j s) s

/-- A stopped unit's outputs take their substitutes. -/
def unitStop (u i : Nat) (s : State) : State :=
  match u with
  | 2 => stuSubstitute i s
  | 3 => sicSubstitute i s
  | 4 => aeStop i s
  | 6 => sqSubstitute s
  | _ => s

/-- An instance that has not completed at LIMIT is stopped, with its verdict, counter and event. -/
def budgetOverrun (u i : Nat) (s : State) : State :=
  if !unitRunning s u i then s
  else
    let k := unitKey u i
    let limit := (budgetOf s u i (linSymbol s.tb.lin)).elim 65536 (fun b => b.limit)
    let s := stuErFlush (stuCatchUp (advanceTo limit s))
    let s := unitStop u i { s with frm := { s.frm with
      running := s.frm.running.filter (fun x => x != k), overrun := s.frm.overrun ++ [k] } }
    let s := makeVerdict 0x04 0x5 s.tb.beat (u * 2 ^ 60 + i * 2 ^ 52) s
    markSubst u i (raiseEv 0x09 0x5 [.num 1 u, .num 1 i] (count 0x500 0 s))

def execBudgetOverrun (unit : Fin 15) (inst : Fin 96) (s : State) : Host.Outcome State Fault Refusal :=
  .next (budgetOverrun unit.val inst.val s)

/-- Every instance still running at the latest LIMIT is stopped. -/
def stopAll (s : State) : State :=
  s.frm.running.foldl (fun s k => budgetOverrun (k / 128) (k % 128) s) s

/-- Units that fences keep from running take their substitutes in every beat (R437). -/
def fencedOutputs (s : State) : State :=
  s.frm.fences.foldl (fun s k =>
    let u := k / 128
    let i := k % 128
    match u with
    | 1 => markSubst 1 i s
    | 2 => markSubst 2 i (stuSubstitute i (stuBegin i s))
    | 3 => markSubst 3 i (sicSubstitute i s)
    | 4 => markSubst 4 i ((gangOf s i).foldl (fun s j => aeSubstOne j s) s)
    | _ => s) s

/-! ## Unit state words (R49, R435, R436, R456) -/

/-- A loopback takes the unit. -/
def inLoopback (s : State) (u : Nat) : Bool :=
  s.tst.loop.any (fun p => (loopUnits (p.1 / 256) p.2).contains u)

/-- The instance a state word of the AE stands for: the lowest member of the gang. -/
def wordInst (s : State) (u k : Nat) : Nat := if u = 4 then gangLead s k else k

/-- The formula gives the cluster a program. -/
def clusterUsed (s : State) (k : Nat) : Bool :=
  (clEntry s k).bgEn || s.frm.active.any (fun f => f.budgets.any (fun b => b.unit == 4 && b.inst == gangLead s k))

/-- The state that the Nose keeps for an instance. -/
def managedState (s : State) (u k : Nat) : UState :=
  if isFenced s u (wordInst s u k) then .fenced
  else if u = 11 && s.mem.st == .frozen then .frozen
  else if (bistTarget s).any (fun t => (bistUnits (t % 256)).contains u) then .bist
  else if inLoopback s u then .loopback
  else if inService s then
    if inRupture s && decide (1 ≤ u) && decide (u ≤ 8) then .rupture
    else if u = 4 && !clusterUsed s k then .idle
    else if s.nose.mode == .sillage then .mirror else .run
  else if s.frm.active.isSome && (u != 4 || clusterUsed s k) then .loaded
  else .idle

/-- A unit state word. -/
def publishWord (s : State) (u k : Nat) (st : UState) : BitVec 32 :=
  let key := unitKey u (wordInst s u k)
  let b (x : Bool) (i : Nat) : Nat := if x then 2 ^ i else 0
  BitVec.ofNat 32 (ustateCode st * 2 ^ 28 + b (s.frm.overrun.contains key) 27 + b (s.frm.subst.contains key) 26
    + b (u == 4 && (gangOf s (wordInst s u k)).any (fun j => s.frm.taint.contains (unitKey 4 j))) 25
    + b (!(errRecords s key).isEmpty) 24 + s.frm.slot.val * 2 ^ 23 + u * 2 ^ 16 + bits s.tb.beat.toNat 20 5)

/-- Every instance that has a word. -/
def wordList : List (Nat × Nat) := (List.range 15).flatMap (fun u => (List.range (unitInstances u)).map (fun k => (u, k)))

/-- The Nose may take this published state as its own (R435). -/
def adoptable (s : State) (u : Nat) (st : UState) : Bool := (u == 11 && st == .frozen) || (st == .rupture && inRupture s)

/-- One instance's published state meets the managed one; at 9 publications in a row that differ a STATE_SPLIT is raised. -/
def comparePublished (u k : Nat) (st : UState) (s : State) : State :=
  let key := unitKey u k
  let managed := managedState s u k
  let n := FMap.get 0 s.frm.splits key
  if st = managed || adoptable s u st then
    let s := { s with frm := { s.frm with splits := FMap.erase s.frm.splits key } }
    if 1 ≤ n ∧ n ≤ 2 then count 0xE0A 0 s else s
  else
    let s := { s with frm := { s.frm with splits := FMap.set s.frm.splits key (n + 1) } }
    if n + 1 = 9 then
      let w := (publishWord s u k st).toNat
      let m := ustateCode managed
      raiseEv 0x06 0xD [.num 1 u, .num 1 k, .num 1 m, .num 1 0, .num 4 w, .num 2 9]
        (raiseErr 0x0A u k (if fenceable u then 4 else 5) (errDetail [(4, m), (32, w), (16, 9)]) s)
    else s

/-- The state of an instance as it is published: `dev` names those that differ from the managed one. -/
def publishedState (dev : List (Fin 15 × Fin 96 × UState)) (s : State) (u k : Nat) : UState :=
  ((dev.find? (fun d => d.1.val == u && d.2.1.val == k)).map (fun d => d.2.2)).getD (managedState s u k)

/-- The snapshot is written: the generation rises by two (R456). -/
def writeWords (dev : List (Fin 15 × Fin 96 × UState)) (s : State) : State :=
  let words := wordList.foldl (fun m p => FMap.set m (unitKey p.1 p.2) (publishWord s p.1 p.2 (publishedState dev s p.1 p.2))) s.bar0.words
  { s with bar0 := { s.bar0 with words := words, snapBeat := s.tb.beat, snapGen := s.bar0.snapGen + 2 } }

/-- The verdict of the ratio, the report of dropped records, and the end of error handling at a publication. -/
def closeVerdictsOfBeat (s : State) : State :=
  let s := formRatio (endHandling s)
  if s.frm.vdropped = 0 then s else raiseEv 0x0B 0x5 [.num 4 s.frm.vdropped] s

/-- The mode has a beat grid. -/
def beatsRun (s : State) : Bool := s.tb.run && s.nose.mode != .boot && s.nose.mode != .base

/-- The states of the beat are published. -/
def publish (dev : List (Fin 15 × Fin 96 × UState)) (s : State) : State :=
  if s.frm.stage ≠ 0 || !beatsRun s then s
  else
    let s := advanceTo 65792 (stopAll s)
    let s := writeWords dev s
    let s := wordList.foldl (fun s p => comparePublished p.1 p.2 (publishedState dev s p.1 p.2) s) s
    let s := closeVerdictsOfBeat s
    updateSummary { s with frm := { s.frm with stage := 1 } }

def execUnitStatePublish (deviating : List (Fin 15 × Fin 96 × UState)) (s : State) : Host.Outcome State Fault Refusal :=
  .next (publish deviating s)

/-! ## The digest record (R51, R52, R381) -/

/-- The transmit samples of (c, e) for an air beat, zeros where the transform made none. -/
def txWords (s : State) (c e lin : Nat) : List Cplx :=
  let car := carrierOf s c
  (FMap.find (stuOf s c).tx (256 * lin + e)).elim (List.replicate (fftLen car + cpLen car lin) ⟨0, 0⟩) (fun p => p.1)

/-- Group 1: sample words and their CRC. -/
def digestTx (s : State) : Nat × Nat :=
  (List.range 4).foldl (fun (a : Nat × Nat) c =>
    let car := carrierOf s c
    if car.enable && car.dlEn then
      (List.range 256).foldl (fun (a : Nat × Nat) e =>
        let l := txWords s c e (s.tb.lin + 1)
        (a.1 + l.length, l.foldl (fun r w => crc64From r (beBytes 6 (wordOf w))) a.2)) a
    else a) (0, 0)

/-- Groups 2 and 3 in their order: packets by queue, accord frames by port. -/
def digestFrames (s : State) : List Digested :=
  let by_ (g : Nat) : List Digested :=
    (s.frm.digested.filter (fun d => d.group == g)).mergeSort (fun a b => decide (a.key ≤ b.key))
  by_ 2 ++ by_ 3

/-- The packet counts in DIGEST_R: UL_EGRESS packets of air beats before the join boundary are left out. -/
def inRipening (join : Option Nat) (d : Digested) : Bool :=
  match join with
  | some j => !(d.ul && precedes d.beat (stampOfLin j))
  | none => true

/-- The digest record and the ripening digest of the open beat. -/
def digestNow (s : State) : Digest × BitVec 64 :=
  let tx := digestTx s
  let l := digestFrames s
  let crc (l : List Digested) : BitVec 64 := BitVec.ofNat 64 (l.foldl (fun r d => crc64From r d.bytes) tx.2)
  let f := s.frm.active
  (⟨s.tb.beat, nowNs s, BitVec.ofNat 32 tx.1, BitVec.ofNat 32 (sumN (l.map (fun d => d.bytes.length))), crc l,
    f.elim 0 (fun f => f.id), f.elim 0 (fun f => f.revision)⟩,
   if ripening s then crc (l.filter (inRipening s.twn.joinAt)) else 0)

/-- The digest record is written. -/
def digestRecord (s : State) : State :=
  let s := publish [] s
  if s.frm.stage ≠ 1 then s
  else
    let s := advanceTo 66048 s
    let s := { s with frm := { s.frm with stage := 2 } }
    if !s.frm.executing then s
    else
      let d := digestNow s
      { s with
        frm := { s.frm with digest := some d.1, digested := [] }
        twn := { s.twn with records := (d :: s.twn.records).take 64 } }

def execDigestRecord (s : State) : Host.Outcome State Fault Refusal := .next (digestRecord s)

/-! ## The idle guard (R23, R370) -/

/-- The lead seals the beat, after the commit log of a rejoin. -/
def sealBeat (s : State) : State :=
  if s.nose.mode != .lead then s
  else
    let s := sendCommitLog s
    let d := (s.twn.records.headD default)
    let rip := ripening s
    let s := sendTwLead 0 (.seal d.1 (if rip then d.2 else 0) (BitVec.ofNat 14 s.frm.vcount) rip) s
    converge s.tb.lin { s with twn := { s.twn with lastBeat := s.tb.beat } }

/-- The idle guard begins: the SEAL is queued, and rings take the depth they have from the next boundary on. -/
def idleGuard (s : State) : State :=
  let s := digestRecord s
  if s.frm.stage ≠ 2 then s
  else resizeGuard (sealBeat (advanceTo 66560 { s with frm := { s.frm with stage := 3 } }))

def execIdleGuardStart (s : State) : Host.Outcome State Fault Refusal := .next (idleGuard s)

end Sys2Proof.Machine
end

