-- ==== Sys2Proof/Machine/Twin.lean ====
section
/-! DEFINITION. The twin link: the pair commands, every TW frame that arrives, and the failures of a pair (R359 to R382). -/

namespace Sys2Proof.Machine
open Sys2Proof

/-! ## HELLO (R362, R363) -/

/-- A stamp of TW: the counter in 1/16 ns modulo 2^64. -/
def twStamp (t16 : Int) : BitVec 64 := BitVec.ofInt 64 t16

/-- ROLE of a HELLO: the role held, or that of a pending TWIN.PAIR. -/
def helloRole (s : State) : BitVec 8 :=
  if s.twn.role ≠ 0#8 then s.twn.role - 1 else (s.twn.pairing.map (fun r => r - 1)).getD 0xFF

/-- The HELLO that this device sends now. -/
def helloNow (s : State) : HelloP where
  pairId := s.twn.pairId
  index := s.twn.index
  role := helloRole s
  deviceId := s.nose.deviceId.setWidth 16
  fitness := BitVec.ofNat 8 (fitCode s.twn.fitness)
  cause := s.twn.cause
  formulaId := s.frm.active.elim 0 (fun f => f.id)
  revision := s.frm.active.elim 0 (fun f => f.revision)
  imageHash := s.frm.active.elim 0 (fun f => f.hash)
  frameOffset := BitVec.ofNat 64 (frameOffset s)
  fsKsps := BitVec.ofNat 32 s.lnk.fs
  t1 := twStamp (now16 s)
  echoT1 := s.twn.hello.elim 0 (fun p => p.1.t1)
  echoT2 := s.twn.hello.elim 0 (fun p => twStamp p.2)

/-- A twin sends HELLO. -/
def helloSend (s : State) : State := if beatsRun s then sendTw 0 (.hello (helloNow s)) s else s

def execHelloSend (s : State) : Host.Outcome State Fault Refusal := .next (helloSend s)

/-- The round trips since training; the mean of the sixteen gives d_TW. -/
def addTrip (t : Int) (s : State) : State :=
  if s.twn.trips.length ≥ 16 then s
  else
    let l := s.twn.trips ++ [t]
    if l.length = 16 then
      { s with twn := { s.twn with trips := l, dTw := (roundRat (mkRat (l.foldl (· + ·) 0) 32)).toNat } }
    else { s with twn := { s.twn with trips := l } }

/-! ## Reception (R360) -/

/-- A lost frame of the lead makes a sillage UNFIT (R372). -/
def lostFrame (s : State) : State :=
  let s := count 0xC02 0 s
  if s.nose.mode == .sillage then goUnfit 2 s else s

/-- A frame comes off TW: whether it is taken, and its place in the sequence. `any` takes it whatever its PAIR_ID is. -/
def twReceive (any : Bool) (h : TwHdr) (s : State) : Bool × State :=
  if !s.twn.up || !beatsRun s then (false, s)
  else
    let gap := s.twn.rxSeq.any (fun q => q + 1 != h.seq)
    if !h.crcOk then (false, lostFrame { s with twn := { s.twn with rxSeq := s.twn.rxSeq.map (· + 1) } })
    else
      let s := { s with twn := { s.twn with rxSeq := some h.seq } }
      let s := if gap then lostFrame s else s
      let pair := s.twn.role != 0#8 || s.twn.pairing.isSome
      (any || !pair || h.pairId == s.twn.pairId, s)

/-- What a frame does, if it is taken. -/
def onFrame (any : Bool) (h : TwHdr) (f : State → State) (s : State) : State :=
  let r := twReceive any h s
  if r.1 then f r.2 else r.2

/-- The device mirrors a lead. -/
def mirrors (s : State) : Bool := s.nose.mode == .sillage

/-- HELLO arrives: the peer's data are kept, and a round trip ends. -/
def hello (h : TwHdr) (p : HelloP) (s : State) : State :=
  let fresh := p.echoT1 != 0#64 && !(s.twn.hello.any (fun q => q.1.echoT1 == p.echoT1))
  let s := { s with twn := { s.twn with hello := some (p, h.stamp) } }
  if fresh then addTrip ((twStamp h.stamp - p.echoT1).toInt - (p.t1 - p.echoT2).toInt) s else s

def execTwHello (h : TwHdr) (p : HelloP) (s : State) : Host.Outcome State Fault Refusal :=
  .next (onFrame true h (hello h p) s)

/-! ## The pair commands (R364) -/

/-- The modes of TWIN.PAIR: STANDBY, and SOLO for ROLE LEAD. -/
def pairModes (role : BitVec 8) (s : State) : Nat :=
  if s.nose.mode == .standby || (s.nose.mode == .solo && role != 1#8) then stOk else stBadMode

/-- The peer's HELLO shows what the lead asks for. -/
def helloMatches (pairId : BitVec 16) (index : BitVec 8) (s : State) : Bool :=
  let me := helloNow s
  s.twn.up && s.twn.hello.any (fun q =>
    let p := q.1
    p.pairId == pairId && p.index == 1 - index && p.role == 1#8 && p.deviceId == me.deviceId
      && p.frameOffset == me.frameOffset && p.fsKsps == me.fsKsps && p.formulaId == me.formulaId
      && p.revision == me.revision && p.imageHash == me.imageHash)

/-- An accepted TWIN.PAIR waits for its S; it replaces an earlier one. -/
def schedulePair (pairId : BitVec 16) (index role : BitVec 8) (b : Stamp) (s : State) : State :=
  let keep (e : Sched) : Bool := match e.act with
    | .twinEnter .. => false
    | _ => true
  schedule (.at b) (.twinEnter pairId index role) { s with
    nose := { s.nose with sched := s.nose.sched.filter keep }
    twn := { s.twn with pairId := pairId, index := index, pairing := some (role + 1), forwarding := role == 0#8 } }

/-- TWIN.PAIR. -/
def twinPair (pairId : BitVec 16) (index role : BitVec 8) (b : Stamp) (s : State) : Reply × State :=
  if pairId = 0#16 || index.toNat > 1 || role.toNat > 1 then fails stBadField s
  else
    let c := checkS b s
    if c ≠ stOk then fails c s
    else if role = 0#8 && !helloMatches pairId index s then fails stTwinRefused s
    else if role = 0#8 && !s.frm.active.elim true pairTimingOk then fails stBudget s
    else (.done stOk [] (some b) 0, schedulePair pairId index role b s)

def execTwinPair (h : Hdr) (pairId : BitVec 16) (index role : BitVec 8) (b : Stamp) (s : State) :
    Host.Outcome State Fault Refusal :=
  .next (serve 0x2801 h (pairModes role) (twinPair pairId index role b) s)

/-- A sillage that can rejoin: UNFIT, or a STANDBY peer that holds a pending TWIN.PAIR. -/
def canRejoin (s : State) : Bool :=
  s.twn.up && (s.twn.peerFit == 3#8 || s.twn.fitness == .unfit)
    && s.twn.hello.any (fun q => q.1.pairId == s.twn.pairId && q.1.role == 1#8 && q.1.fitness == 3#8)

/-- TWIN.REJOIN: the rejoin is under way from its acceptance (R380). -/
def twinRejoin (b : Stamp) (s : State) : Reply × State :=
  let c := checkS b s
  if c ≠ stOk then fails c s
  else if !s.frm.active.elim true pairTimingOk then fails stBudget s
  else if !canRejoin s then fails stTwinRefused s
  else
    let s := { s with twn := { s.twn with
      forwarding := true, fitness := .preparing, cause := 0, rejoinAt := some s.tb.lin, streamDone := false, joinAt := none
      ripenUntil := none } }
    (.done stOk [] (some b) 0, schedule (.at b) .twinRejoin (sendPair 0x2802 .twinRejoin b s))

def execTwinRejoin (h : Hdr) (b : Stamp) (s : State) : Host.Outcome State Fault Refusal :=
  .next (serve 0x2802 h (inModes [.lead]) (twinRejoin b) s)

/-- TWIN.SWAP begins a planned takeover, or waits for the one that is pending (R375). -/
def twinSwap (h : Hdr) (s : State) : Reply × State :=
  let s := beginHandover 1 s
  let b := (s.twn.handover.map (fun x => x.1)).getD 0
  startJob 0x2803 h (.swap b s.twn.handoverAck) s

def execTwinSwap (h : Hdr) (s : State) : Host.Outcome State Fault Refusal :=
  .next (serve 0x2803 h (inModes [.lead]) (twinSwap h) s)

/-- TWIN.UNPAIR. -/
def twinUnpair (b : Stamp) (s : State) : Reply × State :=
  let c := checkS b s
  if c ≠ stOk then fails c s
  else (.done stOk [] (some b) 0, schedule (.at b) .twinUnpair (sendPair 0x2804 .twinUnpair b s))

def execTwinUnpair (h : Hdr) (b : Stamp) (s : State) : Host.Outcome State Fault Refusal :=
  .next (serve 0x2804 h (inModes [.lead]) (twinUnpair b) s)

/-- TWIN.STATUS. -/
def twinStatus (s : State) : List Fld :=
  [.num 1 s.twn.role.toNat, .num 1 (fitCode s.twn.fitness), .num 1 s.twn.cause.toNat, .num 1 (if s.twn.up then 1 else 0),
    .num 4 s.twn.dTw, .num 4 s.twn.lastBeat.toNat, .num 4 0]
    ++ (List.range 10).map (fun i => .num 8 (counterGet s (0xC00 + i) 0))

def execTwinStatus (h : Hdr) (s : State) : Host.Outcome State Fault Refusal :=
  .next (serve 0x2805 h (inModes modesYOLM) (fun s => okWith (twinStatus s) s) s)

/-! ## Forwarded arrivals and closes (R367 to R369) -/

/-- A value modulo 2^36 of 1/16 ns as the instant nearest to now. -/
def unwrap36 (v : Nat) (s : State) : Int :=
  let n := now16 s
  let d : Int := ((v : Int) - n) % 2 ^ 36
  if d < 2 ^ 35 then n + d else n + d - 2 ^ 36

/-- The sillage files a forwarded arrival with the stamp and port it carries. -/
def forwarded (port : Nat) (stamp : BitVec 36) (bytes : List Byte) (s : State) : State :=
  if !mirrors s then s
  else
    let e := ethParts bytes
    let t := unwrap36 stamp.toNat s
    if port < 2 then
      match ecpriParse e.body with
      | some (ty, l) => if ty = 5 then s else messageArrive false port ty t l bytes s
      | none => s
    else accordFrame false port t e bytes s

def execTwForward (h : TwHdr) (port : Fin 6) (_merged : Bool) (stamp : BitVec 36) (bytes : List Byte) (s : State) :
    Host.Outcome State Fault Refusal :=
  .next (onFrame false h (forwarded port.val stamp bytes) s)

/-- The window of (c, b) and its shadow leave the sillage; an admission instant that does not follow the start of service only
drops it (R420). -/
def closeInSillage (c lin : Nat) (s : State) : State :=
  if s.sq.closed.contains (4 * lin + c) then s
  else
    let b := stampOfLin lin
    let s := if lin ≤ s.frm.startBeat + (carrierOf s c).admitBeats then freeWindow c lin b s else closeWindow c lin s
    { s with sq := { s.sq with shadow := s.sq.shadow.filter (fun w => !(w.c == c && w.beat == b)) } }

/-- CLOSE arrives: the window is closed, or the accord slot. -/
def closeArrives (kind index : BitVec 8) (beat : Stamp) (s : State) : State :=
  if !mirrors s || !stampValid beat then s
  else if kind = 1#8 && index.toNat < 4 then closeInSillage index.toNat (linNear s beat) s
  else if kind = 2#8 then accordClose index.toNat (linNear s beat) s
  else s

def execTwClose (h : TwHdr) (kind index : BitVec 8) (beat : Stamp) (s : State) : Host.Outcome State Fault Refusal :=
  .next (onFrame false h (closeArrives kind index beat) s)

/-! ## Verdicts (R48, R369, R370) -/

/-- The sillage's outcomes are held against the lead's: it is FIT or ripening. -/
def judged (s : State) : Bool := s.twn.fitness == .fit || s.twn.fitness == .ripening

/-- Own outcomes of windows and accord slots that a lead's verdict can meet: class, beat, payload. -/
def ownOutcomes (s : State) : List (BitVec 8 × Stamp × BitVec 64) :=
  (s.twn.ownV.filter (fun v => v.cls == 1#8 || v.cls == 0x0A#8)).map (fun v => (v.cls, v.beat, v.payload)) ++ s.twn.outcomes

/-- The accord slot that is joined to an accord. -/
def slotOfAccord (s : State) (accord : Nat) : Option Nat :=
  (s.twn.slots.find? (fun p => p.2.1.toNat == accord)).map (fun p => p.1)

/-- A verdict of the sillage's own making takes effect, in a self-ruled beat, or one of the lead's (R48). -/
def applyVerdict (lead : Bool) (v : Verdict) (s : State) : State :=
  let p := v.payload.toNat
  let lin := linNear s v.beat
  match v.cls.toNat with
  | 5 => setRatio lin (BitVec.ofNat 48 p) s
  | 7 =>
    if !lead then s
    else
      let e := bits p 63 56
      if bitN p 53 then
        let l := laneOf s e
        laneSet e { l with twinTa := none, aligns := l.aligns + 1, st := if l.st == .off then .off else .lost } s
      else twinAlign e (unwrap36 (bits p 35 0) s) s
  | 8 => applyDdMiss (bits p 63 62) lin s
  | 9 => if lead || s.mem.st == .frozen then ddFreeze lin s else s
  | 10 =>
    match slotOfAccord s (bits p 63 52) with
    | some slot => applyAccordLate slot (bits p 51 38) lin s
    | none => s
  | _ => s

/-- One of the lead's verdicts arrives: it is logged, met with the own outcome where it has one, and applied; a beat that was
self-ruled stands. -/
def leadVerdict (late : Bool) (v : Verdict) (s : State) : State :=
  let s := logVerdict v { s with frm := { s.frm with verdictSeq := v.seq + 1 } }
  let differs := judged s && (v.cls == 1#8 || v.cls == 0x0A#8) && !(ownOutcomes s).contains (v.cls, v.beat, v.payload)
  let s := if differs then goUnfit 4 s else s
  if late then s
  else applyVerdict true v { s with twn := { s.twn with leadV := s.twn.leadV ++ [v] } }

/-- VERDICTS arrives. -/
def verdicts (beat : Stamp) (l : List Verdict) (s : State) : State :=
  if !mirrors s then s
  else
    let late := s.twn.selfRuled.contains beat
    l.foldl (fun s v => leadVerdict late v s) s

def execTwVerdicts (h : TwHdr) (l : List Verdict) (s : State) : Host.Outcome State Fault Refusal :=
  .next (onFrame false h (verdicts h.beat l) s)

/-! ## The SEAL (R371 to R373) -/

/-- Keys of the instances that BUDGET_OVERRUN verdicts of a list name. -/
def overrunKeys (l : List Verdict) : List Nat :=
  (l.filter (fun v => v.cls == 4#8)).map (fun v => unitKey (bits v.payload.toNat 63 60) (bits v.payload.toNat 59 52))

/-- The erasure changes of carrier `c` that BLOTTER verdicts of a list name. -/
def blotterChanges (l : List Verdict) (c : Nat) : List (Nat × Nat) :=
  (l.filter (fun v => v.cls == 6#8 && bits v.payload.toNat 63 62 == c)).map (fun v =>
    (bits v.payload.toNat 61 53, bits v.payload.toNat 52 41))

/-- A completed instance is treated as stopped at LIMIT. -/
def forceStop (k : Nat) (s : State) : State :=
  let u := k / 128
  let i := k % 128
  let s := { s with frm := { s.frm with
    completed := s.frm.completed.filter (fun x => x != k), overrun := s.frm.overrun ++ [k] } }
  let s := if u = 2 then stuSet i { stuOf s i with fwd := 0, inv := 0 } s else s
  markSubst u i (unitStop u i s)

/-- A completed instance commits what it held. -/
def commitHeld (l : List Verdict) (s : State) (k : Nat) : State :=
  let i := k % 128
  match k / 128 with
  | 2 => stuCommit i s.tb.lin (blotterChanges l i) (stuPush i s)
  | 3 => sicCommit i s
  | 4 => aeCommit i s
  | _ => s

/-- Every completed instance commits, under a list of verdicts. -/
def commitAll (l : List Verdict) (s : State) : State := s.frm.completed.foldl (commitHeld l) s

/-- The fields that a SEAL compares. -/
def sameRecord (rip : Bool) (a : Digest × BitVec 64) (rec : Digest) (digestR : BitVec 64) : Bool :=
  a.1.beat == rec.beat && a.1.txWords == rec.txWords && a.1.egressBytes == rec.egressBytes
    && (if rip then a.2 == digestR else a.1.digest == rec.digest)
    && a.1.formulaId == rec.formulaId && a.1.revision == rec.revision

/-- The own record of a beat. -/
def recordOf (s : State) (b : Stamp) : Option (Digest × BitVec 64) := s.twn.records.find? (fun r => r.1.beat == b)

/-- A FIT or ripening sillage compares its record with the lead's. -/
def compareSeal (rec : Digest) (digestR : BitVec 64) (rip : Bool) (s : State) : State :=
  if !judged s then s
  else
    match recordOf s rec.beat with
    | none => s
    | some r =>
      if sameRecord rip r rec digestR then s
      else
        let own := if rip then r.2 else r.1.digest
        let lead := if rip then digestR else rec.digest
        goUnfit 1 (raiseEv 0x39 0xC [.num 8 own.toNat, .num 8 lead.toNat] (count 0xC04 0 s))

/-- The SEAL of the open beat. -/
def sealOpen (rec : Digest) (digestR : BitVec 64) (rip : Bool) (s : State) : State :=
  let s := digestRecord s
  let lead := overrunKeys s.twn.leadV
  let s := if judged s && s.frm.overrun.any (fun k => !lead.contains k) then goUnfit 3 s else s
  let late (v : Verdict) : Bool := v.cls == 0x0A#8
  let s := if judged s && (s.twn.ownV.filter late).any (fun v => !s.twn.leadV.any (fun w => late w && w.beat == v.beat && w.payload == v.payload))
    then goUnfit 4 s else s
  let s := (s.frm.completed.filter (fun k => lead.contains k)).foldl (fun s k => forceStop k s) s
  let s := freeHeld s.tb.lin (commitAll s.twn.leadV s)
  let s := compareSeal rec digestR rip { s with twn := { s.twn with sealed_ := true, lastBeat := rec.beat } }
  converge s.tb.lin s

/-- The SEAL of a beat that was self-ruled: a disagreement makes the sillage UNFIT (R372). -/
def sealLate (rec : Digest) (digestR : BitVec 64) (rip : Bool) (s : State) : State :=
  let s := { s with twn := { s.twn with selfRuled := s.twn.selfRuled.filter (fun b => b != rec.beat), lastBeat := rec.beat } }
  let s := freeHeld (linNear s rec.beat) s
  match recordOf s rec.beat with
  | some r => if !judged s || sameRecord rip r rec digestR then s else goUnfit 3 s
  | none => s

/-- SEAL arrives. -/
def sealArrives (rec : Digest) (digestR : BitVec 64) (rip : Bool) (s : State) : State :=
  if !mirrors s then s
  else if rec.beat = s.tb.beat then (if s.twn.sealed_ then s else sealOpen rec digestR rip s)
  else if s.twn.selfRuled.contains rec.beat then sealLate rec digestR rip s
  else goUnfit 5 s

def execTwSeal (h : TwHdr) (rec : Digest) (digestR : BitVec 64) (_verdicts : BitVec 14) (ripening : Bool) (s : State) :
    Host.Outcome State Fault Refusal :=
  .next (onFrame false h (sealArrives rec digestR ripening) s)

/-- The open beat ends without its SEAL: it is committed under the own outcomes and verdicts (R371). -/
def selfRule (s : State) : State :=
  if !mirrors s || s.twn.sealed_ || !s.frm.executing then s
  else
    let l := s.twn.ownV
    let s := l.foldl (fun s v => applyVerdict false v (logVerdict v s)) s
    let s := commitAll l s
    count 0xC03 0 { s with twn := { s.twn with selfRuled := (s.tb.beat :: s.twn.selfRuled).take 64 } }

/-! ## HEARTBEAT and TIME (R366, R372) -/

/-- HEARTBEAT arrives: the lead follows the sillage's fitness. -/
def heartbeat (fitness cause : BitVec 8) (s : State) : State :=
  let s := { s with twn := { s.twn with peerFit := fitness } }
  if s.nose.mode != .lead then s
  else match fitness.toNat with
    | 0 => { s with twn := { s.twn with fitness := .fit, cause := 0 } }
    | 1 => { s with twn := { s.twn with fitness := .preparing, cause := 0 } }
    | 2 => { s with twn := { s.twn with fitness := .ripening, cause := 0 } }
    | _ => if s.twn.rejoinAt.isSome && s.twn.joinAt.isNone then s else goUnfit cause.toNat s

def execTwHeartbeat (h : TwHdr) (fitness cause _role : BitVec 8) (_last : Stamp) (s : State) :
    Host.Outcome State Fault Refusal :=
  .next (onFrame false h (heartbeat fitness cause) s)

/-- TIME arrives: one value of θ for the second. -/
def timeFrame (h : TwHdr) (tTx : BitVec 64) (s : State) : State :=
  if !followsLead s then s
  else
    let d : Int := (tTx + BitVec.ofNat 64 s.twn.dTw - twStamp h.stamp).toInt
    { s with twn := { s.twn with thetas := s.twn.thetas ++ [mkRat d 16] } }

def execTwTime (h : TwHdr) (tTx : BitVec 64) (_boundary : BitVec 72) (s : State) : Host.Outcome State Fault Refusal :=
  .next (onFrame false h (timeFrame h tTx) s)

/-! ## COMMAND and ACK (R365) -/

/-- The command names a slot boundary S, which its GO must precede by more than 14 beats. -/
def namesS (a : Act) : Bool :=
  match a with
  | .formulaActivate => true
  | .layerConfig _ => true
  | .layerWeights .. => true
  | .soundingTable .. => true
  | .timeStep _ => true
  | .memThaw => true
  | .accordJoin .. => true
  | .accordLeave _ => true
  | .twinUnpair => true
  | .twinRejoin => true
  | _ => false

/-- The GO for an effect boundary arrives in time. -/
def goInTime (a : Act) (b : Stamp) (s : State) : Bool :=
  let d := beatDist s.tb.beat b
  decide (d < 36700160) && (if namesS a then decide (14 < d) else decide (0 < d))

/-- The sillage carries out a command whose GO has arrived. -/
def goCommand (a : Act) (b : Stamp) (s : State) : State :=
  match a with
  | .formulaLoad .. => applyAct a s
  | .twinRejoin =>
    if !goInTime a b s then s
    else
      let s := if mirrors s then
          { s with twn := { s.twn with
            fitness := .preparing, cause := 0, rejoinAt := some s.tb.lin, streamDone := false, joinAt := none
            ripenUntil := none } }
        else s
      schedule (.at b) .twinRejoin s
  | a =>
    if s.twn.fitness == .preparing && s.twn.rejoinAt.any (fun l => stampOfLin l == b) then configAct a s
    else if goInTime a b s then commitAct (.at b) a s else s

/-- COMMAND arrives at the sillage, or at a STANDBY peer that waits for its rejoin. -/
def commandArrives (seq : BitVec 32) (a : Act) (go : Bool) (b : Stamp) (s : State) : State :=
  if !(mirrors s || (s.nose.mode == .standby && s.twn.pairing == some 2#8)) then s
  else if go then
    match s.twn.waiting.find? (fun w => w.1 == seq) with
    | some (_, _, a) => goCommand a b { s with twn := { s.twn with waiting := s.twn.waiting.filter (fun w => w.1 != seq) } }
    | none => s
  else
    let st := checkAct a s
    let s := if st = stOk then { s with twn := { s.twn with waiting := (s.twn.waiting ++ [(seq, 0, a)]) } } else s
    sendTw 0 (.ack 1 (BitVec.ofNat 16 st) seq) s

def execTwCommand (h : TwHdr) (seq : BitVec 32) (_opcode : BitVec 16) (act : Act) (go : Bool) (effect : Stamp) (s : State) :
    Host.Outcome State Fault Refusal :=
  .next (onFrame false h (commandArrives seq act go effect) s)

/-- The boundary that the lead fixes after the ACK. -/
def fixWhen (a : Act) (w : When) (s : State) : When :=
  match a, w with
  | .queueResize .., _ => .at (stampOfLin (resizeBoundary s))
  | _, .nextSlot => .at (stampOfLin (nextSlotLin s))
  | _, .nextBeat => .at (stampOfLin (s.tb.lin + 1))
  | _, w => w

/-- The ACK came within 1 ms and before the command's cut-off. -/
def ackInTime (a : Act) (w : When) (sentAt : Int) (s : State) : Bool :=
  decide (s.tb.t40 ≤ sentAt + ms40) && (match w with
    | .at b => !namesS a || goInTime a b s
    | _ => true)

/-- The lead carries out a command that the sillage has acknowledged, and answers. -/
def leadProceeds (j : Job) (seq : BitVec 32) (a : Act) (w : When) (payload : List Fld) (s : State) : State :=
  let w := fixWhen a w s
  let b := effectStamp w s
  let s := sendTw 1 (.command seq j.opcode a true (b.getD 0)) s
  match a with
  | .formulaLoad offset total final data =>
    let s := storeChunk offset.toNat total.toNat final data s
    if final then
      { s with nose := { s.nose with jobs := s.nose.jobs.map (fun x => if x = j then { x with body := .verify } else x) } }
    else endJob j stOk none payload s
  | a => endJob j stOk b payload (commitAct w a s)

/-- The job that waits for the ACK of a command number. -/
def waitingJob (seq : BitVec 32) (s : State) : Option (Job × Act × When × Int × List Fld) :=
  s.nose.jobs.findSome? (fun j => match j.body with
    | .pairWait q a w t p => if q = seq then some (j, a, w, t, p) else none
    | _ => none)

/-- ACK arrives: of a command, or of the HANDOVER. -/
def ackArrives (kind : BitVec 8) (status : BitVec 16) (seq : BitVec 32) (s : State) : State :=
  if s.nose.mode != .lead then s
  else if kind = 1#8 then
    match waitingJob seq s with
    | none => s
    | some (j, a, w, t, p) =>
      if status = 0#16 && ackInTime a w t s then leadProceeds j seq a w p s else endJob j stTwinRefused none [] s
  else if kind = 2#8 && s.twn.handover.isSome && seq == s.twn.handoverSeq then
    if status = 0#16 then
      { s with
        twn := { s.twn with handoverAck := true }
        nose := { s.nose with jobs := s.nose.jobs.map (fun j => match j.body with
          | .swap b _ => { j with body := .swap b true }
          | _ => j) } }
    else abandonHandover s
  else s

def execTwAck (h : TwHdr) (kind : BitVec 8) (status : BitVec 16) (seq : BitVec 32) (s : State) :
    Host.Outcome State Fault Refusal :=
  .next (onFrame false h (ackArrives kind status seq) s)

/-- No ACK came within 1 ms: the oldest command that waits is refused. -/
def commandAckTimeout (s : State) : State :=
  match s.nose.jobs.find? (fun j => match j.body with
    | .pairWait .. => true
    | _ => false) with
  | some j => endJob j stTwinRefused none [] s
  | none => s

def execCommandAckTimeout (s : State) : Host.Outcome State Fault Refusal := .next (commandAckTimeout s)

/-! ## STATE and HANDOVER (R375, R380) -/

/-- STATE arrives: stream and log are applied in their order. -/
def stateArrives (kind : BitVec 8) (unit : BitVec 4) (addr : BitVec 64) (data : List Byte) (s : State) : State :=
  if !mirrors s || s.twn.fitness != .preparing then s
  else if kind = 3#8 then { s with twn := { s.twn with streamDone := true } }
  else if kind = 1#8 || kind = 2#8 then applyState unit.toNat addr.toNat data s
  else s

def execTwState (h : TwHdr) (kind : BitVec 8) (unit : BitVec 4) (_commit : Stamp) (addr : BitVec 64) (data : List Byte)
    (s : State) : Host.Outcome State Fault Refusal :=
  .next (onFrame false h (stateArrives kind unit addr data) s)

/-- HANDOVER arrives: the sillage takes S and acknowledges. -/
def handoverArrives (seq : BitVec 32) (b : Stamp) (planned : BitVec 8) (s : State) : State :=
  if !mirrors s then s
  else
    let d := beatDist s.tb.beat b
    let st := if !stampValid b || stampSymbol b != 0 then stBadField
      else if d = 0 || d ≥ 36700160 then stTooLate else stOk
    let s := if st = stOk then { s with twn := { s.twn with handover := some (b, planned), handoverAck := true } } else s
    sendTw 0 (.ack 2 (BitVec.ofNat 16 st) seq) s

def execTwHandover (h : TwHdr) (b : Stamp) (planned : BitVec 8) (s : State) : Host.Outcome State Fault Refusal :=
  .next (onFrame false h (handoverArrives h.seq b planned) s)

/-- The HANDOVER's ACK did not come within 20 µs: the lead abandons the takeover. -/
def handoverAckTimeout (s : State) : State :=
  if s.nose.mode == .lead && s.twn.handover.isSome && !s.twn.handoverAck then abandonHandover s else s

def execHandoverAckTimeout (s : State) : Host.Outcome State Fault Refusal := .next (handoverAckTimeout s)

/-! ## The link (R359) -/

/-- The link comes UP: sequence numbers and the measurement of d_TW start anew. -/
def twLinkUp (s : State) : State :=
  if s.twn.up || !beatsRun s then s
  else { s with twn := { s.twn with up := true, txSeq := 0, rxSeq := none, trips := [], hello := none } }

def execTwLinkUp (s : State) : Host.Outcome State Fault Refusal := .next (twLinkUp s)

/-- The device is in LEAD or SILLAGE. -/
def inPair (s : State) : Bool := s.nose.mode == .lead || s.nose.mode == .sillage

/-- The peer cannot be heard on TW: EV_TWIN_LINK_DOWN, and the sillage is UNFIT (R372, R374). -/
def twSilent (s : State) : State := if inPair s then goUnfit 7 (raiseEv 0x3A 0xC [] s) else s

/-- The link goes DOWN. -/
def twLinkDown (s : State) : State :=
  if !s.twn.up then s
  else twSilent (count 0xC09 0 { s with twn := { s.twn with up := false, trips := [], hello := none } })

def execTwLinkDown (s : State) : Host.Outcome State Fault Refusal := .next (twLinkDown s)

/-! ## Failures (R374, R376, R378, R380) -/

/-- The sillage declares lead failure: HOLDOVER, and an unplanned takeover unless one is pending (R382). -/
def leadFailure (s : State) : State :=
  if !mirrors s || s.twn.failed then s
  else
    let s := tbLose { s with
      pins := { s.pins with twinLead1 := false }
      twn := { s.twn with failed := true } }
    match s.twn.handover with
    | some _ => s
    | none =>
      { s with twn := { s.twn with handover := some (takeoverStamp s (s.tb.t40 + 20000 * 2 ^ 40), 0), handoverAck := true } }

def execLeadFailure (s : State) : Host.Outcome State Fault Refusal := .next (leadFailure s)

/-- The lead loses its sillage and stays LEAD. -/
def peerLost (s : State) : State := if s.nose.mode == .lead then raiseEv 0x3C 0xC [] s else s

def execPeerLost (s : State) : Host.Outcome State Fault Refusal := .next (peerLost s)

/-- A watch expires while other signals of the peer persist: TW alone is silent, or a pin contradicts TW. -/
def partialLoss (alive lead frames : Bool) (s : State) : State :=
  if !inPair s then s
  else if !frames then (if alive then twSilent s else s)
  else if mirrors s && (!alive || !lead) then
    raiseEv 0x3B 0xC [.num 1 (if alive then 0 else 1), .num 1 (if lead then 0 else 1)] s
  else s

def execPartialLoss (alive lead frames : Bool) (s : State) : Host.Outcome State Fault Refusal :=
  .next (partialLoss alive lead frames s)

/-- The open beat is the last before a takeover. -/
def takeoverNext (s : State) : Bool := s.twn.handover.any (fun h => h.1 == stampOfLin (s.tb.lin + 1))

/-- INDEX 1 yields at the next boundary. -/
def yieldNext (s : State) : Bool :=
  s.nose.sched.any (fun e => e.when == .at (stampOfLin (s.tb.lin + 1)) && (match e.act with
    | .splitYield => true
    | _ => false))

/-- At S − 2,048 ns `lead_sel` changes: of the old lead after its ACK, of the new lead, of a device that yields (R87, R378). -/
def leadSelSwitch (s : State) : State :=
  if !(takeoverNext s || yieldNext s) || !inPair s then s
  else
    let s := advanceToTime (s.tb.nextT - 2048 * 2 ^ 40) s
    if s.nose.mode == .sillage then (if takeoverNext s then setLead true s else s)
    else if yieldNext s || s.twn.handoverAck then setLead false s
    else s

def execLeadSelSwitch (s : State) : Host.Outcome State Fault Refusal := .next (leadSelSwitch s)

/-- No CLOSE came within 2,560 cycles of the boundary of an admission instant: the sillage merges its shadow items and closes
the window itself (R376). -/
def sillageWindowTimeout (c : Nat) (s : State) : State :=
  if !mirrors s || !s.frm.executing then s
  else
    let lin := s.tb.lin + (carrierOf s c).admitBeats
    let b := stampOfLin lin
    if s.sq.closed.contains (4 * lin + c) then s
    else closeInSillage c lin (mergeShadow (fun w => w.c == c && w.beat == b) (advanceTo 2560 s))

def execSillageWindowTimeout (c : Fin 4) (s : State) : Host.Outcome State Fault Refusal :=
  .next (sillageWindowTimeout c.val s)

/-- A rejoin has not converged 16 slots after its acceptance: the lead reports it, the sillage stays UNFIT (R380). -/
def rejoinTimeout (s : State) : State :=
  if s.twn.rejoinAt.isNone || s.twn.joinAt.isSome || !inPair s then s
  else
    let s := { s with twn := { s.twn with fitness := .unfit, rejoinAt := none, streamDone := false, saved := [] } }
    if s.nose.mode == .lead then raiseEv 0x3F 0xC [] s else s

def execRejoinTimeout (s : State) : Host.Outcome State Fault Refusal := .next (rejoinTimeout s)

end Sys2Proof.Machine
end

