-- ==== Sys2Proof/Machine/Beat.lean ====
section
/-! DEFINITION. The admission instants, and the boundary that closes a beat and opens the next with all that takes effect
there (R25, R40, R295, R311, R322, R399, R420). -/

namespace Sys2Proof.Machine
open Sys2Proof

/-! ## Admission instants (R40, R295, R369, R420) -/

/-- SQ closes the window of air beat `lin` on carrier `c`. One whose instant does not follow the start of service is only
dropped; a loop run makes its own control; the lead sends CLOSE first. -/
def admitClose (c lin : Nat) (s : State) : State :=
  if s.sq.closed.contains (4 * lin + c) then s
  else
    let b := stampOfLin lin
    if lin ≤ s.frm.startBeat + (carrierOf s c).admitBeats then freeWindow c lin b s
    else if !inService s then freeWindow c lin b (loopClose c lin s.frm.startBeat s)
    else closeWindow c lin (sendTwLead 0 (.close 1 (BitVec.ofNat 8 c) b) s)

/-- The admission instant of the open beat on carrier `c`: every window that is due closes, the oldest first. -/
def admissionInstant (c : Nat) (s : State) : State :=
  if !s.frm.executing || s.nose.mode == .sillage then s
  else
    let target := s.tb.lin + (carrierOf s c).admitBeats
    let older := ((s.sq.windows.filter (fun w => w.c == c)).map (fun w => linNear s w.beat)).filter (fun l => decide (l < target))
    (older.mergeSort (fun a b => decide (a ≤ b)) ++ [target]).foldl (fun s l => admitClose c l s) s

def execAdmissionInstant (c : Fin 4) (s : State) : Host.Outcome State Fault Refusal := .next (admissionInstant c.val s)

/-! ## The end of a beat -/

/-- Real-time work goes on in the open beat. -/
def working (s : State) : Bool := s.frm.executing && !inRupture s

/-- Downlink carriers whose transform made nothing in the beat give zero samples. -/
def pushUnpushed (s : State) : State :=
  (List.range 4).foldl (fun s c => if unitEnded s 2 c || isFenced s 2 c then s else stuPush c s) s

/-- What later beats need of the beat that ends is kept. -/
def endWork (s : State) : State :=
  if working s then keepBeat (keepErasures (s.tb.lin - 2) (pushUnpushed s)) else s

/-- The close-out is complete, late where the boundary came early; the cycles it was late by are the shift of the next beat
(R25). -/
def closeOut (s : State) : Nat × State :=
  let short := 66560 + s.tb.shift - s.tb.cyc
  let s := idleGuard s
  if short = 0 then (0, s)
  else (short, raiseEv 0x0A 0x5 [.num 4 short] (count 0x501 0 (advanceTo 66560 s)))

/-! ## The new beat -/

/-- Nothing has happened in the new beat yet. -/
def freshBeat (s : State) : State :=
  let own := (s.twn.ownV.filter (fun v => v.cls == 1#8 || v.cls == 0x0A#8)).map (fun v => (v.cls, v.beat, v.payload))
  { s with
    frm := { s.frm with
      running := [], completed := [], overrun := [], subst := [], taint := [], stage := 0, vcount := 0, vdropped := 0
      moving := [], moved := [] }
    ae := { s.ae with
      persist := 0
      clusters := s.ae.clusters.map (fun p => (p.1, { p.2 with
        released := [], done := false, fg := { p.2.fg with cycles := 0 }, bg := { p.2.bg with cycles := 0 } })) }
    fhp := { s.fhp with ports := s.fhp.ports.map (fun p => (p.1, { p.2 with measured := false })) }
    twn := { s.twn with leadV := [], ownV := [], sealed_ := false, outcomes := (own ++ s.twn.outcomes).take 2048 } }

/-- The linear beat number of the boundary at a time of the counter. -/
def linAtTime (t40 : Int) (s : State) : Nat := linAt12 (t40 * 12 / 2 ^ 40 - 12 * (frameOffset s : Int))

/-- The beat that opens at the boundary time, with its stamp (R311). -/
def openBeat (shift : Nat) (s : State) : State :=
  let t := s.tb.nextT
  let lin := linAtTime t s
  freshBeat { s with tb := { s.tb with
    lin := lin, beat := stampOfLin lin, openT := t, nextT := boundaryT s (lin + 1)
    cyc := ((s.tb.t40 - t) / (s.tb.inc.toNat : Int)).toNat, shift := shift } }

/-- The peer's pins as they stand at the boundary (R356). -/
def samplePins (peerLead peerAlive : Bool) (s : State) : State :=
  { s with pins := { s.pins with
    twinLead1 := peerLead, twinAlive1 := peerAlive
    aliveEdge := if peerAlive == s.pins.twinAlive1 then s.pins.aliveEdge else some s.tb.t40 } }

/-! ## A step at S (R322) -/

/-- The step accepted for the boundary that opens, if any. -/
def stepDue (s : State) : Option Int :=
  s.nose.sched.findSome? (fun e => match e.when, e.act with
    | .at b, .timeStep d => if b = s.tb.beat then some d else none
    | _, _ => none)

/-- First slot boundary at or after a time of the counter. -/
def slotFrom (t40 : Int) (s : State) : Nat :=
  let a := linAtTime t40 s / 14 * 14
  if boundaryT s a ≥ t40 then a else a + 14

/-- The step applies at S: the boundary is S′, or the beat it opens lasts until S′. S′ begins a rupture. -/
def applyStep (d : Int) (s : State) : State :=
  let u := boundary12 s.tb.lin * 16 + 12 * d
  let live := s.frm.executing && inService s
  let s := stepTime d s
  if u % 96000000 = 0 then
    let lin := linAt12 (u / 16)
    let s := { s with tb := { s.tb with
      lin := lin, beat := stampOfLin lin, openT := boundaryT s lin, nextT := boundaryT s (lin + 1) } }
    if live then beginRupture s else s
  else
    let s := { s with tb := { s.tb with nextT := boundaryT s (slotFrom s.tb.t40 s) } }
    if live then efeStop s.tb.lin (stopPrograms { s with frm := { s.frm with stepWait := true } }) else s

/-- S′ after a step that was not whole slots begins the rupture. -/
def endStepWait (s : State) : State :=
  if s.frm.stepWait then beginRupture { s with frm := { s.frm with stepWait := false } } else s

/-! ## What takes effect at the boundary (R399) -/

/-- The entry applies at the boundary that opens. -/
def dueNow (lin : Nat) (b : Stamp) (e : Sched) : Bool :=
  match e.when with
  | .at x => x == b
  | .nextSlot => isSlotBeat lin
  | .nextBeat => true
  | .now => true

/-- The entry changes the mode. -/
def isModeAct (a : Act) : Bool :=
  match a with
  | .modeEnter _ => true
  | .twinEnter .. => true
  | .twinRejoin => true
  | .twinUnpair => true
  | .splitYield => true
  | _ => false

/-- A sillage whose peer led before this boundary waits for its rejoin. -/
def awaitsRejoin (led : Bool) (a : Act) : Bool :=
  match a with
  | .twinEnter _ _ role => role == 1#8 && led
  | _ => false

/-- A switch that meets a step at the same S is part of its rupture. -/
def switchInStep (s : State) : State :=
  match s.frm.pending with
  | none => s
  | some f =>
    let s := remapQueues (s.frm.active.elim [] (fun o => o.queues)) f.queues s
    lateUpdateAll (activatePending f false s.tb.beat s)

/-- Every accepted effect that is due: steps first, then a takeover, changes of mode, the switch, the others in their order of
arrival. `led`: the peer's `twin_lead` was asserted before this boundary. -/
def applyDue (led : Bool) (s : State) : State :=
  let b := s.tb.beat
  let lin := s.tb.lin
  let due (e : Sched) : Bool := dueNow lin b e && !awaitsRejoin led e.act
  let l := s.nose.sched.filter due
  let step := stepDue s
  let s := { s with nose := { s.nose with sched := s.nose.sched.filter (fun e => !due e) } }
  let s := match step with
    | some d => applyStep d s
    | none => s
  let s := takeoverAt s
  let s := (l.filter (fun e => isModeAct e.act)).foldl (fun s e => applyAct e.act s) s
  let s := if l.any (fun e => isActivate e.act) then
      (if step.isSome && inService s then switchInStep s else applyAct .formulaActivate s)
    else s
  (l.filter (fun e => !isModeAct e.act && !isActivate e.act && !isStep e.act)).foldl (fun s e => applyAct e.act s) s

/-! ## The pair at a boundary (R356, R366, R372, R378) -/

/-- A device in LEAD that finds its peer leading at a slot boundary: a split. INDEX 1 yields at the next one. -/
def detectSplit (s : State) : State :=
  if s.nose.mode == .lead && s.pins.twinLead1 && isSlotBeat s.tb.lin then
    let s := raiseEv 0x3E 0xC [] (count 0xC06 0 s)
    if s.twn.index = 1#8 then schedule (.at (stampOfLin (nextSlotLin s))) .splitYield s else s
  else s

/-- `twin_alive[0]` toggles while FRM executes in LEAD or SILLAGE, and is low otherwise. -/
def toggleAlive (s : State) : State :=
  { s with pins := { s.pins with twinAlive0 := inPair s && s.frm.executing && !s.pins.twinAlive0 } }

/-- TIME and HEARTBEAT of the beat. `t40` is the counter at the boundary. -/
def beatFrames (t40 : Int) (s : State) : State :=
  let leads := s.nose.mode == .lead || s.twn.pairing == some 1#8
  let s := if leads then sendTw 0 (.time (twStamp (now16 s)) (BitVec.ofInt 72 t40)) s else s
  if inPair s then
    sendTw 0 (.heartbeat (BitVec.ofNat 8 (fitCode s.twn.fitness)) s.twn.cause s.twn.role s.twn.lastBeat) s
  else s

/-! ## Front ends and units at a boundary -/

/-- The boundary lies in a rupture's first eight beats. -/
def inZeroSpan (s : State) : Bool := s.frm.ruptureS.any (fun b => decide (b ≤ s.tb.lin) && decide (s.tb.lin < b + 8))

/-- A lane whose front end has run a beat since its zeroing is in service (R107, R108). -/
def settle (e : Nat) (s : State) : State :=
  let l := laneOf s e
  let r := rxOf s e
  if l.st == .aligned && r.run && r.zeroAt.isNone && decide (r.b0 < s.tb.lin) then laneSet e { l with st := .service } s else s

/-- The zeroings that are due (R107, R109), and the lanes that have settled. -/
def frontEnds (s : State) : State :=
  let held := inZeroSpan s
  (List.range 256).foldl (fun s e =>
    let s := if !held && (rxOf s e).zeroAt.any (fun z => decide (z.1 ≤ s.tb.lin)) then
        efeZero e s.tb.lin (laneOf s e).ta (lwLatRx (laneWord s e)) s
      else s
    settle e s) s

/-- Service or a loop run starts at the next boundary. -/
def startsNext (s : State) : Bool :=
  let b := stampOfLin (s.tb.lin + 1)
  s.nose.mode == .standby && (s.frm.loopRun == some (s.tb.lin + 1) || s.nose.sched.any (fun e => e.when == .at b && isModeAct e.act))

/-- The front ends are zeroed in the beat before service starts, so that they have settled at its start. -/
def prepareStart (s : State) : State :=
  if startsNext s then efeZeroAll (efeSwitch s.tb.lin s.tb.lin s) else s

/-- The stages of a rupture (R39, R109, R438). -/
def ruptureStages (s : State) : State :=
  match s.frm.ruptureS with
  | none => s
  | some b =>
    if s.tb.lin = b + 7 then
      let rx := s.efe.rx.map (fun p => (p.1, if p.2.zeroAt.any (fun z => decide (z.1 ≤ b + 7)) then { p.2 with zeroAt := none } else p.2))
      ruptureZero { s with efe := { s.efe with rx := rx } }
    else if s.tb.lin = b + 8 then releaseFences s
    else s

/-- The decisions of the start of a work beat (R214, R233, R239, R246). -/
def beginWork (s : State) : State :=
  if !working s then s
  else
    let s := jobDecisions (ddRetire s)
    (List.range 4).foldl (fun s c =>
      let lag := wlagOf s c - 2
      if s.tb.lin < s.frm.startBeat + lag then s
      else archiveBeat c (s.tb.lin - lag) (commitVersion c (s.tb.lin - lag) s)) s

/-- Instances that do no work in the beat: fenced ones, and SQ without a budget. -/
def idleUnits (s : State) : State :=
  if !working s then s
  else
    let s := fencedOutputs s
    if (budgetOf s 6 0 (linSymbol s.tb.lin)).isNone then sqSubstitute s else s

/-- What no later beat needs is forgotten. -/
def prune (s : State) : State :=
  let lin := s.tb.lin
  let near (b : Stamp) : Bool := decide (beatDist b s.tb.beat ≤ 600) || decide (beatDist s.tb.beat b ≤ 600)
  { s with
    sq := { s.sq with
      control := s.sq.control.filter (fun p => decide (lin < p.1 / 4 + 600))
      er := s.sq.er.filter (fun p => decide (lin < p.1 / 4 + 600))
      delivered := s.sq.delivered.filter (fun d => decide (lin < d.1 + 4)) }
    dd := { s.dd with jobs := s.dd.jobs.filter (fun j => j.host || j.st == .running || decide (lin < j.lin + 600)) }
    fhp := { s.fhp with
      arrived := s.fhp.arrived.filter (fun p => near p.beat)
      late := s.fhp.late.filter (fun p => decide (lin < p.2.2 + 600)) } }

/-- `beat_out` rises at the boundaries that TB_BEAT_OUT selects (R325). -/
def beatOut (s : State) : State :=
  let sel := timePar s 160 159
  let on := timePinsOn s && (sel = 0 || (sel = 1 && isSlotBeat s.tb.lin) || (sel = 2 && s.tb.lin % 280 = 0))
  if on then pulseRise .beatOut true s.tb.openT (128 * (s.tb.inc.toNat : Int)) s else s

/-- What the units do at the boundary, after every effect has applied. -/
def unitsAtBoundary (s : State) : State :=
  let s := frontEnds (ruptureStages s)
  let s := loopRunStart (prepareStart s)
  let s := applySounding s.tb.beat (fencesAtBoundary s)
  idleUnits (beginWork s)

/-- The boundary that closes the open beat and opens the next. -/
def beatBoundary (peerLead peerAlive : Bool) (s : State) : State :=
  if !beatsRun s then s
  else
    let s := advanceToTime s.tb.nextT s
    let t40 := s.tb.t40
    let r := closeOut s
    let s := endWork (selfRule r.2)
    let s := if isSlotBeat (linAtTime s.tb.nextT s) then sicSlotEnd s else s
    let led := s.pins.twinLead1
    let s := endStepWait (samplePins peerLead peerAlive (openBeat r.1 s))
    let s := ripen (detectSplit (applyDue led s))
    let s := toggleAlive (unitsAtBoundary s)
    updateSummary (beatFrames t40 (beatOut (prune s)))

def execBeatBoundary (peerLead peerAlive : Bool) (s : State) : Host.Outcome State Fault Refusal :=
  .next (beatBoundary peerLead peerAlive s)

end Sys2Proof.Machine
end

