-- ==== Sys2Proof/Machine/Ptp.lean ====
section
/-! DEFINITION. PTP on the host ports: master selection, Sync and delay exchanges, the loss of the master (R315, R316,
R318). -/

namespace Sys2Proof.Machine
open Sys2Proof

/-- The modes in which the EV256 takes part in PTP. -/
def ptpMode (s : State) : Bool := s.nose.mode == .standby || s.nose.mode == .solo || s.nose.mode == .lead

/-- The port takes part in PTP: PTP_EN and its TB_PTP_PORTS bit are set. -/
def ptpOn (s : State) (p : Nat) : Bool := ptpMode s && portPtp s p && decide (p < 2) && bitN s.tb.par.toNat (180 + p)

/-- TB_PTP_DOMAIN. -/
def ptpDomain (s : State) : Nat := timePar s 190 183

/-- A PTP message is accepted and used, or discarded and counted. -/
def ptpUse (m : PtpMsg) (use : State → State) : PtpUse := fun f s =>
  let p := f.port.val
  if ptpOn s p && m.supported && m.domain.toNat == ptpDomain s then use (count 0xA00 p s) else count 0xA01 p s

/-- PTP state of a port. -/
def ptpOf (s : State) (p : Nat) : PtpPort := s.tb.ptp.getD p ptpPortReset

/-- PTP state of a port changed. -/
def ptpSet (p : Nat) (v : PtpPort) (s : State) : State := { s with tb := { s.tb with ptp := s.tb.ptp.set p v } }

/-- Announce `a` from `ca` on port `pa` is better than `b` from `cb` on port `pb` under the alternate BMCA (R315): class,
quality, grandmaster for classes above 127, steps removed, sender, then H0. -/
def betterMaster (a : PtpAnnounce) (ca : BitVec 64) (pa : Nat) (b : PtpAnnounce) (cb : BitVec 64) (pb : Nat) : Bool :=
  let gm (x : PtpAnnounce) : Nat := if x.clockClass.toNat ≤ 127 then 0 else x.gm.toNat
  let ka := [a.clockClass.toNat, a.quality.toNat, gm a, a.steps.toNat, ca.toNat, pa]
  let kb := [b.clockClass.toNat, b.quality.toNat, gm b, b.steps.toNat, cb.toNat, pb]
  (ka.zip kb).foldr (fun p r => decide (p.1 < p.2) || (p.1 == p.2 && r)) false

/-- The port that the BMCA selects. -/
def bmcaPort (s : State) : Option (Fin 2) :=
  match (ptpOf s 0).announce, (ptpOf s 1).announce with
  | none, none => none
  | some _, none => some 0
  | none, some _ => some 1
  | some (a, ca, _), some (b, cb, _) => some (if betterMaster b cb 1 a ca 0 then 1 else 0)

/-- The selection takes effect: another grandmaster or port, or none, is a loss of the old master (R318), and exchanges
with the old one end. -/
def reselect (s : State) : State :=
  let p := bmcaPort s
  let a := p.bind (fun p => (ptpOf s p.val).announce)
  let gm := a.elim 0 (fun x => x.1.gm)
  let cls := a.elim 0 (fun x => x.1.clockClass)
  if p == s.tb.port && gm == s.tb.gm then { s with tb := { s.tb with gmClass := cls } }
  else
    let s := if s.tb.port.isSome then tbLose s else s
    { s with tb := { s.tb with
      port := p, gm := gm, gmClass := cls, values := []
      ptp := s.tb.ptp.map (fun q => { q with sync := none, req := none, exchange := none }) } }

/-- An Announce: of the senders heard on a port the best is kept. -/
def announce (f : RxFrame) (m : PtpMsg) (a : PtpAnnounce) (s : State) : State :=
  let p := f.port.val
  let v := ptpOf s p
  let keep := match v.announce with
    | some (b, cb, _) => cb == m.clockId || betterMaster a m.clockId 0 b cb 0
    | none => true
  if keep then reselect (ptpSet p { v with announce := some (a, m.clockId, rxStamp s f f.sfd) } s) else s

def execPtpAnnounce (f : RxFrame) (m : PtpMsg) (a : PtpAnnounce) (s : State) : Host.Outcome State Fault Refusal :=
  .next (frameReceive f (ptpUse m (announce f m a)) s)

/-- The message comes from the selected master on the selected port. -/
def fromMaster (p : Nat) (m : PtpMsg) (s : State) : Bool :=
  (match s.tb.port with
    | some q => q.val == p
    | none => false)
  && (match (ptpOf s p).announce with
    | some (_, c, _) => c == m.clockId
    | none => false)

/-- The values of a Sync (R316): t1, t2, its corrections, and the exchange (t3, t4, correction). -/
def syncValues (t1 t2 corr : Int) (ex : Option (Int × Int × Int)) (asym : Int) (s : State) : State :=
  match ex with
  | none => s
  | some (t3, t4, c) =>
    let mpd := mkRat ((t2 - t3) + (t4 - t1) - corr - c) 2
    let off : Rat := (t2 - t1 - corr - asym : Int) - mpd
    { s with tb := { s.tb with values := s.tb.values ++ [(off / 16, mpd / 16)] } }

/-- A Sync of the selected master: a one-step Sync gives values, a two-step Sync waits for its Follow_Up. -/
def syncMessage (f : RxFrame) (m : PtpMsg) (s : State) : State :=
  let p := f.port.val
  if !fromMaster p m s then s
  else
    let v := ptpOf s p
    let rx := rxStamp s f f.sfd
    if m.twoStep then ptpSet p { v with sync := some ⟨m.seq, rx, m.correction, v.exchange⟩ } s
    else syncValues m.time rx m.correction v.exchange v.asym s

def execPtpSync (f : RxFrame) (m : PtpMsg) (s : State) : Host.Outcome State Fault Refusal :=
  .next (frameReceive f (ptpUse m (syncMessage f m)) s)

/-- A Follow_Up completes the two-step Sync it follows. -/
def followUp (f : RxFrame) (m : PtpMsg) (s : State) : State :=
  let p := f.port.val
  let v := ptpOf s p
  match v.sync with
  | some h =>
    if fromMaster p m s && h.seq == m.seq then
      syncValues m.time h.rx (h.corr + m.correction) h.ex v.asym (ptpSet p { v with sync := none } s)
    else s
  | none => s

def execPtpFollowUp (f : RxFrame) (m : PtpMsg) (s : State) : Host.Outcome State Fault Refusal :=
  .next (frameReceive f (ptpUse m (followUp f m)) s)

/-- A Delay_Resp completes the exchange of the Delay_Req it answers. -/
def delayResp (f : RxFrame) (m : PtpMsg) (s : State) : State :=
  let p := f.port.val
  let v := ptpOf s p
  match v.req with
  | some (q, t3) =>
    if fromMaster p m s && m.forUs && q == m.seq then
      ptpSet p { v with req := none, exchange := some (t3, m.time, m.correction) } s
    else s
  | none => s

def execPtpDelayResp (f : RxFrame) (m : PtpMsg) (s : State) : Host.Outcome State Fault Refusal :=
  .next (frameReceive f (ptpUse m (delayResp f m)) s)

/-- A Delay_Req leaves on the selected port; `capture` is its raw transmit capture. -/
def delayReqSend (p : Fin 2) (capture : Int) (s : State) : State :=
  if ptpOn s p.val && s.tb.port == some p && portIsUp s p.val then
    let v := ptpOf s p.val
    macSend p.val 58 (.delayReq p.val v.nextSeq)
      (ptpSet p.val { v with req := some (v.nextSeq, txStamp s p.val capture), nextSeq := v.nextSeq + 1 } s)
  else s

def execPtpDelayReqSend (port : Fin 2) (capture : Int) (s : State) : Host.Outcome State Fault Refusal :=
  .next (delayReqSend port capture s)

/-- Three Announce intervals have passed without an Announce of the selected master: it is lost. -/
def announceTimeout (s : State) : State :=
  match s.tb.port with
  | some p => reselect (ptpSet p.val { ptpOf s p.val with announce := none } s)
  | none => s

def execAnnounceReceiptTimeout (s : State) : Host.Outcome State Fault Refusal := .next (announceTimeout s)

/-- No Sync has been accepted for 1 s: the master is lost. In SILLAGE the TIME frames stand for Sync (R366). -/
def syncTimeout (s : State) : State := tbLose s

def execSyncTimeout (s : State) : Host.Outcome State Fault Refusal := .next (syncTimeout s)

end Sys2Proof.Machine
end

