-- ==== Sys2Proof/Machine/Dispatch.lean ====
section
/-! DEFINITION. One arm per command of the table: its meaning on everything but the queue. -/

namespace Sys2Proof.Machine
open Sys2Proof

def exec (i : Instr) (s : State) : Host.Outcome State Fault Refusal :=
  match i with
  | .leaseAcquire h holder timeoutMs force => Sys2Proof.Machine.execLeaseAcquire h holder timeoutMs force s
  | .leaseRelease h => Sys2Proof.Machine.execLeaseRelease h s
  | .leaseStatus h => Sys2Proof.Machine.execLeaseStatus h s
  | .noseInfo h => Sys2Proof.Machine.execNoseInfo h s
  | .modeEnter h target stamp => Sys2Proof.Machine.execModeEnter h target stamp s
  | .modeReset h scope => Sys2Proof.Machine.execModeReset h scope s
  | .formulaLoad h offset total final data => Sys2Proof.Machine.execFormulaLoad h offset total final data s
  | .formulaActivate h stamp => Sys2Proof.Machine.execFormulaActivate h stamp s
  | .formulaStatus h => Sys2Proof.Machine.execFormulaStatus h s
  | .counterRead h counter first count => Sys2Proof.Machine.execCounterRead h counter first count s
  | .counterClear h counter first count => Sys2Proof.Machine.execCounterClear h counter first count s
  | .verdictRead h first count => Sys2Proof.Machine.execVerdictRead h first count s
  | .eventRead h first count => Sys2Proof.Machine.execEventRead h first count s
  | .eventMask h mask => Sys2Proof.Machine.execEventMask h mask s
  | .errorRead h first count => Sys2Proof.Machine.execErrorRead h first count s
  | .bootRecords h => Sys2Proof.Machine.execBootRecords h s
  | .linkAlign h t pins elements => Sys2Proof.Machine.execLinkAlign h t pins elements s
  | .linkConfig h element scope word => Sys2Proof.Machine.execLinkConfig h element scope word s
  | .linkStatus h => Sys2Proof.Machine.execLinkStatus h s
  | .linkSetup h fs lane width skew => Sys2Proof.Machine.execLinkSetup h fs lane width skew s
  | .filterRead h set first => Sys2Proof.Machine.execFilterRead h set first s
  | .sicDepth h carrier first => Sys2Proof.Machine.execSicDepth h carrier first s
  | .sicRetrain h elements carriers nl => Sys2Proof.Machine.execSicRetrain h elements carriers nl s
  | .aeStatus h => Sys2Proof.Machine.execAeStatus h s
  | .layerConfig h stamp items => Sys2Proof.Machine.execLayerConfig h stamp items s
  | .layerWeights h stamp carrier layer firstQ nq w => Sys2Proof.Machine.execLayerWeights h stamp carrier layer firstQ nq w s
  | .recombineRun h carrier mark queue first last layers => Sys2Proof.Machine.execRecombineRun h carrier mark queue first last layers s
  | .csiExport h carrier queue beat layers => Sys2Proof.Machine.execCsiExport h carrier queue beat layers s
  | .ddRewind h beat => Sys2Proof.Machine.execDdRewind h beat s
  | .ddFetch h mark queue first last => Sys2Proof.Machine.execDdFetch h mark queue first last s
  | .ddStatus h => Sys2Proof.Machine.execDdStatus h s
  | .codecRun h op reserve queue count src dst dstBytes => Sys2Proof.Machine.execCodecRun h op reserve queue count src dst dstBytes s
  | .portConfig h port word => Sys2Proof.Machine.execPortConfig h port word s
  | .portStatus h => Sys2Proof.Machine.execPortStatus h s
  | .soundingTable h stamp seq final offset data => Sys2Proof.Machine.execSoundingTable h stamp seq final offset data s
  | .sqStatus h => Sys2Proof.Machine.execSqStatus h s
  | .queueResize h queue depth => Sys2Proof.Machine.execQueueResize h queue depth s
  | .timeConfig h params => Sys2Proof.Machine.execTimeConfig h params s
  | .timeStep h stamp sixteenths ns seconds => Sys2Proof.Machine.execTimeStep h stamp sixteenths ns seconds s
  | .timeAsymmetry h port a => Sys2Proof.Machine.execTimeAsymmetry h port a s
  | .timeStatus h => Sys2Proof.Machine.execTimeStatus h s
  | .triggerArm h pin pol count width t period => Sys2Proof.Machine.execTriggerArm h pin pol count width t period s
  | .triggerDisarm h pin => Sys2Proof.Machine.execTriggerDisarm h pin s
  | .memConfig h regions params => Sys2Proof.Machine.execMemConfig h regions params s
  | .memStatus h => Sys2Proof.Machine.execMemStatus h s
  | .memDiag h => Sys2Proof.Machine.execMemDiag h s
  | .memFreeze h => Sys2Proof.Machine.execMemFreeze h s
  | .memRestore h => Sys2Proof.Machine.execMemRestore h s
  | .memThaw h t => Sys2Proof.Machine.execMemThaw h t s
  | .memRead h addr length => Sys2Proof.Machine.execMemRead h addr length s
  | .memWrite h addr length data => Sys2Proof.Machine.execMemWrite h addr length data s
  | .twinPair h pairId index role stamp => Sys2Proof.Machine.execTwinPair h pairId index role stamp s
  | .twinRejoin h stamp => Sys2Proof.Machine.execTwinRejoin h stamp s
  | .twinSwap h => Sys2Proof.Machine.execTwinSwap h s
  | .twinUnpair h stamp => Sys2Proof.Machine.execTwinUnpair h stamp s
  | .twinStatus h => Sys2Proof.Machine.execTwinStatus h s
  | .domainConfig h deviceId => Sys2Proof.Machine.execDomainConfig h deviceId s
  | .accordJoin h slot accord stamp members => Sys2Proof.Machine.execAccordJoin h slot accord stamp members s
  | .accordLeave h slot stamp => Sys2Proof.Machine.execAccordLeave h slot stamp s
  | .loopbackSet h path depth mask => Sys2Proof.Machine.execLoopbackSet h path depth mask s
  | .captureStart h point index dest t words offset => Sys2Proof.Machine.execCaptureStart h point index dest t words offset s
  | .captureStop h point index => Sys2Proof.Machine.execCaptureStop h point index s
  | .bistRun h target => Sys2Proof.Machine.execBistRun h target s
  | .flashWrite h offset erase data => Sys2Proof.Machine.execFlashWrite h offset erase data s
  | .flashRead h offset length => Sys2Proof.Machine.execFlashRead h offset length s
  | .fuseRead h region => Sys2Proof.Machine.execFuseRead h region s
  | .fuseProgram h region bit count bits => Sys2Proof.Machine.execFuseProgram h region bit count bits s
  | .fuseBitProgram ok => Sys2Proof.Machine.execFuseBitProgram ok s
  | .formulaVerifyComplete => Sys2Proof.Machine.execFormulaVerifyComplete s
  | .hostJobComplete opcode => Sys2Proof.Machine.execHostJobComplete opcode s
  | .memRestoreComplete eyes8 eyesS => Sys2Proof.Machine.execMemRestoreComplete eyes8 eyesS s
  | .bistComplete fails eyes8 eyesS => Sys2Proof.Machine.execBistComplete fails eyes8 eyesS s
  | .flashWriteComplete => Sys2Proof.Machine.execFlashWriteComplete s
  | .nop k bg w => Sys2Proof.Machine.execNop k bg w s
  | .mac k bg w => Sys2Proof.Machine.execMac k bg w s
  | .tap k bg w => Sys2Proof.Machine.execTap k bg w s
  | .adds k bg w => Sys2Proof.Machine.execAdds k bg w s
  | .addr k bg w => Sys2Proof.Machine.execAddr k bg w s
  | .adda k bg w => Sys2Proof.Machine.execAdda k bg w s
  | .gxa k bg w => Sys2Proof.Machine.execGxa k bg w s
  | .exp k bg w => Sys2Proof.Machine.execExp k bg w s
  | .norm k bg w => Sys2Proof.Machine.execNorm k bg w s
  | .ash k bg w => Sys2Proof.Machine.execAsh k bg w s
  | .rcps k bg w => Sys2Proof.Machine.execRcps k bg w s
  | .rsqs k bg w => Sys2Proof.Machine.execRsqs k bg w s
  | .rdw k bg w => Sys2Proof.Machine.execRdw k bg w s
  | .rdc k bg w => Sys2Proof.Machine.execRdc k bg w s
  | .rdb k bg w => Sys2Proof.Machine.execRdb k bg w s
  | .rdr k bg w => Sys2Proof.Machine.execRdr k bg w s
  | .mov k bg w => Sys2Proof.Machine.execMov k bg w s
  | .unpk k bg w => Sys2Proof.Machine.execUnpk k bg w s
  | .zero k bg w => Sys2Proof.Machine.execZero k bg w s
  | .setp k bg w => Sys2Proof.Machine.execSetp k bg w s
  | .addp k bg w => Sys2Proof.Machine.execAddp k bg w s
  | .movp k bg w => Sys2Proof.Machine.execMovp k bg w s
  | .rep k bg w => Sys2Proof.Machine.execRep k bg w s
  | .loop k bg w => Sys2Proof.Machine.execLoop k bg w s
  | .jmp k bg w => Sys2Proof.Machine.execJmp k bg w s
  | .rel k bg w => Sys2Proof.Machine.execRel k bg w s
  | .jwait k bg w => Sys2Proof.Machine.execJwait k bg w s
  | .jdone k bg w => Sys2Proof.Machine.execJdone k bg w s
  | .endProg k bg w => Sys2Proof.Machine.execEndProg k bg w s
  | .jobPartPlaced k => Sys2Proof.Machine.execJobPartPlaced k s
  | .bgSuspendRequest k => Sys2Proof.Machine.execBgSuspendRequest k s
  | .bgSuspend k => Sys2Proof.Machine.execBgSuspend k s
  | .beatBoundary peerLead peerAlive => Sys2Proof.Machine.execBeatBoundary peerLead peerAlive s
  | .unitStart unit inst => Sys2Proof.Machine.execUnitStart unit inst s
  | .unitComplete unit inst => Sys2Proof.Machine.execUnitComplete unit inst s
  | .budgetOverrun unit inst => Sys2Proof.Machine.execBudgetOverrun unit inst s
  | .unitStatePublish deviating => Sys2Proof.Machine.execUnitStatePublish deviating s
  | .digestRecord => Sys2Proof.Machine.execDigestRecord s
  | .idleGuardStart => Sys2Proof.Machine.execIdleGuardStart s
  | .moveStart idx => Sys2Proof.Machine.execMoveStart idx s
  | .moveEnd idx => Sys2Proof.Machine.execMoveEnd idx s
  | .admissionInstant c => Sys2Proof.Machine.execAdmissionInstant c s
  | .ddReadDeadline c => Sys2Proof.Machine.execDdReadDeadline c s
  | .accordPartialDeadline slot => Sys2Proof.Machine.execAccordPartialDeadline slot s
  | .recombineDeadline c => Sys2Proof.Machine.execRecombineDeadline c s
  | .laneMultiblock e samples badHeaders crcOk => Sys2Proof.Machine.execLaneMultiblock e samples badHeaders crcOk s
  | .embBoundary e stamp inPlace => Sys2Proof.Machine.execEmbBoundary e stamp inPlace s
  | .laneBlockLock e => Sys2Proof.Machine.execLaneBlockLock e s
  | .laneEmbLock e => Sys2Proof.Machine.execLaneEmbLock e s
  | .laneTrainTimeout => Sys2Proof.Machine.execLaneTrainTimeout s
  | .laneRateFault e ppm => Sys2Proof.Machine.execLaneRateFault e ppm s
  | .laneCdrLoss e => Sys2Proof.Machine.execLaneCdrLoss e s
  | .elasticBufferSlip e => Sys2Proof.Machine.execElasticBufferSlip e s
  | .alignPulse => Sys2Proof.Machine.execAlignPulse s
  | .macFrameReject f => Sys2Proof.Machine.execMacFrameReject f s
  | .ecpriIqSection f => Sys2Proof.Machine.execEcpriIqSection f s
  | .ecpriRtControl f => Sys2Proof.Machine.execEcpriRtControl f s
  | .ecpriDelayMeasurement f => Sys2Proof.Machine.execEcpriDelayMeasurement f s
  | .ptpAnnounce f m a => Sys2Proof.Machine.execPtpAnnounce f m a s
  | .ptpSync f m => Sys2Proof.Machine.execPtpSync f m s
  | .ptpFollowUp f m => Sys2Proof.Machine.execPtpFollowUp f m s
  | .ptpDelayResp f m => Sys2Proof.Machine.execPtpDelayResp f m s
  | .ptpDelayReqSend port capture => Sys2Proof.Machine.execPtpDelayReqSend port capture s
  | .announceReceiptTimeout => Sys2Proof.Machine.execAnnounceReceiptTimeout s
  | .syncTimeout => Sys2Proof.Machine.execSyncTimeout s
  | .managementFrame f => Sys2Proof.Machine.execManagementFrame f s
  | .accordExchangeFrame f => Sys2Proof.Machine.execAccordExchangeFrame f s
  | .portUp port => Sys2Proof.Machine.execPortUp port s
  | .portDown port hiSer => Sys2Proof.Machine.execPortDown port hiSer s
  | .macTxPop queue => Sys2Proof.Machine.execMacTxPop queue s
  | .macTxDone port => Sys2Proof.Machine.execMacTxDone port s
  | .egressStagePush fifo => Sys2Proof.Machine.execEgressStagePush fifo s
  | .egressFifoDrain fifo => Sys2Proof.Machine.execEgressFifoDrain fifo s
  | .ddGroupEncode c g => Sys2Proof.Machine.execDdGroupEncode c g s
  | .hbmRequest port write addr data => Sys2Proof.Machine.execHbmRequest port write addr data s
  | .hbmReadReturn pc syndrome uncorrectable => Sys2Proof.Machine.execHbmReadReturn pc syndrome uncorrectable s
  | .stackErrorReport parity pc => Sys2Proof.Machine.execStackErrorReport parity pc s
  | .stackCatastrophicTemp => Sys2Proof.Machine.execStackCatastrophicTemp s
  | .refreshInterval pc => Sys2Proof.Machine.execRefreshInterval pc s
  | .activateTableClear => Sys2Proof.Machine.execActivateTableClear s
  | .pageTimeout pc bank => Sys2Proof.Machine.execPageTimeout pc bank s
  | .idleSelfRefresh => Sys2Proof.Machine.execIdleSelfRefresh s
  | .hbmFreqChangeDone => Sys2Proof.Machine.execHbmFreqChangeDone s
  | .reservoirScrub => Sys2Proof.Machine.execReservoirScrub s
  | .twHello h p => Sys2Proof.Machine.execTwHello h p s
  | .helloSend => Sys2Proof.Machine.execHelloSend s
  | .twForward h port merged stamp bytes => Sys2Proof.Machine.execTwForward h port merged stamp bytes s
  | .twClose h kind index beat => Sys2Proof.Machine.execTwClose h kind index beat s
  | .twVerdicts h l => Sys2Proof.Machine.execTwVerdicts h l s
  | .twSeal h rec digestR verdicts ripening => Sys2Proof.Machine.execTwSeal h rec digestR verdicts ripening s
  | .twHeartbeat h fitness cause role last => Sys2Proof.Machine.execTwHeartbeat h fitness cause role last s
  | .twTime h tTx boundary => Sys2Proof.Machine.execTwTime h tTx boundary s
  | .twCommand h seq opcode act go effect => Sys2Proof.Machine.execTwCommand h seq opcode act go effect s
  | .twAck h kind status seq => Sys2Proof.Machine.execTwAck h kind status seq s
  | .twState h kind unit commit addr data => Sys2Proof.Machine.execTwState h kind unit commit addr data s
  | .twHandover h stamp planned => Sys2Proof.Machine.execTwHandover h stamp planned s
  | .twLinkUp => Sys2Proof.Machine.execTwLinkUp s
  | .twLinkDown => Sys2Proof.Machine.execTwLinkDown s
  | .commandAckTimeout => Sys2Proof.Machine.execCommandAckTimeout s
  | .handoverAckTimeout => Sys2Proof.Machine.execHandoverAckTimeout s
  | .leadFailure => Sys2Proof.Machine.execLeadFailure s
  | .peerLost => Sys2Proof.Machine.execPeerLost s
  | .leadSelSwitch => Sys2Proof.Machine.execLeadSelSwitch s
  | .sillageWindowTimeout c => Sys2Proof.Machine.execSillageWindowTimeout c s
  | .rejoinTimeout => Sys2Proof.Machine.execRejoinTimeout s
  | .deadManGate => Sys2Proof.Machine.execDeadManGate s
  | .secondClose => Sys2Proof.Machine.execSecondClose s
  | .holdoverLimit => Sys2Proof.Machine.execHoldoverLimit s
  | .triggerPulse pin => Sys2Proof.Machine.execTriggerPulse pin s
  | .cmdDoorbell index heads => Sys2Proof.Machine.execCmdDoorbell index heads s
  | .rspConsumeWrite index => Sys2Proof.Machine.execRspConsumeWrite index s
  | .evtConsumeWrite index => Sys2Proof.Machine.execEvtConsumeWrite index s
  | .nosStatusClear value => Sys2Proof.Machine.execNosStatusClear value s
  | .errStickyClear value => Sys2Proof.Machine.execErrStickyClear value s
  | .snapshotTake value => Sys2Proof.Machine.execSnapshotTake value s
  | .capturePop ch value => Sys2Proof.Machine.execCapturePop ch value s
  | .bar0Write offset size value => Sys2Proof.Machine.execBar0Write offset size value s
  | .msixMessage vector => Sys2Proof.Machine.execMsixMessage vector s
  | .leaseExpiry => Sys2Proof.Machine.execLeaseExpiry s
  | .leaseRegisterUpdate => Sys2Proof.Machine.execLeaseRegisterUpdate s
  | .captureBegin ch => Sys2Proof.Machine.execCaptureBegin ch s
  | .captureWord ch word => Sys2Proof.Machine.execCaptureWord ch word s
  | .powerOnReset => Sys2Proof.Machine.execPowerOnReset s
  | .porRelease run => Sys2Proof.Machine.execPorRelease run s
  | .startWatchdog elapsedMs => Sys2Proof.Machine.execStartWatchdog elapsedMs s
  | .warmReset => Sys2Proof.Machine.execWarmReset s
  | .noseFirmwareFault => Sys2Proof.Machine.execNoseFirmwareFault s
  | .supplyUndervoltage rail => Sys2Proof.Machine.execSupplyUndervoltage rail s
  | .evThermal sensor temp => Sys2Proof.Machine.execEvThermal sensor temp s
  | .thermtrip sensor temp => Sys2Proof.Machine.execThermtrip sensor temp s
  | .hbmCommandIssue pc => Sys2Proof.Machine.execHbmCommandIssue pc s
  | .txExtendedMultiblock e => Sys2Proof.Machine.execTxExtendedMultiblock e s
  | .alignmentFailure => Sys2Proof.Machine.execAlignmentFailure s
  | .partialLoss alive lead frames => Sys2Proof.Machine.execPartialLoss alive lead frames s
  | .timeOutputPulseEnd pin => Sys2Proof.Machine.execTimeOutputPulseEnd pin s
  | .captureFifoDrain ch => Sys2Proof.Machine.execCaptureFifoDrain ch s
  | .loopbackUnitChecked path item ok => Sys2Proof.Machine.execLoopbackUnitChecked path item ok s

end Sys2Proof.Machine
end

