-- ==== Sys2Proof/Safety.lean ====
section
/-! DEFINITION. What a safe state is, and the words the statements about the block are made of. -/

namespace Sys2Proof.Machine
open Sys2Proof

/-- The legal states of the block: the byte memories, the HBM and the counters are in canonical form; a counter saturates and
never exceeds its 48 bits (R7); the event ring holds at most its 8,192 entries (R404), the error log at most 1,024 records
(R431) and the always-on domain at most four boot records (R415). -/
structure Canon (s : State) : Prop where
  /-- on-die banks -/
  res : FMap.wf 0 s.mem.res = true
  /-- front-end memory -/
  fe : FMap.wf 0 s.mem.fe = true
  /-- configuration memory -/
  cf : FMap.wf 0 s.mem.cf = true
  /-- HBM: every byte written since its contents were last undefined is listed once -/
  hbm : FMap.sorted s.mem.hbm = true
  /-- the counters -/
  ctrWf : FMap.wf 0 s.ctr = true
  /-- no counter passes 48 bits -/
  ctrMax : ∀ p ∈ s.ctr, p.2 < 2 ^ 48
  /-- the event ring -/
  evt : evtHeld s ≤ 8192
  /-- the error log -/
  log : s.err.log.length ≤ 1024
  /-- the boot records -/
  records : s.boot.records.length ≤ 4

/-- A fuse bit is programmed once and never goes back, and the factory rows do not change. -/
def FuseLe (f g : Fuses) : Prop :=
  f.factory = g.factory ∧ f.identity &&& g.identity = f.identity ∧ f.fwKeys &&& g.fwKeys = f.fwKeys
    ∧ f.fmKeys &&& g.fmKeys = f.fmKeys ∧ f.rollback &&& g.rollback = f.rollback ∧ f.policy &&& g.policy = f.policy

/-! ## Words of the statements about commands -/

/-- Command `i` in state `s` has its effect, a next state that is as `P` says. -/
def Completes (i : Instr) (s : State) (P : State → Prop) : Prop :=
  ∃ t, exec i s = .next t ∧ P t

/-- The mailbox takes the entry of command `op` with header `h` next, and it meets steps 1 to 5 of R396: the source holds
the lease or the command needs none, its header is well formed, the mode is one of `modes`, no long-running command of
its family is in progress, and its reserved fields are as they must be. -/
def Accepts (op : Nat) (h : Hdr) (modes : List Mode) (s : State) : Prop :=
  isNext op h s = true ∧ (leaseFree op = true ∨ holdsLease h.src s = true) ∧ h.hdrOk = true ∧ s.nose.mode ∈ modes
    ∧ familyBusy op s = false ∧ h.rsvOk = true

/-- The counters that taking and answering commands moves: NOS_COMMANDS, NOS_COMMANDS_FAILED, and a port's frames sent,
bytes sent and frames discarded. -/
def mailCounters : List Nat := [0xD00, 0xD01, 0x901, 0x903, 0x908]

/-- A state but for the mailbox's own parts: what has arrived, the indexes that move as commands are taken and answered,
the responses, the lease timer, the counters and the trace. -/
def withoutMail (s : State) : State :=
  { s with
    nose := { s.nose with arrived := [], cmdCons := 0, kept := [], leaseAt := 0, rspRing := [], rspProd := 0, msixDue := 0 }
    ctr := [], outs := [] }

/-- `t` is `u` but for the mailbox's own parts; no counter but the mailbox's differs, and only responses were sent. -/
def MailOnly (u t : State) : Prop :=
  withoutMail t = withoutMail u
    ∧ (∀ k, k / 65536 ∉ mailCounters → FMap.get 0 t.ctr k = FMap.get 0 u.ctr k)
    ∧ (∃ l, t.outs = l ++ u.outs ∧ ∀ o ∈ l, ∃ p r, o = .rspFrame p r)

/-- The counters that raising an event moves: NOS_EVENTS_LOST, NOS_EVENTS_MASKED, and the frame counters of a port. -/
def eventCounters : List Nat := [0xD03, 0xD04, 0x901, 0x903, 0x908]

/-- A state but for the event ring, the events dropped and not yet reported, the counters and the trace. -/
def withoutEvents (s : State) : State :=
  { s with
    nose := { s.nose with evtRing := [], evtProd := 0, evtCons := 0, evtSeq := 0, evtLost := 0, msixDue := 0 }
    ctr := [], outs := [] }

/-- `t` is `u` but for events that were raised; no counter but the events' differs, and only event frames were sent. -/
def EventsOnly (u t : State) : Prop :=
  withoutEvents t = withoutEvents u
    ∧ (∀ k, k / 65536 ∉ eventCounters → FMap.get 0 t.ctr k = FMap.get 0 u.ctr k)
    ∧ (∃ l, t.outs = l ++ u.outs ∧ ∀ o ∈ l, ∃ p m e, o = .evtFrame p m e)

/-- Between `s` and `t` the command was answered with this status, payload, EFFECT and NEXT: on PCIe in the response
ring's slot at the produce index, in band by a frame when the port is UP (R392, R394). -/
def Replied (op : Nat) (h : Hdr) (st : Nat) (payload : List Fld) (eff : Option Stamp) (nx : Nat) (s t : State) : Prop :=
  let r : Response := ⟨h.src, h.tag, BitVec.ofNat 16 op, BitVec.ofNat 16 st, eff, nowNs s, nx, payload⟩
  match h.src with
  | .pcie => FMap.find t.nose.rspRing (s.nose.rspProd.toNat % 64) = some r
  | .inband p _ _ => portIsUp s p.val = true → .rspFrame p.val r ∈ t.outs

/-- `v` is `s` with a command's entry taken from its ring: the command is counted, and one of the lease holder restarts the
lease timer (R388, R396). -/
def Took (c : Src) (s v : State) : Prop :=
  v = { s with
    nose := { s.nose with
      arrived := v.nose.arrived, cmdCons := v.nose.cmdCons, kept := v.nose.kept
      leaseAt := if holdsLease c s then s.tb.t40 else s.nose.leaseAt }
    ctr := (count 0xD00 0 s).ctr }

/-- Command `op` was taken, had effect `f`, and was answered; nothing else changed but the mailbox's own parts. -/
def Done (op : Nat) (h : Hdr) (st : Nat) (payload : List Fld) (f : State → State) (s t : State) : Prop :=
  ∃ v, Took h.src s v ∧ MailOnly (f v) t ∧ Replied op h st payload none 0 s t

/-- The state with a long-running command begun: its response is owed (R397). -/
def jobBegun (op : Nat) (h : Hdr) (body : JobBody) (s : State) : State :=
  { s with nose := { s.nose with jobs := s.nose.jobs ++ [⟨h.src, h.tag, BitVec.ofNat 16 op, nowNs s, body⟩] } }

/-- The state with an effect on the list of those that wait for their boundary (R399). -/
def scheduled (w : When) (a : Act) (s : State) : State :=
  { s with nose := { s.nose with sched := s.nose.sched ++ [⟨w, a⟩] } }

/-- The state of a lead that has sent a command to its sillage, while TW is UP, and waits for the ACK (R365). -/
def toSillage (op : Nat) (h : Hdr) (w : When) (a : Act) (pay : List Fld) (s : State) : State :=
  let n := s.twn.cmdSeq
  jobBegun op h (.pairWait n a w s.tb.t40 pay)
    (if s.twn.up then
      { s with
        twn := { s.twn with cmdSeq := n + 1, txSeq := s.twn.txSeq + 1 }
        outs := .tw 0 s.twn.txSeq s.tb.beat (.command n (BitVec.ofNat 16 op) a false 0) :: s.outs }
    else { s with twn := { s.twn with cmdSeq := n + 1 } })

/-- A command of the lead and its sillage is accepted: in LEAD it goes to the sillage first, otherwise its effect waits for
its boundary and the response carries the boundary in EFFECT (R365, R399). -/
def PairAccepted (op : Nat) (h : Hdr) (w : When) (a : Act) (pay : List Fld) (s t : State) : Prop :=
  if s.nose.mode = .lead then MailOnly (toSillage op h w a pay s) t
  else MailOnly (scheduled w a s) t ∧ Replied op h stOk pay (effectStamp w s) 0 s t

/-- The answer of a record read (R478): from the held record with the number FIRST on; none ahead of the newest; otherwise
not retained. -/
def ReadsFrom (held : List (BitVec 32 × List Fld)) (newest first : BitVec 32) (n : Nat) (op : Nat) (h : Hdr)
    (s t : State) : Prop :=
  (∀ a b, held = a ++ b → (∀ r ∈ a, r.1 ≠ first) → (∃ r c, b = r :: c ∧ r.1 = first) →
    Replied op h stOk ((b.take n).flatMap (fun r => r.2)) none 0 s t)
  ∧ ((∀ r ∈ held, r.1 ≠ first) → 1 ≤ (first - newest).toNat → (first - newest).toNat ≤ 2 ^ 31 - 1 →
    Replied op h stOk [] none 0 s t)
  ∧ ((∀ r ∈ held, r.1 ≠ first) → ((first - newest).toNat = 0 ∨ 2 ^ 31 - 1 < (first - newest).toNat) →
    Replied op h stNotRetained [] none 0 s t)

/-! ## Words of the statements about clusters -/

/-- One instruction carried out by every member of a gang: each does its body, then each is charged its cycles and goes on
(R157, R205). -/
def gangRun (k : Nat) (bg : Bool) (cost : Cost) (body : Nat → State → State) (after : Ctx → Ctx) (s : State) : State :=
  (gangOf s k).foldl (fun u j => ctxSet j bg (after (charge (ctxGet u j bg) cost)) u)
    ((gangOf s k).foldl (fun u j => body j u) s)

/-- No member of the foreground must wait for a move (R173, R174). -/
def noWait (k : Nat) (bg : Bool) (acc : Access) (s : State) : Prop :=
  bg = true ∨ ∀ j ∈ gangOf s k, accessWaits s j (acc s j).1 (acc s j).2 = false

/-- An instruction's work in one cluster changes no other cluster and not the formula, and looks at no other cluster. -/
def OwnCluster (body : Nat → State → State) : Prop :=
  ∀ j s, (∀ i, i ≠ j → clOf (body j s) i = clOf s i) ∧ (body j s).frm.active = s.frm.active
    ∧ ∀ s', clOf s' j = clOf s j → s'.frm.active = s.frm.active → clOf (body j s') j = clOf (body j s) j

/-- Reads of these cells by a context find them reachable and sound (R159, R191). -/
def SoundReads (s : State) (k : Nat) (bg y : Bool) (l : List Nat) : Prop :=
  ∀ a ∈ l, mayReach s k bg y a = true
    ∧ ((bg = false ∧ (FMap.find (clOf s k).commit (cellKey y a)).isSome = true) ∨ (cellRaw s k y a).ecc = 0)

/-- The commit buffer holds cells of held ranges alone (R180). -/
def CommitHeld (s : State) (k : Nat) : Prop :=
  ∀ y a, a < 32768 → (FMap.find (clOf s k).commit (cellKey y a)).isSome = true →
    ∃ r, outRangeOf s k y a = some r ∧ heldRange s r = true

/-- A cell after writes in order: the last one to it, else what it was. -/
def cellAfter (l : List (Nat × Cell)) (a : Nat) (old : Cell) : Cell :=
  ((l.reverse.find? (fun p => p.1 == a)).map (fun p => p.2)).getD old

/-- Between `s` and `t` the context of cluster `k` wrote these cells of memory `y`, and no other cell of the cluster. -/
def Wrote (s t : State) (k : Nat) (bg y : Bool) (l : List (Nat × Cell)) : Prop :=
  (∀ a, a < 32768 → cellView t k bg y a = cellAfter l a (cellView s k bg y a))
    ∧ (∀ a, a < 32768 → cellView t k bg (!y) a = cellView s k bg (!y) a)

/-! ## Words of the statements about beats -/

/-- The block at a cycle offset of its beat: the counter has come there, and the sample streams and the notes of the beat
that are due by then have been carried out. -/
def atOffset (off : Nat) (s : State) : State := stuErFlush (stuCatchUp (advanceTo off s))

/-- An instance has left the running ones, completed or stopped. -/
def noLonger (u i : Nat) (s : State) : State :=
  { s with frm := { s.frm with running := s.frm.running.filter (fun x => x != unitKey u i) } }

/-! ## Words of the statements about lanes -/

/-- Lane `e` falls to LOST: it holds no lock, and what is held of it is missing (R80). -/
def lostLane (e : Nat) (s : State) : State :=
  let l := laneOf s e
  let v := laneSet e { l with locked := false, relock := false, bad := 0, held := none, st := .lost } s
  if l.held.isSome then releaseBlock e (l.held.getD []) false v else v

/-- Lane `e` lost its lock with this ERROR: counted, reported, and followed by a switch of the reference where it was the
reference in service (R64, R80). -/
def laneLost (e err : Nat) (s : State) : State :=
  let v := raiseEv 0x14 0x0 [.num 1 e, .num 1 err] (count 0x004 e (lostLane e s))
  if (laneOf s e).st = .service ∧ s.lnk.ref.val = e then refSwitch v else v

/-! ## Words of the statements about frames -/

/-- The rows that a frame from the PCS comes as. -/
def frameRows (f : RxFrame) (m : PtpMsg) (a : PtpAnnounce) : List Instr :=
  [.macFrameReject f, .ecpriIqSection f, .ecpriRtControl f, .ecpriDelayMeasurement f, .managementFrame f,
    .accordExchangeFrame f, .ptpAnnounce f m a, .ptpSync f m, .ptpFollowUp f m, .ptpDelayResp f m]

/-- The MAC takes frames from the port: it is UP, and the device is in service or in STANDBY (R269, R18). -/
def Receives (f : RxFrame) (s : State) : Prop :=
  portIsUp s f.port.val = true ∧ s.nose.mode ≠ .boot ∧ s.nose.mode ≠ .base

/-- The frame is of a kind that its port accepts in the mode (R266, R267, R18, R315), its FCS aside. -/
def KindTaken (f : RxFrame) (s : State) : Prop :=
  let et := (ethParts f.bytes).et
  frameOk s f.port.val f.bytes = true
    ∧ (et = 0xAEFE ∨ et = 0x88B5 → s.nose.mode = .solo ∨ s.nose.mode = .lead ∨ s.nose.mode = .sillage)
    ∧ (et = 0x88F7 → s.nose.mode ≠ .sillage)

/-- The state with the frame counted as accepted, and its bytes. -/
def frameCounted (f : RxFrame) (s : State) : State :=
  countBy 0x902 f.port.val (f.bytes.length + 4) (count 0x900 f.port.val s)

/-- A frame of this EtherType is received and accepted. -/
def FrameTaken (et : Nat) (f : RxFrame) (s : State) : Prop :=
  Receives f s ∧ f.fcsOk = true ∧ KindTaken f s ∧ (ethParts f.bytes).et = et

/-! ## Words of the statements about the twin link -/

/-- A frame of TW is taken in its sequence: the link is UP, the beats run, the CRC is right, no frame was lost before it, and it
is the pair's own, or `any` takes it whatever pair it names (R359 to R362). -/
def TwTaken (any : Bool) (h : TwHdr) (s : State) : Prop :=
  s.twn.up = true ∧ beatsRun s = true ∧ h.crcOk = true ∧ (∀ q, s.twn.rxSeq = some q → q + 1 = h.seq)
    ∧ (any = true ∨ (s.twn.role = 0#8 ∧ s.twn.pairing = none) ∨ h.pairId = s.twn.pairId)

/-- The state with the frame's place in the sequence noted. -/
def twNoted (h : TwHdr) (s : State) : State := { s with twn := { s.twn with rxSeq := some h.seq } }

/-- Each of these rows brings a frame of TW: what every frame meets, whether the row takes it from any pair, and what it does
once it is taken. -/
def TwRows (h : TwHdr) (l : List (Instr × Bool × (State → State))) : Prop := ∀ x ∈ l, ∀ s : State,
  (s.twn.up = false ∨ beatsRun s = false → exec x.1 s = .next s)
  ∧ (s.twn.up = true → beatsRun s = true → h.crcOk = false →
    exec x.1 s = .next (lostFrame { s with twn := { s.twn with rxSeq := s.twn.rxSeq.map (· + 1) } }))
  ∧ (s.twn.up = true → beatsRun s = true → h.crcOk = true →
    let v := if s.twn.rxSeq.any (fun q => q + 1 != h.seq) then lostFrame (twNoted h s) else twNoted h s
    let mine := x.2.1 = true ∨ (v.twn.role = 0#8 ∧ v.twn.pairing = none) ∨ h.pairId = v.twn.pairId
    (mine → exec x.1 s = .next (x.2.2 v)) ∧ (¬ mine → exec x.1 s = .next v))

end Sys2Proof.Machine
end

