-- ==== Sys2Proof/Certificates/Slice0/Obligations.lean ====
section
/-! DEFINITION. The statements for the provers. -/

open Sys2Proof Sys2Proof.Machine

/-- NOSE.INFO, FORMULA.STATUS, BOOT.RECORDS, LINK.STATUS, PORT.STATUS, SQ.STATUS, MEM.STATUS and TWIN.STATUS answer with
what they report and change nothing but the mailbox's own parts. -/
def Obligations.StatusReadsReport : Prop :=
  ∀ (s : State) (h : Hdr),
    (Accepts 0x0201 h modesBYOLM s →
      Completes (.noseInfo h) s fun t => MailOnly s t ∧ Replied 0x0201 h stOk (noseInfo s) none 0 s t)
    ∧ (Accepts 0x0403 h modesYOLM s →
      Completes (.formulaStatus h) s fun t => MailOnly s t ∧ Replied 0x0403 h stOk (formulaStatus s) none 0 s t)
    ∧ (Accepts 0x3A01 h modesBYOLM s →
      Completes (.bootRecords h) s fun t => MailOnly s t ∧ Replied 0x3A01 h stOk
        ([.num 1 s.boot.records.length, .num 3 0] ++ s.boot.records.map (fun r => .str (leBytes 32 r.toNat))) none 0 s t)
    ∧ (Accepts 0x1003 h modesYOLM s →
      Completes (.linkStatus h) s fun t => MailOnly s t ∧ Replied 0x1003 h stOk
        ((List.range 256).map (fun e => .num 4 (laneStatus s e))) none 0 s t)
    ∧ (Accepts 0x1902 h modesYOLM s →
      Completes (.portStatus h) s fun t => MailOnly s t ∧ Replied 0x1902 h stOk
        ((List.range 6).map (fun p => .num 4 (portStatusWord s p))) none 0 s t)
    ∧ (Accepts 0x1B01 h modesYOLM s →
      Completes (.sqStatus h) s fun t => MailOnly s t ∧ Replied 0x1B01 h stOk
        ((List.range 16).map (fun i => .num 1 (fifoOf s i).stages.length)) none 0 s t)
    ∧ (Accepts 0x2202 h modesYOLM s →
      Completes (.memStatus h) s fun t => MailOnly s t ∧ Replied 0x2202 h stOk (memStatus s) none 0 s t)
    ∧ (Accepts 0x2805 h modesYOLM s →
      Completes (.twinStatus h) s fun t => MailOnly s t ∧ Replied 0x2805 h stOk (twinStatus s) none 0 s t)

/-- LEASE.STATUS reports the lease as it stands once the command itself, taken from the holder, has restarted the timer
(R389); TIME.STATUS reports the time base, with a free value for PORT where no port is selected; MEM.DIAG the capture of the
last freeze, or free values before the first; DD.STATUS the ring, unless the controller is frozen; COUNTER.READ the counters it
names, with the command itself already counted in NOS_COMMANDS, a range beyond the counter's scope being ST_BAD_FIELD
(R402). -/
def Obligations.StateReadsReport : Prop :=
  ∀ (s : State) (h : Hdr),
    (Accepts 0x0103 h modesBYOLM s →
      Completes (.leaseStatus h) s fun t => MailOnly s t ∧ Replied 0x0103 h stOk
        (leaseStatus { s with nose := { s.nose with leaseAt := if holdsLease h.src s then s.tb.t40 else s.nose.leaseAt } })
        none 0 s t)
    ∧ (Accepts 0x2004 h modesYOLM s →
      Completes (.timeStatus h) s fun t =>
        MailOnly { s with fresh := s.fresh + (if s.tb.port.isSome then 0 else 1) } t
        ∧ Replied 0x2004 h stOk
          [.num 1 (tbStateCode s.tb.st),
           .num 1 (s.tb.port.elim (wrapN 8 (Config.freeValue 1 s.fresh)) (fun p => p.val)), .num 2 s.tb.epoch.toNat,
           .num 1 s.tb.gmClass.toNat, .num 3 0, .num 6 (fullTime s.tb.t40).1.toNat, .num 4 (fullTime s.tb.t40).2.1.toNat,
           .num 2 ((fullTime s.tb.t40).2.2 / 2 ^ 36), .num 9 (tbCounter s).toNat, .num 7 0, sfld 8 (sixteenths s.tb.theta),
           sfld 8 (sixteenths s.tb.mpd), sfld 8 (sixteenths s.tb.mref), sfld 8 (roundRat (s.tb.fc * 65536)),
           sfld 8 (roundRat (s.tb.slew * 65536)), .num 6 s.tb.inc.toNat, .num 2 0, .num 8 s.tb.gm.toNat,
           sfld 8 (asymOf s 0), sfld 8 (asymOf s 1), .num 6 s.tb.ratio.toNat, .num 2 0] none 0 s t)
    ∧ (Accepts 0x2203 h modesYOLM s →
      Completes (.memDiag h) s fun t =>
        (∀ d, s.mem.diag = some d → MailOnly s t ∧ ∃ cmds, cmds.length = 64 ∧ Replied 0x2203 h stOk
          ([.num 1 d.cause.toNat, .num 1 d.pc, .num 1 d.sid, .num 1 d.bank, .num 2 d.row, .num 1 d.col, .num 1 0,
            .num 8 d.synd.toNat] ++ cmds) none 0 s t)
        ∧ (s.mem.diag = none → MailOnly { s with fresh := s.fresh + 1 } t
          ∧ ∃ pay, pay.length = 72 ∧ Replied 0x2203 h stOk pay none 0 s t))
    ∧ (Accepts 0x1703 h modesOLM s →
      Completes (.ddStatus h) s fun t => MailOnly s t ∧
        if s.mem.st = .frozen then Replied 0x1703 h stUnavailable [] none 0 s t
        else Replied 0x1703 h stOk
          [.num 2 s.dd.i, .num 2 s.dd.n, .num 4 ((retained s).head?.elim 0 (fun b => (stampOfLin b).toNat)),
           .num 4 ((retained s).getLast?.elim 0 (fun b => (stampOfLin b).toNat)),
           .num 4 (s.dd.mark.elim 0 (fun m => m.toNat)),
           .num 1 ((if (retained s).isEmpty then 0 else 1) + (if s.dd.mark.isSome then 2 else 0)), .num 3 0] none 0 s t)
    ∧ (∀ counter first n : BitVec 16, Accepts 0x0501 h modesYOLM s →
      Completes (.counterRead h counter first n) s fun t => MailOnly s t ∧
        if counterRangeOk counter first n then
          Replied 0x0501 h stOk
            ((List.range n.toNat).map (fun i => .num 8 (counterGet (count 0xD00 0 s) counter.toNat (first.toNat + i)))) none 0 s t
        else Replied 0x0501 h stBadField [] none 0 s t)

/-- VERDICT.READ, EVENT.READ and ERROR.READ compare FIRST with the numbers of the records held: a held record gives the
records from it on, at most COUNT; a number up to 2^31 - 1 after the newest gives none; any other is ST_NOT_RETAINED (R478). -/
def Obligations.RecordReads : Prop :=
  ∀ (s : State) (h : Hdr) (first : BitVec 32) (n : BitVec 16), 1 ≤ n.toNat →
    (Accepts 0x0601 h modesOLM s → n.toNat ≤ 160 →
      Completes (.verdictRead h first n) s fun t => MailOnly s t ∧
        ReadsFrom (heldVerdicts s) (s.frm.verdictSeq - 1) first n.toNat 0x0601 h s t)
    ∧ (Accepts 0x0701 h modesBYOLM s → n.toNat ≤ 63 →
      Completes (.eventRead h first n) s fun t => MailOnly s t ∧
        ReadsFrom (heldEvents s) (s.nose.evtSeq - 1) first n.toNat 0x0701 h s t)
    ∧ (Accepts 0x0801 h modesBYOLM s → n.toNat ≤ 63 →
      Completes (.errorRead h first n) s fun t => MailOnly s t ∧
        ReadsFrom (heldErrors s) (s.err.index - 1) first n.toNat 0x0801 h s t)

/-- FILTER.READ, SIC.DEPTH, FLASH.READ and FUSE.READ return their data and change nothing but the mailbox's own parts; a
field out of its range is ST_BAD_FIELD. A page that ends before the whole answers where the next one begins. -/
def Obligations.DataReads : Prop :=
  ∀ (s : State) (h : Hdr),
    (∀ (set : BitVec 8) (first : BitVec 16), Accepts 0x1101 h modesYOLM s →
      Completes (.filterRead h set first) s fun t => MailOnly s t ∧
        (filterSet set.toNat = none → Replied 0x1101 h stBadField [] none 0 s t)
        ∧ (∀ l, filterSet set.toNat = some l → l.length ≤ first.toNat → Replied 0x1101 h stBadField [] none 0 s t)
        ∧ (∀ l, filterSet set.toNat = some l → first.toNat < l.length →
          Replied 0x1101 h stOk
            ([.num 2 l.length, .num 2 (Nat.min 1000 (l.length - first.toNat)),
              .num 4 (crc32 (l.flatMap (fun v => leBytes 4 (wrapN 32 v))))]
              ++ ((l.drop first.toNat).take (Nat.min 1000 (l.length - first.toNat))).map (sfld 4)) none
            (if first.toNat + 1000 < l.length then first.toNat + 1000 else 0) s t))
    ∧ (∀ (c : BitVec 8) (first : BitVec 16), Accepts 0x1201 h modesOLM s →
      Completes (.sicDepth h c first) s fun t => MailOnly s t ∧
        let l := depthEntries s c.toNat
        if c.toNat ≤ 3 ∧ first.toNat < l.length then
          Replied 0x1201 h stOk
            ([.num 2 (Nat.min 250 (l.length - first.toNat)), .num 2 0]
              ++ ((l.drop first.toNat).take 250).map (fun v => .num 16 v)) none
            (if first.toNat + 250 < l.length then first.toNat + 250 else 0) s t
        else Replied 0x1201 h stBadField [] none 0 s t)
    ∧ (∀ (offset : BitVec 32) (n : BitVec 16), Accepts 0x3802 h [.base, .standby] s →
      Completes (.flashRead h offset n) s fun t => MailOnly s t ∧
        if 1 ≤ n.toNat ∧ n.toNat ≤ 4064 ∧ offset.toNat + n.toNat ≤ 2 ^ 32 then
          Replied 0x3802 h stOk [.str ((List.range n.toNat).map (fun i => flashByte s (offset.toNat + i)))] none 0 s t
        else Replied 0x3802 h stBadField [] none 0 s t)
    ∧ (∀ region : BitVec 8, Accepts 0x3901 h modesBYOLM s →
      Completes (.fuseRead h region) s fun t => MailOnly s t ∧
        if region.toNat ≤ 5 then
          Replied 0x3901 h stOk [.str (leBytes (fuseSize region.toNat / 8) (fuseValue s.boot.fuses region.toNat))] none 0 s t
        else Replied 0x3901 h stBadField [] none 0 s t)

/-- EVENT.MASK, DOMAIN.CONFIG, MODE.RESET, TRIGGER.ARM, TRIGGER.DISARM, TIME.ASYMMETRY, DD.REWIND and LINK.ALIGN write the one
register they name, and nothing but it and the mailbox's own parts changes. -/
def Obligations.RegisterCommandsWrite : Prop :=
  ∀ (s : State) (h : Hdr),
    (∀ mask, Accepts 0x0702 h modesBYOLM s → Completes (.eventMask h mask) s fun t =>
      MailOnly { s with nose := { s.nose with evtMask := mask } } t ∧ Replied 0x0702 h stOk [] none 0 s t)
    ∧ (∀ d : BitVec 16, Accepts 0x2901 h [.standby] s → d.toNat ≤ 16383 → Completes (.domainConfig h d) s fun t =>
      MailOnly { s with nose := { s.nose with deviceId := BitVec.ofNat 14 d.toNat } } t ∧ Replied 0x2901 h stOk [] none 0 s t)
    ∧ (∀ scope : BitVec 8, Accepts 0x0302 h modesBYOLM s → scope.toNat ≤ 1 → Completes (.modeReset h scope) s fun t =>
      MailOnly { s with nose := { s.nose with resetDue := some (if s.nose.mode = .base then 0 else scope) } } t
        ∧ Replied 0x0302 h stOk [] none 0 s t)
    ∧ (∀ (pin pol : BitVec 8) (count : BitVec 16) (width : BitVec 32) (T : TInst) (period : BitVec 64),
      Accepts 0x2101 h modesYOLM s → pin.toNat ≤ 7 → pol.toNat ≤ 1 → 8 ≤ width.toNat → width.toNat ≤ 1000000 → tinstOk T = true →
      (period = 0 ∨ (2 * width.toNat ≤ period.toNat ∧ period.toNat ≤ 10000000000)) → now16 s + 160000 ≤ tinst16 T →
      Completes (.triggerArm h pin pol count width T period) s fun t =>
        MailOnly { s with tb := { s.tb with triggers := (FMap.set s.tb.triggers pin.toNat
          ⟨tinst16 T * 2 ^ 36, width.toNat, period.toNat, count.toNat, pol == 1#8, 0⟩) } } t
        ∧ Replied 0x2101 h stOk [] none 0 s t)
    ∧ (∀ pin : BitVec 8, Accepts 0x2102 h modesYOLM s → pin.toNat ≤ 7 → Completes (.triggerDisarm h pin) s fun t =>
      MailOnly { s with tb := { s.tb with triggers := FMap.erase s.tb.triggers pin.toNat } } t
        ∧ Replied 0x2102 h stOk [] none 0 s t)
    ∧ (∀ (port : BitVec 8) (a : BitVec 64), Accepts 0x2003 h modesYOL s → port.toNat ≤ 1 → -16000000 ≤ a.toInt →
      a.toInt ≤ 16000000 → Completes (.timeAsymmetry h port a) s fun t =>
        MailOnly { s with tb := { s.tb with
          ptp := s.tb.ptp.modify port.toNat (fun p => { p with asymNext := some a.toInt }) } } t
        ∧ Replied 0x2003 h stOk [] none 0 s t)
    ∧ (∀ beat : Stamp, Accepts 0x1701 h modesOL s → stampValid beat = true → s.mem.st ≠ .frozen →
      isRetained s (linNear s beat) = true → Completes (.ddRewind h beat) s fun t =>
        MailOnly { s with dd := { s.dd with mark := some beat } } t ∧ Replied 0x1701 h stOk [] none 0 s t)
    ∧ (∀ (T : TInst) (pins : BitVec 16) (elements : BitVec 256), Accepts 0x1001 h modesYOL s → tinstOk T = true →
      (s.nose.mode = .standby ∨ ∀ e < 256, elements.getLsbD e = true → inServiceLane s e = false) →
      now16 s + 160000 ≤ tinst16 T → Completes (.linkAlign h T pins elements) s fun t =>
        MailOnly { s with lnk := { s.lnk with align := some (tinst16 T, pins, elements, false) } } t
        ∧ Replied 0x1001 h stOk [] none 0 s t)

/-- COUNTER.CLEAR clears the counters of its range and no other (but those that taking a command moves); AE.STATUS reports
OVF of every cluster and clears it (R170, R402). -/
def Obligations.ClearingCommands : Prop :=
  ∀ (s : State) (h : Hdr),
    (∀ counter first n : BitVec 16, Accepts 0x0502 h modesYOLM s → counterRangeOk counter first n = true →
      Completes (.counterClear h counter first n) s fun t =>
        withoutMail t = withoutMail s ∧ Replied 0x0502 h stOk [] none 0 s t
        ∧ ∀ k, k / 65536 ∉ mailCounters → FMap.get 0 t.ctr k =
          if counterKey counter.toNat first.toNat ≤ k ∧ k < counterKey counter.toNat first.toNat + n.toNat then 0
          else FMap.get 0 s.ctr k)
    ∧ (Accepts 0x1301 h modesYOLM s → Completes (.aeStatus h) s fun t =>
      (∀ k, clOf t k = { clOf s k with ovf := false }) ∧ { t.ae with clusters := s.ae.clusters } = s.ae
        ∧ MailOnly s { t with ae := s.ae }
        ∧ Replied 0x1301 h stOk [.num 12 (sumN ((List.range 96).map (fun k => if (clOf s k).ovf then 2 ^ k else 0)))] none 0 s t)

/-- TIME.CONFIG, PORT.CONFIG, LINK.CONFIG with SCOPE 1 and LINK.SETUP are accepted for the next slot boundary, and their
response names it; until then nothing but the mailbox's own parts changes. -/
def Obligations.SlotBoundaryCommandsWait : Prop :=
  ∀ (s : State) (h : Hdr),
    (∀ p : BitVec 512, Accepts 0x2001 h modesYOL s → timeParOk p.toNat = true →
      (s.nose.mode = .standby ∨ bits p.toNat 319 278 = frameOffset s) → Completes (.timeConfig h p) s fun t =>
        MailOnly (scheduled .nextSlot (.timeConfig p) s) t
        ∧ Replied 0x2001 h stOk [] (some (stampOfLin (nextSlotLin s))) 0 s t)
    ∧ (∀ (port : BitVec 8) (word : BitVec 128), Accepts 0x1901 h modesYOLM s → port.toNat ≤ 5 →
      portWordOk port.toNat word.toNat = true →
      (s.nose.mode = .standby ∨ bits word.toNat 58 50 = bits (portWord s port.toNat).toNat 58 50) →
      Completes (.portConfig h port word) s fun t =>
        MailOnly (scheduled .nextSlot (.portConfig port word) s) t
        ∧ Replied 0x1901 h stOk [] (some (stampOfLin (nextSlotLin s))) 0 s t)
    ∧ (∀ (e : BitVec 8) (word : BitVec 64), Accepts 0x1002 h modesYOLM s → linkWordStatus e.toNat 1 word s = stOk →
      Completes (.linkConfig h e 1 word) s fun t =>
        MailOnly (scheduled .nextSlot (.linkConfig e 1 word) s) t
        ∧ Replied 0x1002 h stOk [] (some (stampOfLin (nextSlotLin s))) 0 s t)
    ∧ (∀ (fs : BitVec 32) (lane : BitVec 8) (width : BitVec 16) (skew : BitVec 128), Accepts 0x1004 h modesYOLM s →
      491520 ≤ fs.toNat → fs.toNat ≤ 984840 → 8 ≤ width.toNat → width.toNat ≤ 256 → fs.toNat = s.lnk.fs →
      Completes (.linkSetup h fs lane width skew) s fun t =>
        MailOnly (scheduled .nextSlot (.linkSetup lane width skew) s) t
        ∧ Replied 0x1004 h stOk [] (some (stampOfLin (nextSlotLin s))) 0 s t)

/-- The commands that the lead of a pair applies with its sillage at the next slot boundary or at S: LINK.CONFIG with SCOPE 0,
SIC.RETRAIN, ACCORD.JOIN, ACCORD.LEAVE, LAYER.CONFIG, LAYER.WEIGHTS and QUEUE.RESIZE. Legal ones go to the sillage in LEAD, and
otherwise wait for their boundary (R365, R399). -/
def Obligations.PairCommandsAccepted : Prop :=
  ∀ (s : State) (h : Hdr),
    (∀ (e : BitVec 8) (word : BitVec 64), Accepts 0x1002 h modesYOL s → linkWordStatus e.toNat 0 word s = stOk →
      Completes (.linkConfig h e 0 word) s (PairAccepted 0x1002 h .nextSlot (.linkConfig e 0 word) [] s))
    ∧ (∀ (elements : BitVec 256) (carriers nl : BitVec 8), Accepts 0x1202 h modesYOL s → carriers.toNat ≤ 15 → nl.toNat ≤ 1 →
      Completes (.sicRetrain h elements carriers nl) s
        (PairAccepted 0x1202 h .nextSlot (.sicRetrain elements carriers (nl == 1#8)) [] s))
    ∧ (∀ (slot : BitVec 8) (accord : BitVec 16) (b : Stamp) (members : List (BitVec 128)), Accepts 0x2A01 h modesYOL s →
      joinStatus slot accord members s = stOk → checkS b s = stOk →
      Completes (.accordJoin h slot accord b members) s (PairAccepted 0x2A01 h (.at b) (.accordJoin slot accord members) [] s))
    ∧ (∀ (slot : BitVec 8) (b : Stamp), Accepts 0x2A02 h modesYOL s → leaveStatus slot s = stOk → checkS b s = stOk →
      Completes (.accordLeave h slot b) s (PairAccepted 0x2A02 h (.at b) (.accordLeave slot) [] s))
    ∧ (∀ (b : Stamp) (items : List LayerItem), Accepts 0x1401 h modesYOL s → 1 ≤ items.length → items.length ≤ 128 →
      (∀ i ∈ items, i.carrier.toNat ≤ 3 ∧ i.layer.toNat ≤ 63) → checkS b s = stOk → layerItemsStatus items s = stOk →
      Completes (.layerConfig h b items) s (PairAccepted 0x1401 h (.at b) (.layerConfig items) [] s))
    ∧ (∀ (b : Stamp) (carrier layer : BitVec 8) (firstQ nq : BitVec 16) (w : List (BitVec 32)), Accepts 0x1402 h modesYOL s →
      carrier.toNat ≤ 3 → layer.toNat ≤ 63 → 1 ≤ nq.toNat → nq.toNat ≤ 3 →
      firstQ.toNat + nq.toNat ≤ weightGroups s carrier.toNat → checkS b s = stOk →
      Completes (.layerWeights h b carrier layer firstQ nq w) s
        (PairAccepted 0x1402 h (.at b) (.layerWeights carrier layer firstQ w b) [] s))
    ∧ (∀ (queue : BitVec 16) (depth : BitVec 8), Accepts 0x1C01 h modesYOL s → (queueOf s queue.toNat).isSome = true →
      3 ≤ depth.toNat → depth.toNat ≤ 12 →
      Completes (.queueResize h queue depth) s
        (PairAccepted 0x1C01 h (.at (stampOfLin (resizeBoundary s))) (.queueResize queue depth) [] s))

/-- TIME.STEP, FORMULA.ACTIVATE and MEM.THAW in a real-time mode wait for their S, and a later one takes the place of an
earlier step or activation; SOUNDING.TABLE stages its chunk at once; TWIN.PAIR, TWIN.UNPAIR and TWIN.REJOIN wait for S, the
last two with the sillage told. -/
def Obligations.CommandsForS : Prop :=
  ∀ (s : State) (h : Hdr) (b : Stamp),
    (∀ (f : BitVec 16) (ns : BitVec 32) (sec : BitVec 48), Accepts 0x2002 h modesOL s → ns.toNat < 1000000000 → f.toNat < 16 →
      checkTimeStep b s = stOk → Completes (.timeStep h b f ns sec) s
        (PairAccepted 0x2002 h (.at b) (.timeStep (stepDelta f ns sec)) []
          (if s.nose.mode = .lead then s
           else { s with nose := { s.nose with sched := s.nose.sched.filter (fun e => !isStep e.act) } })))
    ∧ (∀ f, Accepts 0x0402 h modesOL s → s.frm.pending = some f → checkS b s = stOk → activateMeets b s = stOk →
      activateCheck f s = stOk → Completes (.formulaActivate h b) s
        (PairAccepted 0x0402 h (.at b) .formulaActivate [.num 1 (switchKind (switchSeamless s.frm.active f)), .num 3 0]
          (if s.nose.mode = .lead then s
           else { s with nose := { s.nose with sched := s.nose.sched.filter (fun e => !isActivate e.act) } })))
    ∧ (Accepts 0x2206 h modesOL s → s.mem.ready = true → checkS b s = stOk →
      Completes (.memThaw h b) s (PairAccepted 0x2206 h (.at b) .memThaw [] s))
    ∧ (∀ (seq final : BitVec 8) (offset : BitVec 16) (data : List Byte), Accepts 0x1A01 h modesYOL s → final.toNat ≤ 1 →
      1 ≤ data.length → data.length % 4 = 0 → data.length ≤ 4064 → offset.toNat + data.length ≤ 13104 → checkS b s = stOk →
      (s.fhp.staged.length < 64 ∨ s.fhp.staged.any (fun e => e.1 == b && e.2.1 == seq.toNat) = true) →
      Completes (.soundingTable h b seq final offset data) s fun t =>
        if s.nose.mode = .lead then MailOnly (toSillage 0x1A01 h (.at b) (.soundingTable seq (final == 1#8) offset data) [] s) t
        else MailOnly (stageSounding b seq (final == 1#8) offset data s) t ∧ Replied 0x1A01 h stOk [] (some b) 0 s t)
    ∧ (∀ (id : BitVec 16) (index role : BitVec 8), Accepts 0x2801 h [.standby, .solo] s →
      (s.nose.mode = .solo → role ≠ 1) → id ≠ 0 → index.toNat ≤ 1 → role.toNat ≤ 1 → checkS b s = stOk →
      (role = 0 → helloMatches id index s = true ∧ ∀ f, s.frm.active = some f → pairTimingOk f = true) →
      Completes (.twinPair h id index role b) s fun t =>
        MailOnly (schedulePair id index role b s) t ∧ Replied 0x2801 h stOk [] (some b) 0 s t)
    ∧ (Accepts 0x2804 h [.lead] s → checkS b s = stOk → Completes (.twinUnpair h b) s fun t =>
        MailOnly (scheduled (.at b) .twinUnpair (sendPair 0x2804 .twinUnpair b s)) t
        ∧ Replied 0x2804 h stOk [] (some b) 0 s t)
    ∧ (Accepts 0x2802 h [.lead] s → checkS b s = stOk → (∀ f, s.frm.active = some f → pairTimingOk f = true) →
      canRejoin s = true → Completes (.twinRejoin h b) s fun t =>
        MailOnly (scheduled (.at b) .twinRejoin (sendPair 0x2802 .twinRejoin b
          { s with twn := { s.twn with
            forwarding := true, fitness := .preparing, cause := 0, rejoinAt := some s.tb.lin, streamDone := false
            joinAt := none, ripenUntil := none } })) t
        ∧ Replied 0x2802 h stOk [] (some b) 0 s t)

/-- LEASE.ACQUIRE succeeds in three cases: the lease is free, the same holder renews it on the same channel, or FORCE takes it
over PCIe; it gives the lease with its timer restarted and returns the previous holder. In every other case it returns
ST_BUSY. LEASE.RELEASE and the expiry free the lease, and the registers follow (R388 to R390, R453). Each change of holder is
counted in NOS_LEASE_CHANGES and raises EV_LEASE with the old and the new holder; no unit, formula or configuration
changes. -/
def Obligations.LeaseIsTakenAndFreed : Prop :=
  (∀ (s : State) (h : Hdr),
    (∀ (holder : BitVec 64) (ms : BitVec 32) (force : BitVec 8), Accepts 0x0101 h modesBYOLM s → holder ≠ 0 →
      100 ≤ ms.toNat → ms.toNat ≤ 60000 → force.toNat ≤ 1 →
      ((s.nose.lease = none ∨ s.nose.lease = some (holder, h.src) ∨ (force = 1 ∧ h.src = .pcie)) →
        Completes (.leaseAcquire h holder ms force) s fun t =>
          Done 0x0101 h stOk [.num 8 (leaseHolderId s).toNat] (fun v =>
            setLease (some (holder, h.src))
              (if s.nose.lease = none ∨ s.nose.lease = some (holder, h.src) then 0 else 3)
              { v with nose := { v.nose with timeoutMs := ms.toNat, leaseAt := v.tb.t40 } }) s t
          ∧ t.nose.lease = some (holder, h.src) ∧ t.nose.timeoutMs = ms.toNat)
      ∧ (¬ (s.nose.lease = none ∨ s.nose.lease = some (holder, h.src) ∨ (force = 1 ∧ h.src = .pcie)) →
        Completes (.leaseAcquire h holder ms force) s fun t =>
          MailOnly s t ∧ Replied 0x0101 h stBusy [] none 0 s t ∧ t.nose.lease = s.nose.lease))
    ∧ (Accepts 0x0102 h modesBYOLM s → Completes (.leaseRelease h) s fun t =>
        Done 0x0102 h stOk [] (setLease none 1) s t ∧ t.nose.lease = none)
    ∧ Completes .leaseExpiry s (fun t => t = setLease none 2 s ∧ t.nose.lease = none)
    ∧ Completes .leaseRegisterUpdate s (fun t => t = { s with bar0 := { s.bar0 with
        leaseHolder := leaseHolderId s, leaseChannel := BitVec.ofNat 8 (leaseChannel s)
        leaseRemain := BitVec.ofNat 16 (Nat.min (leaseRemain s) 65535) } }))
  ∧ ∀ (s : State) (l : Option (BitVec 64 × Src)) (reason : Nat),
    (s.nose.lease = l → setLease l reason s = s)
    ∧ (s.nose.lease ≠ l → ∃ u, u = raiseEv 0x03 0xD
          [.num 8 (leaseHolderId s).toNat, .num 8 (l.elim 0 (fun x => x.1)).toNat, .num 1 (l.elim 0xFF (fun x => channelCode x.2)),
            .num 1 reason] (count 0xD07 0 { s with nose := { s.nose with lease := l } })
        ∧ ((∃ i, l = some (i, .pcie)) → setLease l reason s = updateLeaseRegs u)
        ∧ ((¬ ∃ i, l = some (i, .pcie)) → setLease l reason s = updateLeaseRegs (reportLost u))
        ∧ (setLease l reason s).nose.lease = l
        ∧ { setLease l reason s with nose := s.nose, bar0 := s.bar0, ctr := s.ctr, outs := s.outs } = s)

/-- MODE.ENTER: BASE is left by a reset whose release is due; STANDBY is left for BASE at once, with the lease free and every
pin low; SOLO is entered at a slot boundary at least 28 beats ahead, and left for STANDBY at S. -/
def Obligations.ModeEnterAsCommanded : Prop :=
  ∀ (s : State) (h : Hdr),
    (Accepts 0x0301 h [.base] s → Completes (.modeEnter h 2 0) s fun t =>
      MailOnly { s with nose := { s.nose with resetDue := some 2 } } t ∧ Replied 0x0301 h stOk [] none 0 s t)
    ∧ (Accepts 0x0301 h [.standby] s → h.src = .pcie → Completes (.modeEnter h 1 0) s fun t =>
      Done 0x0301 h stOk [] enterBase s t ∧ t.nose.mode = .base ∧ t.nose.lease = none ∧ t.nose.sched = []
        ∧ t.pins.leadSel = false ∧ t.pins.twinLead0 = false ∧ t.pins.twinAlive0 = false ∧ t.lnk.lanes = [] ∧ t.twn.up = false)
    ∧ (Accepts 0x0301 h [.standby] s → soloCheck s = stOk → Completes (.modeEnter h 3 0) s fun t =>
      MailOnly (scheduled (.at (stampOfLin (slot28 s))) (.modeEnter .solo) s) t
      ∧ Replied 0x0301 h stOk [] (some (stampOfLin (slot28 s))) 0 s t)
    ∧ (∀ b, Accepts 0x0301 h [.solo] s → checkS b s = stOk → boundaryTaken b s = false → Completes (.modeEnter h 2 b) s fun t =>
      MailOnly (scheduled (.at b) (.modeEnter .standby) s) t ∧ Replied 0x0301 h stOk [] (some b) 0 s t)

/-- The commands whose response follows later only begin their work: CSI.EXPORT, DD.FETCH, CODEC.RUN, MEM.RESTORE, BIST.RUN,
FLASH.WRITE, FUSE.PROGRAM and TWIN.SWAP. -/
def Obligations.LongCommandsBegin : Prop :=
  ∀ (s : State) (h : Hdr),
    (∀ (carrier : BitVec 8) (queue : BitVec 16) (beat : Stamp) (layers : BitVec 64), Accepts 0x1601 h modesOL s →
      jobFieldsOk s carrier.toNat queue.toNat = true → stampValid beat = true → storeAway s = false → isFenced s 7 0 = false →
      (∃ l, l < 64 ∧ (FMap.find s.dd.archive (archiveKey carrier.toNat l (linNear s beat))).isSome = true) →
      Completes (.csiExport h carrier queue beat layers) s
        (MailOnly (jobBegun 0x1601 h (.csi carrier.toNat queue.toNat beat layers) s)))
    ∧ (∀ (mark : BitVec 8) (queue : BitVec 16) (first last : Stamp), Accepts 0x1702 h modesOL s → isEgress s 4 queue.toNat = true →
      rangeCheck s mark first last = stOk → Completes (.ddFetch h mark queue first last) s
        (MailOnly (jobBegun 0x1702 h (.ddFetch queue.toNat ((firstBeat s mark first).getD first) last) s)))
    ∧ (∀ (op reserve : BitVec 8) (queue count : BitVec 16) (src dst n : BitVec 32), Accepts 0x1801 h modesYOL s →
      op.toNat ≤ 1 → reserve.toNat ≤ 1 → (reserve = 1 ∨ s.nose.mode = .standby) →
      (queue = 0xFFFF ∨ isEgress s 4 queue.toNat = true) →
      src.toNat + (if op = 0 then 1288 else 24) * count.toNat ≤ 0x4000000 →
      (queue ≠ 0xFFFF ∨ dst.toNat + n.toNat ≤ 0x4000000) → isFenced s 7 0 = false →
      Completes (.codecRun h op reserve queue count src dst n) s
        (MailOnly (jobBegun 0x1801 h (.codec (op == 1) (reserve == 1) queue.toNat count.toNat src.toNat dst.toNat n.toNat) s)))
    ∧ (Accepts 0x2205 h modesYOLM s → s.mem.st = .frozen →
      Completes (.memRestore h) s (MailOnly (jobBegun 0x2205 h .memRestore s)))
    ∧ (∀ target : BitVec 16, Accepts 0x3004 h [.standby] s → bistOk (target.toNat % 256) (target.toNat / 256) = true →
      anyLoop s = false → (target.toNat % 256 ≠ 0x10 ∧ target.toNat % 256 ≠ 0x11 ∨ (s.mem.st ≠ .frozen ∧ s.mem.st ≠ .reset)) →
      Completes (.bistRun h target) s (MailOnly (jobBegun 0x3004 h (.bist target) s)))
    ∧ (∀ (offset : BitVec 32) (erase : BitVec 8) (data : List Byte), Accepts 0x3801 h [.base, .standby] s →
      (s.nose.mode = .base → s.boot.sensed.policy.getLsbD 5 = false) → erase.toNat ≤ 1 → 1 ≤ data.length →
      data.length ≤ 4064 → offset.toNat + data.length ≤ 2 ^ 32 →
      Completes (.flashWrite h offset erase data) s
        (MailOnly (jobBegun 0x3801 h (.flash offset.toNat (erase == 1) data) s)))
    ∧ (∀ (region : BitVec 8) (bit count : BitVec 16) (bits' : List Byte), Accepts 0x3902 h [.standby] s →
      region.toNat ≤ 5 → fuseLocked s region.toNat = false → 1 ≤ count.toNat → count.toNat ≤ 1544 →
      bit.toNat + count.toNat ≤ fuseSize region.toNat → bits'.length = ceilDiv count.toNat 8 →
      Completes (.fuseProgram h region bit count bits') s
        (MailOnly (jobBegun 0x3902 h (.fuse region.toNat bit.toNat
          ((List.range count.toNat).map (fun i => bitN (leNat bits') i))) s)))
    ∧ (Accepts 0x2803 h [.lead] s → Completes (.twinSwap h) s
        (MailOnly (jobBegun 0x2803 h (.swap (((beginHandover 1 s).twn.handover.map (fun x => x.1)).getD 0)
          (beginHandover 1 s).twn.handoverAck) (beginHandover 1 s))))

/-- RECOMBINE.RUN makes one job for each retained air beat of its range, for the layers that are enabled for uplink, under the
weight versions now in effect, and its response follows later (R228, R243). -/
def Obligations.RecombineRunMakesJobs : Prop :=
  ∀ (s : State) (h : Hdr) (carrier mark : BitVec 8) (queue : BitVec 16) (first last f : Stamp) (layers : BitVec 64) (d : DdPar),
    Accepts 0x1501 h modesOL s → jobFieldsOk s carrier.toNat queue.toNat = true → rangeCheck s mark first last = stOk →
    ddPar s = some d → firstBeat s mark first = some f →
    Completes (.recombineRun h carrier mark queue first last layers) s fun t =>
      let beats := (retained s).filter (fun b => decide (linNear s f ≤ b) && decide (b ≤ linNear s last))
      ∃ v, Took h.src s v ∧ MailOnly (jobBegun 0x1501 h (.recombine carrier.toNat queue.toNat f last layers)
          (beats.foldl (fun u b => makeJob d carrier.toNat b true
            (((List.range 64).filter (fun l => layers.getLsbD l && ctxUlEn (ctxBeat u carrier.toNat l b))).map
              (fun l => (l, versionAt u (ctxOf u carrier.toNat l) carrier.toNat l u.tb.lin))) u) v)) t
        ∧ t.dd.jobs.map (fun j => (j.c, j.lin, j.host))
          = s.dd.jobs.map (fun j => (j.c, j.lin, j.host)) ++ beats.map (fun b => (carrier.toNat, b, true))

/-- FORMULA.LOAD stores a chunk that continues the load in the pending slot, which it empties; the last chunk starts the
verification, and in LEAD every chunk goes to the sillage. A chunk that breaks a rule abandons the load (R400). -/
def Obligations.FormulaLoadStoresChunks : Prop :=
  ∀ (s : State) (h : Hdr) (offset total : BitVec 32) (final : BitVec 8) (data : List Byte),
    Accepts 0x0401 h modesYOL s → final.toNat ≤ 1 → 1 ≤ data.length → data.length ≤ 4068 →
    (chunkStatus offset.toNat total.toNat (final == 1) data.length s = stOk →
      Completes (.formulaLoad h offset total final data) s fun t =>
        if s.nose.mode = .lead then
          MailOnly (toSillage 0x0401 h .now (.formulaLoad offset total (final == 1) data) [] s) t
        else if final = 1 then
          MailOnly (jobBegun 0x0401 h .verify (storeChunk offset.toNat total.toNat true data s)) t
        else MailOnly (storeChunk offset.toNat total.toNat false data s) t ∧ Replied 0x0401 h stOk [] none 0 s t)
    ∧ (chunkStatus offset.toNat total.toNat (final == 1) data.length s = stBadField →
      Completes (.formulaLoad h offset total final data) s fun t =>
        MailOnly (if offset = 0 ∧ totalOk total.toNat = false then s
          else { s with frm := { s.frm with load := none, pending := none } }) t
        ∧ Replied 0x0401 h stBadField [] none 0 s t)

/-- MEM.READ returns the bytes as the queued writes leave them; MEM.WRITE stores its bytes and changes no other byte of
the stack; MEM.CONFIG and MEM.FREEZE take effect before their response. -/
def Obligations.MemoryCommandsAct : Prop :=
  ∀ (s : State) (h : Hdr),
    (∀ (addr : BitVec 64) (n : BitVec 16), Accepts 0x2207 h modesYOLM s → 1 ≤ n.toNat → n.toNat ≤ 4064 →
      hostReach s addr.toNat n.toNat = true → hbmServes s = true → Completes (.memRead h addr n) s
        (Done 0x2207 h stOk [.str ((List.range n.toNat).map (fun i => hbmView s (addr.toNat + i)))] hbmTouch s))
    ∧ (∀ (addr : BitVec 64) (n : BitVec 16) (data : List Byte), Accepts 0x2208 h modesYOL s → 1 ≤ n.toNat → n.toNat ≤ 4064 →
      data.length = n.toNat → hostReach s addr.toNat n.toNat = true → hbmServes s = true →
      Completes (.memWrite h addr n data) s fun t =>
        Done 0x2208 h stOk [] (fun v => hbmWrite addr.toNat data (overlayWrites addr.toNat data (hbmTouch v))) s t
        ∧ (∀ i, i < n.toNat → hbmByte t (addr.toNat + i) = data.getD i 0)
        ∧ (∀ a, a < addr.toNat ∨ addr.toNat + n.toNat ≤ a → hbmByte t a = hbmByte s a))
    ∧ (∀ (regions : BitVec 256) (par : BitVec 128), Accepts 0x2201 h [.standby] s → regionsOk regions = true →
      memParOk par.toNat = true → (∀ f, s.frm.active = some f → ringFits regions f = true) →
      (∀ f, s.frm.pending = some f → ringFits regions f = true) → Completes (.memConfig h regions par) s fun t =>
        Done 0x2201 h stOk [] (fun v => (memConfig regions par v).2) s t ∧ t.mem.regions = regions ∧ t.mem.par = par)
    ∧ (Accepts 0x2204 h [.standby] s → Completes (.memFreeze h) s fun t =>
        Done 0x2204 h stOk [] (hbmFreeze 5 none) s t
        ∧ (s.mem.st = .active ∨ s.mem.st = .selfRefresh → t.mem.st = .frozen ∧ t.mem.ready = false
          ∧ ∃ d, t.mem.diag = some d ∧ d.cause = 5))

/-- LOOPBACK.SET sets and clears loopbacks at once and begins or ends the loop run; CAPTURE.START arms the lower free channel
for T; CAPTURE.STOP ends the running capture of its point with END 1 and returns the words written (R439 to R444). -/
def Obligations.TestCommandsAct : Prop :=
  ∀ (s : State) (h : Hdr),
    (∀ (path depth : BitVec 8) (mask : BitVec 256), Accepts 0x3001 h [.standby] s → path.toNat ≤ 3 →
      depth.toNat ≤ loopDepths path.toNat → (loopWhole path.toNat depth.toNat = true ∨ mask.toNat < 2 ^ loopItems path.toNat) →
      ¬ (path = 0 ∧ 4 ≤ depth.toNat ∧ s.frm.active = none) →
      (depth = 0 ∨ (jobOf 0x3004 s).isNone = true) → Completes (.loopbackSet h path depth mask) s
        (Done 0x3001 h stOk [] (fun v => loopRunUpdate (setLoops path.toNat depth.toNat mask v)) s))
    ∧ (∀ (point index : BitVec 16) (dest : BitVec 8) (at_ : TInst) (words : BitVec 32) (offset : BitVec 64) (m n : Nat),
      Accepts 0x3002 h modesYOLM s → captureIndexes point.toNat = some m → index.toNat < m → dest.toNat ≤ 1 →
      tinstOk at_ = true → checkT (tinst16 at_) s = stOk →
      (dest = 1 → s.mem.st ≠ .frozen ∧ s.mem.st ≠ .reset ∧ ∃ b l, regionOfKind s.mem.regions 3 = some (b, l) ∧
        offset.toNat + 128 + roundUp (words.toNat * captureWordBytes s point.toNat index.toNat) 64 ≤ l) →
      [0, 1].find? (fun n => !captureBusy s n) = some n →
      Completes (.captureStart h point index dest at_ words offset) s fun t =>
        MailOnly (capSet n { capReset with
          active := true, point := point, index := index, dest := if dest = 1 then 1 else 0, t := tinst16 at_
          words := words.toNat, offset := offset.toNat, buf := (capGet s n).buf } s) t
        ∧ Replied 0x3002 h stOk [] none 0 s t)
    ∧ (∀ (point index : BitVec 16) (n : Nat), Accepts 0x3003 h modesYOLM s →
      [0, 1].find? (fun n => (capGet s n).active && (capGet s n).point == point && (capGet s n).index == index) = some n →
      Completes (.captureStop h point index) s
        (Done 0x3003 h stOk [.num 4 (capGet s n).done] (captureEnd n 1) s))

/-- A long-running command that ends leaves the list of those in progress and is answered with its status, EFFECT and
payload on the channel that issued it, with the time stamp of its arrival (R389, R397). -/
def Obligations.EndedJobIsAnswered : Prop :=
  ∀ (s : State) (j : Job) (st : Nat) (eff : Option Stamp) (pay : List Fld),
    MailOnly { s with nose := { s.nose with jobs := s.nose.jobs.erase j } } (endJob j st eff pay s)
    ∧ (let r : Response := ⟨j.src, j.tag, j.opcode, BitVec.ofNat 16 st, eff, j.arrivalNs, 0, pay⟩
       match j.src with
       | .pcie => (s.nose.rspProd - s.nose.rspCons).toNat < 64 →
          FMap.find (endJob j st eff pay s).nose.rspRing (s.nose.rspProd.toNat % 64) = some r
       | .inband p _ _ => portIsUp s p.val = true → .rspFrame p.val r ∈ (endJob j st eff pay s).outs)

/-- The jobs of fuses, flash, the formula's verification, the HBM's restore and the self-tests end as their rules say. -/
def Obligations.DeviceJobsComplete : Prop :=
  ∀ (s : State) (j : Job),
    (∀ region bit l b x rest, jobOf 0x3902 s = some j → j.body = .fuse region bit l → fuseSkip bit l = (b, x :: rest) →
      exec (.fuseBitProgram true) s = .next
          (let u := { s with boot := { s.boot with fuses := fuseSet s.boot.fuses region b } }
           if rest.any id then
             { u with nose := { u.nose with jobs := u.nose.jobs.map (fun y =>
               if y == j then { y with body := .fuse region (fuseSkip (b + 1) rest).1 (fuseSkip (b + 1) rest).2 } else y) } }
           else endJob j stOk none [] u)
      ∧ exec (.fuseBitProgram false) s = .next
          (endJob j stJobFailed none [] (raiseErr 0x08 0xD 0 1 (errDetail [(8, region), (16, b)]) s)))
    ∧ (jobOf 0x0401 s = some j → j.body = .verify → ∀ st f u, verifyPending s = (st, f, u) →
      exec .formulaVerifyComplete s = .next (endJob j st none (f.elim [] (fun f => [.num 4 f.id.toNat, .num 2 f.revision.toNat, .num 2 0]))
        { u with frm := { u.frm with load := none, pending := f } })
      ∧ (st ≠ stOk → f = none))
    ∧ (∀ eyes8 eyesS, jobOf 0x2205 s = some j → j.body = .memRestore →
      exec (.memRestoreComplete eyes8 eyesS) s = .next
        (if eyesOk eyes8 && eyesOk eyesS then
          endJob j stOk none [] (raiseEv 0x31 0xB [] { s with mem := { s.mem with ready := true, eyes8 := eyes8, eyesS := eyesS } })
        else endJob j stTrainFail none [] s))
    ∧ (∀ target fails' eyes8 eyesS, jobOf 0x3004 s = some j → j.body = .bist target →
      exec (.bistComplete fails' eyes8 eyesS) s = .next
        (let k := target.toNat % 256
         let u := bistLeaves k (target.toNat / 256) eyes8 eyesS s
         let u := if k = 0x10 ∨ k = 0x11 then u else releaseFormulas u
         let result := if fails' = 0 then 0 else 1
         endJob j stOk none [.num 4 result, .num 4 fails'.toNat]
           (raiseEv 0x49 0xE [.num 2 target.toNat, .num 2 0, .num 4 result, .num 4 fails'.toNat] u)))
    ∧ (∀ off erase data, jobOf 0x3801 s = some j → j.body = .flash off erase data → ∃ t, exec .flashWriteComplete s = .next t
      ∧ (∃ u, t = endJob j stOk none [] u ∧ (∀ i, i < data.length → flashByte t (off + i) = data.getD i 0)
        ∧ { u with boot := s.boot } = s)
      ∧ (erase = false → ∀ a, a < off ∨ off + data.length ≤ a → flashByte t a = flashByte s a))

/-- A host job's blocks and sections leave on its queue and its response gives their number: RECOMBINE.RUN once every beat's
job has ended, CSI.EXPORT, DD.FETCH, CODEC.RUN with what it has done, and a job that an event ended with its RESULT. -/
def Obligations.HostJobsComplete : Prop :=
  ∀ (s : State) (j : Job),
    (∀ c q a b l, jobOf 0x1501 s = some j → j.body = .recombine c q a b l →
      (∀ x ∈ s.dd.jobs, x.host = true → x.c = c → x.st ≠ .running) →
      exec (.hostJobComplete 0x1501) s = .next
        (let done := s.dd.jobs.filter (fun x => x.host && x.c == c && x.st == .done)
         let u := done.foldl (fun s x => (replaySections x s).1.foldl (fun s b => addDue q (.aux b false) s) (replaySections x s).2) s
         endJob j stOk none [.num 4 done.length, .num 1 0, .num 3 0]
           { u with dd := { u.dd with jobs := u.dd.jobs.filter (fun x => !x.host) } }))
    ∧ (∀ c q b l, jobOf 0x1601 s = some j → j.body = .csi c q b l →
      exec (.hostJobComplete 0x1601) s = .next
        (let blocks := ((List.range 64).filter (fun l' => l.getLsbD l')).flatMap (fun l' =>
            (FMap.get [] s.dd.archive (archiveKey c l' (linNear s b))).zipIdx.map (fun x =>
              codecEntry b c (x.2 / 16) (x.2 % 16) l' x.1))
         endJob j stOk none [.num 4 blocks.length, .num 1 0, .num 3 0] (sendCodec q blocks s)))
    ∧ (∀ q a b, jobOf 0x1702 s = some j → j.body = .ddFetch q a b →
      exec (.hostJobComplete 0x1702) s = .next
        (let blocks := ((retained s).filter (fun x => decide (linNear s a ≤ x) && decide (x ≤ linNear s b))).flatMap (fun x =>
            (flaconOf s x).elim [] (fun i => (ulCarriers s).flatMap (fun c => (List.range (carrierOf s c).nprb).flatMap (fun p =>
              (List.range 16).map (fun g => codecEntry (stampOfLin x) c p g 0 (flaconRead s i (flaconBlock s c p g)))))))
         endJob j stOk none [.num 4 blocks.length, .num 1 0, .num 3 0] (sendCodec q blocks s)))
    ∧ (∀ dec res q n src dst len, jobOf 0x1801 s = some j → j.body = .codec dec res q n src dst len →
      ∃ r u, codecLoop dec res (q != 0xFFFF) len n (⟨0, 0, 0, src, [], [], none⟩, s) = (r, u)
        ∧ exec (.hostJobComplete 0x1801) s = .next
          (let result := if r.result = 0 ∧ 0 < r.raw then 1 else r.result
           endJob j (if result ≤ 1 then stOk else stJobFailed) none
             [.num 2 r.done, .num 2 r.raw, .num 1 result, .num 3 0, .num 4 (if q = 0xFFFF then dst + codecWritten r else 0)]
             (if r.result = 2 then count 0x702 0 (codecOutput res q dst r u) else codecOutput res q dst r u)))
    ∧ (∀ op r, op = 0x1601#16 ∨ op = 0x1702#16 → jobOf op.toNat s = some j → j.body = .failed r →
      exec (.hostJobComplete op) s = .next
        (endJob j (if r ≤ 1 then stOk else stJobFailed) none [.num 4 0, .num 1 r, .num 3 0] s))

/-- NOP, MAC, TAP, ADDS, ADDR, ADDA, GXA, EXP, NORM, ASH, RCPS and RSQS at the program counter of a context that can execute:
where no member waits for a move, every member of the gang does the work and goes on; GXA takes what its partner's
accumulators held before the instruction. -/
def Obligations.TermWordsRun : Prop :=
  ∀ (k : Fin 96) (bg : Bool) (w : AeW) (s : State),
    (atPc s k bg 0x00 w = true → exec (.nop k bg w) s = .next (gangRun k bg ⟨[], none, [], none, 1⟩ (fun _ u => u) advancePc s))
    ∧ (atPc s k bg 0x01 w = true → noWait k bg (readBoth bg w) s → exec (.mac k bg w) s
        = .next (gangRun k bg (termCost w [] 1) (macBody bg w) advancePc s))
    ∧ (atPc s k bg 0x02 w = true → noWait k bg (tapAccess bg w) s → exec (.tap k bg w) s
        = .next (gangRun k bg (termCost w [0x23] 1) (tapBody bg w) advancePc s))
    ∧ (atPc s k bg 0x03 w = true → noWait k bg (readBoth bg w) s → exec (.adds k bg w) s
        = .next (gangRun k bg (termCost w [] 1) (addsBody bg w) advancePc s))
    ∧ (atPc s k bg 0x04 w = true → noWait k bg (rawAccess bg w false) s → exec (.addr k bg w) s
        = .next (gangRun k bg (termCost w [] 2) (addrBody bg w) advancePc s))
    ∧ (atPc s k bg 0x05 w = true → exec (.adda k bg w) s
        = .next (gangRun k bg ⟨[w.acs.val], some w.acd.val, [], none, 1⟩
          (fun j u => addAccs j bg w (clearsNow u j bg w) (fun l => accGet (ctxGet u j bg) w.acs.val l) u) advancePc s))
    ∧ (atPc s k bg 0x06 w = true → exec (.gxa k bg w) s
        = .next (gangRun k bg ⟨[w.acs.val], some w.acd.val, [], none, 2⟩
          (fun j u => addAccs j bg w false
            (fun l => accGet (ctxGet s (k.val + ((j - k.val) ^^^ immBits w 3 0)) bg) w.acs.val l) u) advancePc s))
    ∧ (atPc s k bg 0x08 w = true → exec (.exp k bg w) s
        = .next (gangRun k bg ⟨[w.acs.val], some w.acd.val, [], none, 1⟩
          (fun j u => accAll j bg w.acd.val (fun l => accExp (immBits w 0 0 == 1) (accGet (ctxGet u j bg) w.acs.val l)) u)
          advancePc s))
    ∧ (atPc s k bg 0x09 w = true → exec (.norm k bg w) s
        = .next (gangRun k bg ⟨[w.acs.val, w.acd.val], some w.acd.val, [], none, 1⟩
          (fun j u => accAll j bg w.acd.val (fun l =>
            accNorm (accGet (ctxGet u j bg) w.acd.val l) (accGet (ctxGet u j bg) w.acs.val l)) u) advancePc s))
    ∧ (atPc s k bg 0x0A w = true → exec (.ash k bg w) s
        = .next (gangRun k bg ⟨[w.acd.val], some w.acd.val, [], none, 1⟩
          (fun j u => accAll j bg w.acd.val (fun l => accAsh (signed 6 (immBits w 5 0)) (accGet (ctxGet u j bg) w.acd.val l)) u)
          advancePc s))
    ∧ (atPc s k bg 0x0B w = true → noWait k bg (seedAccess bg w) s → exec (.rcps k bg w) s
        = .next (gangRun k bg ⟨[], none, wordRegs w, none, 1⟩ (seedBody seedRcp bg w) advancePc s))
    ∧ (atPc s k bg 0x0C w = true → noWait k bg (seedAccess bg w) s → exec (.rsqs k bg w) s
        = .next (gangRun k bg ⟨[], none, wordRegs w, none, 1⟩ (seedBody seedRsq bg w) advancePc s))

/-- RDW, RDC, RDB, RDR, MOV, UNPK and ZERO at the program counter: where no member waits, every member writes its cells and
goes on. -/
def Obligations.CellWordsRun : Prop :=
  ∀ (k : Fin 96) (bg : Bool) (w : AeW) (s : State),
    (atPc s k bg 0x10 w = true → noWait k bg (roAccess bg w) s → exec (.rdw k bg w) s
        = .next (gangRun k bg (roCost w 1) (rdwBody bg w) advancePc s))
    ∧ (atPc s k bg 0x11 w = true → noWait k bg (roAccess bg w) s → exec (.rdc k bg w) s
        = .next (gangRun k bg (roCost w 1) (rdcBody bg w) advancePc s))
    ∧ (atPc s k bg 0x12 w = true → noWait k bg (rdbAccess bg w) s → exec (.rdb k bg w) s
        = .next (gangRun k bg (roCost w 1) (rdbBody bg w) advancePc s))
    ∧ (atPc s k bg 0x13 w = true → noWait k bg (rdrAccess bg w) s → exec (.rdr k bg w) s
        = .next (gangRun k bg (roCost w 2) (rdrBody bg w) advancePc s))
    ∧ (atPc s k bg 0x18 w = true → noWait k bg (movAccess bg w) s → exec (.mov k bg w) s
        = .next (gangRun k bg ⟨[], none, wordRegs w, none, 1⟩ (movBody bg w) advancePc s))
    ∧ (atPc s k bg 0x19 w = true → noWait k bg (unpkAccess bg w) s → exec (.unpk k bg w) s
        = .next (gangRun k bg ⟨[], none, wordRegs w, none, 1⟩ (unpkBody bg w) advancePc s))
    ∧ (atPc s k bg 0x1A w = true → noWait k bg (roAccess bg w) s → exec (.zero k bg w) s
        = .next (gangRun k bg ⟨[], none, wordRegs w, none, 1⟩ (zeroBody bg w) advancePc s))

/-- SETP, ADDP, MOVP, REP, LOOP, JMP, REL, JWAIT, JDONE and END at the program counter act in every member's context: a
register is written, a repeat or a loop begins, the program goes elsewhere, cells are released, a part is asked for or handed
back, the foreground is complete. An instruction that is not the one at the program counter does nothing, and a foreground access that must
wait for a move counts a wait in every member and does nothing else (MAC, RDW; R173, R174, R205). -/
def Obligations.ControlWordsRun : Prop :=
  ∀ (k : Fin 96) (bg : Bool) (w : AeW) (s : State),
    (atPc s k bg 0x20 w = true → exec (.setp k bg w) s
        = .next (gangRun k bg (regCost w []) (setReg bg (regDst w) (fun _ => immBits w 15 0)) advancePc s))
    ∧ (atPc s k bg 0x21 w = true → exec (.addp k bg w) s
        = .next (gangRun k bg (regCost w []) (setReg bg (regDst w) (fun c => regGet c (regDst w) + signed 16 (immBits w 15 0)))
          advancePc s))
    ∧ (atPc s k bg 0x22 w = true → exec (.movp k bg w) s
        = .next (gangRun k bg (regCost w [immBits w 29 24]) (setReg bg (regDst w) (fun c => regGet c (immBits w 29 24))) advancePc s))
    ∧ (atPc s k bg 0x28 w = true → exec (.rep k bg w) s
        = .next (gangRun k bg (ctlCost 1) (fun _ u => u) (fun c =>
          { c with rep := some (immBits w 15 0 + 1), repFirst := true, pc := c.pc + 1, iterEnd := false }) s))
    ∧ (atPc s k bg 0x29 w = true → exec (.loop k bg w) s
        = .next (gangRun k bg (ctlCost 1) (fun _ u => u) (fun c => setLoopRegs { c with
          loops := ⟨c.pc + 1, immBits w 28 16, immBits w 15 0 + 1⟩ :: c.loops, pc := c.pc + 1, iterEnd := false }) s))
    ∧ (atPc s k bg 0x2A w = true → exec (.jmp k bg w) s
        = .next (gangRun k bg (ctlCost 3) (fun _ u => u) (fun c => { c with pc := immBits w 12 0, iterEnd := false }) s))
    ∧ (atPc s k bg 0x2B w = true → exec (.rel k bg w) s = .next (gangRun k bg (ctlCost 1) (relBody w) advancePc s))
    ∧ (atPc s k bg 0x2C w = true → exec (.jwait k bg w) s
        = .next (gangRun k bg (ctlCost 1) (fun j u => if bg then clSet j { clOf u j with jwait := true } u else u) advancePc s))
    ∧ (atPc s k bg 0x2D w = true → exec (.jdone k bg w) s
        = .next (gangRun k bg (ctlCost 1) (fun j u => if bg then jobDone j (immBits w 3 0) u else u) advancePc s))
    ∧ (atPc s k bg 0x3F w = true → exec (.endProg k bg w) s
        = .next (gangRun k bg (ctlCost 1) (fun j u => if bg then u else clSet j { clOf u j with done := true } u)
          (fun c => { c with run := bg }) s))
    ∧ (atPc s k false 0x01 w = true → ¬ noWait k false (readBoth false w) s →
      exec (.mac k false w) s = .next ((gangOf s k).foldl (fun u j => count 0x404 j u) s))
    ∧ (atPc s k false 0x10 w = true → ¬ noWait k false (roAccess false w) s →
      exec (.rdw k false w) s = .next ((gangOf s k).foldl (fun u j => count 0x404 j u) s))
    ∧ (atPc s k bg 0x01 w = false → exec (.mac k bg w) s = .next s)
    ∧ (atPc s k bg 0x3F w = false → exec (.endProg k bg w) s = .next s)

/-- The work of an instruction in one cluster of a gang neither reads nor writes another cluster, so every member ends as if
it had worked alone. -/
def Obligations.GangMembersAreApart : Prop :=
  (∀ (bg : Bool) (w : AeW), OwnCluster (macBody bg w) ∧ OwnCluster (tapBody bg w) ∧ OwnCluster (addsBody bg w)
      ∧ OwnCluster (addrBody bg w) ∧ OwnCluster (seedBody seedRcp bg w) ∧ OwnCluster (seedBody seedRsq bg w)
      ∧ OwnCluster (rdwBody bg w) ∧ OwnCluster (rdcBody bg w) ∧ OwnCluster (rdbBody bg w) ∧ OwnCluster (rdrBody bg w)
      ∧ OwnCluster (movBody bg w) ∧ OwnCluster (unpkBody bg w) ∧ OwnCluster (zeroBody bg w))
  ∧ ∀ (k : Nat) (bg : Bool) (cost : Cost) (body : Nat → State → State) (after : Ctx → Ctx) (s : State), OwnCluster body →
      (∀ j ∈ gangOf s k, clOf (gangRun k bg cost body after s) j
        = clOf (ctxSet j bg (after (charge (ctxGet (body j s) j bg) cost)) (body j s)) j)
      ∧ (∀ j, j ∉ gangOf s k → clOf (gangRun k bg cost body after s) j = clOf s j)

/-- What the terms leave in the accumulators where the cells read are reachable and sound: every lane of ACD takes the
product, the scaled word, the raw pair or the accumulator, cleared first where C says so; no other accumulator changes. -/
def Obligations.LanesTakeTheirTerms : Prop :=
  ∀ (bg : Bool) (w : AeW) (j : Nat) (s : State) (l : Nat), l < 128 →
    let c := ctxGet s j bg
    let x := accessCells w.xm.val (pointerOf c false w.xr.val)
    let y := accessCells w.ym.val (pointerOf c true w.yr.val)
    let lane (y : Bool) (cs : List Nat) (mode : Nat) : Cell := laneCell mode (cs.map (cellView s j bg y)).toArray l
    let takes (t : State) (m : Term) : Prop :=
      accGet (ctxGet t j bg) w.acd.val l = accTerm (clearsNow s j bg w) (accGet c w.acd.val l) m
        ∧ ∀ a, a < 8 → a ≠ w.acd.val → accGet (ctxGet t j bg) a l = accGet c a l
    (SoundReads s j bg false x → SoundReads s j bg true y →
      takes (macBody bg w j s) (macTerm w.j w.k w.n (lane false x w.xm.val) (lane true y w.ym.val)))
    ∧ (SoundReads s j bg w.k (if w.k then y else x) →
      takes (addsBody bg w j s) (scaledTerm w.j w.n (immBits w 4 0)
        (lane w.k (if w.k then y else x) (if w.k then w.ym.val else w.xm.val))))
    ∧ (let p := pointerOf c true w.yr.val
       let r := rowCells (tapRow c (cellView s j bg true p))
       SoundReads s j bg true [p] → SoundReads s j bg false r →
       takes (tapBody bg w j s) (macTerm w.j false w.n (cellView s j bg false (r.getD l 0)) (cellView s j bg true p)))
    ∧ (let o := oneSide w
       let r := pointerOf c o.1 o.2.2 / 128
       SoundReads s j bg o.1 (rowCells r ++ rowCells (r + 1)) →
       takes (addrBody bg w j s)
        (rawTerm w.n (cellView s j bg o.1 ((rowCells r).getD l 0)) (cellView s j bg o.1 ((rowCells (r + 1)).getD l 0))))
    ∧ (∀ (clear : Bool) (src : Nat → Acc),
       accGet (ctxGet (addAccs j bg w clear src s) j bg) w.acd.val l = accAcc clear w.n w.j (accGet c w.acd.val l) (src l)
       ∧ ∀ a, a < 8 → a ≠ w.acd.val → accGet (ctxGet (addAccs j bg w clear src s) j bg) a l = accGet c a l)
    ∧ (∀ (a : Fin 8) (f : Nat → Acc), accGet (ctxGet (accAll j bg a f s) j bg) a l = f l
       ∧ ∀ b, b < 8 → b ≠ a.val → accGet (ctxGet (accAll j bg a f s) j bg) b l = accGet c b l)

/-- What the words that write cells leave in the cluster's memories, where their cells are reachable and sound: TAP's row, the
seeds, the read-outs, MOV, UNPK and ZERO write exactly their cells. -/
def Obligations.CellsTakeTheirValues : Prop :=
  ∀ (bg : Bool) (w : AeW) (j : Nat) (s : State), CommitHeld s j →
    let c := ctxGet s j bg
    let x := accessCells w.xm.val (pointerOf c false w.xr.val)
    let y := accessCells w.ym.val (pointerOf c true w.yr.val)
    let o := oneSide w
    let one := accessCells o.2.1 (pointerOf c o.1 o.2.2)
    let reach (y : Bool) (l : List Nat) : Prop := ∀ a ∈ l, a < 32768 ∧ mayReach s j bg y a = true
    let out (wd f : Nat) := (List.range 128).map (fun l => roPair w wd f (accGet c w.acs.val l))
    (let p := pointerOf c true w.yr.val
     let row := tapRow c (cellView s j bg true p)
     SoundReads s j bg true [p] → SoundReads s j bg false (rowCells row) → reach false (rowCells (row + 1)) → w.k = false →
     Wrote s (tapBody bg w j s) j bg false
      ((rowCells (row + 1)).zip ((rowCells row).map (fun a => { cellView s j bg false a with ecc := 0 }))))
    ∧ (∀ seed, SoundReads s j bg false x → reach true y →
      Wrote s (seedBody seed bg w j s) j bg true (y.zipIdx.map (fun p =>
        let v := (x.map (cellView s j bg false)).getD p.2 cell0
        let d := (dataParts v.word).i
        let r := if d < 0 then none else seed d.toNat
        (p.1, ⟨coefWord (r.getD 0) 0 (auxOf (cellView s j bg true p.1).word), v.miss || r.isNone, v.taint, 0⟩))))
    ∧ (reach o.1 one → Wrote s (rdwBody bg w j s) j bg o.1
        (one.zip ((out 24 (15 + roSh w).toNat).map (fun p => ⟨dataWord p.1.1 p.1.2, p.2.1, p.2.2.1, 0⟩))))
    ∧ (reach true y → Wrote s (rdcBody bg w j s) j bg true
        ((y.zip (out 16 (23 + roSh w).toNat)).map (fun p =>
          (p.1, ⟨coefWord p.2.1.1 p.2.1.2 (auxOf (cellView s j bg true p.1).word), p.2.2.1, p.2.2.2.1, 0⟩))))
    ∧ (let base := blkBase (pointerOf c o.1 o.2.2)
       let cells := ((List.range (immBits w 15 12)).flatMap (fun i =>
         (rdbBlock w (immBits w 24 16 + i) ((List.range 12).map (fun n => accGet c w.acs.val (12 * i + n)))).1)).zipIdx.map
           (fun p => (base + p.2, p.1))
       reach o.1 (cells.map (fun p => p.1)) → Wrote s (rdbBody bg w j s) j bg o.1 cells)
    ∧ (let r := pointerOf c o.1 o.2.2 / 128
       reach o.1 (rowCells r ++ rowCells (r + 1)) → Wrote s (rdrBody bg w j s) j bg o.1
        ((rowCells r).zip ((out 48 0).map (fun p => ⟨BitVec.ofInt 48 p.1.1, p.2.1, p.2.2.1, 0⟩))
          ++ (rowCells (r + 1)).zip ((out 48 0).map (fun p => ⟨BitVec.ofInt 48 p.1.2, p.2.1, p.2.2.1, 0⟩))))
    ∧ (let src := if w.k then y else x
       let dst := if w.k then x else y
       SoundReads s j bg w.k src → reach (!w.k) dst → Wrote s (movBody bg w j s) j bg (!w.k) (dst.zipIdx.map (fun p =>
        (p.1, { (if src.length = 1 then (src.map (cellView s j bg w.k)).getD 0 cell0
          else (src.map (cellView s j bg w.k)).getD p.2 cell0) with ecc := 0 }))))
    ∧ (let m := unpkCells c w
       let cell (i : Nat) : Cell := (m.1.map (cellView s j bg w.k)).getD i cell0
       SoundReads s j bg w.k m.1 → reach (!w.k) m.2 → Wrote s (unpkBody bg w j s) j bg (!w.k) (m.2.zip ((List.range 128).map (fun l =>
        let head := cell (13 * (l / 12))
        let word := cell (13 * (l / 12) + 1 + l % 12)
        let part (v : Int) : Int := (unpkPart (bits head.word.toNat 47 44) (immBits w 35 32) v).1
        if 12 * immBits w 15 12 ≤ l then cellMiss
        else ⟨dataWord (part (dataParts word.word).i) (part (dataParts word.word).q), head.miss || word.miss,
          head.taint || word.taint, 0⟩))))
    ∧ (reach o.1 one → Wrote s (zeroBody bg w j s) j bg o.1 (one.map (fun a => (a, cell0))))

/-- How an access meets a cell: an unreachable one reads zero with MISS and takes nothing, with a record; a single-bit error is
corrected in place and counted; an uncorrectable one reads zero with MISS, is counted and reported, and stays as it is; a
held range takes a write in the commit buffer (R159, R180, R191). -/
def Obligations.CellAccessRules : Prop :=
  ∀ (k : Nat) (bg y : Bool) (pc cell : Nat) (v : Cell) (s : State), cell < 32768 →
    (mayReach s k bg y cell = false →
      cellRead k bg y pc cell s = (cellMiss, raiseErr 0x04 4 k 3 (errDetail [(1, if y then 1 else 0), (15, cell), (13, pc), (1, if bg then 1 else 0)]) s)
      ∧ cellWrite k bg y pc cell v s = (cellRead k bg y pc cell s).2)
    ∧ (mayReach s k bg y cell = true → (cellRaw s k y cell).ecc = 1 → (bg = true ∨ FMap.find (clOf s k).commit (cellKey y cell) = none) →
      (cellRead k bg y pc cell s).1 = { cellRaw s k y cell with ecc := 0 }
      ∧ cellRaw (cellRead k bg y pc cell s).2 k y cell = { cellRaw s k y cell with ecc := 0 }
      ∧ ((cellRead k bg y pc cell s).2).ctr = (count 0x402 k s).ctr)
    ∧ (mayReach s k bg y cell = true → (cellRaw s k y cell).ecc = 2 → (bg = true ∨ FMap.find (clOf s k).commit (cellKey y cell) = none) →
      (cellRead k bg y pc cell s).1 = cellMiss
      ∧ (cellRead k bg y pc cell s).2.ae = s.ae
      ∧ ∃ syn, (cellRead k bg y pc cell s).2 = raiseErr 0x03 4 k 3
        (errDetail [(1, if y then 1 else 0), (15, cell), (7, syn), (1, if bg then 1 else 0)])
        (count 0x403 k { s with fresh := s.fresh + 1 }))
    ∧ (∀ r, mayReach s k false y cell = true → outRangeOf s k y cell = some r → heldRange s r = true →
      cellRaw (cellWrite k false y pc cell v s) k y cell = cellRaw s k y cell
      ∧ cellView (cellWrite k false y pc cell v s) k false y cell = v)

/-- The next part of a job goes to the cluster that waits for it; the suspension of a background program is requested, and takes
place and is counted at an interruptible point (R178, R204, R247). -/
def Obligations.BackgroundIsServed : Prop :=
  ∀ (k : Fin 96) (s : State),
    (∀ d j q, ddPar s = some d → nextPart s k = some (j, q) → (clOf s k).jwait = true → hbmServes s = true →
      isFenced s 7 0 = false → isRetained s j.lin = true → Completes (.jobPartPlaced k) s fun t =>
        t = placePart k j q d s ∧ (clOf t k).jwait = false ∧ (clOf t k).part = some ⟨j.c, j.lin, j.host, q⟩)
    ∧ ((clEntry s k).bgEn = true → (clOf s k).suspended = false → exec (.bgSuspendRequest k) s
        = .next (clSet k { clOf s k with suspReq := true } s))
    ∧ ((clOf s k).suspReq = true → (clOf s k).suspended = false → interruptible (clOf s k) = true → exec (.bgSuspend k) s
        = .next (count 0x405 k (clSet k { clOf s k with suspended := true, suspReq := false } s)))

/-- UNIT_START, UNIT_COMPLETE and BUDGET_OVERRUN: an instance with a budget begins its beat program at START; one whose
program is at its end completes, at the latest at LIMIT; one that has not is stopped, its outputs take their substitutes, and
the overrun is counted, reported and a verdict. Without that nothing happens (R23, R24). -/
def Obligations.BeatProgramsRun : Prop :=
  ∀ (u : Fin 15) (i : Fin 96) (s : State),
    (∀ b, startBudget s u.val i.val = some b → Completes (.unitStart u i) s fun t =>
      let v := atOffset b.start s
      t = unitBegin u.val i.val { v with frm := { v.frm with running := v.frm.running ++ [unitKey u.val i.val] } })
    ∧ (startBudget s u.val i.val = none → exec (.unitStart u i) s = .next s)
    ∧ (unitRunning s u.val i.val = true → programDone s u.val i.val = true →
      (∃ b, budgetOf s u.val i.val (linSymbol s.tb.lin) = some b ∧ offsetNow s ≤ b.limit) →
      Completes (.unitComplete u i) s fun t =>
        let v := noLonger u.val i.val s
        t = unitFinish u.val i.val { v with frm := { v.frm with completed := v.frm.completed ++ [unitKey u.val i.val] } })
    ∧ (∀ b, unitRunning s u.val i.val = true → budgetOf s u.val i.val (linSymbol s.tb.lin) = some b →
      Completes (.budgetOverrun u i) s fun t =>
        let v := noLonger u.val i.val (atOffset b.limit s)
        let w := unitStop u.val i.val { v with frm := { v.frm with overrun := v.frm.overrun ++ [unitKey u.val i.val] } }
        t = markSubst u.val i.val (raiseEv 0x09 0x5 [.num 1 u.val, .num 1 i.val] (count 0x500 0
          (makeVerdict 0x04 0x5 w.tb.beat (u.val * 2 ^ 60 + i.val * 2 ^ 52) w))))
    ∧ (unitRunning s u.val i.val = false →
      exec (.unitComplete u i) s = .next s ∧ exec (.budgetOverrun u i) s = .next s)

/-- A stopped cluster keeps nothing of its unfinished program: every cell it wrote outside a held range is zero with MISS, and
so is every cell of an output range that is not held; the commit buffer of a held range is dropped, and its cells stay as
they were committed (R179). A commit writes what the foreground sees to the cells (R180). -/
def Obligations.StopsAndCommits : Prop :=
  ∀ (j : Nat) (s : State),
    (∀ key, (key ∈ (clOf s j).written ∨ ∃ r ∈ (clEntry s j).outs, r.kind ≠ 0 ∧ heldRange s r = false
        ∧ ∃ i, i < r.count ∧ key = cellKey r.y (r.first + i) ∧ r.first + i < 32768) → key < 65536 →
      cellRaw (aeStopOne j s) j (decide (32768 ≤ key)) (key % 32768) = cellMiss)
    ∧ (∀ y a, a < 32768 → cellKey y a ∉ (clOf s j).written →
        (∀ key ∈ (clOf s j).written, key < 65536) →
        (∀ r ∈ (clEntry s j).outs, r.kind ≠ 0 → heldRange s r = false → ∀ i, i < r.count → cellKey r.y (r.first + i) ≠ cellKey y a) →
      cellRaw (aeStopOne j s) j y a = cellRaw s j y a)
    ∧ ((clOf (aeStopOne j s) j).commit = [] ∧ (clOf (aeStopOne j s) j).written = [])
    ∧ (∀ i, i ≠ j → clOf (aeStopOne j s) i = clOf s i)
    ∧ (FMap.sorted (clOf s j).commit = true → (∀ p ∈ (clOf s j).commit, p.1 < 65536) →
        (∀ y a, a < 32768 → cellRaw (aeCommitOne j s) j y a = cellView s j false y a)
        ∧ (clOf (aeCommitOne j s) j).commit = [] ∧ ∀ i, i ≠ j → clOf (aeCommitOne j s) i = clOf s i)

/-- MOVE_START and MOVE_END: a move of the beat's symbol starts at its START offset where the formula executes, and at its
end, once its source is ready, what it read stands at its destination (R32, R174). -/
def Obligations.MovesCarryTheirBytes : Prop :=
  ∀ (idx : Nat) (m : Move) (s : State), moveNo s idx = some m →
    (s.frm.executing = true → inRupture s = false → s.frm.moving.contains idx = false → s.frm.moved.contains idx = false →
      Completes (.moveStart idx) s fun t =>
        let v := atOffset m.start s
        t = { v with frm := { v.frm with moving := v.frm.moving ++ [idx] } })
    ∧ (s.frm.moving.contains idx = true → sourceReady s m = true → Completes (.moveEnd idx) s fun t =>
        let r := moveRead m.src m.srcAddr (64 * m.len) (atOffset (m.start + m.len) s)
        let w := moveWrite m.dst m.dstAddr r.1.1 r.1.2 r.2
        t = { w with frm := { w.frm with
          moving := w.frm.moving.filter (fun i => i != idx), moved := w.frm.moved ++ [idx] } })
    ∧ (s.frm.moving.contains idx = false ∨ sourceReady s m = false → exec (.moveEnd idx) s = .next s)

/-- UNIT_STATE_PUBLISH, DIGEST_RECORD and IDLE_GUARD_START, one after the other: every instance's state word stands in the
snapshot, whose generation has risen by two, after every program still running was stopped; then the digest record of an
executing beat is written; then the lead seals the beat. Each comes once in a beat (R23, R51, R370, R456). -/
def Obligations.CloseOutStages : Prop :=
  (∀ (dev : List (Fin 15 × Fin 96 × UState)) (s : State), s.frm.stage = 0 → beatsRun s = true →
    Completes (.unitStatePublish dev) s fun t =>
      let v := writeWords dev (advanceTo 65792 (stopAll s))
      let w := closeVerdictsOfBeat (wordList.foldl (fun x p => comparePublished p.1 p.2 (publishedState dev x p.1 p.2) x) v)
      t = updateSummary { w with frm := { w.frm with stage := 1 } } ∧ t.frm.stage = 1)
  ∧ (∀ (dev : List (Fin 15 × Fin 96 × UState)) (s : State),
      (writeWords dev s).bar0.snapGen = s.bar0.snapGen + 2 ∧ (writeWords dev s).bar0.snapBeat = s.tb.beat
      ∧ ∀ u k, u < 15 → k < unitInstances u →
        FMap.find (writeWords dev s).bar0.words (unitKey u k) = some (publishWord s u k (publishedState dev s u k)))
  ∧ (∀ s : State, s.frm.stage = 1 → Completes .digestRecord s fun t =>
      let v := advanceTo 66048 s
      let v := { v with frm := { v.frm with stage := 2 } }
      t.frm.stage = 2
      ∧ (s.frm.executing = false → t = v)
      ∧ (s.frm.executing = true → t.frm.digest = some (digestNow v).1 ∧ t.frm.digested = []
        ∧ t.twn.records = (digestNow v :: s.twn.records).take 64 ∧ t.nose = s.nose ∧ t.mem = s.mem ∧ t.ctr = s.ctr))
  ∧ (∀ s : State, s.frm.stage = 2 → s.nose.mode ≠ .lead → Completes .idleGuardStart s fun t =>
      let v := advanceTo 66560 { s with frm := { s.frm with stage := 3 } }
      t = resizeGuard v)
  ∧ (∀ s : State, s.frm.stage = 2 → s.nose.mode = .lead → Completes .idleGuardStart s fun t =>
      t = resizeGuard (sealBeat (advanceTo 66560 { s with frm := { s.frm with stage := 3 } })))
  ∧ (∀ s : State, s.frm.stage = 3 → (∀ dev, exec (.unitStatePublish dev) s = .next s)
      ∧ exec .digestRecord s = .next s ∧ exec .idleGuardStart s = .next s)

/-- ADMISSION_INSTANT, DD_READ_DEADLINE, ACCORD_PARTIAL_DEADLINE and RECOMBINE_DEADLINE: the window whose instant has come is
closed, and a late job, member or result is given up (R40, R230, R247, R249, R295, R369). -/
def Obligations.DeadlinesClose : Prop :=
  ∀ (c : Fin 4) (slot : Fin 64) (s : State),
    (s.frm.executing = true → s.nose.mode ≠ .sillage → Completes (.admissionInstant c) s fun t =>
      4 * (s.tb.lin + (carrierOf s c.val).admitBeats) + c.val ∈ t.sq.closed)
    ∧ (s.nose.mode = .sillage → exec (.admissionInstant c) s = .next s)
    ∧ (∀ off cycle, ddDeadline s 2 c.val = some (off, cycle) → s.nose.mode ≠ .sillage →
      let v := advanceTo cycle s
      let lin := s.tb.lin - off
      s.dd.jobs.any (fun j => !j.host && j.c == c.val && j.lin == lin && j.st == .running && !j.todo.isEmpty) = true →
      Completes (.ddReadDeadline c) s fun t =>
        t = applyDdMiss c.val lin (makeVerdict 0x08 0x8 (stampOfLin lin) ((c.val * 2 ^ 30 + lin % beatMod) * 2 ^ 32) v)
        ∧ ∀ j ∈ t.dd.jobs, j.host = false → j.c = c.val → j.lin = lin → j.st ≠ .running)
    ∧ (∀ off cycle, slotDeadline s slot.val = some (off, cycle) → s.nose.mode ≠ .sillage →
      Completes (.accordPartialDeadline slot) s fun t =>
        let v := advanceTo cycle s
        let lin := ((s.tb.lin : Int) - off).toNat
        t = accordClose slot.val lin (sendTwLead 0 (.close 2 (BitVec.ofNat 8 slot.val) (stampOfLin lin)) v))
    ∧ (∀ off cycle d j, ddDeadline s 4 c.val = some (off, cycle) → ddPar s = some d →
      s.dd.jobs.find? (fun j => !j.host && j.c == c.val && j.lin == s.tb.lin - off && j.st == .done) = some j →
      Completes (.recombineDeadline c) s fun t =>
        (∀ x ∈ j.slots, (FMap.find t.sq.finals (64 * (4 * (s.tb.lin - off) + c.val) + x.1)).isSome = true)
        ∧ t.nose = s.nose ∧ t.mem = s.mem ∧ t.dd = s.dd)

/-- LANE_BLOCK_LOCK, LANE_EMB_LOCK and LANE_TRAIN_TIMEOUT: a lane trains from CDR over BLOCK to EMB, its own transmit lane
starts with EMB, a lane that lost its lock awaits its relock boundary, and 100 µs after training began the lanes short of EMB
are reported and their transmit lanes fall back to the reference lane (R77, R78, R80, R81). -/
def Obligations.LanesTrain : Prop :=
  ∀ (e : Fin 256) (s : State),
    let l := laneOf s e.val
    (l.st = .cdr → exec (.laneBlockLock e) s = .next (laneSet e.val { l with st := .block, bad := 0 } s))
    ∧ (l.st ≠ .cdr → exec (.laneBlockLock e) s = .next s)
    ∧ (l.st = .block → Completes (.laneEmbLock e) s fun t =>
      t = txStartAll (laneSet e.val { l with st := .emb, locked := true, bad := 0, held := none } s)
      ∧ (laneOf t e.val).st = .emb ∧ (laneOf t e.val).locked = true
      ∧ (lwTxEn (laneWord s e.val) = true → txFromRef s e.val = false → (laneOf t e.val).txActive = true))
    ∧ (l.st = .lost → l.locked = false → Completes (.laneEmbLock e) s fun t =>
      (laneOf t e.val).st = .lost ∧ (laneOf t e.val).locked = true ∧ (laneOf t e.val).relock = true)
    ∧ (s.lnk.trainAt.isSome = true →
      let short := (List.range 256).filter (fun i => (laneOf s i).st == .cdr || (laneOf s i).st == .block)
      Completes .laneTrainTimeout s fun t =>
        (t.lnk.trainAt = none ∧ ∀ i, i < 256 → (laneOf t i).st = (laneOf s i).st
          ∧ (laneOf t i).txRef = ((laneOf s i).txRef || (decide (i ∈ short) && lwTxEn (laneWord s i))))
        ∧ (short ≠ [] → ∃ u, t = raiseEv 0x13 0x0 [.num 32 (elementMask short)] u)
        ∧ (short = [] → t.nose = s.nose ∧ t.ctr = s.ctr ∧ t.outs = s.outs))
    ∧ (s.lnk.trainAt = none → exec .laneTrainTimeout s = .next s)

/-- LANE_CDR_LOSS, ELASTIC_BUFFER_SLIP and LANE_RATE_FAULT: a lane in ALIGNED or SERVICE falls to LOST, is counted and
reported; one still short of that trains again (R62, R64, R80, R82). -/
def Obligations.LanesAreLost : Prop :=
  ∀ (e : Fin 256) (ppm : BitVec 16) (s : State),
    let l := laneOf s e.val
    (l.st = .aligned ∨ l.st = .service →
      exec (.laneCdrLoss e) s = .next (laneLost e.val 3 s)
      ∧ exec (.elasticBufferSlip e) s = .next (laneLost e.val 2 (count 0x003 e.val s))
      ∧ exec (.laneRateFault e ppm) s = .next
        (let v := raiseEv 0x10 0x0 [.num 1 e.val, .num 1 0, .num 2 ppm.toNat]
          (count 0x004 e.val (laneSet e.val { l with rateFault := true, st := .lost } s))
         if l.st = .service ∧ s.lnk.ref.val = e.val then refSwitch v else v))
    ∧ (l.st = .emb ∨ l.st = .block →
      exec (.laneCdrLoss e) s = .next
        (laneSet e.val { l with locked := false, relock := false, bad := 0, held := none, st := .cdr } s)
      ∧ exec (.laneRateFault e ppm) s = .next (raiseEv 0x10 0x0 [.num 1 e.val, .num 1 0, .num 2 ppm.toNat]
        (laneSet e.val { l with rateFault := true } s)))
    ∧ (l.st = .off → exec (.laneCdrLoss e) s = .next s ∧ exec (.elasticBufferSlip e) s = .next s
      ∧ exec (.laneRateFault e ppm) s = .next s)
    ∧ (l.st = .aligned ∨ l.st = .service → l.held = none → ¬ (l.st = .service ∧ s.lnk.ref.val = e.val) →
      (laneOf (laneLost e.val 3 s) e.val).st = .lost ∧ (∀ i, i ≠ e.val → laneOf (laneLost e.val 3 s) i = laneOf s i)
      ∧ counterGet (laneLost e.val 3 s) 0x004 e.val = Nat.min (counterGet s 0x004 e.val + 1) 65535)

/-- A reference lane that leaves service gives way to the next lane in service, in ascending order and around from 255 to 0;
every lane's offset is re-based, the switch is counted and reported; with no lane in service the reference stays (R64, R79). -/
def Obligations.ReferenceSwitches : Prop :=
  ∀ s : State,
    ((∀ i, 1 ≤ i → i ≤ 255 → inServiceLane s ((s.lnk.ref.val + i) % 256) = false) → refSwitch s = s)
    ∧ (∀ i, 1 ≤ i → i ≤ 255 → inServiceLane s ((s.lnk.ref.val + i) % 256) = true →
      (∀ j, 1 ≤ j → j < i → inServiceLane s ((s.lnk.ref.val + j) % 256) = false) →
      let n := (s.lnk.ref.val + i) % 256
      let t := refSwitch s
      t.lnk.ref.val = n
      ∧ (∀ e, e < 256 → laneOf t e = if (laneOf s e).indexed
          then { laneOf s e with offset := (laneOf s e).offset - (laneOf s n).offset } else laneOf s e)
      ∧ counterGet t 0x006 0 = Nat.min (counterGet s 0x006 0 + 1) 65535
      ∧ ∃ u, t = raiseEv 0x11 0x0 [.num 1 s.lnk.ref.val, .num 1 n] u)

/-- LANE_MULTIBLOCK and EMB_BOUNDARY: header errors are counted and sixteen in a window lose the lock; the multiblock held is
released as its CRC-12 judges it, and the arrived one is held; a boundary out of place, or too far from its prediction, loses
the lock; the boundary that an element awaits aligns it; any other is only noted (R67, R72, R79, R82). -/
def Obligations.MultiblocksArrive : Prop :=
  ∀ (e : Fin 256) (samples : List (BitVec 16 × BitVec 16)) (hdrs : BitVec 32) (crcOk : Bool) (stamp : Int) (s : State),
    let l := laneOf s e.val
    let bad := sumN ((List.range 32).map (fun i => if hdrs.getLsbD i then 1 else 0))
    let scan := headerScan l.bad hdrs
    let v := countBy 0x000 e.val bad (laneSet e.val { l with bad := scan.1 } s)
    (l.st ≠ .off → l.st ≠ .cdr → scan.2 = true → exec (.laneMultiblock e samples hdrs crcOk) s = .next (loseLock e.val 0 v))
    ∧ (l.st ≠ .off → l.st ≠ .cdr → scan.2 = false → l.locked = true → l.held = none →
      Completes (.laneMultiblock e samples hdrs crcOk) s fun t =>
        t = laneSet e.val { l with bad := scan.1, held := some (samples.take 64), heldNew := true } v)
    ∧ (∀ x, l.st ≠ .off → l.st ≠ .cdr → scan.2 = false → l.locked = true → l.held = some x →
      Completes (.laneMultiblock e samples hdrs crcOk) s fun t =>
        let w := releaseBlock e.val x crcOk (if crcOk then v else count 0x001 e.val v)
        t = laneSet e.val { laneOf w e.val with held := some (samples.take 64), heldNew := true } w)
    ∧ (l.st = .off ∨ l.st = .cdr → exec (.laneMultiblock e samples hdrs crcOk) s = .next s)
    ∧ (l.locked = true → exec (.embBoundary e stamp false) s = .next (loseLock e.val 1 (count 0x002 e.val s)))
    ∧ (l.locked = false → ∀ p, exec (.embBoundary e stamp p) s = .next s)
    ∧ (l.locked = true → l.rateFault = false → l.st = .aligned ∨ l.st = .service → l.awaiting = none → l.twinTa = none →
      boundaryOk e.val stamp (laneSet e.val { l with heldNew := false } s) = true → e.val ≠ s.lnk.ref.val →
      exec (.embBoundary e stamp true) s = .next (laneSet e.val { l with heldNew := false, last := some stamp }
        (laneSet e.val { l with heldNew := false } s)))
    ∧ (∀ a, l.locked = true → l.rateFault = false → l.awaiting = some a → a ≤ stamp → e.val ≠ s.lnk.ref.val →
      Completes (.embBoundary e stamp true) s fun t =>
        let n := laneOf t e.val
        n.st = .aligned ∧ n.ta = stamp ∧ n.indexed = true ∧ n.awaiting = none ∧ n.last = some stamp ∧ n.aligns = l.aligns + 1
        ∧ (rxOf t e.val).zeroAt.map (fun z => z.1) = some (beatAt16 stamp s + 2)
        ∧ (∀ i, i ≠ e.val → laneOf t i = laneOf s i)
        ∧ ∃ u, t = laneSet e.val n (makeVerdict 0x07 0x0 (stampOfLin (beatAt16 stamp s + 2))
            (alignPayload e.val 0 false stamp) u))

/-- ALIGN_PULSE, ALIGNMENT_FAILURE and TX_EXTENDED_MULTIBLOCK: at T_S the masked pins pulse and the masked elements await
their boundary; 4,096 ns later an element whose lane is not in EMB falls to LOST with a failing verdict; an active transmit
lane sends 64 sample pairs at a boundary, zeros while its element is not numbered (R65, R67, R69, R78). -/
def Obligations.AlignmentAsCommanded : Prop :=
  (∀ (t : Int) (pins : BitVec 16) (elems : BitVec 256) (s : State), s.lnk.align = some (t, pins, elems, false) →
    (s.nose.mode = .sillage → Completes .alignPulse s fun u => u.lnk.align = none ∧ u.lnk.lanes = s.lnk.lanes ∧ u.outs = s.outs)
    ∧ (s.nose.mode ≠ .sillage → Completes .alignPulse s fun u =>
      u.lnk.align = some (t, pins, elems, true)
      ∧ (∀ e, e < 256 → laneOf u e
          = if elems.getLsbD e then { laneOf s e with awaiting := some (t + 65536) } else laneOf s e)
      ∧ u.outs = ((List.finRange 16).filter (fun k => pins.getLsbD k.val)).reverse.map (fun k =>
          .pulse (.align k) true (t * 2 ^ 36
            + ((bits s.lnk.skew.toNat (8 * k.val + 7) (8 * k.val) * s.tb.inc.toNat / 8 : Nat) : Int))) ++ s.outs))
  ∧ (∀ s : State, (∀ t pins elems, s.lnk.align ≠ some (t, pins, elems, false)) → exec .alignPulse s = .next s)
  ∧ (∀ (t : Int) (pins : BitVec 16) (elems : BitVec 256) (s : State), s.lnk.align = some (t, pins, elems, true) →
    Completes .alignmentFailure s fun u => u.lnk.align = none ∧ ∀ e, e < 256 →
      ((elems.getLsbD e = false ∨ (laneOf s e).awaiting = none ∨ alignTestOk s e = true) → laneOf u e = laneOf s e)
      ∧ (elems.getLsbD e = true → (laneOf s e).awaiting.isSome = true → alignTestOk s e = false →
        laneOf u e = { laneOf s e with
          awaiting := none, aligns := (laneOf s e).aligns + 1
          st := if (laneOf s e).st = .off ∨ (laneOf s e).st = .lost then (laneOf s e).st else .lost }))
  ∧ (∀ (e : Fin 256) (s : State),
    let l := laneOf s e.val
    (l.txActive = false → exec (.txExtendedMultiblock e) s = .next s)
    ∧ (l.txActive = true → l.indexed = false → Completes (.txExtendedMultiblock e) s fun u =>
      u.outs = .laneTx e.val (List.replicate 64 (0, 0)) :: s.outs ∧ u.ctr = s.ctr ∧ u.efe = s.efe ∧ laneOf u e.val = l)
    ∧ (l.txActive = true → l.indexed = true → (rxOf s e.val).zeroAt = none → Completes (.txExtendedMultiblock e) s fun u =>
      (laneOf u e.val).txCount = l.txCount + 1
      ∧ ∃ x, x.length = 64 ∧ u.outs = .laneTx e.val x :: s.outs
        ∧ (s.nose.mode = .standby → s.twn.handover = none → s.twn.swapped = none → ∀ p ∈ x, p = (0, 0))))

/-- What the MAC does with a frame: nothing on a port that is not UP or outside service and STANDBY; a bad FCS, and a frame
that is not accepted, are counted and nothing else; an accepted frame is counted with its bytes and goes where its
EtherType says (R18, R266, R267, R269, R315). -/
def Obligations.FramesAreAccepted : Prop :=
  ∀ (f : RxFrame) (m : PtpMsg) (a : PtpAnnounce) (s : State),
    let p := f.port.val
    let e := ethParts f.bytes
    let u := frameCounted f s
    ∀ i ∈ frameRows f m a,
      (¬ Receives f s → exec i s = .next s)
      ∧ (Receives f s → f.fcsOk = false → exec i s = .next (count 0x904 p s))
      ∧ (Receives f s → f.fcsOk = true → ¬ KindTaken f s → exec i s = .next (count 0x907 p s))
      ∧ (FrameTaken 0xAEFE f s → exec i s = .next (ecpriFrame f e u))
      ∧ (FrameTaken 0x88B6 f s → exec i s = .next (managementEntry p e u))
      ∧ (FrameTaken 0x88B5 f s → exec i s = .next
        (accordFrame (decide (s.nose.mode = .sillage)) p (rxStamp u f f.last) e f.bytes u))
      ∧ (FrameTaken 0x88F7 f s → i ∈ [.macFrameReject f, .ecpriIqSection f, .ecpriRtControl f, .ecpriDelayMeasurement f,
          .managementFrame f, .accordExchangeFrame f] → exec i s = .next (count 0xA01 p u))
      ∧ (FrameTaken 0x88F7 f s → ptpOn s p = false ∨ m.supported = false ∨ m.domain.toNat ≠ ptpDomain s →
        exec i s = .next (count 0xA01 p u))

/-- eCPRI messages: an unknown or short one, or one of the wrong kind, is counted; a section or control message with an
invalid stamp, beyond the horizon or past its admission instant is discarded with its verdict; one whose identity its beat
already holds is counted; any other is filed in rank order in its window and, where a peer mirrors, forwarded (R270, R277, R40, R41,
R294, R367). -/
def Obligations.MessagesAreFiled : Prop :=
  ∀ (f : RxFrame) (s : State), FrameTaken 0xAEFE f s →
    let p := f.port.val
    let u := frameCounted f s
    let body := (ethParts f.bytes).body
    ∀ i ∈ [Instr.ecpriIqSection f, .ecpriRtControl f, .ecpriDelayMeasurement f],
      (ecpriParse body = none → exec i s = .next (count 0x90A p u))
      ∧ ∀ t l, ecpriParse body = some (t, l) → t ≠ 5 →
        let c := if t = 2 then ctlCarrier l else secCarrier l
        let b := msgBeat l
        let x : Item := ⟨t == 2, beAt l 0 2, if t = 2 then ctlMsg l else secId l, p, rxStamp u f f.last, l, f.bytes, false⟩
        let d := beatDist s.tb.beat b
        let early := (sqPar s).horizon < d ∧ d < 36700160
        let late := admissionTime s c (linNear s b) ≤ x.stamp * 2 ^ 36 ∨ (4 * linNear s b + c) ∈ s.sq.closed
        let same : Item → Bool := fun y => y.control == x.control && y.queue == x.queue && y.ident == x.ident
        let w := windowOpen c b s.sq.windows s
        (messageOk s p t l = false → exec i s = .next (count 0x90A p u))
        ∧ (messageOk s p t l = true → stampValid b = false → exec i s = .next (count 0x605 0 u))
        ∧ (messageOk s p t l = true → stampValid b = true → s.nose.mode ≠ .sillage →
          (early → exec i s = .next (discardArrival x.queue x.ident b 2 u))
          ∧ (¬ early → late → exec i s = .next (discardArrival x.queue x.ident b 1 u))
          ∧ (¬ early → ¬ late → ∀ v y, s.sq.windows.find? (fun v => v.beat == b && v.items.any same) = some v →
            v.items.find? same = some y → y.bytes.drop 4 = l.drop 4 → exec i s = .next (count 0x602 0 u))
          ∧ (¬ early → ¬ late → (∀ v ∈ s.sq.windows, v.beat = b → v.items.any same = false) → w.evicted = [] →
            (keepPrefix ((sqPar s).winBeat.getD c 0) (sectionLimit w) 0 [] (insertRank x w.items)).2 = [] →
            Completes i s fun t' =>
              t'.sq = { s.sq with windows := s.sq.windows.filter (fun v => !(v.c == c && v.beat == b))
                ++ [{ w with items := insertRank x w.items }] }
              ∧ x ∈ insertRank x w.items
              ∧ (s.twn.forwarding = false → t'.twn = s.twn ∧ t'.outs = s.outs)
              ∧ (s.twn.forwarding = true → s.twn.up = true → t'.outs
                = .tw 0 s.twn.txSeq s.tb.beat (.forward (BitVec.ofNat 4 p) false (BitVec.ofInt 36 x.stamp) f.bytes) :: s.outs)))

/-- One-way delay measurement: the first answer to a message in a beat is sent, a response to the own request is reported,
anything else is discarded and counted (R282). -/
def Obligations.DelaysAreMeasured : Prop :=
  ∀ (f : RxFrame) (l : List Byte) (s : State), FrameTaken 0xAEFE f s → ecpriParse (ethParts f.bytes).body = some (5, l) →
    let p := f.port.val
    let u := frameCounted f s
    let id := l.getD 0 0
    let act := (l.getD 1 0).toNat
    let v := portGet s p
    let src : Mac := BitVec.ofNat 48 (ethParts f.bytes).src
    (l.length < 20 → exec (.ecpriDelayMeasurement f) s = .next (count 0x90A p u))
    ∧ (20 ≤ l.length → s.nose.mode = .sillage → exec (.ecpriDelayMeasurement f) s = .next (count 0x90B p u))
    ∧ (20 ≤ l.length → s.nose.mode ≠ .sillage →
    (act = 0 → v.measured = false → Completes (.ecpriDelayMeasurement f) s fun t =>
      portGet t p = { v with measured := true } ∧ t.outs = .delayMeas p src 2 id (rxStamp u f f.sfd) :: s.outs
      ∧ counterGet t 0x901 p = Nat.min (counterGet s 0x901 p + 1) (2 ^ 48 - 1))
    ∧ (act = 3 → v.measured = false → Completes (.ecpriDelayMeasurement f) s fun t =>
      portGet t p = { v with measured := true, request := some (id, txStamp s p (now16 s)) }
      ∧ t.outs = .delayMeas p src 0 id (txStamp s p (now16 s)) :: s.outs)
    ∧ (act = 2 → ∀ tx, v.request = some (id, tx) → Completes (.ecpriDelayMeasurement f) s fun t =>
      t = raiseEv 0x22 0x9 ([.num 1 p, .num 1 id.toNat] ++ stampFlds tx ++ [.num 6 (beAt l 2 6), .num 4 (beAt l 8 4)])
        (portSet p { v with request := none } u))
    ∧ (act ≠ 0 ∧ act ≠ 2 ∧ act ≠ 3 ∨ (act = 0 ∨ act = 3) ∧ v.measured = true ∨ act = 2 ∧ (∀ tx, v.request ≠ some (id, tx)) →
      exec (.ecpriDelayMeasurement f) s = .next (count 0x90B p u)))

/-- Accord exchange frames at an anchor: one that breaks a rule of R285 is rejected and counted, an invalid beat stamp is
counted, a frame beyond the horizon is an early arrival; a section past its slot's deadline or overtaken is late, a second one
of the same identity is a duplicate, any other arrives: its raw pair is stored and the frame is forwarded (R21, R41, R230,
R285). -/
def Obligations.AccordFramesAreFiled : Prop :=
  ∀ (f : RxFrame) (s : State), FrameTaken 0x88B5 f s → s.nose.mode ≠ .sillage →
    let p := f.port.val
    let u := frameCounted f s
    let e := ethParts f.bytes
    let h := beAt e.body 0 24
    let accord := bits h 175 164
    let c := bits h 163 162
    let l := bits h 127 122
    let dev := bits h 159 146
    let beat : Stamp := BitVec.ofNat 32 (bits h 95 64)
    let ctx := ctxOf s c l
    let slot := ctxSlot ctx
    let stamp := rxStamp u f f.last
    let secs := accSections (bits h 103 96) (e.body.drop 24)
    let early := (sqPar s).horizon < beatDist s.tb.beat beat ∧ beatDist s.tb.beat beat < 36700160
    let good := 24 ≤ e.body.length ∧ bits h 191 188 = 1 ∧ bits h 187 184 = 1
      ∧ (bits h 182 176 = 0 ∧ bits h 161 160 = 0 ∧ bits h 145 144 = 0 ∧ bits h 129 128 = 0 ∧ bits h 115 104 = 0 ∧ bits h 31 0 = 0)
      ∧ bits h 143 130 = s.nose.deviceId.toNat ∧ (ctxUlEn ctx = true ∧ ctxMode ctx = 2 ∧ ctxAccord ctx = accord)
      ∧ dev ∈ slotMembers s slot accord ∧ signed 6 (bits h 121 116) = ctxAccSh ctx
      ∧ 1 ≤ bits h 103 96 ∧ bits h 103 96 ≤ 12
      ∧ ∃ k, secs = some k ∧ ∀ x ∈ k, x.p0 % 10 = 0 ∧ x.p0 + x.nblk ≤ (carrierOf s c).nprb
    (¬ good → exec (.accordExchangeFrame f) s = .next (count 0x90C p u))
    ∧ (good → stampValid beat = false → exec (.accordExchangeFrame f) s = .next (count 0x605 0 u))
    ∧ (good → stampValid beat = true → early → exec (.accordExchangeFrame f) s = .next (discardArrival 0 0 beat 2 u))
    ∧ (∀ x, good → stampValid beat = true → ¬ early → secs = some [x] →
      let lin := linNear s beat
      let late := (∃ d, slotDeadline s slot = some d ∧ deadlineTime s lin d ≤ stamp * 2 ^ 36) ∨ (slot, dev, lin) ∈ s.fhp.late
      let r : Partial := ⟨slot, dev, beat, c, l, x.p0⟩
      (late → exec (.accordExchangeFrame f) s = .next (count 0x40C slot u))
      ∧ (¬ late → r ∈ s.fhp.arrived → exec (.accordExchangeFrame f) s = .next (count 0x90D p u))
      ∧ (¬ late → r ∉ s.fhp.arrived → exec (.accordExchangeFrame f) s = .next (forwardArrival p stamp f.bytes
        (storeRaw slot dev c l lin (ctxAccSh ctx) (bitN h 183) x
          { u with fhp := { u.fhp with arrived := u.fhp.arrived ++ [r] } }))))

/-- The management stream and port state: an accepted management frame of kind 1 brings one command, which waits for the Nose
unless it repeats one that is kept or would be a seventeenth; any other is dropped and counted. A port comes UP and goes DOWN
with its event, and its losses are counted (R269, R394, R395). -/
def Obligations.EntriesArriveAndPortsChange : Prop :=
  (∀ (f : RxFrame) (s : State), FrameTaken 0x88B6 f s →
    let p := f.port.val
    let u := frameCounted f s
    let e := ethParts f.bytes
    let h := beAt e.body 0 8
    let good := bits h 63 60 = 1 ∧ bits h 59 56 = 1 ∧ 16 ≤ bits h 47 32 ∧ 8 + bits h 47 32 ≤ e.body.length
    let src : Src := .inband (if p = 0 then 0 else 1) (BitVec.ofNat 48 e.src) (BitVec.ofNat 12 (e.vid.getD 0))
    let tag := BitVec.ofNat 32 (beAt e.body 8 4)
    let op := BitVec.ofNat 16 (beAt e.body 12 2)
    let same : Head → Bool := fun k => k.src == src && k.tag == tag && k.opcode == op
    (¬ good → exec (.managementFrame f) s = .next (count 0xD06 0 u))
    ∧ (good → ∀ k, s.nose.kept.find? (fun k => k.src == src && k.tag == tag && k.opcode == op) = some k →
      (k.rsp = none → exec (.managementFrame f) s = .next (count 0xD05 0 u))
      ∧ (∀ r, k.rsp = some r → exec (.managementFrame f) s = .next (sendRsp p r (count 0xD05 0 u))))
    ∧ (good → s.nose.kept.find? (fun k => k.src == src && k.tag == tag && k.opcode == op) = none →
      (s.nose.arrived.any same = true → exec (.managementFrame f) s = .next (count 0xD05 0 u))
      ∧ (s.nose.arrived.any same = false → 16 ≤ outstanding src s → exec (.managementFrame f) s = .next (count 0xD06 0 u))
      ∧ (s.nose.arrived.any same = false → outstanding src s < 16 → exec (.managementFrame f) s = .next
        (serveUndefined { u with nose := { u.nose with arrived := u.nose.arrived ++ [⟨src, tag, op⟩] } }))))
  ∧ (∀ (p : Fin 6) (s : State), let v := portGet s p.val
    ((v.st = 1 ∨ v.st = 3) → Completes (.portUp p) s fun t =>
      portGet t p.val = { v with st := 2, aligned := true, hiSer := false }
      ∧ t = raiseEv 0x20 0x9 [.num 1 p.val] (portSet p.val { v with st := 2, aligned := true, hiSer := false } s))
    ∧ (v.st = 0 ∨ v.st = 2 → exec (.portUp p) s = .next s)
    ∧ (∀ b, v.st = 2 → Completes (.portDown p b) s fun t =>
      portGet t p.val = { v with st := 3, aligned := b, hiSer := b, downs := v.downs + 1 }
      ∧ counterGet t 0x909 p.val = Nat.min (counterGet s 0x909 p.val + 1) 65535
      ∧ ∃ u, t = raiseEv 0x21 0x9 [.num 1 p.val] u)
    ∧ (∀ b, v.st = 0 → exec (.portDown p b) s = .next s)
    ∧ (∀ b, v.st = 1 ∨ v.st = 3 → exec (.portDown p b) s
      = .next (portSet p.val { v with aligned := v.aligned && b, hiSer := b } s)))

/-- PTP: the best Announce of a port is kept and the master selected anew; a one-step Sync of the master gives its offset and
path delay from the last completed exchange, a two-step Sync does so with its Follow_Up; a Delay_Resp completes the exchange
of the Delay_Req it answers; a selected port sends Delay_Req; a timeout loses the master (R315, R316, R318). -/
def Obligations.PtpFollowsTheMaster : Prop :=
  (∀ (f : RxFrame) (m : PtpMsg) (a : PtpAnnounce) (s : State), FrameTaken 0x88F7 f s →
    ptpOn s f.port.val = true → m.supported = true → m.domain.toNat = ptpDomain s →
    let p := f.port.val
    let u := count 0xA00 p (frameCounted f s)
    let v := ptpOf s p
    let rx := rxStamp u f f.sfd
    let values (t1 t2 corr : Int) (ex : Option (Int × Int × Int)) (w : State) : State := match ex with
      | none => w
      | some (t3, t4, k) =>
        let mpd := mkRat ((t2 - t3) + (t4 - t1) - corr - k) 2
        let off : Rat := (t2 - t1 - corr - v.asym : Int) - mpd
        { w with tb := { w.tb with values := w.tb.values ++ [(off / 16, mpd / 16)] } }
    (∀ b cb t0, v.announce = some (b, cb, t0) → cb ≠ m.clockId → betterMaster a m.clockId 0 b cb 0 = false →
      exec (.ptpAnnounce f m a) s = .next u)
    ∧ ((∀ b cb t0, v.announce = some (b, cb, t0) → cb = m.clockId ∨ betterMaster a m.clockId 0 b cb 0 = true) →
      exec (.ptpAnnounce f m a) s = .next (reselect (ptpSet p { v with announce := some (a, m.clockId, rx) } u)))
    ∧ (fromMaster p m s = false → exec (.ptpSync f m) s = .next u ∧ exec (.ptpFollowUp f m) s = .next u
      ∧ exec (.ptpDelayResp f m) s = .next u)
    ∧ (fromMaster p m s = true → m.twoStep = true →
      exec (.ptpSync f m) s = .next (ptpSet p { v with sync := some ⟨m.seq, rx, m.correction, v.exchange⟩ } u))
    ∧ (fromMaster p m s = true → m.twoStep = false →
      exec (.ptpSync f m) s = .next (values m.time rx m.correction v.exchange u))
    ∧ (∀ h, fromMaster p m s = true → v.sync = some h → h.seq = m.seq → exec (.ptpFollowUp f m) s
      = .next (values m.time h.rx (h.corr + m.correction) h.ex (ptpSet p { v with sync := none } u)))
    ∧ ((∀ h, v.sync = some h → h.seq ≠ m.seq) → exec (.ptpFollowUp f m) s = .next u)
    ∧ (∀ t3, fromMaster p m s = true → m.forUs = true → v.req = some (m.seq, t3) → exec (.ptpDelayResp f m) s
      = .next (ptpSet p { v with req := none, exchange := some (t3, m.time, m.correction) } u))
    ∧ (m.forUs = false ∨ (∀ t3, v.req ≠ some (m.seq, t3)) → exec (.ptpDelayResp f m) s = .next u))
  ∧ (∀ (p : Fin 2) (x : Int) (s : State), let v := ptpOf s p.val
    (ptpOn s p.val = true → s.tb.port = some p → portIsUp s p.val = true → p.val < s.tb.ptp.length →
      Completes (.ptpDelayReqSend p x) s fun t =>
        ptpOf t p.val = { v with req := some (v.nextSeq, txStamp s p.val x), nextSeq := v.nextSeq + 1 }
        ∧ t.outs = .delayReq p.val v.nextSeq :: s.outs)
    ∧ (ptpOn s p.val = false ∨ s.tb.port ≠ some p ∨ portIsUp s p.val = false → exec (.ptpDelayReqSend p x) s = .next s))
  ∧ (∀ s : State, (∀ p, s.tb.port = some p → exec .announceReceiptTimeout s
      = .next (reselect (ptpSet p.val { ptpOf s p.val with announce := none } s)))
    ∧ (s.tb.port = none → exec .announceReceiptTimeout s = .next s)
    ∧ (tbActive s = true → Completes .syncTimeout s fun t => t.tb.st = .holdover)
    ∧ (tbActive s = false → exec .syncTimeout s = .next s))
  ∧ (∀ s : State, let n := bmcaPort s
    let a := n.bind (fun p => (ptpOf s p.val).announce)
    let gm := a.elim 0 (fun x => x.1.gm)
    let t := reselect s
    t.tb.port = n ∧ t.tb.gm = gm ∧ t.tb.gmClass = a.elim 0 (fun x => x.1.clockClass)
    ∧ (n = s.tb.port → gm = s.tb.gm → t.tb.st = s.tb.st ∧ t.tb.values = s.tb.values ∧ t.tb.ptp = s.tb.ptp)
    ∧ (n ≠ s.tb.port ∨ gm ≠ s.tb.gm → t.tb.values = []
      ∧ (s.tb.port.isSome = true → tbActive s = true → t.tb.st = .holdover)
      ∧ ∀ i, i < s.tb.ptp.length → ptpOf t i = { ptpOf s i with sync := none, req := none, exchange := none }))

/-- The egress FIFOs: the write side pushes stage after stage and stops at 32; with the last stage the packet is complete, its
time is taken, SEQ counts it and the digest takes it. The drain pops stage after stage into the packet's buffer and ends the
packet with its descriptor; an uncorrectable stage voids it (R51, R225, R270, R299 to R303). -/
def Obligations.EgressFifosMove : Prop :=
  ∀ (i : Fin 16) (s : State),
    let f := fifoOf s i.val
    (f.writing = none → f.due = [] → exec (.egressStagePush i) s = .next s)
    ∧ (∀ q d l, f.writing = none → f.due = (q, d) :: l →
      exec (.egressStagePush i) s = exec (.egressStagePush i) (fifoBegin i.val s)
      ∧ ∃ w, (fifoOf (fifoBegin i.val s) i.val).writing = some w ∧ w.queue = q ∧ w.due = d)
    ∧ (∀ w, f.writing = some w → 32 ≤ f.stages.length → exec (.egressStagePush i) s = .next s)
    ∧ (∀ w x l, f.writing = some w → f.stages.length < 32 → w.stages = x :: l →
      (x.last = false → exec (.egressStagePush i) s
        = .next (fifoSet i.val { f with stages := f.stages ++ [x], writing := some { w with stages := l } } s))
      ∧ (x.last = true → Completes (.egressStagePush i) s fun t =>
        let void := f.packets.any (fun p => p.time.isNone && p.void)
        fifoOf t i.val = { f with
          stages := f.stages ++ [x], writing := none
          packets := f.packets.map (fun p => if p.time.isNone then { p with time := some (nowNs s, s.tb.lin) } else p) }
        ∧ (void = true → t.sq.seq = s.sq.seq ∧ t.frm = s.frm ∧ t.sq.notes = s.sq.notes)
        ∧ (void = false → queueSeq t w.queue = queueSeq s w.queue + 1
          ∧ t.frm.digested = s.frm.digested ++ w.digest.toList.map (fun b =>
            ⟨2, w.queue, BitVec.ofNat 32 (beAt b 8 4), isEgress s 3 w.queue, b⟩)
          ∧ t.sq.notes = s.sq.notes ++ w.note.toList.map (fun n => { n with id := s.sq.nextNote }))))
    ∧ (f.stages = [] ∨ f.packets = [] → exec (.egressFifoDrain i) s = .next s)
    ∧ (∀ x xs p ps b off, f.stages = x :: xs → f.packets = p :: ps → x.ecc = 0 →
      (if x.first then bufferTake s = some b ∧ off = 0 else f.draining = some (some b, off, false)) →
      let u := if x.first then { s with sq := { s.sq with used := b :: s.sq.used } } else s
      let v := resWrite (bufferAt s b + off) x.data (fifoSet i.val { f with stages := xs } u)
      (x.last = false → Completes (.egressFifoDrain i) s fun t =>
        fifoOf t i.val = { f with stages := xs, draining := some (some b, off + 64, false) }
        ∧ t.mem = v.mem ∧ t.ctr = s.ctr ∧ t.sq.used = u.sq.used)
      ∧ (x.last = true → Completes (.egressFifoDrain i) s fun t =>
        ∃ w, t = drainEnd i.val p (some b) p.void w ∧ w.mem = v.mem ∧ w.ctr = s.ctr ∧ w.sq.used = u.sq.used
          ∧ fifoOf w i.val = { f with stages := xs, packets := ps, draining := none }))

/-- The MAC's side of the egress rings, and the writer's groups: a port that is free takes the oldest packet of a queue, frees a
void one, sends a whole one while it is UP, and discards it otherwise; the buffer is free when the last byte has left. DD
encodes the groups of a beat in their order alone, and the last one completes the flacon (R240, R241, R269, R290 to R292, R303,
R373). -/
def Obligations.PacketsLeaveAndGroupsAreCoded : Prop :=
  (∀ (q : BitVec 16) (s : State),
    let p := egressPort s q.toNat
    let sends := (isEgress s 3 q.toNat || isEgress s 4 q.toNat) = true ∧ s.nose.mode ≠ .sillage ∧ FMap.find s.sq.sending p = none
    (¬ sends ∨ (ringState s q.toNat).d = 0 → exec (.macTxPop q) s = .next s)
    ∧ (sends → 0 < (ringState s q.toNat).d →
      let r := ringState s q.toNat
      let v := ringPut q.toNat { r with rd := (r.rd + 1) % 2 ^ r.n, d := r.d - 1 } s
      let x := regionRead 0 0xB 0 2 (ringEntryAt s q.toNat r.rd) 16 v
      let d := leNat x.1
      let b := bufferOf x.2 (bits d 95 64)
      let len := rdLe x.2.mem.res (bits d 95 64) 4
      let y := regionRead 0 0xB 0 2 (bits d 95 64 + 64) len x.2
      (bitN d 0 = true ∨ len = 0xFFFFFFFF → exec (.macTxPop q) s = .next (bufferFree b x.2))
      ∧ (bitN d 0 = false → len ≠ 0xFFFFFFFF → portIsUp y.2 p = true → Completes (.macTxPop q) s fun t =>
        t.outs = .frame p y.1 :: y.2.outs ∧ FMap.find t.sq.sending p = some (b, q.toNat, len) ∧ t.mem = y.2.mem
        ∧ t.sq.rings = y.2.sq.rings)
      ∧ (bitN d 0 = false → len ≠ 0xFFFFFFFF → portIsUp y.2 p = false →
        exec (.macTxPop q) s = .next (bufferFree b (count 0x908 p y.2)))))
  ∧ (∀ (p : Fin 6) (s : State),
    (FMap.find s.sq.sending p.val = none → exec (.macTxDone p) s = .next s)
    ∧ (∀ x, FMap.find s.sq.sending p.val = some x → Completes (.macTxDone p) s fun t =>
      x.1 ∉ t.sq.used ∧ FMap.find t.sq.sending p.val = none ∧ t.sq.rings = s.sq.rings ∧ t.outs = s.outs))
  ∧ (∀ (c : Fin 4) (g : Fin 16) (s : State),
    (ddPar s = none ∨ (c.val, g.val) ∉ ddGroups s → exec (.ddGroupEncode c g) s = .next s)
    ∧ (∀ d k, ddPar s = some d → (ddGroups s).findIdx? (fun x => x == (c.val, g.val)) = some k → k ≠ 0 →
      (s.dd.writing = none → exec (.ddGroupEncode c g) s = .next s)
      ∧ (∀ i lin n coded, s.dd.writing = some (i, lin, n, coded) →
        let r := (List.range (carrierOf s c.val).nprb).foldl (fun (a : Nat × State) p =>
          let e := ddEncodeBlock d i (d.inBase + 350208 * (k % 2)) c.val g.val lin p a.2
          (a.1 + e.1, e.2)) (coded, s)
        (n ≠ k ∨ isFenced s 8 0 = true ∨ isFenced s 7 0 = true → exec (.ddGroupEncode c g) s = .next s)
        ∧ (n = k → isFenced s 8 0 = false → isFenced s 7 0 = false → k + 1 ≠ (ddGroups s).length →
          Completes (.ddGroupEncode c g) s fun t =>
            t.dd.writing = some (i, lin, k + 1, r.1) ∧ t.mem = r.2.mem ∧ t.ctr = r.2.ctr ∧ t.outs = r.2.outs)
        ∧ (n = k → isFenced s 8 0 = false → isFenced s 7 0 = false → k + 1 = (ddGroups s).length →
          exec (.ddGroupEncode c g) s = .next (flaconComplete i lin r.1 r.2)))))

/-- The HBM controller's requests: beyond the stack there is no address; in service a request is queued, in order, at the
pseudo-channel of its address; each pseudo-channel issues a neighbour refresh it owes, then a refresh that is due, then its
first eligible request; a write that issues stands in the stack, a read that returns is checked (R334, R335, R341 to R347,
R350). -/
def Obligations.HbmServesRequests : Prop :=
  (∀ (port : Fin 5) (w : Bool) (a : BitVec 35) (data : List Byte) (s : State),
    let serves := s.mem.st = .active ∨ s.mem.st = .selfRefresh
    let room := ¬ (port = 1 ∧ w = false ∧ 1048576 < s.mem.rtr + 32)
    let d := hbmAddr (orderAt s (a.toNat / 32 * 32)) (a.toNat / 32 * 32)
    (24 * 2 ^ 30 ≤ a.toNat → exec (.hbmRequest port w a data) s = .fault .noSuchAddress)
    ∧ (a.toNat < 24 * 2 ^ 30 → ¬ serves ∨ ¬ room → exec (.hbmRequest port w a data) s = .next s)
    ∧ (a.toNat < 24 * 2 ^ 30 → serves → room → Completes (.hbmRequest port w a data) s fun t =>
      (pcOf t d.pc).queue = (pcOf s d.pc).queue
        ++ [⟨(pcOf s d.pc).nextSeq, port, w, a.toNat / 32 * 32, d.bank, d.row, d.col, data.take 32, s.tb.t40, false⟩]
      ∧ (∀ p, p ≠ d.pc → (pcOf t p).queue = (pcOf s p).queue) ∧ t.mem.hbm = s.mem.hbm ∧ t.mem.lastReq = s.tb.t40
      ∧ t.mem.entering = false ∧ t.mem.rtr = s.mem.rtr + (if port = 1 ∧ w = false then 32 else 0)))
  ∧ (∀ (p : Fin 32) (s : State),
    let v := pcOf s p.val
    let busy := hbmBusy s
    let owed := v.banks.find? (fun b => b.2.neighbour.isSome)
    let due := refreshReady s v = true
      ∧ (((v.unit ≠ 0 ∧ v.forced = true) ∨ (inPanic s = true ∧ 8 ≤ v.debt)) ∨ (1 ≤ v.debt ∧ inPanic s = false))
    let issues := s.mem.st = .active ∧ (busy = true ∨ s.mem.entering = false ∧ s.mem.change = none)
    (s.mem.st ≠ .active → exec (.hbmCommandIssue p) s = .next s)
    ∧ (s.mem.st = .active → s.mem.entering = true → busy = false → p.val = 0 → Completes (.hbmCommandIssue p) s fun t =>
      t.mem.st = .selfRefresh ∧ t.mem.entering = false ∧ t.mem.hbm = s.mem.hbm)
    ∧ (s.mem.st = .active → s.mem.entering = true → busy = false → p.val ≠ 0 → exec (.hbmCommandIssue p) s = .next s)
    ∧ (s.mem.st = .active → s.mem.entering = false → busy = false → s.mem.change ≠ none →
      exec (.hbmCommandIssue p) s = .next { s with mem := { s.mem with entering := true } })
    ∧ (issues → ∀ b x, owed = some (b, x) → Completes (.hbmCommandIssue p) s fun t =>
      t = issueNeighbour p.val b (x.neighbour.getD 0) s ∧ (pcOf t p.val).last.head? = some ⟨4, b, x.neighbour.getD 0, 0⟩
      ∧ (bankOf (pcOf t p.val) b).neighbour = none)
    ∧ (issues → owed = none → due → Completes (.hbmCommandIssue p) s fun t =>
      (pcOf t p.val).last.head? = some ⟨3, v.unit, 0, 0⟩ ∧ (pcOf t p.val).refAt = some s.tb.t40
      ∧ (bankOf (pcOf t p.val) v.unit).row = none ∧ t.mem.hbm = s.mem.hbm
      ∧ (v.unit = 47 → (pcOf t p.val).unit = 0 ∧ (pcOf t p.val).debt = v.debt - 1)
      ∧ (v.unit ≠ 47 → (pcOf t p.val).unit = v.unit + 1 ∧ (pcOf t p.val).debt = v.debt))
    ∧ (issues → owed = none → ¬ due → firstRequest s v = none → exec (.hbmCommandIssue p) s = .next s)
    ∧ (issues → owed = none → ¬ due → ∀ r, firstRequest s v = some r → Completes (.hbmCommandIssue p) s fun t =>
      (pcOf t p.val).last.head? = some ⟨if r.write then 2 else 1, r.bank, r.row, r.col⟩
      ∧ (r.write = true → t.mem.hbm = (hbmWrite r.addr r.data s).mem.hbm
        ∧ (pcOf t p.val).queue = v.queue.filter (fun q => q.seq != r.seq))
      ∧ (r.write = false → t.mem.hbm = s.mem.hbm
        ∧ (pcOf t p.val).queue = v.queue.map (fun q => if q.seq = r.seq then { q with issued := true } else q))))
  ∧ (∀ (p : Fin 32) (syn : BitVec 64) (s : State),
    let v := pcOf s p.val
    (∀ bad, v.queue.find? (fun q => q.issued) = none → exec (.hbmReadReturn p syn bad) s = .next s)
    ∧ (∀ r, v.queue.find? (fun q => q.issued) = some r →
      let w := pcSet p.val { v with queue := v.queue.filter (fun q => q.seq != r.seq) } s
      let u := if r.port = 1 then panicUpdate { w with mem := { w.mem with rtr := w.mem.rtr - 32 } } else w
      (syn = 0 → exec (.hbmReadReturn p syn false) s = .next u)
      ∧ (syn ≠ 0 → exec (.hbmReadReturn p syn false) s = .next (count 0xB02 p.val u))
      ∧ exec (.hbmReadReturn p syn true) s = .next (hbmFreeze 1 (some (p.val, ⟨1, r.bank, r.row, r.col⟩, syn)) u)))

/-- What the memories do of themselves: a reported fault freezes the controller once, with its cause, and its contents are
undefined; refresh debt grows, in panic it is postponed and counted; the activate tables clear; an idle page closes; an idle
controller begins to enter self-refresh; a frequency change completes; the scrubber repairs a line (R339, R342, R345, R347
to R352). -/
def Obligations.MemoriesKeepThemselves : Prop :=
  (∀ (c : Bool) (p : Fin 32) (s : State), s.mem.st = .active ∨ s.mem.st = .selfRefresh →
    Completes (.stackErrorReport c p) s (fun t =>
      t.mem.st = .frozen ∧ t.mem.ready = false ∧ (∀ i, (pcOf t i).queue = [])
      ∧ (t.mem.diag.map (fun d => d.cause)) = some (if c then 2 else 1))
    ∧ Completes .stackCatastrophicTemp s (fun t =>
      t.mem.st = .frozen ∧ t.mem.ready = false ∧ (∀ i, (pcOf t i).queue = [])
      ∧ (t.mem.diag.map (fun d => d.cause)) = some 3))
  ∧ (∀ (c : Bool) (p : Fin 32) (s : State),
    (s.mem.st = .reset ∨ s.mem.st = .clocksStopped →
      exec (.stackErrorReport c p) s = .next s ∧ exec .stackCatastrophicTemp s = .next s)
    ∧ (s.mem.st = .frozen →
      Completes (.stackErrorReport c p) s (fun t => t.mem = { s.mem with ready := false } ∧ t.ctr = s.ctr ∧ t.outs = s.outs)
      ∧ Completes .stackCatastrophicTemp s (fun t => t.mem = { s.mem with ready := false } ∧ t.ctr = s.ctr ∧ t.outs = s.outs)))
  ∧ (∀ (p : Fin 32) (s : State),
    (s.mem.st ≠ .active → exec (.refreshInterval p) s = .next s)
    ∧ (s.mem.st = .active → Completes (.refreshInterval p) s fun t =>
      pcOf t p.val = { pcOf s p.val with debt := (pcOf s p.val).debt + 1 }
      ∧ (∀ i, i ≠ p.val → pcOf t i = pcOf s i)
      ∧ (inPanic s = true → (pcOf s p.val).debt + 1 < 8 →
        counterGet t 0xB04 p.val = Nat.min (counterGet s 0xB04 p.val + 1) (2 ^ counterWidth 0xB04 - 1))
      ∧ (inPanic s = false ∨ 8 ≤ (pcOf s p.val).debt + 1 → t.ctr = s.ctr)))
  ∧ (∀ (p : Fin 32) (b : Fin 48) (s : State),
    ((pcOf s p.val).queue.any (fun q => !q.issued && q.bank == b.val) = true → exec (.pageTimeout p b) s = .next s)
    ∧ ((pcOf s p.val).queue.any (fun q => !q.issued && q.bank == b.val) = false → Completes (.pageTimeout p b) s fun t =>
      bankOf (pcOf t p.val) b.val = { bankOf (pcOf s p.val) b.val with row := none }
      ∧ (∀ i, i ≠ b.val → bankOf (pcOf t p.val) i = bankOf (pcOf s p.val) i)
      ∧ (∀ i, i ≠ p.val → pcOf t i = pcOf s i)))
  ∧ (∀ s : State,
    Completes .activateTableClear s (fun t => ∀ p b, (bankOf (pcOf t p) b).acts = []
      ∧ (bankOf (pcOf t p) b).row = (bankOf (pcOf s p) b).row)
    ∧ (let idle := s.nose.mode = .standby ∧ s.mem.st = .active ∧ s.mem.change = none ∧ hbmBusy s = false
        ∧ bits s.mem.par.toNat 40 25 ≠ 0
      (idle → exec .idleSelfRefresh s = .next { s with mem := { s.mem with entering := true } })
      ∧ (¬ idle → exec .idleSelfRefresh s = .next s))
    ∧ (∀ r, s.mem.change = some r → s.mem.st = .active ∨ s.mem.st = .selfRefresh → Completes .hbmFreqChangeDone s fun t =>
      t.mem.rate = r ∧ t.mem.change = none ∧ t.mem.st = .active ∧ t.mem.entering = false ∧ t.mem.hbm = s.mem.hbm)
    ∧ (s.mem.change = none → exec .hbmFreqChangeDone s = .next s)
    ∧ Completes .reservoirScrub s (fun t => t.mem.scrub = (s.mem.scrub + 1) % 1048576
      ∧ (lineState s 0 s.mem.scrub = 1 → lineState t 0 s.mem.scrub = 0
        ∧ counterGet t 0xB00 0 = Nat.min (counterGet s 0xB00 0 + 1) (2 ^ counterWidth 0xB00 - 1))
      ∧ (lineState s 0 s.mem.scrub = 0 → t.ctr = s.ctr ∧ t.err = s.err) ∧ t.mem.res = s.mem.res))

/-- What TW does with any frame: nothing while it is not UP or the beats do not run; a frame with a bad CRC, or one after a gap,
is a lost frame, which makes a sillage UNFIT; a frame of another pair is dropped; HELLO is taken from anyone (R360, R362,
R372). -/
def Obligations.TwinFramesAreTaken : Prop :=
  (∀ (h : TwHdr) (p : HelloP) (port : Fin 6) (mg : Bool) (st36 : BitVec 36) (by_ : List Byte) (k i c : BitVec 8) (b : Stamp)
      (l : List Verdict) (rec : Digest) (dr x y : BitVec 64) (nv : BitVec 14) (rip go : Bool) (t72 : BitVec 72)
      (sq : BitVec 32) (op st : BitVec 16) (a : Act) (u4 : BitVec 4),
    TwRows h [(.twHello h p, true, hello h p), (.twForward h port mg st36 by_, false, forwarded port.val st36 by_),
      (.twClose h k i b, false, closeArrives k i b), (.twVerdicts h l, false, verdicts h.beat l),
      (.twSeal h rec dr nv rip, false, sealArrives rec dr rip), (.twHeartbeat h k c i b, false, heartbeat k c),
      (.twTime h x t72, false, timeFrame h x), (.twCommand h sq op a go b, false, commandArrives sq a go b),
      (.twAck h k st sq, false, ackArrives k st sq), (.twState h k u4 b y by_, false, stateArrives k u4 y by_),
      (.twHandover h b k, false, handoverArrives h.seq b k)])
  ∧ ∀ s : State, (s.nose.mode = .sillage → lostFrame s = goUnfit 2 (count 0xC02 0 s))
    ∧ (s.nose.mode ≠ .sillage → lostFrame s = count 0xC02 0 s)

/-- What the frames of a pair do: HELLO keeps the peer's data; a sillage files forwarded arrivals, closes windows and accord
slots, logs and applies verdicts, takes the SEAL of its beat, acknowledges commands and a handover, and follows the state
stream; a lead follows its sillage's fitness and carries out what was acknowledged; TIME gives one value of θ (R363, R365 to
R372, R375, R380). -/
def Obligations.TwinFramesAct : Prop :=
  ∀ (h : TwHdr) (s : State),
    let u := twNoted h s
    (∀ p, TwTaken true h s → Completes (.twHello h p) s fun t => t.twn.hello = some (p, h.stamp)
      ∧ (p.echoT1 = 0 → t.twn.trips = s.twn.trips ∧ t.twn.dTw = s.twn.dTw))
    ∧ (TwTaken false h s → s.nose.mode = .sillage →
      (∀ (port : Fin 6) mg st by_ ty l, port.val < 2 → ecpriParse (ethParts by_).body = some (ty, l) → ty ≠ 5 →
        exec (.twForward h port mg st by_) s = .next (messageArrive false port.val ty (unwrap36 st.toNat s) l by_ u))
      ∧ (∀ (port : Fin 6) mg st by_, 2 ≤ port.val → exec (.twForward h port mg st by_) s
        = .next (accordFrame false port.val (unwrap36 st.toNat s) (ethParts by_) by_ u))
      ∧ (∀ (i : BitVec 8) b, stampValid b = true → i.toNat < 4 →
        (s.sq.closed.contains (4 * linNear s b + i.toNat) = true → exec (.twClose h 1 i b) s = .next u)
        ∧ (s.sq.closed.contains (4 * linNear s b + i.toNat) = false →
          s.frm.startBeat + (carrierOf s i.toNat).admitBeats < linNear s b → Completes (.twClose h 1 i b) s fun t =>
            t.sq.shadow = (closeWindow i.toNat (linNear s b) u).sq.shadow.filter
              (fun w => !(w.c == i.toNat && w.beat == stampOfLin (linNear s b)))
            ∧ t.sq.windows = (closeWindow i.toNat (linNear s b) u).sq.windows
            ∧ t.mem = (closeWindow i.toNat (linNear s b) u).mem))
      ∧ (∀ (i : BitVec 8) b, stampValid b = true → exec (.twClose h 2 i b) s = .next (accordClose i.toNat (linNear s b) u))
      ∧ (∀ k i b, stampValid b = false → exec (.twClose h k i b) s = .next u)
      ∧ (∀ v, s.twn.fitness = .preparing → s.frm.vcount < 8192 → h.beat ∉ s.twn.selfRuled → ∃ w,
        exec (.twVerdicts h [v]) s = .next (applyVerdict true v w) ∧ w.frm.verdictSeq = v.seq + 1
        ∧ w.frm.vlog = s.frm.vlog.filter (fun p => decide (s.tb.lin < p.1 + 64)) ++ [(s.tb.lin, v)]
        ∧ w.twn.leadV = s.twn.leadV ++ [v])
      ∧ (∀ rec dr nv rip,
        (rec.beat = s.tb.beat → s.twn.sealed_ = true → exec (.twSeal h rec dr nv rip) s = .next u)
        ∧ (rec.beat = s.tb.beat → s.twn.sealed_ = false → exec (.twSeal h rec dr nv rip) s = .next (sealOpen rec dr rip u))
        ∧ (rec.beat ≠ s.tb.beat → rec.beat ∈ s.twn.selfRuled → exec (.twSeal h rec dr nv rip) s = .next (sealLate rec dr rip u))
        ∧ (rec.beat ≠ s.tb.beat → rec.beat ∉ s.twn.selfRuled → exec (.twSeal h rec dr nv rip) s = .next (goUnfit 5 u)))
      ∧ (∀ n op a b,
        (checkAct a u = stOk → Completes (.twCommand h n op a false b) s fun t =>
          t.twn.waiting = s.twn.waiting ++ [(n, 0, a)] ∧ t.nose = s.nose
          ∧ t.outs = .tw 0 s.twn.txSeq s.tb.beat (.ack 1 0 n) :: s.outs)
        ∧ (checkAct a u ≠ stOk → Completes (.twCommand h n op a false b) s fun t =>
          t.twn.waiting = s.twn.waiting
          ∧ t.outs = .tw 0 s.twn.txSeq s.tb.beat (.ack 1 (BitVec.ofNat 16 (checkAct a u)) n) :: s.outs)
        ∧ (s.twn.waiting.find? (fun w => w.1 == n) = none → exec (.twCommand h n op a true b) s = .next u)
        ∧ (∀ w, s.twn.waiting.find? (fun w => w.1 == n) = some w → exec (.twCommand h n op a true b) s
          = .next (goCommand w.2.2 b { u with twn := { u.twn with waiting := u.twn.waiting.filter (fun w => w.1 != n) } })))
      ∧ (∀ k un cb ad d, s.twn.fitness ≠ .preparing → exec (.twState h k un cb ad d) s = .next u)
      ∧ (∀ un cb ad d, s.twn.fitness = .preparing →
        exec (.twState h 3 un cb ad d) s = .next { u with twn := { u.twn with streamDone := true } }
        ∧ exec (.twState h 1 un cb ad d) s = .next (applyState un.toNat ad.toNat d u)
        ∧ exec (.twState h 2 un cb ad d) s = .next (applyState un.toNat ad.toNat d u))
      ∧ (∀ b pl, stampValid b = true → stampSymbol b = 0 → beatDist s.tb.beat b ≠ 0 → beatDist s.tb.beat b < 36700160 →
        Completes (.twHandover h b pl) s fun t => t.twn.handover = some (b, pl) ∧ t.twn.handoverAck = true
          ∧ t.outs = .tw 0 s.twn.txSeq s.tb.beat (.ack 2 0 h.seq) :: s.outs)
      ∧ (∀ b pl, stampValid b = false ∨ stampSymbol b ≠ 0 → Completes (.twHandover h b pl) s fun t =>
          t.twn.handover = s.twn.handover
          ∧ t.outs = .tw 0 s.twn.txSeq s.tb.beat (.ack 2 (BitVec.ofNat 16 stBadField) h.seq) :: s.outs))
    ∧ (TwTaken false h s → s.nose.mode = .lead →
      (∀ c r lb, Completes (.twHeartbeat h 0 c r lb) s (fun t => t.twn.peerFit = 0 ∧ t.twn.fitness = .fit ∧ t.twn.cause = 0)
        ∧ Completes (.twHeartbeat h 1 c r lb) s (fun t => t.twn.peerFit = 1 ∧ t.twn.fitness = .preparing)
        ∧ Completes (.twHeartbeat h 2 c r lb) s (fun t => t.twn.peerFit = 2 ∧ t.twn.fitness = .ripening)
        ∧ (s.twn.rejoinAt = none → exec (.twHeartbeat h 3 c r lb) s
          = .next (goUnfit c.toNat { u with twn := { u.twn with peerFit := 3 } })))
      ∧ (∀ st n, waitingJob n s = none → exec (.twAck h 1 st n) s = .next u)
      ∧ (∀ st n j a w t0 p, waitingJob n s = some (j, a, w, t0, p) →
        (st = 0 → ackInTime a w t0 s = true → exec (.twAck h 1 st n) s = .next (leadProceeds j n a w p u))
        ∧ (st ≠ 0 ∨ ackInTime a w t0 s = false → exec (.twAck h 1 st n) s = .next (endJob j stTwinRefused none [] u)))
      ∧ (∀ x, s.twn.handover = some x →
        Completes (.twAck h 2 0 s.twn.handoverSeq) s (fun t => t.twn.handoverAck = true ∧ t.twn.handover = some x)
        ∧ (∀ st, st ≠ 0 → exec (.twAck h 2 st s.twn.handoverSeq) s = .next (abandonHandover u))))
    ∧ (TwTaken false h s → ∀ x b,
      (followsLead s = true → Completes (.twTime h x b) s fun t => t.twn.thetas
        = s.twn.thetas ++ [mkRat (x + BitVec.ofNat 64 s.twn.dTw - twStamp h.stamp).toInt 16])
      ∧ (followsLead s = false → exec (.twTime h x b) s = .next u))

/-- The link and the failures of a pair: HELLO goes out while the beats run; TW comes UP with fresh sequence numbers and goes
DOWN with its event; a command and a handover without their ACK are refused; a sillage that declares lead failure prepares a
takeover; a lead that loses its sillage reports it; `lead_sel` follows a takeover; a missing CLOSE is made up for; a rejoin
that does not converge ends; the dead-man gate drives the pair outputs low (R357, R359, R362, R365, R372, R374 to R376, R378,
R380, R422). -/
def Obligations.TwinFailuresAct : Prop :=
  ∀ s : State,
    let pair := s.nose.mode = .lead ∨ s.nose.mode = .sillage
    (beatsRun s = true → s.twn.up = true → Completes .helloSend s fun t =>
      t.outs = .tw 0 s.twn.txSeq s.tb.beat (.hello (helloNow s)) :: s.outs ∧ t.twn.txSeq = s.twn.txSeq + 1)
    ∧ (beatsRun s = false ∨ s.twn.up = false → exec .helloSend s = .next s)
    ∧ (s.twn.up = false → beatsRun s = true → exec .twLinkUp s
      = .next { s with twn := { s.twn with up := true, txSeq := 0, rxSeq := none, trips := [], hello := none } })
    ∧ (s.twn.up = true ∨ beatsRun s = false → exec .twLinkUp s = .next s)
    ∧ (s.twn.up = true → Completes .twLinkDown s fun t => t.twn.up = false ∧ t.twn.hello = none
      ∧ (pair → t.twn.fitness = .unfit) ∧ (¬ pair → t.twn.fitness = s.twn.fitness ∧ t.nose = s.nose))
    ∧ (s.twn.up = false → exec .twLinkDown s = .next s)
    ∧ (let waits : Job → Bool := fun j => match j.body with
          | .pairWait .. => true
          | _ => false
      (∀ j, s.nose.jobs.find? waits = some j → exec .commandAckTimeout s = .next (endJob j stTwinRefused none [] s))
      ∧ (s.nose.jobs.find? waits = none → exec .commandAckTimeout s = .next s))
    ∧ (let late := s.nose.mode = .lead ∧ s.twn.handover.isSome = true ∧ s.twn.handoverAck = false
      (late → exec .handoverAckTimeout s = .next (abandonHandover s)) ∧ (¬ late → exec .handoverAckTimeout s = .next s))
    ∧ (s.nose.mode = .sillage → s.twn.failed = false → Completes .leadFailure s fun t =>
      t.twn.failed = true ∧ t.pins.twinLead1 = false ∧ (tbActive s = true → t.tb.st = .holdover)
      ∧ (∀ x, s.twn.handover = some x → t.twn.handover = some x)
      ∧ (s.twn.handover = none → t.twn.handoverAck = true ∧ ∃ b, t.twn.handover = some (b, 0)))
    ∧ (s.nose.mode ≠ .sillage ∨ s.twn.failed = true → exec .leadFailure s = .next s)
    ∧ (s.nose.mode = .lead → exec .peerLost s = .next (raiseEv 0x3C 0xC [] s))
    ∧ (s.nose.mode ≠ .lead → exec .peerLost s = .next s)
    ∧ (∀ alive lead frames, ¬ pair → exec (.partialLoss alive lead frames) s = .next s)
    ∧ (pair → (∀ lead, exec (.partialLoss true lead false) s = .next (goUnfit 7 (raiseEv 0x3A 0xC [] s))
      ∧ exec (.partialLoss false lead false) s = .next s))
    ∧ (s.nose.mode = .sillage → ∀ alive lead, alive = false ∨ lead = false → exec (.partialLoss alive lead true) s
      = .next (raiseEv 0x3B 0xC [.num 1 (if alive then 0 else 1), .num 1 (if lead then 0 else 1)] s))
    ∧ (takeoverNext s = true → Completes .leadSelSwitch s fun t =>
      (s.nose.mode = .sillage → t.pins.leadSel = true ∧ t.pins.twinLead0 = true)
      ∧ (s.nose.mode = .lead → s.twn.handoverAck = true → t.pins.leadSel = false ∧ t.pins.twinLead0 = false))
    ∧ ((takeoverNext s = false ∧ yieldNext s = false) ∨ ¬ pair → exec .leadSelSwitch s = .next s)
    ∧ (∀ c : Fin 4, let lin := s.tb.lin + (carrierOf s c.val).admitBeats
      (s.nose.mode ≠ .sillage ∨ s.frm.executing = false ∨ s.sq.closed.contains (4 * lin + c.val) = true →
        exec (.sillageWindowTimeout c) s = .next s)
      ∧ (s.nose.mode = .sillage → s.frm.executing = true → s.sq.closed.contains (4 * lin + c.val) = false →
        exec (.sillageWindowTimeout c) s = .next (closeInSillage c.val lin
          (mergeShadow (fun w => w.c == c.val && w.beat == stampOfLin lin) (advanceTo 2560 s)))))
    ∧ (s.twn.rejoinAt.isSome = true → s.twn.joinAt = none → pair → Completes .rejoinTimeout s fun t =>
      t.twn.fitness = .unfit ∧ t.twn.rejoinAt = none ∧ t.twn.streamDone = false
      ∧ (s.nose.mode = .lead → ∃ u, t = raiseEv 0x3F 0xC [] u))
    ∧ (s.twn.rejoinAt = none ∨ s.twn.joinAt.isSome = true ∨ ¬ pair → exec .rejoinTimeout s = .next s)
    ∧ (¬ pair → exec .deadManGate s = .next (gatePins s))
    ∧ (pair → Completes .deadManGate s fun t => t.nose.mode = .standby)

/-- What the time base does at the close of a second, at the holdover limit and at the edges of its pulses: the increment
written is that of the frequency correction and the slew term of the state it is left in; the discipline changes state as the
table "Discipline transitions" says; `pps_out` rises at the whole second; a trigger's next pulse stands at T plus its number
times the period, and an output falls at the end of its high time (R317, R318, R325, R326). -/
def Obligations.SecondsAndPulses : Prop :=
  ∀ s : State,
    let vals := if followsLead s then s.twn.thetas.map (fun t => (t, mkRat s.twn.dTw 16)) else s.tb.values
    let theta := meanR (vals.map (fun v => v.1))
    let m := meanR (vals.map (fun v => v.2))
    let thr : Rat := timePar s 263 244
    let lim : Rat := timePar s 277 264
    (s.tb.run = false → exec .secondClose s = .next s)
    ∧ (s.tb.run = true → Completes .secondClose s fun t =>
      t.tb.inc = incFor ((if t.tb.st = .free then 0 else t.tb.fc) + (if t.tb.st = .locked then t.tb.slew else 0))
      ∧ t.tb.values = [] ∧ t.twn.thetas = [] ∧ (∀ p ∈ t.tb.ptp, p.asymNext = none)
      ∧ (s.tb.st = .free ∨ s.tb.st = .holdover → t.tb.st = if masterSelected s then .acquiring else s.tb.st)
      ∧ (vals = [] → s.tb.st ≠ .free → s.tb.st ≠ .holdover → t.tb.st = s.tb.st ∧ t.tb.fc = s.tb.fc)
      ∧ (vals ≠ [] → s.tb.st = .locked → absR (m - s.tb.mref) ≤ timePar s 243 230 →
        (absR theta ≤ thr → t.tb.st = .locked ∧ t.tb.slew = clampR lim (-theta / 8) ∧ t.tb.big = 0)
        ∧ (absR theta > thr → s.tb.big = 0 → t.tb.st = .locked ∧ t.tb.big = 1)
        ∧ (absR theta > thr → 1 ≤ s.tb.big → t.tb.st = .stepNeeded ∧ t.tb.slew = 0))
      ∧ (vals ≠ [] → s.tb.st = .locked → absR (m - s.tb.mref) > timePar s 243 230 → t.tb.slew = 0
        ∧ (1 ≤ s.tb.dev → t.tb.st = .pathHold ∧ t.tb.fc = s.tb.fcBefore))
      ∧ (vals ≠ [] → s.tb.st = .stepNeeded → t.tb.st = .stepNeeded ∧ t.tb.fc = s.tb.fc)
      ∧ (timePinsOn s = true → .pulse .pps true (t.tb.t40 / sec40 * sec40) ∈ t.outs
        ∧ (.pps, t.tb.t40 / sec40 * sec40 + timePar s 179 161 * 1000 * 2 ^ 40) ∈ t.tb.pulses))
    ∧ (s.tb.st = .holdover → s.tb.holdRaised = false → exec .holdoverLimit s
      = .next (raiseEv 0x2C 0xA [.num 4 (Nat.max s.tb.hold (timePar s 223 207))] { s with tb := { s.tb with holdRaised := true } }))
    ∧ (s.tb.st ≠ .holdover ∨ s.tb.holdRaised = true → exec .holdoverLimit s = .next s)
    ∧ (∀ k : Fin 8,
      (FMap.find s.tb.triggers k.val = none → exec (.triggerPulse k) s = .next s)
      ∧ (∀ tr, FMap.find s.tb.triggers k.val = some tr → Completes (.triggerPulse k) s fun t =>
        let start : Int := tr.t + (tr.done * tr.period : Nat) * 2 ^ 40
        (tr.period = 0 ∨ tr.done + 1 = tr.count → t.tb.triggers = FMap.erase s.tb.triggers k.val)
        ∧ (tr.period ≠ 0 → tr.done + 1 ≠ tr.count →
          FMap.find t.tb.triggers k.val = some { tr with done := tr.done + 1 })
        ∧ (timePinsOn s = true → t.outs = .pulse (.trig k) (!tr.low) start :: s.outs
          ∧ (.trig k, start + (tr.width * 2 ^ 40 : Nat)) ∈ t.tb.pulses)
        ∧ (timePinsOn s = false → t.outs = s.outs)
        ∧ (start ≤ s.tb.nextT → s.tb.run = true → 0 < s.tb.inc.toNat → start ≤ t.tb.t40)))
    ∧ (∀ pin : PinOut,
      ((∀ p ∈ s.tb.pulses, p.1 ≠ pin) → exec (.timeOutputPulseEnd pin) s = .next s)
      ∧ (∀ a b t0, s.tb.pulses = a ++ (pin, t0) :: b → (∀ p ∈ a, p.1 ≠ pin) → Completes (.timeOutputPulseEnd pin) s fun t =>
        (∀ c l at_ d, s.outs = c ++ .pulse pin l at_ :: d → (∀ l' at', .pulse pin l' at' ∉ c) →
          t.outs = .pulse pin (!l) t0 :: s.outs)
        ∧ t.tb.pulses = s.tb.pulses.filter (fun p => p.1 != pin)))

/-- Captures and checkers. A capture that is armed begins with its header stage; every word its tap produces is packed behind
what came before, unless the FIFO is full, which truncates it; the FIFO drains into the capture buffer or the CAPTURE region.
A checker locks after 64 matches in a row, counts while it is locked and loses lock at 64 errors within 1,024 units (R440,
R442 to R444). -/
def Obligations.CapturesAndCheckers : Prop :=
  (∀ (ch : Fin 2) (s : State),
    let c := capGet s ch.val
    let runs := c.active = true ∧ c.ending = none
    (¬ runs ∨ c.begun = true → exec (.captureBegin ch) s = .next s)
    ∧ (runs → c.begun = false → c.fifo = [] → c.owed = [] → c.words ≠ 0 → Completes (.captureBegin ch) s fun t =>
      (capGet t ch.val).begun = true ∧ (capGet t ch.val).done = c.done
      ∧ ∃ h, (capGet t ch.val).fifo = [h] ∧ h.first = true ∧ h.data.length = 64
        ∧ h.data.take 4 = beBytes 2 c.point.toNat ++ beBytes 2 c.index.toNat)
    ∧ (∀ w, (¬ runs ∨ c.begun = false → exec (.captureWord ch w) s = .next s)
      ∧ (runs → c.begun = true → 32 ≤ c.fifo.length → exec (.captureWord ch w) s = .next (captureEnd ch.val 2 s))
      ∧ (runs → c.begun = true → c.fifo.length < 32 → c.done + 1 ≠ c.words → Completes (.captureWord ch w) s fun t =>
        let d := capGet t ch.val
        d.done = c.done + 1 ∧ d.active = true ∧ d.partial_.length < 64
        ∧ (d.fifo ++ d.owed).flatMap (fun g => g.data) ++ d.partial_
          = (c.fifo ++ c.owed).flatMap (fun g => g.data) ++ c.partial_ ++ w)
      ∧ (runs → c.begun = true → c.fifo.length < 32 → c.done + 1 = c.words → Completes (.captureWord ch w) s fun t =>
        ∃ u, (capGet u ch.val).done = c.words ∧ t = captureEnd ch.val 0 u))
    ∧ (c.fifo = [] → exec (.captureFifoDrain ch) s = .next s)
    ∧ (∀ h r, c.fifo = h :: r →
      (c.dest = 0 → c.buf.length < 4096 → Completes (.captureFifoDrain ch) s fun t =>
        (capGet t ch.val).buf = c.buf ++ [h] ∧ (capGet t ch.val).fifo ++ (capGet t ch.val).owed = r ++ c.owed)
      ∧ (c.dest = 0 → 4096 ≤ c.buf.length → exec (.captureFifoDrain ch) s = .next s)
      ∧ (c.dest = 1 → s.mem.st = .active ∨ s.mem.st = .selfRefresh → Completes (.captureFifoDrain ch) s fun t =>
        (capGet t ch.val).fifo ++ (capGet t ch.val).owed = r ++ c.owed ∧ (capGet t ch.val).out = c.out + 64
        ∧ t.mem.hbm = hbmStore s.mem.hbm ((regionOfKind s.mem.regions 3).elim 0 (fun g => g.1) + c.offset + c.out) h.data)))
  ∧ (∀ (path : Fin 4) (item : Fin 256) (ok : Bool) (s : State),
    let c := FMap.get checkerReset s.tst.checkers (loopKey path.val item.val)
    let k := loopCounters path.val item.val
    (patternLoop s path.val item.val = false → exec (.loopbackUnitChecked path item ok) s = .next s)
    ∧ (patternLoop s path.val item.val = true → Completes (.loopbackUnitChecked path item ok) s fun t =>
      let d := FMap.get checkerReset t.tst.checkers (loopKey path.val item.val)
      (c.locked = false → t.ctr = s.ctr ∧ d.locked = (ok && decide (64 ≤ c.good + 1))
        ∧ (d.locked = false → d.good = if ok then c.good + 1 else 0))
      ∧ (c.locked = true → t.ctr = (count k.1 k.2.2 (if ok then s else count k.2.1 k.2.2 s)).ctr
        ∧ (d.locked = false ↔ 64 ≤ c.errs + if ok then 0 else 1)
        ∧ (d.locked = true → c.units + 1 < 1024 → d.units = c.units + 1 ∧ d.errs = c.errs + if ok then 0 else 1)
        ∧ (d.locked = true → 1024 ≤ c.units + 1 → d.units = 0 ∧ d.errs = 0))
      ∧ t.mem = s.mem ∧ t.frm = s.frm ∧ t.nose = s.nose))

/-- Writes of the BAR0 registers: a doorbell announces entries and is ignored where more than 64 would be outstanding; a
consume index moves only up to its produce index; W1C bits clear; TAKE latches the counter, the full time and the beat; a pop
takes the head stage; a scratch register keeps what is written; an access of another size or alignment sets BAD_ACCESS; MSI-X
messages come at most one per vector and microsecond (R392, R450, R453, R457, R458). -/
def Obligations.HostRegistersAct : Prop :=
  ∀ s : State,
    let n := s.nose
    let errs := count 0xD02 0 s
    (∀ i l, (n.mbxReady = false → exec (.cmdDoorbell i l) s = .next s)
      ∧ (n.mbxReady = true → 64 < (i - n.cmdCons).toNat → exec (.cmdDoorbell i l) s = .next errs)
      ∧ (n.mbxReady = true → (i - n.cmdCons).toNat ≤ 64 → Completes (.cmdDoorbell i l) s fun t =>
        ∃ a, MailOnly { s with nose := { n with cmdProd := i, arrived := a } } t ∧ t.nose.cmdProd = i
          ∧ ((i - n.cmdCons).toNat ≤ (n.cmdProd - n.cmdCons).toNat → ∀ x ∈ a, x ∈ n.arrived)
          ∧ ((n.cmdProd - n.cmdCons).toNat < (i - n.cmdCons).toNat →
            a = n.arrived ++ (List.range ((i - n.cmdCons).toNat - (n.cmdProd - n.cmdCons).toNat)).map
              (fun j => ⟨.pcie, (l.getD j (0, 0)).1, (l.getD j (0, 0)).2⟩))))
    ∧ (∀ i, (n.mbxReady = false → exec (.rspConsumeWrite i) s = .next s)
      ∧ (n.mbxReady = true → (n.rspProd - n.rspCons).toNat < (i - n.rspCons).toNat →
        exec (.rspConsumeWrite i) s = .next errs)
      ∧ (n.mbxReady = true → (i - n.rspCons).toNat ≤ (n.rspProd - n.rspCons).toNat → Completes (.rspConsumeWrite i) s fun t =>
        MailOnly { s with nose := { n with rspCons := i } } t ∧ t.nose.rspCons = i))
    ∧ (∀ i, let pcie := ∃ w, n.lease = some (w, .pcie)
      (n.mbxReady = false ∨ ¬ pcie → exec (.evtConsumeWrite i) s = .next s)
      ∧ (n.mbxReady = true → pcie → evtHeld s < (i - n.evtCons).toNat → exec (.evtConsumeWrite i) s = .next errs)
      ∧ (n.mbxReady = true → pcie → (i - n.evtCons).toNat ≤ evtHeld s → Completes (.evtConsumeWrite i) s fun t =>
        EventsOnly { s with nose := { n with evtCons := i } } t ∧ t.nose.evtCons = i
        ∧ (i = n.evtCons ∨ n.evtLost = 0 → t = { s with nose := { n with evtCons := i } })))
    ∧ (∀ v, Completes (.nosStatusClear v) s fun t => ∃ w, t = { s with bar0 := { s.bar0 with status := w } }
      ∧ ∀ b, b < 3 → w.getLsbD b = (s.bar0.status.getLsbD b && !v.getLsbD b))
    ∧ (∀ v, Completes (.errStickyClear v) s fun t => ∃ w, t = { s with bar0 := { s.bar0 with sticky := w } }
      ∧ ∀ b, b < 8 → w.getLsbD b = (s.bar0.sticky.getLsbD b && !v.getLsbD b))
    ∧ (∀ v : BitVec 32, (v.getLsbD 0 = false ∨ s.tb.run = false → exec (.snapshotTake v) s = .next s)
      ∧ (v.getLsbD 0 = true → s.tb.run = true → Completes (.snapshotTake v) s fun t =>
        t.bar0.tsValid = true ∧ t.bar0.tsTakes = s.bar0.tsTakes + 1 ∧ t.bar0.tsCounter = tbCounter s
        ∧ t.bar0.tsSec = (fullTime s.tb.t40).1 ∧ t.bar0.tsNs = (fullTime s.tb.t40).2.1 ∧ t.bar0.tsEpoch = s.tb.epoch
        ∧ t.bar0.tsBeat = s.tb.beat ∧ t.bar0.tsState.toNat = tbStateCode s.tb.st
        ∧ t.bar0.tsCycle = BitVec.ofNat 17 s.tb.cyc ∧ (bar0Read t 0x041C) = s.tb.beat
        ∧ ∃ b, t = { s with bar0 := b }))
    ∧ (∀ (ch : Fin 2) (v : BitVec 32), let c := capGet s ch.val
      (v.getLsbD 0 = false → exec (.capturePop ch v) s = .next s)
      ∧ (v.getLsbD 0 = true → c.buf = [] →
        exec (.capturePop ch v) s = .next { s with bar0 := { s.bar0 with status := s.bar0.status ||| 0b100#3 } })
      ∧ (∀ h r, v.getLsbD 0 = true → c.buf = h :: r → Completes (.capturePop ch v) s fun t =>
        capGet t ch.val = { c with buf := r } ∧ t.bar0 = s.bar0))
    ∧ (∀ (o : BitVec 16) (z : Fin 9) (v : BitVec 64),
      (¬ (z.val = 4 ∧ o.toNat % 4 = 0) → ¬ (z.val = 8 ∧ o.toNat % 8 = 0) →
        exec (.bar0Write o z v) s = .next { s with bar0 := { s.bar0 with status := s.bar0.status ||| 1#3 } })
      ∧ (∀ j : Fin 8, o.toNat = 0x3000 + 4 * j.val → z.val = 4 → Completes (.bar0Write o z v) s fun t =>
        bar0Read t o.toNat = v.setWidth 32 ∧ (∀ i : Fin 8, i ≠ j → bar0Read t (0x3000 + 4 * i.val) = bar0Read s (0x3000 + 4 * i.val))
        ∧ ∃ w, t = { s with bar0 := { s.bar0 with scratch := w } })
      ∧ (0xF000 ≤ o.toNat → o.toNat < 0xF020 → o.toNat % 4 = 0 → z.val = 4 → Completes (.bar0Write o z v) s fun t =>
        bar0Read t o.toNat = v.setWidth 32 ∧ ∃ w, t = { s with bar0 := { s.bar0 with msixTable := w } })
      ∧ (z.val = 4 → o.toNat ∈ [0x0000, 0x0010, 0x0020, 0x0104, 0x0108, 0x0110, 0x0200, 0x0300, 0x0404, 0x0504, 0x0F00, 0x1000] →
        exec (.bar0Write o z v) s = .next s)
      ∧ (o.toNat % 8 = 0 → z.val = 8 → Completes (.bar0Write o z v) s fun t =>
        t = bar0Word (o.toNat + 4) (BitVec.ofNat 32 (v.toNat / 2 ^ 32)) (bar0Word o.toNat (v.setWidth 32) s)))
    ∧ (∀ v : Fin 2, n.msixAt.length = 2 →
      let masked := (msixWord s (16 * v.val + 12)).getLsbD 0
      let last := n.msixAt.getD v.val 0
      (n.msixDue.getLsbD v.val = true → masked = false → last = 0 ∨ s.tb.t40 - last ≥ 1000 * 2 ^ 40 →
        Completes (.msixMessage v) s fun t => t.outs = .msix v.val :: s.outs ∧ t.nose.msixDue.getLsbD v.val = false
          ∧ (∀ w : Fin 2, w ≠ v → t.nose.msixDue.getLsbD w.val = n.msixDue.getLsbD w.val)
          ∧ t.nose.msixAt.getD v.val 0 = s.tb.t40)
      ∧ (n.msixDue.getLsbD v.val = false ∨ masked = true ∨ (last ≠ 0 ∧ s.tb.t40 - last < 1000 * 2 ^ 40 ∧ s.tb.run = true) →
        exec (.msixMessage v) s = .next s))

/-- What every reset, the start and the supply do: a power-on reset leaves the reset state but for the fuses, the flash and
what lies outside; a device warm reset keeps the always-on domain and the scratch registers; a Nose warm reset resets the Nose,
the mailbox and the lease, and in LEAD and SILLAGE drives the pair pins low and enters STANDBY; a start that fails is counted
and, at the third failure, enters BASE with a boot record, the first failing step giving its cause; one that succeeds runs its
firmware in STANDBY; an undervoltage or a junction at 125 °C holds the block, in the latter case until the next power-on reset
(R406, R407, R409, R413 to R416, R472, R475). -/
def Obligations.ResetsAndStarts : Prop :=
  ∀ s : State,
    let powered : State → Prop := fun t => t.nose = State.reset.nose ∧ t.nose.mode = .boot ∧ t.nose.lease = none
      ∧ t.boot.held = true ∧ t.boot.kind = 0 ∧ t.boot.failCount = 0 ∧ t.boot.records = [] ∧ t.boot.attempts = []
      ∧ t.boot.thermtrip = false ∧ t.boot.fuses = s.boot.fuses ∧ t.bar0 = bar0Reset ∧ t.ae = State.reset.ae
      ∧ t.frm = frmReset ∧ t.ctr = [] ∧ t.mem.res = [] ∧ t.mem.hbm = [] ∧ t.pins.leadSel = false ∧ t.pins.twinLead0 = false
      ∧ (s.nose.jobs = [] → t.boot.flash = s.boot.flash) ∧ t.outs = s.outs ∧ t.pending = s.pending
    let warm : State → Prop := fun t => t.nose = State.reset.nose ∧ t.nose.mode = .boot ∧ t.boot.held = true ∧ t.boot.kind = 1
      ∧ t.boot.records = s.boot.records ∧ t.boot.failCount = s.boot.failCount ∧ t.boot.attempts = s.boot.attempts
      ∧ t.boot.fuses = s.boot.fuses ∧ t.bar0 = { bar0Reset with scratch := s.bar0.scratch } ∧ t.ae = State.reset.ae
      ∧ t.frm = frmReset ∧ t.ctr = [] ∧ t.mem.hbm = [] ∧ t.mem.trained = s.mem.trained
    let noseWarm : State → Prop := fun t => t.nose.lease = none ∧ t.nose.jobs = [] ∧ t.nose.sched = [] ∧ t.nose.arrived = []
      ∧ t.nose.cmdProd = 0 ∧ t.nose.rspProd = 0 ∧ t.nose.deviceId = s.nose.deviceId ∧ t.frm.load = none
      ∧ t.frm.active = s.frm.active ∧ (s.frm.load = none → t.frm.pending = s.frm.pending)
      ∧ (s.frm.load.isSome = true → t.frm.pending = none) ∧ t.bar0.scratch = s.bar0.scratch ∧ t.bar0.status = 0b010#3
      ∧ t.boot.records = s.boot.records ∧ t.boot.failCount = s.boot.failCount ∧ t.boot.fuses = s.boot.fuses
      ∧ (s.nose.mode ≠ .base → t.boot.held = true ∧ t.boot.kind = 2 ∧ t.nose.mbxReady = false
        ∧ t.pins.leadSel = false ∧ t.pins.twinLead0 = false)
      ∧ (s.nose.mode = .base → t.boot.held = s.boot.held ∧ t.nose.mode = .base ∧ t.nose.mbxReady = true ∧ t.nose.fwKind = 1)
      ∧ (s.nose.mode = .standby ∨ s.nose.mode = .solo → t.nose.mode = s.nose.mode ∧ t.ae = s.ae ∧ t.mem = s.mem
        ∧ t.frm.executing = s.frm.executing ∧ t.tb = s.tb)
      ∧ (s.nose.mode = .lead ∨ s.nose.mode = .sillage → t.nose.mode = .standby ∧ t.frm.executing = false)
    let held := s.boot.held = true ∧ s.boot.thermtrip = false
    let failed : Nat → State → Prop := fun cause t =>
      (s.boot.failCount.toNat < 2 → t.nose.mode = .boot ∧ t.boot.held = true ∧ t.boot.kind = 1
        ∧ t.boot.failCount = s.boot.failCount + 1 ∧ t.boot.startCause = BitVec.ofNat 8 cause ∧ t.boot.records = s.boot.records)
      ∧ (2 ≤ s.boot.failCount.toNat → t.nose.mode = .base ∧ t.boot.held = false ∧ t.boot.failCount = 3 ∧ t.tb.run = false
        ∧ t.nose.mbxReady = true ∧ t.nose.fwKind = 1 ∧ t.mem.st = (if s.mem.trained then .clocksStopped else .reset)
        ∧ t.boot.records.length = Nat.min 4 (s.boot.records.length + 1)
        ∧ ∃ r, t.boot.records.getLast? = some r ∧ bits r.toNat 255 248 = 1)
    let sensed : State := if s.boot.kind = 2 then s else { s with boot := { s.boot with sensed := s.boot.fuses } }
    let fw := firmwareRead sensed
    let full := s.boot.kind ≠ 2
    Completes .powerOnReset s powered
    ∧ (s.nose.resetDue = none → exec .warmReset s = .next s)
    ∧ (∀ k, s.nose.resetDue = some k → k ≠ 1#8 → Completes .warmReset s warm)
    ∧ (s.nose.resetDue = some 1#8 → Completes .warmReset s noseWarm)
    ∧ (s.nose.mode ≠ .boot → s.boot.held = false → Completes .noseFirmwareFault s noseWarm)
    ∧ (s.nose.mode = .boot ∨ s.boot.held = true → exec .noseFirmwareFault s = .next s)
    ∧ (∀ run : StartRun, (¬ held → exec (.porRelease run) s = .next s)
      ∧ (held → ∀ cause, cause =
          (if full ∧ run.nosePll = false then 0x10
           else if full ∧ factoryBad s.boot.fuses.factory = true then 0x13
           else if full ∧ run.bistOk = false then 0x12
           else if fw.cause ≠ 0 then fw.cause
           else if full ∧ (run.corePll = false ∨ run.hbmPll = false) then 0x10
           else if full ∧ (eyesOk run.eyes8 = false ∨ eyesOk run.eyesS = false) then 0x11
           else if run.fwFatal = true then 0x21 else 0) →
        (cause ≠ 0 → Completes (.porRelease run) s (failed cause))
        ∧ (cause = 0 → Completes (.porRelease run) s fun t => t.boot.held = false ∧ t.boot.failCount = 0 ∧ t.boot.attempts = []
          ∧ t.nose.mbxReady = true ∧ t.nose.fwKind = 2 ∧ t.nose.fwVer = fw.version ∧ t.nose.mode = (if full then .standby else s.nose.mode)
          ∧ (full → t.tb.run = true ∧ t.mem.trained = true ∧ t.boot.sensed = s.boot.fuses)
          ∧ (s.boot.failCount = 0 ∨ s.boot.failCount = 3 → t.boot.records = s.boot.records)
          ∧ (s.boot.failCount = 1 ∨ s.boot.failCount = 2 →
            ∃ r, t.boot.records.getLast? = some r ∧ bits r.toNat 255 248 = 2))))
    ∧ (∀ ms, (¬ held → exec (.startWatchdog ms) s = .next s) ∧ (held → Completes (.startWatchdog ms) s (failed 0x20)))
    ∧ Completes (.supplyUndervoltage 3) s powered
    ∧ (∀ rail : Fin 4, rail ≠ 3 → Completes (.supplyUndervoltage rail) s fun t =>
      t.nose = State.reset.nose ∧ t.nose.mode = .boot ∧ t.boot.held = true ∧ t.boot.kind = 0 ∧ t.boot.records = s.boot.records
      ∧ t.boot.fuses = s.boot.fuses ∧ t.ae = State.reset.ae ∧ t.pins.leadSel = false ∧ t.pins.twinLead0 = false
      ∧ t.boot.thermtrip = s.boot.thermtrip
      ∧ t.boot.failCount.toNat = if s.boot.held then Nat.min (s.boot.failCount.toNat + 1) 3 else s.boot.failCount.toNat)
    ∧ (∀ (n : Fin 16) (c : BitVec 16),
      (s.nose.mbxReady = true → 105 < c.toInt → (∀ t0, s.boot.thermalAt = some t0 → t0 + sec40 ≤ s.tb.t40) →
        exec (.evThermal n c) s = .next (raiseEv 0x50 0xD [.num 1 n.val, .num 2 c.toNat]
          { s with boot := { s.boot with thermalAt := some s.tb.t40 } }))
      ∧ (s.nose.mbxReady = false ∨ c.toInt ≤ 105 ∨ (∃ t0, s.boot.thermalAt = some t0 ∧ s.tb.t40 < t0 + sec40) →
        exec (.evThermal n c) s = .next s)
      ∧ (125 ≤ c.toInt → Completes (.thermtrip n c) s fun t =>
        t.boot.thermtrip = true ∧ t.boot.held = true ∧ t.nose = State.reset.nose ∧ t.boot.records = s.boot.records
        ∧ t.pins.leadSel = false ∧ ∀ run, exec (.porRelease run) t = .next t)
      ∧ (c.toInt < 125 → exec (.thermtrip n c) s = .next s))

/-- A beat boundary in STANDBY with no loop run under way: the next beat of the counter's grid opens with its stamp, the peer's
pins are sampled, and what was accepted for this boundary, here a change of the accord slots for its stamp and time parameters
for the next slot boundary, takes effect at it and not before (R25, R311, R325, R356, R399). -/
def Obligations.BoundariesOpenBeats : Prop :=
  ∀ (peerLead peerAlive : Bool) (s : State),
    (beatsRun s = false → exec (.beatBoundary peerLead peerAlive) s = .next s)
    ∧ (beatsRun s = true → s.nose.mode = .standby → s.frm.executing = false → s.frm.ruptureS = none →
        s.frm.stepWait = false → s.frm.loopRun = none → s.frm.running = [] →
        (∀ e ∈ s.nose.sched, (∃ b k a m, e = ⟨.at b, .accordJoin k a m⟩) ∨ (∃ p, e = ⟨.nextSlot, .timeConfig p⟩)) →
      Completes (.beatBoundary peerLead peerAlive) s fun t =>
        let lin := linAtTime s.tb.nextT s
        t.tb.lin = lin ∧ t.tb.beat = stampOfLin lin ∧ t.tb.openT = s.tb.nextT
        ∧ t.nose.mode = .standby ∧ t.frm.executing = false ∧ t.frm.stage = 0 ∧ t.frm.running = []
        ∧ t.pins.twinLead1 = peerLead ∧ t.pins.twinAlive1 = peerAlive ∧ t.pins.twinAlive0 = false
        ∧ (peerAlive = s.pins.twinAlive1 → t.pins.aliveEdge = s.pins.aliveEdge)
        ∧ t.nose.sched = s.nose.sched.filter (fun e => !dueNow lin (stampOfLin lin) e)
        ∧ (s.nose.sched = [] → t.tb.nextT = boundaryT s (lin + 1) ∧ t.tb.par = s.tb.par ∧ t.twn.slots = s.twn.slots
          ∧ (timePar s 160 159 = 0 → .pulse .beatOut true s.tb.nextT ∈ t.outs))
        ∧ (∀ k a m, s.nose.sched = [⟨.at (stampOfLin lin), .accordJoin k a m⟩] →
          t.twn.slots = FMap.set s.twn.slots k.toNat (a, m) ∧ t.tb.par = s.tb.par)
        ∧ (∀ b k a m, b ≠ stampOfLin lin → s.nose.sched = [⟨.at b, .accordJoin k a m⟩] →
          t.twn.slots = s.twn.slots ∧ t.nose.sched = s.nose.sched)
        ∧ (∀ p, s.nose.sched = [⟨.nextSlot, .timeConfig p⟩] → t.tb.par = if lin % 14 = 0 then p else s.tb.par))

/-- One step takes the command at the front of the queue and carries it out on the state with the queue's rest; with no
command waiting the block lets one core cycle pass (DESIGN CHOICE, log entry 1). -/
def Obligations.StepTakesTheFront : Prop :=
  ∀ (s : State), s.pending = [] → step s = .next (idleCycle s)
    ∧ ∀ (i : Instr) (rest : List Instr), step { s with pending := i :: rest } = exec i { s with pending := rest }

/-- After a power-on reset the state is legal, and it is as the rules have it: mode BOOT, the Nose in reset, the lease free with
its TIMEOUT_MS, every memory of the die zero, both formula slots and the drydown ring empty, the stack in reset, the counter
stopped at its nominal increment, the lanes' reference and every port's words at their reset values, the pair outputs low, no
record, no error, no event, every counter zero, and no command waiting. -/
def Obligations.ResetIsALegalState : Prop :=
  let s := State.reset
  Canon s ∧ s.pending = []
    ∧ s.nose.mode = .boot ∧ s.boot.held = true ∧ s.bar0.status = 0b010 ∧ s.bar0.scratch = 0 ∧ s.bar0.lastIndex = 0xFFFFFFFF
    ∧ s.nose.lease = none ∧ s.nose.timeoutMs = 2000 ∧ s.nose.jobs = [] ∧ s.nose.sched = [] ∧ s.nose.evtMask = 0
    ∧ heldEvents s = [] ∧ heldErrors s = [] ∧ heldVerdicts s = [] ∧ s.boot.records = []
    ∧ (∀ c, FMap.get 0 s.ctr c = 0)
    ∧ (∀ a, FMap.get 0 s.mem.res a = 0 ∧ FMap.get 0 s.mem.fe a = 0 ∧ FMap.get 0 s.mem.cf a = 0)
    ∧ (∀ k bg y a, a < 32768 → cellView s k bg y a = cell0)
    ∧ s.frm.active = none ∧ s.frm.pending = none ∧ s.frm.load = none ∧ s.dd.n = 0 ∧ retained s = []
    ∧ s.mem.st = .reset ∧ s.mem.regions = regionsReset ∧ s.mem.par = memParReset
    ∧ s.tb.run = false ∧ s.tb.inc = 0x008235555555 ∧ s.tb.par = timeParReset ∧ s.tb.beat = 0
    ∧ (∀ e, (laneOf s e).st = .off) ∧ (∀ p, portIsUp s p = false)
    ∧ s.pins.twinLead0 = false ∧ s.pins.twinAlive0 = false ∧ s.twn.up = false ∧ s.twn.fitness = .unfit

/-- No step leaves the legal states: from every one of them, reached or not, a step that goes on leads to a legal state; it takes
one command from the queue and no more, forgets nothing of what the block has sent, and returns no programmed fuse bit to
blank. And a step always goes on: it refuses nothing, and faults only where a request names an HBM address beyond the 24 GiB
that exist. -/
def Obligations.StepKeepsALegalState : Prop :=
  (∀ (s t : State), Canon s → step s = .next t →
    Canon t ∧ t.pending = s.pending.tail ∧ s.outs <:+ t.outs ∧ FuseLe s.boot.fuses t.boot.fuses ∧ s.fresh ≤ t.fresh)
  ∧ (∀ s : State, (∃ t, step s = .next t)
    ∨ ∃ port write addr data rest, s.pending = .hbmRequest port write addr data :: rest ∧ 24 * 2 ^ 30 ≤ addr.toNat
      ∧ step s = .fault .noSuchAddress)

/-- The fields of an instruction word lie where the table "Instruction word" puts them; every 64-bit word is that of one
opcode with one set of fields and of no other, so that for a context and a state no two different instructions can be the
one at its program counter. -/
def Obligations.InstructionWordsAreExact : Prop :=
  (∀ (op : Nat) (w : AeW), op < 64 →
    let v := (aeEncode op w).toNat
    bits v 63 58 = op ∧ bits v 57 55 = w.acd.val ∧ bits v 54 52 = w.acs.val ∧ bitN v 51 = w.c ∧ bitN v 50 = w.n
      ∧ bitN v 49 = w.j ∧ bitN v 48 = w.k ∧ bits v 47 45 = w.xm.val ∧ bits v 44 42 = w.xr.val ∧ bits v 41 39 = w.ym.val
      ∧ bits v 38 36 = w.yr.val ∧ bits v 35 0 = w.imm.toNat)
  ∧ (∀ (op op' : Nat) (w w' : AeW), op < 64 → op' < 64 → aeEncode op w = aeEncode op' w' → op = op' ∧ w = w')
  ∧ (∀ v : BitVec 64, ∃ op w, op < 64 ∧ aeEncode op w = v)
  ∧ (∀ (s : State) (k : Nat) (bg : Bool) (op op' : Nat) (w w' : AeW), op < 64 → op' < 64 →
    atPc s k bg op w = true → atPc s k bg op' w' = true → op = op' ∧ w = w')

/-- Each accumulator part holds a wrapped 48-bit value A, an excursion x and LOST, and its true value is V = A + x * 2^48. A term
of at most 48 bits, or -2^47 negated, is added modulo 2^48; x becomes that of the new true value, clamped to -8 to 7, and
LOST is set where it was clamped and stays where it was set. So V is exact while it fits. The add of another accumulator part,
or of its negation, also adds the source's x and ORs the LOST flags. Terms in any number whose running sums fit add up
exactly, and 128 products of a data and a coefficient word cannot overflow. -/
def Obligations.AccumulatorsFollowTheRule : Prop :=
  let fits (v : Int) : Prop := -8 ≤ (v + 2 ^ 47) / 2 ^ 48 ∧ (v + 2 ^ 47) / 2 ^ 48 ≤ 7
  let term (t : Int) : Prop := -2 ^ 47 ≤ t ∧ t ≤ 2 ^ 47
  let gives (r : AccPart) (v : Int) (l : Bool) : Prop :=
    r.a = BitVec.ofInt 48 v ∧ r.x = max (-8) (min 7 ((v + 2 ^ 47) / 2 ^ 48)) ∧ (r.lost = true ↔ l = true ∨ ¬ fits v)
      ∧ (fits v → partValue r = v)
  (∀ (p : AccPart) (t : Int), term t → gives (partAdd p t) (partValue p + t) p.lost)
  ∧ (∀ p q : AccPart, gives (partAddPart false p q) (partValue p + partValue q) (p.lost || q.lost)
      ∧ gives (partAddPart true p q) (partValue p - partValue q) (p.lost || q.lost))
  ∧ (∀ (p : AccPart) (l : List Int), (∀ t ∈ l, term t) → (∀ n, 1 ≤ n → n ≤ l.length → fits (partValue p + (l.take n).sum)) →
      partValue (l.foldl partAdd p) = partValue p + l.sum ∧ (l.foldl partAdd p).lost = p.lost)
  ∧ (∀ (j k n : Bool) (l : List (Cell × Cell)), l.length ≤ 128 →
      let ts := l.map (fun w => macTerm j k n w.1 w.2)
      let i := (ts.map (fun t => t.i)).foldl partAdd part0
      let q := (ts.map (fun t => t.q)).foldl partAdd part0
      i.a.toInt = (ts.map (fun t => t.i)).sum ∧ partOver i = false
        ∧ q.a.toInt = (ts.map (fun t => t.q)).sum ∧ partOver q = false)
end

