-- ==== Sys2Proof/Laws/Mailbox.lean ====
section
/-! SUPPORT. The mailbox: what taking, answering and serving a command changes, said once. A statement about a mailbox
command needs `serve_done` (the command answers) or `serve_later` (its response follows later). -/

namespace Sys2Proof.Machine

/-! ## Reading a store after a write -/

@[simp] theorem get_set_eq {α : Type} (d : α) (m : FMap α) (k : Nat) (v : α) : FMap.get d (FMap.set m k v) k = v := by
  induction m with
  | nil => simp [FMap.set, FMap.get]
  | cons p t ih =>
    obtain ⟨a, x⟩ := p
    rw [FMap.set]
    split
    · simp [FMap.get]
    · split
      · simp [FMap.get]
      · rename_i h1 h2
        simp only [FMap.get, if_neg h2, ih]

theorem get_set_ne {α : Type} (d : α) (m : FMap α) {k j : Nat} (v : α) (h : j ≠ k) :
    FMap.get d (FMap.set m k v) j = FMap.get d m j := by
  induction m with
  | nil => simp [FMap.set, FMap.get, Ne.symm h]
  | cons p t ih =>
    obtain ⟨a, x⟩ := p
    rw [FMap.set]
    split
    · simp [FMap.get, Ne.symm h]
    · split
      · rename_i h1 h2
        subst h2
        simp [FMap.get, Ne.symm h]
      · simp only [FMap.get, ih]

@[simp] theorem find_set_eq {α : Type} (m : FMap α) (k : Nat) (v : α) : FMap.find (FMap.set m k v) k = some v := by
  induction m with
  | nil => simp [FMap.set, FMap.find]
  | cons p t ih =>
    obtain ⟨a, x⟩ := p
    rw [FMap.set]
    split
    · simp [FMap.find]
    · split
      · simp [FMap.find]
      · rename_i h1 h2
        simp only [FMap.find, if_neg h2, ih]

theorem find_set_ne {α : Type} (m : FMap α) {k j : Nat} (v : α) (h : j ≠ k) :
    FMap.find (FMap.set m k v) j = FMap.find m j := by
  induction m with
  | nil => simp [FMap.set, FMap.find, Ne.symm h]
  | cons p t ih =>
    obtain ⟨a, x⟩ := p
    rw [FMap.set]
    split
    · simp [FMap.find, Ne.symm h]
    · split
      · rename_i h1 h2
        subst h2
        simp [FMap.find, Ne.symm h]
      · simp only [FMap.find, ih]

theorem get_filter_ne {α : Type} (d : α) (m : FMap α) {k j : Nat} (h : j ≠ k) :
    FMap.get d (m.filter (fun p => !(p.1 == k))) j = FMap.get d m j := by
  induction m with
  | nil => rfl
  | cons p t ih =>
    obtain ⟨a, x⟩ := p
    rw [List.filter_cons]
    by_cases ha : a = k
    · subst ha
      simp only [beq_self_eq_true, Bool.not_true, Bool.false_eq_true, if_false, ih]
      simp [FMap.get, Ne.symm h]
    · simp [ha, FMap.get, ih]

theorem get_filter_eq {α : Type} (d : α) (m : FMap α) (k : Nat) :
    FMap.get d (m.filter (fun p => !(p.1 == k))) k = d := by
  induction m with
  | nil => rfl
  | cons p t ih =>
    obtain ⟨a, x⟩ := p
    rw [List.filter_cons]
    by_cases ha : a = k
    · simp [ha, ih]
    · simp [ha, FMap.get, ih]

@[simp] theorem get_put_eq {α : Type} [DecidableEq α] (d : α) (m : FMap α) (k : Nat) (v : α) :
    FMap.get d (FMap.put d m k v) k = v := by
  unfold FMap.put FMap.erase
  split
  · rename_i h; rw [get_filter_eq, h]
  · exact get_set_eq d m k v

theorem get_put_ne {α : Type} [DecidableEq α] (d : α) (m : FMap α) {k j : Nat} (v : α) (h : j ≠ k) :
    FMap.get d (FMap.put d m k v) j = FMap.get d m j := by
  unfold FMap.put FMap.erase
  split
  · exact get_filter_ne d m h
  · exact get_set_ne d m v h

/-! ## Counters -/

theorem counterGet_countBy_ne {code idx n c j : Nat} {s : State} (h : counterKey c j ≠ counterKey code idx) :
    counterGet (countBy code idx n s) c j = counterGet s c j := get_put_ne 0 s.ctr _ h

/-- A counter rises by `n` and stops at all-ones. -/
theorem counterGet_countBy (code idx n : Nat) (s : State) :
    counterGet (countBy code idx n s) code idx = Nat.min (counterGet s code idx + n) (2 ^ counterWidth code - 1) :=
  get_put_eq 0 s.ctr _ _

/-! ## MailOnly -/

theorem MailOnly.refl (s : State) : MailOnly s s := ⟨rfl, fun _ _ => rfl, [], rfl, by simp⟩

theorem MailOnly.trans {a b c : State} (h : MailOnly a b) (k : MailOnly b c) : MailOnly a c := by
  obtain ⟨h1, h2, l, h3, h4⟩ := h
  obtain ⟨k1, k2, m, k3, k4⟩ := k
  refine ⟨k1.trans h1, fun j hj => (k2 j hj).trans (h2 j hj), m ++ l, by rw [k3, h3, List.append_assoc], fun o ho => ?_⟩
  rcases List.mem_append.mp ho with ho | ho
  · exact k4 o ho
  · exact h4 o ho

/-- What looks at no part of the mailbox is the same. -/
theorem withoutMail_same {α : Type} {u t : State} (h : withoutMail t = withoutMail u) (f : State → α)
    (hf : ∀ s, f (withoutMail s) = f s) : f t = f u := by
  rw [← hf t, ← hf u, h]

/-- A mailbox counter moves. -/
theorem countBy_mailOnly {code idx n : Nat} (hi : idx < 65536) (hc : code ∈ mailCounters) (s : State) :
    MailOnly s (countBy code idx n s) := by
  refine ⟨rfl, fun k hk => get_put_ne 0 s.ctr _ ?_, [], rfl, by simp⟩
  rintro rfl
  apply hk
  have : counterKey code idx / 65536 = code := by unfold counterKey; omega
  rwa [this]

theorem emit_mailOnly (p : Nat) (r : Response) (s : State) : MailOnly s (emit (.rspFrame p r) s) :=
  ⟨rfl, fun _ _ => rfl, [.rspFrame p r], rfl, by simp⟩

theorem sendRsp_mailOnly {p : Nat} (hp : p < 6) (r : Response) (s : State) : MailOnly s (sendRsp p r s) := by
  have hi : p < 65536 := by omega
  unfold sendRsp macSend
  split
  · exact ((emit_mailOnly p r s).trans (countBy_mailOnly hi (by decide) _)).trans (countBy_mailOnly hi (by decide) _)
  · exact countBy_mailOnly hi (by decide) _

theorem takeHead_mailOnly (x : Head) (s : State) : MailOnly s (takeHead x s) := by
  unfold takeHead
  refine MailOnly.trans ?_ (countBy_mailOnly (by decide) (by decide) _)
  refine ⟨?_, fun _ _ => rfl, [], rfl, by simp⟩
  obtain ⟨src, tag, op⟩ := x
  cases src <;> dsimp only <;> split <;> rfl

theorem respond_mailOnly (dst : Src) (tag : BitVec 32) (op : Nat) (a : BitVec 32) (st : Nat) (eff : Option Stamp)
    (nx : Nat) (pay : List Fld) (s : State) : MailOnly s (respond dst tag op a st eff nx pay s) := by
  unfold respond
  extract_lets r s1
  have h1 : MailOnly s s1 := by
    unfold s1
    split
    · exact MailOnly.refl _
    · exact countBy_mailOnly (by decide) (by decide) _
  clear_value s1
  refine h1.trans ?_
  cases dst with
  | pcie => exact ⟨rfl, fun _ _ => rfl, [], rfl, by simp⟩
  | inband p m v =>
    exact MailOnly.trans (b := { s1 with nose := { s1.nose with kept := _ } }) ⟨rfl, fun _ _ => rfl, [], rfl, by simp⟩
      (sendRsp_mailOnly (by omega) r _)

theorem answerUndefined_mailOnly (n : Nat) (s : State) : MailOnly s (answerUndefined n s) := by
  induction n generalizing s with
  | zero => exact MailOnly.refl _
  | succ n ih =>
    rw [answerUndefined]
    split
    · split
      · exact MailOnly.refl _
      · exact ((takeHead_mailOnly _ s).trans (respond_mailOnly _ _ _ _ _ _ _ _ _)).trans (ih _)
    · exact MailOnly.refl _

theorem serveUndefined_mailOnly (s : State) : MailOnly s (serveUndefined s) := answerUndefined_mailOnly _ s

/-! ## The response stays where it was put -/

/-- Response ring slots in use. -/
def rspHeld (s : State) : Nat := (s.nose.rspProd - s.nose.rspCons).toNat

theorem takeHead_rsp (x : Head) (s : State) : (takeHead x s).nose.rspProd = s.nose.rspProd
    ∧ (takeHead x s).nose.rspCons = s.nose.rspCons ∧ (takeHead x s).nose.rspRing = s.nose.rspRing := by
  obtain ⟨src, tag, op⟩ := x
  unfold takeHead
  cases src <;> dsimp only <;> split <;> exact ⟨rfl, rfl, rfl⟩

theorem sendRsp_nose (p : Nat) (r : Response) (s : State) : (sendRsp p r s).nose = s.nose := by
  unfold sendRsp macSend
  split <;> rfl

/-- A response to a port that is UP is sent as a frame. -/
theorem sendRsp_mem {p : Nat} {s : State} (h : portIsUp s p = true) (r : Response) : .rspFrame p r ∈ (sendRsp p r s).outs := by
  unfold sendRsp macSend
  rw [if_pos h]
  exact List.mem_cons_self

theorem respond_rsp (dst : Src) (tag : BitVec 32) (op : Nat) (a : BitVec 32) (st : Nat) (eff : Option Stamp)
    (nx : Nat) (pay : List Fld) (s : State) :
    (respond dst tag op a st eff nx pay s).nose.rspCons = s.nose.rspCons
    ∧ (dst = .pcie → (respond dst tag op a st eff nx pay s).nose.rspProd = s.nose.rspProd + 1
      ∧ (respond dst tag op a st eff nx pay s).nose.rspRing = FMap.set s.nose.rspRing (s.nose.rspProd.toNat % 64)
          ⟨dst, tag, BitVec.ofNat 16 op, BitVec.ofNat 16 st, eff, a, nx, pay⟩)
    ∧ (dst ≠ .pcie → (respond dst tag op a st eff nx pay s).nose.rspProd = s.nose.rspProd
      ∧ (respond dst tag op a st eff nx pay s).nose.rspRing = s.nose.rspRing) := by
  unfold respond
  extract_lets r s1
  have h1 : s1.nose = s.nose := by
    unfold s1
    split <;> rfl
  clear_value s1
  rw [← h1]
  cases dst with
  | pcie => exact ⟨rfl, fun _ => ⟨rfl, rfl⟩, fun h => absurd rfl h⟩
  | inband p m v =>
    dsimp only
    rw [sendRsp_nose]
    exact ⟨rfl, (fun h => by cases h), fun _ => ⟨rfl, rfl⟩⟩

theorem servable_room {s : State} {x : Head} (h : servable s x = true) (hx : x.src = .pcie) : rspHeld s < 64 := by
  unfold servable at h
  rw [hx] at h
  simp only [Bool.and_eq_true, decide_eq_true_eq] at h
  have := h.2
  unfold rspHeld
  omega

theorem nextHead_servable {s : State} {x : Head} (h : nextHead s = some x) : servable s x = true :=
  List.find?_some (p := servable s) h

/-- A response that is held in the ring stays in its slot while further entries are answered. -/
theorem answerUndefined_slot (n : Nat) {s : State} {r : Response} {d : Nat} (hd : 1 ≤ d) (hn : d ≤ rspHeld s)
    (h64 : rspHeld s ≤ 64)
    (hr : FMap.find s.nose.rspRing ((s.nose.rspProd - BitVec.ofNat 16 d).toNat % 64) = some r) :
    ∃ e, FMap.find (answerUndefined n s).nose.rspRing ((s.nose.rspProd - BitVec.ofNat 16 d).toNat % 64) = some r ∧ e = d := by
  refine ⟨d, ?_, rfl⟩
  induction n generalizing s d with
  | zero => exact hr
  | succ n ih =>
    rw [answerUndefined]
    split
    · rename_i x hx
      split
      · exact hr
      · extract_lets s1 st
        obtain ⟨p1, c1, g1⟩ := takeHead_rsp x s
        have hcons := (respond_rsp x.src x.tag x.opcode.toNat (nowNs s1) st none 0 [] s1).1
        have hin := (respond_rsp x.src x.tag x.opcode.toNat (nowNs s1) st none 0 [] s1).2
        by_cases hs : x.src = .pcie
        · obtain ⟨hp, hring⟩ := hin.1 hs
          have room := servable_room (nextHead_servable hx) hs
          generalize hs2 : respond x.src x.tag x.opcode.toNat (nowNs s1) st none 0 [] s1 = s2 at *
          have hp' : s2.nose.rspProd = s.nose.rspProd + 1 := by rw [hp, p1]
          have hc' : s2.nose.rspCons = s.nose.rspCons := by rw [hcons, c1]
          have e1 : s2.nose.rspProd - BitVec.ofNat 16 (d + 1) = s.nose.rspProd - BitVec.ofNat 16 d := by
            rw [hp']
            apply BitVec.eq_of_toNat_eq
            simp only [BitVec.toNat_sub, BitVec.toNat_add, BitVec.toNat_ofNat]
            have := s.nose.rspProd.isLt
            have : BitVec.toNat (1 : BitVec 16) = 1 := rfl
            have : d ≤ 64 := by omega
            omega
          have held : rspHeld s2 = rspHeld s + 1 := by
            unfold rspHeld at room ⊢
            rw [hp', hc']
            simp only [BitVec.toNat_sub, BitVec.toNat_add] at room ⊢
            have := s.nose.rspProd.isLt
            have := s.nose.rspCons.isLt
            have : BitVec.toNat (1 : BitVec 16) = 1 := rfl
            omega
          rw [← e1]
          refine ih (d := d + 1) (by omega) (by omega) (by omega) ?_
          rw [e1, hring, find_set_ne]
          · rw [g1]; exact hr
          · rw [p1]
            unfold rspHeld at room hn
            simp only [BitVec.toNat_sub, BitVec.toNat_ofNat]
            have := s.nose.rspProd.isLt
            have : d < 64 := by omega
            omega
        · obtain ⟨hp, hring⟩ := hin.2 hs
          generalize hs2 : respond x.src x.tag x.opcode.toNat (nowNs s1) st none 0 [] s1 = s2 at *
          have hp' : s2.nose.rspProd = s.nose.rspProd := by rw [hp, p1]
          have hh : rspHeld s2 = rspHeld s := by unfold rspHeld; rw [hp', hcons, c1]
          rw [← hp'] at hr ⊢
          refine ih hd (by omega) (by omega) ?_
          rw [hring, g1]; exact hr
    · exact hr

/-! ## Serving a command -/

/-- What taking an entry leaves as it was, for the command's own effect. -/
structure Taken (c : Src) (s v : State) : Prop where
  /-- only the mailbox's parts moved -/
  mail : MailOnly s v
  /-- no frame was sent -/
  outs : v.outs = s.outs
  /-- the response ring's indexes stand -/
  prod : v.nose.rspProd = s.nose.rspProd
  cons : v.nose.rspCons = s.nose.rspCons
  /-- the command itself is counted -/
  ctr : v.ctr = (count 0xD00 0 s).ctr
  /-- a command of the holder restarts the lease timer -/
  lease : v.nose.leaseAt = if holdsLease c s then s.tb.t40 else s.nose.leaseAt
  /-- the state is `s` with new mailbox parts -/
  form : ∃ ar cc ke la ct, v = { s with nose := { s.nose with arrived := ar, cmdCons := cc, kept := ke, leaseAt := la }, ctr := ct }

theorem takeHead_taken (x : Head) (s : State) : Taken x.src s (takeHead x s) := by
  refine ⟨takeHead_mailOnly x s, ?_, (takeHead_rsp x s).1, (takeHead_rsp x s).2.1, ?_, ?_, ?_⟩
  · obtain ⟨src, tag, op⟩ := x
    unfold takeHead
    cases src <;> dsimp only <;> split <;> rfl
  · obtain ⟨src, tag, op⟩ := x
    unfold takeHead
    cases src <;> dsimp only <;> split <;> rfl
  · obtain ⟨src, tag, op⟩ := x
    unfold takeHead
    cases src <;> dsimp only <;> split <;> rfl
  · obtain ⟨src, tag, op⟩ := x
    unfold takeHead
    cases src <;> dsimp only <;> split <;> exact ⟨_, _, _, _, _, rfl⟩

theorem checked_accepts {op : Nat} {h : Hdr} {modes : List Mode} {c : Src} {s v : State}
    (ha : Accepts op h modes s) (hv : Taken c s v)
    {m : Nat} (hm : m = stOk) (body : State → Reply × State) : checked op h m body v = body v := by
  obtain ⟨-, hl, hh, -, hb, hr⟩ := ha
  obtain ⟨ar, cc, ke, la, ct, e⟩ := hv.form
  have el : holdsLease h.src v = holdsLease h.src s := by rw [e]; rfl
  have eb : familyBusy op v = familyBusy op s := by rw [e]; rfl
  unfold checked
  rw [el, eb, hb, hh, hr, hm]
  rcases hl with hl | hl <;> simp [hl]

/-- A command that is taken and answers at once: the next state is what its checks and its body leave, but for the
mailbox's own parts, and the command was answered. -/
theorem serve_at {op : Nat} {h : Hdr} {mode : State → Nat} {body : State → Reply × State} {s u : State}
    {st : Nat} {pay : List Fld} {eff : Option Stamp} {nx : Nat} (hn : isNext op h s = true)
    (hb : ∃ v, v = takeHead ⟨h.src, h.tag, BitVec.ofNat 16 op⟩ s ∧ checked op h (mode v) body v = (.done st pay eff nx, u))
    (fp : u.nose.rspProd = s.nose.rspProd) (fc : u.nose.rspCons = s.nose.rspCons) (ft : u.tb.t40 = s.tb.t40)
    (fh : h.src ≠ .pcie → u.fhp.ports = s.fhp.ports) :
    MailOnly u (serve op h mode body s) ∧ Replied op h st pay eff nx s (serve op h mode body s) := by
  obtain ⟨v, e, hb⟩ := hb
  unfold serve
  rw [if_pos hn]
  dsimp only
  rw [← e, hb]
  clear hb e
  unfold answer
  dsimp only
  have hu := respond_mailOnly h.src h.tag op (nowNs u) st eff nx pay u
  refine ⟨hu.trans (serveUndefined_mailOnly _), ?_⟩
  have hnow : nowNs u = nowNs s := by unfold nowNs; rw [ft]
  obtain ⟨rc, rp, -⟩ := respond_rsp h.src h.tag op (nowNs u) st eff nx pay u
  have room : h.src = .pcie → rspHeld s < 64 := by
    intro hs
    unfold isNext at hn
    split at hn
    · rename_i x hx
      simp only [Bool.and_eq_true, beq_iff_eq] at hn
      exact servable_room (nextHead_servable hx) (hn.1.1.trans hs)
    · cases hn
  unfold Replied
  dsimp only
  rw [← hnow]
  rcases hsrc : h.src with _ | ⟨p, m, w⟩
  · dsimp only
    rw [hsrc] at rc rp
    obtain ⟨rp1, rp2⟩ := rp rfl
    have room := room hsrc
    generalize respond .pcie h.tag op (nowNs u) st eff nx pay u = z at *
    have held : rspHeld z = rspHeld s + 1 := by
      unfold rspHeld at room ⊢
      rw [rc, rp1, fp, fc]
      simp only [BitVec.toNat_sub, BitVec.toNat_add] at room ⊢
      have := s.nose.rspProd.isLt
      have := s.nose.rspCons.isLt
      have : BitVec.toNat (1 : BitVec 16) = 1 := rfl
      omega
    have e1 : z.nose.rspProd - BitVec.ofNat 16 1 = s.nose.rspProd := by rw [rp1, fp]; simp
    obtain ⟨_, hk, -⟩ := answerUndefined_slot z.nose.arrived.length (s := z) (d := 1)
      (r := ⟨.pcie, h.tag, BitVec.ofNat 16 op, BitVec.ofNat 16 st, eff, nowNs u, nx, pay⟩) (Nat.le_refl _) (by omega) (by omega)
      (by rw [e1, rp2, fp]; exact find_set_eq _ _ _)
    rw [e1] at hk
    exact hk
  · dsimp only
    intro hup
    have hu' : portIsUp u p.val = true := by unfold portIsUp portGet at hup ⊢; rw [fh (by rw [hsrc]; exact Src.noConfusion)]; exact hup
    obtain ⟨-, -, l, hl, -⟩ := serveUndefined_mailOnly (respond (.inband p m w) h.tag op (nowNs u) st eff nx pay u)
    rw [hl]
    refine List.mem_append_right _ ?_
    unfold respond
    extract_lets r s1
    have e1 : s1.fhp = u.fhp := by unfold s1; split <;> rfl
    clear_value s1
    refine sendRsp_mem ?_ r
    unfold portIsUp portGet at hu' ⊢
    show (FMap.get portReset s1.fhp.ports p.val).st == 2
    rw [e1]; exact hu'

/-- The same where the effect does not look at the mailbox's own parts. -/
theorem serve_answers {op : Nat} {h : Hdr} {mode : State → Nat} {body : State → Reply × State} {s : State}
    {st : Nat} {pay : List Fld} {eff : Option Stamp} {nx : Nat} {f : State → State} (hn : isNext op h s = true)
    (hb : ∀ v, Taken h.src s v → checked op h (mode v) body v = (.done st pay eff nx, f v))
    (hf : ∀ v, Taken h.src s v → MailOnly (f s) (f v) ∧ (f v).nose.rspProd = s.nose.rspProd
      ∧ (f v).nose.rspCons = s.nose.rspCons ∧ (f v).tb.t40 = s.tb.t40 ∧ (f v).fhp.ports = s.fhp.ports) :
    MailOnly (f s) (serve op h mode body s) ∧ Replied op h st pay eff nx s (serve op h mode body s) := by
  have hv := takeHead_taken ⟨h.src, h.tag, BitVec.ofNat 16 op⟩ s
  obtain ⟨fm, fp, fc, ft, fh⟩ := hf _ hv
  obtain ⟨a, b⟩ := serve_at (mode := mode) (body := body) hn ⟨_, rfl, hb _ hv⟩ fp fc ft (fun _ => fh)
  exact ⟨fm.trans a, b⟩

theorem Taken.took {c : Src} {s v : State} (hv : Taken c s v) : Took c s v := by
  have h1 := hv.ctr
  have h2 := hv.lease
  obtain ⟨ar, cc, ke, la, ct, e⟩ := hv.form
  subst e
  unfold Took
  dsimp only at h1 h2 ⊢
  rw [h1, h2]

/-- A command whose body answers at once: the next state is the body's, but for the mailbox's own parts, and the
command was answered. -/
theorem serve_done {op : Nat} {h : Hdr} {modes : List Mode} {mode : State → Nat} {body : State → Reply × State} {s : State}
    {st : Nat} {pay : List Fld} {eff : Option Stamp} {nx : Nat} {f : State → State} (ha : Accepts op h modes s)
    (hm : ∀ v, Taken h.src s v → mode v = stOk) (hb : ∀ v, Taken h.src s v → body v = (.done st pay eff nx, f v))
    (hf : ∀ v, Taken h.src s v → MailOnly (f s) (f v) ∧ (f v).nose.rspProd = s.nose.rspProd ∧ (f v).nose.rspCons = s.nose.rspCons
      ∧ (f v).tb.t40 = s.tb.t40 ∧ (f v).fhp.ports = s.fhp.ports) :
    MailOnly (f s) (serve op h mode body s) ∧ Replied op h st pay eff nx s (serve op h mode body s) := by
  exact serve_answers ha.1 (fun v hv => by rw [checked_accepts ha hv (hm v hv) body, hb v hv]) hf

/-- A command whose body begins a long-running command: no response yet. -/
theorem serve_later {op : Nat} {h : Hdr} {modes : List Mode} {mode : State → Nat} {body : State → Reply × State} {s : State}
    {f : State → State} (ha : Accepts op h modes s) (hm : ∀ v, Taken h.src s v → mode v = stOk)
    (hb : ∀ v, Taken h.src s v → body v = (.later, f v)) (hf : ∀ v, Taken h.src s v → MailOnly (f s) (f v)) :
    MailOnly (f s) (serve op h mode body s) := by
  have hv := takeHead_taken ⟨h.src, h.tag, BitVec.ofNat 16 op⟩ s
  have hn : isNext op h s = true := ha.1
  unfold serve
  rw [if_pos hn]
  dsimp only
  rw [checked_accepts ha hv (hm _ hv) body, hb _ hv]
  exact (hf _ hv).trans (serveUndefined_mailOnly _)

/-! ## The shapes of the mailbox commands -/

theorem inModes_taken {l : List Mode} {c : Src} {s v : State} (hm : s.nose.mode ∈ l) (hv : Taken c s v) : inModes l v = stOk := by
  obtain ⟨ar, cc, ke, la, ct, e⟩ := hv.form
  have : v.nose.mode = s.nose.mode := by rw [e]
  unfold inModes
  rw [this, if_pos (by simpa using hm)]

theorem leadModes_taken {l : List Mode} {c : Src} {s v : State} (hm : s.nose.mode ∈ l) (hs : s.nose.mode ≠ .sillage)
    (hv : Taken c s v) :
    leadModes l v = stOk := by
  obtain ⟨ar, cc, ke, la, ct, e⟩ := hv.form
  have h1 : v.nose.mode = s.nose.mode := by rw [e]
  unfold leadModes
  rw [h1, if_neg (by simpa using hs)]
  exact inModes_taken hm hv

/-- Taking a command changes nothing that is not the mailbox's. -/
theorem Taken.same {c : Src} {s v : State} (hv : Taken c s v) : MailOnly (id s) (id v) ∧ (id v).nose.rspProd = s.nose.rspProd
    ∧ (id v).nose.rspCons = s.nose.rspCons ∧ (id v).tb.t40 = s.tb.t40 ∧ (id v).fhp.ports = s.fhp.ports := by
  refine ⟨hv.mail, hv.prod, hv.cons, ?_, ?_⟩ <;> (obtain ⟨ar, cc, ke, la, ct, e⟩ := hv.form; rw [e]; rfl)

/-- A command that answers at once, with an effect that may look at the mailbox's own parts. -/
theorem serve_took {op : Nat} {h : Hdr} {modes : List Mode} {mode : State → Nat} {body : State → Reply × State} {s : State}
    {st : Nat} {pay : List Fld} (f : State → State) (ha : Accepts op h modes s) (hm : ∀ v, Taken h.src s v → mode v = stOk)
    (hb : ∀ v, Taken h.src s v → body v = (.done st pay none 0, f v))
    (hf : ∀ v, (f v).nose.rspProd = v.nose.rspProd ∧ (f v).nose.rspCons = v.nose.rspCons
      ∧ (f v).tb.t40 = v.tb.t40 ∧ (h.src ≠ .pcie → (f v).fhp.ports = v.fhp.ports)) : Done op h st pay f s (serve op h mode body s) := by
  have hv := takeHead_taken ⟨h.src, h.tag, BitVec.ofNat 16 op⟩ s
  obtain ⟨-, sp, sc, st', sf⟩ := hv.same
  obtain ⟨fp, fc, ft, fh⟩ := hf (takeHead ⟨h.src, h.tag, BitVec.ofNat 16 op⟩ s)
  refine ⟨_, hv.took, serve_at ha.1 ⟨_, rfl, ?_⟩ (fp.trans sp) (fc.trans sc) (ft.trans st') (fun hp => (fh hp).trans sf)⟩
  rw [checked_accepts ha hv (hm _ hv) body, hb _ hv]

/-- A command that only reads: the payload, and nothing else. -/
theorem read_done {op : Nat} {h : Hdr} {modes : List Mode} {mode : State → Nat} {body : State → Reply × State} {s : State}
    {st : Nat} {pay : List Fld} {eff : Option Stamp} {nx : Nat} (ha : Accepts op h modes s)
    (hm : ∀ v, Taken h.src s v → mode v = stOk) (hb : ∀ v, Taken h.src s v → body v = (.done st pay eff nx, v)) :
    MailOnly s (serve op h mode body s) ∧ Replied op h st pay eff nx s (serve op h mode body s) :=
  serve_done (f := id) ha hm hb (fun _ hv => hv.same)

/-- A command that writes registers: `f` moves none of the mailbox's own parts. -/
theorem serve_set {op : Nat} {h : Hdr} {modes : List Mode} {mode : State → Nat} {body : State → Reply × State} {s : State}
    {st : Nat} {pay : List Fld} {eff : Option Stamp} {nx : Nat} (f : State → State) (ha : Accepts op h modes s)
    (hm : ∀ v, Taken h.src s v → mode v = stOk) (hb : ∀ v, Taken h.src s v → body v = (.done st pay eff nx, f v))
    (hw : ∀ v, Taken h.src s v → withoutMail (f v) = withoutMail (f s))
    (hf : ∀ u, (f u).ctr = u.ctr ∧ (f u).outs = u.outs ∧ (f u).nose.rspProd = u.nose.rspProd
      ∧ (f u).nose.rspCons = u.nose.rspCons ∧ (f u).tb.t40 = u.tb.t40 ∧ (f u).fhp.ports = u.fhp.ports) :
    MailOnly (f s) (serve op h mode body s) ∧ Replied op h st pay eff nx s (serve op h mode body s) := by
  refine serve_done ha hm hb (fun v hv => ?_)
  obtain ⟨-, sp, sc, st', sf⟩ := hv.same
  obtain ⟨c1, c2, c3, c4, c5, c6⟩ := hf v
  obtain ⟨d1, d2, -⟩ := hf s
  refine ⟨⟨hw v hv, fun k hk => ?_, [], ?_, by simp⟩, c3.trans sp, c4.trans sc, c5.trans st', c6.trans sf⟩
  · rw [c1, d1]; exact hv.mail.2.1 k hk
  · rw [c2, d2, hv.outs]; rfl

/-- Steps 1 to 5 of R396 and the reserved fields: a command that fails a check is answered with that status and does
nothing. -/
theorem serve_fails {op : Nat} {h : Hdr} {mode : State → Nat} {body : State → Reply × State} {s : State} {st : Nat}
    (hn : isNext op h s = true) (hc : ∀ v, Taken h.src s v → checked op h (mode v) body v = fails st v) :
    MailOnly s (serve op h mode body s) ∧ Replied op h st [] none 0 s (serve op h mode body s) :=
  serve_answers (f := id) hn hc (fun _ hv => hv.same)

/-- A command that only begins a long-running command. -/
theorem serve_job {op : Nat} {h : Hdr} {modes : List Mode} {mode : State → Nat} {body : State → Reply × State} {s : State}
    (b : JobBody) (ha : Accepts op h modes s) (hm : ∀ v, Taken h.src s v → mode v = stOk)
    (hb : ∀ v, Taken h.src s v → body v = startJob op h b v) : MailOnly (jobBegun op h b s) (serve op h mode body s) := by
  refine serve_later (f := jobBegun op h b) ha hm hb (fun v hv => ?_)
  obtain ⟨c, o⟩ := hv.mail.2
  refine ⟨?_, c, o⟩
  obtain ⟨ar, cc, ke, la, ct, e⟩ := hv.form
  subst e; rfl

/-- A command whose effect waits for a boundary. -/
theorem serve_accept {op : Nat} {h : Hdr} {modes : List Mode} {mode : State → Nat} {body : State → Reply × State} {s : State}
    (w : When) (a : Act) (pay : List Fld) (g : State → State) (hw : w ≠ .now) (ha : Accepts op h modes s)
    (hm : ∀ v, Taken h.src s v → mode v = stOk) (hb : ∀ v, Taken h.src s v → body v = accept w a pay g v) :
    MailOnly (scheduled w a s) (serve op h mode body s) ∧ Replied op h stOk pay (effectStamp w s) 0 s (serve op h mode body s) := by
  refine serve_set (f := scheduled w a) ha hm (fun v hv => ?_) (fun v hv => ?_) (fun u => ⟨rfl, rfl, rfl, rfl, rfl, rfl⟩)
  · rw [hb v hv]
    have e : effectStamp w v = effectStamp w s := by
      obtain ⟨ar, cc, ke, la, ct, e⟩ := hv.form
      subst e; rfl
    rw [← e]
    unfold accept
    split
    · exact absurd rfl hw
    · rfl
  · obtain ⟨ar, cc, ke, la, ct, e⟩ := hv.form
    subst e; rfl

/-- A command of the pair. -/
theorem serve_pair {op : Nat} {h : Hdr} {modes : List Mode} {mode : State → Nat} {body : State → Reply × State} {s : State}
    (w : When) (a : Act) (pay : List Fld) (g : State → State) (hw : w ≠ .now) (ha : Accepts op h modes s)
    (hm : ∀ v, Taken h.src s v → mode v = stOk) (hb : ∀ v, Taken h.src s v → body v = acceptPair op h w a pay g v) :
    PairAccepted op h w a pay s (serve op h mode body s) := by
  have hmode : ∀ v, Taken h.src s v → v.nose.mode = s.nose.mode := by
    intro v hv
    obtain ⟨ar, cc, ke, la, ct, e⟩ := hv.form
    subst e; rfl
  unfold PairAccepted
  split
  · rename_i hl
    refine serve_later (f := toSillage op h w a pay) ha hm (fun v hv => ?_) (fun v hv => ?_)
    · rw [hb v hv]
      unfold acceptPair
      rw [if_pos (by rw [hmode v hv, hl]; rfl)]
      unfold toSillage sendTw
      dsimp only
      split
      · rfl
      · rfl
    · obtain ⟨c, l, ho, hr⟩ := hv.mail.2
      have ho' : v.outs = s.outs := hv.outs
      obtain ⟨ar, cc, ke, la, ct, e⟩ := hv.form
      subst e
      unfold toSillage
      dsimp only
      split
      · exact ⟨rfl, c, [], rfl, by simp⟩
      · exact ⟨rfl, c, [], rfl, by simp⟩
  · rename_i hl
    refine serve_accept w a pay g hw ha hm (fun v hv => ?_)
    rw [hb v hv]
    unfold acceptPair
    rw [if_neg (by rw [hmode v hv]; simpa using hl)]

end Sys2Proof.Machine
end

