-- ==== Sys2Proof/Laws/Events.lean ====
section
/-! SUPPORT. Raising an event changes nothing but the event ring, the counters of events and of frames sent, and the trace. -/

namespace Sys2Proof.Machine
open Sys2Proof

theorem EventsOnly.refl (s : State) : EventsOnly s s := ⟨rfl, fun _ _ => rfl, [], rfl, by simp⟩

theorem EventsOnly.trans {a b c : State} (h : EventsOnly a b) (k : EventsOnly b c) : EventsOnly a c := by
  obtain ⟨h1, h2, l, h3, h4⟩ := h
  obtain ⟨k1, k2, m, k3, k4⟩ := k
  refine ⟨k1.trans h1, fun i hi => (k2 i hi).trans (h2 i hi), m ++ l, by rw [k3, h3, List.append_assoc], fun o ho => ?_⟩
  rcases List.mem_append.1 ho with ho | ho
  · exact k4 o ho
  · exact h4 o ho

/-- A counter of the events rises. -/
theorem countBy_eventsOnly {code : Nat} (idx n : Nat) (s : State) (hc : code ∈ eventCounters) (hi : idx < 65536) :
    EventsOnly s (countBy code idx n s) := by
  refine ⟨rfl, fun k hk => ?_, [], rfl, by simp⟩
  unfold countBy
  refine get_put_ne _ _ _ ?_
  rintro rfl
  apply hk
  have : counterKey code idx / 65536 = code := by unfold counterKey; omega
  rwa [this]

/-- An event frame is handed to a port's MAC. -/
theorem sendEvt_eventsOnly {p : Nat} (hp : p < 65536) (m : Mac) (e : Event) (s : State) : EventsOnly s (sendEvt p m e s) := by
  unfold sendEvt macSend
  split
  · refine EventsOnly.trans (EventsOnly.trans (b := emit (.evtFrame p m e) s) ?_ (countBy_eventsOnly (code := 0x901) _ 1 _ (by decide) hp))
      (countBy_eventsOnly _ _ _ (by decide) hp)
    exact ⟨rfl, fun _ _ => rfl, [.evtFrame p m e], rfl, fun o ho => ⟨p, m, e, by simpa using ho⟩⟩
  · exact countBy_eventsOnly (code := 0x908) _ 1 _ (by decide) hp

theorem writeEvent_eventsOnly (code unit : Nat) (beat : Stamp) (payload : List Fld) (s : State) :
    EventsOnly s (writeEvent code unit beat payload s) := by
  unfold writeEvent
  dsimp only
  split
  · refine EventsOnly.trans ?_ (sendEvt_eventsOnly (by omega) _ _ _)
    exact ⟨rfl, fun _ _ => rfl, [], rfl, by simp⟩
  · exact ⟨rfl, fun _ _ => rfl, [], rfl, by simp⟩

/-- Raising an event changes only what belongs to events (R404). -/
theorem raiseAt_eventsOnly (code unit : Nat) (beat : Stamp) (payload : List Fld) (s : State) :
    EventsOnly s (raiseAt code unit beat payload s) := by
  unfold raiseAt
  extract_lets m f
  split
  · exact countBy_eventsOnly _ 1 _ (by decide) (by decide)
  · split
    · exact EventsOnly.trans (b := { s with nose := { s.nose with evtLost := s.nose.evtLost + 1 } })
        ⟨rfl, fun _ _ => rfl, [], rfl, by simp⟩ (countBy_eventsOnly _ 1 _ (by decide) (by decide))
    · exact writeEvent_eventsOnly _ _ _ _ _

theorem raiseEv_eventsOnly (code unit : Nat) (payload : List Fld) (s : State) : EventsOnly s (raiseEv code unit payload s) :=
  raiseAt_eventsOnly _ _ _ _ _

/-- Raising an event leaves every unit's own state as it was. -/
theorem EventsOnly.units {s t : State} (h : EventsOnly s t) :
    t.boot = s.boot ∧ t.bar0 = s.bar0 ∧ t.frm = s.frm ∧ t.tb = s.tb ∧ t.lnk = s.lnk ∧ t.efe = s.efe ∧ t.stu = s.stu ∧ t.sic = s.sic
      ∧ t.ae = s.ae ∧ t.sq = s.sq ∧ t.dd = s.dd ∧ t.fhp = s.fhp ∧ t.mem = s.mem ∧ t.twn = s.twn ∧ t.err = s.err ∧ t.tst = s.tst
      ∧ t.pins = s.pins ∧ t.fresh = s.fresh ∧ t.pending = s.pending := by
  have e := h.1
  exact ⟨congrArg (·.boot) e, congrArg (·.bar0) e, congrArg (·.frm) e, congrArg (·.tb) e, congrArg (·.lnk) e, congrArg (·.efe) e,
    congrArg (·.stu) e, congrArg (·.sic) e, congrArg (·.ae) e, congrArg (·.sq) e, congrArg (·.dd) e, congrArg (·.fhp) e,
    congrArg (·.mem) e, congrArg (·.twn) e, congrArg (·.err) e, congrArg (·.tst) e, congrArg (·.pins) e, congrArg (·.fresh) e,
    congrArg (·.pending) e⟩

/-- Raising an event leaves a counter that does not belong to events. -/
theorem EventsOnly.counter {s t : State} (h : EventsOnly s t) {code idx : Nat} (hc : code ∉ eventCounters) (hi : idx < 65536) :
    counterGet t code idx = counterGet s code idx := by
  refine h.2.1 _ ?_
  have : counterKey code idx / 65536 = code := by unfold counterKey; omega
  rwa [this]

end Sys2Proof.Machine
end

