-- ==== Sys2Proof/Laws/KeepBase.lean ====
section
/-! SUPPORT. The laws of the canonical form of a memory, and `Keeps`: what every operation of the block keeps, with
its rules for the shapes operations are written in and the operations that write a field it looks at. -/

namespace Sys2Proof.Machine

/-! Memories in canonical form -/

theorem sorted_cons {α : Type} {a : Nat} {x : α} {t : FMap α} :
    FMap.sorted ((a, x) :: t) = true ↔ (∀ p ∈ t, a < p.1) ∧ FMap.sorted t = true := by
  induction t generalizing a x with
  | nil => simp [FMap.sorted]
  | cons h t ih =>
    obtain ⟨b, y⟩ := h
    rw [FMap.sorted]
    simp only [Bool.and_eq_true, decide_eq_true_eq, List.mem_cons]
    constructor
    · rintro ⟨hab, hs⟩
      refine ⟨?_, hs⟩
      rintro p (rfl | hp)
      · exact hab
      · exact Nat.lt_trans hab ((ih.mp hs).1 p hp)
    · rintro ⟨hall, hs⟩
      exact ⟨hall _ (Or.inl rfl), hs⟩

theorem mem_set {α : Type} {m : FMap α} {k : Nat} {v : α} {p : Nat × α} (h : p ∈ FMap.set m k v) :
    p = (k, v) ∨ p ∈ m := by
  induction m with
  | nil => simp [FMap.set] at h; exact Or.inl h
  | cons q t ih =>
    obtain ⟨a, x⟩ := q
    rw [FMap.set] at h
    split at h
    · simp only [List.mem_cons] at h ⊢; tauto
    · split at h
      · simp only [List.mem_cons] at h ⊢; tauto
      · simp only [List.mem_cons] at h ⊢
        rcases h with h | h
        · tauto
        · rcases ih h with h | h <;> tauto

theorem set_sorted {α : Type} {m : FMap α} (k : Nat) (v : α) (h : FMap.sorted m = true) :
    FMap.sorted (FMap.set m k v) = true := by
  induction m with
  | nil => rfl
  | cons q t ih =>
    obtain ⟨a, x⟩ := q
    rw [sorted_cons] at h
    rw [FMap.set]
    split
    · rename_i hk
      rw [sorted_cons, sorted_cons]
      refine ⟨?_, h⟩
      intro p hp
      simp only [List.mem_cons] at hp
      rcases hp with rfl | hp
      · exact hk
      · exact Nat.lt_trans hk (h.1 p hp)
    · split
      · rename_i hk ha
        subst ha
        exact sorted_cons.mpr ⟨h.1, h.2⟩
      · rename_i hk ha
        refine sorted_cons.mpr ⟨?_, ih h.2⟩
        intro p hp
        rcases mem_set hp with rfl | hp
        · show a < k
          omega
        · exact h.1 p hp

theorem filter_sorted {α : Type} {m : FMap α} (f : Nat × α → Bool) (h : FMap.sorted m = true) :
    FMap.sorted (m.filter f) = true := by
  induction m with
  | nil => rfl
  | cons q t ih =>
    obtain ⟨a, x⟩ := q
    rw [sorted_cons] at h
    rw [List.filter_cons]
    split
    · exact sorted_cons.mpr ⟨fun p hp => h.1 p (List.mem_filter.mp hp).1, ih h.2⟩
    · exact ih h.2

theorem filter_wf {α : Type} [DecidableEq α] {d : α} {m : FMap α} (f : Nat × α → Bool) (h : FMap.wf d m = true) :
    FMap.wf d (m.filter f) = true := by
  simp only [FMap.wf, Bool.and_eq_true, List.all_eq_true] at h ⊢
  exact ⟨filter_sorted f h.1, fun p hp => h.2 p (List.mem_filter.mp hp).1⟩

theorem put_wf {α : Type} [DecidableEq α] {d : α} {m : FMap α} (k : Nat) (v : α) (h : FMap.wf d m = true) :
    FMap.wf d (FMap.put d m k v) = true := by
  unfold FMap.put
  split
  · exact filter_wf _ h
  · rename_i hv
    simp only [FMap.wf, Bool.and_eq_true, List.all_eq_true] at h ⊢
    refine ⟨set_sorted k v h.1, fun p hp => ?_⟩
    rcases mem_set hp with rfl | hp
    · simp [hv]
    · exact h.2 p hp

theorem mem_put {α : Type} [DecidableEq α] {d : α} {m : FMap α} {k : Nat} {v : α} {p : Nat × α}
    (h : p ∈ FMap.put d m k v) : p = (k, v) ∨ p ∈ m := by
  unfold FMap.put at h
  split at h
  · exact Or.inr (List.mem_filter.mp h).1
  · exact mem_set h

theorem wrBytes_wf {m : FMap Byte} (a : Nat) (b : List Byte) (h : FMap.wf 0 m = true) :
    FMap.wf 0 (wrBytes m a b) = true := by
  induction b generalizing m a with
  | nil => exact h
  | cons x t ih => exact ih _ (put_wf a x h)

theorem hbmStore_sorted {m : FMap Byte} (a : Nat) (b : List Byte) (h : FMap.sorted m = true) :
    FMap.sorted (hbmStore m a b) = true := by
  induction b generalizing m a with
  | nil => exact h
  | cons x t ih => exact ih _ (set_sorted a x h)

/-! What every operation keeps -/

/-- What an operation that starts in `s0` and has reached `s` keeps: the queue, the trace's past, the count of free
values read, the fuse bits and the canonical form. -/
structure Keeps (s0 s : State) : Prop where
  pending : s.pending = s0.pending
  outs : s0.outs <:+ s.outs
  fresh : s0.fresh ≤ s.fresh
  fuses : FuseLe s0.boot.fuses s.boot.fuses
  canon : Canon s0 → Canon s

theorem FuseLe.rfl' (f : Fuses) : FuseLe f f := by simp [FuseLe]
theorem FuseLe.trans {f g h : Fuses} (a : FuseLe f g) (b : FuseLe g h) : FuseLe f h := by
  obtain ⟨a0, a1, a2, a3, a4, a5⟩ := a
  obtain ⟨b0, b1, b2, b3, b4, b5⟩ := b
  refine ⟨a0.trans b0, ?_, ?_, ?_, ?_, ?_⟩
  · rw [← a1, BitVec.and_assoc, b1]
  · rw [← a2, BitVec.and_assoc, b2]
  · rw [← a3, BitVec.and_assoc, b3]
  · rw [← a4, BitVec.and_assoc, b4]
  · rw [← a5, BitVec.and_assoc, b5]

theorem Keeps.refl (s : State) : Keeps s s := ⟨rfl, List.suffix_refl _, Nat.le_refl _, FuseLe.rfl' _, id⟩
theorem Keeps.trans {a b c : State} (h : Keeps a b) (k : Keeps b c) : Keeps a c :=
  ⟨k.pending.trans h.pending, h.outs.trans k.outs, Nat.le_trans h.fresh k.fresh, h.fuses.trans k.fuses,
    fun x => k.canon (h.canon x)⟩

/-- an update that touches none of the tracked fields -/
theorem Keeps.upd {s0 s t : State} (h : Keeps s0 s) (e0 : t.pending = s.pending) (e1 : t.outs = s.outs) (e2 : t.fresh = s.fresh)
    (e3 : t.boot.fuses = s.boot.fuses) (e4 : t.mem.res = s.mem.res) (e5 : t.mem.fe = s.mem.fe) (e6 : t.mem.cf = s.mem.cf)
    (e7 : t.mem.hbm = s.mem.hbm) (e8 : t.ctr = s.ctr) (e9 : t.nose.evtProd = s.nose.evtProd)
    (e10 : t.nose.evtCons = s.nose.evtCons) (e11 : t.err.log = s.err.log) (e12 : t.boot.records = s.boot.records) :
    Keeps s0 t := by
  refine ⟨e0 ▸ h.pending, e1 ▸ h.outs, e2 ▸ h.fresh, e3 ▸ h.fuses, fun c => ?_⟩
  have k := h.canon c
  exact ⟨e4 ▸ k.res, e5 ▸ k.fe, e6 ▸ k.cf, e7 ▸ k.hbm, e8 ▸ k.ctrWf, e8 ▸ k.ctrMax, by
    have := k.evt; unfold evtHeld at this ⊢; rw [e9, e10]; exact this, e11 ▸ k.log, e12 ▸ k.records⟩

/-- What the invariant looks at. -/
@[reducible] def tracked (pe : List Instr) (o : List Out) (fr : Nat) (c : FMap Nat) (bo : BootSt) (m : MemSt) (no : NoseSt) (er : ErrSt) :=
  (pe, o, fr, c, bo.fuses, m.res, m.fe, m.cf, m.hbm, no.evtProd, no.evtCons, er.log, bo.records)

theorem Keeps.mk' {s0 s : State} {no bo b0 f tb l e st si ae sq dd fh m tw er ts pi c o fr pe}
    (h : Keeps s0 s) (e0 : tracked pe o fr c bo m no er = tracked s.pending s.outs s.fresh s.ctr s.boot s.mem s.nose s.err) :
    Keeps s0 (State.mk no bo b0 f tb l e st si ae sq dd fh m tw er ts pi c o fr pe) := by
  simp only [tracked, Prod.mk.injEq] at e0
  obtain ⟨e0, e1, e2, e8, e3, e4, e5, e6, e7, e9, e10, e11, e12⟩ := e0
  exact Keeps.upd h e0 e1 e2 e3 e4 e5 e6 e7 e8 e9 e10 e11 e12

theorem keeps_ite {s0 : State} {c : Prop} [Decidable c] {a b : State} (h1 : Keeps s0 a) (h2 : Keeps s0 b) :
    Keeps s0 (if c then a else b) := by split <;> assumption

theorem keeps_ite2 {α : Type} {s0 : State} {c : Prop} [Decidable c] {a b : α × State} (h1 : Keeps s0 a.2) (h2 : Keeps s0 b.2) :
    Keeps s0 (if c then a else b).2 := by split <;> assumption
theorem keeps_ite1 {α : Type} {s0 : State} {c : Prop} [Decidable c] {a b : State × α} (h1 : Keeps s0 a.1) (h2 : Keeps s0 b.1) :
    Keeps s0 (if c then a else b).1 := by split <;> assumption
theorem keeps_ite3 {α β : Type} {s0 : State} {c : Prop} [Decidable c] {a b : α × β × State} (h1 : Keeps s0 a.2.2) (h2 : Keeps s0 b.2.2) :
    Keeps s0 (if c then a else b).2.2 := by split <;> assumption

theorem foldl_keeps {α : Type} {s0 : State} {l : List α} {f : State → α → State} {s : State}
    (hf : ∀ s x, Keeps s0 s → Keeps s0 (f s x)) (h : Keeps s0 s) : Keeps s0 (l.foldl f s) := by
  induction l generalizing s with
  | nil => exact h
  | cons x t ih => exact ih (hf s x h)

theorem foldl_keeps2 {α β : Type} {s0 : State} {l : List α} {f : β × State → α → β × State} {p : β × State}
    (hf : ∀ p x, Keeps s0 p.2 → Keeps s0 (f p x).2) (h : Keeps s0 p.2) : Keeps s0 (l.foldl f p).2 := by
  induction l generalizing p with
  | nil => exact h
  | cons x t ih => exact ih (hf p x h)

theorem repeat_keeps {s0 : State} {n : Nat} {f : State → State} {s : State}
    (hf : ∀ s, Keeps s0 s → Keeps s0 (f s)) (h : Keeps s0 s) : Keeps s0 (n.repeat f s) := by
  induction n with
  | zero => exact h
  | succ n ih => exact hf _ ih

theorem elim_keeps {α : Type} {s0 : State} {o : Option α} {d : State} {f : α → State}
    (h1 : Keeps s0 d) (h2 : ∀ x, Keeps s0 (f x)) : Keeps s0 (o.elim d f) := by
  cases o
  · exact h1
  · exact h2 _

/-! The operations that write tracked fields -/
section
variable {s0 s : State} (h : Keeps s0 s)
include h

theorem emit_keeps (o : Out) : Keeps s0 (emit o s) :=
  ⟨h.pending, h.outs.trans (List.suffix_cons _ _), h.fresh, h.fuses, fun c => ⟨(h.canon c).res, (h.canon c).fe, (h.canon c).cf,
    (h.canon c).hbm, (h.canon c).ctrWf, (h.canon c).ctrMax, (h.canon c).evt, (h.canon c).log, (h.canon c).records⟩⟩

theorem mem_keeps {m : MemSt} (e1 : FMap.wf 0 s.mem.res = true → FMap.wf 0 m.res = true)
    (e2 : FMap.wf 0 s.mem.fe = true → FMap.wf 0 m.fe = true) (e3 : FMap.wf 0 s.mem.cf = true → FMap.wf 0 m.cf = true)
    (e4 : FMap.sorted s.mem.hbm = true → FMap.sorted m.hbm = true) : Keeps s0 { s with mem := m } :=
  ⟨h.pending, h.outs, h.fresh, h.fuses, fun c => ⟨e1 (h.canon c).res, e2 (h.canon c).fe, e3 (h.canon c).cf,
    e4 (h.canon c).hbm, (h.canon c).ctrWf, (h.canon c).ctrMax, (h.canon c).evt, (h.canon c).log, (h.canon c).records⟩⟩

theorem nose_keeps {n : NoseSt} (e : evtHeld s ≤ 8192 → (n.evtProd - n.evtCons).toNat ≤ 8192) :
    Keeps s0 { s with nose := n } :=
  ⟨h.pending, h.outs, h.fresh, h.fuses, fun c => ⟨(h.canon c).res, (h.canon c).fe, (h.canon c).cf,
    (h.canon c).hbm, (h.canon c).ctrWf, (h.canon c).ctrMax, e (h.canon c).evt, (h.canon c).log, (h.canon c).records⟩⟩

theorem nose_keepsC {n : NoseSt} (e : Canon s0 → evtHeld s ≤ 8192 → (n.evtProd - n.evtCons).toNat ≤ 8192) :
    Keeps s0 { s with nose := n } :=
  ⟨h.pending, h.outs, h.fresh, h.fuses, fun c => ⟨(h.canon c).res, (h.canon c).fe, (h.canon c).cf,
    (h.canon c).hbm, (h.canon c).ctrWf, (h.canon c).ctrMax, e c (h.canon c).evt, (h.canon c).log, (h.canon c).records⟩⟩

theorem err_keeps {e : ErrSt} (l : s.err.log.length ≤ 1024 → e.log.length ≤ 1024) : Keeps s0 { s with err := e } :=
  ⟨h.pending, h.outs, h.fresh, h.fuses, fun c => ⟨(h.canon c).res, (h.canon c).fe, (h.canon c).cf,
    (h.canon c).hbm, (h.canon c).ctrWf, (h.canon c).ctrMax, (h.canon c).evt, l (h.canon c).log, (h.canon c).records⟩⟩

theorem boot_keeps {b : BootSt} (e : FuseLe s.boot.fuses b.fuses) (l : s.boot.records.length ≤ 4 → b.records.length ≤ 4) :
    Keeps s0 { s with boot := b } :=
  ⟨h.pending, h.outs, h.fresh, h.fuses.trans e, fun c => ⟨(h.canon c).res, (h.canon c).fe, (h.canon c).cf,
    (h.canon c).hbm, (h.canon c).ctrWf, (h.canon c).ctrMax, (h.canon c).evt, (h.canon c).log, l (h.canon c).records⟩⟩

theorem fresh_keeps : Keeps s0 { s with fresh := s.fresh + 1 } :=
  ⟨h.pending, h.outs, Nat.le_succ_of_le h.fresh, h.fuses, fun c => ⟨(h.canon c).res, (h.canon c).fe, (h.canon c).cf,
    (h.canon c).hbm, (h.canon c).ctrWf, (h.canon c).ctrMax, (h.canon c).evt, (h.canon c).log, (h.canon c).records⟩⟩

theorem ctr_keeps {m : FMap Nat} (e1 : FMap.wf 0 s.ctr = true → FMap.wf 0 m = true)
    (e2 : (∀ p ∈ s.ctr, p.2 < 2 ^ 48) → ∀ p ∈ m, p.2 < 2 ^ 48) : Keeps s0 { s with ctr := m } :=
  ⟨h.pending, h.outs, h.fresh, h.fuses, fun c => ⟨(h.canon c).res, (h.canon c).fe, (h.canon c).cf,
    (h.canon c).hbm, e1 (h.canon c).ctrWf, e2 (h.canon c).ctrMax, (h.canon c).evt, (h.canon c).log, (h.canon c).records⟩⟩

omit h in
theorem counterWidth_le (code : Nat) : counterWidth code ≤ 48 := by
  have hall : ∀ e ∈ counterTable, e.2.1 ≤ 48 := by simp [counterTable]
  unfold counterWidth counterInfo
  cases hf : counterTable.find? (fun e => e.1 == code) with
  | none => simp
  | some e => simpa using hall e (List.mem_of_find?_eq_some hf)

theorem countBy_keeps (code idx n : Nat) : Keeps s0 (countBy code idx n s) := by
  refine ctr_keeps h (put_wf _ _) (fun k p hp => ?_)
  rcases mem_put hp with rfl | hp
  · have h1 : 2 ^ counterWidth code ≤ 2 ^ 48 := Nat.pow_le_pow_right (by decide) (counterWidth_le code)
    have h2 : 0 < 2 ^ counterWidth code := Nat.two_pow_pos _
    show Nat.min _ _ < 2 ^ 48
    refine Nat.lt_of_le_of_lt (Nat.min_le_right _ _) ?_
    omega
  · exact k p hp

theorem counterClear1_keeps (code idx : Nat) : Keeps s0 (counterClear1 code idx s) := by
  refine ctr_keeps h (put_wf _ _) (fun k p hp => ?_)
  rcases mem_put hp with rfl | hp
  · exact Nat.two_pow_pos _
  · exact k p hp

theorem freeVal_keeps (kind : Nat) : Keeps s0 (freeVal kind s).2 := fresh_keeps h

theorem feWrite_keeps (a : Nat) (b : List Byte) : Keeps s0 (feWrite a b s) :=
  mem_keeps h id (wrBytes_wf a b) id id
theorem cfWrite_keeps (a : Nat) (b : List Byte) : Keeps s0 (cfWrite a b s) :=
  mem_keeps h id id (wrBytes_wf a b) id
theorem hbmWrite_keeps (a : Nat) (b : List Byte) : Keeps s0 (hbmWrite a b s) :=
  mem_keeps h id id id (hbmStore_sorted a b)
theorem hbmUndefine_keeps (a n : Nat) : Keeps s0 (hbmUndefine a n s) :=
  mem_keeps h id id id (filter_sorted _)
theorem resTaint_keeps (a n : Nat) (t : Bool) : Keeps s0 (resTaint a n t s) := by
  unfold resTaint; split
  · exact h
  · exact h.upd rfl rfl rfl rfl rfl rfl rfl rfl rfl rfl rfl rfl rfl
theorem resWrite_keeps (a : Nat) (b : List Byte) : Keeps s0 (resWrite a b s) :=
  resTaint_keeps (mem_keeps h (m := { s.mem with res := wrBytes s.mem.res a b }) (wrBytes_wf a b) id id id) _ _ _
end

end Sys2Proof.Machine
end

