-- ==== Sys2Proof/Laws/KeepCore.lean ====
section
/-! SUPPORT. The shared operations: registers, rings, responses, errors, the Nose and its windows: each operation keeps what `Keeps` says (`f_keeps` is the lemma of `f`). -/

namespace Sys2Proof.Machine

theorem count_keeps {s0 : State} (code : Nat) (idx : Nat) {s : State} (hk : Keeps s0 s) : Keeps s0
    (count code idx s) := by
  unfold count
  apply countBy_keeps; exact hk

theorem macSend_keeps {s0 : State} (p : Nat) (len : Nat) (o : Out) {s : State} (hk : Keeps s0 s) : Keeps s0
    (macSend p len o s) := by
  unfold macSend
  refine keeps_ite ?_ ?_
  · apply countBy_keeps; apply count_keeps; apply emit_keeps; exact hk
  · apply count_keeps; exact hk

theorem sendEvt_keeps {s0 : State} (p : Nat) (m : Mac) (e : Event) {s : State} (hk : Keeps s0 s) : Keeps s0
    (sendEvt p m e s) := by
  unfold sendEvt
  apply macSend_keeps; exact hk

theorem writeEvent_keeps {s0 : State} (code unit : Nat) (beat : Stamp) (payload : List Fld) {s : State} (hk
    : Keeps s0 s) (hr : Canon s0 → ∀ i, s.nose.lease = some (i, .pcie) → evtHeld s ≠ 8192) : Keeps s0
    (writeEvent code unit beat payload s) := by
  have k1 : evtHeld s ≤ 8192 → evtHeld s ≠ 8192 → (s.nose.evtProd + 1#16 - s.nose.evtCons).toNat ≤ 8192 := by
    unfold evtHeld; intro a b
    rw [BitVec.toNat_sub] at a b ⊢
    rw [BitVec.toNat_add]
    have : (1#16 : BitVec 16).toNat = 1 := rfl
    have := s.nose.evtProd.isLt
    have := s.nose.evtCons.isLt
    omega
  have k2 : evtHeld s ≤ 8192 → (s.nose.evtProd + 1#16 - (s.nose.evtCons + 1#16)).toNat ≤ 8192 := by
    unfold evtHeld; intro a
    rw [BitVec.toNat_sub] at a ⊢
    rw [BitVec.toNat_add, BitVec.toNat_add]
    have : (1#16 : BitVec 16).toNat = 1 := rfl
    have := s.nose.evtProd.isLt
    have := s.nose.evtCons.isLt
    omega
  unfold writeEvent
  cases hl : s.nose.lease with
  | none =>
    simp only [hl]
    refine nose_keepsC hk (fun ca a => ?_)
    dsimp only
    split
    · exact k2 a
    · rename_i hh; exact k1 a (by simpa using hh)
  | some p =>
    obtain ⟨i, src⟩ := p
    cases src with
    | pcie =>
      simp only [hl]
      refine nose_keepsC hk (fun ca a => ?_)
      dsimp only
      exact k1 a (hr ca _ hl)
    | inband p m v =>
      simp only [hl]
      refine sendEvt_keeps _ _ _ ?_
      refine nose_keepsC hk (fun ca a => ?_)
      dsimp only
      split
      · exact k2 a
      · rename_i hh; exact k1 a (by simpa using hh)

theorem raiseAt_keeps {s0 : State} (code unit : Nat) (beat : Stamp) (payload : List Fld) {s : State} (hk
    : Keeps s0 s) : Keeps s0 (raiseAt code unit beat payload s) := by
  unfold raiseAt
  extract_lets m full
  split
  · exact countBy_keeps hk _ _ _
  · split
    · refine countBy_keeps (nose_keeps hk (n := { s.nose with evtLost := s.nose.evtLost + 1 }) id) _ _ _
    · rename_i hf
      refine writeEvent_keeps _ _ _ _ hk (fun _ i hp hh => hf ?_)
      simp only [full, hp, hh]; rfl

theorem raiseEv_keeps {s0 : State} (code : Nat) (unit : Nat) (payload : List Fld) {s : State} (hk : Keeps s0 s)
    : Keeps s0 (raiseEv code unit payload s) := by
  unfold raiseEv
  apply raiseAt_keeps; exact hk

theorem sendTw_keeps {s0 : State} (flags : Nat) (body : TwBody) {s : State} (hk : Keeps s0 s) : Keeps s0
    (sendTw flags body s) := by
  unfold sendTw
  refine keeps_ite ?_ ?_
  · apply emit_keeps; exact Keeps.mk' hk rfl
  · exact hk

theorem logVerdict_keeps {s0 : State} (v : Verdict) {s : State} (hk : Keeps s0 s) : Keeps s0 (logVerdict v s) := by
  unfold logVerdict
  extract_lets l0 l1 l2 l3 l4; clear_value l0 l1 l2 l3 l4
  refine keeps_ite ?_ ?_
  · exact Keeps.mk' hk rfl
  · apply count_keeps; exact Keeps.mk' hk rfl

theorem sendTwLead_keeps {s0 : State} (flags : Nat) (body : TwBody) {s : State} (hk : Keeps s0 s) : Keeps s0
    (sendTwLead flags body s) := by
  unfold sendTwLead
  refine keeps_ite ?_ ?_
  · apply sendTw_keeps; exact hk
  · exact hk

theorem makeVerdict_keeps {s0 : State} (cls : Nat) (unit : Nat) (beat : Stamp) (payload : Nat) {s : State} (hk
    : Keeps s0 s) : Keeps s0 (makeVerdict cls unit beat payload s) := by
  unfold makeVerdict
  extract_lets l0 l1 l2 l3 l4; clear_value l0 l1 l2 l3
  have hl4 : Keeps s0 l4 := by
    unfold l4; apply logVerdict_keeps; exact Keeps.mk' hk rfl
  clear_value l4
  refine keeps_ite ?_ ?_
  · exact Keeps.mk' hk rfl
  · refine keeps_ite ?_ ?_
    · apply sendTwLead_keeps; exact hl4
    · exact hl4

theorem sendRsp_keeps {s0 : State} (p : Nat) (r : Response) {s : State} (hk : Keeps s0 s) : Keeps s0
    (sendRsp p r s) := by
  unfold sendRsp
  apply macSend_keeps; exact hk

theorem passCycles_keeps {s0 : State} (n : Nat) {s : State} (hk : Keeps s0 s) : Keeps s0 (passCycles n s) := by
  unfold passCycles
  exact Keeps.mk' hk rfl

theorem advanceTo_keeps {s0 : State} (off : Nat) {s : State} (hk : Keeps s0 s) : Keeps s0 (advanceTo off s) := by
  unfold advanceTo
  refine keeps_ite ?_ ?_
  · apply passCycles_keeps; exact hk
  · exact hk

theorem portSet_keeps {s0 : State} (p : Nat) (v : PortSt) {s : State} (hk : Keeps s0 s) : Keeps s0
    (portSet p v s) := by
  unfold portSet
  exact Keeps.mk' hk rfl

theorem advanceToTime_keeps {s0 : State} (t40 : Int) {s : State} (hk : Keeps s0 s) : Keeps s0
    (advanceToTime t40 s) := by
  unfold advanceToTime
  refine keeps_ite ?_ ?_
  · apply passCycles_keeps; exact hk
  · exact hk

theorem reportLost_keeps {s0 : State} {s : State} (hk : Keeps s0 s) (hr : Canon s0 → ∀ i, s.nose.lease = some
    (i, .pcie) → evtHeld s ≠ 8192) : Keeps s0 (reportLost s) := by
  unfold reportLost
  dsimp only
  split
  · exact hk
  · exact writeEvent_keeps _ _ _ _ (hk.upd rfl rfl rfl rfl rfl rfl rfl rfl rfl rfl rfl rfl rfl) hr

theorem markSubst_keeps {s0 : State} (u : Nat) (i : Nat) {s : State} (hk : Keeps s0 s) : Keeps s0
    (markSubst u i s) := by
  unfold markSubst
  refine keeps_ite ?_ ?_
  · exact hk
  · exact Keeps.mk' hk rfl

theorem idleCycle_keeps {s0 : State} {s : State} (hk : Keeps s0 s) : Keeps s0 (idleCycle s) := by
  unfold idleCycle
  refine keeps_ite ?_ ?_
  · apply passCycles_keeps; exact hk
  · exact hk

theorem beginHandover_keeps {s0 : State} (planned : BitVec 8) {s : State} (hk : Keeps s0 s) : Keeps s0
    (beginHandover planned s) := by
  unfold beginHandover
  split
  · exact hk
  · extract_lets l0 l1 l2; clear_value l0 l1 l2; apply sendTw_keeps; exact Keeps.mk' hk rfl

theorem enterSlot_keeps {s0 : State} (k : Nat) (r : ErrRec) {s : State} (hk : Keeps s0 s) : Keeps s0
    (enterSlot k r s) := by
  unfold enterSlot
  extract_lets l0 l1 l2 l3; clear_value l0 l1
  have hl3 : Keeps s0 l3 := by
    unfold l3; exact Keeps.mk' hk rfl
  clear_value l3
  refine keeps_ite ?_ ?_
  · apply beginHandover_keeps; exact hl3
  · exact hl3

theorem joinQueue_keeps {s0 : State} (k : Nat) (r : ErrRec) {s : State} (hk : Keeps s0 s) : Keeps s0
    (joinQueue k r s) := by
  unfold joinQueue
  extract_lets l0 l1 l2 l3; clear_value l0 l2 l3
  refine keeps_ite ?_ ?_
  · exact Keeps.mk' hk rfl
  · apply count_keeps; exact Keeps.mk' hk rfl

theorem acceptRecord_keeps {s0 : State} (k : Nat) (r : ErrRec) {s : State} (hk : Keeps s0 s) : Keeps s0
    (acceptRecord k r s) := by
  unfold acceptRecord
  split
  · apply enterSlot_keeps; exact hk
  · refine keeps_ite ?_ ?_
    · apply enterSlot_keeps; apply joinQueue_keeps; exact Keeps.mk' hk rfl
    · apply joinQueue_keeps; exact hk

theorem updateSummary_keeps {s0 : State} {s : State} (hk : Keeps s0 s) : Keeps s0 (updateSummary s) := by
  unfold updateSummary
  extract_lets l0 l1 l2 l3 l4 l5 l6; clear_value l0 l1 l2 l3 l4 l5 l6; exact Keeps.mk' hk rfl

theorem logRecord_keeps {s0 : State} (k : Nat) (r : ErrRec) {s : State} (hk : Keeps s0 s) : Keeps s0
    (logRecord k r s) := by
  unfold logRecord
  extract_lets r1 log1 log2 q b1 e1 s1 s2 e2 s3
  have hl : log2.length ≤ 1024 := by
    simp only [log2, List.length_drop]; omega
  clear_value log2
  have h1 : Keeps s0 s1 := ⟨hk.pending, hk.outs, hk.fresh, hk.fuses, fun c => ⟨(hk.canon c).res, (hk.canon c).fe,
      (hk.canon c).cf, (hk.canon c).hbm, (hk.canon c).ctrWf, (hk.canon c).ctrMax, (hk.canon c).evt, (by
        have e : s1.err.log = log2 := rfl
        rw [e]; exact hl), (hk.canon c).records⟩⟩
  have h2 : Keeps s0 s2 := raiseEv_keeps _ _ _ h1
  refine updateSummary_keeps ?_
  show Keeps s0 (match bestPending q with
    | some n => enterSlot k n _
    | none => s2)
  split
  · exact enterSlot_keeps _ _ (h2.upd rfl rfl rfl rfl rfl rfl rfl rfl rfl rfl rfl rfl rfl)
  · exact h2

theorem recordDetection_keeps {s0 : State} (code : Nat) (unit : Nat) (inst : Nat) (sev : Nat) (detail
    : BitVec 256) {s : State} (hk : Keeps s0 s) : Keeps s0 (recordDetection code unit inst sev detail s) := by
  unfold recordDetection
  extract_lets l0 l1 l2 l3 l4 l5 l6 l7; clear_value l0 l1 l2 l3 l4 l6
  have hl7 : Keeps s0 l7 := by
    unfold l7; apply acceptRecord_keeps; exact Keeps.mk' hk rfl
  clear_value l7
  refine keeps_ite ?_ ?_
  · exact Keeps.mk' hk rfl
  · refine keeps_ite ?_ ?_
    · split
      · refine keeps_ite ?_ ?_
        · apply logRecord_keeps; exact hl7
        · exact hl7
      · exact hl7
    · exact hl7

theorem raiseErr_keeps {s0 : State} (code : Nat) (unit : Nat) (inst : Nat) (sev : Nat) (detail : BitVec 256) {s
    : State} (hk : Keeps s0 s) : Keeps s0 (raiseErr code unit inst sev detail s) := by
  unfold raiseErr
  extract_lets l0 l1 l2 l3 l4 l5 l6 l7
  have hl0 : Keeps s0 l0 := by
    unfold l0; apply recordDetection_keeps; exact hk
  clear_value l0 l1 l2 l3 l4 l5 l6
  refine keeps_ite ?_ ?_
  · exact hl0
  · refine keeps_ite ?_ ?_
    · apply recordDetection_keeps; exact Keeps.mk' hl0 rfl
    · exact Keeps.mk' hl0 rfl

theorem releaseFences_keeps {s0 : State} {s : State} (hk : Keeps s0 s) : Keeps s0 (releaseFences s) := by
  unfold releaseFences
  with_reducible refine foldl_keeps ?_ ?_
  · intro v0 v1 v2; apply raiseEv_keeps; exact v2
  · exact Keeps.mk' hk rfl

theorem goUnfit_keeps {s0 : State} (cause : Nat) {s : State} (hk : Keeps s0 s) : Keeps s0 (goUnfit cause s) := by
  unfold goUnfit
  refine keeps_ite ?_ ?_
  · exact hk
  · apply raiseEv_keeps; exact Keeps.mk' hk rfl

theorem applyFence_keeps {s0 : State} (k : Nat) {s : State} (hk : Keeps s0 s) : Keeps s0 (applyFence k s) := by
  unfold applyFence
  refine keeps_ite ?_ ?_
  · exact hk
  · apply raiseEv_keeps; apply count_keeps; exact Keeps.mk' hk rfl

theorem fencesAtBoundary_keeps {s0 : State} {s : State} (hk : Keeps s0 s) : Keeps s0 (fencesAtBoundary s) := by
  unfold fencesAtBoundary
  with_reducible refine foldl_keeps ?_ ?_
  · intro v0 v1 v2; extract_lets l3 l4 l5 l6 l7 l8; clear_value l3 l4 l5
    have hl6 : Keeps s0 l6 := by
      unfold l6; apply applyFence_keeps; exact v2
    clear_value l6
    have hl8 : Keeps s0 l8 := by
      unfold l8
      with_reducible refine foldl_keeps ?_ ?_
      · intro v9 v10 v11; apply applyFence_keeps; exact v11
      · exact v2
    clear_value l8
    refine keeps_ite ?_ ?_
    · exact Keeps.mk' hl6 rfl
    · refine keeps_ite ?_ ?_
      · apply logRecord_keeps; exact hl8
      · exact v2
  · exact hk

theorem endHandling_keeps {s0 : State} {s : State} (hk : Keeps s0 s) : Keeps s0 (endHandling s) := by
  unfold endHandling
  with_reducible refine foldl_keeps ?_ ?_
  · intro v0 v1 v2
    refine keeps_ite ?_ ?_
    · apply logRecord_keeps; exact v2
    · exact v2
  · exact hk

theorem dropRecords_keeps {s0 : State} {s : State} (hk : Keeps s0 s) : Keeps s0 (dropRecords s) := by
  unfold dropRecords
  extract_lets l0 l1; clear_value l0; apply countBy_keeps; exact Keeps.mk' hk rfl

theorem freeWindow_keeps {s0 : State} (c : Nat) (lin : Nat) (b : Stamp) {s : State} (hk : Keeps s0 s) : Keeps s0
    (freeWindow c lin b s) := by
  unfold freeWindow
  exact Keeps.mk' hk rfl

theorem keepControl_keeps {s0 : State} (c : Nat) (lin : Nat) (l : List CtlEntry) {s : State} (hk : Keeps s0 s)
    : Keeps s0 (keepControl c lin l s) := by
  unfold keepControl
  exact Keeps.mk' hk rfl

theorem closeVerdicts_keeps {s0 : State} (c : Nat) (b : Stamp) (items : List Item) (admitted : Nat) (missing
    : Nat) {s : State} (hk : Keeps s0 s) : Keeps s0 (closeVerdicts c b items admitted missing s) := by
  unfold closeVerdicts
  extract_lets l0
  have hl0 : Keeps s0 l0 := by
    unfold l0
    with_reducible refine foldl_keeps ?_ ?_
    · intro v1 v2 v3; apply makeVerdict_keeps; exact v3
    · exact hk
  clear_value l0; apply makeVerdict_keeps; exact hl0

theorem writeDlRecord_keeps {s0 : State} (c : Nat) (lin : Nat) (blocks : List (Nat × Nat × FBlock)) {s : State}
    (hk : Keeps s0 s) : Keeps s0 (writeDlRecord c lin blocks s) := by
  unfold writeDlRecord
  split
  · exact hk
  · extract_lets l0 l1; clear_value l0
    have hl1 : Keeps s0 l1 := by
      unfold l1
      with_reducible refine foldl_keeps ?_ ?_
      · intro v2 v3 v4
        with_reducible refine foldl_keeps ?_ ?_
        · intro v5 v6 v7; apply resWrite_keeps; exact v7
        · exact v4
      · exact hk
    clear_value l1
    with_reducible refine foldl_keeps ?_ ?_
    · intro v8 v9 v10; apply resWrite_keeps; exact v10
    · exact hl1

theorem closeWindow_keeps {s0 : State} (c : Nat) (lin : Nat) {s : State} (hk : Keeps s0 s) : Keeps s0
    (closeWindow c lin s) := by
  unfold closeWindow
  extract_lets l0 l1 l2 l3 l4 l5 l6 l7 l8 l9 l10 l11 l12 l13 l14 l15; clear_value l0 l1 l2 l3 l4 l5 l6
  have hl7 : Keeps s0 l7 := by
    unfold l7
    refine keeps_ite ?_ ?_
    · apply keepControl_keeps; apply countBy_keeps; exact hk
    · apply count_keeps; exact hk
  clear_value l7 l8
  have hl9 : Keeps s0 l9 := by
    unfold l9; apply countBy_keeps; exact hl7
  clear_value l9 l10 l11 l12
  have hl13 : Keeps s0 l13 := by
    unfold l13; apply countBy_keeps; apply countBy_keeps; exact hl9
  clear_value l13
  have hl14 : Keeps s0 l14 := by
    unfold l14; apply closeVerdicts_keeps; exact hl13
  clear_value l14
  have hl15 : Keeps s0 l15 := by
    unfold l15
    refine keeps_ite ?_ ?_
    · apply writeDlRecord_keeps; exact hl14
    · exact hl14
  clear_value l15
  refine keeps_ite ?_ ?_
  · apply freeWindow_keeps
    with_reducible refine foldl_keeps ?_ ?_
    · intro v16 v17 v18
      refine keeps_ite ?_ ?_
      · apply count_keeps; exact v18
      · apply count_keeps; exact v18
    · exact hk
  · refine keeps_ite ?_ ?_
    · apply freeWindow_keeps; apply closeVerdicts_keeps; apply countBy_keeps; exact hl7
    · apply freeWindow_keeps; exact hl15

theorem windowKeep_keeps {s0 : State} (w : Window) {s : State} (hk : Keeps s0 s) : Keeps s0 (windowKeep w s).2 := by
  unfold windowKeep
  extract_lets l0 l1 l2 l3 l4; clear_value l0 l1 l2 l3 l4; dsimp only; apply countBy_keeps; exact hk

theorem setWindows_keeps {s0 : State} (shadow : Bool) (l : List Window) {s : State} (hk : Keeps s0 s) : Keeps s0
    (setWindows shadow l s) := by
  unfold setWindows
  refine keeps_ite ?_ ?_
  · exact Keeps.mk' hk rfl
  · exact Keeps.mk' hk rfl

theorem fileItem_keeps {s0 : State} (shadow : Bool) (c : Nat) (b : Stamp) (it : Item) {s : State} (hk
    : Keeps s0 s) : Keeps s0 (fileItem shadow c b it s).2 := by
  unfold fileItem
  extract_lets l0 l1 l2 l3 l4 l5; clear_value l0 l1
  have hl2 : Keeps s0 l2 := by
    unfold l2; apply count_keeps; exact hk
  clear_value l2
  have hl3 : Keeps s0 l3 := by
    unfold l3; apply count_keeps; exact hl2
  clear_value l3 l4
  have hl5 : Keeps s0 l5.2 := by
    unfold l5; apply windowKeep_keeps; exact hk
  clear_value l5
  split
  · split
    · dsimp only
      exact hl2
    · refine keeps_ite2 ?_ ?_
      · dsimp only
        exact hl2
      · extract_lets l6 l7 l8 l9 l10 l11 l12; clear_value l6 l7 l8 l9 l10 l11
        have hl12 : Keeps s0 l12.2 := by
          unfold l12; apply windowKeep_keeps; exact hl3
        clear_value l12; dsimp only; apply setWindows_keeps; exact hl12
  · dsimp only
    apply setWindows_keeps; exact hl5

theorem discardArrival_keeps {s0 : State} (q : Nat) (ident : Nat) (b : Stamp) (outcome : Nat) {s : State} (hk
    : Keeps s0 s) : Keeps s0 (discardArrival q ident b outcome s) := by
  unfold discardArrival
  apply makeVerdict_keeps; apply count_keeps; exact hk

theorem admit_keeps {s0 : State} (shadow : Bool) (c : Nat) (b : Stamp) (it : Item) {s : State} (hk : Keeps s0 s)
    : Keeps s0 (admitItem shadow c b it s).2 := by
  unfold admitItem
  extract_lets d lin r
  clear_value d lin
  have hr : Keeps s0 r.2 := fileItem_keeps _ _ _ _ hk
  clear_value r
  refine keeps_ite2 ?_ (keeps_ite2 ?_ (keeps_ite2 (count_keeps _ _ hr) hr))
  · exact keeps_ite hk (discardArrival_keeps _ _ _ _ hk)
  · exact keeps_ite hk (discardArrival_keeps _ _ _ _ hk)

theorem loopClose_keeps {s0 : State} (c : Nat) (lin : Nat) (start : Nat) {s : State} (hk : Keeps s0 s) : Keeps s0
    (loopClose c lin start s) := by
  unfold loopClose
  extract_lets l0 l1 l2 l3 l4; clear_value l0 l1
  have hl2 : Keeps s0 l2 := by
    unfold l2; apply keepControl_keeps; exact hk
  clear_value l2 l3
  have hl4 : Keeps s0 l4 := by
    unfold l4; apply makeVerdict_keeps; exact hl2
  clear_value l4
  refine keeps_ite ?_ ?_
  · exact hk
  · refine keeps_ite ?_ ?_
    · apply writeDlRecord_keeps; exact hl4
    · exact hl4

theorem countCx_keeps {s0 : State} (code : Nat) {s : State} (hk : Keeps s0 s) : Keeps s0 (countCx code s) := by
  unfold countCx
  apply count_keeps; exact hk

theorem markLost_keeps {s0 : State} (lost : Nat) {s : State} (hk : Keeps s0 s) : Keeps s0 (markLost lost s) := by
  unfold markLost
  split
  · exact hk
  · refine keeps_ite ?_ ?_
    · exact hk
    · extract_lets l0 l1 l2 l3; clear_value l0 l1 l2 l3; apply raiseEv_keeps; apply count_keeps; exact Keeps.mk' hk rfl

theorem failHostJobs_keeps {s0 : State} (p : JobBody → Bool) (result : Nat) {s : State} (hk : Keeps s0 s)
    : Keeps s0 (failHostJobs p result s) := by
  unfold failHostJobs
  exact Keeps.mk' hk rfl

theorem loseFlacon_keeps {s0 : State} (i : Nat) {s : State} (hk : Keeps s0 s) : Keeps s0 (loseFlacon i s) := by
  unfold loseFlacon
  split
  · exact hk
  · extract_lets l0 l1; clear_value l0
    have hl1 : Keeps s0 l1 := by
      unfold l1; exact Keeps.mk' hk rfl
    clear_value l1; apply markLost_keeps; apply failHostJobs_keeps; exact hl1

theorem ddFreeze_keeps {s0 : State} (f : Nat) {s : State} (hk : Keeps s0 s) : Keeps s0 (ddFreeze f s) := by
  unfold ddFreeze
  extract_lets l0 l1
  have hl0 : Keeps s0 l0 := by
    unfold l0; apply failHostJobs_keeps; exact hk
  clear_value l0 l1; exact Keeps.mk' hl0 rfl

theorem ddEmpty_keeps {s0 : State} {s : State} (hk : Keeps s0 s) : Keeps s0 (ddEmpty s) := by
  unfold ddEmpty
  exact Keeps.mk' hk rfl

theorem overtakeJobs_keeps {s0 : State} (lin : Nat) {s : State} (hk : Keeps s0 s) : Keeps s0 (overtakeJobs lin s) := by
  unfold overtakeJobs
  exact Keeps.mk' hk rfl

theorem discardFlacon_keeps {s0 : State} (i : Nat) {s : State} (hk : Keeps s0 s) : Keeps s0 (discardFlacon i s) := by
  unfold discardFlacon
  split
  · exact hk
  · extract_lets l0 l1
    have hl0 : Keeps s0 l0 := by
      unfold l0; apply overtakeJobs_keeps; apply loseFlacon_keeps; exact hk
    clear_value l0 l1; apply count_keeps; exact Keeps.mk' hl0 rfl

theorem ddAdvance_keeps {s0 : State} {s : State} (hk : Keeps s0 s) : Keeps s0 (ddAdvance s) := by
  unfold ddAdvance
  extract_lets l0 l1 l2; clear_value l0 l1
  have hl2 : Keeps s0 l2 := by
    unfold l2; exact Keeps.mk' hk rfl
  clear_value l2
  split
  · exact hl2
  · refine keeps_ite ?_ ?_
    · refine keeps_ite ?_ ?_
      · exact Keeps.mk' hk rfl
      · exact hl2
    · refine keeps_ite ?_ ?_
      · extract_lets l3 l4
        have hl3 : Keeps s0 l3 := by
          unfold l3
          with_reducible refine foldl_keeps ?_ ?_
          · intro v5 v6 v7; apply discardFlacon_keeps; exact v7
          · exact hk
        clear_value l3 l4; exact Keeps.mk' hl3 rfl
      · exact hl2

theorem takeHead_keeps {s0 : State} (h : Head) {s : State} (hk : Keeps s0 s) : Keeps s0 (takeHead h s) := by
  unfold takeHead
  refine countBy_keeps (nose_keeps hk ?_) _ _ _
  intro e
  have key : ∀ n : NoseSt, n.evtProd = s.nose.evtProd → n.evtCons = s.nose.evtCons → (n.evtProd - n.evtCons).toNat ≤ 8192 := by
    intro n a b; rw [a, b]; exact e
  apply key
  · dsimp only
    split <;> split <;> rfl
  · dsimp only
    split <;> split <;> rfl

theorem respond_keeps {s0 : State} (dst : Src) (tag : BitVec 32) (op : Nat) (arrivalNs : BitVec 32) (status
    : Nat) (effect : Option Stamp) (next : Nat) (payload : List Fld) {s : State} (hk : Keeps s0 s) : Keeps s0
    (respond dst tag op arrivalNs status effect next payload s) := by
  unfold respond
  extract_lets l0 l1 l2 l3; clear_value l0
  have hl1 : Keeps s0 l1 := by
    unfold l1
    refine keeps_ite ?_ ?_
    · exact hk
    · apply count_keeps; exact hk
  clear_value l1
  have hl3 : Keeps s0 l3 := by
    unfold l3; exact Keeps.mk' hl1 rfl
  clear_value l3
  split
  · exact Keeps.mk' hl1 rfl
  · apply sendRsp_keeps; exact hl3

theorem answerUndefined_keeps {s0 : State} (n : Nat) {s : State} (hk : Keeps s0 s) : Keeps s0
    (answerUndefined n s) := by
  induction n generalizing s with
  | zero => exact hk
  | succ n ih =>
    rw [answerUndefined]
    split
    · split
      · exact hk
      · exact ih (respond_keeps _ _ _ _ _ _ _ _ (takeHead_keeps _ hk))
    · exact hk

theorem serveUndefined_keeps {s0 : State} {s : State} (hk : Keeps s0 s) : Keeps s0 (serveUndefined s) := by
  unfold serveUndefined
  apply answerUndefined_keeps; exact hk

theorem answer_keeps {s0 : State} (op : Nat) (h : Hdr) {p : Reply × State} (hk : Keeps s0 p.2) : Keeps s0
    (answer op h p) := by
  unfold answer
  split
  · apply respond_keeps; exact hk
  · exact hk

theorem fails_keeps {s0 : State} (status : Nat) {s : State} (hk : Keeps s0 s) : Keeps s0 (fails status s).2 := by
  unfold fails
  dsimp only
  exact hk

theorem checked_keeps {s0 : State} (op : Nat) (h : Hdr) (mode : Nat) (body : State → Reply × State) {s : State}
    (hbody : ∀ s, Keeps s0 s → Keeps s0 (body s).2) (hk : Keeps s0 s) : Keeps s0 (checked op h mode body s).2 := by
  unfold checked
  refine keeps_ite2 ?_ ?_
  · apply fails_keeps; exact hk
  · refine keeps_ite2 ?_ ?_
    · apply fails_keeps; exact hk
    · refine keeps_ite2 ?_ ?_
      · apply fails_keeps; exact hk
      · refine keeps_ite2 ?_ ?_
        · apply fails_keeps; exact hk
        · refine keeps_ite2 ?_ ?_
          · apply fails_keeps; exact hk
          · apply hbody; exact hk

theorem serve_keeps {s0 : State} (op : Nat) (h : Hdr) (mode : State → Nat) (body : State → Reply × State) {s
    : State} (hbody : ∀ s, Keeps s0 s → Keeps s0 (body s).2) (hk : Keeps s0 s) : Keeps s0
    (serve op h mode body s) := by
  unfold serve
  refine keeps_ite ?_ ?_
  · extract_lets l0
    have hl0 : Keeps s0 l0 := by
      unfold l0; apply takeHead_keeps; exact hk
    clear_value l0; apply serveUndefined_keeps; apply answer_keeps; apply checked_keeps
    · intro v1 v2; apply hbody; exact v2
    · exact hl0
  · exact hk

theorem startJob_keeps {s0 : State} (op : Nat) (h : Hdr) (body : JobBody) {s : State} (hk : Keeps s0 s)
    : Keeps s0 (startJob op h body s).2 := by
  unfold startJob
  dsimp only
  exact Keeps.mk' hk rfl

theorem schedule_keeps {s0 : State} (w : When) (a : Act) {s : State} (hk : Keeps s0 s) : Keeps s0
    (schedule w a s) := by
  unfold schedule
  exact Keeps.mk' hk rfl

theorem accept_keeps {s0 : State} (w : When) (a : Act) (payload : List Fld) (applyNow : State → State) {s
    : State} (happlyNow : ∀ s, Keeps s0 s → Keeps s0 (applyNow s)) (hk : Keeps s0 s) : Keeps s0
    (accept w a payload applyNow s).2 := by
  unfold accept
  split
  · dsimp only
    apply happlyNow; exact hk
  · dsimp only
    apply schedule_keeps; exact hk

theorem acceptPair_keeps {s0 : State} (op : Nat) (h : Hdr) (w : When) (a : Act) (payload : List Fld) (applyNow
    : State → State) {s : State} (happlyNow : ∀ s, Keeps s0 s → Keeps s0 (applyNow s)) (hk : Keeps s0 s)
    : Keeps s0 (acceptPair op h w a payload applyNow s).2 := by
  unfold acceptPair
  refine keeps_ite2 ?_ ?_
  · extract_lets l0 l1 l2; clear_value l0 l1
    have hl2 : Keeps s0 l2 := by
      unfold l2; apply sendTw_keeps; exact Keeps.mk' hk rfl
    clear_value l2; apply startJob_keeps; exact hl2
  · apply accept_keeps
    · intro v3 v4; apply happlyNow; exact v4
    · exact hk

theorem okWith_keeps {s0 : State} (payload : List Fld) {s : State} (hk : Keeps s0 s) : Keeps s0
    (okWith payload s).2 := by
  unfold okWith
  dsimp only
  exact hk

theorem endJob_keeps {s0 : State} (j : Job) (status : Nat) (effect : Option Stamp) (payload : List Fld) {s
    : State} (hk : Keeps s0 s) : Keeps s0 (endJob j status effect payload s) := by
  unfold endJob
  apply serveUndefined_keeps; apply respond_keeps; exact Keeps.mk' hk rfl

theorem updateLeaseRegs_keeps {s0 : State} {s : State} (hk : Keeps s0 s) : Keeps s0 (updateLeaseRegs s) := by
  unfold updateLeaseRegs
  exact Keeps.mk' hk rfl

theorem writeEvent_lease (code unit : Nat) (beat : Stamp) (payload : List Fld) (s : State) :
    (writeEvent code unit beat payload s).nose.lease = s.nose.lease := by
  have hs : ∀ p m e (s : State), (sendEvt p m e s).nose.lease = s.nose.lease := by
    intro p m e s
    unfold sendEvt macSend
    split <;> rfl
  unfold writeEvent
  dsimp only
  split
  · rw [hs]
  · rfl
theorem raiseEv_lease (code unit : Nat) (payload : List Fld) (s : State) :
    (raiseEv code unit payload s).nose.lease = s.nose.lease := by
  unfold raiseEv raiseAt
  extract_lets m full
  split
  · rfl
  · split
    · rfl
    · exact writeEvent_lease _ _ _ _ _
theorem setLease_keeps {s0 : State} (l : Option (BitVec 64 × Src)) (reason : Nat) {s : State} (hk : Keeps s0 s) :
    Keeps s0 (setLease l reason s) := by
  unfold setLease
  split
  · exact hk
  · extract_lets old n1 s1 s2 s3
    have h1 : Keeps s0 s1 := count_keeps _ _ (nose_keeps hk id)
    have h2 : Keeps s0 s2 := raiseEv_keeps _ _ _ h1
    refine updateLeaseRegs_keeps ?_
    have e : s2.nose.lease = l := (raiseEv_lease _ _ _ _).trans rfl
    clear_value s2
    rcases l with _ | ⟨i, _ | ⟨p, m, v⟩⟩
    · exact reportLost_keeps h2 (fun _ i hi => by rw [e] at hi; cases hi)
    · exact h2
    · exact reportLost_keeps h2 (fun _ i hi => by rw [e] at hi; cases hi)

theorem inbandArrive_keeps {s0 : State} (src : Src) (port : Nat) (tag : BitVec 32) (op : BitVec 16) {s : State}
    (hk : Keeps s0 s) : Keeps s0 (inbandArrive src port tag op s) := by
  unfold inbandArrive
  split
  · extract_lets l0
    have hl0 : Keeps s0 l0 := by
      unfold l0; apply count_keeps; exact hk
    clear_value l0
    split
    · apply sendRsp_keeps; exact hl0
    · exact hl0
  · refine keeps_ite ?_ ?_
    · apply count_keeps; exact hk
    · refine keeps_ite ?_ ?_
      · apply count_keeps; exact hk
      · apply serveUndefined_keeps; exact Keeps.mk' hk rfl

theorem cmdDoorbell_keeps {s0 : State} (index : BitVec 16) (heads : List (BitVec 32 × BitVec 16)) {s : State} (hk
    : Keeps s0 s) : Keeps s0 (cmdDoorbell index heads s) := by
  unfold cmdDoorbell
  extract_lets l0 l1 l2 l3 l4; clear_value l1 l2 l3 l4
  refine keeps_ite ?_ ?_
  · exact hk
  · refine keeps_ite ?_ ?_
    · apply count_keeps; exact hk
    · apply serveUndefined_keeps; exact Keeps.mk' hk rfl

theorem rspConsume_keeps {s0 : State} (index : BitVec 16) {s : State} (hk : Keeps s0 s) : Keeps s0
    (rspConsume index s) := by
  unfold rspConsume
  extract_lets l0
  refine keeps_ite ?_ ?_
  · exact hk
  · refine keeps_ite ?_ ?_
    · apply count_keeps; exact hk
    · apply serveUndefined_keeps; exact Keeps.mk' hk rfl

theorem evtConsume_keeps {s0 : State} (index : BitVec 16) {s : State} (hk : Keeps s0 s) : Keeps s0
    (evtConsume index s) := by
  unfold evtConsume
  extract_lets n pcie freed s1
  refine keeps_ite hk ?_
  split
  · exact count_keeps _ _ hk
  · rename_i hle
    have hle' : (index - s.nose.evtCons).toNat ≤ evtHeld s := Nat.le_of_not_lt hle
    have key : evtHeld s1 = evtHeld s - (index - s.nose.evtCons).toNat := by
      show (s.nose.evtProd - index).toNat = _
      unfold evtHeld at hle' ⊢
      simp only [BitVec.toNat_sub] at *
      have := s.nose.evtProd.isLt
      have := s.nose.evtCons.isLt
      have := index.isLt
      omega
    have h1 : Keeps s0 s1 := nose_keeps hk (fun e => by
      have : evtHeld s1 ≤ 8192 := by omega
      exact this)
    split
    · rename_i hfr
      refine reportLost_keeps h1 (fun ca i hi hh => ?_)
      have h2 := (hk.canon ca).evt
      have h3 : (index - s.nose.evtCons).toNat = 0 := by omega
      have h4 : index = s.nose.evtCons := by
        have := s.nose.evtCons.isLt
        have := index.isLt
        apply BitVec.eq_of_toNat_eq
        rw [BitVec.toNat_sub] at h3
        omega
      exact absurd h4 (by simpa [freed, n] using hfr)
    · exact h1

theorem leaseAcquire_keeps {s0 : State} (h : Hdr) (holder : BitVec 64) (timeoutMs : BitVec 32) (force : BitVec 8)
    {s : State} (hk : Keeps s0 s) : Keeps s0 (leaseAcquire h holder timeoutMs force s).2 := by
  unfold leaseAcquire
  extract_lets l0 l1 l2 l3 l4; clear_value l0 l1 l2 l3 l4
  refine keeps_ite2 ?_ ?_
  · apply fails_keeps; exact hk
  · refine keeps_ite2 ?_ ?_
    · apply okWith_keeps
      apply setLease_keeps; exact Keeps.mk' hk rfl
    · apply fails_keeps; exact hk

theorem counterClear_keeps {s0 : State} (counter : BitVec 16) (first : BitVec 16) (count : BitVec 16) {s : State}
    (hk : Keeps s0 s) : Keeps s0 (counterClear counter first count s).2 := by
  unfold counterClear
  refine keeps_ite2 ?_ ?_
  · apply okWith_keeps
    with_reducible refine foldl_keeps ?_ ?_
    · intro v0 v1 v2; apply counterClear1_keeps; exact v2
    · exact hk
  · apply fails_keeps; exact hk

theorem readCmd_keeps {s0 : State} (held : List (BitVec 32 × List Fld)) (newest : BitVec 32) (first : BitVec 32)
    (count : BitVec 16) (limit : Nat) {s : State} (hk : Keeps s0 s) : Keeps s0
    (readCmd held newest first count limit s).2 := by
  unfold readCmd
  refine keeps_ite2 ?_ ?_
  · apply fails_keeps; exact hk
  · extract_lets l0; clear_value l0; dsimp only; exact hk

theorem counterRead_keeps {s0 : State} (counter : BitVec 16) (first : BitVec 16) (count : BitVec 16) {s : State}
    (hk : Keeps s0 s) : Keeps s0 (counterRead counter first count s).2 := by
  unfold counterRead
  refine keeps_ite2 ?_ ?_
  · apply okWith_keeps; exact hk
  · apply fails_keeps; exact hk

theorem execBootRecords_keeps {s0 : State} (h : Hdr) {s t' : State} (hk : Keeps s0 s) (he
    : execBootRecords h s = .next t') : Keeps s0 t' := by
  unfold execBootRecords at he
  cases he
  apply serve_keeps
  · intro v0 v1; apply okWith_keeps; exact v1
  · exact hk

theorem execLeaseAcquire_keeps {s0 : State} (h : Hdr) (holder : BitVec 64) (timeoutMs : BitVec 32) (force
    : BitVec 8) {s t' : State} (hk : Keeps s0 s) (he : execLeaseAcquire h holder timeoutMs force s = .next t')
    : Keeps s0 t' := by
  unfold execLeaseAcquire at he
  cases he
  apply serve_keeps
  · intro v0 v1; apply leaseAcquire_keeps; exact v1
  · exact hk

theorem execCounterClear_keeps {s0 : State} (h : Hdr) (counter : BitVec 16) (first : BitVec 16) (count
    : BitVec 16) {s t' : State} (hk : Keeps s0 s) (he : execCounterClear h counter first count s = .next t')
    : Keeps s0 t' := by
  unfold execCounterClear at he
  cases he
  apply serve_keeps
  · intro v0 v1; apply counterClear_keeps; exact v1
  · exact hk

theorem execErrorRead_keeps {s0 : State} (h : Hdr) (first : BitVec 32) (count : BitVec 16) {s t' : State} (hk
    : Keeps s0 s) (he : execErrorRead h first count s = .next t') : Keeps s0 t' := by
  unfold execErrorRead at he
  cases he
  apply serve_keeps
  · intro v0 v1; apply readCmd_keeps; exact v1
  · exact hk

theorem execEvtConsumeWrite_keeps {s0 : State} (index : BitVec 16) {s t' : State} (hk : Keeps s0 s) (he
    : execEvtConsumeWrite index s = .next t') : Keeps s0 t' := by
  unfold execEvtConsumeWrite at he
  cases he
  apply evtConsume_keeps; exact hk

theorem execEventMask_keeps {s0 : State} (h : Hdr) (mask : BitVec 256) {s t' : State} (hk : Keeps s0 s) (he
    : execEventMask h mask s = .next t') : Keeps s0 t' := by
  unfold execEventMask at he
  cases he
  apply serve_keeps
  · intro v0 v1; apply okWith_keeps; exact Keeps.mk' v1 rfl
  · exact hk

theorem execVerdictRead_keeps {s0 : State} (h : Hdr) (first : BitVec 32) (count : BitVec 16) {s t' : State} (hk
    : Keeps s0 s) (he : execVerdictRead h first count s = .next t') : Keeps s0 t' := by
  unfold execVerdictRead at he
  cases he
  apply serve_keeps
  · intro v0 v1; apply readCmd_keeps; exact v1
  · exact hk

theorem execRspConsumeWrite_keeps {s0 : State} (index : BitVec 16) {s t' : State} (hk : Keeps s0 s) (he
    : execRspConsumeWrite index s = .next t') : Keeps s0 t' := by
  unfold execRspConsumeWrite at he
  cases he
  apply rspConsume_keeps; exact hk

theorem execCounterRead_keeps {s0 : State} (h : Hdr) (counter : BitVec 16) (first : BitVec 16) (count
    : BitVec 16) {s t' : State} (hk : Keeps s0 s) (he : execCounterRead h counter first count s = .next t')
    : Keeps s0 t' := by
  unfold execCounterRead at he
  cases he
  apply serve_keeps
  · intro v0 v1; apply counterRead_keeps; exact v1
  · exact hk

theorem execLeaseRegisterUpdate_keeps {s0 : State} {s t' : State} (hk : Keeps s0 s) (he
    : execLeaseRegisterUpdate s = .next t') : Keeps s0 t' := by
  unfold execLeaseRegisterUpdate at he
  cases he
  apply updateLeaseRegs_keeps; exact hk

theorem execLeaseStatus_keeps {s0 : State} (h : Hdr) {s t' : State} (hk : Keeps s0 s) (he
    : execLeaseStatus h s = .next t') : Keeps s0 t' := by
  unfold execLeaseStatus at he
  cases he
  apply serve_keeps
  · intro v0 v1; apply okWith_keeps; exact v1
  · exact hk

theorem execLeaseRelease_keeps {s0 : State} (h : Hdr) {s t' : State} (hk : Keeps s0 s) (he
    : execLeaseRelease h s = .next t') : Keeps s0 t' := by
  unfold execLeaseRelease at he
  cases he
  apply serve_keeps
  · intro v0 v1; apply okWith_keeps; apply setLease_keeps; exact v1
  · exact hk

theorem execNoseInfo_keeps {s0 : State} (h : Hdr) {s t' : State} (hk : Keeps s0 s) (he
    : execNoseInfo h s = .next t') : Keeps s0 t' := by
  unfold execNoseInfo at he
  cases he
  apply serve_keeps
  · intro v0 v1; apply okWith_keeps; exact v1
  · exact hk

theorem execCmdDoorbell_keeps {s0 : State} (index : BitVec 16) (heads : List (BitVec 32 × BitVec 16)) {s t'
    : State} (hk : Keeps s0 s) (he : execCmdDoorbell index heads s = .next t') : Keeps s0 t' := by
  unfold execCmdDoorbell at he
  cases he
  apply cmdDoorbell_keeps; exact hk

theorem execLeaseExpiry_keeps {s0 : State} {s t' : State} (hk : Keeps s0 s) (he : execLeaseExpiry s = .next t')
    : Keeps s0 t' := by
  unfold execLeaseExpiry at he
  cases he
  apply setLease_keeps; exact hk

theorem execEventRead_keeps {s0 : State} (h : Hdr) (first : BitVec 32) (count : BitVec 16) {s t' : State} (hk
    : Keeps s0 s) (he : execEventRead h first count s = .next t') : Keeps s0 t' := by
  unfold execEventRead at he
  cases he
  apply serve_keeps
  · intro v0 v1; apply readCmd_keeps; exact v1
  · exact hk

theorem capSet_keeps {s0 : State} (n : Nat) (c : Capture) {s : State} (hk : Keeps s0 s) : Keeps s0 (capSet n c s) := by
  unfold capSet
  exact Keeps.mk' hk rfl

theorem msixMessage_keeps {s0 : State} (v : Nat) {s : State} (hk : Keeps s0 s) : Keeps s0 (msixMessage v s) := by
  unfold msixMessage
  extract_lets l0 l1; clear_value l0
  refine keeps_ite ?_ ?_
  · apply emit_keeps; exact Keeps.mk' hk rfl
  · exact hk

theorem nosStatusClear_keeps {s0 : State} (value : BitVec 32) {s : State} (hk : Keeps s0 s) : Keeps s0
    (nosStatusClear value s) := by
  unfold nosStatusClear
  exact Keeps.mk' hk rfl

theorem errStickyClear_keeps {s0 : State} (value : BitVec 32) {s : State} (hk : Keeps s0 s) : Keeps s0
    (errStickyClear value s) := by
  unfold errStickyClear
  exact Keeps.mk' hk rfl

theorem snapshotTake_keeps {s0 : State} (value : BitVec 32) {s : State} (hk : Keeps s0 s) : Keeps s0
    (snapshotTake value s) := by
  unfold snapshotTake
  refine keeps_ite ?_ ?_
  · extract_lets l0 l1; clear_value l0 l1; exact Keeps.mk' hk rfl
  · exact hk

theorem capturePop_keeps {s0 : State} (ch : Fin 2) (value : BitVec 32) {s : State} (hk : Keeps s0 s) : Keeps s0
    (capturePop ch value s) := by
  unfold capturePop
  refine keeps_ite ?_ ?_
  · exact hk
  · extract_lets l0 l1; clear_value l0 l1
    split
    · exact Keeps.mk' hk rfl
    · apply capSet_keeps; exact hk

theorem bar0Word_keeps {s0 : State} (o : Nat) (v : BitVec 32) {s : State} (hk : Keeps s0 s) : Keeps s0
    (bar0Word o v s) := by
  unfold bar0Word
  refine keeps_ite ?_ ?_
  · apply nosStatusClear_keeps; exact hk
  · refine keeps_ite ?_ ?_
    · apply cmdDoorbell_keeps; exact hk
    · refine keeps_ite ?_ ?_
      · apply rspConsume_keeps; exact hk
      · refine keeps_ite ?_ ?_
        · apply evtConsume_keeps; exact hk
        · refine keeps_ite ?_ ?_
          · apply errStickyClear_keeps; exact hk
          · refine keeps_ite ?_ ?_
            · apply snapshotTake_keeps; exact hk
            · refine keeps_ite ?_ ?_
              · apply capturePop_keeps; exact hk
              · refine keeps_ite ?_ ?_
                · apply capturePop_keeps; exact hk
                · refine keeps_ite ?_ ?_
                  · extract_lets l0 l1 l2; clear_value l0 l1 l2; exact Keeps.mk' hk rfl
                  · refine keeps_ite ?_ ?_
                    · exact Keeps.mk' hk rfl
                    · exact hk

theorem bar0Write_keeps {s0 : State} (offset : Nat) (size : Nat) (value : BitVec 64) {s : State} (hk
    : Keeps s0 s) : Keeps s0 (bar0Write offset size value s) := by
  unfold bar0Write
  refine keeps_ite ?_ ?_
  · apply bar0Word_keeps; exact hk
  · refine keeps_ite ?_ ?_
    · apply bar0Word_keeps; apply bar0Word_keeps; exact hk
    · exact Keeps.mk' hk rfl

theorem execMsixMessage_keeps {s0 : State} (vector : Fin 2) {s t' : State} (hk : Keeps s0 s) (he
    : execMsixMessage vector s = .next t') : Keeps s0 t' := by
  unfold execMsixMessage at he
  cases he
  apply msixMessage_keeps; exact hk

theorem execErrStickyClear_keeps {s0 : State} (value : BitVec 32) {s t' : State} (hk : Keeps s0 s) (he
    : execErrStickyClear value s = .next t') : Keeps s0 t' := by
  unfold execErrStickyClear at he
  cases he
  apply errStickyClear_keeps; exact hk

theorem execSnapshotTake_keeps {s0 : State} (value : BitVec 32) {s t' : State} (hk : Keeps s0 s) (he
    : execSnapshotTake value s = .next t') : Keeps s0 t' := by
  unfold execSnapshotTake at he
  cases he
  apply snapshotTake_keeps; exact hk

theorem execCapturePop_keeps {s0 : State} (ch : Fin 2) (value : BitVec 32) {s t' : State} (hk : Keeps s0 s) (he
    : execCapturePop ch value s = .next t') : Keeps s0 t' := by
  unfold execCapturePop at he
  cases he
  apply capturePop_keeps; exact hk

theorem execBar0Write_keeps {s0 : State} (offset : BitVec 16) (size : Fin 9) (value : BitVec 64) {s t' : State}
    (hk : Keeps s0 s) (he : execBar0Write offset size value s = .next t') : Keeps s0 t' := by
  unfold execBar0Write at he
  cases he
  apply bar0Write_keeps; exact hk

theorem execNosStatusClear_keeps {s0 : State} (value : BitVec 32) {s t' : State} (hk : Keeps s0 s) (he
    : execNosStatusClear value s = .next t') : Keeps s0 t' := by
  unfold execNosStatusClear at he
  cases he
  apply nosStatusClear_keeps; exact hk

end Sys2Proof.Machine
end

