-- ==== Sys2Proof/Laws/KeepMem.lean ====
section
/-! SUPPORT. Regions, captures, the memories and the time base: each operation keeps what `Keeps` says (`f_keeps` is the lemma of `f`). -/

namespace Sys2Proof.Machine

theorem lineError_keeps {s0 : State} (r : Nat) (unit : Nat) (inst : Nat) (requester : Nat) (line : Nat) {s
    : State} (hk : Keeps s0 s) : Keeps s0 (lineError r unit inst requester line s) := by
  unfold lineError
  refine keeps_ite ?_ ?_
  · extract_lets l0 l1
    have hl1 : Keeps s0 l1 := by
      unfold l1; exact Keeps.mk' hk rfl
    clear_value l1
    refine keeps_ite ?_ ?_
    · apply count_keeps; exact hl1
    · exact hl1
  · extract_lets l2 l3
    have hl2 : Keeps s0 l2.2 := by
      unfold l2; apply freeVal_keeps; exact hk
    clear_value l2 l3
    refine keeps_ite ?_ ?_
    · apply raiseErr_keeps; apply count_keeps; exact hl2
    · apply raiseErr_keeps; exact hl2

theorem regionRead_keeps {s0 : State} (r : Nat) (unit : Nat) (inst : Nat) (requester : Nat) (a : Nat) (n : Nat)
    {s : State} (hk : Keeps s0 s) : Keeps s0 (regionRead r unit inst requester a n s).2 := by
  unfold regionRead
  extract_lets l0 l1; clear_value l0 l1
  refine keeps_ite2 ?_ ?_
  · dsimp only
    exact hk
  · dsimp only
    with_reducible refine foldl_keeps ?_ ?_
    · intro v2 v3 v4; apply lineError_keeps; exact v4
    · exact hk

theorem scrubLine_keeps {s0 : State} {s : State} (hk : Keeps s0 s) : Keeps s0 (scrubLine s) := by
  unfold scrubLine
  extract_lets l0 l1 l2 l3 l4; clear_value l0
  have hl2 : Keeps s0 l2 := by
    unfold l2; exact Keeps.mk' hk rfl
  clear_value l2
  have hl4 : Keeps s0 l4.2 := by
    unfold l4; apply freeVal_keeps; exact hl2
  clear_value l4
  refine keeps_ite ?_ ?_
  · apply count_keeps; exact Keeps.mk' hl2 rfl
  · refine keeps_ite ?_ ?_
    · apply raiseErr_keeps; exact hl4
    · exact hl2

theorem captureFreeze_keeps {s0 : State} {s : State} (hk : Keeps s0 s) : Keeps s0 (captureFreeze s) := by
  unfold captureFreeze
  with_reducible refine foldl_keeps ?_ ?_
  · intro v0 v1 v2; extract_lets l3; clear_value l3
    refine keeps_ite ?_ ?_
    · apply raiseEv_keeps; apply capSet_keeps; exact v2
    · exact v2
  · exact hk

theorem captureFlush_keeps {s0 : State} (n : Nat) {s : State} (hk : Keeps s0 s) : Keeps s0 (captureFlush n s) := by
  unfold captureFlush
  extract_lets l0 l1 l2; clear_value l0 l1 l2
  split
  · apply raiseEv_keeps; apply capSet_keeps; exact hk
  · apply capSet_keeps; exact hk

theorem captureEnd_keeps {s0 : State} (n : Nat) (e : Nat) {s : State} (hk : Keeps s0 s) : Keeps s0
    (captureEnd n e s) := by
  unfold captureEnd
  extract_lets l0 l1 l2 l3; clear_value l0 l1 l2
  have hl3 : Keeps s0 l3 := by
    unfold l3
    refine keeps_ite ?_ ?_
    · apply count_keeps; exact hk
    · exact hk
  clear_value l3
  refine keeps_ite ?_ ?_
  · exact hk
  · apply captureFlush_keeps; apply capSet_keeps; exact hl3

theorem captureEndAll_keeps {s0 : State} {s : State} (hk : Keeps s0 s) : Keeps s0 (captureEndAll s) := by
  unfold captureEndAll
  apply captureEnd_keeps; apply captureEnd_keeps; exact hk

theorem captureWord_keeps {s0 : State} (n : Nat) (word : List Byte) {s : State} (hk : Keeps s0 s) : Keeps s0
    (captureWord n word s) := by
  unfold captureWord
  extract_lets l0 l1 l2 l3; clear_value l0 l1 l2
  have hl3 : Keeps s0 l3 := by
    unfold l3; apply captureFlush_keeps; apply capSet_keeps; exact hk
  clear_value l3
  refine keeps_ite ?_ ?_
  · exact hk
  · refine keeps_ite ?_ ?_
    · apply captureEnd_keeps; exact hk
    · refine keeps_ite ?_ ?_
      · apply captureEnd_keeps; exact hl3
      · exact hl3

theorem captureDrain_keeps {s0 : State} (n : Nat) {s : State} (hk : Keeps s0 s) : Keeps s0 (captureDrain n s) := by
  unfold captureDrain
  extract_lets l0 l1; clear_value l0 l1
  split
  · exact hk
  · refine keeps_ite ?_ ?_
    · refine keeps_ite ?_ ?_
      · exact hk
      · apply captureFlush_keeps; apply capSet_keeps; exact hk
    · refine keeps_ite ?_ ?_
      · apply captureFlush_keeps; apply capSet_keeps; apply hbmWrite_keeps; exact hk
      · exact hk

theorem captureHeader_keeps {s0 : State} (c : Capture) (len : Nat) {s : State} (hk : Keeps s0 s) : Keeps s0
    (captureHeader c len s).2 := by
  unfold captureHeader
  extract_lets l0 l1 l2
  have hl0 : Keeps s0 l0.2 := by
    unfold l0
    refine keeps_ite2 ?_ ?_
    · dsimp only
      exact hk
    · apply freeVal_keeps; exact hk
  clear_value l0
  have hl1 : Keeps s0 l1.2 := by
    unfold l1
    refine keeps_ite2 ?_ ?_
    · dsimp only
      exact hl0
    · apply freeVal_keeps; exact hl0
  clear_value l1
  have hl2 : Keeps s0 l2 := by
    unfold l2; exact hl1
  clear_value l2; dsimp only; exact hl2

theorem captureBegin_keeps {s0 : State} (n : Nat) {s : State} (hk : Keeps s0 s) : Keeps s0 (captureBegin n s) := by
  unfold captureBegin
  extract_lets l0 l1 l2 l3; clear_value l0
  have hl1 : Keeps s0 l1 := by
    unfold l1
    refine keeps_ite ?_ ?_
    · apply advanceToTime_keeps; exact hk
    · exact hk
  clear_value l1
  have hl2 : Keeps s0 l2.2 := by
    unfold l2; apply captureHeader_keeps; exact hl1
  clear_value l2
  have hl3 : Keeps s0 l3 := by
    unfold l3; apply captureFlush_keeps; apply capSet_keeps; exact hl2
  clear_value l3
  refine keeps_ite ?_ ?_
  · exact hk
  · refine keeps_ite ?_ ?_
    · apply captureEnd_keeps; exact hl3
    · exact hl3

theorem captureStart_keeps {s0 : State} (point : BitVec 16) (index : BitVec 16) (dest : BitVec 8) (t : TInst)
    (words : BitVec 32) (offset : BitVec 64) {s : State} (hk : Keeps s0 s) : Keeps s0
    (captureStart point index dest t words offset s).2 := by
  unfold captureStart
  extract_lets l0 l1 l2; clear_value l0 l1 l2
  refine keeps_ite2 ?_ ?_
  · apply fails_keeps; exact hk
  · refine keeps_ite2 ?_ ?_
    · apply fails_keeps; exact hk
    · refine keeps_ite2 ?_ ?_
      · apply fails_keeps; exact hk
      · refine keeps_ite2 ?_ ?_
        · apply fails_keeps; exact hk
        · split
          · apply fails_keeps; exact hk
          · apply okWith_keeps; apply capSet_keeps; exact hk

theorem captureStop_keeps {s0 : State} (point : BitVec 16) (index : BitVec 16) {s : State} (hk : Keeps s0 s)
    : Keeps s0 (captureStop point index s).2 := by
  unfold captureStop
  split
  · apply fails_keeps; exact hk
  · apply okWith_keeps; apply captureEnd_keeps; exact hk

theorem execCaptureWord_keeps {s0 : State} (ch : Fin 2) (word : List Byte) {s t' : State} (hk : Keeps s0 s) (he
    : execCaptureWord ch word s = .next t') : Keeps s0 t' := by
  unfold execCaptureWord at he
  cases he
  apply captureWord_keeps; exact hk

theorem execCaptureBegin_keeps {s0 : State} (ch : Fin 2) {s t' : State} (hk : Keeps s0 s) (he
    : execCaptureBegin ch s = .next t') : Keeps s0 t' := by
  unfold execCaptureBegin at he
  cases he
  apply captureBegin_keeps; exact hk

theorem execCaptureStop_keeps {s0 : State} (h : Hdr) (point : BitVec 16) (index : BitVec 16) {s t' : State} (hk
    : Keeps s0 s) (he : execCaptureStop h point index s = .next t') : Keeps s0 t' := by
  unfold execCaptureStop at he
  cases he
  apply serve_keeps
  · intro v0 v1; apply captureStop_keeps; exact v1
  · exact hk

theorem execCaptureFifoDrain_keeps {s0 : State} (ch : Fin 2) {s t' : State} (hk : Keeps s0 s) (he
    : execCaptureFifoDrain ch s = .next t') : Keeps s0 t' := by
  unfold execCaptureFifoDrain at he
  cases he
  apply captureDrain_keeps; exact hk

theorem execCaptureStart_keeps {s0 : State} (h : Hdr) (point : BitVec 16) (index : BitVec 16) (dest : BitVec 8)
    (t : TInst) (words : BitVec 32) (offset : BitVec 64) {s t' : State} (hk : Keeps s0 s) (he
    : execCaptureStart h point index dest t words offset s = .next t') : Keeps s0 t' := by
  unfold execCaptureStart at he
  cases he
  apply serve_keeps
  · intro v0 v1; apply captureStart_keeps; exact v1
  · exact hk

theorem hbmFreeze_keeps {s0 : State} (cause : Nat) (loc : Option (Nat × HbmCmd × BitVec 64)) {s : State} (hk
    : Keeps s0 s) : Keeps s0 (hbmFreeze cause loc s) := by
  unfold hbmFreeze
  refine keeps_ite ?_ ?_
  · exact hk
  · refine keeps_ite ?_ ?_
    · exact Keeps.mk' hk rfl
    · extract_lets l0 l1 l2 l3 l4 l5 l6 l7 l8 l9
      have hl0 : Keeps s0 l0.2 := by
        unfold l0; apply freeVal_keeps; exact hk
      clear_value l0 l1
      have hl2 : Keeps s0 l2 := by
        unfold l2
        split
        · exact hk
        · exact hl0
      clear_value l2 l3
      have hl5 : Keeps s0 l5 := by
        unfold l5; apply hbmUndefine_keeps; exact Keeps.mk' hl2 rfl
      clear_value l5
      have hl6 : Keeps s0 l6 := by
        unfold l6; apply raiseEv_keeps; apply count_keeps; exact hl5
      clear_value l6
      have hl7 : Keeps s0 l7 := by
        unfold l7; apply raiseErr_keeps; exact hl6
      clear_value l7
      have hl8 : Keeps s0 l8 := by
        unfold l8; apply captureFreeze_keeps; exact hl7
      clear_value l8
      have hl9 : Keeps s0 l9 := by
        unfold l9; apply makeVerdict_keeps; exact hl8
      clear_value l9
      refine keeps_ite ?_ ?_
      · refine keeps_ite ?_ ?_
        · apply goUnfit_keeps; exact hl9
        · apply ddFreeze_keeps; exact hl9
      · exact hl8

theorem panicUpdate_keeps {s0 : State} {s : State} (hk : Keeps s0 s) : Keeps s0 (panicUpdate s) := by
  unfold panicUpdate
  extract_lets l0 l1 l2 l3 l4 l5; clear_value l0 l1 l2
  have hl4 : Keeps s0 l4 := by
    unfold l4; exact Keeps.mk' hk rfl
  clear_value l4
  have hl5 : Keeps s0 l5 := by
    unfold l5
    refine keeps_ite ?_ ?_
    · apply count_keeps; exact hl4
    · exact hl4
  clear_value l5
  refine keeps_ite ?_ ?_
  · apply count_keeps; exact hl5
  · exact hl5

theorem rtwStage_keeps {s0 : State} (n : Nat) {s : State} (hk : Keeps s0 s) : Keeps s0 (rtwStage n s) := by
  unfold rtwStage
  refine keeps_ite ?_ ?_
  · apply hbmFreeze_keeps; exact hk
  · apply panicUpdate_keeps; exact Keeps.mk' hk rfl

theorem pcSet_keeps {s0 : State} (p : Nat) (v : PcSt) {s : State} (hk : Keeps s0 s) : Keeps s0 (pcSet p v s) := by
  unfold pcSet
  exact Keeps.mk' hk rfl

theorem srExit_keeps {s0 : State} {s : State} (hk : Keeps s0 s) : Keeps s0 (srExit s) := by
  unfold srExit
  exact Keeps.mk' hk rfl

theorem memThawApply_keeps {s0 : State} (t : Stamp) {s : State} (hk : Keeps s0 s) : Keeps s0 (memThawApply t s) := by
  unfold memThawApply
  refine keeps_ite ?_ ?_
  · extract_lets l0 l1 l2 l3
    have hl1 : Keeps s0 l1 := by
      unfold l1; apply srExit_keeps; exact Keeps.mk' hk rfl
    clear_value l1 l2
    have hl3 : Keeps s0 l3 := by
      unfold l3; apply ddEmpty_keeps; exact Keeps.mk' hl1 rfl
    clear_value l3; apply raiseEv_keeps; exact hl3
  · exact hk

theorem startFreqChange_keeps {s0 : State} (rate : BitVec 2) {s : State} (hk : Keeps s0 s) : Keeps s0
    (startFreqChange rate s) := by
  unfold startFreqChange
  refine keeps_ite ?_ ?_
  · exact hk
  · exact Keeps.mk' hk rfl

theorem freqChangeDone_keeps {s0 : State} {s : State} (hk : Keeps s0 s) : Keeps s0 (freqChangeDone s) := by
  unfold freqChangeDone
  split
  · exact hk
  · refine keeps_ite ?_ ?_
    · apply srExit_keeps; exact Keeps.mk' hk rfl
    · exact hk

theorem memRestoreComplete_keeps {s0 : State} (eyes8 : List (Nat × Nat)) (eyesS : List (Nat × Nat)) {s : State}
    (hk : Keeps s0 s) : Keeps s0 (memRestoreComplete eyes8 eyesS s) := by
  unfold memRestoreComplete
  split
  · exact hk
  · extract_lets l0 l1 l2; clear_value l0
    have hl2 : Keeps s0 l2 := by
      unfold l2; exact Keeps.mk' hk rfl
    clear_value l2
    refine keeps_ite ?_ ?_
    · apply endJob_keeps; exact hk
    · apply endJob_keeps; apply raiseEv_keeps; exact hl2

theorem memRestore_keeps {s0 : State} (h : Hdr) {s : State} (hk : Keeps s0 s) : Keeps s0 (memRestore h s).2 := by
  unfold memRestore
  refine keeps_ite2 ?_ ?_
  · apply startJob_keeps; exact hk
  · apply fails_keeps; exact hk

theorem refreshInterval_keeps {s0 : State} (pc : Nat) {s : State} (hk : Keeps s0 s) : Keeps s0
    (refreshInterval pc s) := by
  unfold refreshInterval
  refine keeps_ite ?_ ?_
  · exact hk
  · extract_lets l0 l1; clear_value l0
    have hl1 : Keeps s0 l1 := by
      unfold l1; apply pcSet_keeps; exact hk
    clear_value l1
    refine keeps_ite ?_ ?_
    · apply count_keeps; exact hl1
    · exact hl1

theorem overlayWrites_keeps {s0 : State} (a : Nat) (b : List Byte) {s : State} (hk : Keeps s0 s) : Keeps s0
    (overlayWrites a b s) := by
  unfold overlayWrites
  exact Keeps.mk' hk rfl

theorem hbmTouch_keeps {s0 : State} {s : State} (hk : Keeps s0 s) : Keeps s0 (hbmTouch s) := by
  unfold hbmTouch
  extract_lets l0 l1 l2 l3
  have hl1 : Keeps s0 l1 := by
    unfold l1
    refine keeps_ite ?_ ?_
    · apply count_keeps; exact Keeps.mk' hk rfl
    · exact hk
  clear_value l1
  have hl2 : Keeps s0 l2 := by
    unfold l2
    refine keeps_ite ?_ ?_
    · apply srExit_keeps; exact hl1
    · exact hl1
  clear_value l2; exact Keeps.mk' hl2 rfl

theorem memWrite_keeps {s0 : State} (addr : BitVec 64) (length : BitVec 16) (data : List Byte) {s : State} (hk
    : Keeps s0 s) : Keeps s0 (memWrite addr length data s).2 := by
  unfold memWrite
  extract_lets l0 l1; clear_value l0 l1
  refine keeps_ite2 ?_ ?_
  · apply fails_keeps; exact hk
  · refine keeps_ite2 ?_ ?_
    · apply fails_keeps; exact hk
    · apply okWith_keeps; apply hbmWrite_keeps; apply overlayWrites_keeps; apply hbmTouch_keeps; exact hk

theorem hbmRequest_keeps {s0 : State} (port : Fin 5) (write : Bool) (addr : Nat) (data : List Byte) {s : State}
    (hk : Keeps s0 s) : Keeps s0 (hbmRequest port write addr data s) := by
  unfold hbmRequest
  refine keeps_ite ?_ ?_
  · exact hk
  · refine keeps_ite ?_ ?_
    · exact hk
    · extract_lets l0 l1 l2 l3 l4 l5 l6 l7 l8 l9 l10 l11 l12
      have hl0 : Keeps s0 l0 := by
        unfold l0; apply hbmTouch_keeps; exact hk
      clear_value l0 l1 l2 l3 l4 l5 l6 l7 l8 l9
      have hl10 : Keeps s0 l10 := by
        unfold l10; apply pcSet_keeps; exact hl0
      clear_value l10
      have hl11 : Keeps s0 l11 := by
        unfold l11
        refine keeps_ite ?_ ?_
        · apply count_keeps; exact hl10
        · exact hl10
      clear_value l11
      refine keeps_ite ?_ ?_
      · apply panicUpdate_keeps; exact Keeps.mk' hl11 rfl
      · exact hl11

theorem idleSelfRefresh_keeps {s0 : State} {s : State} (hk : Keeps s0 s) : Keeps s0 (idleSelfRefresh s) := by
  unfold idleSelfRefresh
  refine keeps_ite ?_ ?_
  · exact Keeps.mk' hk rfl
  · exact hk

theorem pageTimeout_keeps {s0 : State} (pc : Nat) (bank : Nat) {s : State} (hk : Keeps s0 s) : Keeps s0
    (pageTimeout pc bank s) := by
  unfold pageTimeout
  extract_lets l0 l1; clear_value l0 l1
  refine keeps_ite ?_ ?_
  · exact hk
  · apply pcSet_keeps; exact hk

theorem readReturn_keeps {s0 : State} (pc : Nat) (syndrome : BitVec 64) (uncorrectable : Bool) {s : State} (hk
    : Keeps s0 s) : Keeps s0 (readReturn pc syndrome uncorrectable s) := by
  unfold readReturn
  extract_lets l0; clear_value l0
  split
  · exact hk
  · extract_lets l1 l2 l3
    have hl1 : Keeps s0 l1 := by
      unfold l1; apply pcSet_keeps; exact hk
    clear_value l1
    have hl3 : Keeps s0 l3 := by
      unfold l3
      refine keeps_ite ?_ ?_
      · apply panicUpdate_keeps; exact Keeps.mk' hl1 rfl
      · exact hl1
    clear_value l3
    refine keeps_ite ?_ ?_
    · apply hbmFreeze_keeps; exact hl3
    · refine keeps_ite ?_ ?_
      · apply count_keeps; exact hl3
      · exact hl3

theorem stackError_keeps {s0 : State} (parity : Bool) (pc : Nat) {s : State} (hk : Keeps s0 s) : Keeps s0
    (stackError parity pc s) := by
  unfold stackError
  apply hbmFreeze_keeps; exact hk

theorem activateClear_keeps {s0 : State} {s : State} (hk : Keeps s0 s) : Keeps s0 (activateClear s) := by
  unfold activateClear
  exact Keeps.mk' hk rfl

theorem memConfig_keeps {s0 : State} (regions : BitVec 256) (params : BitVec 128) {s : State} (hk : Keeps s0 s)
    : Keeps s0 (memConfig regions params s).2 := by
  unfold memConfig
  extract_lets l0 l1 l2 l3 l4 l5; clear_value l0 l1
  have hl2 : ∀ a0 a1, Keeps s0 a1 → Keeps s0 (l2 a0 a1) := by
    intro v6 v7 v8; unfold l2
    with_reducible refine foldl_keeps ?_ ?_
    · intro v9 v10 v11; apply hbmUndefine_keeps; exact v11
    · exact v8
  clear_value l2
  have hl3 : Keeps s0 l3 := by
    unfold l3; apply hl2; apply hl2; exact hk
  clear_value l3
  have hl5 : Keeps s0 l5 := by
    unfold l5; apply panicUpdate_keeps; exact Keeps.mk' hl3 rfl
  clear_value l5
  refine keeps_ite2 ?_ ?_
  · apply fails_keeps; exact hk
  · apply okWith_keeps; apply startFreqChange_keeps; exact hl5

theorem memDiag_keeps {s0 : State} {s : State} (hk : Keeps s0 s) : Keeps s0 (memDiag s).2 := by
  unfold memDiag
  extract_lets l0 l1; clear_value l0
  have hl1 : Keeps s0 l1.2 := by
    unfold l1; apply freeVal_keeps; exact hk
  clear_value l1
  split
  · apply okWith_keeps; exact hk
  · apply okWith_keeps; exact hl1

theorem memThaw_keeps {s0 : State} (h : Hdr) (t : Stamp) {s : State} (hk : Keeps s0 s) : Keeps s0
    (memThaw h t s).2 := by
  unfold memThaw
  extract_lets l0; clear_value l0
  refine keeps_ite2 ?_ ?_
  · apply fails_keeps; exact hk
  · refine keeps_ite2 ?_ ?_
    · apply fails_keeps; exact hk
    · refine keeps_ite2 ?_ ?_
      · apply fails_keeps; exact hk
      · refine keeps_ite2 ?_ ?_
        · apply acceptPair_keeps
          · intro v1 v2; apply memThawApply_keeps; exact v2
          · exact hk
        · apply acceptPair_keeps
          · intro v3 v4; unfold id; exact v4
          · exact hk

theorem memRead_keeps {s0 : State} (addr : BitVec 64) (length : BitVec 16) {s : State} (hk : Keeps s0 s)
    : Keeps s0 (memRead addr length s).2 := by
  unfold memRead
  extract_lets l0 l1 l2; clear_value l0 l1
  have hl2 : Keeps s0 l2 := by
    unfold l2; apply hbmTouch_keeps; exact hk
  clear_value l2
  refine keeps_ite2 ?_ ?_
  · apply fails_keeps; exact hk
  · refine keeps_ite2 ?_ ?_
    · apply fails_keeps; exact hk
    · apply okWith_keeps; exact hl2

theorem issueNeighbour_keeps {s0 : State} (pc : Nat) (bank : Nat) (row : Nat) {s : State} (hk : Keeps s0 s)
    : Keeps s0 (issueNeighbour pc bank row s) := by
  unfold issueNeighbour
  extract_lets l0 l1 l2; clear_value l0 l1 l2; apply count_keeps; apply pcSet_keeps; exact hk

theorem issueRefresh_keeps {s0 : State} (pc : Nat) {s : State} (hk : Keeps s0 s) : Keeps s0 (issueRefresh pc s) := by
  unfold issueRefresh
  extract_lets l0 l1 l2 l3 l4 l5 l6; clear_value l0 l2 l3 l4 l5
  have hl6 : Keeps s0 l6 := by
    unfold l6; apply pcSet_keeps; exact hk
  clear_value l6
  refine keeps_ite ?_ ?_
  · apply count_keeps; exact hl6
  · exact hl6

theorem issueRequest_keeps {s0 : State} (pc : Nat) (r : HbmReq) {s : State} (hk : Keeps s0 s) : Keeps s0
    (issueRequest pc r s) := by
  unfold issueRequest
  extract_lets l0 l1 l2 l3 l4 l5 l6 l7 l8 l9; clear_value l0 l1 l2 l3 l4 l5 l6
  have hl7 : Keeps s0 l7 := by
    unfold l7; apply pcSet_keeps; exact hk
  clear_value l7
  have hl8 : Keeps s0 l8 := by
    unfold l8; apply hbmWrite_keeps; exact hl7
  clear_value l8
  refine keeps_ite ?_ ?_
  · refine keeps_ite ?_ ?_
    · apply panicUpdate_keeps; exact Keeps.mk' hl8 rfl
    · exact hl8
  · exact hl7

theorem commandIssue_keeps {s0 : State} (pc : Nat) {s : State} (hk : Keeps s0 s) : Keeps s0 (commandIssue pc s) := by
  unfold commandIssue
  refine keeps_ite ?_ ?_
  · exact hk
  · refine keeps_ite ?_ ?_
    · refine keeps_ite ?_ ?_
      · exact Keeps.mk' hk rfl
      · exact hk
    · refine keeps_ite ?_ ?_
      · exact Keeps.mk' hk rfl
      · extract_lets l0 l1 l2 l3; clear_value l0 l1 l2 l3
        split
        · apply issueNeighbour_keeps; exact hk
        · refine keeps_ite ?_ ?_
          · apply issueRefresh_keeps; exact hk
          · refine keeps_ite ?_ ?_
            · apply issueRefresh_keeps; exact hk
            · split
              · apply issueRequest_keeps; exact hk
              · exact hk

theorem execMemRestore_keeps {s0 : State} (h : Hdr) {s t' : State} (hk : Keeps s0 s) (he
    : execMemRestore h s = .next t') : Keeps s0 t' := by
  unfold execMemRestore at he
  cases he
  apply serve_keeps
  · intro v0 v1; apply memRestore_keeps; exact v1
  · exact hk

theorem execRefreshInterval_keeps {s0 : State} (pc : Fin 32) {s t' : State} (hk : Keeps s0 s) (he
    : execRefreshInterval pc s = .next t') : Keeps s0 t' := by
  unfold execRefreshInterval at he
  cases he
  apply refreshInterval_keeps; exact hk

theorem execMemStatus_keeps {s0 : State} (h : Hdr) {s t' : State} (hk : Keeps s0 s) (he
    : execMemStatus h s = .next t') : Keeps s0 t' := by
  unfold execMemStatus at he
  cases he
  apply serve_keeps
  · intro v0 v1; apply okWith_keeps; exact v1
  · exact hk

theorem execMemFreeze_keeps {s0 : State} (h : Hdr) {s t' : State} (hk : Keeps s0 s) (he
    : execMemFreeze h s = .next t') : Keeps s0 t' := by
  unfold execMemFreeze at he
  cases he
  apply serve_keeps
  · intro v0 v1; apply okWith_keeps; apply hbmFreeze_keeps; exact v1
  · exact hk

theorem execHbmRequest_keeps {s0 : State} (port : Fin 5) (write : Bool) (addr : BitVec 35) (data : List Byte)
    {s t' : State} (hk : Keeps s0 s) (he : execHbmRequest port write addr data s = .next t') : Keeps s0 t' := by
  unfold execHbmRequest at he
  split at he
  · cases he
  cases he
  apply hbmRequest_keeps; exact hk

theorem execHbmReadReturn_keeps {s0 : State} (pc : Fin 32) (syndrome : BitVec 64) (uncorrectable : Bool) {s t'
    : State} (hk : Keeps s0 s) (he : execHbmReadReturn pc syndrome uncorrectable s = .next t') : Keeps s0 t' := by
  unfold execHbmReadReturn at he
  cases he
  apply readReturn_keeps; exact hk

theorem execIdleSelfRefresh_keeps {s0 : State} {s t' : State} (hk : Keeps s0 s) (he
    : execIdleSelfRefresh s = .next t') : Keeps s0 t' := by
  unfold execIdleSelfRefresh at he
  cases he
  apply idleSelfRefresh_keeps; exact hk

theorem execStackErrorReport_keeps {s0 : State} (parity : Bool) (pc : Fin 32) {s t' : State} (hk : Keeps s0 s)
    (he : execStackErrorReport parity pc s = .next t') : Keeps s0 t' := by
  unfold execStackErrorReport at he
  cases he
  apply stackError_keeps; exact hk

theorem execStackCatastrophicTemp_keeps {s0 : State} {s t' : State} (hk : Keeps s0 s) (he
    : execStackCatastrophicTemp s = .next t') : Keeps s0 t' := by
  unfold execStackCatastrophicTemp at he
  cases he
  apply hbmFreeze_keeps; exact hk

theorem execHbmFreqChangeDone_keeps {s0 : State} {s t' : State} (hk : Keeps s0 s) (he
    : execHbmFreqChangeDone s = .next t') : Keeps s0 t' := by
  unfold execHbmFreqChangeDone at he
  cases he
  apply freqChangeDone_keeps; exact hk

theorem execMemWrite_keeps {s0 : State} (h : Hdr) (addr : BitVec 64) (length : BitVec 16) (data : List Byte)
    {s t' : State} (hk : Keeps s0 s) (he : execMemWrite h addr length data s = .next t') : Keeps s0 t' := by
  unfold execMemWrite at he
  cases he
  apply serve_keeps
  · intro v0 v1; apply memWrite_keeps; exact v1
  · exact hk

theorem execMemRestoreComplete_keeps {s0 : State} (eyes8 : List (Nat × Nat)) (eyesS : List (Nat × Nat)) {s t'
    : State} (hk : Keeps s0 s) (he : execMemRestoreComplete eyes8 eyesS s = .next t') : Keeps s0 t' := by
  unfold execMemRestoreComplete at he
  cases he
  apply memRestoreComplete_keeps; exact hk

theorem execReservoirScrub_keeps {s0 : State} {s t' : State} (hk : Keeps s0 s) (he
    : execReservoirScrub s = .next t') : Keeps s0 t' := by
  unfold execReservoirScrub at he
  cases he
  apply scrubLine_keeps; exact hk

theorem execPageTimeout_keeps {s0 : State} (pc : Fin 32) (bank : Fin 48) {s t' : State} (hk : Keeps s0 s) (he
    : execPageTimeout pc bank s = .next t') : Keeps s0 t' := by
  unfold execPageTimeout at he
  cases he
  apply pageTimeout_keeps; exact hk

theorem execMemConfig_keeps {s0 : State} (h : Hdr) (regions : BitVec 256) (params : BitVec 128) {s t' : State}
    (hk : Keeps s0 s) (he : execMemConfig h regions params s = .next t') : Keeps s0 t' := by
  unfold execMemConfig at he
  cases he
  apply serve_keeps
  · intro v0 v1; apply memConfig_keeps; exact v1
  · exact hk

theorem execActivateTableClear_keeps {s0 : State} {s t' : State} (hk : Keeps s0 s) (he
    : execActivateTableClear s = .next t') : Keeps s0 t' := by
  unfold execActivateTableClear at he
  cases he
  apply activateClear_keeps; exact hk

theorem execMemThaw_keeps {s0 : State} (h : Hdr) (t : Stamp) {s t' : State} (hk : Keeps s0 s) (he
    : execMemThaw h t s = .next t') : Keeps s0 t' := by
  unfold execMemThaw at he
  cases he
  apply serve_keeps
  · intro v0 v1; apply memThaw_keeps; exact v1
  · exact hk

theorem execMemDiag_keeps {s0 : State} (h : Hdr) {s t' : State} (hk : Keeps s0 s) (he
    : execMemDiag h s = .next t') : Keeps s0 t' := by
  unfold execMemDiag at he
  cases he
  apply serve_keeps
  · intro v0 v1; apply memDiag_keeps; exact v1
  · exact hk

theorem execHbmCommandIssue_keeps {s0 : State} (pc : Fin 32) {s t' : State} (hk : Keeps s0 s) (he
    : execHbmCommandIssue pc s = .next t') : Keeps s0 t' := by
  unfold execHbmCommandIssue at he
  cases he
  apply commandIssue_keeps; exact hk

theorem execMemRead_keeps {s0 : State} (h : Hdr) (addr : BitVec 64) (length : BitVec 16) {s t' : State} (hk
    : Keeps s0 s) (he : execMemRead h addr length s = .next t') : Keeps s0 t' := by
  unfold execMemRead at he
  cases he
  apply serve_keeps
  · intro v0 v1; apply memRead_keeps; exact v1
  · exact hk

theorem fcUpdate_keeps {s0 : State} (psi : Rat) {s : State} (hk : Keeps s0 s) : Keeps s0 (fcUpdate psi s) := by
  unfold fcUpdate
  extract_lets l0 l1 l2 l3 l4; clear_value l0 l1
  have hl2 : Keeps s0 l2 := by
    unfold l2; exact Keeps.mk' hk rfl
  clear_value l2 l3 l4
  refine keeps_ite ?_ ?_
  · exact hl2
  · refine keeps_ite ?_ ?_
    · apply raiseEv_keeps; exact Keeps.mk' hl2 rfl
    · exact Keeps.mk' hl2 rfl

theorem setSlew_keeps {s0 : State} (theta : Rat) {s : State} (hk : Keeps s0 s) : Keeps s0 (setSlew theta s) := by
  unfold setSlew
  extract_lets l0 l1 l2; clear_value l0 l1
  have hl2 : Keeps s0 l2 := by
    unfold l2; exact Keeps.mk' hk rfl
  clear_value l2
  refine keeps_ite ?_ ?_
  · apply count_keeps; exact hl2
  · exact hl2

theorem setTbState_keeps {s0 : State} (st : TbState) {s : State} (hk : Keeps s0 s) : Keeps s0 (setTbState st s) := by
  unfold setTbState
  extract_lets l0 l1 l2 l3 l4; clear_value l0 l1
  have hl2 : Keeps s0 l2 := by
    unfold l2; exact Keeps.mk' hk rfl
  clear_value l2 l3
  have hl4 : Keeps s0 l4 := by
    unfold l4
    refine keeps_ite ?_ ?_
    · apply count_keeps; exact Keeps.mk' hl2 rfl
    · exact hl2
  clear_value l4
  refine keeps_ite ?_ ?_
  · exact hl4
  · apply raiseEv_keeps; exact hl4

theorem discipline_keeps {s0 : State} (theta : Rat) (m : Rat) {s : State} (hk : Keeps s0 s) : Keeps s0
    (discipline theta m s) := by
  unfold discipline
  extract_lets l0 l1 l2 l3 l4 l5 l6 l7 l8 l9 l10 l11 l12 l13 l14 l15 l16 l17 l18; clear_value l0 l1 l2 l3 l4 l5
  have hl7 : Keeps s0 l7 := by
    unfold l7; apply fcUpdate_keeps; exact Keeps.mk' hk rfl
  clear_value l7 l8 l9 l10
  have hl11 : Keeps s0 l11 := by
    unfold l11; exact Keeps.mk' hk rfl
  clear_value l12 l13
  have hl14 : Keeps s0 l14 := by
    unfold l14; exact Keeps.mk' hl11 rfl
  clear_value l15
  have hl16 : Keeps s0 l16 := by
    unfold l16; apply count_keeps; exact Keeps.mk' hl14 rfl
  clear_value l16
  have hl17 : Keeps s0 l17 := by
    unfold l17; apply raiseEv_keeps; exact hl16
  clear_value l17
  have hl18 : Keeps s0 l18 := by
    unfold l18; exact Keeps.mk' hl11 rfl
  clear_value l18
  split
  · refine keeps_ite ?_ ?_
    · exact hl7
    · refine keeps_ite ?_ ?_
      · apply setSlew_keeps; apply setTbState_keeps; exact Keeps.mk' hl7 rfl
      · refine keeps_ite ?_ ?_
        · apply setTbState_keeps; exact hl7
        · exact hl7
  · refine keeps_ite ?_ ?_
    · refine keeps_ite ?_ ?_
      · apply setTbState_keeps; exact hl17
      · refine keeps_ite ?_ ?_
        · apply setTbState_keeps; apply raiseEv_keeps; exact hl14
        · exact hl14
    · refine keeps_ite ?_ ?_
      · apply setTbState_keeps; apply raiseEv_keeps; exact hl18
      · apply setSlew_keeps; apply fcUpdate_keeps; exact hl18
  · refine keeps_ite ?_ ?_
    · exact hk
    · refine keeps_ite ?_ ?_
      · apply setSlew_keeps; apply setTbState_keeps; exact Keeps.mk' hk rfl
      · apply setTbState_keeps; exact hk
  · exact hk

theorem pulseRise_keeps {s0 : State} (pin : PinOut) (level : Bool) (at_ : Int) (w40 : Int) {s : State} (hk
    : Keeps s0 s) : Keeps s0 (pulseRise pin level at_ w40 s) := by
  unfold pulseRise
  apply emit_keeps; exact Keeps.mk' hk rfl

theorem shiftStamps_keeps {s0 : State} (d : Int) {s : State} (hk : Keeps s0 s) : Keeps s0 (shiftStamps d s) := by
  unfold shiftStamps
  extract_lets l0 l1 l2 l3 l4 l5 l6 l7 l8; clear_value l0 l3 l4 l5 l6 l8; exact Keeps.mk' hk rfl

theorem disarmAtStep_keeps {s0 : State} {s : State} (hk : Keeps s0 s) : Keeps s0 (disarmAtStep s) := by
  unfold disarmAtStep
  extract_lets l0 l1 l2 l3 l4; clear_value l0 l2 l3
  have hl4 : Keeps s0 l4 := by
    unfold l4; exact Keeps.mk' hk rfl
  clear_value l4
  refine keeps_ite ?_ ?_
  · exact hl4
  · apply raiseEv_keeps; exact hl4

theorem stepTime_keeps {s0 : State} (d : Int) {s : State} (hk : Keeps s0 s) : Keeps s0 (stepTime d s) := by
  unfold stepTime
  extract_lets l0 l1 l2 l3 l4 l5 l6
  have hl0 : Keeps s0 l0 := by
    unfold l0; apply shiftStamps_keeps; exact hk
  clear_value l0 l1
  have hl2 : Keeps s0 l2 := by
    unfold l2; apply count_keeps; exact Keeps.mk' hl0 rfl
  clear_value l2 l3 l4
  have hl5 : Keeps s0 l5 := by
    unfold l5
    refine keeps_ite ?_ ?_
    · apply raiseEv_keeps; exact Keeps.mk' hl2 rfl
    · exact hl2
  clear_value l5
  have hl6 : Keeps s0 l6 := by
    unfold l6; apply disarmAtStep_keeps; exact hl5
  clear_value l6
  refine keeps_ite ?_ ?_
  · apply setTbState_keeps; exact hl6
  · exact hl6

theorem triggerPulse_keeps {s0 : State} (k : Fin 8) {s : State} (hk : Keeps s0 s) : Keeps s0 (triggerPulse k s) := by
  unfold triggerPulse
  split
  · exact hk
  · extract_lets l0 l1 l2 l3 l4 l5; clear_value l0
    have hl1 : Keeps s0 l1 := by
      unfold l1
      refine keeps_ite ?_ ?_
      · apply advanceToTime_keeps; exact hk
      · exact hk
    clear_value l1 l2 l3 l4
    have hl5 : Keeps s0 l5 := by
      unfold l5; exact Keeps.mk' hl1 rfl
    clear_value l5
    refine keeps_ite ?_ ?_
    · apply pulseRise_keeps; exact hl5
    · exact hl5

theorem tbLose_keeps {s0 : State} {s : State} (hk : Keeps s0 s) : Keeps s0 (tbLose s) := by
  unfold tbLose
  refine keeps_ite ?_ ?_
  · apply setTbState_keeps; exact hk
  · exact hk

theorem setRatio_keeps {s0 : State} (lin : Nat) (r : BitVec 48) {s : State} (hk : Keeps s0 s) : Keeps s0
    (setRatio lin r s) := by
  unfold setRatio
  exact Keeps.mk' hk rfl

theorem formRatio_keeps {s0 : State} {s : State} (hk : Keeps s0 s) : Keeps s0 (formRatio s) := by
  unfold formRatio
  extract_lets l0 l1 l2 l3; clear_value l0
  have hl1 : Keeps s0 l1 := by
    unfold l1
    refine keeps_ite ?_ ?_
    · apply count_keeps; exact hk
    · exact hk
  clear_value l1 l2
  have hl3 : Keeps s0 l3 := by
    unfold l3
    refine keeps_ite ?_ ?_
    · exact hl1
    · apply setRatio_keeps; exact hl1
  clear_value l3; apply makeVerdict_keeps; exact hl3

theorem timeAsymmetry_keeps {s0 : State} (port : BitVec 8) (a : BitVec 64) {s : State} (hk : Keeps s0 s)
    : Keeps s0 (timeAsymmetry port a s).2 := by
  unfold timeAsymmetry
  refine keeps_ite2 ?_ ?_
  · apply fails_keeps; exact hk
  · apply okWith_keeps; exact Keeps.mk' hk rfl

theorem triggerArm_keeps {s0 : State} (pin : BitVec 8) (pol : BitVec 8) (count : BitVec 16) (width : BitVec 32)
    (t : TInst) (period : BitVec 64) {s : State} (hk : Keeps s0 s) : Keeps s0
    (triggerArm pin pol count width t period s).2 := by
  unfold triggerArm
  extract_lets l0 l1 l2 l3; clear_value l0 l1 l2 l3
  refine keeps_ite2 ?_ ?_
  · apply fails_keeps; exact hk
  · refine keeps_ite2 ?_ ?_
    · apply fails_keeps; exact hk
    · apply okWith_keeps; exact Keeps.mk' hk rfl

theorem triggerDisarm_keeps {s0 : State} (pin : BitVec 8) {s : State} (hk : Keeps s0 s) : Keeps s0
    (triggerDisarm pin s).2 := by
  unfold triggerDisarm
  refine keeps_ite2 ?_ ?_
  · apply fails_keeps; exact hk
  · apply okWith_keeps; exact Keeps.mk' hk rfl

theorem timeStatus_keeps {s0 : State} {s : State} (hk : Keeps s0 s) : Keeps s0 (timeStatus s).2 := by
  unfold timeStatus
  extract_lets l0 l1 l2 l3; clear_value l0
  have hl1 : Keeps s0 l1.2 := by
    unfold l1; apply freeVal_keeps; exact hk
  clear_value l1
  have hl2 : Keeps s0 l2.2 := by
    unfold l2
    split
    · dsimp only
      exact hk
    · dsimp only
      exact hl1
  clear_value l2
  have hl3 : Keeps s0 l3 := by
    unfold l3; exact hl2
  clear_value l3; apply okWith_keeps; exact hl3

theorem stepNow_keeps {s0 : State} (d : Int) {s : State} (hk : Keeps s0 s) : Keeps s0 (stepNow d s) := by
  unfold stepNow
  extract_lets l0 l1 l2
  have hl0 : Keeps s0 l0 := by
    unfold l0; apply stepTime_keeps; exact hk
  clear_value l0 l1 l2; exact Keeps.mk' hl0 rfl

theorem applyAsymmetry_keeps {s0 : State} {s : State} (hk : Keeps s0 s) : Keeps s0 (applyAsymmetry s) := by
  unfold applyAsymmetry
  extract_lets l0 l1; clear_value l0 l1; exact Keeps.mk' hk rfl

theorem pulseEnd_keeps {s0 : State} (pin : PinOut) {s : State} (hk : Keeps s0 s) : Keeps s0 (pulseEnd pin s) := by
  unfold pulseEnd
  split
  · exact hk
  · extract_lets l0 l1 l2; clear_value l0
    have hl1 : Keeps s0 l1 := by
      unfold l1
      refine keeps_ite ?_ ?_
      · apply advanceToTime_keeps; exact hk
      · exact hk
    clear_value l1 l2; apply emit_keeps; exact Keeps.mk' hl1 rfl

theorem holdoverLimit_keeps {s0 : State} {s : State} (hk : Keeps s0 s) : Keeps s0 (holdoverLimit s) := by
  unfold holdoverLimit
  refine keeps_ite ?_ ?_
  · apply raiseEv_keeps; exact Keeps.mk' hk rfl
  · exact hk

theorem toWholeSecond_keeps {s0 : State} {s : State} (hk : Keeps s0 s) : Keeps s0 (toWholeSecond s) := by
  unfold toWholeSecond
  extract_lets l0; clear_value l0
  refine keeps_ite ?_ ?_
  · apply advanceToTime_keeps; exact hk
  · exact hk

theorem secondClose_keeps {s0 : State} {s : State} (hk : Keeps s0 s) : Keeps s0 (secondClose s) := by
  unfold secondClose
  refine keeps_ite ?_ ?_
  · exact hk
  · extract_lets l0 l1 l2 l3 l4 l5 l6 l7 l8 l9 l10 l11 l12 l13 l14 l15 l16 l17 l18
    have hl0 : Keeps s0 l0 := by
      unfold l0; apply toWholeSecond_keeps; exact hk
    have hl2 : Keeps s0 l2 := by
      unfold l2; exact Keeps.mk' hl0 rfl
    have hl9 : Keeps s0 l9 := by
      unfold l9
      refine keeps_ite ?_ ?_
      · exact Keeps.mk' hl2 rfl
      · apply discipline_keeps; exact Keeps.mk' hl2 rfl
    have hl10 : Keeps s0 l10 := by
      unfold l10
      refine keeps_ite ?_ ?_
      · apply setTbState_keeps; exact hl9
      · exact hl9
    have hl11 : Keeps s0 l11 := by
      unfold l11
      refine keeps_ite ?_ ?_
      · apply goUnfit_keeps; exact hl10
      · exact hl10
    have hl14 : Keeps s0 l14 := by
      unfold l14; apply applyAsymmetry_keeps; exact Keeps.mk' hl11 rfl
    have hl18 : Keeps s0 l18 := by
      unfold l18; exact Keeps.mk' hl14 rfl
    refine keeps_ite ?_ ?_
    · apply pulseRise_keeps; exact hl18
    · exact hl18

theorem timeConfig_keeps {s0 : State} (params : BitVec 512) {s : State} (hk : Keeps s0 s) : Keeps s0
    (timeConfig params s).2 := by
  unfold timeConfig
  refine keeps_ite2 ?_ ?_
  · apply fails_keeps; exact hk
  · refine keeps_ite2 ?_ ?_
    · apply fails_keeps; exact hk
    · apply accept_keeps
      · intro v0 v1; unfold id; exact v1
      · exact hk

theorem timeStep_keeps {s0 : State} (h : Hdr) (b : Stamp) (sixteenths' : BitVec 16) (ns : BitVec 32) (seconds
    : BitVec 48) {s : State} (hk : Keeps s0 s) : Keeps s0 (timeStep h b sixteenths' ns seconds s).2 := by
  unfold timeStep
  refine keeps_ite2 ?_ ?_
  · apply fails_keeps; exact hk
  · extract_lets l0 l1 l2 l3; clear_value l0 l1
    have hl3 : Keeps s0 l3 := by
      unfold l3; exact Keeps.mk' hk rfl
    clear_value l3
    refine keeps_ite2 ?_ ?_
    · apply fails_keeps; exact hk
    · refine keeps_ite2 ?_ ?_
      · apply acceptPair_keeps
        · intro v4 v5; apply stepNow_keeps; exact v5
        · exact hk
      · apply acceptPair_keeps
        · intro v6 v7; unfold id; exact v7
        · refine keeps_ite ?_ ?_
          · exact hk
          · exact hl3

theorem execTriggerPulse_keeps {s0 : State} (pin : Fin 8) {s t' : State} (hk : Keeps s0 s) (he
    : execTriggerPulse pin s = .next t') : Keeps s0 t' := by
  unfold execTriggerPulse at he
  cases he
  apply triggerPulse_keeps; exact hk

theorem execTimeAsymmetry_keeps {s0 : State} (h : Hdr) (port : BitVec 8) (a : BitVec 64) {s t' : State} (hk
    : Keeps s0 s) (he : execTimeAsymmetry h port a s = .next t') : Keeps s0 t' := by
  unfold execTimeAsymmetry at he
  cases he
  apply serve_keeps
  · intro v0 v1; apply timeAsymmetry_keeps; exact v1
  · exact hk

theorem execTriggerArm_keeps {s0 : State} (h : Hdr) (pin : BitVec 8) (pol : BitVec 8) (count : BitVec 16) (width
    : BitVec 32) (t : TInst) (period : BitVec 64) {s t' : State} (hk : Keeps s0 s) (he
    : execTriggerArm h pin pol count width t period s = .next t') : Keeps s0 t' := by
  unfold execTriggerArm at he
  cases he
  apply serve_keeps
  · intro v0 v1; apply triggerArm_keeps; exact v1
  · exact hk

theorem execTimeOutputPulseEnd_keeps {s0 : State} (pin : PinOut) {s t' : State} (hk : Keeps s0 s) (he
    : execTimeOutputPulseEnd pin s = .next t') : Keeps s0 t' := by
  unfold execTimeOutputPulseEnd at he
  cases he
  apply pulseEnd_keeps; exact hk

theorem execTimeStatus_keeps {s0 : State} (h : Hdr) {s t' : State} (hk : Keeps s0 s) (he
    : execTimeStatus h s = .next t') : Keeps s0 t' := by
  unfold execTimeStatus at he
  cases he
  apply serve_keeps
  · intro v0 v1; apply timeStatus_keeps; exact v1
  · exact hk

theorem execSecondClose_keeps {s0 : State} {s t' : State} (hk : Keeps s0 s) (he : execSecondClose s = .next t')
    : Keeps s0 t' := by
  unfold execSecondClose at he
  cases he
  apply secondClose_keeps; exact hk

theorem execTimeConfig_keeps {s0 : State} (h : Hdr) (params : BitVec 512) {s t' : State} (hk : Keeps s0 s) (he
    : execTimeConfig h params s = .next t') : Keeps s0 t' := by
  unfold execTimeConfig at he
  cases he
  apply serve_keeps
  · intro v0 v1; apply timeConfig_keeps; exact v1
  · exact hk

theorem execHoldoverLimit_keeps {s0 : State} {s t' : State} (hk : Keeps s0 s) (he
    : execHoldoverLimit s = .next t') : Keeps s0 t' := by
  unfold execHoldoverLimit at he
  cases he
  apply holdoverLimit_keeps; exact hk

theorem execTimeStep_keeps {s0 : State} (h : Hdr) (b : Stamp) (sixteenths' : BitVec 16) (ns : BitVec 32) (seconds
    : BitVec 48) {s t' : State} (hk : Keeps s0 s) (he : execTimeStep h b sixteenths' ns seconds s = .next t')
    : Keeps s0 t' := by
  unfold execTimeStep at he
  cases he
  apply serve_keeps
  · intro v0 v1; apply timeStep_keeps; exact v1
  · exact hk

theorem execTriggerDisarm_keeps {s0 : State} (h : Hdr) (pin : BitVec 8) {s t' : State} (hk : Keeps s0 s) (he
    : execTriggerDisarm h pin s = .next t') : Keeps s0 t' := by
  unfold execTriggerDisarm at he
  cases he
  apply serve_keeps
  · intro v0 v1; apply triggerDisarm_keeps; exact v1
  · exact hk

end Sys2Proof.Machine
end

