-- ==== Sys2Proof/Laws/KeepFront.lean ====
section
/-! SUPPORT. Fronthaul, operands, layers, sections and egress: each operation keeps what `Keeps` says (`f_keeps` is the lemma of `f`). -/

namespace Sys2Proof.Machine

theorem portUp_keeps {s0 : State} (p : Nat) {s : State} (hk : Keeps s0 s) : Keeps s0 (portUp p s) := by
  unfold portUp
  extract_lets l0; clear_value l0
  refine keeps_ite ?_ ?_
  · apply raiseEv_keeps; apply portSet_keeps; exact hk
  · exact hk

theorem delayDiscard_keeps {s0 : State} (p : Nat) {s : State} (hk : Keeps s0 s) : Keeps s0 (delayDiscard p s) := by
  unfold delayDiscard
  apply count_keeps; exact hk

theorem delayMessage_keeps {s0 : State} (p : Nat) (src : Mac) (rx : Int) (l : List Byte) {s : State} (hk
    : Keeps s0 s) : Keeps s0 (delayMessage p src rx l s) := by
  unfold delayMessage
  refine keeps_ite ?_ ?_
  · apply count_keeps; exact hk
  · refine keeps_ite ?_ ?_
    · apply delayDiscard_keeps; exact hk
    · extract_lets l0 l1 l2 l3 l4; clear_value l0 l1 l2 l3 l4
      refine keeps_ite ?_ ?_
      · apply macSend_keeps; apply portSet_keeps; exact hk
      · refine keeps_ite ?_ ?_
        · apply macSend_keeps; apply portSet_keeps; exact hk
        · refine keeps_ite ?_ ?_
          · apply raiseEv_keeps; apply portSet_keeps; exact hk
          · apply delayDiscard_keeps; exact hk

theorem forwardArrival_keeps {s0 : State} (p : Nat) (stamp : Int) (frame : List Byte) {s : State} (hk
    : Keeps s0 s) : Keeps s0 (forwardArrival p stamp frame s) := by
  unfold forwardArrival
  apply sendTwLead_keeps; exact hk

theorem messageArrive_keeps {s0 : State} (shadow : Bool) (p t : Nat) (stamp : Int) (l frame : List Byte) {s
    : State} (hk : Keeps s0 s) : Keeps s0 (messageArrive shadow p t stamp l frame s) := by
  have key : ∀ r : Bool × State, Keeps s0 r.2 → Keeps s0 (if r.1 && !shadow then forwardArrival p stamp frame r.2 else r.2) :=
    fun r h => keeps_ite (forwardArrival_keeps _ _ _ h) h
  unfold messageArrive
  refine keeps_ite (count_keeps _ _ hk) (keeps_ite (count_keeps _ _ hk) ?_)
  exact key _ (admit_keeps _ _ _ _ hk)

theorem ecpriFrame_keeps {s0 : State} (f : RxFrame) (e : EthParts) {s : State} (hk : Keeps s0 s) : Keeps s0
    (ecpriFrame f e s) := by
  unfold ecpriFrame
  extract_lets l0; clear_value l0
  split
  · apply count_keeps; exact hk
  · refine keeps_ite ?_ ?_
    · apply delayMessage_keeps; exact hk
    · apply messageArrive_keeps; exact hk

theorem managementEntry_keeps {s0 : State} (p : Nat) (e : EthParts) {s : State} (hk : Keeps s0 s) : Keeps s0
    (managementEntry p e s) := by
  unfold managementEntry
  extract_lets l0 l1 l2; clear_value l0 l1 l2
  refine keeps_ite ?_ ?_
  · apply count_keeps; exact hk
  · apply inbandArrive_keeps; exact hk

theorem storeRaw_keeps {s0 : State} (slot : Nat) (dev : Nat) (c : Nat) (l : Nat) (lin : Nat) (accSh : Int) (taint
    : Bool) (x : AccSection) {s : State} (hk : Keeps s0 s) : Keeps s0 (storeRaw slot dev c l lin accSh taint x s) := by
  unfold storeRaw
  extract_lets l0 l1; clear_value l0 l1; apply countBy_keeps; apply resTaint_keeps; apply resWrite_keeps; exact hk

theorem fileAccord_keeps {s0 : State} (p : Nat) (slot : Nat) (dev : Nat) (c : Nat) (l : Nat) (beat : Stamp) (late
    : Bool) (accSh : Int) (taint : Bool) (x : AccSection) {s : State} (hk : Keeps s0 s) : Keeps s0
    (fileAccord p slot dev c l beat late accSh taint x s) := by
  unfold fileAccord
  extract_lets l0 l1 l2; clear_value l0 l1 l2
  refine keeps_ite ?_ ?_
  · apply count_keeps; exact hk
  · refine keeps_ite ?_ ?_
    · apply count_keeps; exact hk
    · apply storeRaw_keeps; exact Keeps.mk' hk rfl

theorem accordFrame_keeps {s0 : State} (shadow : Bool) (p : Nat) (stamp : Int) (e : EthParts) (frame : List Byte)
    {s : State} (hk : Keeps s0 s) : Keeps s0 (accordFrame shadow p stamp e frame s) := by
  unfold accordFrame
  extract_lets l0 l1 l2 l3 l4 l5 l6 l7 l8 l9 l10 l11 l12 l13; clear_value l0 l1 l2 l3 l4 l5 l6 l7 l8 l9 l10 l11 l12 l13
  split
  · apply count_keeps; exact hk
  · refine keeps_ite ?_ ?_
    · apply count_keeps; exact hk
    · refine keeps_ite ?_ ?_
      · apply count_keeps; exact hk
      · refine keeps_ite ?_ ?_
        · refine keeps_ite ?_ ?_
          · exact hk
          · apply discardArrival_keeps; exact hk
        · refine keeps_ite ?_ ?_
          · apply countBy_keeps; exact hk
          · extract_lets l14
            have hl14 : Keeps s0 l14 := by
              unfold l14
              with_reducible refine foldl_keeps ?_ ?_
              · intro v15 v16 v17; apply fileAccord_keeps; exact v17
              · exact hk
            clear_value l14
            refine keeps_ite ?_ ?_
            · exact hl14
            · apply forwardArrival_keeps; exact hl14

theorem frameReceive_keeps {s0 : State} (f : RxFrame) (ptp : PtpUse) (hp : ∀ s, Keeps s0 s → Keeps s0 (ptp f s))
    {s : State} (hk : Keeps s0 s) : Keeps s0 (frameReceive f ptp s) := by
  unfold frameReceive
  extract_lets l0 l1 l2 l3; clear_value l0 l1 l2
  have hl3 : Keeps s0 l3 := by
    unfold l3; apply countBy_keeps; apply count_keeps; exact hk
  clear_value l3
  refine keeps_ite ?_ ?_
  · exact hk
  · refine keeps_ite ?_ ?_
    · apply count_keeps; exact hk
    · refine keeps_ite ?_ ?_
      · apply count_keeps; exact hk
      · refine keeps_ite ?_ ?_
        · apply ecpriFrame_keeps; exact hl3
        · refine keeps_ite ?_ ?_
          · apply managementEntry_keeps; exact hl3
          · refine keeps_ite ?_ ?_
            · apply accordFrame_keeps; exact hl3
            · apply hp; exact hl3

theorem ptpUse_keeps {s0 : State} (m : PtpMsg) (use : State → State) (hu : ∀ s, Keeps s0 s → Keeps s0 (use s)) (f : RxFrame)
    {s : State} (hk : Keeps s0 s) : Keeps s0 (ptpUse m use f s) := by
  unfold ptpUse
  dsimp only
  exact keeps_ite (hu _ (count_keeps _ _ hk)) (count_keeps _ _ hk)
theorem ptpDiscard_keeps {s0 : State} (f : RxFrame)
    {s : State} (hk : Keeps s0 s) : Keeps s0 (ptpDiscard f s) := by
  exact count_keeps _ _ hk

theorem portDown_keeps {s0 : State} (p : Nat) (hiSer : Bool) {s : State} (hk : Keeps s0 s) : Keeps s0
    (portDown p hiSer s) := by
  unfold portDown
  extract_lets l0; clear_value l0
  refine keeps_ite ?_ ?_
  · apply raiseEv_keeps; apply count_keeps; apply portSet_keeps; exact hk
  · refine keeps_ite ?_ ?_
    · exact hk
    · apply portSet_keeps; exact hk

theorem applyPortConfig_keeps {s0 : State} (p : Nat) (w : BitVec 128) {s : State} (hk : Keeps s0 s) : Keeps s0
    (applyPortConfig p w s) := by
  unfold applyPortConfig
  extract_lets l0 l1 l2 l3 l4 l5; clear_value l0 l1 l2 l3
  have hl4 : Keeps s0 l4 := by
    unfold l4; exact Keeps.mk' hk rfl
  clear_value l4 l5
  refine keeps_ite ?_ ?_
  · exact hl4
  · apply portSet_keeps; exact hl4

theorem portConfig_keeps {s0 : State} (port : BitVec 8) (word : BitVec 128) {s : State} (hk : Keeps s0 s)
    : Keeps s0 (portConfig port word s).2 := by
  unfold portConfig
  extract_lets l0; clear_value l0
  refine keeps_ite2 ?_ ?_
  · apply fails_keeps; exact hk
  · refine keeps_ite2 ?_ ?_
    · apply fails_keeps; exact hk
    · refine keeps_ite2 ?_ ?_
      · apply fails_keeps; exact hk
      · apply accept_keeps
        · intro v1 v2; unfold id; exact v2
        · exact hk

theorem execPortUp_keeps {s0 : State} (port : Fin 6) {s t' : State} (hk : Keeps s0 s) (he
    : execPortUp port s = .next t') : Keeps s0 t' := by
  unfold execPortUp at he
  cases he
  apply portUp_keeps; exact hk

theorem execPortDown_keeps {s0 : State} (port : Fin 6) (hiSer : Bool) {s t' : State} (hk : Keeps s0 s) (he
    : execPortDown port hiSer s = .next t') : Keeps s0 t' := by
  unfold execPortDown at he
  cases he
  apply portDown_keeps; exact hk

theorem execAccordExchangeFrame_keeps {s0 : State} (f : RxFrame) {s t' : State} (hk : Keeps s0 s) (he
    : execAccordExchangeFrame f s = .next t') : Keeps s0 t' := by
  unfold execAccordExchangeFrame at he
  cases he
  apply frameReceive_keeps
  · intro v0 v1; apply ptpDiscard_keeps; exact v1
  · exact hk

theorem execPortStatus_keeps {s0 : State} (h : Hdr) {s t' : State} (hk : Keeps s0 s) (he
    : execPortStatus h s = .next t') : Keeps s0 t' := by
  unfold execPortStatus at he
  cases he
  apply serve_keeps
  · intro v0 v1; apply okWith_keeps; exact v1
  · exact hk

theorem execEcpriIqSection_keeps {s0 : State} (f : RxFrame) {s t' : State} (hk : Keeps s0 s) (he
    : execEcpriIqSection f s = .next t') : Keeps s0 t' := by
  unfold execEcpriIqSection at he
  cases he
  apply frameReceive_keeps
  · intro v0 v1; apply ptpDiscard_keeps; exact v1
  · exact hk

theorem execPortConfig_keeps {s0 : State} (h : Hdr) (port : BitVec 8) (word : BitVec 128) {s t' : State} (hk
    : Keeps s0 s) (he : execPortConfig h port word s = .next t') : Keeps s0 t' := by
  unfold execPortConfig at he
  cases he
  apply serve_keeps
  · intro v0 v1; apply portConfig_keeps; exact v1
  · exact hk

theorem execEcpriDelayMeasurement_keeps {s0 : State} (f : RxFrame) {s t' : State} (hk : Keeps s0 s) (he
    : execEcpriDelayMeasurement f s = .next t') : Keeps s0 t' := by
  unfold execEcpriDelayMeasurement at he
  cases he
  apply frameReceive_keeps
  · intro v0 v1; apply ptpDiscard_keeps; exact v1
  · exact hk

theorem execMacFrameReject_keeps {s0 : State} (f : RxFrame) {s t' : State} (hk : Keeps s0 s) (he
    : execMacFrameReject f s = .next t') : Keeps s0 t' := by
  unfold execMacFrameReject at he
  cases he
  apply frameReceive_keeps
  · intro v0 v1; apply ptpDiscard_keeps; exact v1
  · exact hk

theorem execEcpriRtControl_keeps {s0 : State} (f : RxFrame) {s t' : State} (hk : Keeps s0 s) (he
    : execEcpriRtControl f s = .next t') : Keeps s0 t' := by
  unfold execEcpriRtControl at he
  cases he
  apply frameReceive_keeps
  · intro v0 v1; apply ptpDiscard_keeps; exact v1
  · exact hk

theorem execManagementFrame_keeps {s0 : State} (f : RxFrame) {s t' : State} (hk : Keeps s0 s) (he
    : execManagementFrame f s = .next t') : Keeps s0 t' := by
  unfold execManagementFrame at he
  cases he
  apply frameReceive_keeps
  · intro v0 v1; apply ptpDiscard_keeps; exact v1
  · exact hk

theorem clSet_keeps {s0 : State} (k : Nat) (c : Cluster) {s : State} (hk : Keeps s0 s) : Keeps s0 (clSet k c s) := by
  unfold clSet
  exact Keeps.mk' hk rfl

theorem cellStore_keeps {s0 : State} (k : Nat) (y : Bool) (cell : Nat) (v : Cell) {s : State} (hk : Keeps s0 s)
    : Keeps s0 (cellStore k y cell v s) := by
  unfold cellStore
  extract_lets l0; clear_value l0; apply clSet_keeps; exact hk

theorem ctxSet_keeps {s0 : State} (k : Nat) (bg : Bool) (c : Ctx) {s : State} (hk : Keeps s0 s) : Keeps s0
    (ctxSet k bg c s) := by
  unfold ctxSet
  apply clSet_keeps; exact hk

theorem postModifies_keeps {s0 : State} (k : Nat) (bg : Bool) (raw : Bool) (w : AeW) {s : State} (hk
    : Keeps s0 s) : Keeps s0 (postModifies k bg raw w s) := by
  unfold postModifies
  extract_lets l0 l1; clear_value l0 l1; apply ctxSet_keeps; exact hk

theorem rangeError_keeps {s0 : State} (k : Nat) (bg : Bool) (y : Bool) (cell : Nat) (pc : Nat) {s : State} (hk
    : Keeps s0 s) : Keeps s0 (rangeError k bg y cell pc s) := by
  unfold rangeError
  apply raiseErr_keeps; exact hk

theorem markTaint_keeps {s0 : State} (k : Nat) {s : State} (hk : Keeps s0 s) : Keeps s0 (markTaint k s) := by
  unfold markTaint
  refine keeps_ite ?_ ?_
  · exact hk
  · exact Keeps.mk' hk rfl

theorem cellWrite_keeps {s0 : State} (k : Nat) (bg : Bool) (y : Bool) (pc : Nat) (cell : Nat) (v : Cell) {s
    : State} (hk : Keeps s0 s) : Keeps s0 (cellWrite k bg y pc cell v s) := by
  unfold cellWrite
  refine keeps_ite ?_ ?_
  · apply rangeError_keeps; exact hk
  · refine keeps_ite ?_ ?_
    · apply cellStore_keeps; exact hk
    · extract_lets l0 l1 l2
      have hl0 : Keeps s0 l0 := by
        unfold l0
        refine keeps_ite ?_ ?_
        · apply markTaint_keeps; exact hk
        · exact hk
      clear_value l0 l1
      have hl2 : ∀ a0, Keeps s0 a0 → Keeps s0 (l2 a0) := by
        intro v3 v4; unfold l2
        refine keeps_ite ?_ ?_
        · exact v4
        · apply clSet_keeps; exact v4
      clear_value l2
      split
      · refine keeps_ite ?_ ?_
        · apply clSet_keeps; exact hl0
        · apply cellStore_keeps
          refine keeps_ite ?_ ?_
          · apply hl2; exact hl0
          · exact hl0
      · apply cellStore_keeps; apply hl2; exact hl0

theorem cellsWrite_keeps {s0 : State} (k : Nat) (bg : Bool) (y : Bool) (pc : Nat) (l : List (Nat × Cell)) {s
    : State} (hk : Keeps s0 s) : Keeps s0 (cellsWrite k bg y pc l s) := by
  unfold cellsWrite
  with_reducible refine foldl_keeps ?_ ?_
  · intro v0 v1 v2; apply cellWrite_keeps; exact v2
  · exact hk

theorem aeExec_keeps {s0 : State} (op : Nat) (k : Nat) (bg : Bool) (w : AeW) (acc : Access) (cost : Cost) (body
    : Nat → State → State) (after : Ctx → Ctx) {s : State} (hbody : ∀ j s, Keeps s0 s → Keeps s0 (body j s)) (hk
    : Keeps s0 s) : Keeps s0 (aeExec op k bg w acc cost body after s) := by
  unfold aeExec
  refine keeps_ite ?_ ?_
  · exact hk
  · extract_lets l0 l1; clear_value l0
    have hl1 : Keeps s0 l1 := by
      unfold l1
      with_reducible refine foldl_keeps ?_ ?_
      · intro v2 v3 v4; apply hbody; exact v4
      · exact hk
    clear_value l1
    refine keeps_ite ?_ ?_
    · with_reducible refine foldl_keeps ?_ ?_
      · intro v5 v6 v7; apply count_keeps; exact v7
      · exact hk
    · with_reducible refine foldl_keeps ?_ ?_
      · intro v8 v9 v10; apply ctxSet_keeps; exact v10
      · exact hl1

theorem cellDeliver_keeps {s0 : State} (k : Nat) (bg y : Bool) (cell : Nat) {s : State} (hk : Keeps s0 s)
    : Keeps s0 (cellDeliver k bg y cell s).2 := by
  unfold cellDeliver
  dsimp only
  split
  · exact hk
  · split
    · exact count_keeps _ _ (cellStore_keeps _ _ _ _ hk)
    · dsimp only
      exact raiseErr_keeps _ _ _ _ _ (count_keeps _ _ (fresh_keeps hk))

theorem cellRead_keeps {s0 : State} (k : Nat) (bg : Bool) (y : Bool) (pc : Nat) (cell : Nat) {s : State} (hk
    : Keeps s0 s) : Keeps s0 (cellRead k bg y pc cell s).2 := by
  unfold cellRead
  refine keeps_ite2 ?_ ?_
  · dsimp only
    apply rangeError_keeps; exact hk
  · extract_lets l0
    have hl0 : Keeps s0 l0.2 := by
      unfold l0
      split
      · dsimp only
        exact hk
      · apply cellDeliver_keeps; exact hk
    clear_value l0; dsimp only
    refine keeps_ite ?_ ?_
    · apply markTaint_keeps; exact hl0
    · exact hl0

theorem cellsRead_keeps {s0 : State} (k : Nat) (bg : Bool) (y : Bool) (pc : Nat) (l : List Nat) {s : State} (hk
    : Keeps s0 s) : Keeps s0 (cellsRead k bg y pc l s).2 := by
  unfold cellsRead
  with_reducible refine foldl_keeps2 ?_ ?_
  · intro v0 v1 v2; extract_lets l3
    have hl3 : Keeps s0 l3.2 := by
      unfold l3; apply cellRead_keeps; exact v2
    clear_value l3; dsimp only; exact hl3
  · dsimp only
    exact hk

theorem accAll_keeps {s0 : State} (k : Nat) (bg : Bool) (a : Nat) (f : Nat → Acc) {s : State} (hk : Keeps s0 s)
    : Keeps s0 (accAll k bg a f s) := by
  unfold accAll
  extract_lets l0; clear_value l0; apply ctxSet_keeps; exact hk

theorem addVersion_keeps {s0 : State} (host : Bool) (c : Nat) (l : Nat) (lin : Nat) (v : Stamp) {s : State} (hk
    : Keeps s0 s) : Keeps s0 (addVersion host c l lin v s) := by
  unfold addVersion
  extract_lets l0 l1 l2; clear_value l0 l1 l2; exact Keeps.mk' hk rfl

theorem commitVersion_keeps {s0 : State} (c : Nat) (lin : Nat) {s : State} (hk : Keeps s0 s) : Keeps s0
    (commitVersion c lin s) := by
  unfold commitVersion
  refine keeps_ite ?_ ?_
  · exact hk
  · with_reducible refine foldl_keeps ?_ ?_
    · intro v0 v1 v2; extract_lets l3; clear_value l3
      refine keeps_ite ?_ ?_
      · apply addVersion_keeps; exact v2
      · exact v2
    · exact hk

theorem dropVersions_keeps {s0 : State} {s : State} (hk : Keeps s0 s) : Keeps s0 (dropVersions s) := by
  unfold dropVersions
  exact Keeps.mk' hk rfl

theorem applySounding_keeps {s0 : State} (b : Stamp) {s : State} (hk : Keeps s0 s) : Keeps s0 (applySounding b s) := by
  unfold applySounding
  extract_lets l0 l1 l2; clear_value l0 l1
  have hl2 : Keeps s0 l2 := by
    unfold l2; exact Keeps.mk' hk rfl
  clear_value l2
  with_reducible refine foldl_keeps ?_ ?_
  · intro v3 v4 v5
    refine keeps_ite ?_ ?_
    · with_reducible refine foldl_keeps ?_ ?_
      · intro v6 v7 v8; apply resWrite_keeps; exact v8
      · exact v5
    · exact v5
  · exact hl2

theorem stageSounding_keeps {s0 : State} (b : Stamp) (seq : BitVec 8) (final : Bool) (offset : BitVec 16) (data
    : List Byte) {s : State} (hk : Keeps s0 s) : Keeps s0 (stageSounding b seq final offset data s) := by
  unfold stageSounding
  extract_lets l0 l1 l2 l3; clear_value l0 l1 l2 l3; exact Keeps.mk' hk rfl

theorem soundingTable_keeps {s0 : State} (h : Hdr) (b : Stamp) (seq : BitVec 8) (final : BitVec 8) (offset
    : BitVec 16) (data : List Byte) {s : State} (hk : Keeps s0 s) : Keeps s0
    (soundingTable h b seq final offset data s).2 := by
  unfold soundingTable
  refine keeps_ite2 ?_ ?_
  · apply fails_keeps; exact hk
  · extract_lets l0; clear_value l0
    refine keeps_ite2 ?_ ?_
    · apply fails_keeps; exact hk
    · refine keeps_ite2 ?_ ?_
      · apply fails_keeps; exact hk
      · refine keeps_ite2 ?_ ?_
        · apply acceptPair_keeps
          · intro v1 v2; unfold id; exact v2
          · exact hk
        · dsimp only
          apply stageSounding_keeps; exact hk

theorem applyLayerConfig_keeps {s0 : State} (items : List LayerItem) {s : State} (hk : Keeps s0 s) : Keeps s0
    (applyLayerConfig items s) := by
  unfold applyLayerConfig
  extract_lets l0 l1 l2 l3; clear_value l0 l1 l2 l3; exact Keeps.mk' hk rfl

theorem applyLayerWeights_keeps {s0 : State} (carrier : BitVec 8) (layer : BitVec 8) (firstQ : BitVec 16) (w
    : List (BitVec 32)) (b : Stamp) {s : State} (hk : Keeps s0 s) : Keeps s0
    (applyLayerWeights carrier layer firstQ w b s) := by
  unfold applyLayerWeights
  extract_lets l0 l1 l2; clear_value l0 l1 l2; apply addVersion_keeps; exact Keeps.mk' hk rfl

theorem layerWeights_keeps {s0 : State} (h : Hdr) (b : Stamp) (carrier : BitVec 8) (layer : BitVec 8) (firstQ
    : BitVec 16) (nq : BitVec 16) (w : List (BitVec 32)) {s : State} (hk : Keeps s0 s) : Keeps s0
    (layerWeights h b carrier layer firstQ nq w s).2 := by
  unfold layerWeights
  refine keeps_ite2 ?_ ?_
  · apply fails_keeps; exact hk
  · extract_lets l0; clear_value l0
    refine keeps_ite2 ?_ ?_
    · apply fails_keeps; exact hk
    · apply acceptPair_keeps
      · intro v1 v2; unfold id; exact v2
      · exact hk

theorem layerConfig_keeps {s0 : State} (h : Hdr) (b : Stamp) (items : List LayerItem) {s : State} (hk
    : Keeps s0 s) : Keeps s0 (layerConfig h b items s).2 := by
  unfold layerConfig
  refine keeps_ite2 ?_ ?_
  · apply fails_keeps; exact hk
  · extract_lets l0 l1; clear_value l0 l1
    refine keeps_ite2 ?_ ?_
    · apply fails_keeps; exact hk
    · refine keeps_ite2 ?_ ?_
      · apply fails_keeps; exact hk
      · apply acceptPair_keeps
        · intro v2 v3; unfold id; exact v3
        · exact hk

theorem execSoundingTable_keeps {s0 : State} (h : Hdr) (b : Stamp) (seq : BitVec 8) (final : BitVec 8) (offset
    : BitVec 16) (data : List Byte) {s t' : State} (hk : Keeps s0 s) (he
    : execSoundingTable h b seq final offset data s = .next t') : Keeps s0 t' := by
  unfold execSoundingTable at he
  cases he
  apply serve_keeps
  · intro v0 v1; apply soundingTable_keeps; exact v1
  · exact hk

theorem execAeStatus_keeps {s0 : State} (h : Hdr) {s t' : State} (hk : Keeps s0 s) (he
    : execAeStatus h s = .next t') : Keeps s0 t' := by
  unfold execAeStatus at he
  cases he
  apply serve_keeps
  · intro v0 v1; extract_lets l2; clear_value l2; apply okWith_keeps
    with_reducible refine foldl_keeps ?_ ?_
    · intro v3 v4 v5; apply clSet_keeps; exact v5
    · exact v1
  · exact hk

theorem execLayerConfig_keeps {s0 : State} (h : Hdr) (b : Stamp) (items : List LayerItem) {s t' : State} (hk
    : Keeps s0 s) (he : execLayerConfig h b items s = .next t') : Keeps s0 t' := by
  unfold execLayerConfig at he
  cases he
  apply serve_keeps
  · intro v0 v1; apply layerConfig_keeps; exact v1
  · exact hk

theorem execLayerWeights_keeps {s0 : State} (h : Hdr) (b : Stamp) (carrier : BitVec 8) (layer : BitVec 8) (firstQ
    : BitVec 16) (nq : BitVec 16) (w : List (BitVec 32)) {s t' : State} (hk : Keeps s0 s) (he
    : execLayerWeights h b carrier layer firstQ nq w s = .next t') : Keeps s0 t' := by
  unfold execLayerWeights at he
  cases he
  apply serve_keeps
  · intro v0 v1; apply layerWeights_keeps; exact v1
  · exact hk

theorem blockErrors_keeps {s0 : State} (kind : Nat) (c : Nat) (l : Nat) (p : Nat) (lin : Nat) (work : Nat) {s
    : State} (hk : Keeps s0 s) : Keeps s0 (blockErrors kind c l p lin work s) := by
  unfold blockErrors
  extract_lets l0; clear_value l0
  refine keeps_ite ?_ ?_
  · apply regionRead_keeps; exact hk
  · exact hk

theorem formCombo_keeps {s0 : State} (c : Nat) (l : Nat) (lin : Nat) (kind : Nat) (work : Nat) (n : Nat) (start
    : Nat) (num : Nat) {s : State} (hk : Keeps s0 s) : Keeps s0 (formCombo c l lin kind work n start num s).2 := by
  unfold formCombo
  extract_lets l0 l1 l2 l3 l4 l5; clear_value l0 l1 l2 l3 l4
  have hl5 : Keeps s0 l5 := by
    unfold l5
    with_reducible refine foldl_keeps ?_ ?_
    · intro v6 v7 v8; apply blockErrors_keeps; exact v8
    · exact hk
  clear_value l5; dsimp only; apply countBy_keeps; exact hl5

theorem formCombos_keeps {s0 : State} (c : Nat) (l : Nat) (lin : Nat) (kind : Nat) (work : Nat) {s : State} (hk
    : Keeps s0 s) : Keeps s0 (formCombos c l lin kind work s).2 := by
  unfold formCombos
  with_reducible refine foldl_keeps2 ?_ ?_
  · intro v0 v1 v2; extract_lets l3
    have hl3 : Keeps s0 l3.2 := by
      unfold l3; apply formCombo_keeps; exact v2
    clear_value l3; dsimp only; exact hl3
  · dsimp only
    exact hk

theorem formDue_keeps {s0 : State} (q : Nat) (d : Due) {s : State} (hk : Keeps s0 s) : Keeps s0 (formDue q d s).2 := by
  unfold formDue
  split
  · extract_lets l0 l1 l2 l3 l4; clear_value l0 l1
    have hl2 : Keeps s0 l2.2 := by
      unfold l2
      refine keeps_ite2 ?_ ?_
      · dsimp only
        exact hk
      · apply formCombo_keeps; exact hk
    clear_value l2 l3 l4
    refine keeps_ite2 ?_ ?_
    · dsimp only
      exact hl2
    · dsimp only
      exact hl2
  · extract_lets l5 l6 l7; clear_value l5 l6 l7
    refine keeps_ite2 ?_ ?_
    · dsimp only
      exact hk
    · dsimp only
      exact hk
  · dsimp only
    exact hk
  · dsimp only
    exact hk
  · dsimp only
    exact hk

theorem bufferFree_keeps {s0 : State} (b : Nat) {s : State} (hk : Keeps s0 s) : Keeps s0 (bufferFree b s) := by
  unfold bufferFree
  exact Keeps.mk' hk rfl

theorem ringPut_keeps {s0 : State} (q : Nat) (r : Ring) {s : State} (hk : Keeps s0 s) : Keeps s0 (ringPut q r s) := by
  unfold ringPut
  exact Keeps.mk' hk rfl

theorem ringRelay_keeps {s0 : State} (q : Nat) (n : Nat) (rd : Nat) (keep : Nat → List Byte → Bool) {s : State}
    (hk : Keeps s0 s) : Keeps s0 (ringRelay q n rd keep s) := by
  unfold ringRelay
  extract_lets l0 l1 l2 l3 l4; clear_value l0 l1 l2
  have hl3 : Keeps s0 l3 := by
    unfold l3
    with_reducible refine foldl_keeps ?_ ?_
    · intro v5 v6 v7; apply bufferFree_keeps; exact v7
    · exact hk
  clear_value l3
  have hl4 : Keeps s0 l4 := by
    unfold l4
    with_reducible refine foldl_keeps ?_ ?_
    · intro v8 v9 v10; apply resWrite_keeps; exact v10
    · exact hl3
  clear_value l4; apply ringPut_keeps; exact hl4

theorem freeHeld_keeps {s0 : State} (lin : Nat) {s : State} (hk : Keeps s0 s) : Keeps s0 (freeHeld lin s) := by
  unfold freeHeld
  extract_lets l0; clear_value l0
  refine keeps_ite ?_ ?_
  · exact hk
  · with_reducible refine foldl_keeps ?_ ?_
    · intro v1 v2 v3; apply ringRelay_keeps; exact v3
    · exact hk

theorem queueResize_keeps {s0 : State} (h : Hdr) (queue : BitVec 16) (depth : BitVec 8) {s : State} (hk
    : Keeps s0 s) : Keeps s0 (queueResize h queue depth s).2 := by
  unfold queueResize
  refine keeps_ite2 ?_ ?_
  · apply fails_keeps; exact hk
  · apply acceptPair_keeps
    · intro v0 v1; unfold id; exact v1
    · exact hk

theorem fifoSet_keeps {s0 : State} (i : Nat) (f : Fifo) {s : State} (hk : Keeps s0 s) : Keeps s0 (fifoSet i f s) := by
  unfold fifoSet
  exact Keeps.mk' hk rfl

theorem fifoComplete_keeps {s0 : State} (i : Nat) (w : Writing) (void : Bool) {s : State} (hk : Keeps s0 s)
    : Keeps s0 (fifoComplete i w void s) := by
  unfold fifoComplete
  extract_lets l0 l1 l2 l3 l4 l5 l6; clear_value l0
  have hl1 : Keeps s0 l1 := by
    unfold l1; apply fifoSet_keeps; exact hk
  clear_value l1 l2
  have hl3 : Keeps s0 l3 := by
    unfold l3; exact Keeps.mk' hl1 rfl
  clear_value l3 l4
  have hl5 : Keeps s0 l5 := by
    unfold l5
    split
    · exact Keeps.mk' hl3 rfl
    · exact hl3
  clear_value l5 l6
  refine keeps_ite ?_ ?_
  · exact hl1
  · split
    · exact Keeps.mk' hl5 rfl
    · exact hl5

theorem fifoCut_keeps {s0 : State} (i : Nat) {s : State} (hk : Keeps s0 s) : Keeps s0 (fifoCut i s).1 := by
  unfold fifoCut
  extract_lets l0 l1; clear_value l0 l1
  split
  · dsimp only
    exact hk
  · refine keeps_ite1 ?_ ?_
    · dsimp only
      exact hk
    · extract_lets l2; clear_value l2; dsimp only; apply fifoSet_keeps; exact hk

theorem sqClear_keeps {s0 : State} {s : State} (hk : Keeps s0 s) : Keeps s0 (sqClear s) := by
  unfold sqClear
  exact Keeps.mk' hk rfl

theorem addDue_keeps {s0 : State} (q : Nat) (d : Due) {s : State} (hk : Keeps s0 s) : Keeps s0 (addDue q d s) := by
  unfold addDue
  refine keeps_ite ?_ ?_
  · extract_lets l0 l1; clear_value l0 l1; apply fifoSet_keeps; exact hk
  · exact hk

theorem drainEnd_keeps {s0 : State} (i : Nat) (pkt : Pkt) (buf : Option Nat) (void : Bool) {s : State} (hk
    : Keeps s0 s) : Keeps s0 (drainEnd i pkt buf void s) := by
  have hp : ∀ q d s t, Keeps s0 s → ringPush q d s = some t → Keeps s0 t := by
    intro q d s t h e
    unfold ringPush at e
    dsimp only at e
    split at e
    · cases e
    · cases e
      exact ringPut_keeps _ _ (resWrite_keeps h _ _)
  unfold drainEnd
  split
  · exact count_keeps _ _ hk
  · extract_lets p base t s1 s2
    have h1 : Keeps s0 s1 := resWrite_keeps hk _ _
    have h2 : Keeps s0 s2 := by
      exact keeps_ite (count_keeps _ _ h1) (foldl_keeps (fun s o h => resWrite_keeps h _ _) h1)
    split
    · exact bufferFree_keeps _ h2
    · split
      · rename_i e
        split
        · exact (hp _ _ _ _ h2 e).upd rfl rfl rfl rfl rfl rfl rfl rfl rfl rfl rfl rfl rfl
        · exact hp _ _ _ _ h2 e
      · exact bufferFree_keeps _ (count_keeps _ _ h2)

theorem fifoDrain_keeps {s0 : State} (i : Nat) {s : State} (hk : Keeps s0 s) : Keeps s0 (fifoDrain i s) := by
  unfold fifoDrain
  extract_lets l0; clear_value l0
  split
  · extract_lets l1 l2 l3 l4 l5
    have hl1 : Keeps s0 l1 := by
      unfold l1; apply fifoSet_keeps; exact hk
    clear_value l1
    have hl2 : Keeps s0 l2 := by
      unfold l2
      refine keeps_ite ?_ ?_
      · apply count_keeps; exact hl1
      · exact hl1
    clear_value l2 l3
    have hl4 : Keeps s0 l4.2 := by
      unfold l4
      refine keeps_ite2 ?_ ?_
      · split
        · dsimp only
          exact Keeps.mk' hl2 rfl
        · dsimp only
          exact hl2
      · dsimp only
        exact hl2
    clear_value l4
    have hl5 : Keeps s0 l5 := by
      unfold l5; exact hl4
    clear_value l5
    split
    extract_lets l6 l7 l8 l9
    have hl6 : Keeps s0 l6 := by
      unfold l6
      refine keeps_ite ?_ ?_
      · apply raiseErr_keeps; apply count_keeps; exact hl5
      · exact hl5
    clear_value l6 l7
    have hl8 : Keeps s0 l8 := by
      unfold l8
      split
      · refine keeps_ite ?_ ?_
        · exact hl6
        · apply resWrite_keeps; exact hl6
      · exact hl6
    clear_value l8 l9
    refine keeps_ite ?_ ?_
    · apply drainEnd_keeps; apply fifoSet_keeps; exact hl8
    · apply fifoSet_keeps; exact hl8
  · exact hk

theorem ringResize_keeps {s0 : State} (q : Nat) (n : Nat) {s : State} (hk : Keeps s0 s) : Keeps s0
    (ringResize q n s) := by
  unfold ringResize
  extract_lets l0 l1; clear_value l0 l1; apply ringRelay_keeps; apply countBy_keeps; exact hk

theorem resizeGuard_keeps {s0 : State} {s : State} (hk : Keeps s0 s) : Keeps s0 (resizeGuard s) := by
  unfold resizeGuard
  extract_lets l0; clear_value l0
  with_reducible refine foldl_keeps ?_ ?_
  · intro v1 v2 v3
    split
    · refine keeps_ite ?_ ?_
      · apply ringResize_keeps; exact v3
      · exact v3
    · exact v3
  · exact hk

theorem fifoBegin_keeps {s0 : State} (i : Nat) {s : State} (hk : Keeps s0 s) : Keeps s0 (fifoBegin i s) := by
  unfold fifoBegin
  extract_lets l0 l1; clear_value l0 l1
  split
  · extract_lets l2 l3 l4 l5 l6 l7 l8 l9 l10 l11
    have hl2 : Keeps s0 l2.2 := by
      unfold l2; apply formDue_keeps; exact hk
    clear_value l2
    have hl3 : Keeps s0 l3 := by
      unfold l3; exact hl2
    clear_value l3 l4 l5 l6 l7 l8 l9 l10 l11; apply fifoSet_keeps; exact hl3
  · exact hk

theorem macTxDone_keeps {s0 : State} (p : Nat) {s : State} (hk : Keeps s0 s) : Keeps s0 (macTxDone p s) := by
  unfold macTxDone
  split
  · apply bufferFree_keeps; exact Keeps.mk' hk rfl
  · exact hk

theorem remapQueues_keeps {s0 : State} (old : List QEntry) (new : List QEntry) {s : State} (hk : Keeps s0 s)
    : Keeps s0 (remapQueues old new s) := by
  unfold remapQueues
  extract_lets l0 l1; clear_value l0
  have hl1 : Keeps s0 l1 := by
    unfold l1; exact Keeps.mk' hk rfl
  clear_value l1
  with_reducible refine foldl_keeps ?_ ?_
  · intro v2 v3 v4
    refine keeps_ite ?_ ?_
    · exact v4
    · split
      · refine keeps_ite ?_ ?_
        · apply ringResize_keeps; exact v4
        · exact Keeps.mk' v4 rfl
      · exact Keeps.mk' v4 rfl
  · exact hl1

theorem applyQueueResize_keeps {s0 : State} (queue : BitVec 16) (depth : BitVec 8) {s : State} (hk : Keeps s0 s)
    : Keeps s0 (applyQueueResize queue depth s) := by
  unfold applyQueueResize
  exact Keeps.mk' hk rfl

theorem macTxPop_keeps {s0 : State} (q : Nat) {s : State} (hk : Keeps s0 s) : Keeps s0 (macTxPop q s) := by
  have hp : ∀ q s a t, Keeps s0 s → ringPop q s = some (a, t) → Keeps s0 t := by
    intro q s a t h e
    unfold ringPop at e
    dsimp only at e
    split at e
    · cases e
    · cases e
      exact ringPut_keeps _ _ h
  unfold macTxPop
  extract_lets p
  split
  · exact hk
  · split
    · exact hk
    · rename_i a t e
      have h := hp _ _ _ _ hk e
      extract_lets r d s2 buf b len f s3 sent
      have h2 : Keeps s0 s2 := regionRead_keeps _ _ _ _ _ _ h
      clear_value s2 d
      have h3 : Keeps s0 s3 := regionRead_keeps _ _ _ _ _ _ h2
      clear_value s3 f
      have h4 : Keeps s0 sent := macSend_keeps _ _ _ h3
      clear_value sent b
      refine keeps_ite (bufferFree_keeps _ h2) (keeps_ite ?_ (bufferFree_keeps _ h4))
      exact h4.upd rfl rfl rfl rfl rfl rfl rfl rfl rfl rfl rfl rfl rfl

theorem stagePush_keeps {s0 : State} (i : Nat) {s : State} (hk : Keeps s0 s) : Keeps s0 (stagePush i s) := by
  unfold stagePush
  extract_lets l0 l1
  have hl0 : Keeps s0 l0 := by
    unfold l0; apply fifoBegin_keeps; exact hk
  clear_value l0 l1
  split
  · exact hl0
  · refine keeps_ite ?_ ?_
    · exact hl0
    · split
      · apply fifoSet_keeps; exact hl0
      · extract_lets l2
        have hl2 : Keeps s0 l2 := by
          unfold l2; apply fifoSet_keeps; exact hl0
        clear_value l2
        refine keeps_ite ?_ ?_
        · apply fifoComplete_keeps; exact hl2
        · exact hl2

theorem execEgressFifoDrain_keeps {s0 : State} (fifo : Fin 16) {s t' : State} (hk : Keeps s0 s) (he
    : execEgressFifoDrain fifo s = .next t') : Keeps s0 t' := by
  unfold execEgressFifoDrain at he
  cases he
  apply fifoDrain_keeps; exact hk

theorem execMacTxDone_keeps {s0 : State} (port : Fin 6) {s t' : State} (hk : Keeps s0 s) (he
    : execMacTxDone port s = .next t') : Keeps s0 t' := by
  unfold execMacTxDone at he
  cases he
  apply macTxDone_keeps; exact hk

theorem execQueueResize_keeps {s0 : State} (h : Hdr) (queue : BitVec 16) (depth : BitVec 8) {s t' : State} (hk
    : Keeps s0 s) (he : execQueueResize h queue depth s = .next t') : Keeps s0 t' := by
  unfold execQueueResize at he
  cases he
  apply serve_keeps
  · intro v0 v1; apply queueResize_keeps; exact v1
  · exact hk

theorem execMacTxPop_keeps {s0 : State} (queue : BitVec 16) {s t' : State} (hk : Keeps s0 s) (he
    : execMacTxPop queue s = .next t') : Keeps s0 t' := by
  unfold execMacTxPop at he
  cases he
  apply macTxPop_keeps; exact hk

theorem execEgressStagePush_keeps {s0 : State} (fifo : Fin 16) {s t' : State} (hk : Keeps s0 s) (he
    : execEgressStagePush fifo s = .next t') : Keeps s0 t' := by
  unfold execEgressStagePush at he
  cases he
  apply stagePush_keeps; exact hk

theorem execSqStatus_keeps {s0 : State} (h : Hdr) {s t' : State} (hk : Keeps s0 s) (he
    : execSqStatus h s = .next t') : Keeps s0 t' := by
  unfold execSqStatus at he
  cases he
  apply serve_keeps
  · intro v0 v1; apply okWith_keeps; exact v1
  · exact hk

end Sys2Proof.Machine
end

