-- ==== Sys2Proof/Laws/KeepDd.lean ====
section
/-! SUPPORT. Depth-data, notes and keys: each operation keeps what `Keeps` says (`f_keeps` is the lemma of `f`). -/

namespace Sys2Proof.Machine

theorem makeJob_keeps {s0 : State} (d : DdPar) (c : Nat) (lin : Nat) (host : Bool) (vers : List (Nat × Stamp)) {s
    : State} (hk : Keeps s0 s) : Keeps s0 (makeJob d c lin host vers s) := by
  unfold makeJob
  extract_lets l0 l1 l2 l3 l4 l5 l6 l7 l8; clear_value l0 l1 l2 l3 l4 l5 l6
  have hl7 : Keeps s0 l7 := by
    unfold l7
    refine keeps_ite ?_ ?_
    · apply count_keeps; exact hk
    · exact hk
  clear_value l7 l8; apply count_keeps; exact Keeps.mk' hl7 rfl

theorem jobDecision_keeps {s0 : State} (c : Nat) (lin : Nat) {s : State} (hk : Keeps s0 s) : Keeps s0
    (jobDecision c lin s) := by
  unfold jobDecision
  split
  · exact hk
  · extract_lets l0 l1 l2 l3 l4; clear_value l0 l1 l2 l3 l4
    refine keeps_ite ?_ ?_
    · exact Keeps.mk' hk rfl
    · refine keeps_ite ?_ ?_
      · exact Keeps.mk' hk rfl
      · apply makeJob_keeps; exact hk

theorem jobDecisions_keeps {s0 : State} {s : State} (hk : Keeps s0 s) : Keeps s0 (jobDecisions s) := by
  unfold jobDecisions
  refine keeps_ite ?_ ?_
  · exact hk
  · with_reducible refine foldl_keeps ?_ ?_
    · intro v0 v1 v2
      with_reducible refine foldl_keeps ?_ ?_
      · intro v3 v4 v5; extract_lets l6 l7; clear_value l6 l7
        refine keeps_ite ?_ ?_
        · exact v5
        · refine keeps_ite ?_ ?_
          · exact v5
          · apply jobDecision_keeps; exact v5
      · exact v2
    · exact hk

theorem ddRetire_keeps {s0 : State} {s : State} (hk : Keeps s0 s) : Keeps s0 (ddRetire s) := by
  unfold ddRetire
  refine keeps_ite ?_ ?_
  · apply loseFlacon_keeps; exact hk
  · exact hk

theorem archiveBeat_keeps {s0 : State} (c : Nat) (lin : Nat) {s : State} (hk : Keeps s0 s) : Keeps s0
    (archiveBeat c lin s) := by
  unfold archiveBeat
  split
  · exact hk
  · extract_lets l0 l1 l2 l3 l4 l5 l6; clear_value l0 l1
    have hl2 : Keeps s0 l2 := by
      unfold l2; exact Keeps.mk' hk rfl
    clear_value l2 l3 l4 l5 l6
    refine keeps_ite ?_ ?_
    · exact hl2
    · exact Keeps.mk' hl2 rfl

theorem ddGroupBlocks_keeps {s0 : State} (slot : Nat) (p : Nat) {s : State} (hk : Keeps s0 s) : Keeps s0
    (ddGroupBlocks slot p s).2 := by
  unfold ddGroupBlocks
  with_reducible refine foldl_keeps2 ?_ ?_
  · intro v0 v1 v2; extract_lets l3 l4 l5; clear_value l3 l4
    have hl5 : Keeps s0 l5.2 := by
      unfold l5; apply regionRead_keeps; exact v2
    clear_value l5; dsimp only; exact hl5
  · dsimp only
    exact hk

theorem ddEncodeBlock_keeps {s0 : State} (d : DdPar) (i : Nat) (slot : Nat) (c : Nat) (g : Nat) (lin : Nat) (p
    : Nat) {s : State} (hk : Keeps s0 s) : Keeps s0 (ddEncodeBlock d i slot c g lin p s).2 := by
  unfold ddEncodeBlock
  extract_lets l0 l1 l2 l3 l4 l5 l6
  have hl0 : Keeps s0 l0.2 := by
    unfold l0; apply ddGroupBlocks_keeps; exact hk
  clear_value l0 l1
  have hl2 : Keeps s0 l2 := by
    unfold l2; apply countBy_keeps; exact hl0
  clear_value l2 l3
  have hl4 : Keeps s0 l4 := by
    unfold l4
    refine keeps_ite ?_ ?_
    · apply count_keeps; exact hl2
    · exact hl2
  clear_value l4 l5
  have hl6 : Keeps s0 l6 := by
    unfold l6; apply hbmWrite_keeps; apply hbmWrite_keeps; exact hl4
  clear_value l6; dsimp only; apply rtwStage_keeps; exact hl6

theorem replaySections_keeps {s0 : State} (j : RcJob) {s : State} (hk : Keeps s0 s) : Keeps s0
    (replaySections j s).2 := by
  unfold replaySections
  with_reducible refine foldl_keeps2 ?_ ?_
  · intro v0 v1 v2; extract_lets l3 l4; clear_value l3 l4
    with_reducible refine foldl_keeps2 ?_ ?_
    · intro v5 v6 v7; extract_lets l8 l9 l10; clear_value l8 l9 l10; dsimp only; apply countBy_keeps; exact v7
    · exact v2
  · dsimp only
    exact hk

theorem jobUpdate_keeps {s0 : State} (c : Nat) (lin : Nat) (host : Bool) (f : RcJob → RcJob) {s : State} (hk
    : Keeps s0 s) : Keeps s0 (jobUpdate c lin host f s) := by
  unfold jobUpdate
  exact Keeps.mk' hk rfl

theorem applyDdMiss_keeps {s0 : State} (c : Nat) (lin : Nat) {s : State} (hk : Keeps s0 s) : Keeps s0
    (applyDdMiss c lin s) := by
  unfold applyDdMiss
  refine keeps_ite ?_ ?_
  · apply count_keeps; apply jobUpdate_keeps; exact hk
  · exact hk

theorem ddReadDeadline_keeps {s0 : State} (c : Nat) {s : State} (hk : Keeps s0 s) : Keeps s0 (ddReadDeadline c s) := by
  unfold ddReadDeadline
  split
  · exact hk
  · extract_lets l0 l1 l2 l3
    have hl0 : Keeps s0 l0 := by
      unfold l0; apply advanceTo_keeps; exact hk
    clear_value l0 l1 l2
    have hl3 : Keeps s0 l3 := by
      unfold l3; apply makeVerdict_keeps; exact hl0
    clear_value l3
    refine keeps_ite ?_ ?_
    · refine keeps_ite ?_ ?_
      · exact hl3
      · apply applyDdMiss_keeps; exact hl3
    · exact hl0

theorem jobReply_keeps {s0 : State} (j : Job) (n : Nat) (result : Nat) {s : State} (hk : Keeps s0 s) : Keeps s0
    (jobReply j n result s) := by
  unfold jobReply
  apply endJob_keeps; exact hk

theorem sendCodec_keeps {s0 : State} (q : Nat) (entries : List (List Byte)) {s : State} (hk : Keeps s0 s)
    : Keeps s0 (sendCodec q entries s) := by
  unfold sendCodec
  with_reducible refine foldl_keeps ?_ ?_
  · intro v0 v1 v2; apply addDue_keeps; exact v2
  · exact hk

theorem csiComplete_keeps {s0 : State} (j : Job) (c : Nat) (queue : Nat) (beat : Stamp) (layers : BitVec 64) {s
    : State} (hk : Keeps s0 s) : Keeps s0 (csiComplete j c queue beat layers s) := by
  unfold csiComplete
  extract_lets l0 l1; clear_value l0 l1; apply jobReply_keeps; apply sendCodec_keeps; exact hk

theorem ddRewind_keeps {s0 : State} (beat : Stamp) {s : State} (hk : Keeps s0 s) : Keeps s0 (ddRewind beat s).2 := by
  unfold ddRewind
  refine keeps_ite2 ?_ ?_
  · apply fails_keeps; exact hk
  · refine keeps_ite2 ?_ ?_
    · apply fails_keeps; exact hk
    · refine keeps_ite2 ?_ ?_
      · apply fails_keeps; exact hk
      · apply okWith_keeps; exact Keeps.mk' hk rfl

theorem bgSuspend_keeps {s0 : State} (k : Nat) {s : State} (hk : Keeps s0 s) : Keeps s0 (bgSuspend k s) := by
  unfold bgSuspend
  extract_lets l0; clear_value l0
  refine keeps_ite ?_ ?_
  · apply count_keeps; apply clSet_keeps; exact hk
  · exact hk

theorem resultCombo_keeps {s0 : State} (c : Nat) (l : Nat) (lin : Nat) (base : Nat) (nprb : Nat) (w : Nat) (n
    : Nat) (start : Nat) (num : Nat) {s : State} (hk : Keeps s0 s) : Keeps s0
    (resultCombo c l lin base nprb w n start num s).2 := by
  unfold resultCombo
  extract_lets l0 l1; clear_value l0 l1; dsimp only; apply countBy_keeps; exact hk

theorem recombineDeadline_keeps {s0 : State} (c : Nat) {s : State} (hk : Keeps s0 s) : Keeps s0
    (recombineDeadline c s) := by
  unfold recombineDeadline
  split
  · extract_lets l0 l1 l2 l3
    have hl0 : Keeps s0 l0 := by
      unfold l0; apply advanceTo_keeps; exact hk
    clear_value l0 l1 l2 l3
    split
    · exact hl0
    · with_reducible refine foldl_keeps ?_ ?_
      · intro v4 v5 v6; extract_lets l7 l8 l9 l10; clear_value l7
        have hl8 : Keeps s0 l8.2 := by
          unfold l8
          with_reducible refine foldl_keeps2 ?_ ?_
          · intro v11 v12 v13; extract_lets l14
            have hl14 : Keeps s0 l14.2 := by
              unfold l14; apply resultCombo_keeps; exact v13
            clear_value l14; dsimp only; exact hl14
          · dsimp only
            exact v6
        clear_value l8
        have hl9 : Keeps s0 l9 := by
          unfold l9; exact hl8
        clear_value l9 l10; exact Keeps.mk' hl9 rfl
      · exact hl0
  · exact hk

theorem codecRun_keeps {s0 : State} (h : Hdr) (op : BitVec 8) (reserve : BitVec 8) (queue : BitVec 16) (count
    : BitVec 16) (src : BitVec 32) (dst : BitVec 32) (dstBytes : BitVec 32) {s : State} (hk : Keeps s0 s)
    : Keeps s0 (codecRun h op reserve queue count src dst dstBytes s).2 := by
  unfold codecRun
  extract_lets l0 l1; clear_value l0 l1
  refine keeps_ite2 ?_ ?_
  · apply fails_keeps; exact hk
  · refine keeps_ite2 ?_ ?_
    · apply fails_keeps; exact hk
    · apply startJob_keeps; exact hk

theorem fetchComplete_keeps {s0 : State} (j : Job) (queue : Nat) (first : Stamp) (last : Stamp) {s : State} (hk
    : Keeps s0 s) : Keeps s0 (fetchComplete j queue first last s) := by
  unfold fetchComplete
  extract_lets l0 l1 l2; clear_value l0 l1 l2; apply jobReply_keeps; apply sendCodec_keeps; exact hk

theorem codecStep_keeps {s0 : State} (decode : Bool) (reserve : Bool) (toQ : Bool) (dstBytes : Nat) {a
    : CodecRun × State} (hk : Keeps s0 a.2) : Keeps s0 (codecStep decode reserve toQ dstBytes a).2 := by
  unfold codecStep
  extract_lets l0 l1 l2 l3 l4 l5 l6 l7 l8 l9 l10 l11 l12 l13 l14 l15 l16 l17 l18 l19; clear_value l0
  have hl1 : Keeps s0 l1 := by
    unfold l1; exact hk
  clear_value l1
  have hl2 : Keeps s0 l2.2 := by
    unfold l2; apply regionRead_keeps; exact hl1
  clear_value l2 l3
  have hl4 : Keeps s0 l4 := by
    unfold l4; exact hl2
  clear_value l4 l5 l6 l7 l8
  have hl9 : Keeps s0 l9.2 := by
    unfold l9; apply regionRead_keeps; exact hl4
  clear_value l9 l10
  have hl11 : Keeps s0 l11 := by
    unfold l11; apply countBy_keeps; exact hl9
  clear_value l11 l12 l13 l14 l15
  have hl16 : Keeps s0 l16.2 := by
    unfold l16; apply regionRead_keeps; exact hl4
  clear_value l16
  have hl17 : Keeps s0 l17 := by
    unfold l17; exact hl16
  clear_value l17 l18 l19
  refine keeps_ite2 ?_ ?_
  · refine keeps_ite2 ?_ ?_
    · dsimp only
      exact hl11
    · dsimp only
      refine keeps_ite ?_ ?_
      · apply count_keeps; exact hl11
      · exact hl11
  · split
    · dsimp only
      apply countCx_keeps; exact hl17
    · extract_lets l20 l21; clear_value l20 l21
      refine keeps_ite2 ?_ ?_
      · dsimp only
        exact hl17
      · dsimp only
        exact hl17

theorem codecLoop_keeps {s0 : State} (d r q : Bool) (m n : Nat) {x : CodecRun × State} (hk : Keeps s0 x.2)
    : Keeps s0 (codecLoop d r q m n x).2 := by
  induction n generalizing x with
  | zero => exact hk
  | succ n ih =>
    rw [codecLoop]
    split
    · exact ih (codecStep_keeps _ _ _ _ hk)
    · exact hk

theorem csiExport_keeps {s0 : State} (h : Hdr) (carrier : BitVec 8) (queue : BitVec 16) (beat : Stamp) (layers
    : BitVec 64) {s : State} (hk : Keeps s0 s) : Keeps s0 (csiExport h carrier queue beat layers s).2 := by
  unfold csiExport
  extract_lets l0 l1 l2 l3; clear_value l0 l1 l2 l3
  refine keeps_ite2 ?_ ?_
  · apply fails_keeps; exact hk
  · refine keeps_ite2 ?_ ?_
    · apply fails_keeps; exact hk
    · refine keeps_ite2 ?_ ?_
      · apply startJob_keeps; exact hk
      · refine keeps_ite2 ?_ ?_
        · apply fails_keeps; exact hk
        · apply fails_keeps; exact hk

theorem placeCells_keeps {s0 : State} (k : Nat) (y : Bool) (l : List (Nat × BitVec 48 × Bool)) {s : State} (hk
    : Keeps s0 s) : Keeps s0 (placeCells k y l s) := by
  unfold placeCells
  with_reducible refine foldl_keeps ?_ ?_
  · intro v0 v1 v2; apply cellStore_keeps; exact v2
  · exact hk

theorem cellsBlock_keeps {s0 : State} (k : Nat) (first : Nat) {s : State} (hk : Keeps s0 s) : Keeps s0
    (cellsBlock k first s).2 := by
  unfold cellsBlock
  extract_lets l0 l1
  have hl0 : Keeps s0 l0.2 := by
    unfold l0
    with_reducible refine foldl_keeps2 ?_ ?_
    · intro v2 v3 v4; extract_lets l5
      have hl5 : Keeps s0 l5.2 := by
        unfold l5; apply cellDeliver_keeps; exact v4
      clear_value l5; dsimp only; exact hl5
    · dsimp only
      exact hk
  clear_value l0 l1; dsimp only; exact hl0

theorem partResults_keeps {s0 : State} (k : Nat) (p : Part) (j : RcJob) (d : DdPar) {s : State} (hk : Keeps s0 s)
    : Keeps s0 (partResults k p j d s) := by
  unfold partResults
  extract_lets l0 l1 l2 l3 l4 l5; clear_value l0 l1 l2 l3 l4 l5
  with_reducible refine foldl_keeps ?_ ?_
  · intro v6 v7 v8
    with_reducible refine foldl_keeps ?_ ?_
    · intro v9 v10 v11; extract_lets l12
      have hl12 : Keeps s0 l12.2 := by
        unfold l12; apply cellsBlock_keeps; exact v11
      clear_value l12
      refine keeps_ite ?_ ?_
      · apply jobUpdate_keeps; exact hl12
      · apply resWrite_keeps; exact hl12
    · exact v8
  · exact hk

theorem jobDone_keeps {s0 : State} (k : Nat) (code : Nat) {s : State} (hk : Keeps s0 s) : Keeps s0
    (jobDone k code s) := by
  unfold jobDone
  extract_lets l0 l1; clear_value l0
  have hl1 : Keeps s0 l1 := by
    unfold l1; apply clSet_keeps; exact hk
  clear_value l1
  split
  · split
    · exact hl1
    · refine keeps_ite ?_ ?_
      · exact hl1
      · refine keeps_ite ?_ ?_
        · apply jobUpdate_keeps; exact hl1
        · apply jobUpdate_keeps; apply partResults_keeps; exact hl1
  · apply clSet_keeps; exact hk

theorem ddStatus_keeps {s0 : State} {s : State} (hk : Keeps s0 s) : Keeps s0 (ddStatus s).2 := by
  unfold ddStatus
  refine keeps_ite2 ?_ ?_
  · apply fails_keeps; exact hk
  · extract_lets l0 l1; clear_value l0 l1; apply okWith_keeps; exact hk

theorem recombineComplete_keeps {s0 : State} (j : Job) (c : Nat) (queue : Nat) {s : State} (hk : Keeps s0 s)
    : Keeps s0 (recombineComplete j c queue s) := by
  unfold recombineComplete
  extract_lets l0 l1 l2 l3; clear_value l0 l1
  have hl2 : Keeps s0 l2 := by
    unfold l2
    with_reducible refine foldl_keeps ?_ ?_
    · intro v4 v5 v6; extract_lets l7
      have hl7 : Keeps s0 l7.2 := by
        unfold l7; apply replaySections_keeps; exact v6
      clear_value l7
      with_reducible refine foldl_keeps ?_ ?_
      · intro v8 v9 v10; apply addDue_keeps; exact v10
      · exact hl7
    · exact hk
  clear_value l2 l3
  refine keeps_ite ?_ ?_
  · exact hk
  · apply jobReply_keeps; exact Keeps.mk' hl2 rfl

theorem codecOutput_keeps {s0 : State} (reserve : Bool) (queue : Nat) (dst : Nat) (r : CodecRun) {s : State} (hk
    : Keeps s0 s) : Keeps s0 (codecOutput reserve queue dst r s) := by
  unfold codecOutput
  refine keeps_ite ?_ ?_
  · apply resWrite_keeps; exact hk
  · split
    · apply sendCodec_keeps; exact hk
    · extract_lets l0 l1 l2 l3 l4; clear_value l0 l1 l2 l3
      have hl4 : Keeps s0 l4 := by
        unfold l4
        with_reducible refine foldl_keeps ?_ ?_
        · intro v5 v6 v7; apply addDue_keeps; exact v7
        · exact hk
      clear_value l4
      refine keeps_ite ?_ ?_
      · exact hl4
      · apply addDue_keeps; exact hl4

theorem codecComplete_keeps {s0 : State} (j : Job) (decode : Bool) (reserve : Bool) (queue : Nat) (count_ : Nat)
    (src : Nat) (dst : Nat) (dstBytes : Nat) {s : State} (hk : Keeps s0 s) : Keeps s0
    (codecComplete j decode reserve queue count_ src dst dstBytes s) := by
  unfold codecComplete
  extract_lets l0 l1 l2 l3
  have hl0 : Keeps s0 l0.2 := by
    unfold l0; apply codecLoop_keeps; dsimp only; exact hk
  clear_value l0
  have hl1 : Keeps s0 l1 := by
    unfold l1; apply codecOutput_keeps; exact hl0
  clear_value l1
  have hl2 : Keeps s0 l2 := by
    unfold l2
    refine keeps_ite ?_ ?_
    · apply count_keeps; exact hl1
    · exact hl1
  clear_value l2 l3; apply endJob_keeps; exact hl2

theorem hostJobComplete_keeps {s0 : State} (op : Nat) {s : State} (hk : Keeps s0 s) : Keeps s0
    (hostJobComplete op s) := by
  unfold hostJobComplete
  split
  · exact hk
  · split
    · apply recombineComplete_keeps; exact hk
    · apply csiComplete_keeps; exact hk
    · apply fetchComplete_keeps; exact hk
    · apply codecComplete_keeps; exact hk
    · refine keeps_ite ?_ ?_
      · extract_lets l0 l1; clear_value l0 l1; apply jobReply_keeps; exact Keeps.mk' hk rfl
      · exact hk
    · exact hk

theorem bgSuspendRequest_keeps {s0 : State} (k : Nat) {s : State} (hk : Keeps s0 s) : Keeps s0
    (bgSuspendRequest k s) := by
  unfold bgSuspendRequest
  refine keeps_ite ?_ ?_
  · apply clSet_keeps; exact hk
  · exact hk

theorem placePart_keeps {s0 : State} (k : Nat) (j : RcJob) (q : Nat) (d : DdPar) {s : State} (hk : Keeps s0 s)
    : Keeps s0 (placePart k j q d s) := by
  unfold placePart
  extract_lets l0 l1 l2 l3 l4 l5 l6 l7 l8 l9 l10 l11 l12 l13 l14 l15; clear_value l0 l1 l2 l3 l4 l5 l6 l7
  have hl8 : Keeps s0 l8 := by
    unfold l8; apply placeCells_keeps; exact hk
  clear_value l8
  have hl9 : Keeps s0 l9 := by
    unfold l9
    with_reducible refine foldl_keeps ?_ ?_
    · intro v16 v17 v18; extract_lets l19 l20 l21; clear_value l19
      have hl20 : Keeps s0 l20.2 := by
        unfold l20; apply regionRead_keeps; exact v18
      clear_value l20 l21; apply placeCells_keeps; exact hl20
    · exact hl8
  clear_value l9 l10
  have hl11 : Keeps s0 l11 := by
    unfold l11
    with_reducible refine foldl_keeps ?_ ?_
    · intro v22 v23 v24
      with_reducible refine foldl_keeps ?_ ?_
      · intro v25 v26 v27; extract_lets l28 l29; clear_value l28
        have hl29 : Keeps s0 l29 := by
          unfold l29
          split
          · apply count_keeps; apply countCx_keeps; exact v27
          · exact v27
        clear_value l29; apply placeCells_keeps; exact hl29
      · exact v24
    · exact hl9
  clear_value l11 l12 l13
  have hl14 : Keeps s0 l14 := by
    unfold l14; exact Keeps.mk' hl11 rfl
  clear_value l14 l15; apply clSet_keeps; exact hl14

theorem jobPartPlaced_keeps {s0 : State} (k : Nat) {s : State} (hk : Keeps s0 s) : Keeps s0 (jobPartPlaced k s) := by
  unfold jobPartPlaced
  split
  · refine keeps_ite ?_ ?_
    · apply placePart_keeps; exact hk
    · exact hk
  · exact hk

theorem flaconComplete_keeps {s0 : State} (i : Nat) (lin : Nat) (coded : Nat) {s : State} (hk : Keeps s0 s)
    : Keeps s0 (flaconComplete i lin coded s) := by
  unfold flaconComplete
  extract_lets l0 l1 l2 l3; clear_value l0
  have hl1 : Keeps s0 l1 := by
    unfold l1; apply hbmWrite_keeps; apply hbmWrite_keeps; exact hk
  clear_value l1
  have hl2 : Keeps s0 l2 := by
    unfold l2; apply rtwStage_keeps; exact hl1
  clear_value l2 l3; apply ddAdvance_keeps; apply count_keeps; exact Keeps.mk' hl2 rfl

theorem recombineRun_keeps {s0 : State} (h : Hdr) (carrier : BitVec 8) (mark : BitVec 8) (queue : BitVec 16)
    (first : Stamp) (last : Stamp) (layers : BitVec 64) {s : State} (hk : Keeps s0 s) : Keeps s0
    (recombineRun h carrier mark queue first last layers s).2 := by
  unfold recombineRun
  extract_lets l0 l1; clear_value l0 l1
  refine keeps_ite2 ?_ ?_
  · apply fails_keeps; exact hk
  · refine keeps_ite2 ?_ ?_
    · apply fails_keeps; exact hk
    · split
      · extract_lets l2 l3 l4; clear_value l2 l3
        have hl4 : Keeps s0 l4 := by
          unfold l4
          with_reducible refine foldl_keeps ?_ ?_
          · intro v5 v6 v7; extract_lets l8; clear_value l8; apply makeJob_keeps; exact v7
          · exact hk
        clear_value l4; apply startJob_keeps; exact hl4
      · apply fails_keeps; exact hk

theorem ddFetch_keeps {s0 : State} (h : Hdr) (mark : BitVec 8) (queue : BitVec 16) (first : Stamp) (last : Stamp)
    {s : State} (hk : Keeps s0 s) : Keeps s0 (ddFetch h mark queue first last s).2 := by
  unfold ddFetch
  refine keeps_ite2 ?_ ?_
  · apply fails_keeps; exact hk
  · extract_lets l0; clear_value l0
    refine keeps_ite2 ?_ ?_
    · apply fails_keeps; exact hk
    · apply startJob_keeps; exact hk

theorem groupEncode_keeps {s0 : State} (c : Nat) (g : Nat) {s : State} (hk : Keeps s0 s) : Keeps s0
    (groupEncode c g s) := by
  unfold groupEncode
  split
  · exact hk
  · extract_lets l0 l1 l2 l3 l4; clear_value l0 l1 l2
    have hl3 : Keeps s0 l3 := by
      unfold l3; apply loseFlacon_keeps; exact hk
    clear_value l3 l4
    split
    · exact hk
    · extract_lets l5 l6
      have hl5 : Keeps s0 l5 := by
        unfold l5
        refine keeps_ite ?_ ?_
        · refine keeps_ite ?_ ?_
          · exact Keeps.mk' hl3 rfl
          · exact hk
        · exact hk
      clear_value l5 l6
      split
      · exact hl5
      · refine keeps_ite ?_ ?_
        · exact hl5
        · extract_lets l7 l8 l9
          have hl7 : Keeps s0 l7.2 := by
            unfold l7
            with_reducible refine foldl_keeps2 ?_ ?_
            · intro v10 v11 v12; extract_lets l13
              have hl13 : Keeps s0 l13.2 := by
                unfold l13; apply ddEncodeBlock_keeps; exact v12
              clear_value l13; dsimp only; exact hl13
            · dsimp only
              exact hl5
          clear_value l7
          have hl8 : Keeps s0 l8 := by
            unfold l8; exact hl7
          clear_value l8 l9
          refine keeps_ite ?_ ?_
          · apply flaconComplete_keeps; exact hl7
          · exact Keeps.mk' hl8 rfl

theorem execDdRewind_keeps {s0 : State} (h : Hdr) (beat : Stamp) {s t' : State} (hk : Keeps s0 s) (he
    : execDdRewind h beat s = .next t') : Keeps s0 t' := by
  unfold execDdRewind at he
  cases he
  apply serve_keeps
  · intro v0 v1; apply ddRewind_keeps; exact v1
  · exact hk

theorem execJwait_keeps {s0 : State} (k : Fin 96) (bg : Bool) (w : AeW) {s t' : State} (hk : Keeps s0 s) (he
    : execJwait k bg w s = .next t') : Keeps s0 t' := by
  unfold execJwait at he
  cases he
  apply aeExec_keeps
  · intro v0 v1 v2
    refine keeps_ite ?_ ?_
    · apply clSet_keeps; exact v2
    · exact v2
  · exact hk

theorem execBgSuspend_keeps {s0 : State} (k : Fin 96) {s t' : State} (hk : Keeps s0 s) (he
    : execBgSuspend k s = .next t') : Keeps s0 t' := by
  unfold execBgSuspend at he
  cases he
  apply bgSuspend_keeps; exact hk

theorem execCsiExport_keeps {s0 : State} (h : Hdr) (carrier : BitVec 8) (queue : BitVec 16) (beat : Stamp)
    (layers : BitVec 64) {s t' : State} (hk : Keeps s0 s) (he
    : execCsiExport h carrier queue beat layers s = .next t') : Keeps s0 t' := by
  unfold execCsiExport at he
  cases he
  apply serve_keeps
  · intro v0 v1; apply csiExport_keeps; exact v1
  · exact hk

theorem execJdone_keeps {s0 : State} (k : Fin 96) (bg : Bool) (w : AeW) {s t' : State} (hk : Keeps s0 s) (he
    : execJdone k bg w s = .next t') : Keeps s0 t' := by
  unfold execJdone at he
  cases he
  apply aeExec_keeps
  · intro v0 v1 v2
    refine keeps_ite ?_ ?_
    · apply jobDone_keeps; exact v2
    · exact v2
  · exact hk

theorem execCodecRun_keeps {s0 : State} (h : Hdr) (op : BitVec 8) (reserve : BitVec 8) (queue : BitVec 16) (count
    : BitVec 16) (src : BitVec 32) (dst : BitVec 32) (dstBytes : BitVec 32) {s t' : State} (hk : Keeps s0 s) (he
    : execCodecRun h op reserve queue count src dst dstBytes s = .next t') : Keeps s0 t' := by
  unfold execCodecRun at he
  cases he
  apply serve_keeps
  · intro v0 v1; apply codecRun_keeps; exact v1
  · exact hk

theorem execDdStatus_keeps {s0 : State} (h : Hdr) {s t' : State} (hk : Keeps s0 s) (he
    : execDdStatus h s = .next t') : Keeps s0 t' := by
  unfold execDdStatus at he
  cases he
  apply serve_keeps
  · intro v0 v1; apply ddStatus_keeps; exact v1
  · exact hk

theorem execHostJobComplete_keeps {s0 : State} (opcode : BitVec 16) {s t' : State} (hk : Keeps s0 s) (he
    : execHostJobComplete opcode s = .next t') : Keeps s0 t' := by
  unfold execHostJobComplete at he
  cases he
  apply hostJobComplete_keeps; exact hk

theorem execRecombineDeadline_keeps {s0 : State} (c : Fin 4) {s t' : State} (hk : Keeps s0 s) (he
    : execRecombineDeadline c s = .next t') : Keeps s0 t' := by
  unfold execRecombineDeadline at he
  cases he
  apply recombineDeadline_keeps; exact hk

theorem execDdReadDeadline_keeps {s0 : State} (c : Fin 4) {s t' : State} (hk : Keeps s0 s) (he
    : execDdReadDeadline c s = .next t') : Keeps s0 t' := by
  unfold execDdReadDeadline at he
  cases he
  apply ddReadDeadline_keeps; exact hk

theorem execJobPartPlaced_keeps {s0 : State} (k : Fin 96) {s t' : State} (hk : Keeps s0 s) (he
    : execJobPartPlaced k s = .next t') : Keeps s0 t' := by
  unfold execJobPartPlaced at he
  cases he
  apply jobPartPlaced_keeps; exact hk

theorem execRecombineRun_keeps {s0 : State} (h : Hdr) (carrier : BitVec 8) (mark : BitVec 8) (queue : BitVec 16)
    (first : Stamp) (last : Stamp) (layers : BitVec 64) {s t' : State} (hk : Keeps s0 s) (he
    : execRecombineRun h carrier mark queue first last layers s = .next t') : Keeps s0 t' := by
  unfold execRecombineRun at he
  cases he
  apply serve_keeps
  · intro v0 v1; apply recombineRun_keeps; exact v1
  · exact hk

theorem execBgSuspendRequest_keeps {s0 : State} (k : Fin 96) {s t' : State} (hk : Keeps s0 s) (he
    : execBgSuspendRequest k s = .next t') : Keeps s0 t' := by
  unfold execBgSuspendRequest at he
  cases he
  apply bgSuspendRequest_keeps; exact hk

theorem execDdGroupEncode_keeps {s0 : State} (c : Fin 4) (g : Fin 16) {s t' : State} (hk : Keeps s0 s) (he
    : execDdGroupEncode c g s = .next t') : Keeps s0 t' := by
  unfold execDdGroupEncode at he
  cases he
  apply groupEncode_keeps; exact hk

theorem execDdFetch_keeps {s0 : State} (h : Hdr) (mark : BitVec 8) (queue : BitVec 16) (first : Stamp) (last
    : Stamp) {s t' : State} (hk : Keeps s0 s) (he : execDdFetch h mark queue first last s = .next t')
    : Keeps s0 t' := by
  unfold execDdFetch at he
  cases he
  apply serve_keeps
  · intro v0 v1; apply ddFetch_keeps; exact v1
  · exact hk

theorem applyAccordLate_keeps {s0 : State} (slot : Nat) (dev : Nat) (lin : Nat) {s : State} (hk : Keeps s0 s)
    : Keeps s0 (applyAccordLate slot dev lin s) := by
  unfold applyAccordLate
  refine keeps_ite ?_ ?_
  · exact hk
  · extract_lets l0 l1
    have hl0 : Keeps s0 l0 := by
      unfold l0
      with_reducible refine foldl_keeps ?_ ?_
      · intro v2 v3 v4; extract_lets l5; clear_value l5; apply resWrite_keeps; exact v4
      · exact hk
    clear_value l0 l1; apply count_keeps; exact Keeps.mk' hl0 rfl

theorem accordClose_keeps {s0 : State} (slot : Nat) (lin : Nat) {s : State} (hk : Keeps s0 s) : Keeps s0
    (accordClose slot lin s) := by
  unfold accordClose
  split
  · exact hk
  · extract_lets l0 l1 l2; clear_value l0 l1 l2
    refine keeps_ite ?_ ?_
    · exact hk
    · with_reducible refine foldl_keeps ?_ ?_
      · intro v3 v4 v5; extract_lets l6
        have hl6 : Keeps s0 l6 := by
          unfold l6; apply makeVerdict_keeps; exact v5
        clear_value l6
        refine keeps_ite ?_ ?_
        · exact hl6
        · apply applyAccordLate_keeps; exact hl6
      · exact hk

theorem accordDeadline_keeps {s0 : State} (slot : Nat) {s : State} (hk : Keeps s0 s) : Keeps s0
    (accordDeadline slot s) := by
  unfold accordDeadline
  split
  · exact hk
  · extract_lets l0 l1
    have hl0 : Keeps s0 l0 := by
      unfold l0; apply advanceTo_keeps; exact hk
    clear_value l0 l1
    refine keeps_ite ?_ ?_
    · exact hl0
    · apply accordClose_keeps; apply sendTwLead_keeps; exact hl0

theorem keepCombos_keeps {s0 : State} (kind : Nat) (c : Nat) (l : Nat) (lin : Nat) (work : Nat) (quiet : Bool) {s
    : State} (hk : Keeps s0 s) : Keeps s0 (keepCombos kind c l lin work quiet s).2 := by
  unfold keepCombos
  extract_lets l0
  have hl0 : Keeps s0 l0.2 := by
    unfold l0; apply formCombos_keeps; exact hk
  clear_value l0; dsimp only
  refine keeps_ite ?_ ?_
  · exact hk
  · exact hl0

theorem recordDue_keeps {s0 : State} (q : Nat) (noteQ : Nat) (kind : Nat) (reason : Nat) (c : Nat) (l : Nat) (lin
    : Nat) (section_ : Nat) (heartQ : Nat) (ver : Stamp) {s : State} (hk : Keeps s0 s) : Keeps s0
    (recordDue q noteQ kind reason c l lin section_ heartQ ver s) := by
  unfold recordDue
  extract_lets l0; clear_value l0; apply addDue_keeps; apply count_keeps; exact hk

theorem dependentDues_keeps {s0 : State} {s : State} (hk : Keeps s0 s) : Keeps s0 (dependentDues s) := by
  unfold dependentDues
  extract_lets l0 l1; clear_value l0 l1
  with_reducible refine foldl_keeps ?_ ?_
  · intro v2 v3 v4; extract_lets l5 l6; clear_value l5
    have hl6 : Keeps s0 l6 := by
      unfold l6; exact Keeps.mk' v4 rfl
    clear_value l6; apply recordDue_keeps; exact hl6
  · exact hk

theorem topDues_keeps {s0 : State} (sub : Bool) {s : State} (hk : Keeps s0 s) : Keeps s0 (topDues sub s) := by
  unfold topDues
  extract_lets l0; clear_value l0
  refine keeps_ite ?_ ?_
  · exact hk
  · with_reducible refine foldl_keeps ?_ ?_
    · intro v1 v2 v3
      with_reducible refine foldl_keeps ?_ ?_
      · intro v4 v5 v6; extract_lets l7; clear_value l7
        refine keeps_ite ?_ ?_
        · with_reducible refine foldl_keeps ?_ ?_
          · intro v8 v9 v10; apply addDue_keeps; exact v10
          · exact v6
        · exact v6
      · exact v3
    · exact hk

theorem closeNote_keeps {s0 : State} (id : Nat) (revoked : Bool) {s : State} (hk : Keeps s0 s) : Keeps s0
    (closeNote id revoked s) := by
  unfold closeNote
  extract_lets l0 l1; clear_value l0 l1; exact Keeps.mk' hk rfl

theorem heartSection_keeps {s0 : State} (sub : Bool) (c : Nat) (l : Nat) (lin : Nat) (x : Combo) {s : State} (hk
    : Keeps s0 s) : Keeps s0 (heartSection sub c l lin x s) := by
  unfold heartSection
  extract_lets l0 l1 l2 l3 l4 l5 l6 l7; clear_value l0 l1 l2 l3 l4 l5
  have hl6 : ∀ a0 a1, Keeps s0 a1 → Keeps s0 (l6 a0 a1) := by
    intro v8 v9 v10; unfold l6
    refine keeps_ite ?_ ?_
    · apply addDue_keeps; exact v10
    · apply addDue_keeps; exact v10
  clear_value l6
  have hl7 : ∀ a0 a1 a2 a3, Keeps s0 a3 → Keeps s0 (l7 a0 a1 a2 a3) := by
    intro v11 v12 v13 v14 v15; unfold l7; apply recordDue_keeps; exact v15
  clear_value l7
  split
  · extract_lets l16 l17; clear_value l16 l17
    refine keeps_ite ?_ ?_
    · apply closeNote_keeps; apply hl7; exact hk
    · apply hl6; apply closeNote_keeps; apply hl7; exact hk
  · apply hl6; exact hk
  · apply closeNote_keeps; apply hl7; exact hk
  · apply hl6; exact hk
  · apply closeNote_keeps; apply hl7; exact hk
  · apply hl6; apply hl7; exact hk

theorem heartLayer_keeps {s0 : State} (sub : Bool) (k : Nat) (l : List Combo) {s : State} (hk : Keeps s0 s)
    : Keeps s0 (heartLayer sub k l s) := by
  unfold heartLayer
  extract_lets l0 l1 l2; clear_value l0
  have hl1 : Keeps s0 l1 := by
    unfold l1
    with_reducible refine foldl_keeps ?_ ?_
    · intro v3 v4 v5; apply heartSection_keeps; exact v5
    · exact hk
  clear_value l1 l2; exact Keeps.mk' hl1 rfl

theorem heartDues_keeps {s0 : State} (sub : Bool) {s : State} (hk : Keeps s0 s) : Keeps s0 (heartDues sub s) := by
  unfold heartDues
  extract_lets l0 l1 l2; clear_value l0 l1
  have hl2 : Keeps s0 l2 := by
    unfold l2
    with_reducible refine foldl_keeps ?_ ?_
    · intro v3 v4 v5; apply count_keeps; exact v5
    · exact hk
  clear_value l2
  with_reducible refine foldl_keeps ?_ ?_
  · intro v6 v7 v8; apply heartLayer_keeps; exact v8
  · exact hl2

theorem listDues_keeps {s0 : State} (sub : Bool) {s : State} (hk : Keeps s0 s) : Keeps s0 (listDues sub s) := by
  unfold listDues
  refine keeps_ite ?_ ?_
  · exact hk
  · apply dependentDues_keeps; apply topDues_keeps; apply heartDues_keeps; exact Keeps.mk' hk rfl

theorem cleanCopy_keeps {s0 : State} (c : Nat) (lin : Nat) (base : Nat) (sub : Bool) {s : State} (hk
    : Keeps s0 s) : Keeps s0 (cleanCopy c lin base sub s) := by
  unfold cleanCopy
  extract_lets l0 l1 l2; clear_value l0 l1 l2; apply resWrite_keeps; exact hk

theorem soundingRefs_keeps {s0 : State} (c : Nat) (lin : Nat) (base : Nat) (sub : Bool) {s : State} (hk
    : Keeps s0 s) : Keeps s0 (soundingRefs c lin base sub s) := by
  unfold soundingRefs
  extract_lets l0; clear_value l0; apply resWrite_keeps; exact hk

theorem soundingWork_keeps {s0 : State} (sub : Bool) {s : State} (hk : Keeps s0 s) : Keeps s0
    (soundingWork sub s) := by
  unfold soundingWork
  extract_lets l0; clear_value l0
  refine keeps_ite ?_ ?_
  · exact hk
  · with_reducible refine foldl_keeps ?_ ?_
    · intro v1 v2 v3
      split
      · extract_lets l4
        have hl4 : Keeps s0 l4 := by
          unfold l4; apply cleanCopy_keeps; exact v3
        clear_value l4
        split
        · apply soundingRefs_keeps; exact hl4
        · exact hl4
      · exact v3
    · exact hk

theorem sqSubstitute_keeps {s0 : State} {s : State} (hk : Keeps s0 s) : Keeps s0 (sqSubstitute s) := by
  unfold sqSubstitute
  extract_lets l0 l1
  have hl0 : Keeps s0 l0 := by
    unfold l0; apply listDues_keeps; exact hk
  clear_value l0
  have hl1 : Keeps s0 l1 := by
    unfold l1
    with_reducible refine foldl_keeps ?_ ?_
    · intro v2 v3 v4; extract_lets l5 l6 l7
      have hl5 : Keeps s0 l5.1 := by
        unfold l5; apply fifoCut_keeps; exact v4
      clear_value l5
      have hl6 : Keeps s0 l6 := by
        unfold l6; exact hl5
      clear_value l6 l7; apply fifoSet_keeps; exact hl6
    · exact hl0
  clear_value l1; apply soundingWork_keeps; exact hl1

theorem accordSend_keeps {s0 : State} (w : BitVec 128) (c : Nat) (l : Nat) (lin : Nat) (secs : List
    (AccSection × Bool)) {s : State} (hk : Keeps s0 s) : Keeps s0 (accordSend w c l lin secs s) := by
  unfold accordSend
  extract_lets l0 l1 l2 l3 l4; clear_value l0 l1 l2 l3 l4
  split
  · exact hk
  · extract_lets l5 l6 l7 l8 l9; clear_value l5
    have hl6 : Keeps s0 l6 := by
      unfold l6; exact Keeps.mk' hk rfl
    clear_value l6 l7
    have hl8 : ∀ a0 a1, Keeps s0 a1 → Keeps s0 (l8 a0 a1) := by
      intro v10 v11 v12; unfold l8; extract_lets l13; clear_value l13; apply macSend_keeps; exact v12
    clear_value l8
    have hl9 : Keeps s0 l9 := by
      unfold l9; apply hl8; exact hl6
    clear_value l9
    refine keeps_ite ?_ ?_
    · exact hl6
    · refine keeps_ite ?_ ?_
      · exact hl9
      · apply hl8; exact hl9

theorem accordWork_keeps {s0 : State} {s : State} (hk : Keeps s0 s) : Keeps s0 (accordWork s) := by
  unfold accordWork
  extract_lets l0 l1 l2 l3 l4; clear_value l0 l1 l2 l3
  have hl4 : Keeps s0 l4 := by
    unfold l4
    with_reducible refine foldl_keeps ?_ ?_
    · intro v5 v6 v7
      with_reducible refine foldl_keeps ?_ ?_
      · intro v8 v9 v10; apply accordSend_keeps; exact v10
      · exact v7
    · exact hk
  clear_value l4
  refine keeps_ite ?_ ?_
  · exact hk
  · with_reducible refine foldl_keeps ?_ ?_
    · intro v11 v12 v13
      with_reducible refine foldl_keeps ?_ ?_
      · intro v14 v15 v16; apply fileAccord_keeps; exact v16
      · exact v13
    · exact hl4

theorem sqComplete_keeps {s0 : State} {s : State} (hk : Keeps s0 s) : Keeps s0 (sqComplete s) := by
  unfold sqComplete
  apply accordWork_keeps; apply soundingWork_keeps; exact hk

theorem sqBegin_keeps {s0 : State} {s : State} (hk : Keeps s0 s) : Keeps s0 (sqBegin s) := by
  unfold sqBegin
  apply listDues_keeps; exact hk

theorem keepBeat_keeps {s0 : State} {s : State} (hk : Keeps s0 s) : Keeps s0 (keepBeat s) := by
  unfold keepBeat
  extract_lets l0 l1 l2; clear_value l0 l1
  have hl2 : Keeps s0 l2 := by
    unfold l2
    refine keeps_ite ?_ ?_
    · exact hk
    · with_reducible refine foldl_keeps ?_ ?_
      · intro v3 v4 v5
        with_reducible refine foldl_keeps ?_ ?_
        · intro v6 v7 v8; extract_lets l9 l10 l11 l12; clear_value l9
          have hl10 : Keeps s0 l10.2 := by
            unfold l10; apply keepCombos_keeps; exact v8
          clear_value l10
          have hl11 : Keeps s0 l11 := by
            unfold l11; exact hl10
          clear_value l11 l12
          refine keeps_ite ?_ ?_
          · exact hl10
          · exact Keeps.mk' hl11 rfl
        · exact v5
      · exact hk
  clear_value l2
  with_reducible refine foldl_keeps ?_ ?_
  · intro v13 v14 v15; extract_lets l16 l17 l18 l19 l20; clear_value l16 l17
    have hl18 : Keeps s0 l18.2 := by
      unfold l18; apply keepCombos_keeps; exact v15
    clear_value l18
    have hl19 : Keeps s0 l19 := by
      unfold l19; exact hl18
    clear_value l19 l20
    refine keeps_ite ?_ ?_
    · exact Keeps.mk' hl19 rfl
    · exact v15
  · exact hl2

theorem keepErasures_keeps {s0 : State} (lin : Nat) {s : State} (hk : Keeps s0 s) : Keeps s0 (keepErasures lin s) := by
  unfold keepErasures
  with_reducible refine foldl_keeps ?_ ?_
  · intro v0 v1 v2
    split
    · exact v2
    · extract_lets l3 l4 l5; clear_value l3 l4 l5; exact Keeps.mk' v2 rfl
  · exact hk

theorem execAccordPartialDeadline_keeps {s0 : State} (slot : Fin 64) {s t' : State} (hk : Keeps s0 s) (he
    : execAccordPartialDeadline slot s = .next t') : Keeps s0 t' := by
  unfold execAccordPartialDeadline at he
  cases he
  apply accordDeadline_keeps; exact hk

end Sys2Proof.Machine
end

