-- ==== Sys2Proof/Laws/KeepArray.lean ====
section
/-! SUPPORT. The front end, the lanes, the STU and the SIC: each operation keeps what `Keeps` says (`f_keeps` is the lemma of `f`). -/

namespace Sys2Proof.Machine

theorem txSetE_keeps {s0 : State} (e : Nat) (t : EfeTx) {s : State} (hk : Keeps s0 s) : Keeps s0 (txSetE e t s) := by
  unfold txSetE
  exact Keeps.mk' hk rfl

theorem efeStop_keeps {s0 : State} (lin : Nat) {s : State} (hk : Keeps s0 s) : Keeps s0 (efeStop lin s) := by
  unfold efeStop
  exact Keeps.mk' hk rfl

theorem rxSetE_keeps {s0 : State} (e : Nat) (r : EfeRx) {s : State} (hk : Keeps s0 s) : Keeps s0 (rxSetE e r s) := by
  unfold rxSetE
  exact Keeps.mk' hk rfl

theorem efeZero_keeps {s0 : State} (e : Nat) (lin : Nat) (ta : Int) (lat : Nat) {s : State} (hk : Keeps s0 s)
    : Keeps s0 (efeZero e lin ta lat s) := by
  unfold efeZero
  extract_lets l0 l1 l2 l3 l4 l5 l6 l7 l8 l9; clear_value l0 l1 l2 l3 l4 l5
  have hl6 : Keeps s0 l6 := by
    unfold l6; apply rxSetE_keeps; exact hk
  clear_value l6 l7
  have hl8 : Keeps s0 l8 := by
    unfold l8
    with_reducible refine foldl_keeps ?_ ?_
    · intro v10 v11 v12; extract_lets l13 l14 l15; clear_value l13 l14 l15; exact Keeps.mk' v12 rfl
    · exact hl6
  clear_value l8 l9; apply count_keeps; apply txSetE_keeps; exact hl8

theorem txCombine_keeps {s0 : State} (e : Nat) (late : BitVec 4) {s : State} (hk : Keeps s0 s) : Keeps s0
    (txCombine e late s) := by
  unfold txCombine
  extract_lets l0 l1 l2 l3 l4 l5 l6 l7 l8 l9; clear_value l0 l1 l2 l3 l4 l5 l6 l7
  have hl8 : Keeps s0 l8 := by
    unfold l8; apply txSetE_keeps; exact hk
  clear_value l8
  have hl9 : Keeps s0 l9 := by
    unfold l9
    with_reducible refine foldl_keeps ?_ ?_
    · intro v10 v11 v12; extract_lets l13 l14 l15; clear_value l13 l14 l15; exact Keeps.mk' v12 rfl
    · exact hl8
  clear_value l9; apply countBy_keeps; exact hl9

theorem txPush_keeps {s0 : State} (e : Nat) (c : Nat) (lin : Nat) (l : List Cplx) (late : BitVec 4) {s : State}
    (hk : Keeps s0 s) : Keeps s0 (txPush e c lin l late s) := by
  unfold txPush
  extract_lets l0 l1 l2 l3 l4 l5 l6 l7 l8 l9; clear_value l0 l1 l2 l3 l4 l5 l6 l7 l8 l9; apply txCombine_keeps
  apply countBy_keeps; exact Keeps.mk' hk rfl

theorem filterRead_keeps {s0 : State} (set : BitVec 8) (first : BitVec 16) {s : State} (hk : Keeps s0 s)
    : Keeps s0 (filterRead set first s).2 := by
  unfold filterRead
  split
  · apply fails_keeps; exact hk
  · extract_lets l0 l1 l2; clear_value l0 l1 l2
    refine keeps_ite2 ?_ ?_
    · apply fails_keeps; exact hk
    · dsimp only
      exact hk

theorem rxOutput_keeps {s0 : State} (e : Nat) (x : Samp) {s : State} (hk : Keeps s0 s) : Keeps s0
    (rxOutput e x s) := by
  unfold rxOutput
  extract_lets l0 l1 l2 l3 l4 l5 l6 l7 l8; clear_value l0 l1 l2 l3
  have hl4 : ∀ a0 a1, Keeps s0 a0 → Keeps s0 (l4 a0 a1) := by
    intro v9 v10 v11; unfold l4; extract_lets l12 l13 l14; clear_value l12 l13
    have hl14 : Keeps s0 l14 := by
      unfold l14; exact Keeps.mk' v11 rfl
    clear_value l14; apply countBy_keeps; exact hl14
  clear_value l4
  have hl5 : Keeps s0 l5 := by
    unfold l5
    with_reducible refine foldl_keeps ?_ ?_
    · intro v15 v16 v17; apply hl4; exact v17
    · exact hk
  clear_value l5
  have hl6 : Keeps s0 l6 := by
    unfold l6; apply countBy_keeps; exact hl5
  clear_value l6 l7; apply rxSetE_keeps; exact hl6

theorem rxDrain_keeps {s0 : State} (e n : Nat) {s : State} (hk : Keeps s0 s) : Keeps s0 (rxDrain e n s) := by
  induction n generalizing s with
  | zero => exact hk
  | succ n ih =>
    rw [rxDrain]
    refine keeps_ite ?_ ?_
    · exact hk
    · extract_lets l0 l1 l2 l3 l4 l5; clear_value l0 l1 l2
      have hl3 : Keeps s0 l3 := by
        unfold l3; apply countBy_keeps; exact hk
      clear_value l3 l4 l5
      refine keeps_ite ?_ ?_
      · exact hk
      · apply ih; apply rxOutput_keeps; exact hl3

theorem efeInput_keeps {s0 : State} (e : Nat) (l : List Samp) {s : State} (hk : Keeps s0 s) : Keeps s0
    (efeInput e l s) := by
  unfold efeInput
  extract_lets l0 l1 l2 l3 l4; clear_value l0
  have hl1 : Keeps s0 l1 := by
    unfold l1; apply rxSetE_keeps; exact hk
  clear_value l1
  have hl2 : Keeps s0 l2 := by
    unfold l2; apply rxDrain_keeps; exact hl1
  clear_value l2 l3 l4
  refine keeps_ite ?_ ?_
  · exact hl2
  · apply rxSetE_keeps; exact hl2

theorem execFilterRead_keeps {s0 : State} (h : Hdr) (set : BitVec 8) (first : BitVec 16) {s t' : State} (hk
    : Keeps s0 s) (he : execFilterRead h set first s = .next t') : Keeps s0 t' := by
  unfold execFilterRead at he
  cases he
  apply serve_keeps
  · intro v0 v1; apply filterRead_keeps; exact v1
  · exact hk

theorem laneSet_keeps {s0 : State} (e : Nat) (l : Lane) {s : State} (hk : Keeps s0 s) : Keeps s0 (laneSet e l s) := by
  unfold laneSet
  exact Keeps.mk' hk rfl

theorem lateUpdate_keeps {s0 : State} (e : Nat) {s : State} (hk : Keeps s0 s) : Keeps s0 (lateUpdate e s) := by
  unfold lateUpdate
  extract_lets l0 l1 l2; clear_value l0 l1
  have hl2 : Keeps s0 l2 := by
    unfold l2; apply laneSet_keeps; exact hk
  clear_value l2
  refine keeps_ite ?_ ?_
  · apply raiseEv_keeps; exact hl2
  · exact hl2

theorem lateUpdateAll_keeps {s0 : State} {s : State} (hk : Keeps s0 s) : Keeps s0 (lateUpdateAll s) := by
  unfold lateUpdateAll
  with_reducible refine foldl_keeps ?_ ?_
  · intro v0 v1 v2; apply lateUpdate_keeps; exact v2
  · exact hk

theorem txMultiblock_keeps {s0 : State} (e : Nat) {s : State} (hk : Keeps s0 s) : Keeps s0 (txMultiblock e s) := by
  unfold txMultiblock
  extract_lets l0 l1 l2 l3; clear_value l0 l1 l2
  have hl3 : Keeps s0 l3 := by
    unfold l3; apply txSetE_keeps; apply laneSet_keeps; exact hk
  clear_value l3
  refine keeps_ite ?_ ?_
  · exact hk
  · refine keeps_ite ?_ ?_
    · apply emit_keeps; apply laneSet_keeps; exact hk
    · apply emit_keeps; apply countBy_keeps; exact hl3

theorem alignPulse_keeps {s0 : State} {s : State} (hk : Keeps s0 s) : Keeps s0 (alignPulse s) := by
  unfold alignPulse
  split
  · extract_lets l0 l1 l2 l3
    have hl0 : Keeps s0 l0 := by
      unfold l0
      refine keeps_ite ?_ ?_
      · apply advanceToTime_keeps; exact hk
      · exact hk
    clear_value l0 l1
    have hl2 : Keeps s0 l2 := by
      unfold l2; exact Keeps.mk' hl0 rfl
    clear_value l2
    have hl3 : Keeps s0 l3 := by
      unfold l3
      with_reducible refine foldl_keeps ?_ ?_
      · intro v4 v5 v6
        refine keeps_ite ?_ ?_
        · extract_lets l7; clear_value l7; apply pulseRise_keeps; exact v6
        · exact v6
      · exact hl2
    clear_value l3
    refine keeps_ite ?_ ?_
    · exact Keeps.mk' hl0 rfl
    · with_reducible refine foldl_keeps ?_ ?_
      · intro v8 v9 v10; apply laneSet_keeps; exact v10
      · exact hl3
  · exact hk

theorem releaseBlock_keeps {s0 : State} (e : Nat) (l : List (BitVec 16 × BitVec 16)) (crcOk : Bool) {s : State}
    (hk : Keeps s0 s) : Keeps s0 (releaseBlock e l crcOk s) := by
  unfold releaseBlock
  extract_lets l0 l1 l2; clear_value l0 l1 l2
  refine keeps_ite ?_ ?_
  · exact hk
  · refine keeps_ite ?_ ?_
    · apply efeInput_keeps; exact hk
    · refine keeps_ite ?_ ?_
      · split
        · apply efeInput_keeps; exact hk
        · apply efeInput_keeps; exact hk
      · refine keeps_ite ?_ ?_
        · apply efeInput_keeps; exact hk
        · exact hk

theorem refSwitch_keeps {s0 : State} {s : State} (hk : Keeps s0 s) : Keeps s0 (refSwitch s) := by
  unfold refSwitch
  extract_lets old
  clear_value old
  generalize (List.map (fun i => (old + 1 + i) % 256) (List.range 255)).find? (inServiceLane s) = o
  cases o with
  | none => exact hk
  | some n =>
    generalize List.range 256 = l
    show Keeps s0 (if hn : n < 256 then _ else _)
    split
    · extract_lets o s1 s2
      refine raiseEv_keeps _ _ _ (count_keeps _ _ ?_)
      refine Keeps.mk' (s := s1) (foldl_keeps ?_ hk) rfl
      intro s x h
      refine keeps_ite (laneSet_keeps _ _ h) h
    · exact hk

theorem loseLock_keeps {s0 : State} (e : Nat) (err : Nat) {s : State} (hk : Keeps s0 s) : Keeps s0
    (loseLock e err s) := by
  unfold loseLock
  extract_lets l0 l1 l2 l3 l4; clear_value l0 l1
  have hl2 : Keeps s0 l2 := by
    unfold l2; apply laneSet_keeps; exact hk
  clear_value l2
  have hl3 : Keeps s0 l3 := by
    unfold l3
    refine keeps_ite ?_ ?_
    · apply releaseBlock_keeps; exact hl2
    · exact hl2
  clear_value l3
  have hl4 : Keeps s0 l4 := by
    unfold l4; apply raiseEv_keeps; apply count_keeps; exact hl3
  clear_value l4
  split
  · refine keeps_ite ?_ ?_
    · apply refSwitch_keeps; exact hl4
    · exact hl4
  · refine keeps_ite ?_ ?_
    · apply refSwitch_keeps; exact hl4
    · exact hl4
  · apply laneSet_keeps; exact hk
  · apply laneSet_keeps; exact hk
  · apply laneSet_keeps; exact hk
  · exact hk

theorem elasticSlip_keeps {s0 : State} (e : Nat) {s : State} (hk : Keeps s0 s) : Keeps s0 (elasticSlip e s) := by
  unfold elasticSlip
  refine keeps_ite ?_ ?_
  · exact hk
  · apply loseLock_keeps; apply count_keeps; exact hk

theorem laneBlockLock_keeps {s0 : State} (e : Nat) {s : State} (hk : Keeps s0 s) : Keeps s0 (laneBlockLock e s) := by
  unfold laneBlockLock
  extract_lets l0; clear_value l0
  refine keeps_ite ?_ ?_
  · apply laneSet_keeps; exact hk
  · exact hk

theorem linkAlign_keeps {s0 : State} (t : TInst) (pins : BitVec 16) (elements : BitVec 256) {s : State} (hk
    : Keeps s0 s) : Keeps s0 (linkAlign t pins elements s).2 := by
  unfold linkAlign
  refine keeps_ite2 ?_ ?_
  · apply fails_keeps; exact hk
  · refine keeps_ite2 ?_ ?_
    · apply fails_keeps; exact hk
    · refine keeps_ite2 ?_ ?_
      · apply fails_keeps; exact hk
      · apply okWith_keeps; exact Keeps.mk' hk rfl

theorem alignmentFailure_keeps {s0 : State} {s : State} (hk : Keeps s0 s) : Keeps s0 (alignmentFailure s) := by
  unfold alignmentFailure
  split
  · extract_lets l0 l1 l2
    have hl0 : Keeps s0 l0 := by
      unfold l0
      refine keeps_ite ?_ ?_
      · apply advanceToTime_keeps; exact hk
      · exact hk
    clear_value l0 l1
    have hl2 : Keeps s0 l2 := by
      unfold l2; exact Keeps.mk' hl0 rfl
    clear_value l2
    with_reducible refine foldl_keeps ?_ ?_
    · intro v3 v4 v5; extract_lets l6 l7 l8 l9; clear_value l6 l7
      have hl8 : Keeps s0 l8 := by
        unfold l8; apply laneSet_keeps; exact v5
      clear_value l8
      have hl9 : Keeps s0 l9 := by
        unfold l9
        refine keeps_ite ?_ ?_
        · apply count_keeps; exact hl8
        · exact hl8
      clear_value l9
      refine keeps_ite ?_ ?_
      · exact v5
      · apply makeVerdict_keeps; exact hl9
    · exact hl2
  · exact hk

theorem laneMultiblock_keeps {s0 : State} (e : Nat) (samples : List (BitVec 16 × BitVec 16)) (hdrs : BitVec 32)
    (crcOk : Bool) {s : State} (hk : Keeps s0 s) : Keeps s0 (laneMultiblock e samples hdrs crcOk s) := by
  unfold laneMultiblock
  extract_lets l0 l1 l2 l3 l4 l5; clear_value l0 l1 l2
  have hl3 : Keeps s0 l3 := by
    unfold l3; apply countBy_keeps; apply laneSet_keeps; exact hk
  clear_value l3
  have hl4 : Keeps s0 l4 := by
    unfold l4
    split
    · exact hl3
    · apply releaseBlock_keeps
      refine keeps_ite ?_ ?_
      · exact hl3
      · apply count_keeps; exact hl3
  clear_value l4 l5
  refine keeps_ite ?_ ?_
  · exact hk
  · refine keeps_ite ?_ ?_
    · apply loseLock_keeps; exact hl3
    · refine keeps_ite ?_ ?_
      · exact hl3
      · apply laneSet_keeps; exact hl4

theorem alignElement_keeps {s0 : State} (e : Nat) (ta : Int) (stamp : Int) (k : Nat) (reason : AlignReason) {s
    : State} (hk : Keeps s0 s) : Keeps s0 (alignElement e ta stamp k reason s) := by
  unfold alignElement
  extract_lets l0 l1 l2 l3 l4 l5 l6 l7; clear_value l0 l1 l2 l3
  have hl4 : Keeps s0 l4 := by
    unfold l4; apply laneSet_keeps; exact hk
  clear_value l4 l5
  have hl6 : Keeps s0 l6 := by
    unfold l6; apply rxSetE_keeps; exact hl4
  clear_value l6
  have hl7 : Keeps s0 l7 := by
    unfold l7
    refine keeps_ite ?_ ?_
    · apply count_keeps; exact hl6
    · exact hl6
  clear_value l7; apply makeVerdict_keeps; exact hl7

theorem lockedBoundary_keeps {s0 : State} (e : Nat) (stamp : Int) {s : State} (hk : Keeps s0 s) : Keeps s0
    (lockedBoundary e stamp s) := by
  unfold lockedBoundary
  extract_lets l0; clear_value l0
  refine keeps_ite ?_ ?_
  · exact hk
  · refine keeps_ite ?_ ?_
    · apply alignElement_keeps; exact hk
    · refine keeps_ite ?_ ?_
      · apply alignElement_keeps; exact hk
      · refine keeps_ite ?_ ?_
        · refine keeps_ite ?_ ?_
          · apply alignElement_keeps; exact hk
          · apply laneSet_keeps; exact hk
        · refine keeps_ite ?_ ?_
          · apply loseLock_keeps; apply count_keeps; exact hk
          · exact hk

theorem refBoundary_keeps {s0 : State} (stamp : Int) {s : State} (hk : Keeps s0 s) : Keeps s0
    (refBoundary stamp s) := by
  unfold refBoundary
  extract_lets l0 l1 l2 l3 l4; clear_value l0 l1 l2 l3
  have hl4 : Keeps s0 l4 := by
    unfold l4; exact Keeps.mk' hk rfl
  clear_value l4
  with_reducible refine foldl_keeps ?_ ?_
  · intro v5 v6 v7
    refine keeps_ite ?_ ?_
    · apply alignElement_keeps; exact v7
    · exact v7
  · exact hl4

theorem embBoundary_keeps {s0 : State} (e : Nat) (stamp : Int) (inPlace : Bool) {s : State} (hk : Keeps s0 s)
    : Keeps s0 (embBoundary e stamp inPlace s) := by
  unfold embBoundary
  extract_lets l0 l1 l2 l3 l4; clear_value l0
  have hl1 : Keeps s0 l1 := by
    unfold l1; apply laneSet_keeps; exact hk
  clear_value l1
  have hl2 : Keeps s0 l2 := by
    unfold l2; apply lockedBoundary_keeps; exact hl1
  clear_value l2 l3
  have hl4 : Keeps s0 l4 := by
    unfold l4; apply laneSet_keeps; exact hl2
  clear_value l4
  refine keeps_ite ?_ ?_
  · exact hk
  · refine keeps_ite ?_ ?_
    · apply loseLock_keeps; apply count_keeps; exact hk
    · refine keeps_ite ?_ ?_
      · exact hl2
      · refine keeps_ite ?_ ?_
        · apply refBoundary_keeps; exact hl4
        · exact hl4

theorem trainLane_keeps {s0 : State} (e : Nat) {s : State} (hk : Keeps s0 s) : Keeps s0 (trainLane e s) := by
  unfold trainLane
  extract_lets l0 l1 l2; clear_value l0 l1
  have hl2 : Keeps s0 l2 := by
    unfold l2; apply laneSet_keeps; exact hk
  clear_value l2; apply rxSetE_keeps; exact hl2

theorem trainAll_keeps {s0 : State} {s : State} (hk : Keeps s0 s) : Keeps s0 (trainAll s) := by
  unfold trainAll
  extract_lets l0 l1 l2
  have hl0 : Keeps s0 l0 := by
    unfold l0
    with_reducible refine foldl_keeps ?_ ?_
    · intro v3 v4 v5; apply trainLane_keeps; exact v5
    · exact hk
  clear_value l0 l1 l2; exact Keeps.mk' hl0 rfl

theorem laneRateFault_keeps {s0 : State} (e : Nat) (ppm : BitVec 16) {s : State} (hk : Keeps s0 s) : Keeps s0
    (laneRateFault e ppm s) := by
  unfold laneRateFault
  extract_lets l0 l1 l2 l3 l4; clear_value l0 l1
  have hl2 : Keeps s0 l2 := by
    unfold l2; apply laneSet_keeps; exact hk
  clear_value l2
  have hl3 : Keeps s0 l3 := by
    unfold l3
    refine keeps_ite ?_ ?_
    · apply count_keeps; exact hl2
    · exact hl2
  clear_value l3
  have hl4 : Keeps s0 l4 := by
    unfold l4; apply raiseEv_keeps; exact hl3
  clear_value l4
  refine keeps_ite ?_ ?_
  · exact hk
  · refine keeps_ite ?_ ?_
    · apply refSwitch_keeps; exact hl4
    · exact hl4

theorem applyLinkSetup_keeps {s0 : State} (lane : BitVec 8) (width : BitVec 16) (skew : BitVec 128) {s : State}
    (hk : Keeps s0 s) : Keeps s0 (applyLinkSetup lane width skew s) := by
  unfold applyLinkSetup
  extract_lets l0 l1 l2 l3 l4 l5 l6 l7 l8 l9 l10; clear_value l0 l1
  have hl2 : Keeps s0 l2 := by
    unfold l2; exact Keeps.mk' hk rfl
  clear_value l2 l3 l4
  have hl5 : Keeps s0 l5 := by
    unfold l5; exact Keeps.mk' hl2 rfl
  clear_value l5 l6
  have hl7 : Keeps s0 l7 := by
    unfold l7
    with_reducible refine foldl_keeps ?_ ?_
    · intro v11 v12 v13; extract_lets l14; clear_value l14
      refine keeps_ite ?_ ?_
      · apply laneSet_keeps; exact v13
      · exact v13
    · exact hl5
  clear_value l7 l8 l9
  have hl10 : Keeps s0 l10 := by
    unfold l10; apply count_keeps; exact Keeps.mk' hl7 rfl
  clear_value l10
  refine keeps_ite ?_ ?_
  · exact hl2
  · refine keeps_ite ?_ ?_
    · exact hl5
    · apply raiseEv_keeps; exact hl10

theorem txStart_keeps {s0 : State} (e : Nat) {s : State} (hk : Keeps s0 s) : Keeps s0 (txStart e s) := by
  unfold txStart
  extract_lets l0; clear_value l0
  refine keeps_ite ?_ ?_
  · apply laneSet_keeps; exact hk
  · exact hk

theorem applyLinkConfig_keeps {s0 : State} (e : Nat) (scope : Nat) (word : BitVec 64) {s : State} (hk
    : Keeps s0 s) : Keeps s0 (applyLinkConfig e scope word s) := by
  unfold applyLinkConfig
  extract_lets l0 l1 l2 l3 l4 l5 l6 l7 l8 l9; clear_value l0 l1 l2
  have hl3 : Keeps s0 l3 := by
    unfold l3; exact Keeps.mk' hk rfl
  clear_value l3 l4 l5
  have hl6 : Keeps s0 l6 := by
    unfold l6; apply rxSetE_keeps; apply laneSet_keeps; exact hl3
  clear_value l6
  have hl7 : Keeps s0 l7 := by
    unfold l7
    refine keeps_ite ?_ ?_
    · refine keeps_ite ?_ ?_
      · apply refSwitch_keeps; exact hl6
      · exact hl6
    · refine keeps_ite ?_ ?_
      · apply laneSet_keeps; exact hl3
      · exact hl3
  clear_value l7 l8
  have hl9 : Keeps s0 l9 := by
    unfold l9
    refine keeps_ite ?_ ?_
    · apply laneSet_keeps; exact hl7
    · apply txStart_keeps; exact hl7
  clear_value l9; apply lateUpdate_keeps; exact hl9

theorem txStartAll_keeps {s0 : State} {s : State} (hk : Keeps s0 s) : Keeps s0 (txStartAll s) := by
  unfold txStartAll
  with_reducible refine foldl_keeps ?_ ?_
  · intro v0 v1 v2; apply txStart_keeps; exact v2
  · exact hk

theorem laneEmbLock_keeps {s0 : State} (e : Nat) {s : State} (hk : Keeps s0 s) : Keeps s0 (laneEmbLock e s) := by
  unfold laneEmbLock
  extract_lets l0; clear_value l0
  split
  · apply txStartAll_keeps; apply laneSet_keeps; exact hk
  · refine keeps_ite ?_ ?_
    · exact hk
    · apply txStartAll_keeps; apply laneSet_keeps; exact hk
  · exact hk

theorem laneTrainTimeout_keeps {s0 : State} {s : State} (hk : Keeps s0 s) : Keeps s0 (laneTrainTimeout s) := by
  unfold laneTrainTimeout
  split
  · exact hk
  · extract_lets l0 l1 l2 l3 l4; clear_value l0 l1
    have hl2 : Keeps s0 l2 := by
      unfold l2; exact Keeps.mk' hk rfl
    clear_value l2
    have hl3 : Keeps s0 l3 := by
      unfold l3
      with_reducible refine foldl_keeps ?_ ?_
      · intro v5 v6 v7; extract_lets l8; clear_value l8; apply laneSet_keeps; exact v7
      · exact hl2
    clear_value l3
    have hl4 : Keeps s0 l4 := by
      unfold l4; apply txStartAll_keeps; exact hl3
    clear_value l4
    refine keeps_ite ?_ ?_
    · exact hl4
    · apply raiseEv_keeps; exact hl4

theorem twinAlign_keeps {s0 : State} (e : Nat) (ta : Int) {s : State} (hk : Keeps s0 s) : Keeps s0
    (twinAlign e ta s) := by
  unfold twinAlign
  extract_lets l0 l1 l2; clear_value l0 l1 l2
  split
  · apply laneSet_keeps; exact hk
  · extract_lets l3; clear_value l3
    refine keeps_ite ?_ ?_
    · apply laneSet_keeps; exact hk
    · refine keeps_ite ?_ ?_
      · apply alignElement_keeps; exact hk
      · exact hk

theorem linkConfig_keeps {s0 : State} (h : Hdr) (element : BitVec 8) (scope : BitVec 8) (word : BitVec 64) {s
    : State} (hk : Keeps s0 s) : Keeps s0 (linkConfig h element scope word s).2 := by
  unfold linkConfig
  extract_lets l0; clear_value l0
  refine keeps_ite2 ?_ ?_
  · apply fails_keeps; exact hk
  · refine keeps_ite2 ?_ ?_
    · apply acceptPair_keeps
      · intro v1 v2; unfold id; exact v2
      · exact hk
    · apply accept_keeps
      · intro v3 v4; unfold id; exact v4
      · exact hk

theorem linkSetup_keeps {s0 : State} (fs : BitVec 32) (lane : BitVec 8) (width : BitVec 16) (skew : BitVec 128)
    {s : State} (hk : Keeps s0 s) : Keeps s0 (linkSetup fs lane width skew s).2 := by
  unfold linkSetup
  extract_lets l0 l1 l2 l3 l4; clear_value l0 l1
  have hl2 : Keeps s0 l2 := by
    unfold l2; apply trainAll_keeps; exact Keeps.mk' hk rfl
  clear_value l2 l3
  have hl4 : Keeps s0 l4 := by
    unfold l4
    refine keeps_ite ?_ ?_
    · exact hk
    · exact Keeps.mk' hl2 rfl
  clear_value l4
  refine keeps_ite2 ?_ ?_
  · apply fails_keeps; exact hk
  · refine keeps_ite2 ?_ ?_
    · apply fails_keeps; exact hk
    · apply accept_keeps
      · intro v5 v6; unfold id; exact v6
      · exact hl4

theorem execElasticBufferSlip_keeps {s0 : State} (e : Fin 256) {s t' : State} (hk : Keeps s0 s) (he
    : execElasticBufferSlip e s = .next t') : Keeps s0 t' := by
  unfold execElasticBufferSlip at he
  cases he
  apply elasticSlip_keeps; exact hk

theorem execLinkAlign_keeps {s0 : State} (h : Hdr) (t : TInst) (pins : BitVec 16) (elements : BitVec 256) {s t'
    : State} (hk : Keeps s0 s) (he : execLinkAlign h t pins elements s = .next t') : Keeps s0 t' := by
  unfold execLinkAlign at he
  cases he
  apply serve_keeps
  · intro v0 v1; apply linkAlign_keeps; exact v1
  · exact hk

theorem execEmbBoundary_keeps {s0 : State} (e : Fin 256) (stamp : Int) (inPlace : Bool) {s t' : State} (hk
    : Keeps s0 s) (he : execEmbBoundary e stamp inPlace s = .next t') : Keeps s0 t' := by
  unfold execEmbBoundary at he
  cases he
  apply embBoundary_keeps; exact hk

theorem execLaneRateFault_keeps {s0 : State} (e : Fin 256) (ppm : BitVec 16) {s t' : State} (hk : Keeps s0 s) (he
    : execLaneRateFault e ppm s = .next t') : Keeps s0 t' := by
  unfold execLaneRateFault at he
  cases he
  apply laneRateFault_keeps; exact hk

theorem execLaneEmbLock_keeps {s0 : State} (e : Fin 256) {s t' : State} (hk : Keeps s0 s) (he
    : execLaneEmbLock e s = .next t') : Keeps s0 t' := by
  unfold execLaneEmbLock at he
  cases he
  apply laneEmbLock_keeps; exact hk

theorem execLaneTrainTimeout_keeps {s0 : State} {s t' : State} (hk : Keeps s0 s) (he
    : execLaneTrainTimeout s = .next t') : Keeps s0 t' := by
  unfold execLaneTrainTimeout at he
  cases he
  apply laneTrainTimeout_keeps; exact hk

theorem execTxExtendedMultiblock_keeps {s0 : State} (e : Fin 256) {s t' : State} (hk : Keeps s0 s) (he
    : execTxExtendedMultiblock e s = .next t') : Keeps s0 t' := by
  unfold execTxExtendedMultiblock at he
  cases he
  apply txMultiblock_keeps; exact hk

theorem execLaneMultiblock_keeps {s0 : State} (e : Fin 256) (samples : List (BitVec 16 × BitVec 16)) (badHeaders
    : BitVec 32) (crcOk : Bool) {s t' : State} (hk : Keeps s0 s) (he
    : execLaneMultiblock e samples badHeaders crcOk s = .next t') : Keeps s0 t' := by
  unfold execLaneMultiblock at he
  cases he
  apply laneMultiblock_keeps; exact hk

theorem execAlignmentFailure_keeps {s0 : State} {s t' : State} (hk : Keeps s0 s) (he
    : execAlignmentFailure s = .next t') : Keeps s0 t' := by
  unfold execAlignmentFailure at he
  cases he
  apply alignmentFailure_keeps; exact hk

theorem execLinkConfig_keeps {s0 : State} (h : Hdr) (element : BitVec 8) (scope : BitVec 8) (word : BitVec 64)
    {s t' : State} (hk : Keeps s0 s) (he : execLinkConfig h element scope word s = .next t') : Keeps s0 t' := by
  unfold execLinkConfig at he
  cases he
  apply serve_keeps
  · intro v0 v1; apply linkConfig_keeps; exact v1
  · exact hk

theorem execLaneBlockLock_keeps {s0 : State} (e : Fin 256) {s t' : State} (hk : Keeps s0 s) (he
    : execLaneBlockLock e s = .next t') : Keeps s0 t' := by
  unfold execLaneBlockLock at he
  cases he
  apply laneBlockLock_keeps; exact hk

theorem execLinkStatus_keeps {s0 : State} (h : Hdr) {s t' : State} (hk : Keeps s0 s) (he
    : execLinkStatus h s = .next t') : Keeps s0 t' := by
  unfold execLinkStatus at he
  cases he
  apply serve_keeps
  · intro v0 v1; apply okWith_keeps; exact v1
  · exact hk

theorem execLinkSetup_keeps {s0 : State} (h : Hdr) (fs : BitVec 32) (lane : BitVec 8) (width : BitVec 16) (skew
    : BitVec 128) {s t' : State} (hk : Keeps s0 s) (he : execLinkSetup h fs lane width skew s = .next t')
    : Keeps s0 t' := by
  unfold execLinkSetup at he
  cases he
  apply serve_keeps
  · intro v0 v1; apply linkSetup_keeps; exact v1
  · exact hk

theorem execAlignPulse_keeps {s0 : State} {s t' : State} (hk : Keeps s0 s) (he : execAlignPulse s = .next t')
    : Keeps s0 t' := by
  unfold execAlignPulse at he
  cases he
  apply alignPulse_keeps; exact hk

theorem execLaneCdrLoss_keeps {s0 : State} (e : Fin 256) {s t' : State} (hk : Keeps s0 s) (he
    : execLaneCdrLoss e s = .next t') : Keeps s0 t' := by
  unfold execLaneCdrLoss at he
  cases he
  apply loseLock_keeps; exact hk

theorem stuSet_keeps {s0 : State} (c : Nat) (x : StuC) {s : State} (hk : Keeps s0 s) : Keeps s0 (stuSet c x s) := by
  unfold stuSet
  exact Keeps.mk' hk rfl

theorem stuErFlush_keeps {s0 : State} {s : State} (hk : Keeps s0 s) : Keeps s0 (stuErFlush s) := by
  unfold stuErFlush
  refine keeps_ite ?_ ?_
  · exact hk
  · with_reducible refine foldl_keeps ?_ ?_
    · intro v0 v1 v2; extract_lets l3 l4; clear_value l3 l4
      refine keeps_ite ?_ ?_
      · exact v2
      · apply feWrite_keeps; apply stuSet_keeps; exact v2
    · exact hk

theorem forwardRecord_keeps {s0 : State} (e : Nat) (c : Nat) (lin : Nat) {s : State} (hk : Keeps s0 s) : Keeps s0
    (forwardRecord e c lin s) := by
  unfold forwardRecord
  extract_lets l0 l1 l2 l3 l4 l5 l6 l7 l8; clear_value l0 l1 l2
  have hl3 : ∀ a0 a1, Keeps s0 a1 → Keeps s0 (l3 a0 a1) := by
    intro v9 v10 v11; unfold l3; apply feWrite_keeps; exact v11
  clear_value l3
  have hl4 : ∀ a0, Keeps s0 a0 → Keeps s0 (l4 a0) := by
    intro v12 v13; unfold l4
    split
    · exact Keeps.mk' v13 rfl
    · exact v13
  clear_value l4 l5 l6
  have hl7 : Keeps s0 l7 := by
    unfold l7
    refine keeps_ite ?_ ?_
    · apply count_keeps; exact hk
    · exact hk
  clear_value l7
  have hl8 : Keeps s0 l8 := by
    unfold l8; apply hl4; exact hl7
  clear_value l8
  refine keeps_ite ?_ ?_
  · apply hl3; exact hk
  · split
    · apply hl3; apply count_keeps; exact hl8
    · extract_lets l14 l15 l16 l17; clear_value l14
      have hl15 : Keeps s0 l15 := by
        unfold l15; apply hl3; exact hl8
      clear_value l15 l16 l17
      refine keeps_ite ?_ ?_
      · exact hl15
      · apply stuSet_keeps; exact hl15

theorem inverseRecord_keeps {s0 : State} (e : Nat) (c : Nat) (lin : Nat) {s : State} (hk : Keeps s0 s) : Keeps s0
    (inverseRecord e c lin s) := by
  unfold inverseRecord
  extract_lets l0 l1 l2 l3 l4 l5 l6; clear_value l0 l1 l2 l3 l4 l5 l6; apply countBy_keeps; apply stuSet_keeps; exact hk

theorem stuProgress_keeps {s0 : State} (c : Nat) (upto : Option Nat) (n : Nat) {s : State} (hk : Keeps s0 s)
    : Keeps s0 (stuProgress c upto n s) := by
  induction n generalizing s with
  | zero => exact hk
  | succ n ih =>
    rw [stuProgress]
    refine keeps_ite ?_ ?_
    · refine keeps_ite ?_ ?_
      · exact hk
      · extract_lets l0 l1
        have hl0 : Keeps s0 l0 := by
          unfold l0
          with_reducible refine foldl_keeps ?_ ?_
          · intro v2 v3 v4; apply forwardRecord_keeps; exact v4
          · exact hk
        clear_value l0 l1; apply ih; apply stuSet_keeps; exact hl0
    · refine keeps_ite ?_ ?_
      · refine keeps_ite ?_ ?_
        · exact hk
        · extract_lets l6 l7
          have hl6 : Keeps s0 l6 := by
            unfold l6
            with_reducible refine foldl_keeps ?_ ?_
            · intro v8 v9 v10; apply inverseRecord_keeps; exact v10
            · exact hk
          clear_value l6 l7; apply ih; apply stuSet_keeps; exact hl6
      · exact hk

theorem stuCatchUp_keeps {s0 : State} {s : State} (hk : Keeps s0 s) : Keeps s0 (stuCatchUp s) := by
  unfold stuCatchUp
  with_reducible refine foldl_keeps ?_ ?_
  · intro v0 v1 v2
    refine keeps_ite ?_ ?_
    · apply stuProgress_keeps; exact v2
    · exact v2
  · exact hk

theorem stuZero_keeps {s0 : State} {s : State} (hk : Keeps s0 s) : Keeps s0 (stuZero s) := by
  unfold stuZero
  exact Keeps.mk' hk rfl

theorem stuPush_keeps {s0 : State} (c : Nat) {s : State} (hk : Keeps s0 s) : Keeps s0 (stuPush c s) := by
  unfold stuPush
  extract_lets l0 l1 l2; clear_value l0 l1 l2
  refine keeps_ite ?_ ?_
  · exact hk
  · with_reducible refine foldl_keeps ?_ ?_
    · intro v3 v4 v5; extract_lets l6; clear_value l6; apply txPush_keeps; exact v5
    · exact hk

theorem stuSubstitute_keeps {s0 : State} (c : Nat) {s : State} (hk : Keeps s0 s) : Keeps s0 (stuSubstitute c s) := by
  unfold stuSubstitute
  extract_lets l0 l1 l2 l3 l4 l5; clear_value l0 l1 l2
  have hl3 : Keeps s0 l3 := by
    unfold l3
    refine keeps_ite ?_ ?_
    · with_reducible refine foldl_keeps ?_ ?_
      · intro v6 v7 v8; apply feWrite_keeps; exact v8
      · exact hk
    · exact hk
  clear_value l3 l4
  have hl5 : Keeps s0 l5 := by
    unfold l5
    refine keeps_ite ?_ ?_
    · apply stuSet_keeps; exact hl3
    · exact hl3
  clear_value l5; apply stuPush_keeps; exact hl5

theorem stuBegin_keeps {s0 : State} (c : Nat) {s : State} (hk : Keeps s0 s) : Keeps s0 (stuBegin c s) := by
  unfold stuBegin
  extract_lets l0 l1; clear_value l0 l1; apply stuSet_keeps; exact hk

theorem blotterVerdicts_keeps {s0 : State} (c : Nat) (lin : Nat) {s : State} (hk : Keeps s0 s) : Keeps s0
    (blotterVerdicts c lin s) := by
  unfold blotterVerdicts
  split
  · exact hk
  · extract_lets l0 l1; clear_value l0
    have hl1 : Keeps s0 l1 := by
      unfold l1; apply countBy_keeps; exact hk
    clear_value l1
    with_reducible refine foldl_keeps ?_ ?_
    · intro v2 v3 v4; apply makeVerdict_keeps; exact v4
    · exact hl1

theorem blotterReport_keeps {s0 : State} (c : Nat) (lin : Nat) (changed : Nat) (b : Blot) (er : BitVec 3276)
    (periodic : Bool) {s : State} (hk : Keeps s0 s) : Keeps s0 (blotterReport c lin changed b er periodic s) := by
  unfold blotterReport
  extract_lets l0 l1 l2; clear_value l0 l1 l2; apply raiseAt_keeps; exact hk

theorem stuCommit_keeps {s0 : State} (c : Nat) (lin : Nat) (changes : List (Nat × Nat)) {s : State} (hk
    : Keeps s0 s) : Keeps s0 (stuCommit c lin changes s) := by
  unfold stuCommit
  extract_lets l0 l1 l2 l3 l4 l5 l6 l7 l8 l9 l10 l11 l12; clear_value l0 l1 l2 l3 l4 l5 l6
  have hl7 : Keeps s0 l7 := by
    unfold l7; apply stuSet_keeps; exact hk
  clear_value l7
  have hl8 : Keeps s0 l8 := by
    unfold l8; apply countBy_keeps; exact hl7
  clear_value l8 l9
  have hl10 : Keeps s0 l10 := by
    unfold l10
    refine keeps_ite ?_ ?_
    · apply count_keeps; exact hl8
    · exact hl8
  clear_value l10 l11 l12
  refine keeps_ite ?_ ?_
  · exact hk
  · refine keeps_ite ?_ ?_
    · apply stuSet_keeps; exact hk
    · refine keeps_ite ?_ ?_
      · apply blotterReport_keeps; exact hl10
      · refine keeps_ite ?_ ?_
        · apply blotterReport_keeps; exact hl10
        · exact hl10

theorem stuComplete_keeps {s0 : State} (c : Nat) {s : State} (hk : Keeps s0 s) : Keeps s0 (stuComplete c s) := by
  unfold stuComplete
  extract_lets l0 l1 l2
  have hl0 : Keeps s0 l0 := by
    unfold l0; apply stuProgress_keeps; exact hk
  clear_value l0 l1
  have hl2 : Keeps s0 l2 := by
    unfold l2; apply blotterVerdicts_keeps; exact hl0
  clear_value l2
  refine keeps_ite ?_ ?_
  · exact hl2
  · apply stuCommit_keeps; apply stuPush_keeps; exact hl2

theorem sicRestartLin_keeps {s0 : State} (c : Nat) {s : State} (hk : Keeps s0 s) : Keeps s0 (sicRestartLin c s) := by
  unfold sicRestartLin
  exact Keeps.mk' hk rfl

theorem sicDropPending_keeps {s0 : State} (c : Nat) {s : State} (hk : Keeps s0 s) : Keeps s0 (sicDropPending c s) := by
  unfold sicDropPending
  exact Keeps.mk' hk rfl

theorem sicZero_keeps {s0 : State} {s : State} (hk : Keeps s0 s) : Keeps s0 (sicZero s) := by
  unfold sicZero
  exact Keeps.mk' hk rfl

theorem sicSubstitute_keeps {s0 : State} (c : Nat) {s : State} (hk : Keeps s0 s) : Keeps s0 (sicSubstitute c s) := by
  unfold sicSubstitute
  extract_lets l0 l1 l2 l3 l4 l5 l6 l7; clear_value l0 l1 l2
  have hl3 : Keeps s0 l3 := by
    unfold l3; apply sicDropPending_keeps; exact hk
  clear_value l3 l4
  have hl5 : Keeps s0 l5 := by
    unfold l5
    refine keeps_ite ?_ ?_
    · exact hl3
    · with_reducible refine foldl_keeps ?_ ?_
      · intro v8 v9 v10
        with_reducible refine foldl_keeps ?_ ?_
        · intro v11 v12 v13; apply feWrite_keeps; exact v13
        · exact v10
      · exact hl3
  clear_value l5
  have hl6 : Keeps s0 l6 := by
    unfold l6
    refine keeps_ite ?_ ?_
    · apply sicRestartLin_keeps; exact hl5
    · exact hl5
  clear_value l6 l7
  refine keeps_ite ?_ ?_
  · exact Keeps.mk' hl6 rfl
  · exact hl6

theorem sicCommit_keeps {s0 : State} (c : Nat) {s : State} (hk : Keeps s0 s) : Keeps s0 (sicCommit c s) := by
  unfold sicCommit
  extract_lets l0 l1 l2 l3; clear_value l0 l1 l2 l3; apply sicDropPending_keeps; exact Keeps.mk' hk rfl

theorem sicComplete_keeps {s0 : State} (c : Nat) {s : State} (hk : Keeps s0 s) : Keeps s0 (sicComplete c s) := by
  unfold sicComplete
  refine keeps_ite ?_ ?_
  · exact hk
  · apply sicCommit_keeps; exact hk

theorem sicCapture_keeps {s0 : State} (c : Nat) (lin : Nat) {s : State} (hk : Keeps s0 s) : Keeps s0
    (sicCapture c lin s) := by
  unfold sicCapture
  extract_lets l0 l1 l2 l3 l4 l5 l6 l7; clear_value l0 l1 l2 l3 l4 l5
  have hl6 : Keeps s0 l6 := by
    unfold l6
    with_reducible refine foldl_keeps ?_ ?_
    · intro v8 v9 v10
      with_reducible refine foldl_keeps ?_ ?_
      · intro v11 v12 v13; extract_lets l14; clear_value l14; apply feWrite_keeps; exact v13
      · exact v10
    · exact hk
  clear_value l6 l7; exact Keeps.mk' hl6 rfl

theorem sicGroup_keeps {s0 : State} (c e g lin : Nat) {s : State} (hk : Keeps s0 s) : Keeps s0
    (sicGroup c e g lin s) := by
  unfold sicGroup
  have h1 : ∀ a b n, Keeps s0 (countBy 0x300 c n (feWrite a b s)) := fun a b n => countBy_keeps (feWrite_keeps hk a b) _ _ _
  refine keeps_ite (h1 _ _ _) ?_
  refine Keeps.mk' (countBy_keeps ?_ _ _ _) rfl
  refine keeps_ite (Keeps.mk' (count_keeps _ _ ?_) rfl) ?_
  · exact keeps_ite (count_keeps _ _ (h1 _ _ _)) (h1 _ _ _)
  · exact keeps_ite (count_keeps _ _ (h1 _ _ _)) (h1 _ _ _)

theorem sicNonlinear_keeps {s0 : State} (e lin : Nat) {s : State} (hk : Keeps s0 s) : Keeps s0
    (sicNonlinear e lin s) := by
  unfold sicNonlinear
  refine keeps_ite hk ?_
  refine Keeps.mk' (countBy_keeps ?_ _ _ _) rfl
  refine keeps_ite (Keeps.mk' (count_keeps _ _ ?_) rfl) ?_
  · exact keeps_ite (count_keeps _ _ hk) hk
  · exact keeps_ite (count_keeps _ _ hk) hk

theorem sicBegin_keeps {s0 : State} (c : Nat) {s : State} (hk : Keeps s0 s) : Keeps s0 (sicBegin c s) := by
  unfold sicBegin
  extract_lets l0 l1 l2 l3 l4 l5; clear_value l0 l1 l2 l3
  have hl4 : Keeps s0 l4 := by
    unfold l4; apply sicCapture_keeps; exact hk
  clear_value l4
  have hl5 : Keeps s0 l5 := by
    unfold l5
    refine keeps_ite ?_ ?_
    · exact hk
    · refine keeps_ite ?_ ?_
      · with_reducible refine foldl_keeps ?_ ?_
        · intro v6 v7 v8
          with_reducible refine foldl_keeps ?_ ?_
          · intro v9 v10 v11; apply sicGroup_keeps; exact v11
          · exact v8
        · exact hl4
      · apply markSubst_keeps; apply count_keeps; exact hl4
  clear_value l5
  refine keeps_ite ?_ ?_
  · exact hk
  · refine keeps_ite ?_ ?_
    · with_reducible refine foldl_keeps ?_ ?_
      · intro v12 v13 v14; apply sicNonlinear_keeps; exact v14
      · exact hl5
    · exact hl5

theorem sicSwitch_keeps {s0 : State} (old : Formula) (new : Formula) {s : State} (hk : Keeps s0 s) : Keeps s0
    (sicSwitch old new s) := by
  unfold sicSwitch
  extract_lets l0 l1 l2 l3 l4 l5; clear_value l0 l1 l2 l3 l4 l5; exact Keeps.mk' hk rfl

theorem applySicRetrain_keeps {s0 : State} (elements : BitVec 256) (carriers : BitVec 8) (nl : Bool) {s : State}
    (hk : Keeps s0 s) : Keeps s0 (applySicRetrain elements carriers nl s) := by
  unfold applySicRetrain
  exact Keeps.mk' hk rfl

theorem sicDepth_keeps {s0 : State} (carrier : BitVec 8) (first : BitVec 16) {s : State} (hk : Keeps s0 s)
    : Keeps s0 (sicDepth carrier first s).2 := by
  unfold sicDepth
  extract_lets l0 l1 l2; clear_value l0 l1 l2
  refine keeps_ite2 ?_ ?_
  · apply fails_keeps; exact hk
  · dsimp only
    exact hk

theorem sicRetrain_keeps {s0 : State} (h : Hdr) (elements : BitVec 256) (carriers : BitVec 8) (nl : BitVec 8) {s
    : State} (hk : Keeps s0 s) : Keeps s0 (sicRetrain h elements carriers nl s).2 := by
  unfold sicRetrain
  refine keeps_ite2 ?_ ?_
  · apply fails_keeps; exact hk
  · apply acceptPair_keeps
    · intro v0 v1; unfold id; exact v1
    · exact hk

theorem sicSlotEnd_keeps {s0 : State} {s : State} (hk : Keeps s0 s) : Keeps s0 (sicSlotEnd s) := by
  unfold sicSlotEnd
  extract_lets l0 l1 l2; clear_value l0 l1
  have hl2 : Keeps s0 l2 := by
    unfold l2; exact Keeps.mk' hk rfl
  clear_value l2
  with_reducible refine foldl_keeps ?_ ?_
  · intro v3 v4 v5
    refine keeps_ite ?_ ?_
    · exact v5
    · apply raiseEv_keeps; exact v5
  · exact hl2

theorem execSicDepth_keeps {s0 : State} (h : Hdr) (carrier : BitVec 8) (first : BitVec 16) {s t' : State} (hk
    : Keeps s0 s) (he : execSicDepth h carrier first s = .next t') : Keeps s0 t' := by
  unfold execSicDepth at he
  cases he
  apply serve_keeps
  · intro v0 v1; apply sicDepth_keeps; exact v1
  · exact hk

theorem execSicRetrain_keeps {s0 : State} (h : Hdr) (elements : BitVec 256) (carriers : BitVec 8) (nl : BitVec 8)
    {s t' : State} (hk : Keeps s0 s) (he : execSicRetrain h elements carriers nl s = .next t') : Keeps s0 t' := by
  unfold execSicRetrain at he
  cases he
  apply serve_keeps
  · intro v0 v1; apply sicRetrain_keeps; exact v1
  · exact hk

end Sys2Proof.Machine
end

