-- ==== Sys2Proof/Laws/KeepAe.lean ====
section
/-! SUPPORT. The AE word rows: each operation keeps what `Keeps` says (`f_keeps` is the lemma of `f`). -/

namespace Sys2Proof.Machine

theorem addTerms_keeps {s0 : State} (k : Nat) (bg : Bool) (w : AeW) (t : Nat → Term) {s : State} (hk
    : Keeps s0 s) : Keeps s0 (addTerms k bg w t s) := by
  unfold addTerms
  extract_lets l0 l1 l2; clear_value l0 l1
  have hl2 : Keeps s0 l2 := by
    unfold l2
    refine keeps_ite ?_ ?_
    · apply markTaint_keeps; exact hk
    · exact hk
  clear_value l2; apply accAll_keeps; exact hl2

theorem tapBody_keeps {s0 : State} (bg : Bool) (w : AeW) (k : Nat) {s : State} (hk : Keeps s0 s) : Keeps s0
    (tapBody bg w k s) := by
  unfold tapBody
  extract_lets l0 l1 l2 l3 l4 l5 l6; clear_value l0
  have hl1 : Keeps s0 l1.2 := by
    unfold l1; apply cellsRead_keeps; exact hk
  clear_value l1 l2 l3
  have hl4 : Keeps s0 l4.2 := by
    unfold l4; apply cellsRead_keeps; exact hl1
  clear_value l4
  have hl5 : Keeps s0 l5 := by
    unfold l5; apply addTerms_keeps; exact hl4
  clear_value l5
  have hl6 : Keeps s0 l6 := by
    unfold l6
    refine keeps_ite ?_ ?_
    · exact hl5
    · apply cellsWrite_keeps; exact hl5
  clear_value l6; apply postModifies_keeps; exact hl6

theorem addrBody_keeps {s0 : State} (bg : Bool) (w : AeW) (k : Nat) {s : State} (hk : Keeps s0 s) : Keeps s0
    (addrBody bg w k s) := by
  unfold addrBody
  extract_lets l0 l1 l2 l3 l4; clear_value l0 l1 l2
  have hl3 : Keeps s0 l3.2 := by
    unfold l3; apply cellsRead_keeps; exact hk
  clear_value l3
  have hl4 : Keeps s0 l4.2 := by
    unfold l4; apply cellsRead_keeps; exact hl3
  clear_value l4; apply postModifies_keeps; apply addTerms_keeps; exact hl4

theorem seedBody_keeps {s0 : State} (seed : Nat → Option Nat) (bg : Bool) (w : AeW) (k : Nat) {s : State} (hk
    : Keeps s0 s) : Keeps s0 (seedBody seed bg w k s) := by
  unfold seedBody
  extract_lets l0 l1 l2 l3; clear_value l0
  have hl1 : Keeps s0 l1.2 := by
    unfold l1; apply cellsRead_keeps; exact hk
  clear_value l1 l2 l3; apply postModifies_keeps; apply cellsWrite_keeps; exact hl1

theorem addAccs_keeps {s0 : State} (k : Nat) (bg : Bool) (w : AeW) (clear : Bool) (src : Nat → Acc) {s : State}
    (hk : Keeps s0 s) : Keeps s0 (addAccs k bg w clear src s) := by
  unfold addAccs
  extract_lets l0 l1; clear_value l0
  have hl1 : Keeps s0 l1 := by
    unfold l1
    refine keeps_ite ?_ ?_
    · apply markTaint_keeps; exact hk
    · exact hk
  clear_value l1; apply accAll_keeps; exact hl1

theorem addsBody_keeps {s0 : State} (bg : Bool) (w : AeW) (k : Nat) {s : State} (hk : Keeps s0 s) : Keeps s0
    (addsBody bg w k s) := by
  unfold addsBody
  extract_lets l0 l1 l2 l3; clear_value l0 l1 l2
  have hl3 : Keeps s0 l3.2 := by
    unfold l3; apply cellsRead_keeps; exact hk
  clear_value l3; apply postModifies_keeps; apply addTerms_keeps; exact hl3

theorem macBody_keeps {s0 : State} (bg : Bool) (w : AeW) (k : Nat) {s : State} (hk : Keeps s0 s) : Keeps s0
    (macBody bg w k s) := by
  unfold macBody
  extract_lets l0 l1 l2; clear_value l0
  have hl1 : Keeps s0 l1.2 := by
    unfold l1; apply cellsRead_keeps; exact hk
  clear_value l1
  have hl2 : Keeps s0 l2.2 := by
    unfold l2; apply cellsRead_keeps; exact hl1
  clear_value l2; apply postModifies_keeps; apply addTerms_keeps; exact hl2

theorem execTap_keeps {s0 : State} (k : Fin 96) (bg : Bool) (w : AeW) {s t' : State} (hk : Keeps s0 s) (he
    : execTap k bg w s = .next t') : Keeps s0 t' := by
  unfold execTap at he
  cases he
  apply aeExec_keeps
  · intro v0 v1 v2; apply tapBody_keeps; exact v2
  · exact hk

theorem execNorm_keeps {s0 : State} (k : Fin 96) (bg : Bool) (w : AeW) {s t' : State} (hk : Keeps s0 s) (he
    : execNorm k bg w s = .next t') : Keeps s0 t' := by
  unfold execNorm at he
  cases he
  apply aeExec_keeps
  · intro v0 v1 v2; extract_lets l3; clear_value l3; apply accAll_keeps; exact v2
  · exact hk

theorem execRcps_keeps {s0 : State} (k : Fin 96) (bg : Bool) (w : AeW) {s t' : State} (hk : Keeps s0 s) (he
    : execRcps k bg w s = .next t') : Keeps s0 t' := by
  unfold execRcps at he
  cases he
  apply aeExec_keeps
  · intro v0 v1 v2; apply seedBody_keeps; exact v2
  · exact hk

theorem execAddr_keeps {s0 : State} (k : Fin 96) (bg : Bool) (w : AeW) {s t' : State} (hk : Keeps s0 s) (he
    : execAddr k bg w s = .next t') : Keeps s0 t' := by
  unfold execAddr at he
  cases he
  apply aeExec_keeps
  · intro v0 v1 v2; apply addrBody_keeps; exact v2
  · exact hk

theorem execExp_keeps {s0 : State} (k : Fin 96) (bg : Bool) (w : AeW) {s t' : State} (hk : Keeps s0 s) (he
    : execExp k bg w s = .next t') : Keeps s0 t' := by
  unfold execExp at he
  cases he
  apply aeExec_keeps
  · intro v0 v1 v2; apply accAll_keeps; exact v2
  · exact hk

theorem execAdda_keeps {s0 : State} (k : Fin 96) (bg : Bool) (w : AeW) {s t' : State} (hk : Keeps s0 s) (he
    : execAdda k bg w s = .next t') : Keeps s0 t' := by
  unfold execAdda at he
  cases he
  apply aeExec_keeps
  · intro v0 v1 v2; apply addAccs_keeps; exact v2
  · exact hk

theorem execAdds_keeps {s0 : State} (k : Fin 96) (bg : Bool) (w : AeW) {s t' : State} (hk : Keeps s0 s) (he
    : execAdds k bg w s = .next t') : Keeps s0 t' := by
  unfold execAdds at he
  cases he
  apply aeExec_keeps
  · intro v0 v1 v2; apply addsBody_keeps; exact v2
  · exact hk

theorem execAsh_keeps {s0 : State} (k : Fin 96) (bg : Bool) (w : AeW) {s t' : State} (hk : Keeps s0 s) (he
    : execAsh k bg w s = .next t') : Keeps s0 t' := by
  unfold execAsh at he
  cases he
  apply aeExec_keeps
  · intro v0 v1 v2; apply accAll_keeps; exact v2
  · exact hk

theorem execNop_keeps {s0 : State} (k : Fin 96) (bg : Bool) (w : AeW) {s t' : State} (hk : Keeps s0 s) (he
    : execNop k bg w s = .next t') : Keeps s0 t' := by
  unfold execNop at he
  cases he
  apply aeExec_keeps
  · intro v0 v1 v2; exact v2
  · exact hk

theorem execMac_keeps {s0 : State} (k : Fin 96) (bg : Bool) (w : AeW) {s t' : State} (hk : Keeps s0 s) (he
    : execMac k bg w s = .next t') : Keeps s0 t' := by
  unfold execMac at he
  cases he
  apply aeExec_keeps
  · intro v0 v1 v2; apply macBody_keeps; exact v2
  · exact hk

theorem execGxa_keeps {s0 : State} (k : Fin 96) (bg : Bool) (w : AeW) {s t' : State} (hk : Keeps s0 s) (he
    : execGxa k bg w s = .next t') : Keeps s0 t' := by
  unfold execGxa at he
  cases he
  apply aeExec_keeps
  · intro v0 v1 v2; extract_lets l3; clear_value l3; apply addAccs_keeps; exact v2
  · exact hk

theorem execRsqs_keeps {s0 : State} (k : Fin 96) (bg : Bool) (w : AeW) {s t' : State} (hk : Keeps s0 s) (he
    : execRsqs k bg w s = .next t') : Keeps s0 t' := by
  unfold execRsqs at he
  cases he
  apply aeExec_keeps
  · intro v0 v1 v2; apply seedBody_keeps; exact v2
  · exact hk

theorem roOverflow_keeps {s0 : State} (k : Nat) (w : AeW) (l : List Acc) {s : State} (hk : Keeps s0 s) : Keeps s0
    (roOverflow k w l s) := by
  unfold roOverflow
  refine keeps_ite ?_ ?_
  · extract_lets l0 l1
    have hl0 : Keeps s0 l0 := by
      unfold l0; apply count_keeps; exact hk
    clear_value l0 l1; apply clSet_keeps; exact hl0
  · exact hk

theorem rdrBody_keeps {s0 : State} (bg : Bool) (w : AeW) (k : Nat) {s : State} (hk : Keeps s0 s) : Keeps s0
    (rdrBody bg w k s) := by
  unfold rdrBody
  extract_lets l0 l1 l2 l3 l4 l5 l6 l7; clear_value l0 l1 l2 l3 l4 l5 l6 l7; apply postModifies_keeps
  apply cellsWrite_keeps; apply roOverflow_keeps; exact hk

theorem movBody_keeps {s0 : State} (bg : Bool) (w : AeW) (k : Nat) {s : State} (hk : Keeps s0 s) : Keeps s0
    (movBody bg w k s) := by
  unfold movBody
  extract_lets l0 l1 l2 l3; clear_value l0 l1
  have hl2 : Keeps s0 l2.2 := by
    unfold l2; apply cellsRead_keeps; exact hk
  clear_value l2 l3; apply postModifies_keeps; apply cellsWrite_keeps; exact hl2

theorem rdbBody_keeps {s0 : State} (bg : Bool) (w : AeW) (k : Nat) {s : State} (hk : Keeps s0 s) : Keeps s0
    (rdbBody bg w k s) := by
  unfold rdbBody
  extract_lets l0 l1 l2 l3 l4 l5 l6; clear_value l0 l1 l2 l3 l4 l5
  have hl6 : Keeps s0 l6 := by
    unfold l6; apply countBy_keeps; apply roOverflow_keeps; exact hk
  clear_value l6; apply postModifies_keeps; apply cellsWrite_keeps; exact hl6

theorem rdcBody_keeps {s0 : State} (bg : Bool) (w : AeW) (k : Nat) {s : State} (hk : Keeps s0 s) : Keeps s0
    (rdcBody bg w k s) := by
  unfold rdcBody
  extract_lets l0 l1 l2 l3 l4 l5; clear_value l0 l1 l2 l3 l4
  have hl5 : Keeps s0 l5 := by
    unfold l5; apply countBy_keeps; apply roOverflow_keeps; exact hk
  clear_value l5; apply postModifies_keeps; apply cellsWrite_keeps; exact hl5

theorem rdwBody_keeps {s0 : State} (bg : Bool) (w : AeW) (k : Nat) {s : State} (hk : Keeps s0 s) : Keeps s0
    (rdwBody bg w k s) := by
  unfold rdwBody
  extract_lets l0 l1 l2 l3 l4 l5; clear_value l0 l1 l2 l3 l4
  have hl5 : Keeps s0 l5 := by
    unfold l5; apply countBy_keeps; apply roOverflow_keeps; exact hk
  clear_value l5; apply postModifies_keeps; apply cellsWrite_keeps; exact hl5

theorem unpkBody_keeps {s0 : State} (bg : Bool) (w : AeW) (k : Nat) {s : State} (hk : Keeps s0 s) : Keeps s0
    (unpkBody bg w k s) := by
  unfold unpkBody
  extract_lets l0 l1 l2 l3 l4 l5 l6 l7; clear_value l0 l1 l2 l3
  have hl4 : Keeps s0 l4.2 := by
    unfold l4; apply cellsRead_keeps; exact hk
  clear_value l4 l5 l6
  have hl7 : Keeps s0 l7 := by
    unfold l7; apply countBy_keeps; exact hl4
  clear_value l7; apply postModifies_keeps; apply cellsWrite_keeps; exact hl7

theorem zeroBody_keeps {s0 : State} (bg : Bool) (w : AeW) (k : Nat) {s : State} (hk : Keeps s0 s) : Keeps s0
    (zeroBody bg w k s) := by
  unfold zeroBody
  extract_lets l0 l1; clear_value l0 l1; apply postModifies_keeps; apply cellsWrite_keeps; exact hk

theorem execRdr_keeps {s0 : State} (k : Fin 96) (bg : Bool) (w : AeW) {s t' : State} (hk : Keeps s0 s) (he
    : execRdr k bg w s = .next t') : Keeps s0 t' := by
  unfold execRdr at he
  cases he
  apply aeExec_keeps
  · intro v0 v1 v2; apply rdrBody_keeps; exact v2
  · exact hk

theorem execRdc_keeps {s0 : State} (k : Fin 96) (bg : Bool) (w : AeW) {s t' : State} (hk : Keeps s0 s) (he
    : execRdc k bg w s = .next t') : Keeps s0 t' := by
  unfold execRdc at he
  cases he
  apply aeExec_keeps
  · intro v0 v1 v2; apply rdcBody_keeps; exact v2
  · exact hk

theorem execMov_keeps {s0 : State} (k : Fin 96) (bg : Bool) (w : AeW) {s t' : State} (hk : Keeps s0 s) (he
    : execMov k bg w s = .next t') : Keeps s0 t' := by
  unfold execMov at he
  cases he
  apply aeExec_keeps
  · intro v0 v1 v2; apply movBody_keeps; exact v2
  · exact hk

theorem execRdw_keeps {s0 : State} (k : Fin 96) (bg : Bool) (w : AeW) {s t' : State} (hk : Keeps s0 s) (he
    : execRdw k bg w s = .next t') : Keeps s0 t' := by
  unfold execRdw at he
  cases he
  apply aeExec_keeps
  · intro v0 v1 v2; apply rdwBody_keeps; exact v2
  · exact hk

theorem execRdb_keeps {s0 : State} (k : Fin 96) (bg : Bool) (w : AeW) {s t' : State} (hk : Keeps s0 s) (he
    : execRdb k bg w s = .next t') : Keeps s0 t' := by
  unfold execRdb at he
  cases he
  apply aeExec_keeps
  · intro v0 v1 v2; apply rdbBody_keeps; exact v2
  · exact hk

theorem execUnpk_keeps {s0 : State} (k : Fin 96) (bg : Bool) (w : AeW) {s t' : State} (hk : Keeps s0 s) (he
    : execUnpk k bg w s = .next t') : Keeps s0 t' := by
  unfold execUnpk at he
  cases he
  apply aeExec_keeps
  · intro v0 v1 v2; apply unpkBody_keeps; exact v2
  · exact hk

theorem execZero_keeps {s0 : State} (k : Fin 96) (bg : Bool) (w : AeW) {s t' : State} (hk : Keeps s0 s) (he
    : execZero k bg w s = .next t') : Keeps s0 t' := by
  unfold execZero at he
  cases he
  apply aeExec_keeps
  · intro v0 v1 v2; apply zeroBody_keeps; exact v2
  · exact hk

theorem relBody_keeps {s0 : State} (w : AeW) (k : Nat) {s : State} (hk : Keeps s0 s) : Keeps s0 (relBody w k s) := by
  unfold relBody
  extract_lets l0 l1 l2 l3; clear_value l0 l1 l2 l3; apply clSet_keeps; exact hk

theorem setReg_keeps {s0 : State} (bg : Bool) (r : Nat) (v : Ctx → Int) (k : Nat) {s : State} (hk : Keeps s0 s)
    : Keeps s0 (setReg bg r v k s) := by
  unfold setReg
  extract_lets l0; clear_value l0
  refine keeps_ite ?_ ?_
  · exact hk
  · apply ctxSet_keeps; exact hk

theorem execSetp_keeps {s0 : State} (k : Fin 96) (bg : Bool) (w : AeW) {s t' : State} (hk : Keeps s0 s) (he
    : execSetp k bg w s = .next t') : Keeps s0 t' := by
  unfold execSetp at he
  cases he
  apply aeExec_keeps
  · intro v0 v1 v2; apply setReg_keeps; exact v2
  · exact hk

theorem execAddp_keeps {s0 : State} (k : Fin 96) (bg : Bool) (w : AeW) {s t' : State} (hk : Keeps s0 s) (he
    : execAddp k bg w s = .next t') : Keeps s0 t' := by
  unfold execAddp at he
  cases he
  apply aeExec_keeps
  · intro v0 v1 v2; apply setReg_keeps; exact v2
  · exact hk

theorem execLoop_keeps {s0 : State} (k : Fin 96) (bg : Bool) (w : AeW) {s t' : State} (hk : Keeps s0 s) (he
    : execLoop k bg w s = .next t') : Keeps s0 t' := by
  unfold execLoop at he
  cases he
  apply aeExec_keeps
  · intro v0 v1 v2; exact v2
  · exact hk

theorem execRep_keeps {s0 : State} (k : Fin 96) (bg : Bool) (w : AeW) {s t' : State} (hk : Keeps s0 s) (he
    : execRep k bg w s = .next t') : Keeps s0 t' := by
  unfold execRep at he
  cases he
  apply aeExec_keeps
  · intro v0 v1 v2; exact v2
  · exact hk

theorem execJmp_keeps {s0 : State} (k : Fin 96) (bg : Bool) (w : AeW) {s t' : State} (hk : Keeps s0 s) (he
    : execJmp k bg w s = .next t') : Keeps s0 t' := by
  unfold execJmp at he
  cases he
  apply aeExec_keeps
  · intro v0 v1 v2; exact v2
  · exact hk

theorem execMovp_keeps {s0 : State} (k : Fin 96) (bg : Bool) (w : AeW) {s t' : State} (hk : Keeps s0 s) (he
    : execMovp k bg w s = .next t') : Keeps s0 t' := by
  unfold execMovp at he
  cases he
  apply aeExec_keeps
  · intro v0 v1 v2; apply setReg_keeps; exact v2
  · exact hk

theorem execEndProg_keeps {s0 : State} (k : Fin 96) (bg : Bool) (w : AeW) {s t' : State} (hk : Keeps s0 s) (he
    : execEndProg k bg w s = .next t') : Keeps s0 t' := by
  unfold execEndProg at he
  cases he
  apply aeExec_keeps
  · intro v0 v1 v2
    refine keeps_ite ?_ ?_
    · exact v2
    · apply clSet_keeps; exact v2
  · exact hk

theorem execRel_keeps {s0 : State} (k : Fin 96) (bg : Bool) (w : AeW) {s t' : State} (hk : Keeps s0 s) (he
    : execRel k bg w s = .next t') : Keeps s0 t' := by
  unfold execRel at he
  cases he
  apply aeExec_keeps
  · intro v0 v1 v2; apply relBody_keeps; exact v2
  · exact hk

end Sys2Proof.Machine
end

