-- ==== Sys2Proof/Laws/KeepBoot.lean ====
section
/-! SUPPORT. Time, programs, images, modes and boot: each operation keeps what `Keeps` says (`f_keeps` is the lemma of `f`). -/

namespace Sys2Proof.Machine

theorem ptpSet_keeps {s0 : State} (p : Nat) (v : PtpPort) {s : State} (hk : Keeps s0 s) : Keeps s0 (ptpSet p v s) := by
  unfold ptpSet
  exact Keeps.mk' hk rfl

theorem delayResp_keeps {s0 : State} (f : RxFrame) (m : PtpMsg) {s : State} (hk : Keeps s0 s) : Keeps s0
    (delayResp f m s) := by
  unfold delayResp
  extract_lets l0 l1; clear_value l0 l1
  split
  · refine keeps_ite ?_ ?_
    · apply ptpSet_keeps; exact hk
    · exact hk
  · exact hk

theorem syncTimeout_keeps {s0 : State} {s : State} (hk : Keeps s0 s) : Keeps s0 (syncTimeout s) := by
  unfold syncTimeout
  apply tbLose_keeps; exact hk

theorem reselect_keeps {s0 : State} {s : State} (hk : Keeps s0 s) : Keeps s0 (reselect s) := by
  unfold reselect
  extract_lets l0 l1 l2 l3 l4 l5 l6; clear_value l0 l1 l2 l3 l4
  have hl5 : Keeps s0 l5 := by
    unfold l5
    refine keeps_ite ?_ ?_
    · apply tbLose_keeps; exact hk
    · exact hk
  clear_value l5 l6
  refine keeps_ite ?_ ?_
  · exact Keeps.mk' hk rfl
  · exact Keeps.mk' hl5 rfl

theorem announce_keeps {s0 : State} (f : RxFrame) (m : PtpMsg) (a : PtpAnnounce) {s : State} (hk : Keeps s0 s)
    : Keeps s0 (announce f m a s) := by
  unfold announce
  extract_lets l0 l1 l2; clear_value l0 l1 l2
  refine keeps_ite ?_ ?_
  · apply reselect_keeps; apply ptpSet_keeps; exact hk
  · exact hk

theorem syncValues_keeps {s0 : State} (t1 : Int) (t2 : Int) (corr : Int) (ex : Option (Int × Int × Int)) (asym
    : Int) {s : State} (hk : Keeps s0 s) : Keeps s0 (syncValues t1 t2 corr ex asym s) := by
  unfold syncValues
  split
  · exact hk
  · extract_lets l0 l1 l2; clear_value l0 l1 l2; exact Keeps.mk' hk rfl

theorem announceTimeout_keeps {s0 : State} {s : State} (hk : Keeps s0 s) : Keeps s0 (announceTimeout s) := by
  unfold announceTimeout
  split
  · apply reselect_keeps; apply ptpSet_keeps; exact hk
  · exact hk

theorem syncMessage_keeps {s0 : State} (f : RxFrame) (m : PtpMsg) {s : State} (hk : Keeps s0 s) : Keeps s0
    (syncMessage f m s) := by
  unfold syncMessage
  extract_lets l0 l1 l2; clear_value l0 l1 l2
  refine keeps_ite ?_ ?_
  · exact hk
  · refine keeps_ite ?_ ?_
    · apply ptpSet_keeps; exact hk
    · apply syncValues_keeps; exact hk

theorem followUp_keeps {s0 : State} (f : RxFrame) (m : PtpMsg) {s : State} (hk : Keeps s0 s) : Keeps s0
    (followUp f m s) := by
  unfold followUp
  extract_lets l0 l1; clear_value l0 l1
  split
  · refine keeps_ite ?_ ?_
    · apply syncValues_keeps; apply ptpSet_keeps; exact hk
    · exact hk
  · exact hk

theorem delayReqSend_keeps {s0 : State} (p : Fin 2) (capture : Int) {s : State} (hk : Keeps s0 s) : Keeps s0
    (delayReqSend p capture s) := by
  unfold delayReqSend
  refine keeps_ite ?_ ?_
  · extract_lets l0; clear_value l0; apply macSend_keeps; apply ptpSet_keeps; exact hk
  · exact hk

theorem execPtpDelayResp_keeps {s0 : State} (f : RxFrame) (m : PtpMsg) {s t' : State} (hk : Keeps s0 s) (he
    : execPtpDelayResp f m s = .next t') : Keeps s0 t' := by
  unfold execPtpDelayResp at he
  cases he
  apply frameReceive_keeps
  · intro v0 v1; apply ptpUse_keeps
    · intro v2 v3; apply delayResp_keeps; exact v3
    · exact v1
  · exact hk

theorem execSyncTimeout_keeps {s0 : State} {s t' : State} (hk : Keeps s0 s) (he : execSyncTimeout s = .next t')
    : Keeps s0 t' := by
  unfold execSyncTimeout at he
  cases he
  apply syncTimeout_keeps; exact hk

theorem execPtpDelayReqSend_keeps {s0 : State} (port : Fin 2) (capture : Int) {s t' : State} (hk : Keeps s0 s)
    (he : execPtpDelayReqSend port capture s = .next t') : Keeps s0 t' := by
  unfold execPtpDelayReqSend at he
  cases he
  apply delayReqSend_keeps; exact hk

theorem execPtpAnnounce_keeps {s0 : State} (f : RxFrame) (m : PtpMsg) (a : PtpAnnounce) {s t' : State} (hk
    : Keeps s0 s) (he : execPtpAnnounce f m a s = .next t') : Keeps s0 t' := by
  unfold execPtpAnnounce at he
  cases he
  apply frameReceive_keeps
  · intro v0 v1; apply ptpUse_keeps
    · intro v2 v3; apply announce_keeps; exact v3
    · exact v1
  · exact hk

theorem execAnnounceReceiptTimeout_keeps {s0 : State} {s t' : State} (hk : Keeps s0 s) (he
    : execAnnounceReceiptTimeout s = .next t') : Keeps s0 t' := by
  unfold execAnnounceReceiptTimeout at he
  cases he
  apply announceTimeout_keeps; exact hk

theorem execPtpFollowUp_keeps {s0 : State} (f : RxFrame) (m : PtpMsg) {s t' : State} (hk : Keeps s0 s) (he
    : execPtpFollowUp f m s = .next t') : Keeps s0 t' := by
  unfold execPtpFollowUp at he
  cases he
  apply frameReceive_keeps
  · intro v0 v1; apply ptpUse_keeps
    · intro v2 v3; apply followUp_keeps; exact v3
    · exact v1
  · exact hk

theorem execPtpSync_keeps {s0 : State} (f : RxFrame) (m : PtpMsg) {s t' : State} (hk : Keeps s0 s) (he
    : execPtpSync f m s = .next t') : Keeps s0 t' := by
  unfold execPtpSync at he
  cases he
  apply frameReceive_keeps
  · intro v0 v1; apply ptpUse_keeps
    · intro v2 v3; apply syncMessage_keeps; exact v3
    · exact v1
  · exact hk

theorem loadProg_keeps {s0 : State} (p : Prog) {s : State} (hk : Keeps s0 s) : Keeps s0 (loadProg p s) := by
  unfold loadProg
  extract_lets l0 l1; clear_value l0 l1; apply clSet_keeps; exact hk

theorem fgIdle_keeps {s0 : State} {s : State} (hk : Keeps s0 s) : Keeps s0 (fgIdle s) := by
  unfold fgIdle
  exact Keeps.mk' hk rfl

theorem stopPrograms_keeps {s0 : State} {s : State} (hk : Keeps s0 s) : Keeps s0 (stopPrograms s) := by
  unfold stopPrograms
  apply fgIdle_keeps; exact Keeps.mk' hk rfl

theorem stopService_keeps {s0 : State} {s : State} (hk : Keeps s0 s) : Keeps s0 (stopService s) := by
  unfold stopService
  extract_lets l0 l1 l2 l3; clear_value l0
  have hl1 : Keeps s0 l1 := by
    unfold l1; apply stopPrograms_keeps; exact Keeps.mk' hk rfl
  clear_value l1
  have hl2 : Keeps s0 l2 := by
    unfold l2
    with_reducible refine foldl_keeps ?_ ?_
    · intro v4 v5 v6; extract_lets l7 l8
      have hl7 : Keeps s0 l7 := by
        unfold l7; apply fifoCut_keeps; exact v6
      clear_value l7 l8; apply fifoSet_keeps; exact hl7
    · exact hl1
  clear_value l2 l3; apply efeStop_keeps; apply releaseFences_keeps; exact Keeps.mk' hl2 rfl

theorem evMode_keeps {s0 : State} (old : Mode) (new : Mode) (cause : Nat) {s : State} (hk : Keeps s0 s)
    : Keeps s0 (evMode old new cause s) := by
  unfold evMode
  apply raiseEv_keeps; exact hk

theorem gatePins_keeps {s0 : State} {s : State} (hk : Keeps s0 s) : Keeps s0 (gatePins s) := by
  unfold gatePins
  exact Keeps.mk' hk rfl

theorem emptyStore_keeps {s0 : State} {s : State} (hk : Keeps s0 s) : Keeps s0 (emptyStore s) := by
  unfold emptyStore
  extract_lets l0 l1 l2; clear_value l0
  have hl1 : Keeps s0 l1 := by
    unfold l1; apply failHostJobs_keeps; exact hk
  clear_value l1 l2; apply ddEmpty_keeps; exact Keeps.mk' hl1 rfl

theorem bgRestart_keeps {s0 : State} {s : State} (hk : Keeps s0 s) : Keeps s0 (bgRestart s) := by
  unfold bgRestart
  with_reducible refine foldl_keeps ?_ ?_
  · intro v0 v1 v2; extract_lets l3 l4 l5 l6; clear_value l3 l4 l5 l6; apply clSet_keeps; exact v2
  · exact hk

theorem clearWeights_keeps {s0 : State} {s : State} (hk : Keeps s0 s) : Keeps s0 (clearWeights s) := by
  unfold clearWeights
  extract_lets l0 l1; clear_value l0
  have hl1 : Keeps s0 l1 := by
    unfold l1; exact Keeps.mk' hk rfl
  clear_value l1
  with_reducible refine foldl_keeps ?_ ?_
  · intro v2 v3 v4
    with_reducible refine foldl_keeps ?_ ?_
    · intro v5 v6 v7; extract_lets l8 l9; clear_value l8 l9; apply clSet_keeps; exact v7
    · exact v4
  · exact hl1

theorem commonReset_keeps {s0 : State} {s : State} (hk : Keeps s0 s) : Keeps s0 (commonReset s) := by
  unfold commonReset
  extract_lets l0 l1 l2 l3 l4; clear_value l0 l1
  have hl2 : Keeps s0 l2 := by
    unfold l2; apply stopPrograms_keeps; exact Keeps.mk' hk rfl
  clear_value l2
  have hl3 : Keeps s0 l3 := by
    unfold l3; apply emptyStore_keeps; apply sicZero_keeps; apply sqClear_keeps; exact hl2
  clear_value l3 l4; apply bgRestart_keeps; apply clearWeights_keeps; exact Keeps.mk' hl3 rfl

theorem commonStart_keeps {s0 : State} {s : State} (hk : Keeps s0 s) : Keeps s0 (commonStart s) := by
  unfold commonStart
  apply commonReset_keeps; exact Keeps.mk' hk rfl

theorem changeMode_keeps {s0 : State} (m : Mode) {s : State} (hk : Keeps s0 s) : Keeps s0 (changeMode m s) := by
  unfold changeMode
  extract_lets l0 l1 l2 l3; clear_value l0
  have hl1 : Keeps s0 l1 := by
    unfold l1; apply captureEndAll_keeps; exact hk
  clear_value l1
  have hl3 : Keeps s0 l3 := by
    unfold l3; exact Keeps.mk' hl1 rfl
  clear_value l3
  refine keeps_ite ?_ ?_
  · apply startFreqChange_keeps; exact hl3
  · refine keeps_ite ?_ ?_
    · apply startFreqChange_keeps
      refine keeps_ite ?_ ?_
      · apply srExit_keeps; exact hl3
      · exact hl3
    · exact hl3

theorem setMode_keeps {s0 : State} (m : Mode) (cause : Nat) {s : State} (hk : Keeps s0 s) : Keeps s0
    (setMode m cause s) := by
  unfold setMode
  apply evMode_keeps; apply changeMode_keeps; exact hk

theorem efeZeroAll_keeps {s0 : State} {s : State} (hk : Keeps s0 s) : Keeps s0 (efeZeroAll s) := by
  unfold efeZeroAll
  with_reducible refine foldl_keeps ?_ ?_
  · intro v0 v1 v2; extract_lets l3; clear_value l3
    refine keeps_ite ?_ ?_
    · apply efeZero_keeps; exact v2
    · exact v2
  · exact hk

theorem loadProgs_keeps {s0 : State} {s : State} (hk : Keeps s0 s) : Keeps s0 (loadProgs s) := by
  unfold loadProgs
  with_reducible refine foldl_keeps ?_ ?_
  · intro v0 v1 v2; apply loadProg_keeps; exact v2
  · exact hk

theorem efeSwitch_keeps {s0 : State} (rx : Nat) (tx : Nat) {s : State} (hk : Keeps s0 s) : Keeps s0
    (efeSwitch rx tx s) := by
  unfold efeSwitch
  exact Keeps.mk' hk rfl

theorem ruptureZero_keeps {s0 : State} {s : State} (hk : Keeps s0 s) : Keeps s0 (ruptureZero s) := by
  unfold ruptureZero
  extract_lets l0; clear_value l0; apply efeZeroAll_keeps; apply bgRestart_keeps; apply loadProgs_keeps
  apply efeSwitch_keeps; apply stuZero_keeps; apply sicZero_keeps; exact hk

theorem leavePair_keeps {s0 : State} {s : State} (hk : Keeps s0 s) : Keeps s0 (leavePair s) := by
  unfold leavePair
  exact Keeps.mk' hk rfl

theorem activatePending_keeps {s0 : State} (f : Formula) (seamless : Bool) (b : Stamp) {s : State} (hk
    : Keeps s0 s) : Keeps s0 (activatePending f seamless b s) := by
  unfold activatePending
  extract_lets l0 l1; clear_value l0
  have hl1 : Keeps s0 l1 := by
    unfold l1; exact Keeps.mk' hk rfl
  clear_value l1; apply raiseAt_keeps; exact hl1

theorem switchStandby_keeps {s0 : State} {s : State} (hk : Keeps s0 s) : Keeps s0 (switchStandby s) := by
  unfold switchStandby
  split
  · exact hk
  · apply lateUpdateAll_keeps; apply loadProgs_keeps; apply activatePending_keeps; exact hk

theorem refuseWaits_keeps {s0 : State} {s : State} (hk : Keeps s0 s) : Keeps s0 (refuseWaits s) := by
  unfold refuseWaits
  with_reducible refine foldl_keeps ?_ ?_
  · intro v0 v1 v2
    split
    · apply endJob_keeps; exact v2
    · apply endJob_keeps; exact v2
    · exact v2
  · exact hk

theorem pairToStandby_keeps {s0 : State} (cause : Nat) {s : State} (hk : Keeps s0 s) : Keeps s0
    (pairToStandby cause s) := by
  unfold pairToStandby
  extract_lets l0
  have hl0 : Keeps s0 l0 := by
    unfold l0; apply refuseWaits_keeps; exact hk
  clear_value l0; apply setMode_keeps; apply leavePair_keeps; apply gatePins_keeps; apply stopService_keeps; exact hl0

theorem beginRupture_keeps {s0 : State} {s : State} (hk : Keeps s0 s) : Keeps s0 (beginRupture s) := by
  unfold beginRupture
  extract_lets l0 l1 l2 l3 l4; clear_value l0 l1
  have hl2 : Keeps s0 l2 := by
    unfold l2; apply stopPrograms_keeps; exact Keeps.mk' hk rfl
  clear_value l2 l3
  have hl4 : Keeps s0 l4 := by
    unfold l4; exact Keeps.mk' hl2 rfl
  clear_value l4; apply captureEndAll_keeps; apply efeStop_keeps; apply emptyStore_keeps; exact hl4

theorem switchAt_keeps {s0 : State} {s : State} (hk : Keeps s0 s) : Keeps s0 (switchAt s) := by
  unfold switchAt
  split
  · exact hk
  · extract_lets l0 l1 l2 l3 l4 l5 l6 l7 l8; clear_value l0 l1 l2
    have hl3 : Keeps s0 l3 := by
      unfold l3; apply activatePending_keeps; exact hk
    clear_value l3
    have hl4 : Keeps s0 l4 := by
      unfold l4
      split
      · apply sicSwitch_keeps; exact hl3
      · exact hl3
    clear_value l4 l5 l6
    have hl7 : Keeps s0 l7 := by
      unfold l7
      refine keeps_ite ?_ ?_
      · exact hl4
      · exact Keeps.mk' hl4 rfl
    clear_value l7
    have hl8 : Keeps s0 l8 := by
      unfold l8; apply remapQueues_keeps; exact hl3
    clear_value l8
    refine keeps_ite ?_ ?_
    · apply efeSwitch_keeps; apply lateUpdateAll_keeps; apply bgRestart_keeps; apply loadProgs_keeps; exact hl7
    · apply lateUpdateAll_keeps; apply beginRupture_keeps; exact hl8

theorem deadManGate_keeps {s0 : State} {s : State} (hk : Keeps s0 s) : Keeps s0 (deadManGate s) := by
  unfold deadManGate
  refine keeps_ite ?_ ?_
  · apply pairToStandby_keeps; exact hk
  · apply gatePins_keeps; exact hk

theorem execDeadManGate_keeps {s0 : State} {s t' : State} (hk : Keeps s0 s) (he : execDeadManGate s = .next t')
    : Keeps s0 t' := by
  unfold execDeadManGate at he
  cases he
  apply deadManGate_keeps; exact hk

theorem flashUndefine_keeps {s0 : State} (a : Nat) (n : Nat) {s : State} (hk : Keeps s0 s) : Keeps s0
    (flashUndefine a n s) := by
  unfold flashUndefine
  extract_lets l0 l1 l2 l3; clear_value l0 l1 l2; exact Keeps.mk' hk rfl

theorem flashWriteComplete_keeps {s0 : State} {s : State} (hk : Keeps s0 s) : Keeps s0 (flashWriteComplete s) := by
  unfold flashWriteComplete
  split
  · exact hk
  · split
    · extract_lets l0 l1
      have hl0 : Keeps s0 l0 := by
        unfold l0
        refine keeps_ite ?_ ?_
        · apply flashUndefine_keeps; exact hk
        · exact hk
      clear_value l0; apply endJob_keeps; exact Keeps.mk' hl0 rfl
    · exact hk

theorem fuseRead_keeps {s0 : State} (region : BitVec 8) {s : State} (hk : Keeps s0 s) : Keeps s0
    (fuseRead region s).2 := by
  unfold fuseRead
  refine keeps_ite2 ?_ ?_
  · apply fails_keeps; exact hk
  · apply okWith_keeps; exact hk

theorem baseState_keeps {s0 : State} {s : State} (hk : Keeps s0 s) : Keeps s0 (baseState s) := by
  unfold baseState
  exact Keeps.mk' hk rfl

theorem evThermal_keeps {s0 : State} (sensor : Nat) (temp : BitVec 16) {s : State} (hk : Keeps s0 s) : Keeps s0
    (evThermal sensor temp s) := by
  unfold evThermal
  extract_lets l0 l1; clear_value l0
  refine keeps_ite ?_ ?_
  · apply raiseEv_keeps; exact Keeps.mk' hk rfl
  · exact hk

theorem flashWrite_keeps {s0 : State} (h : Hdr) (offset : BitVec 32) (erase : BitVec 8) (data : List Byte) {s
    : State} (hk : Keeps s0 s) : Keeps s0 (flashWrite h offset erase data s).2 := by
  unfold flashWrite
  refine keeps_ite2 ?_ ?_
  · apply fails_keeps; exact hk
  · apply startJob_keeps; exact hk

theorem flashCut_keeps {s0 : State} {s : State} (hk : Keeps s0 s) : Keeps s0 (flashCut s) := by
  unfold flashCut
  with_reducible refine foldl_keeps ?_ ?_
  · intro v0 v1 v2
    split
    · apply flashUndefine_keeps; exact v2
    · exact v2
  · exact hk

theorem resetKeep_keeps {s0 s : State} (hk : Keeps s0 s) : Keeps s0 (resetKeep s State.reset) := by
  exact ⟨hk.pending, hk.outs, hk.fresh, hk.fuses, fun _ => ⟨rfl, rfl, rfl, rfl, rfl, (fun p hp => nomatch hp), (show ((0#16) - 0#16).toNat ≤ 8192 by decide), Nat.zero_le _, Nat.zero_le _⟩⟩

theorem deviceReset_keeps {s0 : State} {s : State} (hk : Keeps s0 s) : Keeps s0 (deviceReset s) := by
  unfold deviceReset
  extract_lets s1 t
  have h1 : Keeps s0 s1 := flashCut_keeps hk
  have h2 : Keeps s0 t := resetKeep_keeps h1
  exact ⟨h2.pending, h2.outs, h2.fresh, h2.fuses, fun c => ⟨(h2.canon c).res, (h2.canon c).fe, (h2.canon c).cf, (h2.canon c).hbm,
    (h2.canon c).ctrWf, (h2.canon c).ctrMax, (h2.canon c).evt, (h2.canon c).log, (h1.canon c).records⟩⟩

theorem keepRecord_keeps {s0 : State} (kind : Nat) {s : State} (hk : Keeps s0 s) : Keeps s0 (keepRecord kind s) := by
  unfold keepRecord
  refine boot_keeps hk (FuseLe.rfl' _) (fun h => ?_)
  simp only [List.length_drop, List.length_append, List.length_singleton]
  omega

theorem leaseResetEvent_keeps {s0 : State} {s : State} (hk : Keeps s0 s) : Keeps s0 (leaseResetEvent s) := by
  unfold leaseResetEvent
  apply raiseEv_keeps; exact hk

theorem failStart_keeps {s0 : State} (cause : Nat) (causeA : Nat) (copy : Nat) (ms : Nat) {s : State} (hk
    : Keeps s0 s) : Keeps s0 (failStart cause causeA copy ms s) := by
  unfold failStart
  extract_lets l0 l1 l2 l3 l4; clear_value l0 l1
  have hl3 : Keeps s0 l3 := by
    unfold l3; exact Keeps.mk' hk rfl
  clear_value l3
  have hl4 : Keeps s0 l4 := by
    unfold l4; apply evMode_keeps; apply baseState_keeps; apply keepRecord_keeps; apply deviceReset_keeps; exact hl3
  clear_value l4
  refine keeps_ite ?_ ?_
  · apply deviceReset_keeps; exact hl3
  · refine keeps_ite ?_ ?_
    · exact hl4
    · apply leaseResetEvent_keeps; exact hl4

theorem startWatchdog_keeps {s0 : State} (ms : Nat) {s : State} (hk : Keeps s0 s) : Keeps s0 (startWatchdog ms s) := by
  unfold startWatchdog
  refine keeps_ite ?_ ?_
  · extract_lets l0 l1 l2
    have hl1 : Keeps s0 l1 := by
      unfold l1
      refine keeps_ite ?_ ?_
      · exact Keeps.mk' hk rfl
      · exact hk
    clear_value l1 l2; apply failStart_keeps; exact hl1
  · exact hk

theorem bringUp_keeps {s0 : State} (run : StartRun) {s : State} (hk : Keeps s0 s) : Keeps s0 (bringUp run s) := by
  unfold bringUp
  extract_lets l0 l1 l2 l3 l4 l5 l6 l7 l8 l9 l10; clear_value l0
  have hl1 : Keeps s0 l1 := by
    unfold l1; exact Keeps.mk' hk rfl
  clear_value l1 l2 l3 l4
  have hl5 : Keeps s0 l5 := by
    unfold l5; exact Keeps.mk' hl1 rfl
  clear_value l5
  have hl7 : Keeps s0 l7 := by
    unfold l7; exact Keeps.mk' hl5 rfl
  clear_value l7 l8
  have hl10 : Keeps s0 l10 := by
    unfold l10; exact Keeps.mk' hl7 rfl
  clear_value l10
  with_reducible refine foldl_keeps ?_ ?_
  · intro v11 v12 v13
    refine keeps_ite ?_ ?_
    · apply portSet_keeps; exact v13
    · exact v13
  · apply trainAll_keeps; exact hl10

theorem startSucceeds_keeps {s0 : State} (fw : FirmwareRead) (run : StartRun) {s : State} (hk : Keeps s0 s)
    : Keeps s0 (startSucceeds fw run s) := by
  unfold startSucceeds
  extract_lets l0 l1 l2 l3 l4 l5 l6 l7 l8 l9 l10; clear_value l0 l1
  have hl2 : Keeps s0 l2 := by
    unfold l2
    refine keeps_ite ?_ ?_
    · exact hk
    · apply bringUp_keeps; exact hk
  clear_value l2
  have hl3 : Keeps s0 l3 := by
    unfold l3
    refine keeps_ite ?_ ?_
    · apply keepRecord_keeps; exact hl2
    · exact hl2
  clear_value l3 l4
  have hl7 : Keeps s0 l7 := by
    unfold l7; exact Keeps.mk' hl3 rfl
  clear_value l7 l8
  have hl9 : Keeps s0 l9 := by
    unfold l9; apply raiseEv_keeps; exact hl7
  clear_value l9
  have hl10 : Keeps s0 l10 := by
    unfold l10
    split
    · apply evMode_keeps; exact hl9
    · exact hl9
  clear_value l10
  refine keeps_ite ?_ ?_
  · apply leaseResetEvent_keeps; exact hl10
  · apply setMode_keeps
    refine keeps_ite ?_ ?_
    · exact hl9
    · apply leaseResetEvent_keeps; exact hl9

theorem noseResetApply_keeps {s0 : State} {s : State} (hk : Keeps s0 s) : Keeps s0 (noseResetApply s) := by
  unfold noseResetApply
  extract_lets s1
  have h1 : Keeps s0 s1 := dropRecords_keeps (flashCut_keeps hk)
  clear_value s1
  refine updateSummary_keeps ?_
  exact ⟨h1.pending, h1.outs, h1.fresh, h1.fuses, fun c => ⟨(h1.canon c).res, (h1.canon c).fe, (h1.canon c).cf, (h1.canon c).hbm,
    filter_wf _ (h1.canon c).ctrWf, fun p hp => (h1.canon c).ctrMax p (List.mem_filter.mp hp).1, (show ((0#16) - 0#16).toNat ≤ 8192 by decide), Nat.zero_le _, (h1.canon c).records⟩⟩

theorem noseWarmReset_keeps {s0 : State} {s : State} (hk : Keeps s0 s) : Keeps s0 (noseWarmReset s) := by
  unfold noseWarmReset
  refine keeps_ite ?_ ?_
  · extract_lets l0 l1
    have hl0 : Keeps s0 l0 := by
      unfold l0; apply noseResetApply_keeps; exact hk
    clear_value l0; apply raiseEv_keeps; exact Keeps.mk' hl0 rfl
  · extract_lets l2 l3 l4 l5 l6 l7; clear_value l2 l3
    have hl4 : Keeps s0 l4 := by
      unfold l4; apply gatePins_keeps; exact hk
    clear_value l4
    have hl5 : Keeps s0 l5 := by
      unfold l5; apply leavePair_keeps
      refine keeps_ite ?_ ?_
      · apply changeMode_keeps; apply stopService_keeps; exact hl4
      · exact hl4
    clear_value l5
    have hl6 : Keeps s0 l6 := by
      unfold l6; apply noseResetApply_keeps; exact hl5
    clear_value l6; exact Keeps.mk' hl6 rfl

theorem noseFirmwareFault_keeps {s0 : State} {s : State} (hk : Keeps s0 s) : Keeps s0 (noseFirmwareFault s) := by
  unfold noseFirmwareFault
  refine keeps_ite ?_ ?_
  · exact hk
  · apply noseWarmReset_keeps; exact hk

theorem powerOnReset_keeps {s0 : State} {s : State} (hk : Keeps s0 s) : Keeps s0 (powerOnReset s) := by
  exact resetKeep_keeps (flashCut_keeps hk)

theorem holdReset_keeps {s0 : State} {s : State} (hk : Keeps s0 s) : Keeps s0 (holdReset s) := by
  unfold holdReset
  extract_lets l0 l1 l2
  have hl0 : Keeps s0 l0 := by
    unfold l0; apply deviceReset_keeps; exact hk
  clear_value l0; exact Keeps.mk' hl0 rfl

theorem supplyUndervoltage_keeps {s0 : State} (rail : Nat) {s : State} (hk : Keeps s0 s) : Keeps s0
    (supplyUndervoltage rail s) := by
  unfold supplyUndervoltage
  refine keeps_ite ?_ ?_
  · apply powerOnReset_keeps; exact hk
  · refine keeps_ite ?_ ?_
    · extract_lets l0 l1 l2
      have hl0 : Keeps s0 l0.2 := by
        unfold l0; apply freeVal_keeps; exact hk
      clear_value l0
      have hl1 : Keeps s0 l1 := by
        unfold l1; exact hl0
      clear_value l1; apply holdReset_keeps; exact Keeps.mk' hl1 rfl
    · apply holdReset_keeps; exact hk

theorem thermtrip_keeps {s0 : State} (temp : BitVec 16) {s : State} (hk : Keeps s0 s) : Keeps s0
    (thermtrip temp s) := by
  unfold thermtrip
  refine keeps_ite ?_ ?_
  · extract_lets l0 l1
    have hl0 : Keeps s0 l0 := by
      unfold l0; apply holdReset_keeps; exact hk
    clear_value l0; exact Keeps.mk' hl0 rfl
  · exact hk

theorem startSequence_keeps {s0 : State} (run : StartRun) {s : State} (hk : Keeps s0 s) : Keeps s0
    (startSequence run s) := by
  unfold startSequence
  extract_lets l0 l1 l2 l3 l4 l5; clear_value l1
  have hl3 : Keeps s0 l3 := by
    unfold l3
    refine keeps_ite ?_ ?_
    · exact Keeps.mk' hk rfl
    · exact hk
  clear_value l3 l4 l5
  refine keeps_ite ?_ ?_
  · apply failStart_keeps; exact hk
  · refine keeps_ite ?_ ?_
    · apply failStart_keeps; exact hl3
    · refine keeps_ite ?_ ?_
      · apply failStart_keeps; exact hl3
      · refine keeps_ite ?_ ?_
        · apply failStart_keeps; exact hl3
        · refine keeps_ite ?_ ?_
          · apply failStart_keeps; exact hl3
          · refine keeps_ite ?_ ?_
            · apply failStart_keeps; exact hl3
            · refine keeps_ite ?_ ?_
              · apply failStart_keeps; exact hl3
              · apply startSucceeds_keeps; exact hl3

theorem modeReset_keeps {s0 : State} (scope : BitVec 8) {s : State} (hk : Keeps s0 s) : Keeps s0
    (modeReset scope s).2 := by
  unfold modeReset
  refine keeps_ite2 ?_ ?_
  · apply fails_keeps; exact hk
  · apply okWith_keeps; exact Keeps.mk' hk rfl

theorem flashRead_keeps {s0 : State} (offset : BitVec 32) (length : BitVec 16) {s : State} (hk : Keeps s0 s)
    : Keeps s0 (flashRead offset length s).2 := by
  unfold flashRead
  extract_lets l0; clear_value l0
  refine keeps_ite2 ?_ ?_
  · apply fails_keeps; exact hk
  · apply okWith_keeps; exact hk

theorem fuseProgram_keeps {s0 : State} (h : Hdr) (region : BitVec 8) (bit : BitVec 16) (count : BitVec 16) (bits'
    : List Byte) {s : State} (hk : Keeps s0 s) : Keeps s0 (fuseProgram h region bit count bits' s).2 := by
  unfold fuseProgram
  extract_lets l0 l1; clear_value l0 l1
  refine keeps_ite2 ?_ ?_
  · apply fails_keeps; exact hk
  · apply startJob_keeps; exact hk

theorem fuseSet_le (f : Fuses) (r b : Nat) : FuseLe f (fuseSet f r b) := by
  have key : ∀ {w : Nat} (x y : BitVec w), x &&& (x ||| y) = x := by
    intro w x y
    ext i hi
    simp only [BitVec.getElem_and, BitVec.getElem_or]
    cases x[i] <;> simp
  unfold fuseSet
  split <;> simp [FuseLe, key]
theorem fuseBitProgram_keeps {s0 : State} (ok : Bool) {s : State} (hk : Keeps s0 s) : Keeps s0 (fuseBitProgram ok s) := by
  unfold fuseBitProgram
  split
  · exact hk
  · split
    · split
      · have hb : ∀ r b, Keeps s0 { s with boot := { s.boot with fuses := fuseSet s.boot.fuses r b } } :=
          fun r b => boot_keeps hk (b := { s.boot with fuses := fuseSet s.boot.fuses r b }) (fuseSet_le _ _ _) id
        split
        · refine keeps_ite (endJob_keeps _ _ _ _ (hb _ _)) ?_
          exact (hb _ _).upd rfl rfl rfl rfl rfl rfl rfl rfl rfl rfl rfl rfl rfl
        · exact endJob_keeps _ _ _ _ (raiseErr_keeps _ _ _ _ _ hk)
      · exact endJob_keeps _ _ _ _ hk
    · exact hk

theorem porRelease_keeps {s0 : State} (run : StartRun) {s : State} (hk : Keeps s0 s) : Keeps s0
    (porRelease run s) := by
  unfold porRelease
  refine keeps_ite ?_ ?_
  · apply startSequence_keeps; exact hk
  · exact hk

theorem warmReset_keeps {s0 : State} {s : State} (hk : Keeps s0 s) : Keeps s0 (warmReset s) := by
  unfold warmReset
  split
  · exact hk
  · refine keeps_ite ?_ ?_
    · apply noseWarmReset_keeps; exact hk
    · apply deviceReset_keeps; apply evMode_keeps; exact hk

theorem execNoseFirmwareFault_keeps {s0 : State} {s t' : State} (hk : Keeps s0 s) (he
    : execNoseFirmwareFault s = .next t') : Keeps s0 t' := by
  unfold execNoseFirmwareFault at he
  cases he
  apply noseFirmwareFault_keeps; exact hk

theorem execThermtrip_keeps {s0 : State} (_sensor : Fin 16) (temp : BitVec 16) {s t' : State} (hk : Keeps s0 s)
    (he : execThermtrip _sensor temp s = .next t') : Keeps s0 t' := by
  unfold execThermtrip at he
  cases he
  apply thermtrip_keeps; exact hk

theorem execFlashWrite_keeps {s0 : State} (h : Hdr) (offset : BitVec 32) (erase : BitVec 8) (data : List Byte)
    {s t' : State} (hk : Keeps s0 s) (he : execFlashWrite h offset erase data s = .next t') : Keeps s0 t' := by
  unfold execFlashWrite at he
  cases he
  apply serve_keeps
  · intro v0 v1; apply flashWrite_keeps; exact v1
  · exact hk

theorem execSupplyUndervoltage_keeps {s0 : State} (rail : Fin 4) {s t' : State} (hk : Keeps s0 s) (he
    : execSupplyUndervoltage rail s = .next t') : Keeps s0 t' := by
  unfold execSupplyUndervoltage at he
  cases he
  apply supplyUndervoltage_keeps; exact hk

theorem execFlashRead_keeps {s0 : State} (h : Hdr) (offset : BitVec 32) (length : BitVec 16) {s t' : State} (hk
    : Keeps s0 s) (he : execFlashRead h offset length s = .next t') : Keeps s0 t' := by
  unfold execFlashRead at he
  cases he
  apply serve_keeps
  · intro v0 v1; apply flashRead_keeps; exact v1
  · exact hk

theorem execModeReset_keeps {s0 : State} (h : Hdr) (scope : BitVec 8) {s t' : State} (hk : Keeps s0 s) (he
    : execModeReset h scope s = .next t') : Keeps s0 t' := by
  unfold execModeReset at he
  cases he
  apply serve_keeps
  · intro v0 v1; apply modeReset_keeps; exact v1
  · exact hk

theorem execPowerOnReset_keeps {s0 : State} {s t' : State} (hk : Keeps s0 s) (he : execPowerOnReset s = .next t')
    : Keeps s0 t' := by
  unfold execPowerOnReset at he
  cases he
  apply powerOnReset_keeps; exact hk

theorem execFlashWriteComplete_keeps {s0 : State} {s t' : State} (hk : Keeps s0 s) (he
    : execFlashWriteComplete s = .next t') : Keeps s0 t' := by
  unfold execFlashWriteComplete at he
  cases he
  apply flashWriteComplete_keeps; exact hk

theorem execFuseProgram_keeps {s0 : State} (h : Hdr) (region : BitVec 8) (bit : BitVec 16) (count : BitVec 16)
    (bits' : List Byte) {s t' : State} (hk : Keeps s0 s) (he
    : execFuseProgram h region bit count bits' s = .next t') : Keeps s0 t' := by
  unfold execFuseProgram at he
  cases he
  apply serve_keeps
  · intro v0 v1; apply fuseProgram_keeps; exact v1
  · exact hk

theorem execStartWatchdog_keeps {s0 : State} (elapsedMs : BitVec 32) {s t' : State} (hk : Keeps s0 s) (he
    : execStartWatchdog elapsedMs s = .next t') : Keeps s0 t' := by
  unfold execStartWatchdog at he
  cases he
  apply startWatchdog_keeps; exact hk

theorem execFuseRead_keeps {s0 : State} (h : Hdr) (region : BitVec 8) {s t' : State} (hk : Keeps s0 s) (he
    : execFuseRead h region s = .next t') : Keeps s0 t' := by
  unfold execFuseRead at he
  cases he
  apply serve_keeps
  · intro v0 v1; apply fuseRead_keeps; exact v1
  · exact hk

theorem execEvThermal_keeps {s0 : State} (sensor : Fin 16) (temp : BitVec 16) {s t' : State} (hk : Keeps s0 s)
    (he : execEvThermal sensor temp s = .next t') : Keeps s0 t' := by
  unfold execEvThermal at he
  cases he
  apply evThermal_keeps; exact hk

theorem execWarmReset_keeps {s0 : State} {s t' : State} (hk : Keeps s0 s) (he : execWarmReset s = .next t')
    : Keeps s0 t' := by
  unfold execWarmReset at he
  cases he
  apply warmReset_keeps; exact hk

theorem execPorRelease_keeps {s0 : State} (run : StartRun) {s t' : State} (hk : Keeps s0 s) (he
    : execPorRelease run s = .next t') : Keeps s0 t' := by
  unfold execPorRelease at he
  cases he
  apply porRelease_keeps; exact hk

theorem execFuseBitProgram_keeps {s0 : State} (ok : Bool) {s t' : State} (hk : Keeps s0 s) (he
    : execFuseBitProgram ok s = .next t') : Keeps s0 t' := by
  unfold execFuseBitProgram at he
  cases he
  apply fuseBitProgram_keeps; exact hk

theorem clearBad_keeps {s0 : State} (r : Nat) {s : State} (hk : Keeps s0 s) : Keeps s0 (clearBad r s) := by
  unfold clearBad
  exact Keeps.mk' hk rfl

theorem bistLeaves_keeps {s0 : State} (kind idx : Nat) (eyes8 eyesS : List (Nat × Nat)) {s : State} (hk
    : Keeps s0 s) : Keeps s0 (bistLeaves kind idx eyes8 eyesS s) := by
  unfold bistLeaves
  split
  · refine clearBad_keeps _ (Keeps.upd (mem_keeps hk (m := { s.mem with res := [], taint := [] }) (fun _ => rfl) id id id) rfl rfl rfl rfl rfl rfl rfl rfl rfl rfl rfl rfl rfl)
  · exact hk.upd rfl rfl rfl rfl rfl rfl rfl rfl rfl rfl rfl rfl rfl
  · refine clearBad_keeps _ (Keeps.upd (mem_keeps hk (m := { s.mem with fe := [] }) id (fun _ => rfl) id id) rfl rfl rfl rfl rfl rfl rfl rfl rfl rfl rfl rfl rfl)
  · refine clearBad_keeps _ (Keeps.upd (mem_keeps hk (m := { s.mem with cf := [] }) id id (fun _ => rfl) id) rfl rfl rfl rfl rfl rfl rfl rfl rfl rfl rfl rfl rfl)
  · exact hbmUndefine_keeps hk _ _
  · exact hk.upd rfl rfl rfl rfl rfl rfl rfl rfl rfl rfl rfl rfl rfl
  · exact hk.upd rfl rfl rfl rfl rfl rfl rfl rfl rfl rfl rfl rfl rfl
  · exact hk

theorem releaseFormulas_keeps {s0 : State} {s : State} (hk : Keeps s0 s) : Keeps s0 (releaseFormulas s) := by
  unfold releaseFormulas
  apply lateUpdateAll_keeps; exact Keeps.mk' hk rfl

theorem bistComplete_keeps {s0 : State} (fails' : BitVec 32) (eyes8 : List (Nat × Nat)) (eyesS : List
    (Nat × Nat)) {s : State} (hk : Keeps s0 s) : Keeps s0 (bistComplete fails' eyes8 eyesS s) := by
  unfold bistComplete
  split
  · exact hk
  · split
    · extract_lets l0 l1 l2 l3 l4; clear_value l0
      have hl1 : Keeps s0 l1 := by
        unfold l1; apply bistLeaves_keeps; exact hk
      clear_value l1
      have hl2 : Keeps s0 l2 := by
        unfold l2
        refine keeps_ite ?_ ?_
        · exact hl1
        · apply releaseFormulas_keeps; exact hl1
      clear_value l2 l3
      have hl4 : Keeps s0 l4 := by
        unfold l4; apply raiseEv_keeps; exact hl2
      clear_value l4; apply endJob_keeps; exact hl4
    · exact hk

theorem loopRunStart_keeps {s0 : State} {s : State} (hk : Keeps s0 s) : Keeps s0 (loopRunStart s) := by
  unfold loopRunStart
  refine keeps_ite ?_ ?_
  · extract_lets l0
    have hl0 : Keeps s0 l0 := by
      unfold l0
      refine keeps_ite ?_ ?_
      · apply srExit_keeps; exact hk
      · exact hk
    clear_value l0; apply commonReset_keeps; exact hl0
  · exact hk

theorem loopRunUpdate_keeps {s0 : State} {s : State} (hk : Keeps s0 s) : Keeps s0 (loopRunUpdate s) := by
  unfold loopRunUpdate
  refine keeps_ite ?_ ?_
  · refine keeps_ite ?_ ?_
    · exact hk
    · exact Keeps.mk' hk rfl
  · refine keeps_ite ?_ ?_
    · exact hk
    · refine keeps_ite ?_ ?_
      · apply stopService_keeps; exact hk
      · exact Keeps.mk' hk rfl

theorem setLoops_keeps {s0 : State} (path : Nat) (depth : Nat) (mask : BitVec 256) {s : State} (hk : Keeps s0 s)
    : Keeps s0 (setLoops path depth mask s) := by
  unfold setLoops
  extract_lets l0 l1 l2 l3 l4 l5 l6 l7; clear_value l0 l1 l2 l3 l4 l5 l6 l7; exact Keeps.mk' hk rfl

theorem loopbackSet_keeps {s0 : State} (path : BitVec 8) (depth : BitVec 8) (mask : BitVec 256) {s : State} (hk
    : Keeps s0 s) : Keeps s0 (loopbackSet path depth mask s).2 := by
  unfold loopbackSet
  extract_lets l0 l1; clear_value l0 l1
  refine keeps_ite2 ?_ ?_
  · apply fails_keeps; exact hk
  · refine keeps_ite2 ?_ ?_
    · apply fails_keeps; exact hk
    · refine keeps_ite2 ?_ ?_
      · apply fails_keeps; exact hk
      · apply okWith_keeps; apply loopRunUpdate_keeps; apply setLoops_keeps; exact hk

theorem loopbackUnit_keeps {s0 : State} (path : Nat) (item : Nat) (ok : Bool) {s : State} (hk : Keeps s0 s)
    : Keeps s0 (loopbackUnit path item ok s) := by
  unfold loopbackUnit
  refine keeps_ite ?_ ?_
  · exact hk
  · extract_lets l0 l1; clear_value l0 l1
    split
    extract_lets l2 l3
    have hl2 : Keeps s0 l2 := by
      unfold l2
      refine keeps_ite ?_ ?_
      · apply count_keeps
        refine keeps_ite ?_ ?_
        · exact hk
        · apply count_keeps; exact hk
      · exact hk
    clear_value l2 l3; exact Keeps.mk' hl2 rfl

theorem bistRun_keeps {s0 : State} (h : Hdr) (target : BitVec 16) {s : State} (hk : Keeps s0 s) : Keeps s0
    (bistRun h target s).2 := by
  unfold bistRun
  extract_lets l0; clear_value l0
  refine keeps_ite2 ?_ ?_
  · apply fails_keeps; exact hk
  · refine keeps_ite2 ?_ ?_
    · apply fails_keeps; exact hk
    · refine keeps_ite2 ?_ ?_
      · apply fails_keeps; exact hk
      · apply startJob_keeps; exact hk

theorem execBistComplete_keeps {s0 : State} (fails' : BitVec 32) (eyes8 : List (Nat × Nat)) (eyesS : List
    (Nat × Nat)) {s t' : State} (hk : Keeps s0 s) (he : execBistComplete fails' eyes8 eyesS s = .next t')
    : Keeps s0 t' := by
  unfold execBistComplete at he
  cases he
  apply bistComplete_keeps; exact hk

theorem execLoopbackUnitChecked_keeps {s0 : State} (path : Fin 4) (item : Fin 256) (ok : Bool) {s t' : State} (hk
    : Keeps s0 s) (he : execLoopbackUnitChecked path item ok s = .next t') : Keeps s0 t' := by
  unfold execLoopbackUnitChecked at he
  cases he
  apply loopbackUnit_keeps; exact hk

theorem execLoopbackSet_keeps {s0 : State} (h : Hdr) (path : BitVec 8) (depth : BitVec 8) (mask : BitVec 256)
    {s t' : State} (hk : Keeps s0 s) (he : execLoopbackSet h path depth mask s = .next t') : Keeps s0 t' := by
  unfold execLoopbackSet at he
  cases he
  apply serve_keeps
  · intro v0 v1; apply loopbackSet_keeps; exact v1
  · exact hk

theorem execBistRun_keeps {s0 : State} (h : Hdr) (target : BitVec 16) {s t' : State} (hk : Keeps s0 s) (he
    : execBistRun h target s = .next t') : Keeps s0 t' := by
  unfold execBistRun at he
  cases he
  apply serve_keeps
  · intro v0 v1; apply bistRun_keeps; exact v1
  · exact hk

end Sys2Proof.Machine
end

