-- ==== Sys2Proof/Laws/KeepPair.lean ====
section
/-! SUPPORT. Moves, formulas, the pair and the acts at a boundary: each operation keeps what `Keeps` says (`f_keeps` is the lemma of `f`). -/

namespace Sys2Proof.Machine

theorem aeRead_keeps {s0 : State} (a : Nat) (n : Nat) {s : State} (hk : Keeps s0 s) : Keeps s0 (aeRead a n s).2 := by
  unfold aeRead
  extract_lets l0 l1 l2
  have hl0 : Keeps s0 l0.2 := by
    unfold l0
    with_reducible refine foldl_keeps2 ?_ ?_
    · intro v3 v4 v5; extract_lets l6 l7 l8; clear_value l6
      have hl7 : Keeps s0 l7.2 := by
        unfold l7
        split
        · refine keeps_ite2 ?_ ?_
          · dsimp only
            exact v5
          · apply cellDeliver_keeps; exact v5
        · apply cellDeliver_keeps; exact v5
      clear_value l7
      have hl8 : Keeps s0 l8 := by
        unfold l8
        refine keeps_ite ?_ ?_
        · apply markTaint_keeps; exact hl7
        · exact hl7
      clear_value l8; dsimp only; exact hl8
    · dsimp only
      exact hk
  clear_value l0 l1 l2; dsimp only; exact hl0

theorem moveRead_keeps {s0 : State} (unit : Nat) (a : Nat) (n : Nat) {s : State} (hk : Keeps s0 s) : Keeps s0
    (moveRead unit a n s).2 := by
  unfold moveRead
  extract_lets l0 l1 l2; clear_value l0 l1
  have hl2 : Keeps s0 l2.2 := by
    unfold l2
    refine keeps_ite2 ?_ ?_
    · apply regionRead_keeps; exact hk
    · refine keeps_ite2 ?_ ?_
      · apply regionRead_keeps; exact hk
      · apply regionRead_keeps; exact hk
  clear_value l2
  refine keeps_ite2 ?_ ?_
  · apply aeRead_keeps; exact hk
  · dsimp only
    exact hl2

theorem aeWrite_keeps {s0 : State} (a : Nat) (data : List Byte) (taint : List Bool) {s : State} (hk : Keeps s0 s)
    : Keeps s0 (aeWrite a data taint s) := by
  unfold aeWrite
  extract_lets l0; clear_value l0
  with_reducible refine foldl_keeps ?_ ?_
  · intro v1 v2 v3; extract_lets l4 l5 l6 l7 l8; clear_value l4 l5 l6 l7
    have hl8 : Keeps s0 l8 := by
      unfold l8
      refine keeps_ite ?_ ?_
      · apply markTaint_keeps; exact v3
      · exact v3
    clear_value l8; apply cellStore_keeps; exact hl8
  · exact hk

theorem moveWrite_keeps {s0 : State} (unit : Nat) (a : Nat) (data : List Byte) (taint : List Bool) {s : State}
    (hk : Keeps s0 s) : Keeps s0 (moveWrite unit a data taint s) := by
  unfold moveWrite
  extract_lets l0 l1 l2 l3; clear_value l0
  have hl1 : Keeps s0 l1 := by
    unfold l1; apply resWrite_keeps; exact hk
  clear_value l1
  have hl2 : Keeps s0 l2 := by
    unfold l2
    with_reducible refine foldl_keeps ?_ ?_
    · intro v4 v5 v6
      refine keeps_ite ?_ ?_
      · apply resTaint_keeps; exact v6
      · exact v6
    · exact hl1
  clear_value l2 l3
  refine keeps_ite ?_ ?_
  · apply aeWrite_keeps; exact hk
  · refine keeps_ite ?_ ?_
    · exact Keeps.mk' hl2 rfl
    · refine keeps_ite ?_ ?_
      · apply cfWrite_keeps; exact hk
      · apply feWrite_keeps; exact hk

theorem moveEnd_keeps {s0 : State} (idx : Nat) {s : State} (hk : Keeps s0 s) : Keeps s0 (moveEnd idx s) := by
  unfold moveEnd
  split
  · exact hk
  · refine keeps_ite ?_ ?_
    · exact hk
    · extract_lets l0 l1 l2 l3
      have hl0 : Keeps s0 l0 := by
        unfold l0; apply stuErFlush_keeps; apply stuCatchUp_keeps; apply advanceTo_keeps; exact hk
      clear_value l0
      have hl1 : Keeps s0 l1.2 := by
        unfold l1; apply moveRead_keeps; exact hl0
      clear_value l1
      have hl2 : Keeps s0 l2 := by
        unfold l2; apply moveWrite_keeps; exact hl1
      clear_value l2 l3; exact Keeps.mk' hl2 rfl

theorem moveStart_keeps {s0 : State} (idx : Nat) {s : State} (hk : Keeps s0 s) : Keeps s0 (moveStart idx s) := by
  unfold moveStart
  split
  · exact hk
  · refine keeps_ite ?_ ?_
    · exact hk
    · extract_lets l0 l1
      have hl0 : Keeps s0 l0 := by
        unfold l0; apply stuErFlush_keeps; apply stuCatchUp_keeps; apply advanceTo_keeps; exact hk
      clear_value l0 l1; exact Keeps.mk' hl0 rfl

theorem execMoveStart_keeps {s0 : State} (idx : Nat) {s t' : State} (hk : Keeps s0 s) (he
    : execMoveStart idx s = .next t') : Keeps s0 t' := by
  unfold execMoveStart at he
  cases he
  apply moveStart_keeps; exact hk

theorem execMoveEnd_keeps {s0 : State} (idx : Nat) {s t' : State} (hk : Keeps s0 s) (he
    : execMoveEnd idx s = .next t') : Keeps s0 t' := by
  unfold execMoveEnd at he
  cases he
  apply moveEnd_keeps; exact hk

theorem storeChunk_keeps {s0 : State} (offset : Nat) (total : Nat) (final : Bool) (data : List Byte) {s : State}
    (hk : Keeps s0 s) : Keeps s0 (storeChunk offset total final data s) := by
  unfold storeChunk
  extract_lets l0 l1
  have hl0 : Keeps s0 l0 := by
    unfold l0; apply resWrite_keeps; exact hk
  clear_value l0 l1; exact Keeps.mk' hl0 rfl

theorem verifyPending_keeps {s0 : State} {s : State} (hk : Keeps s0 s) : Keeps s0 (verifyPending s).2.2 := by
  unfold verifyPending
  split
  · dsimp only
    exact hk
  · extract_lets l0 l1
    have hl0 : Keeps s0 l0.2 := by
      unfold l0; apply regionRead_keeps; exact hk
    clear_value l0 l1; dsimp only; exact hl0

theorem abandonLoad_keeps {s0 : State} {s : State} (hk : Keeps s0 s) : Keeps s0 (abandonLoad s) := by
  unfold abandonLoad
  exact Keeps.mk' hk rfl

theorem chunkFails_keeps {s0 : State} (offset : Nat) (total : Nat) (st : Nat) {s : State} (hk : Keeps s0 s)
    : Keeps s0 (chunkFails offset total st s) := by
  unfold chunkFails
  refine keeps_ite ?_ ?_
  · apply abandonLoad_keeps; exact hk
  · exact hk

theorem formulaLoad_keeps {s0 : State} (h : Hdr) (offset : BitVec 32) (total : BitVec 32) (final : BitVec 8)
    (data : List Byte) {s : State} (hk : Keeps s0 s) : Keeps s0 (formulaLoad h offset total final data s).2 := by
  unfold formulaLoad
  extract_lets l0 l1 l2; clear_value l0 l1
  have hl2 : Keeps s0 l2 := by
    unfold l2; apply storeChunk_keeps; exact hk
  clear_value l2
  refine keeps_ite2 ?_ ?_
  · apply fails_keeps; exact hk
  · refine keeps_ite2 ?_ ?_
    · apply fails_keeps; apply chunkFails_keeps; exact hk
    · refine keeps_ite2 ?_ ?_
      · apply acceptPair_keeps
        · intro v3 v4; unfold id; exact v4
        · exact hk
      · refine keeps_ite2 ?_ ?_
        · apply startJob_keeps; exact hl2
        · apply okWith_keeps; exact hl2

theorem switchNow_keeps {s0 : State} {s : State} (hk : Keeps s0 s) : Keeps s0 (switchNow s) := by
  unfold switchNow
  extract_lets l0 l1 l2 l3; clear_value l0
  have hl1 : Keeps s0 l1 := by
    unfold l1
    refine keeps_ite ?_ ?_
    · apply stopService_keeps; exact hk
    · exact hk
  clear_value l1
  have hl2 : Keeps s0 l2 := by
    unfold l2; apply switchStandby_keeps; exact hl1
  clear_value l2 l3
  refine keeps_ite ?_ ?_
  · exact Keeps.mk' hl2 rfl
  · exact hl2

theorem dropActivations_keeps {s0 : State} {s : State} (hk : Keeps s0 s) : Keeps s0 (dropActivations s) := by
  unfold dropActivations
  exact Keeps.mk' hk rfl

theorem formulaActivate_keeps {s0 : State} (h : Hdr) (b : Stamp) {s : State} (hk : Keeps s0 s) : Keeps s0
    (formulaActivate h b s).2 := by
  unfold formulaActivate
  extract_lets l0 l1 l2; clear_value l0 l1 l2
  refine keeps_ite2 ?_ ?_
  · apply fails_keeps; exact hk
  · split
    · apply fails_keeps; exact hk
    · refine keeps_ite2 ?_ ?_
      · apply fails_keeps; exact hk
      · refine keeps_ite2 ?_ ?_
        · apply fails_keeps; exact hk
        · extract_lets l3 l4; clear_value l3 l4
          refine keeps_ite2 ?_ ?_
          · apply fails_keeps; exact hk
          · apply acceptPair_keeps
            · intro v5 v6; apply switchNow_keeps; exact v6
            · refine keeps_ite ?_ ?_
              · exact hk
              · apply dropActivations_keeps; exact hk

theorem verifyComplete_keeps {s0 : State} {s : State} (hk : Keeps s0 s) : Keeps s0 (verifyComplete s) := by
  unfold verifyComplete
  split
  · exact hk
  · split
    · extract_lets l0 l1 l2 l3
      have hl0 : Keeps s0 l0.2.2 := by
        unfold l0; apply verifyPending_keeps; exact hk
      clear_value l0
      have hl1 : Keeps s0 l1 := by
        unfold l1; exact hl0
      clear_value l1 l2
      have hl3 : Keeps s0 l3 := by
        unfold l3; exact Keeps.mk' hl1 rfl
      clear_value l3; apply endJob_keeps; exact hl3
    · exact hk

theorem execFormulaLoad_keeps {s0 : State} (h : Hdr) (offset : BitVec 32) (total : BitVec 32) (final : BitVec 8)
    (data : List Byte) {s t' : State} (hk : Keeps s0 s) (he
    : execFormulaLoad h offset total final data s = .next t') : Keeps s0 t' := by
  unfold execFormulaLoad at he
  cases he
  apply serve_keeps
  · intro v0 v1; apply formulaLoad_keeps; exact v1
  · exact hk

theorem execFormulaStatus_keeps {s0 : State} (h : Hdr) {s t' : State} (hk : Keeps s0 s) (he
    : execFormulaStatus h s = .next t') : Keeps s0 t' := by
  unfold execFormulaStatus at he
  cases he
  apply serve_keeps
  · intro v0 v1; apply okWith_keeps; exact v1
  · exact hk

theorem execFormulaActivate_keeps {s0 : State} (h : Hdr) (b : Stamp) {s t' : State} (hk : Keeps s0 s) (he
    : execFormulaActivate h b s = .next t') : Keeps s0 t' := by
  unfold execFormulaActivate at he
  cases he
  apply serve_keeps
  · intro v0 v1; apply formulaActivate_keeps; exact v1
  · exact hk

theorem execFormulaVerifyComplete_keeps {s0 : State} {s t' : State} (hk : Keeps s0 s) (he
    : execFormulaVerifyComplete s = .next t') : Keeps s0 t' := by
  unfold execFormulaVerifyComplete at he
  cases he
  apply verifyComplete_keeps; exact hk

theorem mergeItem_keeps {s0 : State} (w : Window) (i : Item) {s : State} (hk : Keeps s0 s) : Keeps s0
    (mergeItem w i s) := by
  unfold mergeItem
  refine keeps_ite ?_ ?_
  · exact hk
  · extract_lets l0
    have hl0 : Keeps s0 l0.2 := by
      unfold l0; apply fileItem_keeps; exact hk
    clear_value l0
    refine keeps_ite ?_ ?_
    · apply sendTwLead_keeps; exact hl0
    · exact hl0

theorem mergeShadow_keeps {s0 : State} (pick : Window → Bool) {s : State} (hk : Keeps s0 s) : Keeps s0
    (mergeShadow pick s) := by
  unfold mergeShadow
  extract_lets l0 l1 l2; clear_value l0 l1
  have hl2 : Keeps s0 l2 := by
    unfold l2; exact Keeps.mk' hk rfl
  clear_value l2
  with_reducible refine foldl_keeps ?_ ?_
  · intro v3 v4 v5
    with_reducible refine foldl_keeps ?_ ?_
    · intro v6 v7 v8; apply mergeItem_keeps; exact v8
    · exact v5
  · exact hl2

theorem sendPair_keeps {s0 : State} (op : Nat) (a : Act) (effect : Stamp) {s : State} (hk : Keeps s0 s)
    : Keeps s0 (sendPair op a effect s) := by
  unfold sendPair
  extract_lets l0 l1 l2; clear_value l0 l1
  have hl2 : Keeps s0 l2 := by
    unfold l2; exact Keeps.mk' hk rfl
  clear_value l2; apply sendTw_keeps; apply sendTw_keeps; exact hl2

theorem sendHist_keeps {s0 : State} (kind : BitVec 8) (commit : Stamp) {s : State} (hk : Keeps s0 s) : Keeps s0
    (sendHist kind commit s) := by
  unfold sendHist
  extract_lets l0 l1 l2
  have hl0 : ∀ a0 a1 a2 a3, Keeps s0 a3 → Keeps s0 (l0 a0 a1 a2 a3) := by
    intro v3 v4 v5 v6 v7; unfold l0
    with_reducible refine foldl_keeps ?_ ?_
    · intro v8 v9 v10; apply sendTw_keeps; exact v10
    · exact v7
  clear_value l0
  have hl1 : Keeps s0 l1 := by
    unfold l1
    with_reducible refine foldl_keeps ?_ ?_
    · intro v11 v12 v13; apply hl0; exact v13
    · exact hk
  clear_value l1 l2
  with_reducible refine foldl_keeps ?_ ?_
  · intro v14 v15 v16; apply hl0; exact v16
  · exact hl1

theorem takeRole_keeps {s0 : State} (pairId : BitVec 16) (index : BitVec 8) (role : BitVec 8) (f : Fitness) {s
    : State} (hk : Keeps s0 s) : Keeps s0 (takeRole pairId index role f s) := by
  unfold takeRole
  exact Keeps.mk' hk rfl

theorem startService_keeps {s0 : State} (m : Mode) (cause : Nat) {s : State} (hk : Keeps s0 s) : Keeps s0
    (startService m cause s) := by
  unfold startService
  apply commonStart_keeps; apply setMode_keeps; exact hk

theorem enterSillage_keeps {s0 : State} (pairId : BitVec 16) (index : BitVec 8) (f : Fitness) {s : State} (hk
    : Keeps s0 s) : Keeps s0 (enterSillage pairId index f s) := by
  unfold enterSillage
  refine keeps_ite ?_ ?_
  · apply takeRole_keeps; apply startService_keeps; exact hk
  · exact hk

theorem applyRejoin_keeps {s0 : State} {s : State} (hk : Keeps s0 s) : Keeps s0 (applyRejoin s) := by
  unfold applyRejoin
  refine keeps_ite ?_ ?_
  · extract_lets l0 l1 l2
    have hl0 : Keeps s0 l0 := by
      unfold l0
      with_reducible refine foldl_keeps ?_ ?_
      · intro v3 v4 v5; apply sendPair_keeps; exact v5
      · exact hk
    clear_value l0
    have hl1 : Keeps s0 l1 := by
      unfold l1; apply sendTw_keeps; apply sendHist_keeps; exact hl0
    clear_value l1 l2; exact Keeps.mk' hl1 rfl
  · extract_lets l6 l7 l8 l9; clear_value l6
    have hl8 : Keeps s0 l8 := by
      unfold l8
      split
      · apply enterSillage_keeps; exact Keeps.mk' hk rfl
      · exact hk
    clear_value l8 l9
    refine keeps_ite ?_ ?_
    · exact Keeps.mk' hl8 rfl
    · exact hl8

theorem abandonHandover_keeps {s0 : State} {s : State} (hk : Keeps s0 s) : Keeps s0 (abandonHandover s) := by
  unfold abandonHandover
  extract_lets l0 l1; clear_value l0
  have hl1 : Keeps s0 l1 := by
    unfold l1; exact Keeps.mk' hk rfl
  clear_value l1
  with_reducible refine foldl_keeps ?_ ?_
  · intro v2 v3 v4
    split
    · apply endJob_keeps; exact v4
    · exact v4
  · exact hl1

theorem sendCommitLog_keeps {s0 : State} {s : State} (hk : Keeps s0 s) : Keeps s0 (sendCommitLog s) := by
  unfold sendCommitLog
  refine keeps_ite ?_ ?_
  · apply sendHist_keeps; exact hk
  · exact hk

theorem putHist_keeps {s0 : State} (unit : Nat) (h : Hist) {s : State} (hk : Keeps s0 s) : Keeps s0
    (putHist unit h s) := by
  unfold putHist
  split
  · with_reducible refine foldl_keeps ?_ ?_
    · intro v0 v1 v2; apply laneSet_keeps; exact v2
    · exact hk
  · with_reducible refine foldl_keeps ?_ ?_
    · intro v3 v4 v5; extract_lets l6 l7 l8; clear_value l6
      have hl7 : Keeps s0 l7 := by
        unfold l7; apply rxSetE_keeps; exact v5
      clear_value l7 l8; apply txSetE_keeps; exact hl7
    · exact hk
  · with_reducible refine foldl_keeps ?_ ?_
    · intro v9 v10 v11; apply stuSet_keeps; exact v11
    · exact hk
  · exact Keeps.mk' hk rfl
  · exact Keeps.mk' hk rfl
  · exact Keeps.mk' hk rfl
  · exact hk

theorem applyState_keeps {s0 : State} (unit : Nat) (addr : Nat) (data : List Byte) {s : State} (hk : Keeps s0 s)
    : Keeps s0 (applyState unit addr data s) := by
  unfold applyState
  refine keeps_ite ?_ ?_
  · extract_lets l0 l1 l2 l3 l4; clear_value l0 l1 l2
    have hl3 : Keeps s0 l3 := by
      unfold l3; exact Keeps.mk' hk rfl
    clear_value l3 l4; apply putHist_keeps; exact hl3
  · refine keeps_ite ?_ ?_
    · apply feWrite_keeps; exact hk
    · refine keeps_ite ?_ ?_
      · apply resWrite_keeps; exact hk
      · refine keeps_ite ?_ ?_
        · with_reducible refine foldl_keeps ?_ ?_
          · intro v5 v6 v7; extract_lets l8 l9; clear_value l8 l9; apply cellStore_keeps; exact v7
          · exact hk
        · exact hk

theorem converge_keeps {s0 : State} (lin : Nat) {s : State} (hk : Keeps s0 s) : Keeps s0 (converge lin s) := by
  unfold converge
  refine keeps_ite ?_ ?_
  · exact Keeps.mk' hk rfl
  · exact hk

theorem setLead_keeps {s0 : State} (on : Bool) {s : State} (hk : Keeps s0 s) : Keeps s0 (setLead on s) := by
  unfold setLead
  exact Keeps.mk' hk rfl

theorem applyUnpair_keeps {s0 : State} {s : State} (hk : Keeps s0 s) : Keeps s0 (applyUnpair s) := by
  unfold applyUnpair
  refine keeps_ite ?_ ?_
  · apply setMode_keeps; apply setLead_keeps; apply leavePair_keeps; apply refuseWaits_keeps; exact hk
  · refine keeps_ite ?_ ?_
    · apply pairToStandby_keeps; exact hk
    · exact hk

theorem ripen_keeps {s0 : State} {s : State} (hk : Keeps s0 s) : Keeps s0 (ripen s) := by
  unfold ripen
  extract_lets l0 l1 l2 l3 l4 l5 l6; clear_value l0
  have hl1 : Keeps s0 l1 := by
    unfold l1; exact Keeps.mk' hk rfl
  clear_value l1
  have hl2 : Keeps s0 l2 := by
    unfold l2
    refine keeps_ite ?_ ?_
    · refine keeps_ite ?_ ?_
      · apply emptyStore_keeps; exact hl1
      · exact hl1
    · exact hk
  clear_value l2 l3 l4 l5
  have hl6 : Keeps s0 l6 := by
    unfold l6; exact Keeps.mk' hl2 rfl
  clear_value l6
  refine keeps_ite ?_ ?_
  · refine keeps_ite ?_ ?_
    · apply raiseEv_keeps; exact hl6
    · exact hl6
  · exact hl2

theorem enterLead_keeps {s0 : State} (pairId : BitVec 16) (index : BitVec 8) {s : State} (hk : Keeps s0 s)
    : Keeps s0 (enterLead pairId index s) := by
  unfold enterLead
  refine keeps_ite ?_ ?_
  · apply takeRole_keeps; apply setLead_keeps; apply setMode_keeps; exact hk
  · refine keeps_ite ?_ ?_
    · apply takeRole_keeps; apply setLead_keeps; apply startService_keeps; exact hk
    · exact hk

theorem applyTwinEnter_keeps {s0 : State} (pairId : BitVec 16) (index : BitVec 8) (role : BitVec 8) {s : State}
    (hk : Keeps s0 s) : Keeps s0 (applyTwinEnter pairId index role s) := by
  unfold applyTwinEnter
  refine keeps_ite ?_ ?_
  · apply enterLead_keeps; exact hk
  · apply enterSillage_keeps; exact hk

theorem applySplit_keeps {s0 : State} {s : State} (hk : Keeps s0 s) : Keeps s0 (applySplit s) := by
  unfold applySplit
  refine keeps_ite ?_ ?_
  · extract_lets l0 l1
    have hl0 : Keeps s0 l0 := by
      unfold l0; apply refuseWaits_keeps; apply goUnfit_keeps; apply setMode_keeps; apply setLead_keeps; exact hk
    clear_value l0 l1; apply tbLose_keeps; exact Keeps.mk' hl0 rfl
  · exact hk

theorem takeoverOutcome_keeps {s0 : State} (was : Fitness) (join : Option Nat) {s : State} (hk : Keeps s0 s)
    : Keeps s0 (takeoverOutcome was join s) := by
  unfold takeoverOutcome
  split
  · exact hk
  · extract_lets l0 l1; clear_value l0 l1; exact Keeps.mk' hk rfl
  · apply beginRupture_keeps; exact hk

theorem evTakeover_keeps {s0 : State} (planned : BitVec 8) (role : BitVec 8) {s : State} (hk : Keeps s0 s)
    : Keeps s0 (evTakeover planned role s) := by
  unfold evTakeover
  apply raiseEv_keeps; exact hk

theorem takeoverOld_keeps {s0 : State} (planned : BitVec 8) {s : State} (hk : Keeps s0 s) : Keeps s0
    (takeoverOld planned s) := by
  unfold takeoverOld
  extract_lets l0 l1 l2 l3 l4 l5
  have hl0 : Keeps s0 l0 := by
    unfold l0; apply setMode_keeps; apply setLead_keeps; exact hk
  clear_value l0 l1
  have hl2 : Keeps s0 l2 := by
    unfold l2; exact Keeps.mk' hl0 rfl
  clear_value l2
  have hl3 : Keeps s0 l3 := by
    unfold l3; apply evTakeover_keeps; exact hl2
  clear_value l3 l4
  have hl5 : Keeps s0 l5 := by
    unfold l5
    with_reducible refine foldl_keeps ?_ ?_
    · intro v6 v7 v8
      split
      · apply endJob_keeps; exact v8
      · apply endJob_keeps; exact v8
      · exact v8
    · exact hl3
  clear_value l5; apply tbLose_keeps; exact hl5

theorem takeoverNew_keeps {s0 : State} (planned : BitVec 8) {s : State} (hk : Keeps s0 s) : Keeps s0
    (takeoverNew planned s) := by
  unfold takeoverNew
  extract_lets l0 l1 l2 l3 l4 l5 l6 l7; clear_value l0 l1 l2
  have hl3 : Keeps s0 l3 := by
    unfold l3; apply count_keeps; apply setMode_keeps; apply setLead_keeps; exact hk
  clear_value l3 l4 l5
  have hl6 : Keeps s0 l6 := by
    unfold l6; exact Keeps.mk' hl3 rfl
  clear_value l6
  have hl7 : Keeps s0 l7 := by
    unfold l7; apply takeoverOutcome_keeps; apply evTakeover_keeps; exact hl6
  clear_value l7; apply mergeShadow_keeps; exact hl7

theorem takeoverAt_keeps {s0 : State} {s : State} (hk : Keeps s0 s) : Keeps s0 (takeoverAt s) := by
  unfold takeoverAt
  split
  · exact hk
  · refine keeps_ite ?_ ?_
    · exact hk
    · refine keeps_ite ?_ ?_
      · apply takeoverNew_keeps; exact hk
      · refine keeps_ite ?_ ?_
        · refine keeps_ite ?_ ?_
          · apply takeoverOld_keeps; exact hk
          · apply abandonHandover_keeps; exact hk
        · exact Keeps.mk' hk rfl

theorem sillageChunk_keeps {s0 : State} (offset : BitVec 32) (total : BitVec 32) (final : Bool) (data
    : List Byte) {s : State} (hk : Keeps s0 s) : Keeps s0 (sillageChunk offset total final data s) := by
  unfold sillageChunk
  extract_lets l0 l1 l2 l3
  have hl0 : Keeps s0 l0 := by
    unfold l0; apply storeChunk_keeps; exact hk
  clear_value l0
  have hl1 : Keeps s0 l1.2.2 := by
    unfold l1; apply verifyPending_keeps; exact hl0
  clear_value l1
  have hl2 : Keeps s0 l2 := by
    unfold l2; exact hl1
  clear_value l2 l3
  refine keeps_ite ?_ ?_
  · exact Keeps.mk' hl2 rfl
  · exact hl0

theorem applyThaw_keeps {s0 : State} {s : State} (hk : Keeps s0 s) : Keeps s0 (applyThaw s) := by
  unfold applyThaw
  refine keeps_ite ?_ ?_
  · apply memThawApply_keeps; exact hk
  · refine keeps_ite ?_ ?_
    · apply ddEmpty_keeps; exact Keeps.mk' hk rfl
    · exact hk

theorem enterBase_keeps {s0 : State} {s : State} (hk : Keeps s0 s) : Keeps s0 (enterBase s) := by
  unfold enterBase
  extract_lets l0 l1 l2 l3 l4 l5 l6 l7
  have hl0 : Keeps s0 l0 := by
    unfold l0
    refine keeps_ite ?_ ?_
    · apply stopService_keeps; exact hk
    · exact hk
  clear_value l0
  have hl1 : Keeps s0 l1 := by
    unfold l1; apply evMode_keeps; apply baseState_keeps; apply captureEndAll_keeps; apply gatePins_keeps; exact hl0
  clear_value l1 l3 l4 l6
  have hl7 : Keeps s0 l7 := by
    unfold l7; exact Keeps.mk' hl1 rfl
  clear_value l7; apply setLease_keeps; exact hl7

theorem modeEnter_keeps {s0 : State} (target : BitVec 8) (b : Stamp) {s : State} (hk : Keeps s0 s) : Keeps s0
    (modeEnter target b s).2 := by
  unfold modeEnter
  split
  · refine keeps_ite2 ?_ ?_
    · apply fails_keeps; exact hk
    · apply okWith_keeps; exact Keeps.mk' hk rfl
  · refine keeps_ite2 ?_ ?_
    · apply fails_keeps; exact hk
    · apply okWith_keeps; apply enterBase_keeps; exact hk
  · refine keeps_ite2 ?_ ?_
    · apply fails_keeps; exact hk
    · extract_lets l0; clear_value l0
      refine keeps_ite2 ?_ ?_
      · apply fails_keeps; exact hk
      · apply accept_keeps
        · intro v1 v2; unfold id; exact v2
        · exact hk
  · extract_lets l3; clear_value l3
    refine keeps_ite2 ?_ ?_
    · apply fails_keeps; exact hk
    · refine keeps_ite2 ?_ ?_
      · apply fails_keeps; exact hk
      · apply accept_keeps
        · intro v4 v5; unfold id; exact v5
        · exact hk
  · apply fails_keeps; exact hk

theorem applyModeEnter_keeps {s0 : State} (m : Mode) {s : State} (hk : Keeps s0 s) : Keeps s0
    (applyModeEnter m s) := by
  unfold applyModeEnter
  split
  · apply startService_keeps; exact hk
  · apply setMode_keeps; apply stopService_keeps; exact hk
  · exact hk

theorem applyTimeConfig_keeps {s0 : State} (params : BitVec 512) {s : State} (hk : Keeps s0 s) : Keeps s0
    (applyTimeConfig params s) := by
  unfold applyTimeConfig
  extract_lets l0 l1 l2 l3 l4; clear_value l0 l1
  have hl2 : Keeps s0 l2 := by
    unfold l2; exact Keeps.mk' hk rfl
  clear_value l2 l3 l4
  refine keeps_ite ?_ ?_
  · exact hl2
  · exact Keeps.mk' hl2 rfl

theorem applyAct_keeps {s0 : State} (a : Act) {s : State} (hk : Keeps s0 s) : Keeps s0 (applyAct a s) := by
  unfold applyAct
  split
  · apply applyModeEnter_keeps; exact hk
  · apply sillageChunk_keeps; exact hk
  · refine keeps_ite ?_ ?_
    · apply switchAt_keeps; exact hk
    · apply switchNow_keeps; exact hk
  · apply applyLinkConfig_keeps; exact hk
  · apply applyLinkSetup_keeps; exact hk
  · apply applySicRetrain_keeps; exact hk
  · apply applyLayerConfig_keeps; exact hk
  · apply applyLayerWeights_keeps; exact hk
  · apply applyPortConfig_keeps; exact hk
  · exact hk
  · apply applyQueueResize_keeps; exact hk
  · apply applyTimeConfig_keeps; exact hk
  · exact hk
  · apply applyThaw_keeps; exact hk
  · apply applyTwinEnter_keeps; exact hk
  · apply applyRejoin_keeps; exact hk
  · apply applyUnpair_keeps; exact hk
  · exact hk
  · apply applySplit_keeps; exact hk
  · exact Keeps.mk' hk rfl
  · exact Keeps.mk' hk rfl

theorem commitAct_keeps {s0 : State} (w : When) (a : Act) {s : State} (hk : Keeps s0 s) : Keeps s0
    (commitAct w a s) := by
  unfold commitAct
  split
  · apply stageSounding_keeps; exact hk
  · apply schedule_keeps; apply dropActivations_keeps; exact hk
  · apply schedule_keeps; exact Keeps.mk' hk rfl
  · apply applyAct_keeps; exact hk
  · apply schedule_keeps; exact hk

theorem configAct_keeps {s0 : State} (a : Act) {s : State} (hk : Keeps s0 s) : Keeps s0 (configAct a s) := by
  unfold configAct
  split
  · extract_lets l0
    have hl0 : Keeps s0 l0 := by
      unfold l0; apply stageSounding_keeps; exact hk
    clear_value l0
    refine keeps_ite ?_ ?_
    · apply applySounding_keeps; exact hl0
    · exact hl0
  · apply applyAct_keeps; exact hk

theorem accordJoin_keeps {s0 : State} (h : Hdr) (slot : BitVec 8) (accord : BitVec 16) (b : Stamp) (members
    : List (BitVec 128)) {s : State} (hk : Keeps s0 s) : Keeps s0 (accordJoin h slot accord b members s).2 := by
  unfold accordJoin
  extract_lets l0 l1; clear_value l0 l1
  refine keeps_ite2 ?_ ?_
  · apply fails_keeps; exact hk
  · refine keeps_ite2 ?_ ?_
    · apply fails_keeps; exact hk
    · apply acceptPair_keeps
      · intro v2 v3; unfold id; exact v3
      · exact hk

theorem domainConfig_keeps {s0 : State} (deviceId : BitVec 16) {s : State} (hk : Keeps s0 s) : Keeps s0
    (domainConfig deviceId s).2 := by
  unfold domainConfig
  refine keeps_ite2 ?_ ?_
  · apply fails_keeps; exact hk
  · apply okWith_keeps; exact Keeps.mk' hk rfl

theorem accordLeave_keeps {s0 : State} (h : Hdr) (slot : BitVec 8) (b : Stamp) {s : State} (hk : Keeps s0 s)
    : Keeps s0 (accordLeave h slot b s).2 := by
  unfold accordLeave
  extract_lets l0 l1; clear_value l0 l1
  refine keeps_ite2 ?_ ?_
  · apply fails_keeps; exact hk
  · refine keeps_ite2 ?_ ?_
    · apply fails_keeps; exact hk
    · apply acceptPair_keeps
      · intro v2 v3; unfold id; exact v3
      · exact hk

theorem execModeEnter_keeps {s0 : State} (h : Hdr) (target : BitVec 8) (b : Stamp) {s t' : State} (hk
    : Keeps s0 s) (he : execModeEnter h target b s = .next t') : Keeps s0 t' := by
  unfold execModeEnter at he
  cases he
  apply serve_keeps
  · intro v0 v1; apply modeEnter_keeps; exact v1
  · exact hk

theorem execAccordJoin_keeps {s0 : State} (h : Hdr) (slot : BitVec 8) (accord : BitVec 16) (b : Stamp) (members
    : List (BitVec 128)) {s t' : State} (hk : Keeps s0 s) (he
    : execAccordJoin h slot accord b members s = .next t') : Keeps s0 t' := by
  unfold execAccordJoin at he
  cases he
  apply serve_keeps
  · intro v0 v1; apply accordJoin_keeps; exact v1
  · exact hk

theorem execDomainConfig_keeps {s0 : State} (h : Hdr) (deviceId : BitVec 16) {s t' : State} (hk : Keeps s0 s) (he
    : execDomainConfig h deviceId s = .next t') : Keeps s0 t' := by
  unfold execDomainConfig at he
  cases he
  apply serve_keeps
  · intro v0 v1; apply domainConfig_keeps; exact v1
  · exact hk

theorem execAccordLeave_keeps {s0 : State} (h : Hdr) (slot : BitVec 8) (b : Stamp) {s t' : State} (hk
    : Keeps s0 s) (he : execAccordLeave h slot b s = .next t') : Keeps s0 t' := by
  unfold execAccordLeave at he
  cases he
  apply serve_keeps
  · intro v0 v1; apply accordLeave_keeps; exact v1
  · exact hk

theorem stopCell_keeps {s0 : State} (j : Nat) (y : Bool) (cell : Nat) {s : State} (hk : Keeps s0 s) : Keeps s0
    (stopCell j y cell s) := by
  unfold stopCell
  apply cellStore_keeps; exact hk

theorem aeSubstOne_keeps {s0 : State} (j : Nat) {s : State} (hk : Keeps s0 s) : Keeps s0 (aeSubstOne j s) := by
  unfold aeSubstOne
  with_reducible refine foldl_keeps ?_ ?_
  · intro v0 v1 v2
    refine keeps_ite ?_ ?_
    · exact v2
    · with_reducible refine foldl_keeps ?_ ?_
      · intro v3 v4 v5; apply stopCell_keeps; exact v5
      · exact v2
  · exact hk

theorem aeStopOne_keeps {s0 : State} (j : Nat) {s : State} (hk : Keeps s0 s) : Keeps s0 (aeStopOne j s) := by
  unfold aeStopOne
  extract_lets l0 l1 l2 l3 l4; clear_value l0
  have hl1 : Keeps s0 l1 := by
    unfold l1
    with_reducible refine foldl_keeps ?_ ?_
    · intro v5 v6 v7; apply stopCell_keeps; exact v7
    · exact hk
  clear_value l1 l2
  have hl3 : Keeps s0 l3 := by
    unfold l3; apply clSet_keeps; exact hl1
  clear_value l3
  have hl4 : Keeps s0 l4 := by
    unfold l4; apply aeSubstOne_keeps; exact hl3
  clear_value l4
  refine keeps_ite ?_ ?_
  · apply dropVersions_keeps; exact hl4
  · exact hl4

theorem fencedOutputs_keeps {s0 : State} {s : State} (hk : Keeps s0 s) : Keeps s0 (fencedOutputs s) := by
  unfold fencedOutputs
  with_reducible refine foldl_keeps ?_ ?_
  · intro v0 v1 v2; extract_lets l3 l4; clear_value l3 l4
    split
    · apply markSubst_keeps; exact v2
    · apply markSubst_keeps; apply stuSubstitute_keeps; apply stuBegin_keeps; exact v2
    · apply markSubst_keeps; apply sicSubstitute_keeps; exact v2
    · apply markSubst_keeps
      with_reducible refine foldl_keeps ?_ ?_
      · intro v5 v6 v7; apply aeSubstOne_keeps; exact v7
      · exact v2
    · exact v2
  · exact hk

theorem fgEnd_keeps {s0 : State} (k : Nat) {s : State} (hk : Keeps s0 s) : Keeps s0 (fgEnd k s) := by
  unfold fgEnd
  with_reducible refine foldl_keeps ?_ ?_
  · intro v0 v1 v2; apply clSet_keeps; exact v2
  · exact hk

theorem aeCommitOne_keeps {s0 : State} (j : Nat) {s : State} (hk : Keeps s0 s) : Keeps s0 (aeCommitOne j s) := by
  unfold aeCommitOne
  extract_lets l0 l1 l2 l3 l4 l5; clear_value l0 l1
  have hl2 : Keeps s0 l2 := by
    unfold l2
    with_reducible refine foldl_keeps ?_ ?_
    · intro v6 v7 v8; apply cellStore_keeps; exact v8
    · exact hk
  clear_value l2 l3
  have hl4 : Keeps s0 l4 := by
    unfold l4; apply clSet_keeps; exact hl2
  clear_value l4 l5
  refine keeps_ite ?_ ?_
  · apply raiseEv_keeps; apply count_keeps; exact Keeps.mk' hl4 rfl
  · exact hl4

theorem aeCommit_keeps {s0 : State} (k : Nat) {s : State} (hk : Keeps s0 s) : Keeps s0 (aeCommit k s) := by
  unfold aeCommit
  with_reducible refine foldl_keeps ?_ ?_
  · intro v0 v1 v2; apply aeCommitOne_keeps; exact v2
  · exact hk

theorem unitFinish_keeps {s0 : State} (u : Nat) (i : Nat) {s : State} (hk : Keeps s0 s) : Keeps s0
    (unitFinish u i s) := by
  unfold unitFinish
  split
  · apply stuComplete_keeps; exact hk
  · apply sicComplete_keeps; exact hk
  · extract_lets l0
    have hl0 : Keeps s0 l0 := by
      unfold l0; apply fgEnd_keeps; exact hk
    clear_value l0
    refine keeps_ite ?_ ?_
    · exact hl0
    · apply aeCommit_keeps; exact hl0
  · apply sqComplete_keeps; exact hk
  · exact hk

theorem aeStop_keeps {s0 : State} (k : Nat) {s : State} (hk : Keeps s0 s) : Keeps s0 (aeStop k s) := by
  unfold aeStop
  with_reducible refine foldl_keeps ?_ ?_
  · intro v0 v1 v2; apply aeStopOne_keeps; exact v2
  · exact hk

theorem unitStop_keeps {s0 : State} (u : Nat) (i : Nat) {s : State} (hk : Keeps s0 s) : Keeps s0 (unitStop u i s) := by
  unfold unitStop
  split
  · apply stuSubstitute_keeps; exact hk
  · apply sicSubstitute_keeps; exact hk
  · apply aeStop_keeps; exact hk
  · apply sqSubstitute_keeps; exact hk
  · exact hk

theorem budgetOverrun_keeps {s0 : State} (u : Nat) (i : Nat) {s : State} (hk : Keeps s0 s) : Keeps s0
    (budgetOverrun u i s) := by
  unfold budgetOverrun
  refine keeps_ite ?_ ?_
  · exact hk
  · extract_lets l0 l1 l2 l3 l4 l5; clear_value l0 l1
    have hl2 : Keeps s0 l2 := by
      unfold l2; apply stuErFlush_keeps; apply stuCatchUp_keeps; apply advanceTo_keeps; exact hk
    clear_value l2 l3
    have hl4 : Keeps s0 l4 := by
      unfold l4; apply unitStop_keeps; exact Keeps.mk' hl2 rfl
    clear_value l4
    have hl5 : Keeps s0 l5 := by
      unfold l5; apply makeVerdict_keeps; exact hl4
    clear_value l5; apply markSubst_keeps; apply raiseEv_keeps; apply count_keeps; exact hl5

theorem stopAll_keeps {s0 : State} {s : State} (hk : Keeps s0 s) : Keeps s0 (stopAll s) := by
  unfold stopAll
  with_reducible refine foldl_keeps ?_ ?_
  · intro v0 v1 v2; apply budgetOverrun_keeps; exact v2
  · exact hk

theorem writeWords_keeps {s0 : State} (dev : List (Fin 15 × Fin 96 × UState)) {s : State} (hk : Keeps s0 s)
    : Keeps s0 (writeWords dev s) := by
  unfold writeWords
  extract_lets l0 l1; clear_value l0 l1; exact Keeps.mk' hk rfl

theorem comparePublished_keeps {s0 : State} (u : Nat) (k : Nat) (st : UState) {s : State} (hk : Keeps s0 s)
    : Keeps s0 (comparePublished u k st s) := by
  unfold comparePublished
  extract_lets l0 l1 l2 l3 l4 l5 l6 l7; clear_value l0 l1 l2 l3
  have hl4 : Keeps s0 l4 := by
    unfold l4; exact Keeps.mk' hk rfl
  clear_value l4
  have hl5 : Keeps s0 l5 := by
    unfold l5; exact Keeps.mk' hk rfl
  clear_value l5 l6 l7
  refine keeps_ite ?_ ?_
  · refine keeps_ite ?_ ?_
    · apply count_keeps; exact hl4
    · exact hl4
  · refine keeps_ite ?_ ?_
    · apply raiseEv_keeps; apply raiseErr_keeps; exact hl5
    · exact hl5

theorem closeVerdictsOfBeat_keeps {s0 : State} {s : State} (hk : Keeps s0 s) : Keeps s0 (closeVerdictsOfBeat s) := by
  unfold closeVerdictsOfBeat
  extract_lets l0
  have hl0 : Keeps s0 l0 := by
    unfold l0; apply formRatio_keeps; apply endHandling_keeps; exact hk
  clear_value l0
  refine keeps_ite ?_ ?_
  · exact hl0
  · apply raiseEv_keeps; exact hl0

theorem publish_keeps {s0 : State} (dev : List (Fin 15 × Fin 96 × UState)) {s : State} (hk : Keeps s0 s)
    : Keeps s0 (publish dev s) := by
  unfold publish
  refine keeps_ite ?_ ?_
  · exact hk
  · extract_lets l0 l1 l2 l3 l4
    have hl0 : Keeps s0 l0 := by
      unfold l0; apply advanceTo_keeps; apply stopAll_keeps; exact hk
    clear_value l0
    have hl1 : Keeps s0 l1 := by
      unfold l1; apply writeWords_keeps; exact hl0
    clear_value l1
    have hl2 : Keeps s0 l2 := by
      unfold l2
      with_reducible refine foldl_keeps ?_ ?_
      · intro v5 v6 v7; apply comparePublished_keeps; exact v7
      · exact hl1
    clear_value l2
    have hl3 : Keeps s0 l3 := by
      unfold l3; apply closeVerdictsOfBeat_keeps; exact hl2
    clear_value l3 l4; apply updateSummary_keeps; exact Keeps.mk' hl3 rfl

theorem aeStart_keeps {s0 : State} (k : Nat) {s : State} (hk : Keeps s0 s) : Keeps s0 (aeStart k s) := by
  unfold aeStart
  extract_lets l0 l1; clear_value l0 l1
  with_reducible refine foldl_keeps ?_ ?_
  · intro v2 v3 v4; apply clSet_keeps; exact v4
  · exact hk

theorem unitBegin_keeps {s0 : State} (u : Nat) (i : Nat) {s : State} (hk : Keeps s0 s) : Keeps s0
    (unitBegin u i s) := by
  unfold unitBegin
  split
  · apply stuBegin_keeps; exact hk
  · apply sicBegin_keeps; exact hk
  · apply aeStart_keeps; exact hk
  · apply sqBegin_keeps; exact hk
  · exact hk

theorem unitStart_keeps {s0 : State} (u : Nat) (i : Nat) {s : State} (hk : Keeps s0 s) : Keeps s0
    (unitStart u i s) := by
  unfold unitStart
  split
  · exact hk
  · extract_lets l0 l1
    have hl0 : Keeps s0 l0 := by
      unfold l0; apply stuErFlush_keeps; apply stuCatchUp_keeps; apply advanceTo_keeps; exact hk
    clear_value l0 l1; apply unitBegin_keeps; exact Keeps.mk' hl0 rfl

theorem digestRecord_keeps {s0 : State} {s : State} (hk : Keeps s0 s) : Keeps s0 (digestRecord s) := by
  unfold digestRecord
  extract_lets l0 l1 l2 l3 l4 l5 l6
  have hl0 : Keeps s0 l0 := by
    unfold l0; apply publish_keeps; exact hk
  clear_value l0
  have hl1 : Keeps s0 l1 := by
    unfold l1; apply advanceTo_keeps; exact hl0
  clear_value l1 l2
  have hl3 : Keeps s0 l3 := by
    unfold l3; exact Keeps.mk' hl1 rfl
  clear_value l3 l4 l5 l6
  refine keeps_ite ?_ ?_
  · exact hl0
  · refine keeps_ite ?_ ?_
    · exact hl3
    · exact Keeps.mk' hl3 rfl

theorem sealBeat_keeps {s0 : State} {s : State} (hk : Keeps s0 s) : Keeps s0 (sealBeat s) := by
  unfold sealBeat
  refine keeps_ite ?_ ?_
  · exact hk
  · extract_lets l0 l1 l2 l3 l4
    have hl0 : Keeps s0 l0 := by
      unfold l0; apply sendCommitLog_keeps; exact hk
    clear_value l0 l1 l2
    have hl3 : Keeps s0 l3 := by
      unfold l3; apply sendTwLead_keeps; exact hl0
    clear_value l3 l4; apply converge_keeps; exact Keeps.mk' hl3 rfl

theorem idleGuard_keeps {s0 : State} {s : State} (hk : Keeps s0 s) : Keeps s0 (idleGuard s) := by
  unfold idleGuard
  extract_lets l0 l1
  have hl0 : Keeps s0 l0 := by
    unfold l0; apply digestRecord_keeps; exact hk
  clear_value l0 l1
  refine keeps_ite ?_ ?_
  · exact hl0
  · apply resizeGuard_keeps; apply sealBeat_keeps; apply advanceTo_keeps; exact Keeps.mk' hl0 rfl

theorem unitComplete_keeps {s0 : State} (u : Nat) (i : Nat) {s : State} (hk : Keeps s0 s) : Keeps s0
    (unitComplete u i s) := by
  unfold unitComplete
  extract_lets l0 l1 l2; clear_value l0 l1 l2
  refine keeps_ite ?_ ?_
  · apply unitFinish_keeps; exact Keeps.mk' hk rfl
  · exact hk

theorem execUnitStart_keeps {s0 : State} (unit : Fin 15) (inst : Fin 96) {s t' : State} (hk : Keeps s0 s) (he
    : execUnitStart unit inst s = .next t') : Keeps s0 t' := by
  unfold execUnitStart at he
  cases he
  apply unitStart_keeps; exact hk

theorem execUnitStatePublish_keeps {s0 : State} (deviating : List (Fin 15 × Fin 96 × UState)) {s t' : State} (hk
    : Keeps s0 s) (he : execUnitStatePublish deviating s = .next t') : Keeps s0 t' := by
  unfold execUnitStatePublish at he
  cases he
  apply publish_keeps; exact hk

theorem execBudgetOverrun_keeps {s0 : State} (unit : Fin 15) (inst : Fin 96) {s t' : State} (hk : Keeps s0 s) (he
    : execBudgetOverrun unit inst s = .next t') : Keeps s0 t' := by
  unfold execBudgetOverrun at he
  cases he
  apply budgetOverrun_keeps; exact hk

theorem execUnitComplete_keeps {s0 : State} (unit : Fin 15) (inst : Fin 96) {s t' : State} (hk : Keeps s0 s) (he
    : execUnitComplete unit inst s = .next t') : Keeps s0 t' := by
  unfold execUnitComplete at he
  cases he
  apply unitComplete_keeps; exact hk

theorem execDigestRecord_keeps {s0 : State} {s t' : State} (hk : Keeps s0 s) (he : execDigestRecord s = .next t')
    : Keeps s0 t' := by
  unfold execDigestRecord at he
  cases he
  apply digestRecord_keeps; exact hk

theorem execIdleGuardStart_keeps {s0 : State} {s t' : State} (hk : Keeps s0 s) (he
    : execIdleGuardStart s = .next t') : Keeps s0 t' := by
  unfold execIdleGuardStart at he
  cases he
  apply idleGuard_keeps; exact hk

end Sys2Proof.Machine
end

