-- ==== Sys2Proof/Laws/KeepBeat.lean ====
section
/-! SUPPORT. The twin pair and the boundary of a beat: each operation keeps what `Keeps` says (`f_keeps` is the lemma of `f`). -/

namespace Sys2Proof.Machine

theorem sealLate_keeps {s0 : State} (rec : Digest) (digestR : BitVec 64) (rip : Bool) {s : State} (hk
    : Keeps s0 s) : Keeps s0 (sealLate rec digestR rip s) := by
  unfold sealLate
  extract_lets l0 l1 l2; clear_value l0
  have hl1 : Keeps s0 l1 := by
    unfold l1; exact Keeps.mk' hk rfl
  clear_value l1
  have hl2 : Keeps s0 l2 := by
    unfold l2; apply freeHeld_keeps; exact hl1
  clear_value l2
  split
  · refine keeps_ite ?_ ?_
    · exact hl2
    · apply goUnfit_keeps; exact hl2
  · exact hl2

theorem closeInSillage_keeps {s0 : State} (c : Nat) (lin : Nat) {s : State} (hk : Keeps s0 s) : Keeps s0
    (closeInSillage c lin s) := by
  unfold closeInSillage
  refine keeps_ite ?_ ?_
  · exact hk
  · extract_lets l0 l1 l2; clear_value l0
    have hl1 : Keeps s0 l1 := by
      unfold l1
      refine keeps_ite ?_ ?_
      · apply freeWindow_keeps; exact hk
      · apply closeWindow_keeps; exact hk
    clear_value l1 l2; exact Keeps.mk' hl1 rfl

theorem sillageWindowTimeout_keeps {s0 : State} (c : Nat) {s : State} (hk : Keeps s0 s) : Keeps s0
    (sillageWindowTimeout c s) := by
  unfold sillageWindowTimeout
  refine keeps_ite ?_ ?_
  · exact hk
  · extract_lets l0 l1; clear_value l0 l1
    refine keeps_ite ?_ ?_
    · exact hk
    · apply closeInSillage_keeps; apply mergeShadow_keeps; apply advanceTo_keeps; exact hk

theorem lostFrame_keeps {s0 : State} {s : State} (hk : Keeps s0 s) : Keeps s0 (lostFrame s) := by
  unfold lostFrame
  extract_lets l0
  have hl0 : Keeps s0 l0 := by
    unfold l0; apply count_keeps; exact hk
  clear_value l0
  refine keeps_ite ?_ ?_
  · apply goUnfit_keeps; exact hl0
  · exact hl0

theorem twReceive_keeps {s0 : State} (any : Bool) (h : TwHdr) {s : State} (hk : Keeps s0 s) : Keeps s0
    (twReceive any h s).2 := by
  unfold twReceive
  refine keeps_ite2 ?_ ?_
  · dsimp only
    exact hk
  · extract_lets l0 l1 l2 l3 l4; clear_value l0 l1
    have hl2 : Keeps s0 l2 := by
      unfold l2; exact Keeps.mk' hk rfl
    clear_value l2
    have hl3 : Keeps s0 l3 := by
      unfold l3
      refine keeps_ite ?_ ?_
      · apply lostFrame_keeps; exact hl2
      · exact hl2
    clear_value l3 l4
    refine keeps_ite2 ?_ ?_
    · dsimp only
      apply lostFrame_keeps; exact Keeps.mk' hk rfl
    · dsimp only
      exact hl3

theorem onFrame_keeps {s0 : State} (any : Bool) (h : TwHdr) (f : State → State) {s : State} (hf :
    ∀ s, Keeps s0 s → Keeps s0 (f s)) (hk : Keeps s0 s) : Keeps s0 (onFrame any h f s) := by
  unfold onFrame
  extract_lets l0
  have hl0 : Keeps s0 l0.2 := by
    unfold l0; apply twReceive_keeps; exact hk
  clear_value l0
  refine keeps_ite ?_ ?_
  · apply hf; exact hl0
  · exact hl0

theorem heartbeat_keeps {s0 : State} (fitness : BitVec 8) (cause : BitVec 8) {s : State} (hk : Keeps s0 s)
    : Keeps s0 (heartbeat fitness cause s) := by
  unfold heartbeat
  extract_lets l0 l1 l2; clear_value l0
  have hl1 : Keeps s0 l1 := by
    unfold l1; exact Keeps.mk' hk rfl
  clear_value l1 l2
  refine keeps_ite ?_ ?_
  · exact hl1
  · split
    · exact Keeps.mk' hl1 rfl
    · exact Keeps.mk' hl1 rfl
    · exact Keeps.mk' hl1 rfl
    · refine keeps_ite ?_ ?_
      · exact hl1
      · apply goUnfit_keeps; exact hl1

theorem twinRejoin_keeps {s0 : State} (b : Stamp) {s : State} (hk : Keeps s0 s) : Keeps s0 (twinRejoin b s).2 := by
  unfold twinRejoin
  extract_lets l0 l1 l2; clear_value l0 l1
  have hl2 : Keeps s0 l2 := by
    unfold l2; exact Keeps.mk' hk rfl
  clear_value l2
  refine keeps_ite2 ?_ ?_
  · apply fails_keeps; exact hk
  · refine keeps_ite2 ?_ ?_
    · apply fails_keeps; exact hk
    · refine keeps_ite2 ?_ ?_
      · apply fails_keeps; exact hk
      · dsimp only
        apply schedule_keeps; apply sendPair_keeps; exact hl2

theorem handoverAckTimeout_keeps {s0 : State} {s : State} (hk : Keeps s0 s) : Keeps s0 (handoverAckTimeout s) := by
  unfold handoverAckTimeout
  refine keeps_ite ?_ ?_
  · apply abandonHandover_keeps; exact hk
  · exact hk

theorem closeArrives_keeps {s0 : State} (kind : BitVec 8) (index : BitVec 8) (beat : Stamp) {s : State} (hk
    : Keeps s0 s) : Keeps s0 (closeArrives kind index beat s) := by
  unfold closeArrives
  refine keeps_ite ?_ ?_
  · exact hk
  · refine keeps_ite ?_ ?_
    · apply closeInSillage_keeps; exact hk
    · refine keeps_ite ?_ ?_
      · apply accordClose_keeps; exact hk
      · exact hk

theorem schedulePair_keeps {s0 : State} (pairId : BitVec 16) (index : BitVec 8) (role : BitVec 8) (b : Stamp) {s
    : State} (hk : Keeps s0 s) : Keeps s0 (schedulePair pairId index role b s) := by
  unfold schedulePair
  extract_lets l0 l1 l2; clear_value l0 l2; apply schedule_keeps; exact Keeps.mk' hk rfl

theorem twinPair_keeps {s0 : State} (pairId : BitVec 16) (index : BitVec 8) (role : BitVec 8) (b : Stamp) {s
    : State} (hk : Keeps s0 s) : Keeps s0 (twinPair pairId index role b s).2 := by
  unfold twinPair
  refine keeps_ite2 ?_ ?_
  · apply fails_keeps; exact hk
  · extract_lets l0; clear_value l0
    refine keeps_ite2 ?_ ?_
    · apply fails_keeps; exact hk
    · refine keeps_ite2 ?_ ?_
      · apply fails_keeps; exact hk
      · refine keeps_ite2 ?_ ?_
        · apply fails_keeps; exact hk
        · dsimp only
          apply schedulePair_keeps; exact hk

theorem rejoinTimeout_keeps {s0 : State} {s : State} (hk : Keeps s0 s) : Keeps s0 (rejoinTimeout s) := by
  unfold rejoinTimeout
  refine keeps_ite ?_ ?_
  · exact hk
  · extract_lets l0 l1; clear_value l0
    have hl1 : Keeps s0 l1 := by
      unfold l1; exact Keeps.mk' hk rfl
    clear_value l1
    refine keeps_ite ?_ ?_
    · apply raiseEv_keeps; exact hl1
    · exact hl1

theorem stateArrives_keeps {s0 : State} (kind : BitVec 8) (unit : BitVec 4) (addr : BitVec 64) (data : List Byte)
    {s : State} (hk : Keeps s0 s) : Keeps s0 (stateArrives kind unit addr data s) := by
  unfold stateArrives
  refine keeps_ite ?_ ?_
  · exact hk
  · refine keeps_ite ?_ ?_
    · exact Keeps.mk' hk rfl
    · refine keeps_ite ?_ ?_
      · apply applyState_keeps; exact hk
      · exact hk

theorem forwarded_keeps {s0 : State} (port : Nat) (stamp : BitVec 36) (bytes : List Byte) {s : State} (hk
    : Keeps s0 s) : Keeps s0 (forwarded port stamp bytes s) := by
  unfold forwarded
  refine keeps_ite ?_ ?_
  · exact hk
  · extract_lets l0 l1; clear_value l0 l1
    refine keeps_ite ?_ ?_
    · split
      · refine keeps_ite ?_ ?_
        · exact hk
        · apply messageArrive_keeps; exact hk
      · exact hk
    · apply accordFrame_keeps; exact hk

theorem addTrip_keeps {s0 : State} (t : Int) {s : State} (hk : Keeps s0 s) : Keeps s0 (addTrip t s) := by
  unfold addTrip
  refine keeps_ite ?_ ?_
  · exact hk
  · extract_lets l0 l1; clear_value l0 l1
    refine keeps_ite ?_ ?_
    · exact Keeps.mk' hk rfl
    · exact Keeps.mk' hk rfl

theorem hello_keeps {s0 : State} (h : TwHdr) (p : HelloP) {s : State} (hk : Keeps s0 s) : Keeps s0 (hello h p s) := by
  unfold hello
  extract_lets l0 l1 l2; clear_value l0 l1
  have hl2 : Keeps s0 l2 := by
    unfold l2; exact Keeps.mk' hk rfl
  clear_value l2
  refine keeps_ite ?_ ?_
  · apply addTrip_keeps; exact hl2
  · exact hl2

theorem handoverArrives_keeps {s0 : State} (seq : BitVec 32) (b : Stamp) (planned : BitVec 8) {s : State} (hk
    : Keeps s0 s) : Keeps s0 (handoverArrives seq b planned s) := by
  unfold handoverArrives
  refine keeps_ite ?_ ?_
  · exact hk
  · extract_lets l0 l1 l2 l3; clear_value l0 l1 l2
    have hl3 : Keeps s0 l3 := by
      unfold l3
      refine keeps_ite ?_ ?_
      · exact Keeps.mk' hk rfl
      · exact hk
    clear_value l3; apply sendTw_keeps; exact hl3

theorem timeFrame_keeps {s0 : State} (h : TwHdr) (tTx : BitVec 64) {s : State} (hk : Keeps s0 s) : Keeps s0
    (timeFrame h tTx s) := by
  unfold timeFrame
  refine keeps_ite ?_ ?_
  · exact hk
  · extract_lets l0 l1; clear_value l0 l1; exact Keeps.mk' hk rfl

theorem leadProceeds_keeps {s0 : State} (j : Job) (seq : BitVec 32) (a : Act) (w : When) (payload : List Fld) {s
    : State} (hk : Keeps s0 s) : Keeps s0 (leadProceeds j seq a w payload s) := by
  unfold leadProceeds
  extract_lets l0 l1 l2; clear_value l0 l1
  have hl2 : Keeps s0 l2 := by
    unfold l2; apply sendTw_keeps; exact hk
  clear_value l2
  split
  · extract_lets l3 l4
    have hl3 : Keeps s0 l3 := by
      unfold l3; apply storeChunk_keeps; exact hl2
    clear_value l3
    refine keeps_ite ?_ ?_
    · exact Keeps.mk' hl3 rfl
    · apply endJob_keeps; exact hl3
  · apply endJob_keeps; apply commitAct_keeps; exact hl2

theorem ackArrives_keeps {s0 : State} (kind : BitVec 8) (status : BitVec 16) (seq : BitVec 32) {s : State} (hk
    : Keeps s0 s) : Keeps s0 (ackArrives kind status seq s) := by
  unfold ackArrives
  refine keeps_ite ?_ ?_
  · exact hk
  · refine keeps_ite ?_ ?_
    · split
      · exact hk
      · refine keeps_ite ?_ ?_
        · apply leadProceeds_keeps; exact hk
        · apply endJob_keeps; exact hk
    · refine keeps_ite ?_ ?_
      · refine keeps_ite ?_ ?_
        · exact Keeps.mk' hk rfl
        · apply abandonHandover_keeps; exact hk
      · exact hk

theorem twinSwap_keeps {s0 : State} (h : Hdr) {s : State} (hk : Keeps s0 s) : Keeps s0 (twinSwap h s).2 := by
  unfold twinSwap
  extract_lets l0 l1
  have hl0 : Keeps s0 l0 := by
    unfold l0; apply beginHandover_keeps; exact hk
  clear_value l0 l1; apply startJob_keeps; exact hl0

theorem forceStop_keeps {s0 : State} (k : Nat) {s : State} (hk : Keeps s0 s) : Keeps s0 (forceStop k s) := by
  unfold forceStop
  extract_lets l0 l1 l2 l3 l4 l5; clear_value l0 l1 l2
  have hl3 : Keeps s0 l3 := by
    unfold l3; exact Keeps.mk' hk rfl
  clear_value l3 l4
  have hl5 : Keeps s0 l5 := by
    unfold l5
    refine keeps_ite ?_ ?_
    · apply stuSet_keeps; exact hl3
    · exact hl3
  clear_value l5; apply markSubst_keeps; apply unitStop_keeps; exact hl5

theorem commitHeld_keeps {s0 : State} (l : List Verdict) {s : State} (k : Nat) (hk : Keeps s0 s) : Keeps s0
    (commitHeld l s k) := by
  unfold commitHeld
  extract_lets l0; clear_value l0
  split
  · apply stuCommit_keeps; apply stuPush_keeps; exact hk
  · apply sicCommit_keeps; exact hk
  · apply aeCommit_keeps; exact hk
  · exact hk

theorem commitAll_keeps {s0 : State} (l : List Verdict) {s : State} (hk : Keeps s0 s) : Keeps s0 (commitAll l s) := by
  unfold commitAll
  with_reducible refine foldl_keeps ?_ ?_
  · intro v0 v1 v2; apply commitHeld_keeps; exact v2
  · exact hk

theorem compareSeal_keeps {s0 : State} (rec : Digest) (digestR : BitVec 64) (rip : Bool) {s : State} (hk
    : Keeps s0 s) : Keeps s0 (compareSeal rec digestR rip s) := by
  unfold compareSeal
  refine keeps_ite ?_ ?_
  · exact hk
  · split
    · exact hk
    · refine keeps_ite ?_ ?_
      · exact hk
      · extract_lets l0 l1; clear_value l0 l1; apply goUnfit_keeps; apply raiseEv_keeps; apply count_keeps; exact hk

theorem sealOpen_keeps {s0 : State} (rec : Digest) (digestR : BitVec 64) (rip : Bool) {s : State} (hk
    : Keeps s0 s) : Keeps s0 (sealOpen rec digestR rip s) := by
  unfold sealOpen
  extract_lets l0 l1 l2 l3 l4 l5 l6 l7 l8
  have hl0 : Keeps s0 l0 := by
    unfold l0; apply digestRecord_keeps; exact hk
  clear_value l0 l1
  have hl2 : Keeps s0 l2 := by
    unfold l2
    refine keeps_ite ?_ ?_
    · apply goUnfit_keeps; exact hl0
    · exact hl0
  clear_value l2 l3
  have hl4 : Keeps s0 l4 := by
    unfold l4
    refine keeps_ite ?_ ?_
    · apply goUnfit_keeps; exact hl2
    · exact hl2
  clear_value l4
  have hl5 : Keeps s0 l5 := by
    unfold l5
    with_reducible refine foldl_keeps ?_ ?_
    · intro v9 v10 v11; apply forceStop_keeps; exact v11
    · exact hl4
  clear_value l5
  have hl6 : Keeps s0 l6 := by
    unfold l6; apply freeHeld_keeps; apply commitAll_keeps; exact hl5
  clear_value l6 l7
  have hl8 : Keeps s0 l8 := by
    unfold l8; apply compareSeal_keeps; exact Keeps.mk' hl6 rfl
  clear_value l8; apply converge_keeps; exact hl8

theorem sealArrives_keeps {s0 : State} (rec : Digest) (digestR : BitVec 64) (rip : Bool) {s : State} (hk
    : Keeps s0 s) : Keeps s0 (sealArrives rec digestR rip s) := by
  unfold sealArrives
  refine keeps_ite ?_ ?_
  · exact hk
  · refine keeps_ite ?_ ?_
    · refine keeps_ite ?_ ?_
      · exact hk
      · apply sealOpen_keeps; exact hk
    · refine keeps_ite ?_ ?_
      · apply sealLate_keeps; exact hk
      · apply goUnfit_keeps; exact hk

theorem applyVerdict_keeps {s0 : State} (lead : Bool) (v : Verdict) {s : State} (hk : Keeps s0 s) : Keeps s0
    (applyVerdict lead v s) := by
  unfold applyVerdict
  extract_lets l0 l1 l2 l3; clear_value l0 l1 l2 l3
  split
  · apply setRatio_keeps; exact hk
  · refine keeps_ite ?_ ?_
    · exact hk
    · refine keeps_ite ?_ ?_
      · apply laneSet_keeps; exact hk
      · apply twinAlign_keeps; exact hk
  · apply applyDdMiss_keeps; exact hk
  · refine keeps_ite ?_ ?_
    · apply ddFreeze_keeps; exact hk
    · exact hk
  · split
    · apply applyAccordLate_keeps; exact hk
    · exact hk
  · exact hk

theorem leadVerdict_keeps {s0 : State} (late : Bool) (v : Verdict) {s : State} (hk : Keeps s0 s) : Keeps s0
    (leadVerdict late v s) := by
  unfold leadVerdict
  extract_lets l0 l1 l2 l3 l4; clear_value l0
  have hl1 : Keeps s0 l1 := by
    unfold l1; apply logVerdict_keeps; exact Keeps.mk' hk rfl
  clear_value l1 l2
  have hl3 : Keeps s0 l3 := by
    unfold l3
    refine keeps_ite ?_ ?_
    · apply goUnfit_keeps; exact hl1
    · exact hl1
  clear_value l3 l4
  refine keeps_ite ?_ ?_
  · exact hl3
  · apply applyVerdict_keeps; exact Keeps.mk' hl3 rfl

theorem verdicts_keeps {s0 : State} (beat : Stamp) (l : List Verdict) {s : State} (hk : Keeps s0 s) : Keeps s0
    (verdicts beat l s) := by
  unfold verdicts
  refine keeps_ite ?_ ?_
  · exact hk
  · extract_lets l0; clear_value l0
    with_reducible refine foldl_keeps ?_ ?_
    · intro v1 v2 v3; apply leadVerdict_keeps; exact v3
    · exact hk

theorem twSilent_keeps {s0 : State} {s : State} (hk : Keeps s0 s) : Keeps s0 (twSilent s) := by
  unfold twSilent
  refine keeps_ite ?_ ?_
  · apply goUnfit_keeps; apply raiseEv_keeps; exact hk
  · exact hk

theorem partialLoss_keeps {s0 : State} (alive : Bool) (lead : Bool) (frames : Bool) {s : State} (hk : Keeps s0 s)
    : Keeps s0 (partialLoss alive lead frames s) := by
  unfold partialLoss
  refine keeps_ite ?_ ?_
  · exact hk
  · refine keeps_ite ?_ ?_
    · refine keeps_ite ?_ ?_
      · apply twSilent_keeps; exact hk
      · exact hk
    · refine keeps_ite ?_ ?_
      · apply raiseEv_keeps; exact hk
      · exact hk

theorem helloSend_keeps {s0 : State} {s : State} (hk : Keeps s0 s) : Keeps s0 (helloSend s) := by
  unfold helloSend
  refine keeps_ite ?_ ?_
  · apply sendTw_keeps; exact hk
  · exact hk

theorem twLinkUp_keeps {s0 : State} {s : State} (hk : Keeps s0 s) : Keeps s0 (twLinkUp s) := by
  unfold twLinkUp
  refine keeps_ite ?_ ?_
  · exact hk
  · exact Keeps.mk' hk rfl

theorem leadFailure_keeps {s0 : State} {s : State} (hk : Keeps s0 s) : Keeps s0 (leadFailure s) := by
  unfold leadFailure
  refine keeps_ite ?_ ?_
  · exact hk
  · extract_lets l0 l1 l2 l3; clear_value l0 l1
    have hl2 : Keeps s0 l2 := by
      unfold l2; apply tbLose_keeps; exact Keeps.mk' hk rfl
    clear_value l2 l3
    split
    · exact hl2
    · exact Keeps.mk' hl2 rfl

theorem twinUnpair_keeps {s0 : State} (b : Stamp) {s : State} (hk : Keeps s0 s) : Keeps s0 (twinUnpair b s).2 := by
  unfold twinUnpair
  extract_lets l0; clear_value l0
  refine keeps_ite2 ?_ ?_
  · apply fails_keeps; exact hk
  · dsimp only
    apply schedule_keeps; apply sendPair_keeps; exact hk

theorem peerLost_keeps {s0 : State} {s : State} (hk : Keeps s0 s) : Keeps s0 (peerLost s) := by
  unfold peerLost
  refine keeps_ite ?_ ?_
  · apply raiseEv_keeps; exact hk
  · exact hk

theorem twLinkDown_keeps {s0 : State} {s : State} (hk : Keeps s0 s) : Keeps s0 (twLinkDown s) := by
  unfold twLinkDown
  refine keeps_ite ?_ ?_
  · exact hk
  · apply twSilent_keeps; apply count_keeps; exact Keeps.mk' hk rfl

theorem selfRule_keeps {s0 : State} {s : State} (hk : Keeps s0 s) : Keeps s0 (selfRule s) := by
  unfold selfRule
  refine keeps_ite ?_ ?_
  · exact hk
  · extract_lets l0 l1 l2 l3; clear_value l0
    have hl1 : Keeps s0 l1 := by
      unfold l1
      with_reducible refine foldl_keeps ?_ ?_
      · intro v4 v5 v6; apply applyVerdict_keeps; apply logVerdict_keeps; exact v6
      · exact hk
    clear_value l1
    have hl2 : Keeps s0 l2 := by
      unfold l2; apply commitAll_keeps; exact hl1
    clear_value l2 l3; apply count_keeps; exact Keeps.mk' hl2 rfl

theorem leadSelSwitch_keeps {s0 : State} {s : State} (hk : Keeps s0 s) : Keeps s0 (leadSelSwitch s) := by
  unfold leadSelSwitch
  refine keeps_ite ?_ ?_
  · exact hk
  · extract_lets l0
    have hl0 : Keeps s0 l0 := by
      unfold l0; apply advanceToTime_keeps; exact hk
    clear_value l0
    refine keeps_ite ?_ ?_
    · refine keeps_ite ?_ ?_
      · apply setLead_keeps; exact hl0
      · exact hl0
    · refine keeps_ite ?_ ?_
      · apply setLead_keeps; exact hl0
      · exact hl0

theorem goCommand_keeps {s0 : State} (a : Act) (b : Stamp) {s : State} (hk : Keeps s0 s) : Keeps s0
    (goCommand a b s) := by
  unfold goCommand
  split
  · apply applyAct_keeps; exact hk
  · refine keeps_ite ?_ ?_
    · exact hk
    · extract_lets l0 l1; clear_value l0
      have hl1 : Keeps s0 l1 := by
        unfold l1
        refine keeps_ite ?_ ?_
        · exact Keeps.mk' hk rfl
        · exact hk
      clear_value l1; apply schedule_keeps; exact hl1
  · refine keeps_ite ?_ ?_
    · apply configAct_keeps; exact hk
    · refine keeps_ite ?_ ?_
      · apply commitAct_keeps; exact hk
      · exact hk

theorem commandArrives_keeps {s0 : State} (seq : BitVec 32) (a : Act) (go : Bool) (b : Stamp) {s : State} (hk
    : Keeps s0 s) : Keeps s0 (commandArrives seq a go b s) := by
  unfold commandArrives
  refine keeps_ite ?_ ?_
  · exact hk
  · refine keeps_ite ?_ ?_
    · split
      · apply goCommand_keeps; exact Keeps.mk' hk rfl
      · exact hk
    · extract_lets l0 l1 l2; clear_value l0 l1
      have hl2 : Keeps s0 l2 := by
        unfold l2
        refine keeps_ite ?_ ?_
        · exact Keeps.mk' hk rfl
        · exact hk
      clear_value l2; apply sendTw_keeps; exact hl2

theorem commandAckTimeout_keeps {s0 : State} {s : State} (hk : Keeps s0 s) : Keeps s0 (commandAckTimeout s) := by
  unfold commandAckTimeout
  split
  · apply endJob_keeps; exact hk
  · exact hk

theorem execTwHeartbeat_keeps {s0 : State} (h : TwHdr) (fitness : BitVec 8) (cause : BitVec 8) (_role : BitVec 8)
    (_last : Stamp) {s t' : State} (hk : Keeps s0 s) (he
    : execTwHeartbeat h fitness cause _role _last s = .next t') : Keeps s0 t' := by
  unfold execTwHeartbeat at he
  cases he
  apply onFrame_keeps
  · intro v0 v1; apply heartbeat_keeps; exact v1
  · exact hk

theorem execHandoverAckTimeout_keeps {s0 : State} {s t' : State} (hk : Keeps s0 s) (he
    : execHandoverAckTimeout s = .next t') : Keeps s0 t' := by
  unfold execHandoverAckTimeout at he
  cases he
  apply handoverAckTimeout_keeps; exact hk

theorem execTwState_keeps {s0 : State} (h : TwHdr) (kind : BitVec 8) (unit : BitVec 4) (_commit : Stamp) (addr
    : BitVec 64) (data : List Byte) {s t' : State} (hk : Keeps s0 s) (he
    : execTwState h kind unit _commit addr data s = .next t') : Keeps s0 t' := by
  unfold execTwState at he
  cases he
  apply onFrame_keeps
  · intro v0 v1; apply stateArrives_keeps; exact v1
  · exact hk

theorem execTwHandover_keeps {s0 : State} (h : TwHdr) (b : Stamp) (planned : BitVec 8) {s t' : State} (hk
    : Keeps s0 s) (he : execTwHandover h b planned s = .next t') : Keeps s0 t' := by
  unfold execTwHandover at he
  cases he
  apply onFrame_keeps
  · intro v0 v1; apply handoverArrives_keeps; exact v1
  · exact hk

theorem execTwAck_keeps {s0 : State} (h : TwHdr) (kind : BitVec 8) (status : BitVec 16) (seq : BitVec 32) {s t'
    : State} (hk : Keeps s0 s) (he : execTwAck h kind status seq s = .next t') : Keeps s0 t' := by
  unfold execTwAck at he
  cases he
  apply onFrame_keeps
  · intro v0 v1; apply ackArrives_keeps; exact v1
  · exact hk

theorem execTwSeal_keeps {s0 : State} (h : TwHdr) (rec : Digest) (digestR : BitVec 64) (_verdicts : BitVec 14)
    (ripening : Bool) {s t' : State} (hk : Keeps s0 s) (he
    : execTwSeal h rec digestR _verdicts ripening s = .next t') : Keeps s0 t' := by
  unfold execTwSeal at he
  cases he
  apply onFrame_keeps
  · intro v0 v1; apply sealArrives_keeps; exact v1
  · exact hk

theorem execTwForward_keeps {s0 : State} (h : TwHdr) (port : Fin 6) (_merged : Bool) (stamp : BitVec 36) (bytes
    : List Byte) {s t' : State} (hk : Keeps s0 s) (he : execTwForward h port _merged stamp bytes s = .next t')
    : Keeps s0 t' := by
  unfold execTwForward at he
  cases he
  apply onFrame_keeps
  · intro v0 v1; apply forwarded_keeps; exact v1
  · exact hk

theorem execTwHello_keeps {s0 : State} (h : TwHdr) (p : HelloP) {s t' : State} (hk : Keeps s0 s) (he
    : execTwHello h p s = .next t') : Keeps s0 t' := by
  unfold execTwHello at he
  cases he
  apply onFrame_keeps
  · intro v0 v1; apply hello_keeps; exact v1
  · exact hk

theorem execTwinRejoin_keeps {s0 : State} (h : Hdr) (b : Stamp) {s t' : State} (hk : Keeps s0 s) (he
    : execTwinRejoin h b s = .next t') : Keeps s0 t' := by
  unfold execTwinRejoin at he
  cases he
  apply serve_keeps
  · intro v0 v1; apply twinRejoin_keeps; exact v1
  · exact hk

theorem execTwVerdicts_keeps {s0 : State} (h : TwHdr) (l : List Verdict) {s t' : State} (hk : Keeps s0 s) (he
    : execTwVerdicts h l s = .next t') : Keeps s0 t' := by
  unfold execTwVerdicts at he
  cases he
  apply onFrame_keeps
  · intro v0 v1; apply verdicts_keeps; exact v1
  · exact hk

theorem execSillageWindowTimeout_keeps {s0 : State} (c : Fin 4) {s t' : State} (hk : Keeps s0 s) (he
    : execSillageWindowTimeout c s = .next t') : Keeps s0 t' := by
  unfold execSillageWindowTimeout at he
  cases he
  apply sillageWindowTimeout_keeps; exact hk

theorem execPartialLoss_keeps {s0 : State} (alive : Bool) (lead : Bool) (frames : Bool) {s t' : State} (hk
    : Keeps s0 s) (he : execPartialLoss alive lead frames s = .next t') : Keeps s0 t' := by
  unfold execPartialLoss at he
  cases he
  apply partialLoss_keeps; exact hk

theorem execHelloSend_keeps {s0 : State} {s t' : State} (hk : Keeps s0 s) (he : execHelloSend s = .next t')
    : Keeps s0 t' := by
  unfold execHelloSend at he
  cases he
  apply helloSend_keeps; exact hk

theorem execTwinSwap_keeps {s0 : State} (h : Hdr) {s t' : State} (hk : Keeps s0 s) (he
    : execTwinSwap h s = .next t') : Keeps s0 t' := by
  unfold execTwinSwap at he
  cases he
  apply serve_keeps
  · intro v0 v1; apply twinSwap_keeps; exact v1
  · exact hk

theorem execTwinUnpair_keeps {s0 : State} (h : Hdr) (b : Stamp) {s t' : State} (hk : Keeps s0 s) (he
    : execTwinUnpair h b s = .next t') : Keeps s0 t' := by
  unfold execTwinUnpair at he
  cases he
  apply serve_keeps
  · intro v0 v1; apply twinUnpair_keeps; exact v1
  · exact hk

theorem execPeerLost_keeps {s0 : State} {s t' : State} (hk : Keeps s0 s) (he : execPeerLost s = .next t')
    : Keeps s0 t' := by
  unfold execPeerLost at he
  cases he
  apply peerLost_keeps; exact hk

theorem execTwTime_keeps {s0 : State} (h : TwHdr) (tTx : BitVec 64) (_boundary : BitVec 72) {s t' : State} (hk
    : Keeps s0 s) (he : execTwTime h tTx _boundary s = .next t') : Keeps s0 t' := by
  unfold execTwTime at he
  cases he
  apply onFrame_keeps
  · intro v0 v1; apply timeFrame_keeps; exact v1
  · exact hk

theorem execTwClose_keeps {s0 : State} (h : TwHdr) (kind : BitVec 8) (index : BitVec 8) (beat : Stamp) {s t'
    : State} (hk : Keeps s0 s) (he : execTwClose h kind index beat s = .next t') : Keeps s0 t' := by
  unfold execTwClose at he
  cases he
  apply onFrame_keeps
  · intro v0 v1; apply closeArrives_keeps; exact v1
  · exact hk

theorem execTwCommand_keeps {s0 : State} (h : TwHdr) (seq : BitVec 32) (_opcode : BitVec 16) (act : Act) (go
    : Bool) (effect : Stamp) {s t' : State} (hk : Keeps s0 s) (he
    : execTwCommand h seq _opcode act go effect s = .next t') : Keeps s0 t' := by
  unfold execTwCommand at he
  cases he
  apply onFrame_keeps
  · intro v0 v1; apply commandArrives_keeps; exact v1
  · exact hk

theorem execLeadSelSwitch_keeps {s0 : State} {s t' : State} (hk : Keeps s0 s) (he
    : execLeadSelSwitch s = .next t') : Keeps s0 t' := by
  unfold execLeadSelSwitch at he
  cases he
  apply leadSelSwitch_keeps; exact hk

theorem execLeadFailure_keeps {s0 : State} {s t' : State} (hk : Keeps s0 s) (he : execLeadFailure s = .next t')
    : Keeps s0 t' := by
  unfold execLeadFailure at he
  cases he
  apply leadFailure_keeps; exact hk

theorem execTwLinkUp_keeps {s0 : State} {s t' : State} (hk : Keeps s0 s) (he : execTwLinkUp s = .next t')
    : Keeps s0 t' := by
  unfold execTwLinkUp at he
  cases he
  apply twLinkUp_keeps; exact hk

theorem execTwLinkDown_keeps {s0 : State} {s t' : State} (hk : Keeps s0 s) (he : execTwLinkDown s = .next t')
    : Keeps s0 t' := by
  unfold execTwLinkDown at he
  cases he
  apply twLinkDown_keeps; exact hk

theorem execTwinStatus_keeps {s0 : State} (h : Hdr) {s t' : State} (hk : Keeps s0 s) (he
    : execTwinStatus h s = .next t') : Keeps s0 t' := by
  unfold execTwinStatus at he
  cases he
  apply serve_keeps
  · intro v0 v1; apply okWith_keeps; exact v1
  · exact hk

theorem execRejoinTimeout_keeps {s0 : State} {s t' : State} (hk : Keeps s0 s) (he
    : execRejoinTimeout s = .next t') : Keeps s0 t' := by
  unfold execRejoinTimeout at he
  cases he
  apply rejoinTimeout_keeps; exact hk

theorem execCommandAckTimeout_keeps {s0 : State} {s t' : State} (hk : Keeps s0 s) (he
    : execCommandAckTimeout s = .next t') : Keeps s0 t' := by
  unfold execCommandAckTimeout at he
  cases he
  apply commandAckTimeout_keeps; exact hk

theorem execTwinPair_keeps {s0 : State} (h : Hdr) (pairId : BitVec 16) (index : BitVec 8) (role : BitVec 8) (b
    : Stamp) {s t' : State} (hk : Keeps s0 s) (he : execTwinPair h pairId index role b s = .next t')
    : Keeps s0 t' := by
  unfold execTwinPair at he
  cases he
  apply serve_keeps
  · intro v0 v1; apply twinPair_keeps; exact v1
  · exact hk

theorem beginWork_keeps {s0 : State} {s : State} (hk : Keeps s0 s) : Keeps s0 (beginWork s) := by
  unfold beginWork
  refine keeps_ite ?_ ?_
  · exact hk
  · extract_lets l0
    have hl0 : Keeps s0 l0 := by
      unfold l0; apply jobDecisions_keeps; apply ddRetire_keeps; exact hk
    clear_value l0
    with_reducible refine foldl_keeps ?_ ?_
    · intro v1 v2 v3; extract_lets l4; clear_value l4
      refine keeps_ite ?_ ?_
      · exact v3
      · apply archiveBeat_keeps; apply commitVersion_keeps; exact v3
    · exact hl0

theorem settle_keeps {s0 : State} (e : Nat) {s : State} (hk : Keeps s0 s) : Keeps s0 (settle e s) := by
  unfold settle
  extract_lets l0 l1; clear_value l0 l1
  refine keeps_ite ?_ ?_
  · apply laneSet_keeps; exact hk
  · exact hk

theorem frontEnds_keeps {s0 : State} {s : State} (hk : Keeps s0 s) : Keeps s0 (frontEnds s) := by
  unfold frontEnds
  extract_lets l0; clear_value l0
  with_reducible refine foldl_keeps ?_ ?_
  · intro v1 v2 v3; extract_lets l4
    have hl4 : Keeps s0 l4 := by
      unfold l4
      refine keeps_ite ?_ ?_
      · apply efeZero_keeps; exact v3
      · exact v3
    clear_value l4; apply settle_keeps; exact hl4
  · exact hk

theorem ruptureStages_keeps {s0 : State} {s : State} (hk : Keeps s0 s) : Keeps s0 (ruptureStages s) := by
  unfold ruptureStages
  split
  · exact hk
  · refine keeps_ite ?_ ?_
    · extract_lets l0 l1; clear_value l0 l1; apply ruptureZero_keeps; exact Keeps.mk' hk rfl
    · refine keeps_ite ?_ ?_
      · apply releaseFences_keeps; exact hk
      · exact hk

theorem prepareStart_keeps {s0 : State} {s : State} (hk : Keeps s0 s) : Keeps s0 (prepareStart s) := by
  unfold prepareStart
  refine keeps_ite ?_ ?_
  · apply efeZeroAll_keeps; apply efeSwitch_keeps; exact hk
  · exact hk

theorem idleUnits_keeps {s0 : State} {s : State} (hk : Keeps s0 s) : Keeps s0 (idleUnits s) := by
  unfold idleUnits
  refine keeps_ite ?_ ?_
  · exact hk
  · extract_lets l0
    have hl0 : Keeps s0 l0 := by
      unfold l0; apply fencedOutputs_keeps; exact hk
    clear_value l0
    refine keeps_ite ?_ ?_
    · apply sqSubstitute_keeps; exact hl0
    · exact hl0

theorem unitsAtBoundary_keeps {s0 : State} {s : State} (hk : Keeps s0 s) : Keeps s0 (unitsAtBoundary s) := by
  unfold unitsAtBoundary
  extract_lets l0 l1 l2
  have hl0 : Keeps s0 l0 := by
    unfold l0; apply frontEnds_keeps; apply ruptureStages_keeps; exact hk
  clear_value l0
  have hl1 : Keeps s0 l1 := by
    unfold l1; apply loopRunStart_keeps; apply prepareStart_keeps; exact hl0
  clear_value l1
  have hl2 : Keeps s0 l2 := by
    unfold l2; apply applySounding_keeps; apply fencesAtBoundary_keeps; exact hl1
  clear_value l2; apply idleUnits_keeps; apply beginWork_keeps; exact hl2

theorem beatFrames_keeps {s0 : State} (t40 : Int) {s : State} (hk : Keeps s0 s) : Keeps s0 (beatFrames t40 s) := by
  unfold beatFrames
  extract_lets l0 l1; clear_value l0
  have hl1 : Keeps s0 l1 := by
    unfold l1
    refine keeps_ite ?_ ?_
    · apply sendTw_keeps; exact hk
    · exact hk
  clear_value l1
  refine keeps_ite ?_ ?_
  · apply sendTw_keeps; exact hl1
  · exact hl1

theorem pushUnpushed_keeps {s0 : State} {s : State} (hk : Keeps s0 s) : Keeps s0 (pushUnpushed s) := by
  unfold pushUnpushed
  with_reducible refine foldl_keeps ?_ ?_
  · intro v0 v1 v2
    refine keeps_ite ?_ ?_
    · exact v2
    · apply stuPush_keeps; exact v2
  · exact hk

theorem admitClose_keeps {s0 : State} (c : Nat) (lin : Nat) {s : State} (hk : Keeps s0 s) : Keeps s0
    (admitClose c lin s) := by
  unfold admitClose
  refine keeps_ite ?_ ?_
  · exact hk
  · extract_lets l0; clear_value l0
    refine keeps_ite ?_ ?_
    · apply freeWindow_keeps; exact hk
    · refine keeps_ite ?_ ?_
      · apply freeWindow_keeps; apply loopClose_keeps; exact hk
      · apply closeWindow_keeps; apply sendTwLead_keeps; exact hk

theorem admissionInstant_keeps {s0 : State} (c : Nat) {s : State} (hk : Keeps s0 s) : Keeps s0
    (admissionInstant c s) := by
  unfold admissionInstant
  refine keeps_ite ?_ ?_
  · exact hk
  · extract_lets l0 l1; clear_value l0 l1
    with_reducible refine foldl_keeps ?_ ?_
    · intro v2 v3 v4; apply admitClose_keeps; exact v4
    · exact hk

theorem prune_keeps {s0 : State} {s : State} (hk : Keeps s0 s) : Keeps s0 (prune s) := by
  unfold prune
  extract_lets l0 l1 l2 l3 l4; clear_value l0 l1 l2 l3 l4; exact Keeps.mk' hk rfl

theorem endWork_keeps {s0 : State} {s : State} (hk : Keeps s0 s) : Keeps s0 (endWork s) := by
  unfold endWork
  refine keeps_ite ?_ ?_
  · apply keepBeat_keeps; apply keepErasures_keeps; apply pushUnpushed_keeps; exact hk
  · exact hk

theorem freshBeat_keeps {s0 : State} {s : State} (hk : Keeps s0 s) : Keeps s0 (freshBeat s) := by
  unfold freshBeat
  extract_lets l0 l1 l2 l3 l4; clear_value l0 l1 l2 l3 l4; exact Keeps.mk' hk rfl

theorem applyStep_keeps {s0 : State} (d : Int) {s : State} (hk : Keeps s0 s) : Keeps s0 (applyStep d s) := by
  unfold applyStep
  extract_lets l0 l1 l2 l3 l4 l5 l6 l7; clear_value l0 l1
  have hl2 : Keeps s0 l2 := by
    unfold l2; apply stepTime_keeps; exact hk
  clear_value l2 l3 l4
  have hl5 : Keeps s0 l5 := by
    unfold l5; exact Keeps.mk' hl2 rfl
  clear_value l5
  have hl6 : Keeps s0 l6 := by
    unfold l6; exact Keeps.mk' hl2 rfl
  clear_value l6 l7
  refine keeps_ite ?_ ?_
  · refine keeps_ite ?_ ?_
    · apply beginRupture_keeps; exact hl5
    · exact hl5
  · refine keeps_ite ?_ ?_
    · apply efeStop_keeps; apply stopPrograms_keeps; exact Keeps.mk' hl6 rfl
    · exact hl6

theorem closeOut_keeps {s0 : State} {s : State} (hk : Keeps s0 s) : Keeps s0 (closeOut s).2 := by
  unfold closeOut
  extract_lets l0 l1; clear_value l0
  have hl1 : Keeps s0 l1 := by
    unfold l1; apply idleGuard_keeps; exact hk
  clear_value l1
  refine keeps_ite2 ?_ ?_
  · dsimp only
    exact hl1
  · dsimp only
    apply raiseEv_keeps; apply count_keeps; apply advanceTo_keeps; exact hl1

theorem endStepWait_keeps {s0 : State} {s : State} (hk : Keeps s0 s) : Keeps s0 (endStepWait s) := by
  unfold endStepWait
  refine keeps_ite ?_ ?_
  · apply beginRupture_keeps; exact Keeps.mk' hk rfl
  · exact hk

theorem samplePins_keeps {s0 : State} (peerLead : Bool) (peerAlive : Bool) {s : State} (hk : Keeps s0 s)
    : Keeps s0 (samplePins peerLead peerAlive s) := by
  unfold samplePins
  exact Keeps.mk' hk rfl

theorem openBeat_keeps {s0 : State} (shift : Nat) {s : State} (hk : Keeps s0 s) : Keeps s0 (openBeat shift s) := by
  unfold openBeat
  extract_lets l0 l1 l2; clear_value l0 l1 l2; apply freshBeat_keeps; exact Keeps.mk' hk rfl

theorem detectSplit_keeps {s0 : State} {s : State} (hk : Keeps s0 s) : Keeps s0 (detectSplit s) := by
  unfold detectSplit
  refine keeps_ite ?_ ?_
  · extract_lets l0
    have hl0 : Keeps s0 l0 := by
      unfold l0; apply raiseEv_keeps; apply count_keeps; exact hk
    clear_value l0
    refine keeps_ite ?_ ?_
    · apply schedule_keeps; exact hl0
    · exact hl0
  · exact hk

theorem switchInStep_keeps {s0 : State} {s : State} (hk : Keeps s0 s) : Keeps s0 (switchInStep s) := by
  unfold switchInStep
  split
  · exact hk
  · extract_lets l0
    have hl0 : Keeps s0 l0 := by
      unfold l0; apply remapQueues_keeps; exact hk
    clear_value l0; apply lateUpdateAll_keeps; apply activatePending_keeps; exact hl0

theorem applyDue_keeps {s0 : State} (led : Bool) {s : State} (hk : Keeps s0 s) : Keeps s0 (applyDue led s) := by
  unfold applyDue
  extract_lets l0 l1 l2 l3 l4 l5 l6 l7 l8 l9 l10; clear_value l0 l1 l2 l3 l4
  have hl6 : Keeps s0 l6 := by
    unfold l6; exact Keeps.mk' hk rfl
  clear_value l6
  have hl7 : Keeps s0 l7 := by
    unfold l7
    split
    · apply applyStep_keeps; exact hl6
    · exact hl6
  clear_value l7
  have hl8 : Keeps s0 l8 := by
    unfold l8; apply takeoverAt_keeps; exact hl7
  clear_value l8
  have hl9 : Keeps s0 l9 := by
    unfold l9
    with_reducible refine foldl_keeps ?_ ?_
    · intro v11 v12 v13; apply applyAct_keeps; exact v13
    · exact hl8
  clear_value l9
  have hl10 : Keeps s0 l10 := by
    unfold l10
    refine keeps_ite ?_ ?_
    · refine keeps_ite ?_ ?_
      · apply switchInStep_keeps; exact hl9
      · apply applyAct_keeps; exact hl9
    · exact hl9
  clear_value l10
  with_reducible refine foldl_keeps ?_ ?_
  · intro v14 v15 v16; apply applyAct_keeps; exact v16
  · exact hl10

theorem toggleAlive_keeps {s0 : State} {s : State} (hk : Keeps s0 s) : Keeps s0 (toggleAlive s) := by
  unfold toggleAlive
  exact Keeps.mk' hk rfl

theorem beatOut_keeps {s0 : State} {s : State} (hk : Keeps s0 s) : Keeps s0 (beatOut s) := by
  unfold beatOut
  extract_lets l0 l1; clear_value l0 l1
  refine keeps_ite ?_ ?_
  · apply pulseRise_keeps; exact hk
  · exact hk

theorem beatBoundary_keeps {s0 : State} (peerLead : Bool) (peerAlive : Bool) {s : State} (hk : Keeps s0 s)
    : Keeps s0 (beatBoundary peerLead peerAlive s) := by
  unfold beatBoundary
  refine keeps_ite ?_ ?_
  · exact hk
  · extract_lets l0 l1 l2 l3 l4 l5 l6 l7 l8
    have hl0 : Keeps s0 l0 := by
      unfold l0; apply advanceToTime_keeps; exact hk
    clear_value l0 l1
    have hl2 : Keeps s0 l2.2 := by
      unfold l2; apply closeOut_keeps; exact hl0
    clear_value l2
    have hl3 : Keeps s0 l3 := by
      unfold l3; apply endWork_keeps; apply selfRule_keeps; exact hl2
    clear_value l3
    have hl4 : Keeps s0 l4 := by
      unfold l4
      refine keeps_ite ?_ ?_
      · apply sicSlotEnd_keeps; exact hl3
      · exact hl3
    clear_value l4 l5
    have hl6 : Keeps s0 l6 := by
      unfold l6; apply endStepWait_keeps; apply samplePins_keeps; apply openBeat_keeps; exact hl4
    clear_value l6
    have hl7 : Keeps s0 l7 := by
      unfold l7; apply ripen_keeps; apply detectSplit_keeps; apply applyDue_keeps; exact hl6
    clear_value l7
    have hl8 : Keeps s0 l8 := by
      unfold l8; apply toggleAlive_keeps; apply unitsAtBoundary_keeps; exact hl7
    clear_value l8; apply updateSummary_keeps; apply beatFrames_keeps; apply beatOut_keeps; apply prune_keeps; exact hl8

theorem execAdmissionInstant_keeps {s0 : State} (c : Fin 4) {s t' : State} (hk : Keeps s0 s) (he
    : execAdmissionInstant c s = .next t') : Keeps s0 t' := by
  unfold execAdmissionInstant at he
  cases he
  apply admissionInstant_keeps; exact hk

theorem execBeatBoundary_keeps {s0 : State} (peerLead : Bool) (peerAlive : Bool) {s t' : State} (hk : Keeps s0 s)
    (he : execBeatBoundary peerLead peerAlive s = .next t') : Keeps s0 t' := by
  unfold execBeatBoundary at he
  cases he
  apply beatBoundary_keeps; exact hk

end Sys2Proof.Machine
end

