-- ==== Sys2Proof/Laws/KeepStep.lean ====
section
/-! SUPPORT. What every command and every step keeps: `exec` is taken apart once, by its arms. -/

namespace Sys2Proof.Machine

/-- Whatever the command, a next state keeps the legal form, the queue, the trace and the fuses. -/
theorem exec_keeps {s0 s t : State} (i : Instr) (hk : Keeps s0 s) (he : exec i s = .next t) : Keeps s0 t := by
  cases i with
  | leaseAcquire => exact execLeaseAcquire_keeps _ _ _ _ hk he
  | leaseRelease => exact execLeaseRelease_keeps _ hk he
  | leaseStatus => exact execLeaseStatus_keeps _ hk he
  | noseInfo => exact execNoseInfo_keeps _ hk he
  | modeEnter => exact execModeEnter_keeps _ _ _ hk he
  | modeReset => exact execModeReset_keeps _ _ hk he
  | formulaLoad => exact execFormulaLoad_keeps _ _ _ _ _ hk he
  | formulaActivate => exact execFormulaActivate_keeps _ _ hk he
  | formulaStatus => exact execFormulaStatus_keeps _ hk he
  | counterRead => exact execCounterRead_keeps _ _ _ _ hk he
  | counterClear => exact execCounterClear_keeps _ _ _ _ hk he
  | verdictRead => exact execVerdictRead_keeps _ _ _ hk he
  | eventRead => exact execEventRead_keeps _ _ _ hk he
  | eventMask => exact execEventMask_keeps _ _ hk he
  | errorRead => exact execErrorRead_keeps _ _ _ hk he
  | bootRecords => exact execBootRecords_keeps _ hk he
  | linkAlign => exact execLinkAlign_keeps _ _ _ _ hk he
  | linkConfig => exact execLinkConfig_keeps _ _ _ _ hk he
  | linkStatus => exact execLinkStatus_keeps _ hk he
  | linkSetup => exact execLinkSetup_keeps _ _ _ _ _ hk he
  | filterRead => exact execFilterRead_keeps _ _ _ hk he
  | sicDepth => exact execSicDepth_keeps _ _ _ hk he
  | sicRetrain => exact execSicRetrain_keeps _ _ _ _ hk he
  | aeStatus => exact execAeStatus_keeps _ hk he
  | layerConfig => exact execLayerConfig_keeps _ _ _ hk he
  | layerWeights => exact execLayerWeights_keeps _ _ _ _ _ _ _ hk he
  | recombineRun => exact execRecombineRun_keeps _ _ _ _ _ _ _ hk he
  | csiExport => exact execCsiExport_keeps _ _ _ _ _ hk he
  | ddRewind => exact execDdRewind_keeps _ _ hk he
  | ddFetch => exact execDdFetch_keeps _ _ _ _ _ hk he
  | ddStatus => exact execDdStatus_keeps _ hk he
  | codecRun => exact execCodecRun_keeps _ _ _ _ _ _ _ _ hk he
  | portConfig => exact execPortConfig_keeps _ _ _ hk he
  | portStatus => exact execPortStatus_keeps _ hk he
  | soundingTable => exact execSoundingTable_keeps _ _ _ _ _ _ hk he
  | sqStatus => exact execSqStatus_keeps _ hk he
  | queueResize => exact execQueueResize_keeps _ _ _ hk he
  | timeConfig => exact execTimeConfig_keeps _ _ hk he
  | timeStep => exact execTimeStep_keeps _ _ _ _ _ hk he
  | timeAsymmetry => exact execTimeAsymmetry_keeps _ _ _ hk he
  | timeStatus => exact execTimeStatus_keeps _ hk he
  | triggerArm => exact execTriggerArm_keeps _ _ _ _ _ _ _ hk he
  | triggerDisarm => exact execTriggerDisarm_keeps _ _ hk he
  | memConfig => exact execMemConfig_keeps _ _ _ hk he
  | memStatus => exact execMemStatus_keeps _ hk he
  | memDiag => exact execMemDiag_keeps _ hk he
  | memFreeze => exact execMemFreeze_keeps _ hk he
  | memRestore => exact execMemRestore_keeps _ hk he
  | memThaw => exact execMemThaw_keeps _ _ hk he
  | memRead => exact execMemRead_keeps _ _ _ hk he
  | memWrite => exact execMemWrite_keeps _ _ _ _ hk he
  | twinPair h pairId index role stamp => exact execTwinPair_keeps h pairId index role stamp hk he
  | twinRejoin h stamp => exact execTwinRejoin_keeps h stamp hk he
  | twinSwap h => exact execTwinSwap_keeps h hk he
  | twinUnpair h stamp => exact execTwinUnpair_keeps h stamp hk he
  | twinStatus h => exact execTwinStatus_keeps h hk he
  | domainConfig => exact execDomainConfig_keeps _ _ hk he
  | accordJoin => exact execAccordJoin_keeps _ _ _ _ _ hk he
  | accordLeave => exact execAccordLeave_keeps _ _ _ hk he
  | loopbackSet => exact execLoopbackSet_keeps _ _ _ _ hk he
  | captureStart => exact execCaptureStart_keeps _ _ _ _ _ _ _ hk he
  | captureStop => exact execCaptureStop_keeps _ _ _ hk he
  | bistRun => exact execBistRun_keeps _ _ hk he
  | flashWrite => exact execFlashWrite_keeps _ _ _ _ hk he
  | flashRead => exact execFlashRead_keeps _ _ _ hk he
  | fuseRead => exact execFuseRead_keeps _ _ hk he
  | fuseProgram => exact execFuseProgram_keeps _ _ _ _ _ hk he
  | fuseBitProgram => exact execFuseBitProgram_keeps _ hk he
  | formulaVerifyComplete => exact execFormulaVerifyComplete_keeps hk he
  | hostJobComplete => exact execHostJobComplete_keeps _ hk he
  | memRestoreComplete => exact execMemRestoreComplete_keeps _ _ hk he
  | bistComplete => exact execBistComplete_keeps _ _ _ hk he
  | flashWriteComplete => exact execFlashWriteComplete_keeps hk he
  | nop => exact execNop_keeps _ _ _ hk he
  | mac => exact execMac_keeps _ _ _ hk he
  | tap => exact execTap_keeps _ _ _ hk he
  | adds => exact execAdds_keeps _ _ _ hk he
  | addr => exact execAddr_keeps _ _ _ hk he
  | adda => exact execAdda_keeps _ _ _ hk he
  | gxa => exact execGxa_keeps _ _ _ hk he
  | exp => exact execExp_keeps _ _ _ hk he
  | norm => exact execNorm_keeps _ _ _ hk he
  | ash => exact execAsh_keeps _ _ _ hk he
  | rcps => exact execRcps_keeps _ _ _ hk he
  | rsqs => exact execRsqs_keeps _ _ _ hk he
  | rdw => exact execRdw_keeps _ _ _ hk he
  | rdc => exact execRdc_keeps _ _ _ hk he
  | rdb => exact execRdb_keeps _ _ _ hk he
  | rdr => exact execRdr_keeps _ _ _ hk he
  | mov => exact execMov_keeps _ _ _ hk he
  | unpk => exact execUnpk_keeps _ _ _ hk he
  | zero => exact execZero_keeps _ _ _ hk he
  | setp => exact execSetp_keeps _ _ _ hk he
  | addp => exact execAddp_keeps _ _ _ hk he
  | movp => exact execMovp_keeps _ _ _ hk he
  | rep => exact execRep_keeps _ _ _ hk he
  | loop => exact execLoop_keeps _ _ _ hk he
  | jmp => exact execJmp_keeps _ _ _ hk he
  | rel => exact execRel_keeps _ _ _ hk he
  | jwait => exact execJwait_keeps _ _ _ hk he
  | jdone => exact execJdone_keeps _ _ _ hk he
  | endProg => exact execEndProg_keeps _ _ _ hk he
  | jobPartPlaced => exact execJobPartPlaced_keeps _ hk he
  | bgSuspendRequest => exact execBgSuspendRequest_keeps _ hk he
  | bgSuspend => exact execBgSuspend_keeps _ hk he
  | beatBoundary => exact execBeatBoundary_keeps _ _ hk he
  | unitStart => exact execUnitStart_keeps _ _ hk he
  | unitComplete => exact execUnitComplete_keeps _ _ hk he
  | budgetOverrun => exact execBudgetOverrun_keeps _ _ hk he
  | unitStatePublish => exact execUnitStatePublish_keeps _ hk he
  | digestRecord => exact execDigestRecord_keeps hk he
  | idleGuardStart => exact execIdleGuardStart_keeps hk he
  | moveStart => exact execMoveStart_keeps _ hk he
  | moveEnd => exact execMoveEnd_keeps _ hk he
  | admissionInstant => exact execAdmissionInstant_keeps _ hk he
  | ddReadDeadline => exact execDdReadDeadline_keeps _ hk he
  | accordPartialDeadline => exact execAccordPartialDeadline_keeps _ hk he
  | recombineDeadline => exact execRecombineDeadline_keeps _ hk he
  | laneMultiblock => exact execLaneMultiblock_keeps _ _ _ _ hk he
  | embBoundary => exact execEmbBoundary_keeps _ _ _ hk he
  | laneBlockLock => exact execLaneBlockLock_keeps _ hk he
  | laneEmbLock => exact execLaneEmbLock_keeps _ hk he
  | laneTrainTimeout => exact execLaneTrainTimeout_keeps hk he
  | laneRateFault => exact execLaneRateFault_keeps _ _ hk he
  | laneCdrLoss => exact execLaneCdrLoss_keeps _ hk he
  | elasticBufferSlip => exact execElasticBufferSlip_keeps _ hk he
  | alignPulse => exact execAlignPulse_keeps hk he
  | macFrameReject => exact execMacFrameReject_keeps _ hk he
  | ecpriIqSection => exact execEcpriIqSection_keeps _ hk he
  | ecpriRtControl => exact execEcpriRtControl_keeps _ hk he
  | ecpriDelayMeasurement => exact execEcpriDelayMeasurement_keeps _ hk he
  | ptpAnnounce => exact execPtpAnnounce_keeps _ _ _ hk he
  | ptpSync => exact execPtpSync_keeps _ _ hk he
  | ptpFollowUp => exact execPtpFollowUp_keeps _ _ hk he
  | ptpDelayResp => exact execPtpDelayResp_keeps _ _ hk he
  | ptpDelayReqSend => exact execPtpDelayReqSend_keeps _ _ hk he
  | announceReceiptTimeout => exact execAnnounceReceiptTimeout_keeps hk he
  | syncTimeout => exact execSyncTimeout_keeps hk he
  | managementFrame => exact execManagementFrame_keeps _ hk he
  | accordExchangeFrame => exact execAccordExchangeFrame_keeps _ hk he
  | portUp => exact execPortUp_keeps _ hk he
  | portDown => exact execPortDown_keeps _ _ hk he
  | macTxPop => exact execMacTxPop_keeps _ hk he
  | macTxDone => exact execMacTxDone_keeps _ hk he
  | egressStagePush => exact execEgressStagePush_keeps _ hk he
  | egressFifoDrain => exact execEgressFifoDrain_keeps _ hk he
  | ddGroupEncode => exact execDdGroupEncode_keeps _ _ hk he
  | hbmRequest => exact execHbmRequest_keeps _ _ _ _ hk he
  | hbmReadReturn => exact execHbmReadReturn_keeps _ _ _ hk he
  | stackErrorReport => exact execStackErrorReport_keeps _ _ hk he
  | stackCatastrophicTemp => exact execStackCatastrophicTemp_keeps hk he
  | refreshInterval => exact execRefreshInterval_keeps _ hk he
  | activateTableClear => exact execActivateTableClear_keeps hk he
  | pageTimeout => exact execPageTimeout_keeps _ _ hk he
  | idleSelfRefresh => exact execIdleSelfRefresh_keeps hk he
  | hbmFreqChangeDone => exact execHbmFreqChangeDone_keeps hk he
  | reservoirScrub => exact execReservoirScrub_keeps hk he
  | twHello h p => exact execTwHello_keeps h p hk he
  | helloSend => exact execHelloSend_keeps hk he
  | twForward h port merged stamp bytes => exact execTwForward_keeps h port merged stamp bytes hk he
  | twClose h kind index beat => exact execTwClose_keeps h kind index beat hk he
  | twVerdicts h l => exact execTwVerdicts_keeps h l hk he
  | twSeal h rec digestR verdicts ripening => exact execTwSeal_keeps h rec digestR verdicts ripening hk he
  | twHeartbeat h fitness cause role last => exact execTwHeartbeat_keeps h fitness cause role last hk he
  | twTime h tTx boundary => exact execTwTime_keeps h tTx boundary hk he
  | twCommand h seq opcode act go effect => exact execTwCommand_keeps h seq opcode act go effect hk he
  | twAck h kind status seq => exact execTwAck_keeps h kind status seq hk he
  | twState h kind unit commit addr data => exact execTwState_keeps h kind unit commit addr data hk he
  | twHandover h stamp planned => exact execTwHandover_keeps h stamp planned hk he
  | twLinkUp => exact execTwLinkUp_keeps hk he
  | twLinkDown => exact execTwLinkDown_keeps hk he
  | commandAckTimeout => exact execCommandAckTimeout_keeps hk he
  | handoverAckTimeout => exact execHandoverAckTimeout_keeps hk he
  | leadFailure => exact execLeadFailure_keeps hk he
  | peerLost => exact execPeerLost_keeps hk he
  | leadSelSwitch => exact execLeadSelSwitch_keeps hk he
  | sillageWindowTimeout => exact execSillageWindowTimeout_keeps _ hk he
  | rejoinTimeout => exact execRejoinTimeout_keeps hk he
  | deadManGate => exact execDeadManGate_keeps hk he
  | secondClose => exact execSecondClose_keeps hk he
  | holdoverLimit => exact execHoldoverLimit_keeps hk he
  | triggerPulse => exact execTriggerPulse_keeps _ hk he
  | cmdDoorbell => exact execCmdDoorbell_keeps _ _ hk he
  | rspConsumeWrite => exact execRspConsumeWrite_keeps _ hk he
  | evtConsumeWrite => exact execEvtConsumeWrite_keeps _ hk he
  | nosStatusClear => exact execNosStatusClear_keeps _ hk he
  | errStickyClear => exact execErrStickyClear_keeps _ hk he
  | snapshotTake => exact execSnapshotTake_keeps _ hk he
  | capturePop => exact execCapturePop_keeps _ _ hk he
  | bar0Write => exact execBar0Write_keeps _ _ _ hk he
  | msixMessage => exact execMsixMessage_keeps _ hk he
  | leaseExpiry => exact execLeaseExpiry_keeps hk he
  | leaseRegisterUpdate => exact execLeaseRegisterUpdate_keeps hk he
  | captureBegin => exact execCaptureBegin_keeps _ hk he
  | captureWord => exact execCaptureWord_keeps _ _ hk he
  | powerOnReset => exact execPowerOnReset_keeps hk he
  | porRelease => exact execPorRelease_keeps _ hk he
  | startWatchdog => exact execStartWatchdog_keeps _ hk he
  | warmReset => exact execWarmReset_keeps hk he
  | noseFirmwareFault => exact execNoseFirmwareFault_keeps hk he
  | supplyUndervoltage => exact execSupplyUndervoltage_keeps _ hk he
  | evThermal => exact execEvThermal_keeps _ _ hk he
  | thermtrip sensor temp => exact execThermtrip_keeps sensor temp hk he
  | hbmCommandIssue => exact execHbmCommandIssue_keeps _ hk he
  | txExtendedMultiblock => exact execTxExtendedMultiblock_keeps _ hk he
  | alignmentFailure => exact execAlignmentFailure_keeps hk he
  | partialLoss => exact execPartialLoss_keeps _ _ _ hk he
  | timeOutputPulseEnd => exact execTimeOutputPulseEnd_keeps _ hk he
  | captureFifoDrain => exact execCaptureFifoDrain_keeps _ hk he
  | loopbackUnitChecked => exact execLoopbackUnitChecked_keeps _ _ _ hk he

/-- A step takes the front of the queue and keeps the rest. -/
theorem step_keeps {s t : State} (he : step s = .next t) : Keeps { s with pending := s.pending.tail } t := by
  unfold step at he
  split at he
  · rename_i hp
    cases he
    have h : { s with pending := s.pending.tail } = s := by rw [hp]; show { s with pending := [] } = s; rw [← hp]
    rw [h]
    exact idleCycle_keeps (Keeps.refl s)
  · rename_i i rest hp
    rw [hp]
    exact exec_keeps i (Keeps.refl _) he

/-- Every command but the HBM request beyond the stack has a next state. -/
theorem exec_acts (i : Instr) (s : State) : (∃ t, exec i s = .next t) ∨
    ∃ port write addr data, i = .hbmRequest port write addr data ∧ 24 * 2 ^ 30 ≤ addr.toNat ∧ exec i s = .fault .noSuchAddress := by
  cases i with
  | hbmRequest port write addr data =>
    by_cases h : 24 * 2 ^ 30 ≤ addr.toNat
    · exact .inr ⟨port, write, addr, data, rfl, h, by show execHbmRequest _ _ _ _ _ = _; unfold execHbmRequest; exact if_pos h⟩
    · exact .inl ⟨_, by show execHbmRequest _ _ _ _ _ = _; unfold execHbmRequest; exact if_neg h⟩
  | leaseAcquire => exact .inl ⟨_, rfl⟩
  | leaseRelease => exact .inl ⟨_, rfl⟩
  | leaseStatus => exact .inl ⟨_, rfl⟩
  | noseInfo => exact .inl ⟨_, rfl⟩
  | modeEnter => exact .inl ⟨_, rfl⟩
  | modeReset => exact .inl ⟨_, rfl⟩
  | formulaLoad => exact .inl ⟨_, rfl⟩
  | formulaActivate => exact .inl ⟨_, rfl⟩
  | formulaStatus => exact .inl ⟨_, rfl⟩
  | counterRead => exact .inl ⟨_, rfl⟩
  | counterClear => exact .inl ⟨_, rfl⟩
  | verdictRead => exact .inl ⟨_, rfl⟩
  | eventRead => exact .inl ⟨_, rfl⟩
  | eventMask => exact .inl ⟨_, rfl⟩
  | errorRead => exact .inl ⟨_, rfl⟩
  | bootRecords => exact .inl ⟨_, rfl⟩
  | linkAlign => exact .inl ⟨_, rfl⟩
  | linkConfig => exact .inl ⟨_, rfl⟩
  | linkStatus => exact .inl ⟨_, rfl⟩
  | linkSetup => exact .inl ⟨_, rfl⟩
  | filterRead => exact .inl ⟨_, rfl⟩
  | sicDepth => exact .inl ⟨_, rfl⟩
  | sicRetrain => exact .inl ⟨_, rfl⟩
  | aeStatus => exact .inl ⟨_, rfl⟩
  | layerConfig => exact .inl ⟨_, rfl⟩
  | layerWeights => exact .inl ⟨_, rfl⟩
  | recombineRun => exact .inl ⟨_, rfl⟩
  | csiExport => exact .inl ⟨_, rfl⟩
  | ddRewind => exact .inl ⟨_, rfl⟩
  | ddFetch => exact .inl ⟨_, rfl⟩
  | ddStatus => exact .inl ⟨_, rfl⟩
  | codecRun => exact .inl ⟨_, rfl⟩
  | portConfig => exact .inl ⟨_, rfl⟩
  | portStatus => exact .inl ⟨_, rfl⟩
  | soundingTable => exact .inl ⟨_, rfl⟩
  | sqStatus => exact .inl ⟨_, rfl⟩
  | queueResize => exact .inl ⟨_, rfl⟩
  | timeConfig => exact .inl ⟨_, rfl⟩
  | timeStep => exact .inl ⟨_, rfl⟩
  | timeAsymmetry => exact .inl ⟨_, rfl⟩
  | timeStatus => exact .inl ⟨_, rfl⟩
  | triggerArm => exact .inl ⟨_, rfl⟩
  | triggerDisarm => exact .inl ⟨_, rfl⟩
  | memConfig => exact .inl ⟨_, rfl⟩
  | memStatus => exact .inl ⟨_, rfl⟩
  | memDiag => exact .inl ⟨_, rfl⟩
  | memFreeze => exact .inl ⟨_, rfl⟩
  | memRestore => exact .inl ⟨_, rfl⟩
  | memThaw => exact .inl ⟨_, rfl⟩
  | memRead => exact .inl ⟨_, rfl⟩
  | memWrite => exact .inl ⟨_, rfl⟩
  | twinPair => exact .inl ⟨_, rfl⟩
  | twinRejoin => exact .inl ⟨_, rfl⟩
  | twinSwap => exact .inl ⟨_, rfl⟩
  | twinUnpair => exact .inl ⟨_, rfl⟩
  | twinStatus => exact .inl ⟨_, rfl⟩
  | domainConfig => exact .inl ⟨_, rfl⟩
  | accordJoin => exact .inl ⟨_, rfl⟩
  | accordLeave => exact .inl ⟨_, rfl⟩
  | loopbackSet => exact .inl ⟨_, rfl⟩
  | captureStart => exact .inl ⟨_, rfl⟩
  | captureStop => exact .inl ⟨_, rfl⟩
  | bistRun => exact .inl ⟨_, rfl⟩
  | flashWrite => exact .inl ⟨_, rfl⟩
  | flashRead => exact .inl ⟨_, rfl⟩
  | fuseRead => exact .inl ⟨_, rfl⟩
  | fuseProgram => exact .inl ⟨_, rfl⟩
  | fuseBitProgram => exact .inl ⟨_, rfl⟩
  | formulaVerifyComplete => exact .inl ⟨_, rfl⟩
  | hostJobComplete => exact .inl ⟨_, rfl⟩
  | memRestoreComplete => exact .inl ⟨_, rfl⟩
  | bistComplete => exact .inl ⟨_, rfl⟩
  | flashWriteComplete => exact .inl ⟨_, rfl⟩
  | nop => exact .inl ⟨_, rfl⟩
  | mac => exact .inl ⟨_, rfl⟩
  | tap => exact .inl ⟨_, rfl⟩
  | adds => exact .inl ⟨_, rfl⟩
  | addr => exact .inl ⟨_, rfl⟩
  | adda => exact .inl ⟨_, rfl⟩
  | gxa => exact .inl ⟨_, rfl⟩
  | exp => exact .inl ⟨_, rfl⟩
  | norm => exact .inl ⟨_, rfl⟩
  | ash => exact .inl ⟨_, rfl⟩
  | rcps => exact .inl ⟨_, rfl⟩
  | rsqs => exact .inl ⟨_, rfl⟩
  | rdw => exact .inl ⟨_, rfl⟩
  | rdc => exact .inl ⟨_, rfl⟩
  | rdb => exact .inl ⟨_, rfl⟩
  | rdr => exact .inl ⟨_, rfl⟩
  | mov => exact .inl ⟨_, rfl⟩
  | unpk => exact .inl ⟨_, rfl⟩
  | zero => exact .inl ⟨_, rfl⟩
  | setp => exact .inl ⟨_, rfl⟩
  | addp => exact .inl ⟨_, rfl⟩
  | movp => exact .inl ⟨_, rfl⟩
  | rep => exact .inl ⟨_, rfl⟩
  | loop => exact .inl ⟨_, rfl⟩
  | jmp => exact .inl ⟨_, rfl⟩
  | rel => exact .inl ⟨_, rfl⟩
  | jwait => exact .inl ⟨_, rfl⟩
  | jdone => exact .inl ⟨_, rfl⟩
  | endProg => exact .inl ⟨_, rfl⟩
  | jobPartPlaced => exact .inl ⟨_, rfl⟩
  | bgSuspendRequest => exact .inl ⟨_, rfl⟩
  | bgSuspend => exact .inl ⟨_, rfl⟩
  | beatBoundary => exact .inl ⟨_, rfl⟩
  | unitStart => exact .inl ⟨_, rfl⟩
  | unitComplete => exact .inl ⟨_, rfl⟩
  | budgetOverrun => exact .inl ⟨_, rfl⟩
  | unitStatePublish => exact .inl ⟨_, rfl⟩
  | digestRecord => exact .inl ⟨_, rfl⟩
  | idleGuardStart => exact .inl ⟨_, rfl⟩
  | moveStart => exact .inl ⟨_, rfl⟩
  | moveEnd => exact .inl ⟨_, rfl⟩
  | admissionInstant => exact .inl ⟨_, rfl⟩
  | ddReadDeadline => exact .inl ⟨_, rfl⟩
  | accordPartialDeadline => exact .inl ⟨_, rfl⟩
  | recombineDeadline => exact .inl ⟨_, rfl⟩
  | laneMultiblock => exact .inl ⟨_, rfl⟩
  | embBoundary => exact .inl ⟨_, rfl⟩
  | laneBlockLock => exact .inl ⟨_, rfl⟩
  | laneEmbLock => exact .inl ⟨_, rfl⟩
  | laneTrainTimeout => exact .inl ⟨_, rfl⟩
  | laneRateFault => exact .inl ⟨_, rfl⟩
  | laneCdrLoss => exact .inl ⟨_, rfl⟩
  | elasticBufferSlip => exact .inl ⟨_, rfl⟩
  | alignPulse => exact .inl ⟨_, rfl⟩
  | macFrameReject => exact .inl ⟨_, rfl⟩
  | ecpriIqSection => exact .inl ⟨_, rfl⟩
  | ecpriRtControl => exact .inl ⟨_, rfl⟩
  | ecpriDelayMeasurement => exact .inl ⟨_, rfl⟩
  | ptpAnnounce => exact .inl ⟨_, rfl⟩
  | ptpSync => exact .inl ⟨_, rfl⟩
  | ptpFollowUp => exact .inl ⟨_, rfl⟩
  | ptpDelayResp => exact .inl ⟨_, rfl⟩
  | ptpDelayReqSend => exact .inl ⟨_, rfl⟩
  | announceReceiptTimeout => exact .inl ⟨_, rfl⟩
  | syncTimeout => exact .inl ⟨_, rfl⟩
  | managementFrame => exact .inl ⟨_, rfl⟩
  | accordExchangeFrame => exact .inl ⟨_, rfl⟩
  | portUp => exact .inl ⟨_, rfl⟩
  | portDown => exact .inl ⟨_, rfl⟩
  | macTxPop => exact .inl ⟨_, rfl⟩
  | macTxDone => exact .inl ⟨_, rfl⟩
  | egressStagePush => exact .inl ⟨_, rfl⟩
  | egressFifoDrain => exact .inl ⟨_, rfl⟩
  | ddGroupEncode => exact .inl ⟨_, rfl⟩
  | hbmReadReturn => exact .inl ⟨_, rfl⟩
  | stackErrorReport => exact .inl ⟨_, rfl⟩
  | stackCatastrophicTemp => exact .inl ⟨_, rfl⟩
  | refreshInterval => exact .inl ⟨_, rfl⟩
  | activateTableClear => exact .inl ⟨_, rfl⟩
  | pageTimeout => exact .inl ⟨_, rfl⟩
  | idleSelfRefresh => exact .inl ⟨_, rfl⟩
  | hbmFreqChangeDone => exact .inl ⟨_, rfl⟩
  | reservoirScrub => exact .inl ⟨_, rfl⟩
  | twHello => exact .inl ⟨_, rfl⟩
  | helloSend => exact .inl ⟨_, rfl⟩
  | twForward => exact .inl ⟨_, rfl⟩
  | twClose => exact .inl ⟨_, rfl⟩
  | twVerdicts => exact .inl ⟨_, rfl⟩
  | twSeal => exact .inl ⟨_, rfl⟩
  | twHeartbeat => exact .inl ⟨_, rfl⟩
  | twTime => exact .inl ⟨_, rfl⟩
  | twCommand => exact .inl ⟨_, rfl⟩
  | twAck => exact .inl ⟨_, rfl⟩
  | twState => exact .inl ⟨_, rfl⟩
  | twHandover => exact .inl ⟨_, rfl⟩
  | twLinkUp => exact .inl ⟨_, rfl⟩
  | twLinkDown => exact .inl ⟨_, rfl⟩
  | commandAckTimeout => exact .inl ⟨_, rfl⟩
  | handoverAckTimeout => exact .inl ⟨_, rfl⟩
  | leadFailure => exact .inl ⟨_, rfl⟩
  | peerLost => exact .inl ⟨_, rfl⟩
  | leadSelSwitch => exact .inl ⟨_, rfl⟩
  | sillageWindowTimeout => exact .inl ⟨_, rfl⟩
  | rejoinTimeout => exact .inl ⟨_, rfl⟩
  | deadManGate => exact .inl ⟨_, rfl⟩
  | secondClose => exact .inl ⟨_, rfl⟩
  | holdoverLimit => exact .inl ⟨_, rfl⟩
  | triggerPulse => exact .inl ⟨_, rfl⟩
  | cmdDoorbell => exact .inl ⟨_, rfl⟩
  | rspConsumeWrite => exact .inl ⟨_, rfl⟩
  | evtConsumeWrite => exact .inl ⟨_, rfl⟩
  | nosStatusClear => exact .inl ⟨_, rfl⟩
  | errStickyClear => exact .inl ⟨_, rfl⟩
  | snapshotTake => exact .inl ⟨_, rfl⟩
  | capturePop => exact .inl ⟨_, rfl⟩
  | bar0Write => exact .inl ⟨_, rfl⟩
  | msixMessage => exact .inl ⟨_, rfl⟩
  | leaseExpiry => exact .inl ⟨_, rfl⟩
  | leaseRegisterUpdate => exact .inl ⟨_, rfl⟩
  | captureBegin => exact .inl ⟨_, rfl⟩
  | captureWord => exact .inl ⟨_, rfl⟩
  | powerOnReset => exact .inl ⟨_, rfl⟩
  | porRelease => exact .inl ⟨_, rfl⟩
  | startWatchdog => exact .inl ⟨_, rfl⟩
  | warmReset => exact .inl ⟨_, rfl⟩
  | noseFirmwareFault => exact .inl ⟨_, rfl⟩
  | supplyUndervoltage => exact .inl ⟨_, rfl⟩
  | evThermal => exact .inl ⟨_, rfl⟩
  | thermtrip => exact .inl ⟨_, rfl⟩
  | hbmCommandIssue => exact .inl ⟨_, rfl⟩
  | txExtendedMultiblock => exact .inl ⟨_, rfl⟩
  | alignmentFailure => exact .inl ⟨_, rfl⟩
  | partialLoss => exact .inl ⟨_, rfl⟩
  | timeOutputPulseEnd => exact .inl ⟨_, rfl⟩
  | captureFifoDrain => exact .inl ⟨_, rfl⟩
  | loopbackUnitChecked => exact .inl ⟨_, rfl⟩

end Sys2Proof.Machine
end

