-- ==== Sys2Proof/Laws/State.lean ====
section
/-! SUPPORT. The named updates of the state: what each leaves alone, field by field, and what a read after it gives. -/

namespace Sys2Proof.Machine
open Sys2Proof

/-! `emit` writes `outs` alone -/

@[simp] theorem emit_nose (o : Out) (s : State) : (emit o s).nose = s.nose := rfl
@[simp] theorem emit_boot (o : Out) (s : State) : (emit o s).boot = s.boot := rfl
@[simp] theorem emit_bar0 (o : Out) (s : State) : (emit o s).bar0 = s.bar0 := rfl
@[simp] theorem emit_frm (o : Out) (s : State) : (emit o s).frm = s.frm := rfl
@[simp] theorem emit_tb (o : Out) (s : State) : (emit o s).tb = s.tb := rfl
@[simp] theorem emit_lnk (o : Out) (s : State) : (emit o s).lnk = s.lnk := rfl
@[simp] theorem emit_efe (o : Out) (s : State) : (emit o s).efe = s.efe := rfl
@[simp] theorem emit_stu (o : Out) (s : State) : (emit o s).stu = s.stu := rfl
@[simp] theorem emit_sic (o : Out) (s : State) : (emit o s).sic = s.sic := rfl
@[simp] theorem emit_ae (o : Out) (s : State) : (emit o s).ae = s.ae := rfl
@[simp] theorem emit_sq (o : Out) (s : State) : (emit o s).sq = s.sq := rfl
@[simp] theorem emit_dd (o : Out) (s : State) : (emit o s).dd = s.dd := rfl
@[simp] theorem emit_fhp (o : Out) (s : State) : (emit o s).fhp = s.fhp := rfl
@[simp] theorem emit_mem (o : Out) (s : State) : (emit o s).mem = s.mem := rfl
@[simp] theorem emit_twn (o : Out) (s : State) : (emit o s).twn = s.twn := rfl
@[simp] theorem emit_err (o : Out) (s : State) : (emit o s).err = s.err := rfl
@[simp] theorem emit_tst (o : Out) (s : State) : (emit o s).tst = s.tst := rfl
@[simp] theorem emit_pins (o : Out) (s : State) : (emit o s).pins = s.pins := rfl
@[simp] theorem emit_ctr (o : Out) (s : State) : (emit o s).ctr = s.ctr := rfl
@[simp] theorem emit_fresh (o : Out) (s : State) : (emit o s).fresh = s.fresh := rfl
@[simp] theorem emit_pending (o : Out) (s : State) : (emit o s).pending = s.pending := rfl

/-! `countBy` writes `ctr` alone -/

@[simp] theorem countBy_nose (code idx n : Nat) (s : State) : (countBy code idx n s).nose = s.nose := rfl
@[simp] theorem countBy_boot (code idx n : Nat) (s : State) : (countBy code idx n s).boot = s.boot := rfl
@[simp] theorem countBy_bar0 (code idx n : Nat) (s : State) : (countBy code idx n s).bar0 = s.bar0 := rfl
@[simp] theorem countBy_frm (code idx n : Nat) (s : State) : (countBy code idx n s).frm = s.frm := rfl
@[simp] theorem countBy_tb (code idx n : Nat) (s : State) : (countBy code idx n s).tb = s.tb := rfl
@[simp] theorem countBy_lnk (code idx n : Nat) (s : State) : (countBy code idx n s).lnk = s.lnk := rfl
@[simp] theorem countBy_efe (code idx n : Nat) (s : State) : (countBy code idx n s).efe = s.efe := rfl
@[simp] theorem countBy_stu (code idx n : Nat) (s : State) : (countBy code idx n s).stu = s.stu := rfl
@[simp] theorem countBy_sic (code idx n : Nat) (s : State) : (countBy code idx n s).sic = s.sic := rfl
@[simp] theorem countBy_ae (code idx n : Nat) (s : State) : (countBy code idx n s).ae = s.ae := rfl
@[simp] theorem countBy_sq (code idx n : Nat) (s : State) : (countBy code idx n s).sq = s.sq := rfl
@[simp] theorem countBy_dd (code idx n : Nat) (s : State) : (countBy code idx n s).dd = s.dd := rfl
@[simp] theorem countBy_fhp (code idx n : Nat) (s : State) : (countBy code idx n s).fhp = s.fhp := rfl
@[simp] theorem countBy_mem (code idx n : Nat) (s : State) : (countBy code idx n s).mem = s.mem := rfl
@[simp] theorem countBy_twn (code idx n : Nat) (s : State) : (countBy code idx n s).twn = s.twn := rfl
@[simp] theorem countBy_err (code idx n : Nat) (s : State) : (countBy code idx n s).err = s.err := rfl
@[simp] theorem countBy_tst (code idx n : Nat) (s : State) : (countBy code idx n s).tst = s.tst := rfl
@[simp] theorem countBy_pins (code idx n : Nat) (s : State) : (countBy code idx n s).pins = s.pins := rfl
@[simp] theorem countBy_outs (code idx n : Nat) (s : State) : (countBy code idx n s).outs = s.outs := rfl
@[simp] theorem countBy_fresh (code idx n : Nat) (s : State) : (countBy code idx n s).fresh = s.fresh := rfl
@[simp] theorem countBy_pending (code idx n : Nat) (s : State) : (countBy code idx n s).pending = s.pending := rfl

/-! `count` writes `ctr` alone -/

@[simp] theorem count_nose (code idx : Nat) (s : State) : (count code idx s).nose = s.nose := rfl
@[simp] theorem count_boot (code idx : Nat) (s : State) : (count code idx s).boot = s.boot := rfl
@[simp] theorem count_bar0 (code idx : Nat) (s : State) : (count code idx s).bar0 = s.bar0 := rfl
@[simp] theorem count_frm (code idx : Nat) (s : State) : (count code idx s).frm = s.frm := rfl
@[simp] theorem count_tb (code idx : Nat) (s : State) : (count code idx s).tb = s.tb := rfl
@[simp] theorem count_lnk (code idx : Nat) (s : State) : (count code idx s).lnk = s.lnk := rfl
@[simp] theorem count_efe (code idx : Nat) (s : State) : (count code idx s).efe = s.efe := rfl
@[simp] theorem count_stu (code idx : Nat) (s : State) : (count code idx s).stu = s.stu := rfl
@[simp] theorem count_sic (code idx : Nat) (s : State) : (count code idx s).sic = s.sic := rfl
@[simp] theorem count_ae (code idx : Nat) (s : State) : (count code idx s).ae = s.ae := rfl
@[simp] theorem count_sq (code idx : Nat) (s : State) : (count code idx s).sq = s.sq := rfl
@[simp] theorem count_dd (code idx : Nat) (s : State) : (count code idx s).dd = s.dd := rfl
@[simp] theorem count_fhp (code idx : Nat) (s : State) : (count code idx s).fhp = s.fhp := rfl
@[simp] theorem count_mem (code idx : Nat) (s : State) : (count code idx s).mem = s.mem := rfl
@[simp] theorem count_twn (code idx : Nat) (s : State) : (count code idx s).twn = s.twn := rfl
@[simp] theorem count_err (code idx : Nat) (s : State) : (count code idx s).err = s.err := rfl
@[simp] theorem count_tst (code idx : Nat) (s : State) : (count code idx s).tst = s.tst := rfl
@[simp] theorem count_pins (code idx : Nat) (s : State) : (count code idx s).pins = s.pins := rfl
@[simp] theorem count_outs (code idx : Nat) (s : State) : (count code idx s).outs = s.outs := rfl
@[simp] theorem count_fresh (code idx : Nat) (s : State) : (count code idx s).fresh = s.fresh := rfl
@[simp] theorem count_pending (code idx : Nat) (s : State) : (count code idx s).pending = s.pending := rfl

/-! `portSet` writes `fhp` alone -/

@[simp] theorem portSet_nose (p : Nat) (v : PortSt) (s : State) : (portSet p v s).nose = s.nose := rfl
@[simp] theorem portSet_boot (p : Nat) (v : PortSt) (s : State) : (portSet p v s).boot = s.boot := rfl
@[simp] theorem portSet_bar0 (p : Nat) (v : PortSt) (s : State) : (portSet p v s).bar0 = s.bar0 := rfl
@[simp] theorem portSet_frm (p : Nat) (v : PortSt) (s : State) : (portSet p v s).frm = s.frm := rfl
@[simp] theorem portSet_tb (p : Nat) (v : PortSt) (s : State) : (portSet p v s).tb = s.tb := rfl
@[simp] theorem portSet_lnk (p : Nat) (v : PortSt) (s : State) : (portSet p v s).lnk = s.lnk := rfl
@[simp] theorem portSet_efe (p : Nat) (v : PortSt) (s : State) : (portSet p v s).efe = s.efe := rfl
@[simp] theorem portSet_stu (p : Nat) (v : PortSt) (s : State) : (portSet p v s).stu = s.stu := rfl
@[simp] theorem portSet_sic (p : Nat) (v : PortSt) (s : State) : (portSet p v s).sic = s.sic := rfl
@[simp] theorem portSet_ae (p : Nat) (v : PortSt) (s : State) : (portSet p v s).ae = s.ae := rfl
@[simp] theorem portSet_sq (p : Nat) (v : PortSt) (s : State) : (portSet p v s).sq = s.sq := rfl
@[simp] theorem portSet_dd (p : Nat) (v : PortSt) (s : State) : (portSet p v s).dd = s.dd := rfl
@[simp] theorem portSet_mem (p : Nat) (v : PortSt) (s : State) : (portSet p v s).mem = s.mem := rfl
@[simp] theorem portSet_twn (p : Nat) (v : PortSt) (s : State) : (portSet p v s).twn = s.twn := rfl
@[simp] theorem portSet_err (p : Nat) (v : PortSt) (s : State) : (portSet p v s).err = s.err := rfl
@[simp] theorem portSet_tst (p : Nat) (v : PortSt) (s : State) : (portSet p v s).tst = s.tst := rfl
@[simp] theorem portSet_pins (p : Nat) (v : PortSt) (s : State) : (portSet p v s).pins = s.pins := rfl
@[simp] theorem portSet_ctr (p : Nat) (v : PortSt) (s : State) : (portSet p v s).ctr = s.ctr := rfl
@[simp] theorem portSet_outs (p : Nat) (v : PortSt) (s : State) : (portSet p v s).outs = s.outs := rfl
@[simp] theorem portSet_fresh (p : Nat) (v : PortSt) (s : State) : (portSet p v s).fresh = s.fresh := rfl
@[simp] theorem portSet_pending (p : Nat) (v : PortSt) (s : State) : (portSet p v s).pending = s.pending := rfl

/-! `feWrite` writes `mem` alone -/

@[simp] theorem feWrite_nose (a : Nat) (b : List Byte) (s : State) : (feWrite a b s).nose = s.nose := rfl
@[simp] theorem feWrite_boot (a : Nat) (b : List Byte) (s : State) : (feWrite a b s).boot = s.boot := rfl
@[simp] theorem feWrite_bar0 (a : Nat) (b : List Byte) (s : State) : (feWrite a b s).bar0 = s.bar0 := rfl
@[simp] theorem feWrite_frm (a : Nat) (b : List Byte) (s : State) : (feWrite a b s).frm = s.frm := rfl
@[simp] theorem feWrite_tb (a : Nat) (b : List Byte) (s : State) : (feWrite a b s).tb = s.tb := rfl
@[simp] theorem feWrite_lnk (a : Nat) (b : List Byte) (s : State) : (feWrite a b s).lnk = s.lnk := rfl
@[simp] theorem feWrite_efe (a : Nat) (b : List Byte) (s : State) : (feWrite a b s).efe = s.efe := rfl
@[simp] theorem feWrite_stu (a : Nat) (b : List Byte) (s : State) : (feWrite a b s).stu = s.stu := rfl
@[simp] theorem feWrite_sic (a : Nat) (b : List Byte) (s : State) : (feWrite a b s).sic = s.sic := rfl
@[simp] theorem feWrite_ae (a : Nat) (b : List Byte) (s : State) : (feWrite a b s).ae = s.ae := rfl
@[simp] theorem feWrite_sq (a : Nat) (b : List Byte) (s : State) : (feWrite a b s).sq = s.sq := rfl
@[simp] theorem feWrite_dd (a : Nat) (b : List Byte) (s : State) : (feWrite a b s).dd = s.dd := rfl
@[simp] theorem feWrite_fhp (a : Nat) (b : List Byte) (s : State) : (feWrite a b s).fhp = s.fhp := rfl
@[simp] theorem feWrite_twn (a : Nat) (b : List Byte) (s : State) : (feWrite a b s).twn = s.twn := rfl
@[simp] theorem feWrite_err (a : Nat) (b : List Byte) (s : State) : (feWrite a b s).err = s.err := rfl
@[simp] theorem feWrite_tst (a : Nat) (b : List Byte) (s : State) : (feWrite a b s).tst = s.tst := rfl
@[simp] theorem feWrite_pins (a : Nat) (b : List Byte) (s : State) : (feWrite a b s).pins = s.pins := rfl
@[simp] theorem feWrite_ctr (a : Nat) (b : List Byte) (s : State) : (feWrite a b s).ctr = s.ctr := rfl
@[simp] theorem feWrite_outs (a : Nat) (b : List Byte) (s : State) : (feWrite a b s).outs = s.outs := rfl
@[simp] theorem feWrite_fresh (a : Nat) (b : List Byte) (s : State) : (feWrite a b s).fresh = s.fresh := rfl
@[simp] theorem feWrite_pending (a : Nat) (b : List Byte) (s : State) : (feWrite a b s).pending = s.pending := rfl

/-! `cfWrite` writes `mem` alone -/

@[simp] theorem cfWrite_nose (a : Nat) (b : List Byte) (s : State) : (cfWrite a b s).nose = s.nose := rfl
@[simp] theorem cfWrite_boot (a : Nat) (b : List Byte) (s : State) : (cfWrite a b s).boot = s.boot := rfl
@[simp] theorem cfWrite_bar0 (a : Nat) (b : List Byte) (s : State) : (cfWrite a b s).bar0 = s.bar0 := rfl
@[simp] theorem cfWrite_frm (a : Nat) (b : List Byte) (s : State) : (cfWrite a b s).frm = s.frm := rfl
@[simp] theorem cfWrite_tb (a : Nat) (b : List Byte) (s : State) : (cfWrite a b s).tb = s.tb := rfl
@[simp] theorem cfWrite_lnk (a : Nat) (b : List Byte) (s : State) : (cfWrite a b s).lnk = s.lnk := rfl
@[simp] theorem cfWrite_efe (a : Nat) (b : List Byte) (s : State) : (cfWrite a b s).efe = s.efe := rfl
@[simp] theorem cfWrite_stu (a : Nat) (b : List Byte) (s : State) : (cfWrite a b s).stu = s.stu := rfl
@[simp] theorem cfWrite_sic (a : Nat) (b : List Byte) (s : State) : (cfWrite a b s).sic = s.sic := rfl
@[simp] theorem cfWrite_ae (a : Nat) (b : List Byte) (s : State) : (cfWrite a b s).ae = s.ae := rfl
@[simp] theorem cfWrite_sq (a : Nat) (b : List Byte) (s : State) : (cfWrite a b s).sq = s.sq := rfl
@[simp] theorem cfWrite_dd (a : Nat) (b : List Byte) (s : State) : (cfWrite a b s).dd = s.dd := rfl
@[simp] theorem cfWrite_fhp (a : Nat) (b : List Byte) (s : State) : (cfWrite a b s).fhp = s.fhp := rfl
@[simp] theorem cfWrite_twn (a : Nat) (b : List Byte) (s : State) : (cfWrite a b s).twn = s.twn := rfl
@[simp] theorem cfWrite_err (a : Nat) (b : List Byte) (s : State) : (cfWrite a b s).err = s.err := rfl
@[simp] theorem cfWrite_tst (a : Nat) (b : List Byte) (s : State) : (cfWrite a b s).tst = s.tst := rfl
@[simp] theorem cfWrite_pins (a : Nat) (b : List Byte) (s : State) : (cfWrite a b s).pins = s.pins := rfl
@[simp] theorem cfWrite_ctr (a : Nat) (b : List Byte) (s : State) : (cfWrite a b s).ctr = s.ctr := rfl
@[simp] theorem cfWrite_outs (a : Nat) (b : List Byte) (s : State) : (cfWrite a b s).outs = s.outs := rfl
@[simp] theorem cfWrite_fresh (a : Nat) (b : List Byte) (s : State) : (cfWrite a b s).fresh = s.fresh := rfl
@[simp] theorem cfWrite_pending (a : Nat) (b : List Byte) (s : State) : (cfWrite a b s).pending = s.pending := rfl

/-! `hbmWrite` writes `mem` alone -/

@[simp] theorem hbmWrite_nose (a : Nat) (b : List Byte) (s : State) : (hbmWrite a b s).nose = s.nose := rfl
@[simp] theorem hbmWrite_boot (a : Nat) (b : List Byte) (s : State) : (hbmWrite a b s).boot = s.boot := rfl
@[simp] theorem hbmWrite_bar0 (a : Nat) (b : List Byte) (s : State) : (hbmWrite a b s).bar0 = s.bar0 := rfl
@[simp] theorem hbmWrite_frm (a : Nat) (b : List Byte) (s : State) : (hbmWrite a b s).frm = s.frm := rfl
@[simp] theorem hbmWrite_tb (a : Nat) (b : List Byte) (s : State) : (hbmWrite a b s).tb = s.tb := rfl
@[simp] theorem hbmWrite_lnk (a : Nat) (b : List Byte) (s : State) : (hbmWrite a b s).lnk = s.lnk := rfl
@[simp] theorem hbmWrite_efe (a : Nat) (b : List Byte) (s : State) : (hbmWrite a b s).efe = s.efe := rfl
@[simp] theorem hbmWrite_stu (a : Nat) (b : List Byte) (s : State) : (hbmWrite a b s).stu = s.stu := rfl
@[simp] theorem hbmWrite_sic (a : Nat) (b : List Byte) (s : State) : (hbmWrite a b s).sic = s.sic := rfl
@[simp] theorem hbmWrite_ae (a : Nat) (b : List Byte) (s : State) : (hbmWrite a b s).ae = s.ae := rfl
@[simp] theorem hbmWrite_sq (a : Nat) (b : List Byte) (s : State) : (hbmWrite a b s).sq = s.sq := rfl
@[simp] theorem hbmWrite_dd (a : Nat) (b : List Byte) (s : State) : (hbmWrite a b s).dd = s.dd := rfl
@[simp] theorem hbmWrite_fhp (a : Nat) (b : List Byte) (s : State) : (hbmWrite a b s).fhp = s.fhp := rfl
@[simp] theorem hbmWrite_twn (a : Nat) (b : List Byte) (s : State) : (hbmWrite a b s).twn = s.twn := rfl
@[simp] theorem hbmWrite_err (a : Nat) (b : List Byte) (s : State) : (hbmWrite a b s).err = s.err := rfl
@[simp] theorem hbmWrite_tst (a : Nat) (b : List Byte) (s : State) : (hbmWrite a b s).tst = s.tst := rfl
@[simp] theorem hbmWrite_pins (a : Nat) (b : List Byte) (s : State) : (hbmWrite a b s).pins = s.pins := rfl
@[simp] theorem hbmWrite_ctr (a : Nat) (b : List Byte) (s : State) : (hbmWrite a b s).ctr = s.ctr := rfl
@[simp] theorem hbmWrite_outs (a : Nat) (b : List Byte) (s : State) : (hbmWrite a b s).outs = s.outs := rfl
@[simp] theorem hbmWrite_fresh (a : Nat) (b : List Byte) (s : State) : (hbmWrite a b s).fresh = s.fresh := rfl
@[simp] theorem hbmWrite_pending (a : Nat) (b : List Byte) (s : State) : (hbmWrite a b s).pending = s.pending := rfl

/-! `hbmUndefine` writes `mem` alone -/

@[simp] theorem hbmUndefine_nose (a n : Nat) (s : State) : (hbmUndefine a n s).nose = s.nose := rfl
@[simp] theorem hbmUndefine_boot (a n : Nat) (s : State) : (hbmUndefine a n s).boot = s.boot := rfl
@[simp] theorem hbmUndefine_bar0 (a n : Nat) (s : State) : (hbmUndefine a n s).bar0 = s.bar0 := rfl
@[simp] theorem hbmUndefine_frm (a n : Nat) (s : State) : (hbmUndefine a n s).frm = s.frm := rfl
@[simp] theorem hbmUndefine_tb (a n : Nat) (s : State) : (hbmUndefine a n s).tb = s.tb := rfl
@[simp] theorem hbmUndefine_lnk (a n : Nat) (s : State) : (hbmUndefine a n s).lnk = s.lnk := rfl
@[simp] theorem hbmUndefine_efe (a n : Nat) (s : State) : (hbmUndefine a n s).efe = s.efe := rfl
@[simp] theorem hbmUndefine_stu (a n : Nat) (s : State) : (hbmUndefine a n s).stu = s.stu := rfl
@[simp] theorem hbmUndefine_sic (a n : Nat) (s : State) : (hbmUndefine a n s).sic = s.sic := rfl
@[simp] theorem hbmUndefine_ae (a n : Nat) (s : State) : (hbmUndefine a n s).ae = s.ae := rfl
@[simp] theorem hbmUndefine_sq (a n : Nat) (s : State) : (hbmUndefine a n s).sq = s.sq := rfl
@[simp] theorem hbmUndefine_dd (a n : Nat) (s : State) : (hbmUndefine a n s).dd = s.dd := rfl
@[simp] theorem hbmUndefine_fhp (a n : Nat) (s : State) : (hbmUndefine a n s).fhp = s.fhp := rfl
@[simp] theorem hbmUndefine_twn (a n : Nat) (s : State) : (hbmUndefine a n s).twn = s.twn := rfl
@[simp] theorem hbmUndefine_err (a n : Nat) (s : State) : (hbmUndefine a n s).err = s.err := rfl
@[simp] theorem hbmUndefine_tst (a n : Nat) (s : State) : (hbmUndefine a n s).tst = s.tst := rfl
@[simp] theorem hbmUndefine_pins (a n : Nat) (s : State) : (hbmUndefine a n s).pins = s.pins := rfl
@[simp] theorem hbmUndefine_ctr (a n : Nat) (s : State) : (hbmUndefine a n s).ctr = s.ctr := rfl
@[simp] theorem hbmUndefine_outs (a n : Nat) (s : State) : (hbmUndefine a n s).outs = s.outs := rfl
@[simp] theorem hbmUndefine_fresh (a n : Nat) (s : State) : (hbmUndefine a n s).fresh = s.fresh := rfl
@[simp] theorem hbmUndefine_pending (a n : Nat) (s : State) : (hbmUndefine a n s).pending = s.pending := rfl

/-! `resWrite` writes `mem` alone -/

@[simp] theorem resWrite_nose (a : Nat) (b : List Byte) (s : State) : (resWrite a b s).nose = s.nose := by unfold resWrite resTaint; split <;> rfl
@[simp] theorem resWrite_boot (a : Nat) (b : List Byte) (s : State) : (resWrite a b s).boot = s.boot := by unfold resWrite resTaint; split <;> rfl
@[simp] theorem resWrite_bar0 (a : Nat) (b : List Byte) (s : State) : (resWrite a b s).bar0 = s.bar0 := by unfold resWrite resTaint; split <;> rfl
@[simp] theorem resWrite_frm (a : Nat) (b : List Byte) (s : State) : (resWrite a b s).frm = s.frm := by unfold resWrite resTaint; split <;> rfl
@[simp] theorem resWrite_tb (a : Nat) (b : List Byte) (s : State) : (resWrite a b s).tb = s.tb := by unfold resWrite resTaint; split <;> rfl
@[simp] theorem resWrite_lnk (a : Nat) (b : List Byte) (s : State) : (resWrite a b s).lnk = s.lnk := by unfold resWrite resTaint; split <;> rfl
@[simp] theorem resWrite_efe (a : Nat) (b : List Byte) (s : State) : (resWrite a b s).efe = s.efe := by unfold resWrite resTaint; split <;> rfl
@[simp] theorem resWrite_stu (a : Nat) (b : List Byte) (s : State) : (resWrite a b s).stu = s.stu := by unfold resWrite resTaint; split <;> rfl
@[simp] theorem resWrite_sic (a : Nat) (b : List Byte) (s : State) : (resWrite a b s).sic = s.sic := by unfold resWrite resTaint; split <;> rfl
@[simp] theorem resWrite_ae (a : Nat) (b : List Byte) (s : State) : (resWrite a b s).ae = s.ae := by unfold resWrite resTaint; split <;> rfl
@[simp] theorem resWrite_sq (a : Nat) (b : List Byte) (s : State) : (resWrite a b s).sq = s.sq := by unfold resWrite resTaint; split <;> rfl
@[simp] theorem resWrite_dd (a : Nat) (b : List Byte) (s : State) : (resWrite a b s).dd = s.dd := by unfold resWrite resTaint; split <;> rfl
@[simp] theorem resWrite_fhp (a : Nat) (b : List Byte) (s : State) : (resWrite a b s).fhp = s.fhp := by unfold resWrite resTaint; split <;> rfl
@[simp] theorem resWrite_twn (a : Nat) (b : List Byte) (s : State) : (resWrite a b s).twn = s.twn := by unfold resWrite resTaint; split <;> rfl
@[simp] theorem resWrite_err (a : Nat) (b : List Byte) (s : State) : (resWrite a b s).err = s.err := by unfold resWrite resTaint; split <;> rfl
@[simp] theorem resWrite_tst (a : Nat) (b : List Byte) (s : State) : (resWrite a b s).tst = s.tst := by unfold resWrite resTaint; split <;> rfl
@[simp] theorem resWrite_pins (a : Nat) (b : List Byte) (s : State) : (resWrite a b s).pins = s.pins := by unfold resWrite resTaint; split <;> rfl
@[simp] theorem resWrite_ctr (a : Nat) (b : List Byte) (s : State) : (resWrite a b s).ctr = s.ctr := by unfold resWrite resTaint; split <;> rfl
@[simp] theorem resWrite_outs (a : Nat) (b : List Byte) (s : State) : (resWrite a b s).outs = s.outs := by unfold resWrite resTaint; split <;> rfl
@[simp] theorem resWrite_fresh (a : Nat) (b : List Byte) (s : State) : (resWrite a b s).fresh = s.fresh := by unfold resWrite resTaint; split <;> rfl
@[simp] theorem resWrite_pending (a : Nat) (b : List Byte) (s : State) : (resWrite a b s).pending = s.pending := by unfold resWrite resTaint; split <;> rfl

/-! `laneSet` writes `lnk` alone -/

@[simp] theorem laneSet_nose (e : Nat) (l : Lane) (s : State) : (laneSet e l s).nose = s.nose := rfl
@[simp] theorem laneSet_boot (e : Nat) (l : Lane) (s : State) : (laneSet e l s).boot = s.boot := rfl
@[simp] theorem laneSet_bar0 (e : Nat) (l : Lane) (s : State) : (laneSet e l s).bar0 = s.bar0 := rfl
@[simp] theorem laneSet_frm (e : Nat) (l : Lane) (s : State) : (laneSet e l s).frm = s.frm := rfl
@[simp] theorem laneSet_tb (e : Nat) (l : Lane) (s : State) : (laneSet e l s).tb = s.tb := rfl
@[simp] theorem laneSet_efe (e : Nat) (l : Lane) (s : State) : (laneSet e l s).efe = s.efe := rfl
@[simp] theorem laneSet_stu (e : Nat) (l : Lane) (s : State) : (laneSet e l s).stu = s.stu := rfl
@[simp] theorem laneSet_sic (e : Nat) (l : Lane) (s : State) : (laneSet e l s).sic = s.sic := rfl
@[simp] theorem laneSet_ae (e : Nat) (l : Lane) (s : State) : (laneSet e l s).ae = s.ae := rfl
@[simp] theorem laneSet_sq (e : Nat) (l : Lane) (s : State) : (laneSet e l s).sq = s.sq := rfl
@[simp] theorem laneSet_dd (e : Nat) (l : Lane) (s : State) : (laneSet e l s).dd = s.dd := rfl
@[simp] theorem laneSet_fhp (e : Nat) (l : Lane) (s : State) : (laneSet e l s).fhp = s.fhp := rfl
@[simp] theorem laneSet_mem (e : Nat) (l : Lane) (s : State) : (laneSet e l s).mem = s.mem := rfl
@[simp] theorem laneSet_twn (e : Nat) (l : Lane) (s : State) : (laneSet e l s).twn = s.twn := rfl
@[simp] theorem laneSet_err (e : Nat) (l : Lane) (s : State) : (laneSet e l s).err = s.err := rfl
@[simp] theorem laneSet_tst (e : Nat) (l : Lane) (s : State) : (laneSet e l s).tst = s.tst := rfl
@[simp] theorem laneSet_pins (e : Nat) (l : Lane) (s : State) : (laneSet e l s).pins = s.pins := rfl
@[simp] theorem laneSet_ctr (e : Nat) (l : Lane) (s : State) : (laneSet e l s).ctr = s.ctr := rfl
@[simp] theorem laneSet_outs (e : Nat) (l : Lane) (s : State) : (laneSet e l s).outs = s.outs := rfl
@[simp] theorem laneSet_fresh (e : Nat) (l : Lane) (s : State) : (laneSet e l s).fresh = s.fresh := rfl
@[simp] theorem laneSet_pending (e : Nat) (l : Lane) (s : State) : (laneSet e l s).pending = s.pending := rfl

/-! `rxSetE` writes `efe` alone -/

@[simp] theorem rxSetE_nose (e : Nat) (r : EfeRx) (s : State) : (rxSetE e r s).nose = s.nose := rfl
@[simp] theorem rxSetE_boot (e : Nat) (r : EfeRx) (s : State) : (rxSetE e r s).boot = s.boot := rfl
@[simp] theorem rxSetE_bar0 (e : Nat) (r : EfeRx) (s : State) : (rxSetE e r s).bar0 = s.bar0 := rfl
@[simp] theorem rxSetE_frm (e : Nat) (r : EfeRx) (s : State) : (rxSetE e r s).frm = s.frm := rfl
@[simp] theorem rxSetE_tb (e : Nat) (r : EfeRx) (s : State) : (rxSetE e r s).tb = s.tb := rfl
@[simp] theorem rxSetE_lnk (e : Nat) (r : EfeRx) (s : State) : (rxSetE e r s).lnk = s.lnk := rfl
@[simp] theorem rxSetE_stu (e : Nat) (r : EfeRx) (s : State) : (rxSetE e r s).stu = s.stu := rfl
@[simp] theorem rxSetE_sic (e : Nat) (r : EfeRx) (s : State) : (rxSetE e r s).sic = s.sic := rfl
@[simp] theorem rxSetE_ae (e : Nat) (r : EfeRx) (s : State) : (rxSetE e r s).ae = s.ae := rfl
@[simp] theorem rxSetE_sq (e : Nat) (r : EfeRx) (s : State) : (rxSetE e r s).sq = s.sq := rfl
@[simp] theorem rxSetE_dd (e : Nat) (r : EfeRx) (s : State) : (rxSetE e r s).dd = s.dd := rfl
@[simp] theorem rxSetE_fhp (e : Nat) (r : EfeRx) (s : State) : (rxSetE e r s).fhp = s.fhp := rfl
@[simp] theorem rxSetE_mem (e : Nat) (r : EfeRx) (s : State) : (rxSetE e r s).mem = s.mem := rfl
@[simp] theorem rxSetE_twn (e : Nat) (r : EfeRx) (s : State) : (rxSetE e r s).twn = s.twn := rfl
@[simp] theorem rxSetE_err (e : Nat) (r : EfeRx) (s : State) : (rxSetE e r s).err = s.err := rfl
@[simp] theorem rxSetE_tst (e : Nat) (r : EfeRx) (s : State) : (rxSetE e r s).tst = s.tst := rfl
@[simp] theorem rxSetE_pins (e : Nat) (r : EfeRx) (s : State) : (rxSetE e r s).pins = s.pins := rfl
@[simp] theorem rxSetE_ctr (e : Nat) (r : EfeRx) (s : State) : (rxSetE e r s).ctr = s.ctr := rfl
@[simp] theorem rxSetE_outs (e : Nat) (r : EfeRx) (s : State) : (rxSetE e r s).outs = s.outs := rfl
@[simp] theorem rxSetE_fresh (e : Nat) (r : EfeRx) (s : State) : (rxSetE e r s).fresh = s.fresh := rfl
@[simp] theorem rxSetE_pending (e : Nat) (r : EfeRx) (s : State) : (rxSetE e r s).pending = s.pending := rfl

/-! `txSetE` writes `efe` alone -/

@[simp] theorem txSetE_nose (e : Nat) (t : EfeTx) (s : State) : (txSetE e t s).nose = s.nose := rfl
@[simp] theorem txSetE_boot (e : Nat) (t : EfeTx) (s : State) : (txSetE e t s).boot = s.boot := rfl
@[simp] theorem txSetE_bar0 (e : Nat) (t : EfeTx) (s : State) : (txSetE e t s).bar0 = s.bar0 := rfl
@[simp] theorem txSetE_frm (e : Nat) (t : EfeTx) (s : State) : (txSetE e t s).frm = s.frm := rfl
@[simp] theorem txSetE_tb (e : Nat) (t : EfeTx) (s : State) : (txSetE e t s).tb = s.tb := rfl
@[simp] theorem txSetE_lnk (e : Nat) (t : EfeTx) (s : State) : (txSetE e t s).lnk = s.lnk := rfl
@[simp] theorem txSetE_stu (e : Nat) (t : EfeTx) (s : State) : (txSetE e t s).stu = s.stu := rfl
@[simp] theorem txSetE_sic (e : Nat) (t : EfeTx) (s : State) : (txSetE e t s).sic = s.sic := rfl
@[simp] theorem txSetE_ae (e : Nat) (t : EfeTx) (s : State) : (txSetE e t s).ae = s.ae := rfl
@[simp] theorem txSetE_sq (e : Nat) (t : EfeTx) (s : State) : (txSetE e t s).sq = s.sq := rfl
@[simp] theorem txSetE_dd (e : Nat) (t : EfeTx) (s : State) : (txSetE e t s).dd = s.dd := rfl
@[simp] theorem txSetE_fhp (e : Nat) (t : EfeTx) (s : State) : (txSetE e t s).fhp = s.fhp := rfl
@[simp] theorem txSetE_mem (e : Nat) (t : EfeTx) (s : State) : (txSetE e t s).mem = s.mem := rfl
@[simp] theorem txSetE_twn (e : Nat) (t : EfeTx) (s : State) : (txSetE e t s).twn = s.twn := rfl
@[simp] theorem txSetE_err (e : Nat) (t : EfeTx) (s : State) : (txSetE e t s).err = s.err := rfl
@[simp] theorem txSetE_tst (e : Nat) (t : EfeTx) (s : State) : (txSetE e t s).tst = s.tst := rfl
@[simp] theorem txSetE_pins (e : Nat) (t : EfeTx) (s : State) : (txSetE e t s).pins = s.pins := rfl
@[simp] theorem txSetE_ctr (e : Nat) (t : EfeTx) (s : State) : (txSetE e t s).ctr = s.ctr := rfl
@[simp] theorem txSetE_outs (e : Nat) (t : EfeTx) (s : State) : (txSetE e t s).outs = s.outs := rfl
@[simp] theorem txSetE_fresh (e : Nat) (t : EfeTx) (s : State) : (txSetE e t s).fresh = s.fresh := rfl
@[simp] theorem txSetE_pending (e : Nat) (t : EfeTx) (s : State) : (txSetE e t s).pending = s.pending := rfl

/-! `stuSet` writes `stu` alone -/

@[simp] theorem stuSet_nose (c : Nat) (x : StuC) (s : State) : (stuSet c x s).nose = s.nose := rfl
@[simp] theorem stuSet_boot (c : Nat) (x : StuC) (s : State) : (stuSet c x s).boot = s.boot := rfl
@[simp] theorem stuSet_bar0 (c : Nat) (x : StuC) (s : State) : (stuSet c x s).bar0 = s.bar0 := rfl
@[simp] theorem stuSet_frm (c : Nat) (x : StuC) (s : State) : (stuSet c x s).frm = s.frm := rfl
@[simp] theorem stuSet_tb (c : Nat) (x : StuC) (s : State) : (stuSet c x s).tb = s.tb := rfl
@[simp] theorem stuSet_lnk (c : Nat) (x : StuC) (s : State) : (stuSet c x s).lnk = s.lnk := rfl
@[simp] theorem stuSet_efe (c : Nat) (x : StuC) (s : State) : (stuSet c x s).efe = s.efe := rfl
@[simp] theorem stuSet_sic (c : Nat) (x : StuC) (s : State) : (stuSet c x s).sic = s.sic := rfl
@[simp] theorem stuSet_ae (c : Nat) (x : StuC) (s : State) : (stuSet c x s).ae = s.ae := rfl
@[simp] theorem stuSet_sq (c : Nat) (x : StuC) (s : State) : (stuSet c x s).sq = s.sq := rfl
@[simp] theorem stuSet_dd (c : Nat) (x : StuC) (s : State) : (stuSet c x s).dd = s.dd := rfl
@[simp] theorem stuSet_fhp (c : Nat) (x : StuC) (s : State) : (stuSet c x s).fhp = s.fhp := rfl
@[simp] theorem stuSet_mem (c : Nat) (x : StuC) (s : State) : (stuSet c x s).mem = s.mem := rfl
@[simp] theorem stuSet_twn (c : Nat) (x : StuC) (s : State) : (stuSet c x s).twn = s.twn := rfl
@[simp] theorem stuSet_err (c : Nat) (x : StuC) (s : State) : (stuSet c x s).err = s.err := rfl
@[simp] theorem stuSet_tst (c : Nat) (x : StuC) (s : State) : (stuSet c x s).tst = s.tst := rfl
@[simp] theorem stuSet_pins (c : Nat) (x : StuC) (s : State) : (stuSet c x s).pins = s.pins := rfl
@[simp] theorem stuSet_ctr (c : Nat) (x : StuC) (s : State) : (stuSet c x s).ctr = s.ctr := rfl
@[simp] theorem stuSet_outs (c : Nat) (x : StuC) (s : State) : (stuSet c x s).outs = s.outs := rfl
@[simp] theorem stuSet_fresh (c : Nat) (x : StuC) (s : State) : (stuSet c x s).fresh = s.fresh := rfl
@[simp] theorem stuSet_pending (c : Nat) (x : StuC) (s : State) : (stuSet c x s).pending = s.pending := rfl

/-! `clSet` writes `ae` alone -/

@[simp] theorem clSet_nose (k : Nat) (c : Cluster) (s : State) : (clSet k c s).nose = s.nose := rfl
@[simp] theorem clSet_boot (k : Nat) (c : Cluster) (s : State) : (clSet k c s).boot = s.boot := rfl
@[simp] theorem clSet_bar0 (k : Nat) (c : Cluster) (s : State) : (clSet k c s).bar0 = s.bar0 := rfl
@[simp] theorem clSet_frm (k : Nat) (c : Cluster) (s : State) : (clSet k c s).frm = s.frm := rfl
@[simp] theorem clSet_tb (k : Nat) (c : Cluster) (s : State) : (clSet k c s).tb = s.tb := rfl
@[simp] theorem clSet_lnk (k : Nat) (c : Cluster) (s : State) : (clSet k c s).lnk = s.lnk := rfl
@[simp] theorem clSet_efe (k : Nat) (c : Cluster) (s : State) : (clSet k c s).efe = s.efe := rfl
@[simp] theorem clSet_stu (k : Nat) (c : Cluster) (s : State) : (clSet k c s).stu = s.stu := rfl
@[simp] theorem clSet_sic (k : Nat) (c : Cluster) (s : State) : (clSet k c s).sic = s.sic := rfl
@[simp] theorem clSet_sq (k : Nat) (c : Cluster) (s : State) : (clSet k c s).sq = s.sq := rfl
@[simp] theorem clSet_dd (k : Nat) (c : Cluster) (s : State) : (clSet k c s).dd = s.dd := rfl
@[simp] theorem clSet_fhp (k : Nat) (c : Cluster) (s : State) : (clSet k c s).fhp = s.fhp := rfl
@[simp] theorem clSet_mem (k : Nat) (c : Cluster) (s : State) : (clSet k c s).mem = s.mem := rfl
@[simp] theorem clSet_twn (k : Nat) (c : Cluster) (s : State) : (clSet k c s).twn = s.twn := rfl
@[simp] theorem clSet_err (k : Nat) (c : Cluster) (s : State) : (clSet k c s).err = s.err := rfl
@[simp] theorem clSet_tst (k : Nat) (c : Cluster) (s : State) : (clSet k c s).tst = s.tst := rfl
@[simp] theorem clSet_pins (k : Nat) (c : Cluster) (s : State) : (clSet k c s).pins = s.pins := rfl
@[simp] theorem clSet_ctr (k : Nat) (c : Cluster) (s : State) : (clSet k c s).ctr = s.ctr := rfl
@[simp] theorem clSet_outs (k : Nat) (c : Cluster) (s : State) : (clSet k c s).outs = s.outs := rfl
@[simp] theorem clSet_fresh (k : Nat) (c : Cluster) (s : State) : (clSet k c s).fresh = s.fresh := rfl
@[simp] theorem clSet_pending (k : Nat) (c : Cluster) (s : State) : (clSet k c s).pending = s.pending := rfl

/-! `ctxSet` writes `ae` alone -/

@[simp] theorem ctxSet_nose (k : Nat) (bg : Bool) (c : Ctx) (s : State) : (ctxSet k bg c s).nose = s.nose := rfl
@[simp] theorem ctxSet_boot (k : Nat) (bg : Bool) (c : Ctx) (s : State) : (ctxSet k bg c s).boot = s.boot := rfl
@[simp] theorem ctxSet_bar0 (k : Nat) (bg : Bool) (c : Ctx) (s : State) : (ctxSet k bg c s).bar0 = s.bar0 := rfl
@[simp] theorem ctxSet_frm (k : Nat) (bg : Bool) (c : Ctx) (s : State) : (ctxSet k bg c s).frm = s.frm := rfl
@[simp] theorem ctxSet_tb (k : Nat) (bg : Bool) (c : Ctx) (s : State) : (ctxSet k bg c s).tb = s.tb := rfl
@[simp] theorem ctxSet_lnk (k : Nat) (bg : Bool) (c : Ctx) (s : State) : (ctxSet k bg c s).lnk = s.lnk := rfl
@[simp] theorem ctxSet_efe (k : Nat) (bg : Bool) (c : Ctx) (s : State) : (ctxSet k bg c s).efe = s.efe := rfl
@[simp] theorem ctxSet_stu (k : Nat) (bg : Bool) (c : Ctx) (s : State) : (ctxSet k bg c s).stu = s.stu := rfl
@[simp] theorem ctxSet_sic (k : Nat) (bg : Bool) (c : Ctx) (s : State) : (ctxSet k bg c s).sic = s.sic := rfl
@[simp] theorem ctxSet_sq (k : Nat) (bg : Bool) (c : Ctx) (s : State) : (ctxSet k bg c s).sq = s.sq := rfl
@[simp] theorem ctxSet_dd (k : Nat) (bg : Bool) (c : Ctx) (s : State) : (ctxSet k bg c s).dd = s.dd := rfl
@[simp] theorem ctxSet_fhp (k : Nat) (bg : Bool) (c : Ctx) (s : State) : (ctxSet k bg c s).fhp = s.fhp := rfl
@[simp] theorem ctxSet_mem (k : Nat) (bg : Bool) (c : Ctx) (s : State) : (ctxSet k bg c s).mem = s.mem := rfl
@[simp] theorem ctxSet_twn (k : Nat) (bg : Bool) (c : Ctx) (s : State) : (ctxSet k bg c s).twn = s.twn := rfl
@[simp] theorem ctxSet_err (k : Nat) (bg : Bool) (c : Ctx) (s : State) : (ctxSet k bg c s).err = s.err := rfl
@[simp] theorem ctxSet_tst (k : Nat) (bg : Bool) (c : Ctx) (s : State) : (ctxSet k bg c s).tst = s.tst := rfl
@[simp] theorem ctxSet_pins (k : Nat) (bg : Bool) (c : Ctx) (s : State) : (ctxSet k bg c s).pins = s.pins := rfl
@[simp] theorem ctxSet_ctr (k : Nat) (bg : Bool) (c : Ctx) (s : State) : (ctxSet k bg c s).ctr = s.ctr := rfl
@[simp] theorem ctxSet_outs (k : Nat) (bg : Bool) (c : Ctx) (s : State) : (ctxSet k bg c s).outs = s.outs := rfl
@[simp] theorem ctxSet_fresh (k : Nat) (bg : Bool) (c : Ctx) (s : State) : (ctxSet k bg c s).fresh = s.fresh := rfl
@[simp] theorem ctxSet_pending (k : Nat) (bg : Bool) (c : Ctx) (s : State) : (ctxSet k bg c s).pending = s.pending := rfl

/-! `fifoSet` writes `sq` alone -/

@[simp] theorem fifoSet_nose (i : Nat) (f : Fifo) (s : State) : (fifoSet i f s).nose = s.nose := rfl
@[simp] theorem fifoSet_boot (i : Nat) (f : Fifo) (s : State) : (fifoSet i f s).boot = s.boot := rfl
@[simp] theorem fifoSet_bar0 (i : Nat) (f : Fifo) (s : State) : (fifoSet i f s).bar0 = s.bar0 := rfl
@[simp] theorem fifoSet_frm (i : Nat) (f : Fifo) (s : State) : (fifoSet i f s).frm = s.frm := rfl
@[simp] theorem fifoSet_tb (i : Nat) (f : Fifo) (s : State) : (fifoSet i f s).tb = s.tb := rfl
@[simp] theorem fifoSet_lnk (i : Nat) (f : Fifo) (s : State) : (fifoSet i f s).lnk = s.lnk := rfl
@[simp] theorem fifoSet_efe (i : Nat) (f : Fifo) (s : State) : (fifoSet i f s).efe = s.efe := rfl
@[simp] theorem fifoSet_stu (i : Nat) (f : Fifo) (s : State) : (fifoSet i f s).stu = s.stu := rfl
@[simp] theorem fifoSet_sic (i : Nat) (f : Fifo) (s : State) : (fifoSet i f s).sic = s.sic := rfl
@[simp] theorem fifoSet_ae (i : Nat) (f : Fifo) (s : State) : (fifoSet i f s).ae = s.ae := rfl
@[simp] theorem fifoSet_dd (i : Nat) (f : Fifo) (s : State) : (fifoSet i f s).dd = s.dd := rfl
@[simp] theorem fifoSet_fhp (i : Nat) (f : Fifo) (s : State) : (fifoSet i f s).fhp = s.fhp := rfl
@[simp] theorem fifoSet_mem (i : Nat) (f : Fifo) (s : State) : (fifoSet i f s).mem = s.mem := rfl
@[simp] theorem fifoSet_twn (i : Nat) (f : Fifo) (s : State) : (fifoSet i f s).twn = s.twn := rfl
@[simp] theorem fifoSet_err (i : Nat) (f : Fifo) (s : State) : (fifoSet i f s).err = s.err := rfl
@[simp] theorem fifoSet_tst (i : Nat) (f : Fifo) (s : State) : (fifoSet i f s).tst = s.tst := rfl
@[simp] theorem fifoSet_pins (i : Nat) (f : Fifo) (s : State) : (fifoSet i f s).pins = s.pins := rfl
@[simp] theorem fifoSet_ctr (i : Nat) (f : Fifo) (s : State) : (fifoSet i f s).ctr = s.ctr := rfl
@[simp] theorem fifoSet_outs (i : Nat) (f : Fifo) (s : State) : (fifoSet i f s).outs = s.outs := rfl
@[simp] theorem fifoSet_fresh (i : Nat) (f : Fifo) (s : State) : (fifoSet i f s).fresh = s.fresh := rfl
@[simp] theorem fifoSet_pending (i : Nat) (f : Fifo) (s : State) : (fifoSet i f s).pending = s.pending := rfl

/-! `ringPut` writes `sq` alone -/

@[simp] theorem ringPut_nose (q : Nat) (r : Ring) (s : State) : (ringPut q r s).nose = s.nose := rfl
@[simp] theorem ringPut_boot (q : Nat) (r : Ring) (s : State) : (ringPut q r s).boot = s.boot := rfl
@[simp] theorem ringPut_bar0 (q : Nat) (r : Ring) (s : State) : (ringPut q r s).bar0 = s.bar0 := rfl
@[simp] theorem ringPut_frm (q : Nat) (r : Ring) (s : State) : (ringPut q r s).frm = s.frm := rfl
@[simp] theorem ringPut_tb (q : Nat) (r : Ring) (s : State) : (ringPut q r s).tb = s.tb := rfl
@[simp] theorem ringPut_lnk (q : Nat) (r : Ring) (s : State) : (ringPut q r s).lnk = s.lnk := rfl
@[simp] theorem ringPut_efe (q : Nat) (r : Ring) (s : State) : (ringPut q r s).efe = s.efe := rfl
@[simp] theorem ringPut_stu (q : Nat) (r : Ring) (s : State) : (ringPut q r s).stu = s.stu := rfl
@[simp] theorem ringPut_sic (q : Nat) (r : Ring) (s : State) : (ringPut q r s).sic = s.sic := rfl
@[simp] theorem ringPut_ae (q : Nat) (r : Ring) (s : State) : (ringPut q r s).ae = s.ae := rfl
@[simp] theorem ringPut_dd (q : Nat) (r : Ring) (s : State) : (ringPut q r s).dd = s.dd := rfl
@[simp] theorem ringPut_fhp (q : Nat) (r : Ring) (s : State) : (ringPut q r s).fhp = s.fhp := rfl
@[simp] theorem ringPut_mem (q : Nat) (r : Ring) (s : State) : (ringPut q r s).mem = s.mem := rfl
@[simp] theorem ringPut_twn (q : Nat) (r : Ring) (s : State) : (ringPut q r s).twn = s.twn := rfl
@[simp] theorem ringPut_err (q : Nat) (r : Ring) (s : State) : (ringPut q r s).err = s.err := rfl
@[simp] theorem ringPut_tst (q : Nat) (r : Ring) (s : State) : (ringPut q r s).tst = s.tst := rfl
@[simp] theorem ringPut_pins (q : Nat) (r : Ring) (s : State) : (ringPut q r s).pins = s.pins := rfl
@[simp] theorem ringPut_ctr (q : Nat) (r : Ring) (s : State) : (ringPut q r s).ctr = s.ctr := rfl
@[simp] theorem ringPut_outs (q : Nat) (r : Ring) (s : State) : (ringPut q r s).outs = s.outs := rfl
@[simp] theorem ringPut_fresh (q : Nat) (r : Ring) (s : State) : (ringPut q r s).fresh = s.fresh := rfl
@[simp] theorem ringPut_pending (q : Nat) (r : Ring) (s : State) : (ringPut q r s).pending = s.pending := rfl

/-! `pcSet` writes `mem` alone -/

@[simp] theorem pcSet_nose (p : Nat) (v : PcSt) (s : State) : (pcSet p v s).nose = s.nose := rfl
@[simp] theorem pcSet_boot (p : Nat) (v : PcSt) (s : State) : (pcSet p v s).boot = s.boot := rfl
@[simp] theorem pcSet_bar0 (p : Nat) (v : PcSt) (s : State) : (pcSet p v s).bar0 = s.bar0 := rfl
@[simp] theorem pcSet_frm (p : Nat) (v : PcSt) (s : State) : (pcSet p v s).frm = s.frm := rfl
@[simp] theorem pcSet_tb (p : Nat) (v : PcSt) (s : State) : (pcSet p v s).tb = s.tb := rfl
@[simp] theorem pcSet_lnk (p : Nat) (v : PcSt) (s : State) : (pcSet p v s).lnk = s.lnk := rfl
@[simp] theorem pcSet_efe (p : Nat) (v : PcSt) (s : State) : (pcSet p v s).efe = s.efe := rfl
@[simp] theorem pcSet_stu (p : Nat) (v : PcSt) (s : State) : (pcSet p v s).stu = s.stu := rfl
@[simp] theorem pcSet_sic (p : Nat) (v : PcSt) (s : State) : (pcSet p v s).sic = s.sic := rfl
@[simp] theorem pcSet_ae (p : Nat) (v : PcSt) (s : State) : (pcSet p v s).ae = s.ae := rfl
@[simp] theorem pcSet_sq (p : Nat) (v : PcSt) (s : State) : (pcSet p v s).sq = s.sq := rfl
@[simp] theorem pcSet_dd (p : Nat) (v : PcSt) (s : State) : (pcSet p v s).dd = s.dd := rfl
@[simp] theorem pcSet_fhp (p : Nat) (v : PcSt) (s : State) : (pcSet p v s).fhp = s.fhp := rfl
@[simp] theorem pcSet_twn (p : Nat) (v : PcSt) (s : State) : (pcSet p v s).twn = s.twn := rfl
@[simp] theorem pcSet_err (p : Nat) (v : PcSt) (s : State) : (pcSet p v s).err = s.err := rfl
@[simp] theorem pcSet_tst (p : Nat) (v : PcSt) (s : State) : (pcSet p v s).tst = s.tst := rfl
@[simp] theorem pcSet_pins (p : Nat) (v : PcSt) (s : State) : (pcSet p v s).pins = s.pins := rfl
@[simp] theorem pcSet_ctr (p : Nat) (v : PcSt) (s : State) : (pcSet p v s).ctr = s.ctr := rfl
@[simp] theorem pcSet_outs (p : Nat) (v : PcSt) (s : State) : (pcSet p v s).outs = s.outs := rfl
@[simp] theorem pcSet_fresh (p : Nat) (v : PcSt) (s : State) : (pcSet p v s).fresh = s.fresh := rfl
@[simp] theorem pcSet_pending (p : Nat) (v : PcSt) (s : State) : (pcSet p v s).pending = s.pending := rfl

/-! `capSet` writes `tst` alone -/

@[simp] theorem capSet_nose (n : Nat) (c : Capture) (s : State) : (capSet n c s).nose = s.nose := rfl
@[simp] theorem capSet_boot (n : Nat) (c : Capture) (s : State) : (capSet n c s).boot = s.boot := rfl
@[simp] theorem capSet_bar0 (n : Nat) (c : Capture) (s : State) : (capSet n c s).bar0 = s.bar0 := rfl
@[simp] theorem capSet_frm (n : Nat) (c : Capture) (s : State) : (capSet n c s).frm = s.frm := rfl
@[simp] theorem capSet_tb (n : Nat) (c : Capture) (s : State) : (capSet n c s).tb = s.tb := rfl
@[simp] theorem capSet_lnk (n : Nat) (c : Capture) (s : State) : (capSet n c s).lnk = s.lnk := rfl
@[simp] theorem capSet_efe (n : Nat) (c : Capture) (s : State) : (capSet n c s).efe = s.efe := rfl
@[simp] theorem capSet_stu (n : Nat) (c : Capture) (s : State) : (capSet n c s).stu = s.stu := rfl
@[simp] theorem capSet_sic (n : Nat) (c : Capture) (s : State) : (capSet n c s).sic = s.sic := rfl
@[simp] theorem capSet_ae (n : Nat) (c : Capture) (s : State) : (capSet n c s).ae = s.ae := rfl
@[simp] theorem capSet_sq (n : Nat) (c : Capture) (s : State) : (capSet n c s).sq = s.sq := rfl
@[simp] theorem capSet_dd (n : Nat) (c : Capture) (s : State) : (capSet n c s).dd = s.dd := rfl
@[simp] theorem capSet_fhp (n : Nat) (c : Capture) (s : State) : (capSet n c s).fhp = s.fhp := rfl
@[simp] theorem capSet_mem (n : Nat) (c : Capture) (s : State) : (capSet n c s).mem = s.mem := rfl
@[simp] theorem capSet_twn (n : Nat) (c : Capture) (s : State) : (capSet n c s).twn = s.twn := rfl
@[simp] theorem capSet_err (n : Nat) (c : Capture) (s : State) : (capSet n c s).err = s.err := rfl
@[simp] theorem capSet_pins (n : Nat) (c : Capture) (s : State) : (capSet n c s).pins = s.pins := rfl
@[simp] theorem capSet_ctr (n : Nat) (c : Capture) (s : State) : (capSet n c s).ctr = s.ctr := rfl
@[simp] theorem capSet_outs (n : Nat) (c : Capture) (s : State) : (capSet n c s).outs = s.outs := rfl
@[simp] theorem capSet_fresh (n : Nat) (c : Capture) (s : State) : (capSet n c s).fresh = s.fresh := rfl
@[simp] theorem capSet_pending (n : Nat) (c : Capture) (s : State) : (capSet n c s).pending = s.pending := rfl

/-! `ptpSet` writes `tb` alone -/

@[simp] theorem ptpSet_nose (p : Nat) (v : PtpPort) (s : State) : (ptpSet p v s).nose = s.nose := rfl
@[simp] theorem ptpSet_boot (p : Nat) (v : PtpPort) (s : State) : (ptpSet p v s).boot = s.boot := rfl
@[simp] theorem ptpSet_bar0 (p : Nat) (v : PtpPort) (s : State) : (ptpSet p v s).bar0 = s.bar0 := rfl
@[simp] theorem ptpSet_frm (p : Nat) (v : PtpPort) (s : State) : (ptpSet p v s).frm = s.frm := rfl
@[simp] theorem ptpSet_lnk (p : Nat) (v : PtpPort) (s : State) : (ptpSet p v s).lnk = s.lnk := rfl
@[simp] theorem ptpSet_efe (p : Nat) (v : PtpPort) (s : State) : (ptpSet p v s).efe = s.efe := rfl
@[simp] theorem ptpSet_stu (p : Nat) (v : PtpPort) (s : State) : (ptpSet p v s).stu = s.stu := rfl
@[simp] theorem ptpSet_sic (p : Nat) (v : PtpPort) (s : State) : (ptpSet p v s).sic = s.sic := rfl
@[simp] theorem ptpSet_ae (p : Nat) (v : PtpPort) (s : State) : (ptpSet p v s).ae = s.ae := rfl
@[simp] theorem ptpSet_sq (p : Nat) (v : PtpPort) (s : State) : (ptpSet p v s).sq = s.sq := rfl
@[simp] theorem ptpSet_dd (p : Nat) (v : PtpPort) (s : State) : (ptpSet p v s).dd = s.dd := rfl
@[simp] theorem ptpSet_fhp (p : Nat) (v : PtpPort) (s : State) : (ptpSet p v s).fhp = s.fhp := rfl
@[simp] theorem ptpSet_mem (p : Nat) (v : PtpPort) (s : State) : (ptpSet p v s).mem = s.mem := rfl
@[simp] theorem ptpSet_twn (p : Nat) (v : PtpPort) (s : State) : (ptpSet p v s).twn = s.twn := rfl
@[simp] theorem ptpSet_err (p : Nat) (v : PtpPort) (s : State) : (ptpSet p v s).err = s.err := rfl
@[simp] theorem ptpSet_tst (p : Nat) (v : PtpPort) (s : State) : (ptpSet p v s).tst = s.tst := rfl
@[simp] theorem ptpSet_pins (p : Nat) (v : PtpPort) (s : State) : (ptpSet p v s).pins = s.pins := rfl
@[simp] theorem ptpSet_ctr (p : Nat) (v : PtpPort) (s : State) : (ptpSet p v s).ctr = s.ctr := rfl
@[simp] theorem ptpSet_outs (p : Nat) (v : PtpPort) (s : State) : (ptpSet p v s).outs = s.outs := rfl
@[simp] theorem ptpSet_fresh (p : Nat) (v : PtpPort) (s : State) : (ptpSet p v s).fresh = s.fresh := rfl
@[simp] theorem ptpSet_pending (p : Nat) (v : PtpPort) (s : State) : (ptpSet p v s).pending = s.pending := rfl

/-! `freeVal` moves on in the free values alone -/

@[simp] theorem freeVal_nose (kind : Nat) (s : State) : (freeVal kind s).2.nose = s.nose := rfl
@[simp] theorem freeVal_boot (kind : Nat) (s : State) : (freeVal kind s).2.boot = s.boot := rfl
@[simp] theorem freeVal_bar0 (kind : Nat) (s : State) : (freeVal kind s).2.bar0 = s.bar0 := rfl
@[simp] theorem freeVal_frm (kind : Nat) (s : State) : (freeVal kind s).2.frm = s.frm := rfl
@[simp] theorem freeVal_tb (kind : Nat) (s : State) : (freeVal kind s).2.tb = s.tb := rfl
@[simp] theorem freeVal_lnk (kind : Nat) (s : State) : (freeVal kind s).2.lnk = s.lnk := rfl
@[simp] theorem freeVal_efe (kind : Nat) (s : State) : (freeVal kind s).2.efe = s.efe := rfl
@[simp] theorem freeVal_stu (kind : Nat) (s : State) : (freeVal kind s).2.stu = s.stu := rfl
@[simp] theorem freeVal_sic (kind : Nat) (s : State) : (freeVal kind s).2.sic = s.sic := rfl
@[simp] theorem freeVal_ae (kind : Nat) (s : State) : (freeVal kind s).2.ae = s.ae := rfl
@[simp] theorem freeVal_sq (kind : Nat) (s : State) : (freeVal kind s).2.sq = s.sq := rfl
@[simp] theorem freeVal_dd (kind : Nat) (s : State) : (freeVal kind s).2.dd = s.dd := rfl
@[simp] theorem freeVal_fhp (kind : Nat) (s : State) : (freeVal kind s).2.fhp = s.fhp := rfl
@[simp] theorem freeVal_mem (kind : Nat) (s : State) : (freeVal kind s).2.mem = s.mem := rfl
@[simp] theorem freeVal_twn (kind : Nat) (s : State) : (freeVal kind s).2.twn = s.twn := rfl
@[simp] theorem freeVal_err (kind : Nat) (s : State) : (freeVal kind s).2.err = s.err := rfl
@[simp] theorem freeVal_tst (kind : Nat) (s : State) : (freeVal kind s).2.tst = s.tst := rfl
@[simp] theorem freeVal_pins (kind : Nat) (s : State) : (freeVal kind s).2.pins = s.pins := rfl
@[simp] theorem freeVal_ctr (kind : Nat) (s : State) : (freeVal kind s).2.ctr = s.ctr := rfl
@[simp] theorem freeVal_outs (kind : Nat) (s : State) : (freeVal kind s).2.outs = s.outs := rfl
@[simp] theorem freeVal_pending (kind : Nat) (s : State) : (freeVal kind s).2.pending = s.pending := rfl
@[simp] theorem freeVal_fresh (kind : Nat) (s : State) : (freeVal kind s).2.fresh = s.fresh + 1 := rfl

/-! A read after a write -/

@[simp] theorem laneOf_laneSet (e : Nat) (l : Lane) (s : State) : laneOf (laneSet e l s) e = l := get_put_eq _ _ _ _
theorem laneOf_laneSet_ne {e i : Nat} (l : Lane) (s : State) (h : i ≠ e) : laneOf (laneSet e l s) i = laneOf s i :=
  get_put_ne _ _ _ h
@[simp] theorem rxOf_rxSetE (e : Nat) (r : EfeRx) (s : State) : rxOf (rxSetE e r s) e = r := get_put_eq _ _ _ _
theorem rxOf_rxSetE_ne {e i : Nat} (r : EfeRx) (s : State) (h : i ≠ e) : rxOf (rxSetE e r s) i = rxOf s i :=
  get_put_ne _ _ _ h
@[simp] theorem txOf_txSetE (e : Nat) (t : EfeTx) (s : State) : txOf (txSetE e t s) e = t := get_put_eq _ _ _ _
theorem txOf_txSetE_ne {e i : Nat} (t : EfeTx) (s : State) (h : i ≠ e) : txOf (txSetE e t s) i = txOf s i :=
  get_put_ne _ _ _ h
@[simp] theorem stuOf_stuSet (c : Nat) (x : StuC) (s : State) : stuOf (stuSet c x s) c = x := get_put_eq _ _ _ _
theorem stuOf_stuSet_ne {c i : Nat} (x : StuC) (s : State) (h : i ≠ c) : stuOf (stuSet c x s) i = stuOf s i :=
  get_put_ne _ _ _ h
@[simp] theorem clOf_clSet (k : Nat) (c : Cluster) (s : State) : clOf (clSet k c s) k = c := get_put_eq _ _ _ _
theorem clOf_clSet_ne {k i : Nat} (c : Cluster) (s : State) (h : i ≠ k) : clOf (clSet k c s) i = clOf s i :=
  get_put_ne _ _ _ h
@[simp] theorem fifoOf_fifoSet (i : Nat) (f : Fifo) (s : State) : fifoOf (fifoSet i f s) i = f := get_put_eq _ _ _ _
theorem fifoOf_fifoSet_ne {i j : Nat} (f : Fifo) (s : State) (h : j ≠ i) : fifoOf (fifoSet i f s) j = fifoOf s j :=
  get_put_ne _ _ _ h
@[simp] theorem pcOf_pcSet (p : Nat) (v : PcSt) (s : State) : pcOf (pcSet p v s) p = v := get_put_eq _ _ _ _
theorem pcOf_pcSet_ne {p i : Nat} (v : PcSt) (s : State) (h : i ≠ p) : pcOf (pcSet p v s) i = pcOf s i :=
  get_put_ne _ _ _ h
@[simp] theorem capGet_capSet (n : Nat) (c : Capture) (s : State) : capGet (capSet n c s) n = c := get_put_eq _ _ _ _
theorem capGet_capSet_ne {n i : Nat} (c : Capture) (s : State) (h : i ≠ n) : capGet (capSet n c s) i = capGet s i :=
  get_put_ne _ _ _ h
@[simp] theorem portGet_portSet (p : Nat) (v : PortSt) (s : State) : portGet (portSet p v s) p = v := get_put_eq _ _ _ _
theorem portGet_portSet_ne {p i : Nat} (v : PortSt) (s : State) (h : i ≠ p) : portGet (portSet p v s) i = portGet s i :=
  get_put_ne _ _ _ h

@[simp] theorem ringState_ringPut (q : Nat) (r : Ring) (s : State) : ringState (ringPut q r s) q = r := by
  unfold ringState ringPut
  simp
@[simp] theorem ctxGet_ctxSet (k : Nat) (bg : Bool) (c : Ctx) (s : State) : ctxGet (ctxSet k bg c s) k bg = c := by
  unfold ctxGet ctxSet
  cases bg <;> simp
@[simp] theorem emit_outs (o : Out) (s : State) : (emit o s).outs = o :: s.outs := rfl

end Sys2Proof.Machine
end

