-- ==== Sys2Proof/Laws/Still.lean ====
section
/-! SUPPORT. What the effect of a mailbox command leaves alone, so that the command can be answered: the response ring's
indexes, the time and the ports (`f_still` is the lemma of `f`). -/

namespace Sys2Proof.Machine

/-- The parts of a state that answering a command looks at. -/
@[reducible] def answering (no : NoseSt) (tb : TbSt) (fh : FhpSt) := (no.rspProd, no.rspCons, tb.t40, fh.ports)

/-- `s` has the parts that answering looks at as `s0` has them. -/
structure Still (s0 s : State) : Prop where
  same : answering s.nose s.tb s.fhp = answering s0.nose s0.tb s0.fhp

theorem Still.refl (s : State) : Still s s := ⟨rfl⟩
theorem Still.trans {a b c : State} (h : Still a b) (k : Still b c) : Still a c := ⟨k.same.trans h.same⟩

theorem Still.mk' {s0 s : State} {no bo b0 f tb l e st si ae sq dd fh m tw er ts pi c o fr pe}
    (h : Still s0 s) (e0 : answering no tb fh = answering s.nose s.tb s.fhp) :
    Still s0 (State.mk no bo b0 f tb l e st si ae sq dd fh m tw er ts pi c o fr pe) := ⟨e0.trans h.same⟩

theorem still_ite {s0 : State} {c : Prop} [Decidable c] {a b : State} (h1 : Still s0 a) (h2 : Still s0 b) :
    Still s0 (if c then a else b) := by split <;> assumption
theorem still_ite2 {α : Type} {s0 : State} {c : Prop} [Decidable c] {a b : α × State} (h1 : Still s0 a.2) (h2 : Still s0 b.2) :
    Still s0 (if c then a else b).2 := by split <;> assumption
theorem still_ite1 {α : Type} {s0 : State} {c : Prop} [Decidable c] {a b : State × α} (h1 : Still s0 a.1) (h2 : Still s0 b.1) :
    Still s0 (if c then a else b).1 := by split <;> assumption

theorem foldl_still {α : Type} {s0 : State} {l : List α} {f : State → α → State} {s : State}
    (hf : ∀ s x, Still s0 s → Still s0 (f s x)) (h : Still s0 s) : Still s0 (l.foldl f s) := by
  induction l generalizing s with
  | nil => exact h
  | cons x t ih => exact ih (hf s x h)

theorem elim_still {α : Type} {s0 : State} {o : Option α} {d : State} {f : α → State}
    (h1 : Still s0 d) (h2 : ∀ x, Still s0 (f x)) : Still s0 (o.elim d f) := by
  cases o
  · exact h1
  · exact h2 _

theorem emit_still {s0 s : State} (hk : Still s0 s) (o : Out) : Still s0 (emit o s) := Still.mk' hk rfl

theorem countBy_still {s0 s : State} (hk : Still s0 s) (code idx n : Nat) : Still s0 (countBy code idx n s) :=
  Still.mk' hk rfl

theorem freeVal_still {s0 s : State} (hk : Still s0 s) (kind : Nat) : Still s0 (freeVal kind s).2 := Still.mk' hk rfl

theorem hbmWrite_still {s0 s : State} (hk : Still s0 s) (a : Nat) (b : List Byte) : Still s0 (hbmWrite a b s) :=
  Still.mk' hk rfl

theorem hbmUndefine_still {s0 s : State} (hk : Still s0 s) (a n : Nat) : Still s0 (hbmUndefine a n s) :=
  Still.mk' hk rfl

theorem count_still {s0 : State} (code : Nat) (idx : Nat) {s : State} (hk : Still s0 s) : Still s0
    (count code idx s) := by
  unfold count
  apply countBy_still; exact hk

theorem macSend_still {s0 : State} (p : Nat) (len : Nat) (o : Out) {s : State} (hk : Still s0 s) : Still s0
    (macSend p len o s) := by
  unfold macSend
  refine still_ite ?_ ?_
  · apply countBy_still; apply count_still; apply emit_still; exact hk
  · apply count_still; exact hk

theorem sendEvt_still {s0 : State} (p : Nat) (m : Mac) (e : Event) {s : State} (hk : Still s0 s) : Still s0
    (sendEvt p m e s) := by
  unfold sendEvt
  apply macSend_still; exact hk

theorem writeEvent_still {s0 s : State} (code unit : Nat) (beat : Stamp) (payload : List Fld) (hk : Still s0 s) :
    Still s0 (writeEvent code unit beat payload s) := by
  unfold writeEvent
  dsimp only
  split
  · apply sendEvt_still; exact Still.mk' hk rfl
  · exact Still.mk' hk rfl

theorem raiseAt_still {s0 s : State} (code unit : Nat) (beat : Stamp) (payload : List Fld) (hk : Still s0 s) :
    Still s0 (raiseAt code unit beat payload s) := by
  unfold raiseAt
  extract_lets m full
  refine still_ite ?_ (still_ite ?_ ?_)
  · apply count_still; exact hk
  · apply count_still; exact Still.mk' hk rfl
  · apply writeEvent_still; exact hk

theorem raiseEv_still {s0 : State} (code : Nat) (unit : Nat) (payload : List Fld) {s : State} (hk : Still s0 s)
    : Still s0 (raiseEv code unit payload s) := by
  unfold raiseEv
  apply raiseAt_still; exact hk

theorem sendTw_still {s0 : State} (flags : Nat) (body : TwBody) {s : State} (hk : Still s0 s) : Still s0
    (sendTw flags body s) := by
  unfold sendTw
  refine still_ite ?_ ?_
  · apply emit_still; exact Still.mk' hk rfl
  · exact hk

theorem logVerdict_still {s0 : State} (v : Verdict) {s : State} (hk : Still s0 s) : Still s0 (logVerdict v s) := by
  unfold logVerdict
  extract_lets l0 l1 l2 l3 l4; clear_value l0 l1 l2 l3 l4
  refine still_ite ?_ ?_
  · exact Still.mk' hk rfl
  · apply count_still; exact Still.mk' hk rfl

theorem sendTwLead_still {s0 : State} (flags : Nat) (body : TwBody) {s : State} (hk : Still s0 s) : Still s0
    (sendTwLead flags body s) := by
  unfold sendTwLead
  refine still_ite ?_ ?_
  · apply sendTw_still; exact hk
  · exact hk

theorem makeVerdict_still {s0 : State} (cls : Nat) (unit : Nat) (beat : Stamp) (payload : Nat) {s : State} (hk
    : Still s0 s) : Still s0 (makeVerdict cls unit beat payload s) := by
  unfold makeVerdict
  extract_lets l0 l1 l2 l3 l4; clear_value l0 l1 l2 l3
  have hl4 : Still s0 l4 := by
    unfold l4; apply logVerdict_still; exact Still.mk' hk rfl
  clear_value l4
  refine still_ite ?_ ?_
  · exact Still.mk' hk rfl
  · refine still_ite ?_ ?_
    · apply sendTwLead_still; exact hl4
    · exact hl4

theorem reportLost_still {s0 s : State} (hk : Still s0 s) : Still s0 (reportLost s) := by
  unfold reportLost
  split
  · exact hk
  · apply writeEvent_still; exact Still.mk' hk rfl

theorem beginHandover_still {s0 : State} (planned : BitVec 8) {s : State} (hk : Still s0 s) : Still s0
    (beginHandover planned s) := by
  unfold beginHandover
  split
  · exact hk
  · extract_lets l0 l1 l2; clear_value l0 l1 l2; apply sendTw_still; exact Still.mk' hk rfl

theorem enterSlot_still {s0 : State} (k : Nat) (r : ErrRec) {s : State} (hk : Still s0 s) : Still s0
    (enterSlot k r s) := by
  unfold enterSlot
  extract_lets l0 l1 l2 l3; clear_value l0 l1
  have hl3 : Still s0 l3 := by
    unfold l3; exact Still.mk' hk rfl
  clear_value l3
  refine still_ite ?_ ?_
  · apply beginHandover_still; exact hl3
  · exact hl3

theorem joinQueue_still {s0 : State} (k : Nat) (r : ErrRec) {s : State} (hk : Still s0 s) : Still s0
    (joinQueue k r s) := by
  unfold joinQueue
  extract_lets l0 l1 l2 l3; clear_value l0 l2 l3
  refine still_ite ?_ ?_
  · exact Still.mk' hk rfl
  · apply count_still; exact Still.mk' hk rfl

theorem acceptRecord_still {s0 : State} (k : Nat) (r : ErrRec) {s : State} (hk : Still s0 s) : Still s0
    (acceptRecord k r s) := by
  unfold acceptRecord
  split
  · apply enterSlot_still; exact hk
  · refine still_ite ?_ ?_
    · apply enterSlot_still; apply joinQueue_still; exact Still.mk' hk rfl
    · apply joinQueue_still; exact hk

theorem updateSummary_still {s0 : State} {s : State} (hk : Still s0 s) : Still s0 (updateSummary s) := by
  unfold updateSummary
  extract_lets l0 l1 l2 l3 l4 l5 l6; clear_value l0 l1 l2 l3 l4 l5 l6; exact Still.mk' hk rfl

theorem logRecord_still {s0 s : State} (k : Nat) (r : ErrRec) (hk : Still s0 s) : Still s0 (logRecord k r s) := by
  unfold logRecord
  extract_lets r1 log1 log2 q b1 e1 s1 s2 e2 s3
  have h2 : Still s0 s2 := raiseEv_still _ _ _ (Still.mk' hk rfl)
  refine updateSummary_still ?_
  show Still s0 (match bestPending q with
    | some n => enterSlot k n _
    | none => s2)
  split
  · exact enterSlot_still _ _ (Still.mk' h2 rfl)
  · exact h2

theorem recordDetection_still {s0 : State} (code : Nat) (unit : Nat) (inst : Nat) (sev : Nat) (detail
    : BitVec 256) {s : State} (hk : Still s0 s) : Still s0 (recordDetection code unit inst sev detail s) := by
  unfold recordDetection
  extract_lets l0 l1 l2 l3 l4 l5 l6 l7; clear_value l0 l1 l2 l3 l4 l6
  have hl7 : Still s0 l7 := by
    unfold l7; apply acceptRecord_still; exact Still.mk' hk rfl
  clear_value l7
  refine still_ite ?_ ?_
  · exact Still.mk' hk rfl
  · refine still_ite ?_ ?_
    · split
      · refine still_ite ?_ ?_
        · apply logRecord_still; exact hl7
        · exact hl7
      · exact hl7
    · exact hl7

theorem raiseErr_still {s0 : State} (code : Nat) (unit : Nat) (inst : Nat) (sev : Nat) (detail : BitVec 256) {s
    : State} (hk : Still s0 s) : Still s0 (raiseErr code unit inst sev detail s) := by
  unfold raiseErr
  extract_lets l0 l1 l2 l3 l4 l5 l6 l7
  have hl0 : Still s0 l0 := by
    unfold l0; apply recordDetection_still; exact hk
  clear_value l0 l1 l2 l3 l4 l5 l6
  refine still_ite ?_ ?_
  · exact hl0
  · refine still_ite ?_ ?_
    · apply recordDetection_still; exact Still.mk' hl0 rfl
    · exact Still.mk' hl0 rfl

theorem releaseFences_still {s0 : State} {s : State} (hk : Still s0 s) : Still s0 (releaseFences s) := by
  unfold releaseFences
  with_reducible refine foldl_still ?_ ?_
  · intro v0 v1 v2; apply raiseEv_still; exact v2
  · exact Still.mk' hk rfl

theorem goUnfit_still {s0 : State} (cause : Nat) {s : State} (hk : Still s0 s) : Still s0 (goUnfit cause s) := by
  unfold goUnfit
  refine still_ite ?_ ?_
  · exact hk
  · apply raiseEv_still; exact Still.mk' hk rfl

theorem failHostJobs_still {s0 : State} (p : JobBody → Bool) (result : Nat) {s : State} (hk : Still s0 s)
    : Still s0 (failHostJobs p result s) := by
  unfold failHostJobs
  exact Still.mk' hk rfl

theorem ddFreeze_still {s0 : State} (f : Nat) {s : State} (hk : Still s0 s) : Still s0 (ddFreeze f s) := by
  unfold ddFreeze
  extract_lets l0 l1
  have hl0 : Still s0 l0 := by
    unfold l0; apply failHostJobs_still; exact hk
  clear_value l0 l1; exact Still.mk' hl0 rfl

theorem fails_still {s0 : State} (status : Nat) {s : State} (hk : Still s0 s) : Still s0 (fails status s).2 := by
  unfold fails
  dsimp only
  exact hk

theorem okWith_still {s0 : State} (payload : List Fld) {s : State} (hk : Still s0 s) : Still s0
    (okWith payload s).2 := by
  unfold okWith
  dsimp only
  exact hk

theorem updateLeaseRegs_still {s0 : State} {s : State} (hk : Still s0 s) : Still s0 (updateLeaseRegs s) := by
  unfold updateLeaseRegs
  exact Still.mk' hk rfl

theorem setLease_still {s0 s : State} (l : Option (BitVec 64 × Src)) (reason : Nat) (hk : Still s0 s) :
    Still s0 (setLease l reason s) := by
  unfold setLease
  split
  · exact hk
  · apply updateLeaseRegs_still
    split
    · apply raiseEv_still; apply count_still; exact Still.mk' hk rfl
    · apply reportLost_still; apply raiseEv_still; apply count_still; exact Still.mk' hk rfl

theorem capSet_still {s0 : State} (n : Nat) (c : Capture) {s : State} (hk : Still s0 s) : Still s0 (capSet n c s) := by
  unfold capSet
  exact Still.mk' hk rfl

theorem captureFreeze_still {s0 : State} {s : State} (hk : Still s0 s) : Still s0 (captureFreeze s) := by
  unfold captureFreeze
  with_reducible refine foldl_still ?_ ?_
  · intro v0 v1 v2; extract_lets l3; clear_value l3
    refine still_ite ?_ ?_
    · apply raiseEv_still; apply capSet_still; exact v2
    · exact v2
  · exact hk

theorem captureFlush_still {s0 : State} (n : Nat) {s : State} (hk : Still s0 s) : Still s0 (captureFlush n s) := by
  unfold captureFlush
  extract_lets l0 l1 l2; clear_value l0 l1 l2
  split
  · apply raiseEv_still; apply capSet_still; exact hk
  · apply capSet_still; exact hk

theorem captureEnd_still {s0 : State} (n : Nat) (e : Nat) {s : State} (hk : Still s0 s) : Still s0
    (captureEnd n e s) := by
  unfold captureEnd
  extract_lets l0 l1 l2 l3; clear_value l0 l1 l2
  have hl3 : Still s0 l3 := by
    unfold l3
    refine still_ite ?_ ?_
    · apply count_still; exact hk
    · exact hk
  clear_value l3
  refine still_ite ?_ ?_
  · exact hk
  · apply captureFlush_still; apply capSet_still; exact hl3

theorem captureEndAll_still {s0 : State} {s : State} (hk : Still s0 s) : Still s0 (captureEndAll s) := by
  unfold captureEndAll
  apply captureEnd_still; apply captureEnd_still; exact hk

theorem hbmFreeze_still {s0 : State} (cause : Nat) (loc : Option (Nat × HbmCmd × BitVec 64)) {s : State} (hk
    : Still s0 s) : Still s0 (hbmFreeze cause loc s) := by
  unfold hbmFreeze
  refine still_ite ?_ ?_
  · exact hk
  · refine still_ite ?_ ?_
    · exact Still.mk' hk rfl
    · extract_lets l0 l1 l2 l3 l4 l5 l6 l7 l8 l9
      have hl0 : Still s0 l0.2 := by
        unfold l0; apply freeVal_still; exact hk
      clear_value l0 l1
      have hl2 : Still s0 l2 := by
        unfold l2
        split
        · exact hk
        · exact hl0
      clear_value l2 l3
      have hl5 : Still s0 l5 := by
        unfold l5; apply hbmUndefine_still; exact Still.mk' hl2 rfl
      clear_value l5
      have hl6 : Still s0 l6 := by
        unfold l6; apply raiseEv_still; apply count_still; exact hl5
      clear_value l6
      have hl7 : Still s0 l7 := by
        unfold l7; apply raiseErr_still; exact hl6
      clear_value l7
      have hl8 : Still s0 l8 := by
        unfold l8; apply captureFreeze_still; exact hl7
      clear_value l8
      have hl9 : Still s0 l9 := by
        unfold l9; apply makeVerdict_still; exact hl8
      clear_value l9
      refine still_ite ?_ ?_
      · refine still_ite ?_ ?_
        · apply goUnfit_still; exact hl9
        · apply ddFreeze_still; exact hl9
      · exact hl8

theorem panicUpdate_still {s0 : State} {s : State} (hk : Still s0 s) : Still s0 (panicUpdate s) := by
  unfold panicUpdate
  extract_lets l0 l1 l2 l3 l4 l5; clear_value l0 l1 l2
  have hl4 : Still s0 l4 := by
    unfold l4; exact Still.mk' hk rfl
  clear_value l4
  have hl5 : Still s0 l5 := by
    unfold l5
    refine still_ite ?_ ?_
    · apply count_still; exact hl4
    · exact hl4
  clear_value l5
  refine still_ite ?_ ?_
  · apply count_still; exact hl5
  · exact hl5

theorem srExit_still {s0 : State} {s : State} (hk : Still s0 s) : Still s0 (srExit s) := by
  unfold srExit
  exact Still.mk' hk rfl

theorem startFreqChange_still {s0 : State} (rate : BitVec 2) {s : State} (hk : Still s0 s) : Still s0
    (startFreqChange rate s) := by
  unfold startFreqChange
  refine still_ite ?_ ?_
  · exact hk
  · exact Still.mk' hk rfl

theorem overlayWrites_still {s0 : State} (a : Nat) (b : List Byte) {s : State} (hk : Still s0 s) : Still s0
    (overlayWrites a b s) := by
  unfold overlayWrites
  exact Still.mk' hk rfl

theorem hbmTouch_still {s0 : State} {s : State} (hk : Still s0 s) : Still s0 (hbmTouch s) := by
  unfold hbmTouch
  extract_lets l0 l1 l2 l3
  have hl1 : Still s0 l1 := by
    unfold l1
    refine still_ite ?_ ?_
    · apply count_still; exact Still.mk' hk rfl
    · exact hk
  clear_value l1
  have hl2 : Still s0 l2 := by
    unfold l2
    refine still_ite ?_ ?_
    · apply srExit_still; exact hl1
    · exact hl1
  clear_value l2; exact Still.mk' hl2 rfl

theorem memConfig_still {s0 : State} (regions : BitVec 256) (params : BitVec 128) {s : State} (hk : Still s0 s)
    : Still s0 (memConfig regions params s).2 := by
  unfold memConfig
  extract_lets l0 l1 l2 l3 l4 l5; clear_value l0 l1
  have hl2 : ∀ a0 a1, Still s0 a1 → Still s0 (l2 a0 a1) := by
    intro v6 v7 v8; unfold l2
    with_reducible refine foldl_still ?_ ?_
    · intro v9 v10 v11; apply hbmUndefine_still; exact v11
    · exact v8
  clear_value l2
  have hl3 : Still s0 l3 := by
    unfold l3; apply hl2; apply hl2; exact hk
  clear_value l3
  have hl5 : Still s0 l5 := by
    unfold l5; apply panicUpdate_still; exact Still.mk' hl3 rfl
  clear_value l5
  refine still_ite2 ?_ ?_
  · apply fails_still; exact hk
  · apply okWith_still; apply startFreqChange_still; exact hl5

theorem fifoSet_still {s0 : State} (i : Nat) (f : Fifo) {s : State} (hk : Still s0 s) : Still s0 (fifoSet i f s) := by
  unfold fifoSet
  exact Still.mk' hk rfl

theorem fifoCut_still {s0 : State} (i : Nat) {s : State} (hk : Still s0 s) : Still s0 (fifoCut i s).1 := by
  unfold fifoCut
  extract_lets l0 l1; clear_value l0 l1
  split
  · dsimp only
    exact hk
  · refine still_ite1 ?_ ?_
    · dsimp only
      exact hk
    · extract_lets l2; clear_value l2; dsimp only; apply fifoSet_still; exact hk

theorem efeStop_still {s0 : State} (lin : Nat) {s : State} (hk : Still s0 s) : Still s0 (efeStop lin s) := by
  unfold efeStop
  exact Still.mk' hk rfl

theorem fgIdle_still {s0 : State} {s : State} (hk : Still s0 s) : Still s0 (fgIdle s) := by
  unfold fgIdle
  exact Still.mk' hk rfl

theorem stopPrograms_still {s0 : State} {s : State} (hk : Still s0 s) : Still s0 (stopPrograms s) := by
  unfold stopPrograms
  apply fgIdle_still; exact Still.mk' hk rfl

theorem stopService_still {s0 : State} {s : State} (hk : Still s0 s) : Still s0 (stopService s) := by
  unfold stopService
  extract_lets l0 l1 l2 l3; clear_value l0
  have hl1 : Still s0 l1 := by
    unfold l1; apply stopPrograms_still; exact Still.mk' hk rfl
  clear_value l1
  have hl2 : Still s0 l2 := by
    unfold l2
    with_reducible refine foldl_still ?_ ?_
    · intro v4 v5 v6; extract_lets l7 l8
      have hl7 : Still s0 l7 := by
        unfold l7; apply fifoCut_still; exact v6
      clear_value l7 l8; apply fifoSet_still; exact hl7
    · exact hl1
  clear_value l2 l3; apply efeStop_still; apply releaseFences_still; exact Still.mk' hl2 rfl

theorem evMode_still {s0 : State} (old : Mode) (new : Mode) (cause : Nat) {s : State} (hk : Still s0 s)
    : Still s0 (evMode old new cause s) := by
  unfold evMode
  apply raiseEv_still; exact hk

theorem gatePins_still {s0 : State} {s : State} (hk : Still s0 s) : Still s0 (gatePins s) := by
  unfold gatePins
  exact Still.mk' hk rfl

theorem baseState_still {s0 : State} {s : State} (hk : Still s0 s) : Still s0 (baseState s) := by
  unfold baseState
  exact Still.mk' hk rfl

theorem loopRunUpdate_still {s0 : State} {s : State} (hk : Still s0 s) : Still s0 (loopRunUpdate s) := by
  unfold loopRunUpdate
  refine still_ite ?_ ?_
  · refine still_ite ?_ ?_
    · exact hk
    · exact Still.mk' hk rfl
  · refine still_ite ?_ ?_
    · exact hk
    · refine still_ite ?_ ?_
      · apply stopService_still; exact hk
      · exact Still.mk' hk rfl

theorem setLoops_still {s0 : State} (path : Nat) (depth : Nat) (mask : BitVec 256) {s : State} (hk : Still s0 s)
    : Still s0 (setLoops path depth mask s) := by
  unfold setLoops
  extract_lets l0 l1 l2 l3 l4 l5 l6 l7; clear_value l0 l1 l2 l3 l4 l5 l6 l7; exact Still.mk' hk rfl

/-! ## What reporting leaves alone -/

/-- `s` has the memory of `s0`. -/
structure MemStill (s0 s : State) : Prop where
  same : s.mem = s0.mem

theorem MemStill.refl (s : State) : MemStill s s := ⟨rfl⟩

theorem MemStill.mk' {s0 s : State} {no bo b0 f tb l e st si ae sq dd fh m tw er ts pi c o fr pe}
    (h : MemStill s0 s) (e0 : m = s.mem) :
    MemStill s0 (State.mk no bo b0 f tb l e st si ae sq dd fh m tw er ts pi c o fr pe) := ⟨e0.trans h.same⟩

theorem memStill_ite {s0 : State} {c : Prop} [Decidable c] {a b : State} (h1 : MemStill s0 a) (h2 : MemStill s0 b) :
    MemStill s0 (if c then a else b) := by split <;> assumption

theorem foldl_memStill {α : Type} {s0 : State} {l : List α} {f : State → α → State} {s : State}
    (hf : ∀ s x, MemStill s0 s → MemStill s0 (f s x)) (h : MemStill s0 s) : MemStill s0 (l.foldl f s) := by
  induction l generalizing s with
  | nil => exact h
  | cons x t ih => exact ih (hf s x h)

theorem emit_memStill {s0 s : State} (hk : MemStill s0 s) (o : Out) : MemStill s0 (emit o s) := MemStill.mk' hk rfl

theorem countBy_memStill {s0 s : State} (hk : MemStill s0 s) (code idx n : Nat) : MemStill s0 (countBy code idx n s) :=
  MemStill.mk' hk rfl

theorem count_memStill {s0 : State} (code : Nat) (idx : Nat) {s : State} (hk : MemStill s0 s) : MemStill s0
    (count code idx s) := by
  unfold count
  apply countBy_memStill; exact hk

theorem macSend_memStill {s0 : State} (p : Nat) (len : Nat) (o : Out) {s : State} (hk : MemStill s0 s) : MemStill s0
    (macSend p len o s) := by
  unfold macSend
  refine memStill_ite ?_ ?_
  · apply countBy_memStill; apply count_memStill; apply emit_memStill; exact hk
  · apply count_memStill; exact hk

theorem sendEvt_memStill {s0 : State} (p : Nat) (m : Mac) (e : Event) {s : State} (hk : MemStill s0 s) : MemStill s0
    (sendEvt p m e s) := by
  unfold sendEvt
  apply macSend_memStill; exact hk

theorem writeEvent_memStill {s0 s : State} (code unit : Nat) (beat : Stamp) (payload : List Fld) (hk : MemStill s0 s) :
    MemStill s0 (writeEvent code unit beat payload s) := by
  unfold writeEvent
  dsimp only
  split
  · apply sendEvt_memStill; exact MemStill.mk' hk rfl
  · exact MemStill.mk' hk rfl

theorem raiseAt_memStill {s0 s : State} (code unit : Nat) (beat : Stamp) (payload : List Fld) (hk : MemStill s0 s) :
    MemStill s0 (raiseAt code unit beat payload s) := by
  unfold raiseAt
  extract_lets m full
  refine memStill_ite ?_ (memStill_ite ?_ ?_)
  · apply count_memStill; exact hk
  · apply count_memStill; exact MemStill.mk' hk rfl
  · apply writeEvent_memStill; exact hk

theorem raiseEv_memStill {s0 : State} (code : Nat) (unit : Nat) (payload : List Fld) {s : State} (hk : MemStill s0 s)
    : MemStill s0 (raiseEv code unit payload s) := by
  unfold raiseEv
  apply raiseAt_memStill; exact hk

theorem sendTw_memStill {s0 : State} (flags : Nat) (body : TwBody) {s : State} (hk : MemStill s0 s) : MemStill s0
    (sendTw flags body s) := by
  unfold sendTw
  refine memStill_ite ?_ ?_
  · apply emit_memStill; exact MemStill.mk' hk rfl
  · exact hk

theorem logVerdict_memStill {s0 : State} (v : Verdict) {s : State} (hk : MemStill s0 s) : MemStill s0 (logVerdict v s) := by
  unfold logVerdict
  extract_lets l0 l1 l2 l3 l4; clear_value l0 l1 l2 l3 l4
  refine memStill_ite ?_ ?_
  · exact MemStill.mk' hk rfl
  · apply count_memStill; exact MemStill.mk' hk rfl

theorem sendTwLead_memStill {s0 : State} (flags : Nat) (body : TwBody) {s : State} (hk : MemStill s0 s) : MemStill s0
    (sendTwLead flags body s) := by
  unfold sendTwLead
  refine memStill_ite ?_ ?_
  · apply sendTw_memStill; exact hk
  · exact hk

theorem makeVerdict_memStill {s0 : State} (cls : Nat) (unit : Nat) (beat : Stamp) (payload : Nat) {s : State} (hk
    : MemStill s0 s) : MemStill s0 (makeVerdict cls unit beat payload s) := by
  unfold makeVerdict
  extract_lets l0 l1 l2 l3 l4; clear_value l0 l1 l2 l3
  have hl4 : MemStill s0 l4 := by
    unfold l4; apply logVerdict_memStill; exact MemStill.mk' hk rfl
  clear_value l4
  refine memStill_ite ?_ ?_
  · exact MemStill.mk' hk rfl
  · refine memStill_ite ?_ ?_
    · apply sendTwLead_memStill; exact hl4
    · exact hl4

theorem beginHandover_memStill {s0 : State} (planned : BitVec 8) {s : State} (hk : MemStill s0 s) : MemStill s0
    (beginHandover planned s) := by
  unfold beginHandover
  split
  · exact hk
  · extract_lets l0 l1 l2; clear_value l0 l1 l2; apply sendTw_memStill; exact MemStill.mk' hk rfl

theorem enterSlot_memStill {s0 : State} (k : Nat) (r : ErrRec) {s : State} (hk : MemStill s0 s) : MemStill s0
    (enterSlot k r s) := by
  unfold enterSlot
  extract_lets l0 l1 l2 l3; clear_value l0 l1
  have hl3 : MemStill s0 l3 := by
    unfold l3; exact MemStill.mk' hk rfl
  clear_value l3
  refine memStill_ite ?_ ?_
  · apply beginHandover_memStill; exact hl3
  · exact hl3

theorem joinQueue_memStill {s0 : State} (k : Nat) (r : ErrRec) {s : State} (hk : MemStill s0 s) : MemStill s0
    (joinQueue k r s) := by
  unfold joinQueue
  extract_lets l0 l1 l2 l3; clear_value l0 l2 l3
  refine memStill_ite ?_ ?_
  · exact MemStill.mk' hk rfl
  · apply count_memStill; exact MemStill.mk' hk rfl

theorem acceptRecord_memStill {s0 : State} (k : Nat) (r : ErrRec) {s : State} (hk : MemStill s0 s) : MemStill s0
    (acceptRecord k r s) := by
  unfold acceptRecord
  split
  · apply enterSlot_memStill; exact hk
  · refine memStill_ite ?_ ?_
    · apply enterSlot_memStill; apply joinQueue_memStill; exact MemStill.mk' hk rfl
    · apply joinQueue_memStill; exact hk

theorem updateSummary_memStill {s0 : State} {s : State} (hk : MemStill s0 s) : MemStill s0 (updateSummary s) := by
  unfold updateSummary
  extract_lets l0 l1 l2 l3 l4 l5 l6; clear_value l0 l1 l2 l3 l4 l5 l6; exact MemStill.mk' hk rfl

theorem logRecord_memStill {s0 s : State} (k : Nat) (r : ErrRec) (hk : MemStill s0 s) : MemStill s0 (logRecord k r s) := by
  unfold logRecord
  extract_lets r1 log1 log2 q b1 e1 s1 s2 e2 s3
  have h2 : MemStill s0 s2 := raiseEv_memStill _ _ _ (MemStill.mk' hk rfl)
  refine updateSummary_memStill ?_
  show MemStill s0 (match bestPending q with
    | some n => enterSlot k n _
    | none => s2)
  split
  · exact enterSlot_memStill _ _ (MemStill.mk' h2 rfl)
  · exact h2

theorem recordDetection_memStill {s0 : State} (code : Nat) (unit : Nat) (inst : Nat) (sev : Nat) (detail
    : BitVec 256) {s : State} (hk : MemStill s0 s) : MemStill s0 (recordDetection code unit inst sev detail s) := by
  unfold recordDetection
  extract_lets l0 l1 l2 l3 l4 l5 l6 l7; clear_value l0 l1 l2 l3 l4 l6
  have hl7 : MemStill s0 l7 := by
    unfold l7; apply acceptRecord_memStill; exact MemStill.mk' hk rfl
  clear_value l7
  refine memStill_ite ?_ ?_
  · exact MemStill.mk' hk rfl
  · refine memStill_ite ?_ ?_
    · split
      · refine memStill_ite ?_ ?_
        · apply logRecord_memStill; exact hl7
        · exact hl7
      · exact hl7
    · exact hl7

theorem raiseErr_memStill {s0 : State} (code : Nat) (unit : Nat) (inst : Nat) (sev : Nat) (detail : BitVec 256) {s
    : State} (hk : MemStill s0 s) : MemStill s0 (raiseErr code unit inst sev detail s) := by
  unfold raiseErr
  extract_lets l0 l1 l2 l3 l4 l5 l6 l7
  have hl0 : MemStill s0 l0 := by
    unfold l0; apply recordDetection_memStill; exact hk
  clear_value l0 l1 l2 l3 l4 l5 l6
  refine memStill_ite ?_ ?_
  · exact hl0
  · refine memStill_ite ?_ ?_
    · apply recordDetection_memStill; exact MemStill.mk' hl0 rfl
    · exact MemStill.mk' hl0 rfl

theorem goUnfit_memStill {s0 : State} (cause : Nat) {s : State} (hk : MemStill s0 s) : MemStill s0 (goUnfit cause s) := by
  unfold goUnfit
  refine memStill_ite ?_ ?_
  · exact hk
  · apply raiseEv_memStill; exact MemStill.mk' hk rfl

theorem failHostJobs_memStill {s0 : State} (p : JobBody → Bool) (result : Nat) {s : State} (hk : MemStill s0 s)
    : MemStill s0 (failHostJobs p result s) := by
  unfold failHostJobs
  exact MemStill.mk' hk rfl

theorem ddFreeze_memStill {s0 : State} (f : Nat) {s : State} (hk : MemStill s0 s) : MemStill s0 (ddFreeze f s) := by
  unfold ddFreeze
  extract_lets l0 l1
  have hl0 : MemStill s0 l0 := by
    unfold l0; apply failHostJobs_memStill; exact hk
  clear_value l0 l1; exact MemStill.mk' hl0 rfl

theorem capSet_memStill {s0 : State} (n : Nat) (c : Capture) {s : State} (hk : MemStill s0 s) : MemStill s0 (capSet n c s) := by
  unfold capSet
  exact MemStill.mk' hk rfl

theorem captureFreeze_memStill {s0 : State} {s : State} (hk : MemStill s0 s) : MemStill s0 (captureFreeze s) := by
  unfold captureFreeze
  with_reducible refine foldl_memStill ?_ ?_
  · intro v0 v1 v2; extract_lets l3; clear_value l3
    refine memStill_ite ?_ ?_
    · apply raiseEv_memStill; apply capSet_memStill; exact v2
    · exact v2
  · exact hk

/-- `s` has the clusters and the formula of `s0`. -/
structure AeStill (s0 s : State) : Prop where
  same : (s.ae, s.frm.active) = (s0.ae, s0.frm.active)

theorem AeStill.refl (s : State) : AeStill s s := ⟨rfl⟩

theorem AeStill.mk' {s0 s : State} {no bo b0 f tb l e st si ae sq dd fh m tw er ts pi c o fr pe}
    (h : AeStill s0 s) (e0 : (ae, f.active) = (s.ae, s.frm.active)) :
    AeStill s0 (State.mk no bo b0 f tb l e st si ae sq dd fh m tw er ts pi c o fr pe) := ⟨e0.trans h.same⟩

theorem aeStill_ite {s0 : State} {c : Prop} [Decidable c] {a b : State} (h1 : AeStill s0 a) (h2 : AeStill s0 b) :
    AeStill s0 (if c then a else b) := by split <;> assumption

theorem emit_aeStill {s0 s : State} (hk : AeStill s0 s) (o : Out) : AeStill s0 (emit o s) := AeStill.mk' hk rfl

theorem countBy_aeStill {s0 s : State} (hk : AeStill s0 s) (code idx n : Nat) : AeStill s0 (countBy code idx n s) :=
  AeStill.mk' hk rfl

theorem count_aeStill {s0 : State} (code : Nat) (idx : Nat) {s : State} (hk : AeStill s0 s) : AeStill s0
    (count code idx s) := by
  unfold count
  apply countBy_aeStill; exact hk

theorem macSend_aeStill {s0 : State} (p : Nat) (len : Nat) (o : Out) {s : State} (hk : AeStill s0 s) : AeStill s0
    (macSend p len o s) := by
  unfold macSend
  refine aeStill_ite ?_ ?_
  · apply countBy_aeStill; apply count_aeStill; apply emit_aeStill; exact hk
  · apply count_aeStill; exact hk

theorem sendEvt_aeStill {s0 : State} (p : Nat) (m : Mac) (e : Event) {s : State} (hk : AeStill s0 s) : AeStill s0
    (sendEvt p m e s) := by
  unfold sendEvt
  apply macSend_aeStill; exact hk

theorem writeEvent_aeStill {s0 s : State} (code unit : Nat) (beat : Stamp) (payload : List Fld) (hk : AeStill s0 s) :
    AeStill s0 (writeEvent code unit beat payload s) := by
  unfold writeEvent
  dsimp only
  split
  · apply sendEvt_aeStill; exact AeStill.mk' hk rfl
  · exact AeStill.mk' hk rfl

theorem raiseAt_aeStill {s0 s : State} (code unit : Nat) (beat : Stamp) (payload : List Fld) (hk : AeStill s0 s) :
    AeStill s0 (raiseAt code unit beat payload s) := by
  unfold raiseAt
  extract_lets m full
  refine aeStill_ite ?_ (aeStill_ite ?_ ?_)
  · apply count_aeStill; exact hk
  · apply count_aeStill; exact AeStill.mk' hk rfl
  · apply writeEvent_aeStill; exact hk

theorem raiseEv_aeStill {s0 : State} (code : Nat) (unit : Nat) (payload : List Fld) {s : State} (hk : AeStill s0 s)
    : AeStill s0 (raiseEv code unit payload s) := by
  unfold raiseEv
  apply raiseAt_aeStill; exact hk

theorem sendTw_aeStill {s0 : State} (flags : Nat) (body : TwBody) {s : State} (hk : AeStill s0 s) : AeStill s0
    (sendTw flags body s) := by
  unfold sendTw
  refine aeStill_ite ?_ ?_
  · apply emit_aeStill; exact AeStill.mk' hk rfl
  · exact hk

theorem beginHandover_aeStill {s0 : State} (planned : BitVec 8) {s : State} (hk : AeStill s0 s) : AeStill s0
    (beginHandover planned s) := by
  unfold beginHandover
  split
  · exact hk
  · extract_lets l0 l1 l2; clear_value l0 l1 l2; apply sendTw_aeStill; exact AeStill.mk' hk rfl

theorem enterSlot_aeStill {s0 : State} (k : Nat) (r : ErrRec) {s : State} (hk : AeStill s0 s) : AeStill s0
    (enterSlot k r s) := by
  unfold enterSlot
  extract_lets l0 l1 l2 l3; clear_value l0 l1
  have hl3 : AeStill s0 l3 := by
    unfold l3; exact AeStill.mk' hk rfl
  clear_value l3
  refine aeStill_ite ?_ ?_
  · apply beginHandover_aeStill; exact hl3
  · exact hl3

theorem joinQueue_aeStill {s0 : State} (k : Nat) (r : ErrRec) {s : State} (hk : AeStill s0 s) : AeStill s0
    (joinQueue k r s) := by
  unfold joinQueue
  extract_lets l0 l1 l2 l3; clear_value l0 l2 l3
  refine aeStill_ite ?_ ?_
  · exact AeStill.mk' hk rfl
  · apply count_aeStill; exact AeStill.mk' hk rfl

theorem acceptRecord_aeStill {s0 : State} (k : Nat) (r : ErrRec) {s : State} (hk : AeStill s0 s) : AeStill s0
    (acceptRecord k r s) := by
  unfold acceptRecord
  split
  · apply enterSlot_aeStill; exact hk
  · refine aeStill_ite ?_ ?_
    · apply enterSlot_aeStill; apply joinQueue_aeStill; exact AeStill.mk' hk rfl
    · apply joinQueue_aeStill; exact hk

theorem updateSummary_aeStill {s0 : State} {s : State} (hk : AeStill s0 s) : AeStill s0 (updateSummary s) := by
  unfold updateSummary
  extract_lets l0 l1 l2 l3 l4 l5 l6; clear_value l0 l1 l2 l3 l4 l5 l6; exact AeStill.mk' hk rfl

theorem logRecord_aeStill {s0 s : State} (k : Nat) (r : ErrRec) (hk : AeStill s0 s) : AeStill s0 (logRecord k r s) := by
  unfold logRecord
  extract_lets r1 log1 log2 q b1 e1 s1 s2 e2 s3
  have h2 : AeStill s0 s2 := raiseEv_aeStill _ _ _ (AeStill.mk' hk rfl)
  refine updateSummary_aeStill ?_
  show AeStill s0 (match bestPending q with
    | some n => enterSlot k n _
    | none => s2)
  split
  · exact enterSlot_aeStill _ _ (AeStill.mk' h2 rfl)
  · exact h2

theorem recordDetection_aeStill {s0 : State} (code : Nat) (unit : Nat) (inst : Nat) (sev : Nat) (detail
    : BitVec 256) {s : State} (hk : AeStill s0 s) : AeStill s0 (recordDetection code unit inst sev detail s) := by
  unfold recordDetection
  extract_lets l0 l1 l2 l3 l4 l5 l6 l7; clear_value l0 l1 l2 l3 l4 l6
  have hl7 : AeStill s0 l7 := by
    unfold l7; apply acceptRecord_aeStill; exact AeStill.mk' hk rfl
  clear_value l7
  refine aeStill_ite ?_ ?_
  · exact AeStill.mk' hk rfl
  · refine aeStill_ite ?_ ?_
    · split
      · refine aeStill_ite ?_ ?_
        · apply logRecord_aeStill; exact hl7
        · exact hl7
      · exact hl7
    · exact hl7

theorem raiseErr_aeStill {s0 : State} (code : Nat) (unit : Nat) (inst : Nat) (sev : Nat) (detail : BitVec 256) {s
    : State} (hk : AeStill s0 s) : AeStill s0 (raiseErr code unit inst sev detail s) := by
  unfold raiseErr
  extract_lets l0 l1 l2 l3 l4 l5 l6 l7
  have hl0 : AeStill s0 l0 := by
    unfold l0; apply recordDetection_aeStill; exact hk
  clear_value l0 l1 l2 l3 l4 l5 l6
  refine aeStill_ite ?_ ?_
  · exact hl0
  · refine aeStill_ite ?_ ?_
    · apply recordDetection_aeStill; exact AeStill.mk' hl0 rfl
    · exact AeStill.mk' hl0 rfl

end Sys2Proof.Machine
end

