-- ==== Sys2Proof/Laws/StillBeat.lean ====
section
/-! SUPPORT. What the work at a beat boundary leaves of the mode, the schedule, the beat and the time base. -/

namespace Sys2Proof.Machine
open Sys2Proof

/-- The mode, the schedule, the run of beats, the time base, the accord slots and the pins stay as they were. -/
structure QuietS (s0 s : State) : Prop where
  same : ((s.nose.mode, s.nose.sched, s.frm.executing, s.frm.ruptureS, s.frm.stepWait, s.frm.loopRun, s.frm.running, s.frm.stage, s.tb.run, s.tb.inc, s.tb.lin, s.tb.beat, s.tb.openT, s.tb.nextT, s.tb.par, s.twn.slots, s.pins)) = ((s0.nose.mode, s0.nose.sched, s0.frm.executing, s0.frm.ruptureS, s0.frm.stepWait, s0.frm.loopRun, s0.frm.running, s0.frm.stage, s0.tb.run, s0.tb.inc, s0.tb.lin, s0.tb.beat, s0.tb.openT, s0.tb.nextT, s0.tb.par, s0.twn.slots, s0.pins))

theorem QuietS.refl (s : State) : QuietS s s := ⟨rfl⟩
theorem QuietS.trans {a b c : State} (h : QuietS a b) (k : QuietS b c) : QuietS a c := ⟨k.same.trans h.same⟩

theorem QuietS.mk' {s0 s : State} {no bo b0 f tb l e st si ae sq dd fh m tw er ts pi c o fr pe}
    (h : QuietS s0 s) (e0 : ((no.mode, no.sched, f.executing, f.ruptureS, f.stepWait, f.loopRun, f.running, f.stage, tb.run, tb.inc, tb.lin, tb.beat, tb.openT, tb.nextT, tb.par, tw.slots, pi)) = ((s.nose.mode, s.nose.sched, s.frm.executing, s.frm.ruptureS, s.frm.stepWait, s.frm.loopRun, s.frm.running, s.frm.stage, s.tb.run, s.tb.inc, s.tb.lin, s.tb.beat, s.tb.openT, s.tb.nextT, s.tb.par, s.twn.slots, s.pins))) :
    QuietS s0 (State.mk no bo b0 f tb l e st si ae sq dd fh m tw er ts pi c o fr pe) := ⟨e0.trans h.same⟩

theorem quietS_ite {s0 : State} {c : Prop} [Decidable c] {a b : State} (h1 : QuietS s0 a) (h2 : QuietS s0 b) :
    QuietS s0 (if c then a else b) := by split <;> assumption
theorem quietS_ite2 {α : Type} {s0 : State} {c : Prop} [Decidable c] {a b : α × State} (h1 : QuietS s0 a.2) (h2 : QuietS s0 b.2) :
    QuietS s0 (if c then a else b).2 := by split <;> assumption
theorem quietS_ite1 {α : Type} {s0 : State} {c : Prop} [Decidable c] {a b : State × α} (h1 : QuietS s0 a.1) (h2 : QuietS s0 b.1) :
    QuietS s0 (if c then a else b).1 := by split <;> assumption
theorem foldl_quietS {α : Type} {s0 : State} {l : List α} {f : State → α → State} {s : State}
    (hf : ∀ s x, QuietS s0 s → QuietS s0 (f s x)) (h : QuietS s0 s) : QuietS s0 (l.foldl f s) := by
  induction l generalizing s with
  | nil => exact h
  | cons x t ih => exact ih (hf s x h)
theorem elim_quietS {α : Type} {s0 : State} {o : Option α} {d : State} {f : α → State}
    (h1 : QuietS s0 d) (h2 : ∀ x, QuietS s0 (f x)) : QuietS s0 (o.elim d f) := by
  cases o
  · exact h1
  · exact h2 _

theorem emit_quietS {s0 s : State} (hk : QuietS s0 s) (o : Out) : QuietS s0 (emit o s) := QuietS.mk' hk rfl

theorem countBy_quietS {s0 s : State} (hk : QuietS s0 s) (code idx n : Nat) : QuietS s0 (countBy code idx n s) :=
  QuietS.mk' hk rfl

theorem resTaint_quietS {s0 : State} (a n : Nat) (tt : Bool) {s : State} (h : QuietS s0 s) : QuietS s0 (resTaint a n tt s) := by
  unfold resTaint; split
  · exact h
  · exact QuietS.mk' h rfl

theorem resWrite_quietS {s0 : State} (a : Nat) (b : List Byte) {s : State} (h : QuietS s0 s) : QuietS s0 (resWrite a b s) := by
  unfold resWrite; dsimp only; apply resTaint_quietS; exact QuietS.mk' h rfl

theorem count_quietS {s0 : State} (code : Nat) (idx : Nat) {s : State} (hk : QuietS s0 s) : QuietS s0
    (count code idx s) := by
  unfold count
  apply countBy_quietS; exact hk

theorem macSend_quietS {s0 : State} (p : Nat) (len : Nat) (o : Out) {s : State} (hk : QuietS s0 s) : QuietS s0
    (macSend p len o s) := by
  unfold macSend
  refine quietS_ite ?_ ?_
  · apply countBy_quietS; apply count_quietS; apply emit_quietS; exact hk
  · apply count_quietS; exact hk

theorem sendEvt_quietS {s0 : State} (p : Nat) (m : Mac) (e : Event) {s : State} (hk : QuietS s0 s) : QuietS s0
    (sendEvt p m e s) := by
  unfold sendEvt
  apply macSend_quietS; exact hk

theorem writeEvent_quietS {s0 s : State} (code unit : Nat) (beat : Stamp) (payload : List Fld) (hk : QuietS s0 s) :
    QuietS s0 (writeEvent code unit beat payload s) := by
  unfold writeEvent
  dsimp only
  split
  · apply sendEvt_quietS; exact QuietS.mk' hk rfl
  · exact QuietS.mk' hk rfl

theorem raiseAt_quietS {s0 s : State} (code unit : Nat) (beat : Stamp) (payload : List Fld) (hk : QuietS s0 s) :
    QuietS s0 (raiseAt code unit beat payload s) := by
  unfold raiseAt
  extract_lets m full
  refine quietS_ite ?_ (quietS_ite ?_ ?_)
  · apply count_quietS; exact hk
  · apply count_quietS; exact QuietS.mk' hk rfl
  · apply writeEvent_quietS; exact hk

theorem raiseEv_quietS {s0 : State} (code : Nat) (unit : Nat) (payload : List Fld) {s : State} (hk : QuietS s0 s)
    : QuietS s0 (raiseEv code unit payload s) := by
  unfold raiseEv
  apply raiseAt_quietS; exact hk

theorem sendTw_quietS {s0 : State} (flags : Nat) (body : TwBody) {s : State} (hk : QuietS s0 s) : QuietS s0
    (sendTw flags body s) := by
  unfold sendTw
  refine quietS_ite ?_ ?_
  · apply emit_quietS; exact QuietS.mk' hk rfl
  · exact hk

theorem logVerdict_quietS {s0 : State} (v : Verdict) {s : State} (hk : QuietS s0 s) : QuietS s0 (logVerdict v s) := by
  unfold logVerdict
  extract_lets l0 l1 l2 l3 l4
  refine quietS_ite ?_ ?_
  · exact QuietS.mk' hk rfl
  · apply count_quietS; exact QuietS.mk' hk rfl

theorem sendTwLead_quietS {s0 : State} (flags : Nat) (body : TwBody) {s : State} (hk : QuietS s0 s) : QuietS s0
    (sendTwLead flags body s) := by
  unfold sendTwLead
  refine quietS_ite ?_ ?_
  · apply sendTw_quietS; exact hk
  · exact hk

theorem makeVerdict_quietS {s0 : State} (cls : Nat) (unit : Nat) (beat : Stamp) (payload : Nat) {s : State} (hk
    : QuietS s0 s) : QuietS s0 (makeVerdict cls unit beat payload s) := by
  unfold makeVerdict
  extract_lets l0 l1 l2 l3 l4
  have hl4 : QuietS s0 l4 := by
    unfold l4; apply logVerdict_quietS; exact QuietS.mk' hk rfl
  clear_value l4
  refine quietS_ite ?_ ?_
  · exact QuietS.mk' hk rfl
  · refine quietS_ite ?_ ?_
    · apply sendTwLead_quietS; exact hl4
    · exact hl4

theorem passCycles_quietS {s0 : State} (n : Nat) {s : State} (hk : QuietS s0 s) : QuietS s0 (passCycles n s) := by
  unfold passCycles
  exact QuietS.mk' hk rfl

theorem advanceTo_quietS {s0 : State} (off : Nat) {s : State} (hk : QuietS s0 s) : QuietS s0 (advanceTo off s) := by
  unfold advanceTo
  refine quietS_ite ?_ ?_
  · apply passCycles_quietS; exact hk
  · exact hk

theorem advanceToTime_quietS {s0 : State} (t40 : Int) {s : State} (hk : QuietS s0 s) : QuietS s0
    (advanceToTime t40 s) := by
  unfold advanceToTime
  refine quietS_ite ?_ ?_
  · apply passCycles_quietS; exact hk
  · exact hk

theorem beginHandover_quietS {s0 : State} (planned : BitVec 8) {s : State} (hk : QuietS s0 s) : QuietS s0
    (beginHandover planned s) := by
  unfold beginHandover
  split
  · exact hk
  · extract_lets l0 l1 l2; apply sendTw_quietS; exact QuietS.mk' hk rfl

theorem enterSlot_quietS {s0 : State} (k : Nat) (r : ErrRec) {s : State} (hk : QuietS s0 s) : QuietS s0
    (enterSlot k r s) := by
  unfold enterSlot
  extract_lets l0 l1 l2 l3
  have hl3 : QuietS s0 l3 := by
    unfold l3; exact QuietS.mk' hk rfl
  clear_value l3
  refine quietS_ite ?_ ?_
  · apply beginHandover_quietS; exact hl3
  · exact hl3

theorem joinQueue_quietS {s0 : State} (k : Nat) (r : ErrRec) {s : State} (hk : QuietS s0 s) : QuietS s0
    (joinQueue k r s) := by
  unfold joinQueue
  extract_lets l0 l1 l2 l3
  refine quietS_ite ?_ ?_
  · exact QuietS.mk' hk rfl
  · apply count_quietS; exact QuietS.mk' hk rfl

theorem acceptRecord_quietS {s0 : State} (k : Nat) (r : ErrRec) {s : State} (hk : QuietS s0 s) : QuietS s0
    (acceptRecord k r s) := by
  unfold acceptRecord
  split
  · apply enterSlot_quietS; exact hk
  · refine quietS_ite ?_ ?_
    · apply enterSlot_quietS; apply joinQueue_quietS; exact QuietS.mk' hk rfl
    · apply joinQueue_quietS; exact hk

theorem updateSummary_quietS {s0 : State} {s : State} (hk : QuietS s0 s) : QuietS s0 (updateSummary s) := by
  unfold updateSummary
  extract_lets l0 l1 l2 l3 l4 l5 l6; exact QuietS.mk' hk rfl

theorem logRecord_quietS {s0 s : State} (k : Nat) (r : ErrRec) (hk : QuietS s0 s) : QuietS s0 (logRecord k r s) := by
  unfold logRecord
  extract_lets r1 log1 log2 q b1 e1 s1 s2 e2 s3
  have h2 : QuietS s0 s2 := raiseEv_quietS _ _ _ (QuietS.mk' hk rfl)
  refine updateSummary_quietS ?_
  show QuietS s0 (match bestPending q with
    | some n => enterSlot k n _
    | none => s2)
  split
  · exact enterSlot_quietS _ _ (QuietS.mk' h2 rfl)
  · exact h2

theorem recordDetection_quietS {s0 : State} (code : Nat) (unit : Nat) (inst : Nat) (sev : Nat) (detail
    : BitVec 256) {s : State} (hk : QuietS s0 s) : QuietS s0 (recordDetection code unit inst sev detail s) := by
  unfold recordDetection
  extract_lets l0 l1 l2 l3 l4 l5 l6 l7
  have hl7 : QuietS s0 l7 := by
    unfold l7; apply acceptRecord_quietS; exact QuietS.mk' hk rfl
  clear_value l7
  refine quietS_ite ?_ ?_
  · exact QuietS.mk' hk rfl
  · refine quietS_ite ?_ ?_
    · split
      · refine quietS_ite ?_ ?_
        · apply logRecord_quietS; exact hl7
        · exact hl7
      · exact hl7
    · exact hl7

theorem raiseErr_quietS {s0 : State} (code : Nat) (unit : Nat) (inst : Nat) (sev : Nat) (detail : BitVec 256) {s
    : State} (hk : QuietS s0 s) : QuietS s0 (raiseErr code unit inst sev detail s) := by
  unfold raiseErr
  extract_lets l0 l1 l2 l3 l4 l5 l6 l7
  have hl0 : QuietS s0 l0 := by
    unfold l0; apply recordDetection_quietS; exact hk
  clear_value l0 l1 l2 l3 l4 l5 l6
  refine quietS_ite ?_ ?_
  · exact hl0
  · refine quietS_ite ?_ ?_
    · apply recordDetection_quietS; exact QuietS.mk' hl0 rfl
    · exact QuietS.mk' hl0 rfl

theorem applyFence_quietS {s0 : State} (k : Nat) {s : State} (hk : QuietS s0 s) : QuietS s0 (applyFence k s) := by
  unfold applyFence
  refine quietS_ite ?_ ?_
  · exact hk
  · apply raiseEv_quietS; apply count_quietS; exact QuietS.mk' hk rfl

theorem fencesAtBoundary_quietS {s0 : State} {s : State} (hk : QuietS s0 s) : QuietS s0 (fencesAtBoundary s) := by
  unfold fencesAtBoundary
  with_reducible refine foldl_quietS ?_ ?_
  · intro v0 v1 v2; extract_lets l3 l4 l5 l6 l7 l8
    have hl6 : QuietS s0 l6 := by
      unfold l6; apply applyFence_quietS; exact v2
    clear_value l6
    have hl8 : QuietS s0 l8 := by
      unfold l8
      with_reducible refine foldl_quietS ?_ ?_
      · intro v9 v10 v11; apply applyFence_quietS; exact v11
      · exact v2
    clear_value l8
    refine quietS_ite ?_ ?_
    · exact QuietS.mk' hl6 rfl
    · refine quietS_ite ?_ ?_
      · apply logRecord_quietS; exact hl8
      · exact v2
  · exact hk

theorem endHandling_quietS {s0 : State} {s : State} (hk : QuietS s0 s) : QuietS s0 (endHandling s) := by
  unfold endHandling
  with_reducible refine foldl_quietS ?_ ?_
  · intro v0 v1 v2
    refine quietS_ite ?_ ?_
    · apply logRecord_quietS; exact v2
    · exact v2
  · exact hk

theorem failHostJobs_quietS {s0 : State} (p : JobBody → Bool) (result : Nat) {s : State} (hk : QuietS s0 s)
    : QuietS s0 (failHostJobs p result s) := by
  unfold failHostJobs
  exact QuietS.mk' hk rfl

theorem ddEmpty_quietS {s0 : State} {s : State} (hk : QuietS s0 s) : QuietS s0 (ddEmpty s) := by
  unfold ddEmpty
  exact QuietS.mk' hk rfl

theorem setRatio_quietS {s0 : State} (lin : Nat) (r : BitVec 48) {s : State} (hk : QuietS s0 s) : QuietS s0
    (setRatio lin r s) := by
  unfold setRatio
  exact QuietS.mk' hk rfl

theorem formRatio_quietS {s0 : State} {s : State} (hk : QuietS s0 s) : QuietS s0 (formRatio s) := by
  unfold formRatio
  extract_lets l0 l1 l2 l3
  have hl1 : QuietS s0 l1 := by
    unfold l1
    refine quietS_ite ?_ ?_
    · apply count_quietS; exact hk
    · exact hk
  clear_value l1 l2
  have hl3 : QuietS s0 l3 := by
    unfold l3
    refine quietS_ite ?_ ?_
    · exact hl1
    · apply setRatio_quietS; exact hl1
  clear_value l3; apply makeVerdict_quietS; exact hl3

theorem applySounding_quietS {s0 : State} (b : Stamp) {s : State} (hk : QuietS s0 s) : QuietS s0 (applySounding b s) := by
  unfold applySounding
  extract_lets l0 l1 l2
  have hl2 : QuietS s0 l2 := by
    unfold l2; exact QuietS.mk' hk rfl
  clear_value l2
  with_reducible refine foldl_quietS ?_ ?_
  · intro v3 v4 v5
    refine quietS_ite ?_ ?_
    · with_reducible refine foldl_quietS ?_ ?_
      · intro v6 v7 v8; apply resWrite_quietS; exact v8
      · exact v5
    · exact v5
  · exact hl2

theorem bufferFree_quietS {s0 : State} (b : Nat) {s : State} (hk : QuietS s0 s) : QuietS s0 (bufferFree b s) := by
  unfold bufferFree
  exact QuietS.mk' hk rfl

theorem ringPut_quietS {s0 : State} (q : Nat) (r : Ring) {s : State} (hk : QuietS s0 s) : QuietS s0 (ringPut q r s) := by
  unfold ringPut
  exact QuietS.mk' hk rfl

theorem ringRelay_quietS {s0 : State} (q : Nat) (n : Nat) (rd : Nat) (keep : Nat → List Byte → Bool) {s : State}
    (hk : QuietS s0 s) : QuietS s0 (ringRelay q n rd keep s) := by
  unfold ringRelay
  extract_lets l0 l1 l2 l3 l4
  have hl3 : QuietS s0 l3 := by
    unfold l3
    with_reducible refine foldl_quietS ?_ ?_
    · intro v5 v6 v7; apply bufferFree_quietS; exact v7
    · exact hk
  clear_value l3
  have hl4 : QuietS s0 l4 := by
    unfold l4
    with_reducible refine foldl_quietS ?_ ?_
    · intro v8 v9 v10; apply resWrite_quietS; exact v10
    · exact hl3
  clear_value l4; apply ringPut_quietS; exact hl4

theorem ringResize_quietS {s0 : State} (q : Nat) (n : Nat) {s : State} (hk : QuietS s0 s) : QuietS s0
    (ringResize q n s) := by
  unfold ringResize
  extract_lets l0 l1; apply ringRelay_quietS; apply countBy_quietS; exact hk

theorem resizeGuard_quietS {s0 : State} {s : State} (hk : QuietS s0 s) : QuietS s0 (resizeGuard s) := by
  unfold resizeGuard
  extract_lets l0
  with_reducible refine foldl_quietS ?_ ?_
  · intro v1 v2 v3
    split
    · refine quietS_ite ?_ ?_
      · apply ringResize_quietS; exact v3
      · exact v3
    · exact v3
  · exact hk

theorem txSetE_quietS {s0 : State} (e : Nat) (t : EfeTx) {s : State} (hk : QuietS s0 s) : QuietS s0 (txSetE e t s) := by
  unfold txSetE
  exact QuietS.mk' hk rfl

theorem rxSetE_quietS {s0 : State} (e : Nat) (r : EfeRx) {s : State} (hk : QuietS s0 s) : QuietS s0 (rxSetE e r s) := by
  unfold rxSetE
  exact QuietS.mk' hk rfl

theorem efeZero_quietS {s0 : State} (e : Nat) (lin : Nat) (ta : Int) (lat : Nat) {s : State} (hk : QuietS s0 s)
    : QuietS s0 (efeZero e lin ta lat s) := by
  unfold efeZero
  extract_lets l0 l1 l2 l3 l4 l5 l6 l7 l8 l9
  have hl6 : QuietS s0 l6 := by
    unfold l6; apply rxSetE_quietS; exact hk
  clear_value l6 l7
  have hl8 : QuietS s0 l8 := by
    unfold l8
    with_reducible refine foldl_quietS ?_ ?_
    · intro v10 v11 v12; extract_lets l13 l14 l15; exact QuietS.mk' v12 rfl
    · exact hl6
  clear_value l8 l9; apply count_quietS; apply txSetE_quietS; exact hl8

theorem laneSet_quietS {s0 : State} (e : Nat) (l : Lane) {s : State} (hk : QuietS s0 s) : QuietS s0 (laneSet e l s) := by
  unfold laneSet
  exact QuietS.mk' hk rfl

theorem sicSlotEnd_quietS {s0 : State} {s : State} (hk : QuietS s0 s) : QuietS s0 (sicSlotEnd s) := by
  unfold sicSlotEnd
  extract_lets l0 l1 l2
  have hl2 : QuietS s0 l2 := by
    unfold l2; exact QuietS.mk' hk rfl
  clear_value l2
  with_reducible refine foldl_quietS ?_ ?_
  · intro v3 v4 v5
    refine quietS_ite ?_ ?_
    · exact v5
    · apply raiseEv_quietS; exact v5
  · exact hl2

theorem emptyStore_quietS {s0 : State} {s : State} (hk : QuietS s0 s) : QuietS s0 (emptyStore s) := by
  unfold emptyStore
  extract_lets l0 l1 l2
  have hl1 : QuietS s0 l1 := by
    unfold l1; apply failHostJobs_quietS; exact hk
  clear_value l1 l2; apply ddEmpty_quietS; exact QuietS.mk' hl1 rfl

theorem ripen_quietS {s0 : State} {s : State} (hk : QuietS s0 s) : QuietS s0 (ripen s) := by
  unfold ripen
  extract_lets l0 l1 l2 l3 l4 l5 l6
  have hl1 : QuietS s0 l1 := by
    unfold l1; exact QuietS.mk' hk rfl
  clear_value l1
  have hl2 : QuietS s0 l2 := by
    unfold l2
    refine quietS_ite ?_ ?_
    · refine quietS_ite ?_ ?_
      · apply emptyStore_quietS; exact hl1
      · exact hl1
    · exact hk

  have hl6 : QuietS s0 l6 := by
    unfold l6; exact QuietS.mk' hl2 rfl
  clear_value l6
  refine quietS_ite ?_ ?_
  · refine quietS_ite ?_ ?_
    · apply raiseEv_quietS; exact hl6
    · exact hl6
  · exact hl2

theorem writeWords_quietS {s0 : State} (dev : List (Fin 15 × Fin 96 × UState)) {s : State} (hk : QuietS s0 s)
    : QuietS s0 (writeWords dev s) := by
  unfold writeWords
  extract_lets l0 l1; exact QuietS.mk' hk rfl

theorem comparePublished_quietS {s0 : State} (u : Nat) (k : Nat) (st : UState) {s : State} (hk : QuietS s0 s)
    : QuietS s0 (comparePublished u k st s) := by
  unfold comparePublished
  extract_lets l0 l1 l2 l3 l4 l5 l6 l7
  have hl4 : QuietS s0 l4 := by
    unfold l4; exact QuietS.mk' hk rfl
  clear_value l4
  have hl5 : QuietS s0 l5 := by
    unfold l5; exact QuietS.mk' hk rfl
  clear_value l5 l6 l7
  refine quietS_ite ?_ ?_
  · refine quietS_ite ?_ ?_
    · apply count_quietS; exact hl4
    · exact hl4
  · refine quietS_ite ?_ ?_
    · apply raiseEv_quietS; apply raiseErr_quietS; exact hl5
    · exact hl5

theorem closeVerdictsOfBeat_quietS {s0 : State} {s : State} (hk : QuietS s0 s) : QuietS s0 (closeVerdictsOfBeat s) := by
  unfold closeVerdictsOfBeat
  extract_lets l0
  have hl0 : QuietS s0 l0 := by
    unfold l0; apply formRatio_quietS; apply endHandling_quietS; exact hk
  clear_value l0
  refine quietS_ite ?_ ?_
  · exact hl0
  · apply raiseEv_quietS; exact hl0

theorem settle_quietS {s0 : State} (e : Nat) {s : State} (hk : QuietS s0 s) : QuietS s0 (settle e s) := by
  unfold settle
  extract_lets l0 l1
  refine quietS_ite ?_ ?_
  · apply laneSet_quietS; exact hk
  · exact hk

theorem frontEnds_quietS {s0 : State} {s : State} (hk : QuietS s0 s) : QuietS s0 (frontEnds s) := by
  unfold frontEnds
  extract_lets l0
  with_reducible refine foldl_quietS ?_ ?_
  · intro v1 v2 v3; extract_lets l4
    have hl4 : QuietS s0 l4 := by
      unfold l4
      refine quietS_ite ?_ ?_
      · apply efeZero_quietS; exact v3
      · exact v3
    clear_value l4; apply settle_quietS; exact hl4
  · exact hk

theorem prune_quietS {s0 : State} {s : State} (hk : QuietS s0 s) : QuietS s0 (prune s) := by
  unfold prune
  extract_lets l0 l1 l2 l3 l4; exact QuietS.mk' hk rfl

end Sys2Proof.Machine
end

