-- ==== Sys2Proof/Laws/StillBoot.lean ====
section
/-! SUPPORT. What the operations around a start, a mode change and a report leave of the starts and of the mode. -/

namespace Sys2Proof.Machine
open Sys2Proof

/-- The resets, the start, the mode, the images and the pins stay as they were. -/
structure BootS (s0 s : State) : Prop where
  same : ((s.boot, s.bar0.scratch, s.nose.mbxReady, s.nose.fwKind, s.nose.fwVer, s.nose.mode, s.nose.deviceId, s.frm.load, s.frm.active, s.frm.pending, s.frm.executing, s.tb.run, s.mem.trained, s.pins)) = ((s0.boot, s0.bar0.scratch, s0.nose.mbxReady, s0.nose.fwKind, s0.nose.fwVer, s0.nose.mode, s0.nose.deviceId, s0.frm.load, s0.frm.active, s0.frm.pending, s0.frm.executing, s0.tb.run, s0.mem.trained, s0.pins))

theorem BootS.refl (s : State) : BootS s s := ⟨rfl⟩
theorem BootS.trans {a b c : State} (h : BootS a b) (k : BootS b c) : BootS a c := ⟨k.same.trans h.same⟩

theorem BootS.mk' {s0 s : State} {no bo b0 f tb l e st si ae sq dd fh m tw er ts pi c o fr pe}
    (h : BootS s0 s) (e0 : ((bo, b0.scratch, no.mbxReady, no.fwKind, no.fwVer, no.mode, no.deviceId, f.load, f.active, f.pending, f.executing, tb.run, m.trained, pi)) = ((s.boot, s.bar0.scratch, s.nose.mbxReady, s.nose.fwKind, s.nose.fwVer, s.nose.mode, s.nose.deviceId, s.frm.load, s.frm.active, s.frm.pending, s.frm.executing, s.tb.run, s.mem.trained, s.pins))) :
    BootS s0 (State.mk no bo b0 f tb l e st si ae sq dd fh m tw er ts pi c o fr pe) := ⟨e0.trans h.same⟩

theorem bootS_ite {s0 : State} {c : Prop} [Decidable c] {a b : State} (h1 : BootS s0 a) (h2 : BootS s0 b) :
    BootS s0 (if c then a else b) := by split <;> assumption
theorem bootS_ite2 {α : Type} {s0 : State} {c : Prop} [Decidable c] {a b : α × State} (h1 : BootS s0 a.2) (h2 : BootS s0 b.2) :
    BootS s0 (if c then a else b).2 := by split <;> assumption
theorem bootS_ite1 {α : Type} {s0 : State} {c : Prop} [Decidable c] {a b : State × α} (h1 : BootS s0 a.1) (h2 : BootS s0 b.1) :
    BootS s0 (if c then a else b).1 := by split <;> assumption
theorem foldl_bootS {α : Type} {s0 : State} {l : List α} {f : State → α → State} {s : State}
    (hf : ∀ s x, BootS s0 s → BootS s0 (f s x)) (h : BootS s0 s) : BootS s0 (l.foldl f s) := by
  induction l generalizing s with
  | nil => exact h
  | cons x t ih => exact ih (hf s x h)
theorem elim_bootS {α : Type} {s0 : State} {o : Option α} {d : State} {f : α → State}
    (h1 : BootS s0 d) (h2 : ∀ x, BootS s0 (f x)) : BootS s0 (o.elim d f) := by
  cases o
  · exact h1
  · exact h2 _

theorem emit_bootS {s0 s : State} (hk : BootS s0 s) (o : Out) : BootS s0 (emit o s) := BootS.mk' hk rfl

theorem countBy_bootS {s0 s : State} (hk : BootS s0 s) (code idx n : Nat) : BootS s0 (countBy code idx n s) :=
  BootS.mk' hk rfl

theorem count_bootS {s0 : State} (code : Nat) (idx : Nat) {s : State} (hk : BootS s0 s) : BootS s0
    (count code idx s) := by
  unfold count
  apply countBy_bootS; exact hk

theorem macSend_bootS {s0 : State} (p : Nat) (len : Nat) (o : Out) {s : State} (hk : BootS s0 s) : BootS s0
    (macSend p len o s) := by
  unfold macSend
  refine bootS_ite ?_ ?_
  · apply countBy_bootS; apply count_bootS; apply emit_bootS; exact hk
  · apply count_bootS; exact hk

theorem sendEvt_bootS {s0 : State} (p : Nat) (m : Mac) (e : Event) {s : State} (hk : BootS s0 s) : BootS s0
    (sendEvt p m e s) := by
  unfold sendEvt
  apply macSend_bootS; exact hk

theorem writeEvent_bootS {s0 s : State} (code unit : Nat) (beat : Stamp) (payload : List Fld) (hk : BootS s0 s) :
    BootS s0 (writeEvent code unit beat payload s) := by
  unfold writeEvent
  dsimp only
  split
  · apply sendEvt_bootS; exact BootS.mk' hk rfl
  · exact BootS.mk' hk rfl

theorem raiseAt_bootS {s0 s : State} (code unit : Nat) (beat : Stamp) (payload : List Fld) (hk : BootS s0 s) :
    BootS s0 (raiseAt code unit beat payload s) := by
  unfold raiseAt
  extract_lets m full
  refine bootS_ite ?_ (bootS_ite ?_ ?_)
  · apply count_bootS; exact hk
  · apply count_bootS; exact BootS.mk' hk rfl
  · apply writeEvent_bootS; exact hk

theorem raiseEv_bootS {s0 : State} (code : Nat) (unit : Nat) (payload : List Fld) {s : State} (hk : BootS s0 s)
    : BootS s0 (raiseEv code unit payload s) := by
  unfold raiseEv
  apply raiseAt_bootS; exact hk

theorem updateSummary_bootS {s0 : State} {s : State} (hk : BootS s0 s) : BootS s0 (updateSummary s) := by
  unfold updateSummary
  extract_lets l0 l1 l2 l3 l4 l5 l6; exact BootS.mk' hk rfl

theorem releaseFences_bootS {s0 : State} {s : State} (hk : BootS s0 s) : BootS s0 (releaseFences s) := by
  unfold releaseFences
  with_reducible refine foldl_bootS ?_ ?_
  · intro v0 v1 v2; apply raiseEv_bootS; exact v2
  · exact BootS.mk' hk rfl

theorem dropRecords_bootS {s0 : State} {s : State} (hk : BootS s0 s) : BootS s0 (dropRecords s) := by
  unfold dropRecords
  extract_lets l0 l1; apply countBy_bootS; exact BootS.mk' hk rfl

theorem capSet_bootS {s0 : State} (n : Nat) (c : Capture) {s : State} (hk : BootS s0 s) : BootS s0 (capSet n c s) := by
  unfold capSet
  exact BootS.mk' hk rfl

theorem captureFlush_bootS {s0 : State} (n : Nat) {s : State} (hk : BootS s0 s) : BootS s0 (captureFlush n s) := by
  unfold captureFlush
  extract_lets l0 l1 l2
  split
  · apply raiseEv_bootS; apply capSet_bootS; exact hk
  · apply capSet_bootS; exact hk

theorem captureEnd_bootS {s0 : State} (n : Nat) (e : Nat) {s : State} (hk : BootS s0 s) : BootS s0
    (captureEnd n e s) := by
  unfold captureEnd
  extract_lets l0 l1 l2 l3
  have hl3 : BootS s0 l3 := by
    unfold l3
    refine bootS_ite ?_ ?_
    · apply count_bootS; exact hk
    · exact hk
  clear_value l3
  refine bootS_ite ?_ ?_
  · exact hk
  · apply captureFlush_bootS; apply capSet_bootS; exact hl3

theorem captureEndAll_bootS {s0 : State} {s : State} (hk : BootS s0 s) : BootS s0 (captureEndAll s) := by
  unfold captureEndAll
  apply captureEnd_bootS; apply captureEnd_bootS; exact hk

theorem srExit_bootS {s0 : State} {s : State} (hk : BootS s0 s) : BootS s0 (srExit s) := by
  unfold srExit
  exact BootS.mk' hk rfl

theorem startFreqChange_bootS {s0 : State} (rate : BitVec 2) {s : State} (hk : BootS s0 s) : BootS s0
    (startFreqChange rate s) := by
  unfold startFreqChange
  refine bootS_ite ?_ ?_
  · exact hk
  · exact BootS.mk' hk rfl

theorem fifoSet_bootS {s0 : State} (i : Nat) (f : Fifo) {s : State} (hk : BootS s0 s) : BootS s0 (fifoSet i f s) := by
  unfold fifoSet
  exact BootS.mk' hk rfl

theorem fifoCut_bootS {s0 : State} (i : Nat) {s : State} (hk : BootS s0 s) : BootS s0 (fifoCut i s).1 := by
  unfold fifoCut
  extract_lets l0 l1
  split
  · dsimp only
    exact hk
  · refine bootS_ite1 ?_ ?_
    · dsimp only
      exact hk
    · extract_lets l2; dsimp only; apply fifoSet_bootS; exact hk

theorem efeStop_bootS {s0 : State} (lin : Nat) {s : State} (hk : BootS s0 s) : BootS s0 (efeStop lin s) := by
  unfold efeStop
  exact BootS.mk' hk rfl

theorem rxSetE_bootS {s0 : State} (e : Nat) (r : EfeRx) {s : State} (hk : BootS s0 s) : BootS s0 (rxSetE e r s) := by
  unfold rxSetE
  exact BootS.mk' hk rfl

theorem laneSet_bootS {s0 : State} (e : Nat) (l : Lane) {s : State} (hk : BootS s0 s) : BootS s0 (laneSet e l s) := by
  unfold laneSet
  exact BootS.mk' hk rfl

theorem trainLane_bootS {s0 : State} (e : Nat) {s : State} (hk : BootS s0 s) : BootS s0 (trainLane e s) := by
  unfold trainLane
  extract_lets l0 l1 l2
  have hl2 : BootS s0 l2 := by
    unfold l2; apply laneSet_bootS; exact hk
  clear_value l2; apply rxSetE_bootS; exact hl2

theorem trainAll_bootS {s0 : State} {s : State} (hk : BootS s0 s) : BootS s0 (trainAll s) := by
  unfold trainAll
  have h : BootS s0 ((List.range 256).foldl (fun s e => trainLane e s) s) := by
    with_reducible refine foldl_bootS ?_ ?_
    · intro v3 v4 v5; apply trainLane_bootS; exact v5
    · exact hk
  revert h
  generalize (List.range 256).foldl (fun s e => trainLane e s) s = u
  intro h
  exact BootS.mk' h rfl

theorem fgIdle_bootS {s0 : State} {s : State} (hk : BootS s0 s) : BootS s0 (fgIdle s) := by
  unfold fgIdle
  exact BootS.mk' hk rfl

theorem stopPrograms_bootS {s0 : State} {s : State} (hk : BootS s0 s) : BootS s0 (stopPrograms s) := by
  unfold stopPrograms
  apply fgIdle_bootS; exact BootS.mk' hk rfl

theorem evMode_bootS {s0 : State} (old : Mode) (new : Mode) (cause : Nat) {s : State} (hk : BootS s0 s)
    : BootS s0 (evMode old new cause s) := by
  unfold evMode
  apply raiseEv_bootS; exact hk

theorem leaseResetEvent_bootS {s0 : State} {s : State} (hk : BootS s0 s) : BootS s0 (leaseResetEvent s) := by
  unfold leaseResetEvent
  apply raiseEv_bootS; exact hk

end Sys2Proof.Machine
end

