-- ==== Sys2Proof/Laws/StillLnk.lean ====
section
/-! SUPPORT. What reporting leaves of the element links and of the time base. -/

namespace Sys2Proof.Machine
open Sys2Proof

/-- The links, the beat, the schedule and the pair stay as they were. -/
structure LnkStill (s0 s : State) : Prop where
  same : (s.lnk, s.tb.inc, s.tb.lin, s.tb.beat, s.tb.nextT, s.tb.openT, s.tb.par, s.nose.mode, s.nose.sched, s.frm.verdictSeq, s.twn) = (s0.lnk, s0.tb.inc, s0.tb.lin, s0.tb.beat, s0.tb.nextT, s0.tb.openT, s0.tb.par, s0.nose.mode, s0.nose.sched, s0.frm.verdictSeq, s0.twn)

theorem LnkStill.refl (s : State) : LnkStill s s := ⟨rfl⟩
theorem LnkStill.trans {a b c : State} (h : LnkStill a b) (k : LnkStill b c) : LnkStill a c := ⟨k.same.trans h.same⟩

theorem LnkStill.mk' {s0 s : State} {no bo b0 f tb l e st si ae sq dd fh m tw er ts pi c o fr pe}
    (h : LnkStill s0 s) (e0 : (l, tb.inc, tb.lin, tb.beat, tb.nextT, tb.openT, tb.par, no.mode, no.sched, f.verdictSeq, tw) = (s.lnk, s.tb.inc, s.tb.lin, s.tb.beat, s.tb.nextT, s.tb.openT, s.tb.par, s.nose.mode, s.nose.sched, s.frm.verdictSeq, s.twn)) :
    LnkStill s0 (State.mk no bo b0 f tb l e st si ae sq dd fh m tw er ts pi c o fr pe) := ⟨e0.trans h.same⟩

theorem lnkStill_ite {s0 : State} {c : Prop} [Decidable c] {a b : State} (h1 : LnkStill s0 a) (h2 : LnkStill s0 b) :
    LnkStill s0 (if c then a else b) := by split <;> assumption
theorem lnkStill_ite2 {α : Type} {s0 : State} {c : Prop} [Decidable c] {a b : α × State} (h1 : LnkStill s0 a.2) (h2 : LnkStill s0 b.2) :
    LnkStill s0 (if c then a else b).2 := by split <;> assumption
theorem lnkStill_ite1 {α : Type} {s0 : State} {c : Prop} [Decidable c] {a b : State × α} (h1 : LnkStill s0 a.1) (h2 : LnkStill s0 b.1) :
    LnkStill s0 (if c then a else b).1 := by split <;> assumption
theorem foldl_lnkStill {α : Type} {s0 : State} {l : List α} {f : State → α → State} {s : State}
    (hf : ∀ s x, LnkStill s0 s → LnkStill s0 (f s x)) (h : LnkStill s0 s) : LnkStill s0 (l.foldl f s) := by
  induction l generalizing s with
  | nil => exact h
  | cons x t ih => exact ih (hf s x h)
theorem elim_lnkStill {α : Type} {s0 : State} {o : Option α} {d : State} {f : α → State}
    (h1 : LnkStill s0 d) (h2 : ∀ x, LnkStill s0 (f x)) : LnkStill s0 (o.elim d f) := by
  cases o
  · exact h1
  · exact h2 _

theorem emit_lnkStill {s0 s : State} (hk : LnkStill s0 s) (o : Out) : LnkStill s0 (emit o s) := LnkStill.mk' hk rfl

theorem countBy_lnkStill {s0 s : State} (hk : LnkStill s0 s) (code idx n : Nat) : LnkStill s0 (countBy code idx n s) :=
  LnkStill.mk' hk rfl

theorem count_lnkStill {s0 : State} (code : Nat) (idx : Nat) {s : State} (hk : LnkStill s0 s) : LnkStill s0
    (count code idx s) := by
  unfold count
  apply countBy_lnkStill; exact hk

theorem macSend_lnkStill {s0 : State} (p : Nat) (len : Nat) (o : Out) {s : State} (hk : LnkStill s0 s) : LnkStill s0
    (macSend p len o s) := by
  unfold macSend
  refine lnkStill_ite ?_ ?_
  · apply countBy_lnkStill; apply count_lnkStill; apply emit_lnkStill; exact hk
  · apply count_lnkStill; exact hk

theorem sendEvt_lnkStill {s0 : State} (p : Nat) (m : Mac) (e : Event) {s : State} (hk : LnkStill s0 s) : LnkStill s0
    (sendEvt p m e s) := by
  unfold sendEvt
  apply macSend_lnkStill; exact hk

theorem writeEvent_lnkStill {s0 s : State} (code unit : Nat) (beat : Stamp) (payload : List Fld) (hk : LnkStill s0 s) :
    LnkStill s0 (writeEvent code unit beat payload s) := by
  unfold writeEvent
  dsimp only
  split
  · apply sendEvt_lnkStill; exact LnkStill.mk' hk rfl
  · exact LnkStill.mk' hk rfl

theorem raiseAt_lnkStill {s0 s : State} (code unit : Nat) (beat : Stamp) (payload : List Fld) (hk : LnkStill s0 s) :
    LnkStill s0 (raiseAt code unit beat payload s) := by
  unfold raiseAt
  extract_lets m full
  refine lnkStill_ite ?_ (lnkStill_ite ?_ ?_)
  · apply count_lnkStill; exact hk
  · apply count_lnkStill; exact LnkStill.mk' hk rfl
  · apply writeEvent_lnkStill; exact hk

theorem raiseEv_lnkStill {s0 : State} (code : Nat) (unit : Nat) (payload : List Fld) {s : State} (hk : LnkStill s0 s)
    : LnkStill s0 (raiseEv code unit payload s) := by
  unfold raiseEv
  apply raiseAt_lnkStill; exact hk

theorem rxSetE_lnkStill {s0 : State} (e : Nat) (r : EfeRx) {s : State} (hk : LnkStill s0 s) : LnkStill s0 (rxSetE e r s) := by
  unfold rxSetE
  exact LnkStill.mk' hk rfl

theorem rxOutput_lnkStill {s0 : State} (e : Nat) (x : Samp) {s : State} (hk : LnkStill s0 s) : LnkStill s0
    (rxOutput e x s) := by
  unfold rxOutput
  extract_lets l0 l1 l2 l3 l4 l5 l6 l7 l8; clear_value l0 l1 l2 l3
  have hl4 : ∀ a0 a1, LnkStill s0 a0 → LnkStill s0 (l4 a0 a1) := by
    intro v9 v10 v11; unfold l4; extract_lets l12 l13 l14; clear_value l12 l13
    have hl14 : LnkStill s0 l14 := by
      unfold l14; exact LnkStill.mk' v11 rfl
    clear_value l14; apply countBy_lnkStill; exact hl14
  clear_value l4
  have hl5 : LnkStill s0 l5 := by
    unfold l5
    with_reducible refine foldl_lnkStill ?_ ?_
    · intro v15 v16 v17; apply hl4; exact v17
    · exact hk
  clear_value l5
  have hl6 : LnkStill s0 l6 := by
    unfold l6; apply countBy_lnkStill; exact hl5
  clear_value l6 l7; apply rxSetE_lnkStill; exact hl6

theorem rxDrain_lnkStill {s0 : State} (e n : Nat) {s : State} (hk : LnkStill s0 s) : LnkStill s0 (rxDrain e n s) := by
  induction n generalizing s with
  | zero => exact hk
  | succ n ih =>
    rw [rxDrain]
    refine lnkStill_ite ?_ ?_
    · exact hk
    · extract_lets l0 l1 l2 l3 l4 l5; clear_value l0 l1 l2
      have hl3 : LnkStill s0 l3 := by
        unfold l3; apply countBy_lnkStill; exact hk
      clear_value l3 l4 l5
      refine lnkStill_ite ?_ ?_
      · exact hk
      · apply ih; apply rxOutput_lnkStill; exact hl3

theorem efeInput_lnkStill {s0 : State} (e : Nat) (l : List Samp) {s : State} (hk : LnkStill s0 s) : LnkStill s0
    (efeInput e l s) := by
  unfold efeInput
  extract_lets l0 l1 l2 l3 l4; clear_value l0
  have hl1 : LnkStill s0 l1 := by
    unfold l1; apply rxSetE_lnkStill; exact hk
  clear_value l1
  have hl2 : LnkStill s0 l2 := by
    unfold l2; apply rxDrain_lnkStill; exact hl1
  clear_value l2 l3 l4
  refine lnkStill_ite ?_ ?_
  · exact hl2
  · apply rxSetE_lnkStill; exact hl2

theorem releaseBlock_lnkStill {s0 : State} (e : Nat) (l : List (BitVec 16 × BitVec 16)) (crcOk : Bool) {s : State}
    (hk : LnkStill s0 s) : LnkStill s0 (releaseBlock e l crcOk s) := by
  unfold releaseBlock
  extract_lets l0 l1 l2; clear_value l0 l1 l2
  refine lnkStill_ite ?_ ?_
  · exact hk
  · refine lnkStill_ite ?_ ?_
    · apply efeInput_lnkStill; exact hk
    · refine lnkStill_ite ?_ ?_
      · split
        · apply efeInput_lnkStill; exact hk
        · apply efeInput_lnkStill; exact hk
      · refine lnkStill_ite ?_ ?_
        · apply efeInput_lnkStill; exact hk
        · exact hk

/-- The links and the time base stay as they were. -/
structure LnkS2 (s0 s : State) : Prop where
  same : (s.lnk, s.tb) = (s0.lnk, s0.tb)

theorem LnkS2.refl (s : State) : LnkS2 s s := ⟨rfl⟩
theorem LnkS2.trans {a b c : State} (h : LnkS2 a b) (k : LnkS2 b c) : LnkS2 a c := ⟨k.same.trans h.same⟩

theorem LnkS2.mk' {s0 s : State} {no bo b0 f tb l e st si ae sq dd fh m tw er ts pi c o fr pe}
    (h : LnkS2 s0 s) (e0 : (l, tb) = (s.lnk, s.tb)) :
    LnkS2 s0 (State.mk no bo b0 f tb l e st si ae sq dd fh m tw er ts pi c o fr pe) := ⟨e0.trans h.same⟩

theorem lnkS2_ite {s0 : State} {c : Prop} [Decidable c] {a b : State} (h1 : LnkS2 s0 a) (h2 : LnkS2 s0 b) :
    LnkS2 s0 (if c then a else b) := by split <;> assumption
theorem lnkS2_ite2 {α : Type} {s0 : State} {c : Prop} [Decidable c] {a b : α × State} (h1 : LnkS2 s0 a.2) (h2 : LnkS2 s0 b.2) :
    LnkS2 s0 (if c then a else b).2 := by split <;> assumption
theorem lnkS2_ite1 {α : Type} {s0 : State} {c : Prop} [Decidable c] {a b : State × α} (h1 : LnkS2 s0 a.1) (h2 : LnkS2 s0 b.1) :
    LnkS2 s0 (if c then a else b).1 := by split <;> assumption
theorem foldl_lnkS2 {α : Type} {s0 : State} {l : List α} {f : State → α → State} {s : State}
    (hf : ∀ s x, LnkS2 s0 s → LnkS2 s0 (f s x)) (h : LnkS2 s0 s) : LnkS2 s0 (l.foldl f s) := by
  induction l generalizing s with
  | nil => exact h
  | cons x t ih => exact ih (hf s x h)
theorem elim_lnkS2 {α : Type} {s0 : State} {o : Option α} {d : State} {f : α → State}
    (h1 : LnkS2 s0 d) (h2 : ∀ x, LnkS2 s0 (f x)) : LnkS2 s0 (o.elim d f) := by
  cases o
  · exact h1
  · exact h2 _

theorem emit_lnkS2 {s0 s : State} (hk : LnkS2 s0 s) (o : Out) : LnkS2 s0 (emit o s) := LnkS2.mk' hk rfl

theorem countBy_lnkS2 {s0 s : State} (hk : LnkS2 s0 s) (code idx n : Nat) : LnkS2 s0 (countBy code idx n s) :=
  LnkS2.mk' hk rfl

theorem count_lnkS2 {s0 : State} (code : Nat) (idx : Nat) {s : State} (hk : LnkS2 s0 s) : LnkS2 s0
    (count code idx s) := by
  unfold count
  apply countBy_lnkS2; exact hk

theorem sendTw_lnkS2 {s0 : State} (flags : Nat) (body : TwBody) {s : State} (hk : LnkS2 s0 s) : LnkS2 s0
    (sendTw flags body s) := by
  unfold sendTw
  refine lnkS2_ite ?_ ?_
  · apply emit_lnkS2; exact LnkS2.mk' hk rfl
  · exact hk

theorem logVerdict_lnkS2 {s0 : State} (v : Verdict) {s : State} (hk : LnkS2 s0 s) : LnkS2 s0 (logVerdict v s) := by
  unfold logVerdict
  extract_lets l0 l1 l2 l3 l4; clear_value l0 l1 l2 l3 l4
  refine lnkS2_ite ?_ ?_
  · exact LnkS2.mk' hk rfl
  · apply count_lnkS2; exact LnkS2.mk' hk rfl

theorem sendTwLead_lnkS2 {s0 : State} (flags : Nat) (body : TwBody) {s : State} (hk : LnkS2 s0 s) : LnkS2 s0
    (sendTwLead flags body s) := by
  unfold sendTwLead
  refine lnkS2_ite ?_ ?_
  · apply sendTw_lnkS2; exact hk
  · exact hk

theorem makeVerdict_lnkS2 {s0 : State} (cls : Nat) (unit : Nat) (beat : Stamp) (payload : Nat) {s : State} (hk
    : LnkS2 s0 s) : LnkS2 s0 (makeVerdict cls unit beat payload s) := by
  unfold makeVerdict
  extract_lets l0 l1 l2 l3 l4; clear_value l0 l1 l2 l3
  have hl4 : LnkS2 s0 l4 := by
    unfold l4; apply logVerdict_lnkS2; exact LnkS2.mk' hk rfl
  clear_value l4
  refine lnkS2_ite ?_ ?_
  · exact LnkS2.mk' hk rfl
  · refine lnkS2_ite ?_ ?_
    · apply sendTwLead_lnkS2; exact hl4
    · exact hl4

end Sys2Proof.Machine
end

