-- ==== Sys2Proof/WellFormed.lean ====
section
/-! DEFINITION. What an operand that its type leaves too wide must meet for a command to be one that the outside can
send. A meaning does not check it: it is total on every term. -/

namespace Sys2Proof

/-- 160 lane eyes, each with a width of at most 128 steps (R338). -/
def eyesWf (l : List (Nat × Nat)) : Bool :=
  l.length == 160 && l.all (fun p => decide (p.1 ≤ 128) && decide (p.2 < 128))

/-- A frame as a PCS delivers it: at least the two addresses and the EtherType (R266). -/
def frameWf (f : RxFrame) : Bool := decide (14 ≤ f.bytes.length)

/-- The options of a command are within what its row can carry. -/
def Instr.wellFormed : Instr → Bool
  | .formulaLoad _ _ _ _ data => decide (1 ≤ data.length ∧ data.length ≤ 4068)
  | .layerConfig _ _ items => decide (items.length ≤ 128)
  | .layerWeights _ _ _ _ _ nq w => w.length == nq.toNat * 256
  | .soundingTable _ _ _ _ _ data => decide (4 ≤ data.length ∧ data.length ≤ 4064) && data.length % 4 == 0
  | .memWrite _ _ length data => data.length == length.toNat
  | .accordJoin _ _ _ _ members => decide (members.length ≤ 64)
  | .flashWrite _ _ _ data => decide (1 ≤ data.length ∧ data.length ≤ 4064)
  | .fuseProgram _ _ _ count bits => bits.length == (count.toNat + 7) / 8
  | .memRestoreComplete eyes8 eyesS => eyesWf eyes8 && eyesWf eyesS
  | .bistComplete _ eyes8 eyesS => eyesWf eyes8 && eyesWf eyesS
  | .laneMultiblock _ samples _ _ => samples.length == 64
  | .macFrameReject f => frameWf f
  | .ecpriIqSection f => frameWf f
  | .ecpriRtControl f => frameWf f
  | .ecpriDelayMeasurement f => frameWf f
  | .ptpAnnounce f _ _ => frameWf f
  | .ptpSync f _ => frameWf f
  | .ptpFollowUp f _ => frameWf f
  | .ptpDelayResp f _ => frameWf f
  | .managementFrame f => frameWf f
  | .accordExchangeFrame f => frameWf f
  | .hbmRequest _ write _ data => !write || data.length == 32
  | .twVerdicts _ l => decide (l.length ≤ 384)
  | .twForward _ _ _ _ bytes => decide (bytes.length ≤ 9208)
  | .twState _ _ _ _ _ data => decide (data.length ≤ 9192)
  | .cmdDoorbell _ heads => decide (heads.length ≤ 64)
  | .porRelease run => eyesWf run.eyes8 && eyesWf run.eyesS
  | .captureWord _ word => decide (1 ≤ word.length)
  | _ => true

end Sys2Proof
end

