-- ==== Sys2Proof/Tests/Slice0.lean ====
section
/-! SUPPORT. The tests: for each statement with hypotheses a state and operands that meet them together, clause by clause;
ill-formed terms; the spec's worked examples with the numbers it gives. -/

set_option Elab.async false

open Sys2Proof Sys2Proof.Machine

namespace Sys2Proof.Tests

/-! Helpers: the header of an accepted PCIe command, a block in a mode whose next entry is that command, and a small formula. -/

def hdr : Hdr := ⟨.pcie, 7, true, true⟩

def ready (m : Mode) (op : Nat) (s : State) : State :=
  { s with nose := { s.nose with
    mode := m, mbxReady := true, lease := some (1, .pcie), arrived := [⟨.pcie, 7, BitVec.ofNat 16 op⟩] } }

/-- The command that waits alone is accepted in its modes. -/
theorem test_accepts {op : Nat} {m : Mode} {l : List Mode} {s : State} (ho : op < 65536) (hm : m ∈ l) (hb : m ≠ .boot)
    (hj : s.nose.jobs = []) (hr : s.nose.rspProd = s.nose.rspCons) : Accepts op hdr l (ready m op s) := by
  refine ⟨?_, .inr rfl, rfl, hm, ?_, rfl⟩
  · have h : nextHead (ready m op s) = some ⟨.pcie, 7, BitVec.ofNat 16 op⟩ := by
      have hs : servable (ready m op s) ⟨.pcie, 7, BitVec.ofNat 16 op⟩ = true := by
        unfold servable owedPcie ready
        dsimp only
        rw [hj, hr]
        simp [hb]
      show List.find? _ [_] = _
      rw [List.find?_cons, hs]
    unfold isNext
    rw [h]
    show ((Src.pcie == Src.pcie) && (7#32 == 7#32) && ((BitVec.ofNat 16 op).toNat == op)) = true
    rw [BitVec.toNat_ofNat, Nat.mod_eq_of_lt (by omega)]
    simp
  · unfold familyBusy ready
    dsimp only
    rw [hj]; rfl

def c0 : Carrier := ⟨true, true, true, false, 0, false, 3, 273, 4⟩
def f0 : Formula := { (default : Formula) with
  id := 9, length := 4096, drydown := true, carriers := [c0, default, default, default]
  queues := [⟨5, 4, 3, 3, 0, 0⟩, ⟨6, 1, 1, 3, 0, 1⟩]
  dd := some ⟨1, 0, 0x100000, 0, 0, 0, 0, [0], 1, 20, 0, 0⟩ }

/-- A block in a mode with the formula active, at beat 140 of its counting. -/
def running : State := { State.reset with
  frm := { State.reset.frm with active := some f0, executing := true }
  tb := { State.reset.tb with run := true, lin := 140, beat := stampOfLin 140 }
  mem := { State.reset.mem with st := .active }
  dd := { State.reset.dd with valid := [(0, 140)], n := 24 } }

theorem test_witness_StatusReadsReport : Accepts 0x0201 hdr modesBYOLM (ready .base 0x0201 State.reset)
    ∧ ∀ op ∈ [0x0403, 0x1003, 0x1902, 0x1B01, 0x2202, 0x2805], Accepts op hdr modesYOLM (ready .standby op State.reset) := by
  refine ⟨test_accepts (by decide) (by decide) (by decide) rfl rfl, fun op h => ?_⟩
  exact test_accepts (by revert op; decide) (by decide) (by decide) rfl rfl

theorem test_witness_StateReadsReport : Accepts 0x0103 hdr modesBYOLM (ready .sillage 0x0103 State.reset)
    ∧ Accepts 0x2004 hdr modesYOLM (ready .standby 0x2004 { State.reset with tb := { State.reset.tb with port := some 1 } })
    ∧ (Accepts 0x2203 hdr modesYOLM (ready .standby 0x2203 State.reset) ∧ State.reset.mem.diag = none)
    ∧ Accepts 0x2203 hdr modesYOLM (ready .standby 0x2203 { State.reset with mem := { State.reset.mem with diag := some default } })
    ∧ Accepts 0x1703 hdr modesOLM (ready .solo 0x1703 { State.reset with mem := { State.reset.mem with st := .frozen } })
    ∧ (Accepts 0x0501 hdr modesYOLM (ready .lead 0x0501 State.reset) ∧ counterRangeOk 0x0001 240 16 = true
      ∧ counterRangeOk 0x0001 241 16 = false) :=
  ⟨test_accepts (by decide) (by decide) (by decide) rfl rfl, test_accepts (by decide) (by decide) (by decide) rfl rfl,
    ⟨test_accepts (by decide) (by decide) (by decide) rfl rfl, rfl⟩, test_accepts (by decide) (by decide) (by decide) rfl rfl,
    test_accepts (by decide) (by decide) (by decide) rfl rfl, test_accepts (by decide) (by decide) (by decide) rfl rfl, by decide⟩

/-- The three answers of a record read: held, ahead of the newest, and not retained. -/
theorem test_witness_RecordReads : (Accepts 0x0601 hdr modesOLM (ready .solo 0x0601 State.reset) ∧ 1 ≤ (160#16).toNat)
    ∧ Accepts 0x0701 hdr modesBYOLM (ready .base 0x0701 State.reset)
    ∧ Accepts 0x0801 hdr modesBYOLM (ready .base 0x0801 State.reset)
    ∧ heldEvents { State.reset with nose := { State.reset.nose with evtSeq := 1, evtProd := 1, evtRing := [(0, default)] } } ≠ []
    ∧ (1 ≤ (0#32 - (0#32 - 1)).toNat ∧ (0x7FFFFFFE#32 - (0#32 - 1)).toNat ≤ 2 ^ 31 - 1)
    ∧ 2 ^ 31 - 1 < (0x7FFFFFFF#32 - (0#32 - 1)).toNat :=
  ⟨⟨test_accepts (by decide) (by decide) (by decide) rfl rfl, by decide⟩, test_accepts (by decide) (by decide) (by decide) rfl rfl,
    test_accepts (by decide) (by decide) (by decide) rfl rfl, by decide, by decide, by decide⟩

theorem test_witness_DataReads : Accepts 0x1101 hdr modesYOLM (ready .standby 0x1101 State.reset)
    ∧ (filterSet 67 = none ∧ ∃ l, filterSet 64 = some l ∧ l.length = 15)
    ∧ Accepts 0x1201 hdr modesOLM (ready .solo 0x1201 State.reset)
    ∧ (Accepts 0x3802 hdr [.base, .standby] (ready .base 0x3802 State.reset)
      ∧ (4064#16).toNat ≤ 4064 ∧ (0xFFFFF020#32).toNat + (4064#16).toNat ≤ 2 ^ 32)
    ∧ Accepts 0x3901 hdr modesBYOLM (ready .base 0x3901 State.reset) :=
  ⟨test_accepts (by decide) (by decide) (by decide) rfl rfl, ⟨by decide, _, rfl, by simp⟩, test_accepts (by decide) (by decide) (by decide) rfl rfl,
    ⟨test_accepts (by decide) (by decide) (by decide) rfl rfl, by decide⟩, test_accepts (by decide) (by decide) (by decide) rfl rfl⟩

/-- A stamp 20 slots after beat 140. -/
def s20 : Stamp := stampOfLin 420

theorem retained_one {s : State} (h : s.dd.valid = [(0, 140)]) (hl : 140 ≤ s.tb.lin) : isRetained s 136 = true := by
  unfold isRetained retained
  rw [h]
  simp [hl]

theorem test_witness_RegisterCommandsWrite : Accepts 0x0702 hdr modesBYOLM (ready .base 0x0702 State.reset)
    ∧ (Accepts 0x2901 hdr [.standby] (ready .standby 0x2901 State.reset) ∧ (16383#16).toNat ≤ 16383)
    ∧ (Accepts 0x0302 hdr modesBYOLM (ready .base 0x0302 State.reset) ∧ (1#8).toNat ≤ 1)
    ∧ (Accepts 0x2101 hdr modesYOLM (ready .standby 0x2101 State.reset) ∧ (7#8).toNat ≤ 7 ∧ (1#8).toNat ≤ 1
      ∧ 8 ≤ (8#32).toNat ∧ tinstOk ⟨0, 999999999, 15⟩ = true ∧ 2 * (8#32).toNat ≤ (16#64).toNat
      ∧ now16 (ready .standby 0x2101 State.reset) + 160000 ≤ tinst16 ⟨0, 999999999, 15⟩)
    ∧ Accepts 0x2102 hdr modesYOLM (ready .sillage 0x2102 State.reset)
    ∧ (Accepts 0x2003 hdr modesYOL (ready .lead 0x2003 State.reset) ∧ -16000000 ≤ (BitVec.ofInt 64 (-16000000)).toInt)
    ∧ (Accepts 0x1701 hdr modesOL (ready .solo 0x1701 running) ∧ stampValid (stampOfLin 136) = true
      ∧ (ready .solo 0x1701 running).mem.st ≠ .frozen ∧ linNear (ready .solo 0x1701 running) (stampOfLin 136) = 136
      ∧ isRetained (ready .solo 0x1701 running) 136 = true)
    ∧ (Accepts 0x1001 hdr modesYOL (ready .standby 0x1001 State.reset) ∧ tinstOk ⟨0, 10000, 0⟩ = true
      ∧ (ready .standby 0x1001 State.reset).nose.mode = .standby
      ∧ now16 (ready .standby 0x1001 State.reset) + 160000 ≤ tinst16 ⟨0, 10000, 0⟩) :=
  ⟨test_accepts (by decide) (by decide) (by decide) rfl rfl,
    ⟨test_accepts (by decide) (by decide) (by decide) rfl rfl, by decide⟩,
    ⟨test_accepts (by decide) (by decide) (by decide) rfl rfl, by decide⟩,
    ⟨test_accepts (by decide) (by decide) (by decide) rfl rfl, by decide⟩, test_accepts (by decide) (by decide) (by decide) rfl rfl,
    ⟨test_accepts (by decide) (by decide) (by decide) rfl rfl, by decide⟩,
    ⟨test_accepts (by decide) (by decide) (by decide) rfl rfl, by decide, by decide, by decide, retained_one rfl (by decide)⟩,
    ⟨test_accepts (by decide) (by decide) (by decide) rfl rfl, by decide⟩⟩

theorem test_witness_ClearingCommands :
    (Accepts 0x0502 hdr modesYOLM (ready .standby 0x0502 State.reset) ∧ counterRangeOk 0x0402 95 1 = true)
    ∧ Accepts 0x1301 hdr modesYOLM (ready .solo 0x1301 State.reset) :=
  ⟨⟨test_accepts (by decide) (by decide) (by decide) rfl rfl, by decide⟩, test_accepts (by decide) (by decide) (by decide) rfl rfl⟩

theorem test_witness_SlotBoundaryCommandsWait :
    (Accepts 0x2001 hdr modesYOL (ready .standby 0x2001 State.reset) ∧ timeParOk timeParReset.toNat = true)
    ∧ (Accepts 0x1901 hdr modesYOLM (ready .standby 0x1901 State.reset) ∧ portWordOk 5 (2 ^ 64) = true)
    ∧ (Accepts 0x1002 hdr modesYOLM (ready .sillage 0x1002 State.reset)
      ∧ linkWordStatus 255 1 0 (ready .sillage 0x1002 State.reset) = stOk)
    ∧ (Accepts 0x1004 hdr modesYOLM (ready .standby 0x1004 State.reset)
      ∧ (737280#32).toNat = (ready .standby 0x1004 State.reset).lnk.fs) :=
  ⟨⟨test_accepts (by decide) (by decide) (by decide) rfl rfl, by decide +kernel⟩,
    ⟨test_accepts (by decide) (by decide) (by decide) rfl rfl, by decide⟩,
    ⟨test_accepts (by decide) (by decide) (by decide) rfl rfl, by decide⟩,
    ⟨test_accepts (by decide) (by decide) (by decide) rfl rfl, by decide⟩⟩

def member (d : Nat) : BitVec 128 := BitVec.ofNat 128 (d * 2 ^ 114)

theorem test_witness_PairCommandsAccepted :
    (Accepts 0x1002 hdr modesYOL (ready .lead 0x1002 running) ∧ linkWordStatus 0 0 0 (ready .lead 0x1002 running) = stOk)
    ∧ (Accepts 0x1202 hdr modesYOL (ready .standby 0x1202 State.reset) ∧ (15#8).toNat ≤ 15 ∧ (1#8).toNat ≤ 1)
    ∧ (Accepts 0x2A01 hdr modesYOL (ready .solo 0x2A01 running)
      ∧ joinStatus 63 4095 [member 0, member 1] (ready .solo 0x2A01 running) = stOk
      ∧ checkS s20 (ready .solo 0x2A01 running) = stOk)
    ∧ (Accepts 0x2A02 hdr modesYOL (ready .solo 0x2A02 running) ∧ leaveStatus 63 (ready .solo 0x2A02 running) = stOk
      ∧ checkS s20 (ready .solo 0x2A02 running) = stOk)
    ∧ (Accepts 0x1401 hdr modesYOL (ready .standby 0x1401 { running with frm := State.reset.frm })
      ∧ layerItemsStatus [⟨3, 63, 0⟩] (ready .standby 0x1401 { running with frm := State.reset.frm }) = stOk
      ∧ checkS s20 (ready .standby 0x1401 { running with frm := State.reset.frm }) = stOk)
    ∧ (Accepts 0x1402 hdr modesYOL (ready .standby 0x1402 { running with frm := State.reset.frm })
      ∧ (270#16).toNat + (3#16).toNat ≤ weightGroups (ready .standby 0x1402 { running with frm := State.reset.frm }) 3)
    ∧ (Accepts 0x1C01 hdr modesYOL (ready .lead 0x1C01 running) ∧ (queueOf (ready .lead 0x1C01 running) 5).isSome = true
      ∧ 3 ≤ (3#8).toNat) :=
  ⟨⟨test_accepts (by decide) (by decide) (by decide) rfl rfl, by decide⟩,
    ⟨test_accepts (by decide) (by decide) (by decide) rfl rfl, by decide⟩,
    ⟨test_accepts (by decide) (by decide) (by decide) rfl rfl, by decide⟩,
    ⟨test_accepts (by decide) (by decide) (by decide) rfl rfl, by decide⟩,
    ⟨test_accepts (by decide) (by decide) (by decide) rfl rfl, by decide⟩,
    ⟨test_accepts (by decide) (by decide) (by decide) rfl rfl, by decide⟩,
    ⟨test_accepts (by decide) (by decide) (by decide) rfl rfl, by decide⟩⟩

/-- The peer's HELLO of a blank pair 7 in STANDBY, and the block that holds it with TW up. -/
def peer (s : State) : HelloP := { helloNow s with pairId := 7, index := 1, role := 1, fitness := 3 }
def linked (s : State) : State := { s with twn := { s.twn with up := true, pairId := 7, peerFit := 3, hello := some (peer s, 0) } }

theorem test_witness_CommandsForS_1 :
    (Accepts 0x2002 hdr modesOL (ready .lead 0x2002 running) ∧ (999999999#32).toNat < 1000000000 ∧ (15#16).toNat < 16
      ∧ checkTimeStep s20 (ready .lead 0x2002 running) = stOk)
    ∧ (Accepts 0x2206 hdr modesOL (ready .solo 0x2206 { running with mem := { running.mem with ready := true } })
      ∧ checkS s20 (ready .solo 0x2206 running) = stOk)
    ∧ (Accepts 0x1A01 hdr modesYOL (ready .standby 0x1A01 running) ∧ (13100#16).toNat + 4 ≤ 13104
      ∧ checkS s20 (ready .standby 0x1A01 running) = stOk ∧ (ready .standby 0x1A01 running).fhp.staged.length < 64) :=
  ⟨⟨test_accepts (by decide) (by decide) (by decide) rfl rfl, by decide⟩,
    ⟨test_accepts (by decide) (by decide) (by decide) rfl rfl, by decide⟩,
    ⟨test_accepts (by decide) (by decide) (by decide) rfl rfl, by decide⟩⟩

def loaded : State := { running with frm := { running.frm with pending := some { f0 with id := 10 } } }

theorem test_witness_CommandsForS_2 :
    Accepts 0x0402 hdr modesOL (ready .lead 0x0402 loaded) ∧ (ready .lead 0x0402 loaded).frm.pending = some { f0 with id := 10 }
      ∧ checkS s20 (ready .lead 0x0402 loaded) = stOk ∧ activateMeets s20 (ready .lead 0x0402 loaded) = stOk
      ∧ activateCheck { f0 with id := 10 } (ready .lead 0x0402 loaded) = stOk :=
  ⟨test_accepts (by decide) (by decide) (by decide) rfl rfl, rfl, by decide, by decide, by decide⟩

theorem test_witness_CommandsForS_3 :
    (Accepts 0x2801 hdr [.standby, .solo] (ready .standby 0x2801 (linked { running with frm := State.reset.frm }))
      ∧ helloMatches 7 0 (ready .standby 0x2801 (linked { running with frm := State.reset.frm })) = true)
    ∧ Accepts 0x2801 hdr [.standby, .solo] (ready .solo 0x2801 (linked running))
    ∧ (Accepts 0x2804 hdr [.lead] (ready .lead 0x2804 running) ∧ checkS s20 (ready .lead 0x2804 running) = stOk)
    ∧ (Accepts 0x2802 hdr [.lead] (ready .lead 0x2802 (linked running)) ∧ canRejoin (ready .lead 0x2802 (linked running)) = true
      ∧ pairTimingOk f0 = true) :=
  ⟨⟨test_accepts (by decide) (by decide) (by decide) rfl rfl, by decide +kernel⟩,
    test_accepts (by decide) (by decide) (by decide) rfl rfl,
    ⟨test_accepts (by decide) (by decide) (by decide) rfl rfl, by decide⟩,
    ⟨test_accepts (by decide) (by decide) (by decide) rfl rfl, by decide⟩⟩

/-- Two other holders: by force over PCIe, and in band without it. -/
def band : Src := .inband 1 0x020000000001 100

theorem test_witness_LeaseIsTakenAndFreed :
    (Accepts 0x0101 hdr modesBYOLM (ready .base 0x0101 State.reset) ∧ (5#64) ≠ 0 ∧ 100 ≤ (100#32).toNat ∧ (60000#32).toNat ≤ 60000
      ∧ (1#8).toNat ≤ 1 ∧ hdr.src = .pcie)
    ∧ (Accepts 0x0101 hdr modesBYOLM (ready .base 0x0101 State.reset)
      ∧ ¬ ((ready .base 0x0101 State.reset).nose.lease = none ∨ (ready .base 0x0101 State.reset).nose.lease = some (5, hdr.src)
        ∨ ((0#8) = 1 ∧ hdr.src = .pcie)))
    ∧ Accepts 0x0102 hdr modesBYOLM (ready .sillage 0x0102 State.reset)
    ∧ ((ready .base 0x0101 State.reset).nose.lease ≠ none) :=
  ⟨⟨test_accepts (by decide) (by decide) (by decide) rfl rfl, by decide⟩,
    ⟨test_accepts (by decide) (by decide) (by decide) rfl rfl, by decide⟩,
    test_accepts (by decide) (by decide) (by decide) rfl rfl, by decide⟩

theorem test_witness_ModeEnterAsCommanded : Accepts 0x0301 hdr [.base] (ready .base 0x0301 State.reset)
    ∧ (Accepts 0x0301 hdr [.standby] (ready .standby 0x0301 State.reset) ∧ hdr.src = .pcie)
    ∧ (Accepts 0x0301 hdr [.standby] (ready .standby 0x0301 running) ∧ soloCheck (ready .standby 0x0301 running) = stOk)
    ∧ (Accepts 0x0301 hdr [.solo] (ready .solo 0x0301 running) ∧ checkS s20 (ready .solo 0x0301 running) = stOk
      ∧ boundaryTaken s20 (ready .solo 0x0301 running) = false) :=
  ⟨test_accepts (by decide) (by decide) (by decide) rfl rfl,
    ⟨test_accepts (by decide) (by decide) (by decide) rfl rfl, by decide⟩,
    ⟨test_accepts (by decide) (by decide) (by decide) rfl rfl, by decide⟩,
    ⟨test_accepts (by decide) (by decide) (by decide) rfl rfl, by decide⟩⟩

def archived : State := { running with dd := { running.dd with archive := [(archiveKey 0 63 136, [default])] } }

theorem range_ok {s : State} (ht : s.tb = running.tb) (hd : s.dd = running.dd) (hm : s.mem.st = .active) (hf : s.frm = running.frm) :
    rangeCheck s 0 (stampOfLin 136) (stampOfLin 136) = stOk := by
  have e : linNear s (stampOfLin 136) = 136 := by unfold linNear; rw [ht]; decide
  have r : isRetained s 136 = true := retained_one (by rw [hd]; rfl) (by rw [ht]; decide)
  have f : firstBeat s 0 (stampOfLin 136) = some (stampOfLin 136) := by unfold firstBeat; rfl
  unfold rangeCheck
  rw [f]
  simp only [e, r]
  have a : storeAway s = false := by unfold storeAway; rw [hm]; rfl
  have b : isFenced s 7 0 = false := by unfold isFenced; rw [hf]; rfl
  rw [a, b]
  decide

theorem test_witness_LongCommandsBegin_1 :
    (Accepts 0x1601 hdr modesOL (ready .solo 0x1601 archived) ∧ jobFieldsOk (ready .solo 0x1601 archived) 0 5 = true
      ∧ stampValid (stampOfLin 136) = true ∧ storeAway (ready .solo 0x1601 archived) = false
      ∧ isFenced (ready .solo 0x1601 archived) 7 0 = false
      ∧ (FMap.find (ready .solo 0x1601 archived).dd.archive (archiveKey 0 63 (linNear (ready .solo 0x1601 archived) (stampOfLin 136)))).isSome
        = true)
    ∧ (Accepts 0x1702 hdr modesOL (ready .lead 0x1702 running) ∧ isEgress (ready .lead 0x1702 running) 4 5 = true
      ∧ rangeCheck (ready .lead 0x1702 running) 0 (stampOfLin 136) (stampOfLin 136) = stOk)
    ∧ (Accepts 0x1801 hdr modesYOL (ready .standby 0x1801 running) ∧ isEgress (ready .standby 0x1801 running) 4 5 = true
      ∧ 0 + (if (0#8) = 0 then 1288 else 24) * (1#16).toNat ≤ 0x4000000 ∧ isFenced (ready .standby 0x1801 running) 7 0 = false)
    ∧ (Accepts 0x2205 hdr modesYOLM (ready .sillage 0x2205 { running with mem := { running.mem with st := .frozen } })) :=
  ⟨⟨test_accepts (by decide) (by decide) (by decide) rfl rfl, by decide⟩,
    ⟨test_accepts (by decide) (by decide) (by decide) rfl rfl, by decide, range_ok rfl rfl rfl rfl⟩,
    ⟨test_accepts (by decide) (by decide) (by decide) rfl rfl, by decide⟩,
    test_accepts (by decide) (by decide) (by decide) rfl rfl⟩

theorem test_witness_LongCommandsBegin_2 :
    (Accepts 0x3004 hdr [.standby] (ready .standby 0x3004 running) ∧ bistOk ((0xFF20#16).toNat % 256) ((0xFF20#16).toNat / 256) = true
      ∧ bistOk ((0x0310#16).toNat % 256) ((0x0310#16).toNat / 256) = true ∧ anyLoop (ready .standby 0x3004 running) = false
      ∧ (ready .standby 0x3004 running).mem.st ≠ .frozen ∧ (ready .standby 0x3004 running).mem.st ≠ .reset)
    ∧ (Accepts 0x3801 hdr [.base, .standby] (ready .base 0x3801 State.reset)
      ∧ (ready .base 0x3801 State.reset).boot.sensed.policy.getLsbD 5 = false ∧ (0xFFFFFFFF#32).toNat + 1 ≤ 2 ^ 32)
    ∧ (Accepts 0x3902 hdr [.standby] (ready .standby 0x3902 State.reset) ∧ fuseLocked (ready .standby 0x3902 State.reset) 2 = false
      ∧ fuseLocked (ready .standby 0x3902 State.reset) 0 = true ∧ (0#16).toNat + (1544#16).toNat ≤ fuseSize 2
      ∧ (List.replicate 193 (0#8)).length = ceilDiv (1544#16).toNat 8)
    ∧ Accepts 0x2803 hdr [.lead] (ready .lead 0x2803 running) :=
  ⟨⟨test_accepts (by decide) (by decide) (by decide) rfl rfl, by decide⟩,
    ⟨test_accepts (by decide) (by decide) (by decide) rfl rfl, by decide⟩,
    ⟨test_accepts (by decide) (by decide) (by decide) rfl rfl, by decide +kernel⟩,
    test_accepts (by decide) (by decide) (by decide) rfl rfl⟩

theorem test_witness_RecombineRunMakesJobs : Accepts 0x1501 hdr modesOL (ready .solo 0x1501 running)
    ∧ jobFieldsOk (ready .solo 0x1501 running) 0 5 = true
    ∧ rangeCheck (ready .solo 0x1501 running) 0 (stampOfLin 136) (stampOfLin 136) = stOk
    ∧ (ddPar (ready .solo 0x1501 running)).isSome = true
    ∧ firstBeat (ready .solo 0x1501 running) 0 (stampOfLin 136) = some (stampOfLin 136) :=
  ⟨test_accepts (by decide) (by decide) (by decide) rfl rfl, by decide, range_ok rfl rfl rfl rfl, by decide, rfl⟩

/-- A load of 4,096 bytes whose first 4,068 have come. -/
def loading : State := { State.reset with frm := { State.reset.frm with load := some ⟨4096, 4068, false⟩ } }

theorem test_witness_FormulaLoadStoresChunks :
    (Accepts 0x0401 hdr modesYOL (ready .lead 0x0401 State.reset)
      ∧ chunkStatus 0 8388608 false 4068 (ready .lead 0x0401 State.reset) = stOk
      ∧ chunkStatus 0 4095 false 4068 (ready .lead 0x0401 State.reset) = stBadField)
    ∧ (Accepts 0x0401 hdr modesYOL (ready .standby 0x0401 loading)
      ∧ chunkStatus 4068 4096 true 28 (ready .standby 0x0401 loading) = stOk
      ∧ chunkStatus 4068 4096 false 28 (ready .standby 0x0401 loading) = stBadField) :=
  ⟨⟨test_accepts (by decide) (by decide) (by decide) rfl rfl, by decide⟩,
    ⟨test_accepts (by decide) (by decide) (by decide) rfl rfl, by decide⟩⟩

theorem test_witness_MemoryCommandsAct :
    (Accepts 0x2207 hdr modesYOLM (ready .standby 0x2207 running)
      ∧ hostReach (ready .standby 0x2207 running) (16384 * 524288 - 4064) 4064 = true
      ∧ hbmServes (ready .standby 0x2207 running) = true)
    ∧ (Accepts 0x2208 hdr modesYOL (ready .solo 0x2208 running) ∧ hostReach (ready .solo 0x2208 running) (47104 * 524288) 1 = true
      ∧ hbmServes (ready .solo 0x2208 running) = true)
    ∧ (Accepts 0x2201 hdr [.standby] (ready .standby 0x2201 running) ∧ regionsOk regionsReset = true ∧ memParOk memParReset.toNat = true
      ∧ ringFits regionsReset f0 = true)
    ∧ (Accepts 0x2204 hdr [.standby] (ready .standby 0x2204 running) ∧ (ready .standby 0x2204 running).mem.st = .active) :=
  ⟨⟨test_accepts (by decide) (by decide) (by decide) rfl rfl, by decide⟩,
    ⟨test_accepts (by decide) (by decide) (by decide) rfl rfl, by decide⟩,
    ⟨test_accepts (by decide) (by decide) (by decide) rfl rfl, by decide⟩,
    ⟨test_accepts (by decide) (by decide) (by decide) rfl rfl, by decide⟩⟩

def capturing : State := { State.reset with tst := { State.reset.tst with caps := [(0, { capReset with active := true, point := 0x11 })] } }

theorem test_witness_TestCommandsAct :
    (Accepts 0x3001 hdr [.standby] (ready .standby 0x3001 State.reset) ∧ loopDepths 3 = 2 ∧ 15 < 2 ^ loopItems 3
      ∧ loopWhole 2 2 = true ∧ (jobOf 0x3004 (ready .standby 0x3001 State.reset)).isNone = true)
    ∧ (Accepts 0x3002 hdr modesYOLM (ready .standby 0x3002 running) ∧ captureIndexes 0x11 = some 64 ∧ tinstOk ⟨1, 0, 0⟩ = true
      ∧ checkT (tinst16 ⟨1, 0, 0⟩) (ready .standby 0x3002 running) = stOk
      ∧ [0, 1].find? (fun n => !captureBusy (ready .standby 0x3002 running) n) = some 0)
    ∧ (Accepts 0x3003 hdr modesYOLM (ready .standby 0x3003 capturing)
      ∧ [0, 1].find? (fun n => (capGet (ready .standby 0x3003 capturing) n).active
        && (capGet (ready .standby 0x3003 capturing) n).point == 0x11 && (capGet (ready .standby 0x3003 capturing) n).index == 0)
        = some 0) :=
  ⟨⟨test_accepts (by decide) (by decide) (by decide) rfl rfl, by decide⟩,
    ⟨test_accepts (by decide) (by decide) (by decide) rfl rfl, by decide⟩,
    ⟨test_accepts (by decide) (by decide) (by decide) rfl rfl, by decide⟩⟩

def withJob (op : Nat) (b : JobBody) (s : State) : State :=
  { s with nose := { s.nose with jobs := [⟨.pcie, 7, BitVec.ofNat 16 op, 0, b⟩] } }

theorem test_witness_EndedJobIsAnswered : (State.reset.nose.rspProd - State.reset.nose.rspCons).toNat < 64
    ∧ portIsUp { State.reset with fhp := { State.reset.fhp with ports := [(1, { (default : PortSt) with st := 2 })] } } 1 = true := by
  decide

theorem test_witness_DeviceJobsComplete :
    ((jobOf 0x3902 (withJob 0x3902 (.fuse 5 14 [false, true]) State.reset)).isSome = true ∧ fuseSkip 14 [false, true] = (15, true :: []))
    ∧ ((jobOf 0x0401 (withJob 0x0401 .verify State.reset)).isSome = true
      ∧ (verifyPending (withJob 0x0401 .verify State.reset)).1 = stNoPending)
    ∧ (jobOf 0x2205 (withJob 0x2205 .memRestore State.reset)).isSome = true
    ∧ (jobOf 0x3004 (withJob 0x3004 (.bist 0x0310) State.reset)).isSome = true
    ∧ (jobOf 0x3801 (withJob 0x3801 (.flash 0xFFFFFFFF false [1]) State.reset)).isSome = true := by decide +kernel

theorem test_witness_HostJobsComplete :
    ((jobOf 0x1501 (withJob 0x1501 (.recombine 0 5 0 0 1) running)).isSome = true
      ∧ ∀ x ∈ (withJob 0x1501 (.recombine 0 5 0 0 1) running).dd.jobs, x.host = true → x.c = 0 → x.st ≠ .running)
    ∧ (jobOf 0x1601 (withJob 0x1601 (.csi 0 5 0 1) running)).isSome = true
    ∧ (jobOf 0x1702 (withJob 0x1702 (.ddFetch 5 0 0) running)).isSome = true
    ∧ (jobOf 0x1801 (withJob 0x1801 (.codec true false 5 1 0 0 0) running)).isSome = true
    ∧ (jobOf (0x1601#16).toNat (withJob 0x1601 (.failed 2) running)).isSome = true := by decide

/-- Cluster 5 with the word of an instruction at its program counter, 0. -/
def w0 : AeW := ⟨1, 2, true, false, false, true, 1, 0, 1, 0, 0⟩
def code (bg : Bool) (op : Nat) (w : AeW) : State :=
  { running with ae := { running.ae with clusters := [(5, { clOf running 5 with
    imem := [(0, aeEncode op w)]
    fg := { (clOf running 5).fg with run := !bg }, bg := { (clOf running 5).bg with run := bg } })] } }

/-- Every instruction word, the foreground's and the background's, can be the one that executes, with no move to wait for. -/
theorem test_witness_TermWordsRun_CellWordsRun_ControlWordsRun (bg : Bool) (op : Nat) (w : AeW) (acc : Access) :
    atPc (code bg op w) 5 bg op w = true ∧ noWait 5 bg acc (code bg op w) := by
  constructor
  · cases bg
    · show (true && (aeEncode op w == aeEncode op w)) = true
      simp
    · show (true && (aeEncode op w == aeEncode op w)) = true
      simp
  · refine .inr fun j _ => ?_
    have h : ∀ (y : Bool) (c : Nat), inboundPending (code bg op w) j y c = false := fun _ _ => rfl
    have h' : ∀ (y : Bool) (c : Nat), releasedPending (code bg op w) j y c = false := fun y c => by
      unfold releasedPending
      exact Bool.and_eq_false_iff.mpr (.inr rfl)
    unfold accessWaits
    simp [h, h']

/-- Block 0 of cluster 5 is moved in at cycle 100 of every symbol. -/
def m0 : Move := ⟨6, 4, 0x3FFF, 0, 5 * 0x100000, 100, 1⟩
def waits (op : Nat) : State := { code false op w0 with frm := { running.frm with active := some { f0 with moves := [m0] } } }

theorem test_witness_ControlWordsRun : (atPc (waits 1) 5 false 1 w0 = true ∧ ¬ noWait 5 false (readBoth false w0) (waits 1))
    ∧ (atPc (waits 16) 5 false 16 w0 = true ∧ ¬ noWait 5 false (roAccess false { w0 with k := false }) (waits 16))
    ∧ atPc (waits 1) 5 false 0x3F w0 = false ∧ atPc (waits 16) 5 false 0x01 w0 = false := by
  unfold noWait
  decide +kernel

theorem test_witness_GangMembersAreApart : OwnCluster (fun _ s => s) ∧ 5 ∈ gangOf running 5 ∧ 6 ∉ gangOf running 5 :=
  ⟨fun _ _ => ⟨fun _ _ => rfl, rfl, fun _ h _ => h⟩, by decide, by decide⟩

theorem test_witness_LanesTakeTheirTerms : 127 < 128
    ∧ SoundReads running 5 false false (rowCells 255) ∧ SoundReads running 5 false true (rowCells 255) := by
  unfold SoundReads
  decide +kernel

theorem test_witness_CellsTakeTheirValues : CommitHeld running 5
    ∧ SoundReads running 5 false true [32767]
    ∧ ∀ a ∈ rowCells 255, a < 32768 ∧ mayReach running 5 false true a = true := by
  refine ⟨fun y a _ h => absurd h (by show ¬ (none : Option Cell).isSome = true; simp), ?_, ?_⟩
  · unfold SoundReads
    decide +kernel
  · decide +kernel

/-- Cluster 5 with X row 255 in its background range, X cell 0 in a held range, and errors in X cells 1 and 2. -/
def cells : State := { running with
  frm := { running.frm with active := some { f0 with
    substs := [⟨4, 3, 1⟩]
    ae := { f0.ae with clusters := List.replicate 5 {} ++ [{ bgxFirst := 255, bgxRows := 1, bgEn := true, outs := [⟨3, false, 0, 1⟩] }] } } }
  ae := { running.ae with clusters := [(5, { clOf running 5 with
    x := [(1, { cell0 with ecc := 1 }), (2, { cell0 with ecc := 2 })], suspReq := true, jwait := true })] }
  dd := { running.dd with jobs := [⟨0, 136, true, .running, [], [(0, 5)], 1, []⟩] } }

theorem test_witness_CellAccessRules : mayReach cells 5 false false 32767 = false
    ∧ (mayReach cells 5 false false 1 = true ∧ (cellRaw cells 5 false 1).ecc = 1 ∧ FMap.find (clOf cells 5).commit (cellKey false 1) = none)
    ∧ (mayReach cells 5 false false 2 = true ∧ (cellRaw cells 5 false 2).ecc = 2 ∧ FMap.find (clOf cells 5).commit (cellKey false 2) = none)
    ∧ ∃ r, mayReach cells 5 false false 0 = true ∧ outRangeOf cells 5 false 0 = some r ∧ heldRange cells r = true :=
  ⟨by decide, by decide, by decide, _, by decide, rfl, by decide⟩

theorem test_witness_BackgroundIsServed : ((ddPar cells).isSome = true ∧ (nextPart cells 5).isSome = true ∧ (clOf cells 5).jwait = true
      ∧ hbmServes cells = true ∧ isFenced cells 7 0 = false ∧ isRetained cells 136 = true)
    ∧ ((clEntry cells 5).bgEn = true ∧ (clOf cells 5).suspended = false)
    ∧ ((clOf cells 5).suspReq = true ∧ interruptible (clOf cells 5) = true) :=
  ⟨⟨by decide, by decide, by decide, by decide, by decide, retained_one rfl (by decide)⟩, by decide, by decide⟩

/-- FRM's beat with a budget of STU instance 2, a move, and deadlines of carrier 0 and slot 63. -/
def b0 : Budget := ⟨2, 2, 0x3FFF, 0, 61440, 100⟩
def j0 : RcJob := ⟨0, 136, false, .running, [(63, 0)], [(0, 5)], 1, []⟩
def beat : State := { running with
  frm := { running.frm with active := some { f0 with
    budgets := [b0], moves := [m0], deadlines := [⟨2, 0, 4, 100⟩, ⟨3, 63, -1, 100⟩, ⟨4, 0, 4, 200⟩] } }
  dd := { running.dd with jobs := [j0] } }
def begun : State := { beat with frm := { beat.frm with running := [unitKey 2 2], moving := [0] } }

theorem test_witness_BeatProgramsRun : startBudget beat 2 2 = some b0 ∧ startBudget beat 4 95 = none
    ∧ (unitRunning begun 2 2 = true ∧ programDone begun 2 2 = true ∧ ∃ b, budgetOf begun 2 2 (linSymbol begun.tb.lin) = some b
      ∧ offsetNow begun ≤ b.limit)
    ∧ unitRunning begun 4 95 = false :=
  ⟨by decide, by decide, ⟨by decide, by decide, b0, by decide, by decide⟩, by decide⟩

/-- Cluster 5 stopped in the middle: X cell 7 written, X cell 0 in a held range with an entry in the commit buffer. -/
def stopped : State := { cells with ae := { cells.ae with clusters := [(5, { clOf cells 5 with
  written := [cellKey false 7], commit := [(cellKey false 0, cell0)] })] } }

theorem test_witness_StopsAndCommits : (cellKey false 7 ∈ (clOf stopped 5).written ∧ cellKey false 7 < 65536)
    ∧ (cellKey false 8 ∉ (clOf stopped 5).written ∧ (∀ key ∈ (clOf stopped 5).written, key < 65536)
      ∧ ∀ r ∈ (clEntry stopped 5).outs, r.kind ≠ 0 → heldRange stopped r = true)
    ∧ FMap.sorted (clOf stopped 5).commit = true ∧ ∀ p ∈ (clOf stopped 5).commit, p.1 < 65536 := by
  decide

theorem test_witness_MovesCarryTheirBytes :
    (moveNo beat 0 = some m0 ∧ beat.frm.executing = true ∧ inRupture beat = false ∧ beat.frm.moving.contains 0 = false
      ∧ beat.frm.moved.contains 0 = false)
    ∧ (begun.frm.moving.contains 0 = true ∧ sourceReady begun m0 = true) := by
  decide

theorem test_witness_CloseOutStages : (running.frm.stage = 0 ∧ beatsRun (ready .standby 0 running) = true)
    ∧ ({ running.frm with stage := 2 }).stage = 2 ∧ (ready .lead 0 running).nose.mode = .lead
    ∧ 14 < 15 ∧ unitInstances 4 = 96 := by
  decide

theorem test_witness_DeadlinesClose : (beat.frm.executing = true ∧ (ready .solo 0 beat).nose.mode ≠ .sillage)
    ∧ (ddDeadline beat 2 0 = some (4, 100)
      ∧ beat.dd.jobs.any (fun j => !j.host && j.c == 0 && j.lin == beat.tb.lin - 4 && j.st == .running && !j.todo.isEmpty) = true)
    ∧ slotDeadline beat 63 = some (-1, 100)
    ∧ (ddDeadline beat 4 0 = some (4, 200) ∧ (ddPar beat).isSome = true
      ∧ ([{ j0 with st := .done }].find? (fun j => !j.host && j.c == 0 && j.lin == beat.tb.lin - 4 && j.st == .done)).isSome = true) := by
  decide

/-- The block with the lane of element 9 as given, and the reference lane 0 in service. -/
def lane (l : Lane) : State := { State.reset with lnk := { State.reset.lnk with lanes := [(0, { (default : Lane) with st := .service }), (9, l)] } }
def laneIn (st : LaneSt) : Lane := { (default : Lane) with st := st }

theorem test_witness_LanesTrain : (laneOf (lane (laneIn .cdr)) 9).st = .cdr
    ∧ ((laneOf (lane (laneIn .block)) 9).st = .block ∧ lwTxEn (laneWord (lane (laneIn .block)) 9) = true
      ∧ txFromRef (lane (laneIn .block)) 9 = false)
    ∧ ((laneOf (lane (laneIn .lost)) 9).st = .lost ∧ (laneOf (lane (laneIn .lost)) 9).locked = false)
    ∧ ({ State.reset.lnk with trainAt := some 0 }).trainAt.isSome = true ∧ State.reset.lnk.trainAt = none
    ∧ (List.range 256).filter (fun i => (laneOf (lane (laneIn .cdr)) i).st == .cdr || (laneOf (lane (laneIn .cdr)) i).st == .block) = [9]
    := by
  decide +kernel

theorem test_witness_LanesAreLost : (laneOf (lane (laneIn .aligned)) 9).st = .aligned ∧ (laneOf (lane (laneIn .service)) 0).st = .service
    ∧ (laneOf (lane (laneIn .emb)) 9).st = .emb ∧ (laneOf State.reset 255).st = .off
    ∧ (laneOf (lane (laneIn .aligned)) 9).held = none ∧ (lane (laneIn .aligned)).lnk.ref.val ≠ 9 := by
  decide

/-- The next lane in service: from 255 around to 254, and none. -/
theorem test_witness_ReferenceSwitches :
    ((∀ i, 1 ≤ i → i ≤ 255 → inServiceLane State.reset ((State.reset.lnk.ref.val + i) % 256) = false))
    ∧ (inServiceLane (lane (laneIn .service)) (((lane (laneIn .service)).lnk.ref.val + 9) % 256) = true
      ∧ ∀ j, j < 9 → 1 ≤ j → inServiceLane (lane (laneIn .service)) (((lane (laneIn .service)).lnk.ref.val + j) % 256) = false) :=
  ⟨fun _ _ _ => rfl, by decide, by decide⟩

theorem test_witness_MultiblocksArrive :
    ((laneOf (lane (laneIn .emb)) 9).st ≠ .off ∧ (headerScan 0 0xFFFF).2 = true ∧ (headerScan 0 0x7FFF).2 = false)
    ∧ ((laneOf (lane { laneIn .emb with locked := true }) 9).locked = true ∧ (laneOf (lane (laneIn .emb)) 9).held = none
      ∧ (laneOf (lane { laneIn .emb with held := some [] }) 9).held = some [])
    ∧ ((laneOf (lane { laneIn .aligned with locked := true }) 9).rateFault = false
      ∧ (laneOf (lane { laneIn .aligned with locked := true }) 9).awaiting = none
      ∧ boundaryOk 9 1000 (lane { laneIn .aligned with locked := true }) = true)
    ∧ ((laneOf (lane { laneIn .emb with locked := true, awaiting := some 1000 }) 9).awaiting = some 1000 ∧ (1000 : Int) ≤ 1000) := by
  decide +kernel

def pulses (sent : Bool) : State := { lane (laneIn .block) with lnk := { (lane (laneIn .block)).lnk with
  lanes := [(9, { laneIn .block with awaiting := some 5 })], align := some (160000, 0x8001, 0x200, sent) } }

theorem test_witness_AlignmentAsCommanded :
    ((pulses false).lnk.align = some (160000, 0x8001, 0x200, false) ∧ (pulses false).nose.mode ≠ .sillage)
    ∧ ((pulses true).lnk.align = some (160000, 0x8001, 0x200, true) ∧ (0x200#256).getLsbD 9 = true
      ∧ (laneOf (pulses true) 9).awaiting.isSome = true ∧ alignTestOk (pulses true) 9 = false)
    ∧ ((laneOf (lane { laneIn .emb with txActive := true }) 9).txActive = true
      ∧ (laneOf (lane { laneIn .service with txActive := true, indexed := true }) 9).indexed = true
      ∧ (rxOf (lane (laneIn .service)) 9).zeroAt = none) := by
  decide +kernel

/-- A frame to the port's own address, padded to the least length. -/
def frame (s : State) (p : Fin 6) (et : Nat) (body : List Byte) : RxFrame :=
  let tag := if et ≠ 0x88F7 ∧ portTag s p.val = true then beBytes 2 0x8100 ++ beBytes 2 (portVid s p.val) else []
  let b := beBytes 6 (portMac s p.val) ++ beBytes 6 0x020000000001 ++ tag ++ beBytes 2 et ++ body
  ⟨p, true, b ++ List.replicate (60 - b.length) 0, 0, 0, 0⟩

/-- SOLO with H0, H1 and D0 up, PTP on H0, and room for 1,000 bytes in a window. -/
def air : State := ready .solo 0x0201 { running with
  fhp := { running.fhp with
    ports := [(0, { (default : PortSt) with st := 2 }), (1, { (default : PortSt) with st := 2 }), (2, { (default : PortSt) with st := 2 })]
    par := [(0, portWordReset running 0 ||| 0x800000000000000)] }
  frm := { running.frm with active := some { f0 with sq := { f0.sq with winBeat := [1000] } } } }
def ecpri (t : Nat) (l : List Byte) : List Byte := beBytes 4 (0x10000000 + t * 65536 + l.length) ++ l
/-- A section message of queue 6, carrier 0, section 77, for the air beat. -/
def section_ (b : Stamp) : List Byte := beBytes 2 6 ++ [0, 0x80] ++ beBytes 4 b.toNat ++ beBytes 12 (77 * 2 ^ 84)
def m1 : PtpMsg := ⟨24, 5, 9, 0, 0, false, true, true⟩

theorem test_witness_FramesAreAccepted :
    ¬ Receives (frame State.reset 0 0xAEFE []) State.reset
    ∧ (Receives (frame air 0 0xAEFE []) air ∧ { frame air 0 0xAEFE [] with fcsOk := false }.fcsOk = false)
    ∧ ¬ KindTaken (frame air 2 0xAEFE []) air
    ∧ FrameTaken 0xAEFE (frame air 0 0xAEFE []) air ∧ FrameTaken 0x88B6 (frame air 1 0x88B6 []) air
    ∧ FrameTaken 0x88B5 (frame air 2 0x88B5 []) air ∧ FrameTaken 0x88F7 (frame air 0 0x88F7 []) air
    ∧ ptpOn air 1 = false := by
  refine ⟨?_, ⟨?_, rfl⟩, ?_, ?_, ?_, ?_, ?_, by decide +kernel⟩ <;> (try unfold FrameTaken) <;> (try unfold Receives) <;>
    (try unfold KindTaken) <;> (try dsimp only) <;> decide +kernel

theorem test_witness_MessagesAreFiled_1 :
    FrameTaken 0xAEFE (frame air 0 0xAEFE (ecpri 0 (section_ (stampOfLin 150)))) air
    ∧ ecpriParse (ethParts (frame air 0 0xAEFE [0]).bytes).body = none
    ∧ ecpriParse (ethParts (frame air 0 0xAEFE (ecpri 0 (section_ (stampOfLin 150)))).bytes).body = some (0, section_ (stampOfLin 150))
    ∧ messageOk air 0 0 (section_ (stampOfLin 150)) = true ∧ messageOk air 0 2 (section_ (stampOfLin 150)) = false
    ∧ stampValid (msgBeat (section_ (stampOfLin 150))) = true ∧ stampValid (msgBeat (section_ 0x1F)) = false := by
  unfold FrameTaken Receives KindTaken
  dsimp only
  decide +kernel

/-- Early one beat past the horizon, in time at it, late at the admission instant itself. -/
theorem test_witness_MessagesAreFiled_2 :
    ((sqPar air).horizon < beatDist air.tb.beat (stampOfLin 169) ∧ beatDist air.tb.beat (stampOfLin 169) < 36700160)
    ∧ ¬ ((sqPar air).horizon < beatDist air.tb.beat (stampOfLin 168))
    ∧ (linNear air (stampOfLin 150) = 150 ∧ admissionTime air 0 150 ≤ rxStamp air (frame air 0 0xAEFE []) 0 * 2 ^ 36)
    ∧ (¬ (admissionTime air 0 150 ≤ rxStamp air (frame air 0 0xAEFE []) (-100000000000000000000000000) * 2 ^ 36) ∧ (4 * 150 + 0) ∉ air.sq.closed
      ∧ (windowOpen 0 (stampOfLin 150) air.sq.windows air).evicted = [] ∧ air.sq.windows = [])
    ∧ (keepPrefix ((sqPar air).winBeat.getD 0 0) (sectionLimit (windowOpen 0 (stampOfLin 150) [] air)) 0 []
      (insertRank ⟨false, 6, 77, 0, 0, section_ (stampOfLin 150), [], false⟩ [])).2 = [] := by
  decide +kernel

/-- A block whose window of beat 150 holds the message already. -/
def filed : State := { air with sq := { air.sq with windows :=
  [⟨0, stampOfLin 150, [⟨false, 6, 77, 0, 0, section_ (stampOfLin 150), [], false⟩], [], []⟩] } }
theorem test_witness_MessagesAreFiled_3 : ∃ v y, filed.sq.windows.find? (fun v => v.beat == stampOfLin 150
      && v.items.any (fun y => y.control == false && y.queue == 6 && y.ident == 77)) = some v
    ∧ v.items.find? (fun y => y.control == false && y.queue == 6 && y.ident == 77) = some y
    ∧ y.bytes.drop 4 = (section_ (stampOfLin 150)).drop 4 := ⟨_, _, rfl, rfl, by decide⟩

/-- One-way delay messages: request, request with follow-up asked of us, response, and a short one. -/
def delay (act : Nat) (n : Nat) : List Byte := [7, BitVec.ofNat 8 act] ++ List.replicate n 0
theorem test_witness_DelaysAreMeasured :
    (FrameTaken 0xAEFE (frame air 0 0xAEFE (ecpri 5 (delay 0 18))) air
      ∧ ecpriParse (ethParts (frame air 0 0xAEFE (ecpri 5 (delay 0 18))).bytes).body = some (5, delay 0 18) ∧ 20 ≤ (delay 0 18).length)
    ∧ (delay 0 17).length < 20 ∧ air.nose.mode ≠ .sillage ∧ (portGet air 0).measured = false
    ∧ ({ portGet air 0 with request := some (7, 5) }).request = some (7, 5) := by
  unfold FrameTaken Receives KindTaken
  dsimp only
  decide +kernel

/-- Layer 63 of carrier 0 in accord 4095 on slot 63, device 0 its anchor and device 1 a member. -/
def anchored : State := { air with
  ae := { air.ae with layers := [(63, BitVec.ofNat 128 (4095 * 2 ^ 84 + 63 * 2 ^ 78 + 2 * 2 ^ 13 + 2 ^ 10))] }
  twn := { air.twn with slots := [(63, (4095, [member 0, member 1]))] } }
/-- A frame of device 1 with one section of one block at PRB 0, for the air beat. -/
def accordBody (b : Stamp) : List Byte :=
  beBytes 24 (2 ^ 188 + 2 ^ 184 + 4095 * 2 ^ 164 + 2 ^ 146 + 63 * 2 ^ 122 + 2 ^ 96 + b.toNat * 2 ^ 64) ++ beBytes 8 (2 ^ 51) ++ List.replicate 73 0

theorem test_witness_AccordFramesAreFiled :
    FrameTaken 0x88B5 (frame anchored 2 0x88B5 (accordBody (stampOfLin 138))) anchored
    ∧ (let h := beAt (accordBody (stampOfLin 138)) 0 24
       let ctx := ctxOf anchored (bits h 163 162) (bits h 127 122)
       24 ≤ (accordBody (stampOfLin 138)).length ∧ bits h 191 188 = 1 ∧ bits h 187 184 = 1
      ∧ (bits h 182 176 = 0 ∧ bits h 161 160 = 0 ∧ bits h 145 144 = 0 ∧ bits h 129 128 = 0 ∧ bits h 115 104 = 0 ∧ bits h 31 0 = 0)
      ∧ bits h 143 130 = anchored.nose.deviceId.toNat ∧ (ctxUlEn ctx = true ∧ ctxMode ctx = 2 ∧ ctxAccord ctx = bits h 175 164)
      ∧ bits h 159 146 ∈ slotMembers anchored (ctxSlot ctx) (bits h 175 164) ∧ signed 6 (bits h 121 116) = ctxAccSh ctx
      ∧ 1 ≤ bits h 103 96 ∧ bits h 103 96 ≤ 12
      ∧ (accSections (bits h 103 96) ((accordBody (stampOfLin 138)).drop 24)).any (fun k => k.length == 1 && k.all (fun x =>
        x.p0 % 10 == 0 && decide (x.p0 + x.nblk ≤ (carrierOf anchored (bits h 163 162)).nprb))) = true)
    ∧ stampValid (stampOfLin 138) = true ∧ ¬ ((sqPar anchored).horizon < beatDist anchored.tb.beat (stampOfLin 138)
      ∧ beatDist anchored.tb.beat (stampOfLin 138) < 36700160)
    ∧ slotDeadline anchored 63 = none ∧ (63, 1, 138) ∉ anchored.fhp.late
    ∧ (⟨63, 1, stampOfLin 138, 0, 63, 0⟩ : Partial) ∉ anchored.fhp.arrived := by
  unfold FrameTaken Receives KindTaken
  dsimp only
  decide +kernel

/-- A management frame with NOSE.INFO, tag 9. -/
def entry : List Byte := beBytes 8 (2 ^ 60 + 2 ^ 56 + 16 * 2 ^ 32) ++ beBytes 16 (9 * 2 ^ 96 + 0x0201 * 2 ^ 80)
theorem test_witness_EntriesArriveAndPortsChange :
    (FrameTaken 0x88B6 (frame air 0 0x88B6 entry) air ∧ (let h := beAt entry 0 8
      bits h 63 60 = 1 ∧ bits h 59 56 = 1 ∧ 16 ≤ bits h 47 32 ∧ 8 + bits h 47 32 ≤ entry.length))
    ∧ air.nose.kept = [] ∧ outstanding (.inband 0 0x020000000001 0) air < 16
    ∧ ({ air with nose := { air.nose with arrived := List.replicate 16 ⟨.inband 0 0x020000000001 0, 1, 0x0201⟩ } }
      |> outstanding (.inband 0 0x020000000001 0)) = 16
    ∧ (portGet air 0).st = 2 ∧ (portGet air 5).st = 0 ∧ ({ portGet air 0 with st := 1 }).st = 1
    ∧ ({ portGet air 0 with st := 3 }).st = 3 := by
  unfold FrameTaken Receives KindTaken
  dsimp only
  decide +kernel

/-- H0 follows clock 5. -/
def slave : State := { air with tb := { air.tb with st := .locked, port := some 0, ptp :=
  [{ ptpPortReset with announce := some (default, 5, 0), sync := some ⟨9, 0, 0, none⟩, req := some (9, 4), exchange := some (1, 2, 3) },
    ptpPortReset] } }

theorem test_witness_PtpFollowsTheMaster_1 :
    FrameTaken 0x88F7 (frame slave 0 0x88F7 []) slave ∧ ptpOn slave 0 = true ∧ m1.supported = true
    ∧ m1.domain.toNat = ptpDomain slave ∧ fromMaster 0 m1 slave = true ∧ fromMaster 0 { m1 with clockId := 6 } slave = false
    ∧ (ptpOf slave 0).sync.any (fun h => h.seq == m1.seq) = true ∧ (ptpOf slave 0).req = some (m1.seq, 4)
    ∧ betterMaster default 6 0 default 5 0 = false ∧ betterMaster default 4 0 default 5 0 = true := by
  unfold FrameTaken Receives KindTaken
  dsimp only
  decide +kernel

theorem test_witness_PtpFollowsTheMaster_2 : (slave.tb.port = some 0 ∧ portIsUp slave 0 = true ∧ 0 < slave.tb.ptp.length)
    ∧ ptpOn slave 1 = false ∧ State.reset.tb.port = none ∧ tbActive slave = true ∧ tbActive State.reset = false
    ∧ bmcaPort slave = some 0 ∧ bmcaPort State.reset = none := by
  decide +kernel

def stage0 (first last : Bool) : Stage := ⟨List.replicate 64 0, first, last, 64, 0⟩
def due0 : Due := .aux [1] false
def pkt0 : Pkt := { (default : Pkt) with void := false }
def fifo (f : Fifo) : State := { air with sq := { air.sq with fifos := [(15, f)] } }
def writing0 (l : List Stage) : Writing := ⟨5, due0, l, none, none⟩

theorem test_witness_EgressFifosMove :
    ((fifoOf air 15).writing = none ∧ (fifoOf air 15).due = [])
    ∧ (fifoOf (fifo ⟨[], [(5, due0)], none, [], none⟩) 15).due = (5, due0) :: []
    ∧ ((fifoOf (fifo ⟨List.replicate 32 (stage0 false false), [], some (writing0 []), [], none⟩) 15).writing = some (writing0 [])
      ∧ 32 ≤ (fifoOf (fifo ⟨List.replicate 32 (stage0 false false), [], some (writing0 []), [], none⟩) 15).stages.length)
    ∧ (fifoOf (fifo ⟨List.replicate 31 (stage0 false false), [], some (writing0 [stage0 false true]), [], none⟩) 15).stages.length < 32
    ∧ ((fifoOf (fifo ⟨[stage0 true true], [], none, [pkt0], none⟩) 15).packets = [pkt0] ∧ (stage0 true true).ecc = 0
      ∧ bufferTake (fifo ⟨[stage0 true true], [], none, [pkt0], none⟩) = some 0)
    ∧ (fifoOf (fifo ⟨[stage0 false true], [], none, [pkt0], some (some 255, 64, false)⟩) 15).draining = some (some 255, 64, false) := by
  decide +kernel

/-- Queue 5 with one descriptor, of a whole packet and of a void one, and of a queue that sends. -/
def rung (d : Nat) : State := { air with
  frm := { air.frm with active := some { f0 with queues := [⟨5, 4, 3, 3, 0, 0⟩], sq := { f0.sq with pktBase := some 8192 } } }
  sq := { air.sq with rings := [(5, ⟨0, 1, 1, 3⟩)] }
  mem := { air.mem with res := [(0, BitVec.ofNat 8 d), (9, 32)] } }

theorem test_witness_PacketsLeaveAndGroupsAreCoded_1 :
    ((ringState air 5).d = 0)
    ∧ ((isEgress (rung 0) 3 5 || isEgress (rung 0) 4 5) = true ∧ (rung 0).nose.mode ≠ .sillage
      ∧ FMap.find (rung 0).sq.sending (egressPort (rung 0) 5) = none ∧ 0 < (ringState (rung 0) 5).d)
    ∧ (bitN (leNat (regionRead 0 0xB 0 2 (ringEntryAt (rung 0) 5 0) 16 (rung 0)).1) 0 = false
      ∧ bitN (leNat (regionRead 0 0xB 0 2 (ringEntryAt (rung 1) 5 0) 16 (rung 1)).1) 0 = true
      ∧ portIsUp (rung 0) (egressPort (rung 0) 5) = true) := by
  decide +kernel

/-- The first group of the last carrier is not the first of the beat; the last group completes the flacon. -/
def encoding (n : Nat) : State := { air with
  frm := { air.frm with active := some { f0 with carriers := [c0, c0, default, default] } }
  dd := { air.dd with writing := some (0, 138, n, 0) } }

theorem test_witness_PacketsLeaveAndGroupsAreCoded_2 :
    (FMap.find air.sq.sending 5 = none)
    ∧ ((ddPar air).isSome = true ∧ (3, 15) ∉ ddGroups air)
    ∧ ((ddGroups (encoding 16)).findIdx? (fun x => x == (1, 0)) = some 16 ∧ isFenced (encoding 16) 8 0 = false
      ∧ isFenced (encoding 16) 7 0 = false ∧ 16 + 1 ≠ (ddGroups (encoding 16)).length)
    ∧ ((ddGroups (encoding 31)).findIdx? (fun x => x == (1, 15)) = some 31 ∧ 31 + 1 = (ddGroups (encoding 31)).length) := by
  decide +kernel

def req0 (w issued : Bool) : HbmReq := ⟨0, 1, w, 0, 0, 0, 0, [], 0, issued⟩
def pc0 : PcSt := pcReset
def chan (p : PcSt) : State := { air with mem := { air.mem with pcs := [(31, p)] } }

theorem test_witness_HbmServesRequests_1 :
    (24 * 2 ^ 30 ≤ (0x600000000#35).toNat) ∧ ((0x5FFFFFFFF#35).toNat < 24 * 2 ^ 30 ∧ air.mem.st = .active)
    ∧ ¬ (air.mem.rtr + 32 > 1048576) ∧ ({ air.mem with rtr := 1048545 }).rtr + 32 > 1048576
    ∧ State.reset.mem.st ≠ .active := by
  decide

theorem test_witness_HbmServesRequests_2 :
    (({ air with mem := { air.mem with entering := true } }).mem.entering = true ∧ hbmBusy air = false)
    ∧ ({ air.mem with change := some 1 }).change ≠ none
    ∧ (hbmBusy (chan { pc0 with queue := [req0 true false] }) = true
      ∧ (firstRequest (chan { pc0 with queue := [req0 true false] }) { pc0 with queue := [req0 true false] }).isSome = true)
    ∧ ((pcOf (chan { pc0 with queue := [req0 true false], banks := [(47, { bankReset with neighbour := some 5 })] }) 31).banks.find?
      (fun b => b.2.neighbour.isSome)).isSome = true
    ∧ (refreshReady (chan { pc0 with debt := 1, unit := 47 }) { pc0 with debt := 1, unit := 47 } = true ∧ inPanic air = false)
    ∧ firstRequest air pc0 = none
    ∧ ({ pc0 with queue := [req0 false true] }.queue.find? (fun q => q.issued)) = some (req0 false true) := by
  decide +kernel

theorem test_witness_MemoriesKeepThemselves :
    (air.mem.st = .active) ∧ (State.reset.mem.st = .reset) ∧ ({ air.mem with st := .frozen }).st = .frozen
    ∧ (inPanic { air with mem := { air.mem with panicW := true } } = true ∧ (pcOf (chan { pc0 with debt := 6 }) 31).debt + 1 < 8)
    ∧ (pcOf (chan { pc0 with queue := [req0 true false] }) 31).queue.any (fun q => !q.issued && q.bank == 0) = true
    ∧ (pcOf air 31).queue.any (fun q => !q.issued && q.bank == 47) = false
    ∧ ((ready .standby 0 running).mem.change = none ∧ hbmBusy (ready .standby 0 running) = false
      ∧ bits (ready .standby 0 running).mem.par.toNat 40 25 ≠ 0)
    ∧ lineState { air with mem := { air.mem with bad := [(lineKey 0 1048575, 1)] } } 0 1048575 = 1 ∧ lineState air 0 0 = 0 := by
  decide +kernel

/-- A device of pair 7 in a mode, TW up, the peer's next frame number 42. -/
def paired (m : Mode) : State :=
  let s := ready m 0x0201 air
  { s with twn := { s.twn with up := true, pairId := 7, rxSeq := some 41, fitness := .fit } }
def twh : TwHdr := ⟨7, 42, stampOfLin 140, true, 0⟩

theorem test_witness_TwinFramesAreTaken : TwTaken false twh (paired .sillage) ∧ TwTaken true { twh with pairId := 8 } (paired .lead)
    ∧ ((paired .lead).twn.up = true ∧ beatsRun (paired .lead) = true ∧ { twh with crcOk := false }.crcOk = false)
    ∧ beatsRun State.reset = false ∧ (paired .sillage).nose.mode = .sillage := by
  refine ⟨⟨rfl, by decide, rfl, ?_, .inr (.inr rfl)⟩, ⟨rfl, by decide, rfl, ?_, .inl rfl⟩, by decide, by decide, by decide⟩ <;>
    rintro q ⟨⟩ <;> decide

theorem test_witness_TwinFramesAct_1 :
    (ecpriParse (ethParts (frame air 1 0xAEFE (ecpri 0 (section_ (stampOfLin 150)))).bytes).body).isSome = true
    ∧ ((paired .sillage).sq.closed.contains (4 * linNear (paired .sillage) (stampOfLin 150) + 3) = false
      ∧ (paired .sillage).frm.startBeat + (carrierOf (paired .sillage) 3).admitBeats < linNear (paired .sillage) (stampOfLin 150))
    ∧ ({ paired .sillage with twn := { (paired .sillage).twn with fitness := .preparing } }.twn.fitness = .preparing
      ∧ (paired .sillage).frm.vcount < 8192 ∧ twh.beat ∉ (paired .sillage).twn.selfRuled)
    ∧ (stampOfLin 140 = (paired .sillage).tb.beat ∧ (paired .sillage).twn.sealed_ = false ∧ stampOfLin 139 ≠ (paired .sillage).tb.beat)
    ∧ (checkAct .formulaActivate (twNoted twh (paired .sillage)) ≠ stOk
      ∧ checkAct (.linkConfig 9 0 (laneWordReset 9)) (twNoted twh (paired .sillage)) = stOk)
    ∧ ((paired .sillage).twn.waiting.find? (fun w => w.1 == 3) = none ∧ (paired .sillage).twn.fitness ≠ .preparing)
    ∧ (stampValid s20 = true ∧ stampSymbol s20 = 0 ∧ beatDist (paired .sillage).tb.beat s20 ≠ 0
      ∧ beatDist (paired .sillage).tb.beat s20 < 36700160) := by
  decide +kernel

/-- A lead that waits for the ACK of LINK.CONFIG, number 3, and one in a handover. -/
def awaiting : State := withJob 0x1002 (.pairWait 3 (.linkConfig 9 0 0) .nextSlot 0 []) (paired .lead)

theorem test_witness_TwinFramesAct_2 :
    (TwTaken false twh (paired .lead) ∧ (paired .lead).nose.mode = .lead ∧ (paired .lead).twn.rejoinAt = none)
    ∧ waitingJob 3 (paired .lead) = none
    ∧ ((waitingJob 3 awaiting).isSome = true ∧ ackInTime (.linkConfig 9 0 0) .nextSlot 0 awaiting = true)
    ∧ ({ (paired .lead).twn with handover := some (s20, 1) }).handover = some (s20, 1)
    ∧ followsLead (paired .sillage) = true ∧ followsLead (paired .lead) = false :=
  ⟨⟨⟨rfl, by decide, rfl, by rintro q ⟨⟩; decide, .inr (.inr rfl)⟩, by decide, by decide⟩, by decide, by decide, by decide, by decide, by decide⟩

theorem test_witness_TwinFailuresAct_1 :
    (beatsRun (paired .lead) = true ∧ (paired .lead).twn.up = true) ∧ State.reset.twn.up = false
    ∧ (beatsRun air = true ∧ air.twn.up = false)
    ∧ (awaiting.nose.jobs.find? (fun j => match j.body with
          | .pairWait .. => true
          | _ => false)).isSome = true
    ∧ ({ (paired .lead).twn with handover := some (s20, 1) }.handover.isSome = true ∧ (paired .lead).twn.handoverAck = false)
    ∧ ((paired .sillage).twn.failed = false ∧ (paired .sillage).twn.handover = none)
    ∧ (paired .solo).nose.mode ≠ .lead ∧ (paired .solo).nose.mode ≠ .sillage := by
  decide

/-- A planned takeover at the next boundary, acknowledged. -/
def switching (m : Mode) : State := { paired m with twn := { (paired m).twn with handover := some (stampOfLin 141, 1), handoverAck := true } }

theorem test_witness_TwinFailuresAct_2 :
    (takeoverNext (switching .lead) = true ∧ (switching .lead).twn.handoverAck = true)
    ∧ (takeoverNext (paired .lead) = false ∧ yieldNext (paired .lead) = false)
    ∧ ((paired .sillage).frm.executing = true
      ∧ (paired .sillage).sq.closed.contains (4 * ((paired .sillage).tb.lin + (carrierOf (paired .sillage) 3).admitBeats) + 3) = false)
    ∧ ({ (paired .lead).twn with rejoinAt := some 100 }.rejoinAt.isSome = true ∧ (paired .lead).twn.joinAt = none) := by
  decide

/-- STANDBY with the counter running, the discipline in a state, and one value of the second. -/
def timed (st : TbState) (l : List (Rat × Rat)) : State :=
  let s := ready .standby 0x0201 State.reset
  { s with tb := { s.tb with run := true, st := st, values := l, nextT := 10 ^ 30 } }

theorem test_witness_SecondsAndPulses_1 :
    State.reset.tb.run = false ∧ (timed .free []).tb.run = true ∧ (timed .holdover []).tb.holdRaised = false
    ∧ (timed .acquiring []).tb.values = [] ∧ (timed .acquiring []).tb.st ≠ .free ∧ (timed .acquiring []).tb.st ≠ .holdover
    ∧ timePinsOn (timed .free []) = true ∧ timePinsOn State.reset = false := by
  decide +kernel

theorem test_witness_SecondsAndPulses_2 : followsLead (timed .locked []) = false ∧ (timePar (timed .locked []) 263 244 : Rat) = 1000
    ∧ (timePar (timed .locked []) 243 230 : Rat) = 50
    ∧ (absR (meanR [(1000 : Rat)]) ≤ 1000 ∧ absR (meanR [(50 : Rat)] - (timed .locked [(1000, 50)]).tb.mref) ≤ 50)
    ∧ (absR (meanR [(1001 : Rat)]) > 1000 ∧ (timed .locked []).tb.big = 0)
    ∧ absR (meanR [(51 : Rat)] - (timed .locked [(0, 51)]).tb.mref) > 50
    ∧ (timed .stepNeeded [(0, 51)]).tb.values ≠ [] := by
  decide +kernel

def trigger : Trigger := ⟨sec40, 8, 16, 2, false, 0⟩

theorem test_witness_SecondsAndPulses_3 :
    FMap.find (timed .free []).tb.triggers 7 = none
    ∧ FMap.find { (timed .free []).tb with triggers := [(7, trigger)] }.triggers 7 = some trigger
    ∧ (trigger.period ≠ 0 ∧ trigger.done + 1 ≠ trigger.count ∧ { trigger with done := 1 }.done + 1 = trigger.count)
    ∧ (trigger.t + (trigger.done * trigger.period : Nat) * 2 ^ 40 ≤ (timed .free []).tb.nextT ∧ 0 < (timed .free []).tb.inc.toNat)
    ∧ ((timed .free []).tb.pulses = [] ∧ { (timed .free []).tb with pulses := [(.pps, 5)] }.pulses = [] ++ (.pps, 5) :: []
      ∧ { State.reset with outs := [.pulse .pps true 3] }.outs = [] ++ .pulse .pps true 3 :: []) := by
  decide +kernel

def capturing2 (c : Capture) : State := { air with tst := { air.tst with caps := [(1, c)] } }
def cap0 : Capture := { capReset with active := true, words := 2 }

theorem test_witness_CapturesAndCheckers_1 :
    (capGet air 1).active = false
    ∧ (capGet (capturing2 cap0) 1 = cap0 ∧ cap0.active = true ∧ cap0.ending = none ∧ cap0.begun = false ∧ cap0.fifo = []
      ∧ cap0.owed = [] ∧ cap0.words ≠ 0)
    ∧ (let c := { cap0 with begun := true, done := 1, fifo := List.replicate 31 (stage0 false false) }
      (capGet (capturing2 c) 1).fifo.length < 32 ∧ c.done + 1 = c.words ∧ { c with done := 0 }.done + 1 ≠ c.words
        ∧ 32 ≤ { c with fifo := List.replicate 32 (stage0 false false) }.fifo.length)
    ∧ (let c := { cap0 with fifo := [stage0 true false] }
      capGet (capturing2 c) 1 = c ∧ c.dest = 0 ∧ c.buf.length < 4096 ∧ { c with dest := 1 }.dest = 1 ∧ air.mem.st = .active) := by
  decide +kernel

theorem test_witness_CapturesAndCheckers_2 :
    (∃ c, c = { cap0 with fifo := [stage0 true false], buf := List.replicate 4096 (stage0 false false) } ∧ 4096 ≤ c.buf.length)
    ∧ patternLoop air 0 255 = false
    ∧ (let s : State := { air with tst := { air.tst with loop := [(loopKey 3 255, 1)], checkers := [(loopKey 3 255, ⟨true, 0, 1023, 62⟩)] } }
      patternLoop s 3 255 = true ∧ (FMap.get checkerReset s.tst.checkers (loopKey 3 255)).locked = true
        ∧ (FMap.get checkerReset s.tst.checkers (loopKey 3 254)).locked = false) := by
  exact ⟨⟨_, rfl, Nat.le_of_eq (List.length_replicate).symm⟩, by decide +kernel⟩

theorem test_witness_HostRegistersAct_1 :
    State.reset.nose.mbxReady = false
    ∧ (let n := (ready .standby 0x0201 State.reset).nose
      n.mbxReady = true ∧ (64 < (65 - n.cmdCons).toNat) ∧ ((64 - n.cmdCons).toNat ≤ 64)
        ∧ (n.cmdProd - n.cmdCons).toNat < (64 - n.cmdCons).toNat ∧ (0 - n.cmdCons).toNat ≤ (n.cmdProd - n.cmdCons).toNat)
    ∧ (let n := (ready .standby 0x0201 State.reset).nose
      (n.rspProd - n.rspCons).toNat < (1 - n.rspCons).toNat ∧ (0 - n.rspCons).toNat ≤ (n.rspProd - n.rspCons).toNat)
    ∧ (let s := { ready .standby 0x0201 State.reset with nose := { (ready .standby 0x0201 State.reset).nose with evtProd := 1, evtLost := 0 } }
      s.nose.lease = some (1, .pcie) ∧ (1 - s.nose.evtCons).toNat ≤ evtHeld s ∧ evtHeld s < (2 - s.nose.evtCons).toNat) := by
  decide

theorem test_witness_HostRegistersAct_2 :
    (timed .free []).tb.run = true ∧ ((1#32).getLsbD 0 = true ∧ (2#32).getLsbD 0 = false)
    ∧ (capGet air 1).buf = [] ∧ (capGet (capturing2 { cap0 with buf := [stage0 true true] }) 1).buf = stage0 true true :: []
    ∧ (¬ ((3 : Fin 9).val = 4 ∧ (0x0F02#16).toNat % 4 = 0) ∧ ¬ ((4 : Fin 9).val = 4 ∧ (0x0F02#16).toNat % 4 = 0))
    ∧ (0x301C#16).toNat = 0x3000 + 4 * (7 : Fin 8).val
    ∧ (0xF000 ≤ (0xF01C#16).toNat ∧ (0xF01C#16).toNat < 0xF020)
    ∧ ((0x3018#16).toNat % 8 = 0 ∧ (8 : Fin 9).val = 8)
    ∧ (let s := { State.reset with
        nose := { State.reset.nose with msixDue := 2#2 }, bar0 := { State.reset.bar0 with msixTable := [(12, 0), (28, 0)] } }
      s.nose.msixAt.length = 2 ∧ s.nose.msixDue.getLsbD 1 = true ∧ (msixWord s 28).getLsbD 0 = false ∧ s.nose.msixAt.getD 1 0 = 0)
    ∧ (State.reset.nose.msixDue.getLsbD 0 = false ∧ (msixWord State.reset 12).getLsbD 0 = true) := by
  decide

/-- The eyes of a good start. -/
def eyes : List (Nat × Nat) := List.replicate 160 (16, 64)
def goodRun : StartRun := ⟨true, true, true, true, eyes, eyes, false, 0⟩

theorem test_witness_ResetsAndStarts_1 :
    (State.reset.nose.resetDue = none ∧ { State.reset.nose with resetDue := some 1#8 }.resetDue = some 1#8
      ∧ { State.reset.nose with resetDue := some 0#8 }.resetDue = some 0#8 ∧ (0#8) ≠ 1#8)
    ∧ (running.nose.mode = .boot ∧ air.nose.mode ≠ .boot ∧ { air.boot with held := false }.held = false)
    ∧ (State.reset.boot.held = true ∧ State.reset.boot.thermtrip = false ∧ { State.reset.boot with held := false }.held = false)
    ∧ (State.reset.boot.kind ≠ 2 ∧ { goodRun with nosePll := false }.nosePll = false)
    ∧ (State.reset.boot.failCount.toNat < 2 ∧ 2 ≤ { State.reset.boot with failCount := 2 }.failCount.toNat)
    ∧ ((air.nose.mbxReady = true ∧ 105 < (106#16).toInt ∧ air.boot.thermalAt = none) ∧ ¬ 105 < (105#16).toInt)
    ∧ (125 ≤ (125#16).toInt ∧ (124#16).toInt < 125) := by
  decide +kernel

/-- A start that succeeds needs a signed firmware image in the flash, whose P-384 signature the kernel would have to verify to
show one; all else that it needs is met together, in the state after reset, whatever image stands there. -/
theorem test_witness_ResetsAndStarts_2 :
    State.reset.boot.held = true ∧ State.reset.boot.thermtrip = false ∧ goodRun.nosePll = true
    ∧ factoryBad State.reset.boot.fuses.factory = false ∧ goodRun.bistOk = true ∧ goodRun.corePll = true ∧ goodRun.hbmPll = true
    ∧ eyesOk goodRun.eyes8 = true ∧ eyesOk goodRun.eyesS = true ∧ goodRun.fwFatal = false ∧ State.reset.boot.failCount = 0 := by
  decide +kernel

/-- At 140 beats, each of the two changes that a boundary can take. -/
def bound (l : List Sched) : State := { ready .standby 0x0201 running with
  frm := { running.frm with executing := false, stage := 0, running := [] }
  nose := { (ready .standby 0x0201 running).nose with sched := l } }

theorem test_witness_BoundariesOpenBeats :
    beatsRun State.reset = false
    ∧ (beatsRun (bound []) = true ∧ (bound []).nose.mode = .standby ∧ (bound []).frm.executing = false ∧ (bound []).frm.ruptureS = none
      ∧ (bound []).frm.stepWait = false ∧ (bound []).frm.loopRun = none ∧ (bound []).frm.running = [])
    ∧ (∀ lin, (bound [⟨.at (stampOfLin lin), .accordJoin 3 4 [member 0]⟩]).nose.sched = [⟨.at (stampOfLin lin), .accordJoin 3 4 [member 0]⟩])
    ∧ (bound [⟨.nextSlot, .timeConfig timeParReset⟩]).nose.sched = [⟨.nextSlot, .timeConfig timeParReset⟩]
    ∧ (stampOfLin 0 ≠ stampOfLin 1) := by
  refine ⟨by decide, by decide, fun _ => rfl, rfl, by decide⟩

/-! Witnesses of the model's own laws. -/

theorem test_witness_StepTakesTheFront : State.reset.pending = [] ∧ ({ State.reset with pending := [.warmReset] }).pending ≠ [] := by
  decide

theorem test_witness_StepKeepsALegalState : Canon State.reset
    ∧ 24 * 2 ^ 30 ≤ (0x600000000#35).toNat ∧ (0x5FFFFFFFF#35).toNat < 24 * 2 ^ 30 :=
  ⟨⟨rfl, rfl, rfl, rfl, rfl, (fun _ hp => nomatch hp), by decide, by decide, by decide⟩, by decide, by decide⟩

theorem test_witness_InstructionWordsAreExact : (63 : Nat) < 64 ∧ aeEncode 63 w0 = aeEncode 63 w0
    ∧ atPc (code true 63 w0) 5 true 63 w0 = true := by
  decide +kernel

/-- The largest and the smallest true value that fit, the terms at their limits, and 128 products. -/
theorem test_witness_AccumulatorsFollowTheRule :
    (partValue ⟨0x7FFFFFFFFFFF#48, 7, false⟩ + 2 ^ 47) / 2 ^ 48 = 7 ∧ (partValue ⟨0x800000000000#48, -8, false⟩ + 2 ^ 47) / 2 ^ 48 = -8
    ∧ (-2 ^ 47 : Int) ≤ 2 ^ 47 ∧ (2 ^ 47 : Int) ≤ 2 ^ 47
    ∧ (List.replicate 128 ((default : Machine.Cell), (default : Machine.Cell))).length ≤ 128 := by
  decide +kernel

/-! Ill-formed terms: one or more that each check of WellFormed.lean refuses. -/

def bytes (n : Nat) : List Byte := List.replicate n 0
def short : RxFrame := ⟨0, true, bytes 13, 0, 0, 0⟩

theorem test_illFormed_commands :
    (Instr.formulaLoad hdr 0 4096 0 []).wellFormed = false ∧ (Instr.formulaLoad hdr 0 8192 0 (bytes 4069)).wellFormed = false
    ∧ (Instr.layerConfig hdr s20 (List.replicate 129 ⟨0, 0, 0⟩)).wellFormed = false
    ∧ (Instr.layerWeights hdr s20 0 0 0 1 (List.replicate 255 0)).wellFormed = false
    ∧ (Instr.soundingTable hdr s20 0 0 0 []).wellFormed = false ∧ (Instr.soundingTable hdr s20 0 0 0 (bytes 6)).wellFormed = false
    ∧ (Instr.soundingTable hdr s20 0 0 0 (bytes 4068)).wellFormed = false
    ∧ (Instr.memWrite hdr 0 32 (bytes 31)).wellFormed = false
    ∧ (Instr.accordJoin hdr 0 0 s20 (List.replicate 65 (member 0))).wellFormed = false
    ∧ (Instr.flashWrite hdr 0 0 []).wellFormed = false ∧ (Instr.flashWrite hdr 0 0 (bytes 4065)).wellFormed = false
    ∧ (Instr.fuseProgram hdr 5 0 9 [0]).wellFormed = false := by
  decide +kernel

theorem test_illFormed_events :
    (Instr.memRestoreComplete [] eyes).wellFormed = false ∧ (Instr.memRestoreComplete eyes (List.replicate 160 (129, 0))).wellFormed = false
    ∧ (Instr.bistComplete 0 eyes (List.replicate 160 (16, 128))).wellFormed = false ∧ (Instr.bistComplete 0 [] eyes).wellFormed = false
    ∧ (Instr.porRelease { goodRun with eyes8 := List.replicate 161 (16, 64) }).wellFormed = false
    ∧ (Instr.laneMultiblock 0 (List.replicate 63 (0, 0)) 0 true).wellFormed = false
    ∧ (Instr.hbmRequest 0 true 0 (bytes 31)).wellFormed = false ∧ (Instr.captureWord 0 []).wellFormed = false
    ∧ (Instr.cmdDoorbell 0 (List.replicate 65 (0, 0))).wellFormed = false := by
  decide +kernel

theorem test_illFormed_frames :
    [Instr.macFrameReject short, .ecpriIqSection short, .ecpriRtControl short, .ecpriDelayMeasurement short,
      .ptpAnnounce short default default, .ptpSync short default, .ptpFollowUp short default, .ptpDelayResp short default,
      .managementFrame short, .accordExchangeFrame short].all (fun i => !i.wellFormed) = true
    ∧ (Instr.macFrameReject { short with bytes := bytes 14 }).wellFormed = true
    ∧ (Instr.twVerdicts twh (List.replicate 385 default)).wellFormed = false
    ∧ (Instr.twForward twh 0 false 0 (bytes 9209)).wellFormed = false
    ∧ (Instr.twState twh 0 0 s20 0 (bytes 9193)).wellFormed = false := by
  decide +kernel

/-! The spec's worked examples, with the numbers it gives. -/

/-- 02, "an admission point across a hyperframe boundary": beat b and the beat three earlier. -/
theorem test_stamps : stampOfLin 1433601 = 0x05000020#32 ∧ stampOfLin 1433598 = 0x04FFE780#32 ∧ linOf 0x04FFE780#32 = 1433598 := by
  decide

/-- 04, the two ties of R85's rounding. -/
theorem test_rounding : roundConv (0x301 * 0x2000) 14 = 0x180 ∧ roundConv (0x303 * 0x2000) 14 = 0x182 := by decide

/-- 05, "one PRB": bin and block exponent. -/
theorem test_oneBlock : binOf { c0 with fft := 0 } 1205 = 3663 ∧ blockExp [315411661] = 6 ∧ roundConv 315411661 6 = 0x4B3333 := by decide +kernel

/-- 07, "one product". -/
theorem test_product :
    let t := macTerm false false false ⟨0x200000E00000#48, false, false, 0⟩ ⟨0x400020000000#48, false, false, 0⟩
    t.i = 0x0C00000000 ∧ wrapN 48 t.q = 0xFFFC00000000 ∧ narrowPart 24 15 t.i = (0x180000, 0) ∧ wrapN 24 (narrowPart 24 15 t.q).1 = 0xF80000 := by
  decide

/-- 07, "an aggregation that passes through overflow": A and x after each term, and the read-outs with terms absent. -/
theorem test_aggregation :
    let t (m : Nat) : Int := signed 24 m * 2 ^ 24
    let p1 := partAdd part0 (t 0x4B0000)
    let p2 := partAdd p1 (t 0x4B0000)
    let p3 := partAdd p2 (t 0xC18000)
    let p4 := partAdd p3 (t 0xAB0000)
    p1 = ⟨0x4B0000000000#48, 0, false⟩ ∧ p2 = ⟨0x960000000000#48, 1, false⟩ ∧ p3 = ⟨0x578000000000#48, 0, false⟩
      ∧ p4 = ⟨0x028000000000#48, 0, false⟩ ∧ narrowPart 24 19 p4.a.toInt = (0x500000, 0)
      ∧ narrowPart 24 19 (partAdd p2 (t 0xAB0000)).a.toInt = (0x7FFFFF, 1) ∧ (partAdd p2 (t 0xAB0000)).x = 0
      ∧ (overTreat 0 p2).1 = 2 ^ 47 - 1 := by
  decide

/-- 08, "a reciprocal square root seed". -/
theorem test_rootSeed :
    exp48 0x000030000000#48 = 17 ∧ exp48 0 = 47
    ∧ (accExp true ⟨⟨0x000030000000#48, 0, false⟩, part0, false, false⟩).i.a = 16
    ∧ norm48 0x000030000000#48 16 = 0x300000000000#48 ∧ narrowPart 24 23 (0x300000000000#48).toInt = (0x600000, 0)
    ∧ seedRsq 0x600000 = some 0x49E0 := by
  decide +kernel

/-- 08, "combining one layer over 16 elements": the words of MAC, UNPK, RDB, SETP, REP and END. -/
theorem test_words :
    let w : AeW := ⟨0, 0, false, false, false, false, 0, 0, 0, 0, 0⟩
    aeEncode 0x01 { w with c := true, xm := 3, ym := 3 } = 0x0408618000000000#64
      ∧ aeEncode 0x19 { w with k := true, xm := 3, ym := 7, yr := 2, imm := 0x80000A000 } = 0x640163A80000A000#64
      ∧ aeEncode 0x12 { w with xm := 7, xr := 1, imm := 0x00864A000 } = 0x4800E4000864A000#64
      ∧ aeEncode 0x20 { w with imm := 0x280000000 } = 0x8000000280000000#64 ∧ aeEncode 0x28 { w with imm := 15 } = 0xA00000000000000F#64
      ∧ aeEncode 0x3F w = 0xFC00000000000000#64 := by
  decide +kernel

/-- 09, "one uplink beat": a lane sample, UNPK and the terms. -/
theorem test_uplinkBeat :
    laneSamp (0x0C35, 0xF3CB) = ⟨0x0C3500, signed 24 0xF3CB00, false⟩
    ∧ (unpkPart 6 8 0x4B3333).1 = 1232077 ∧ (unpkPart 6 8 (signed 24 0xF00000)).1 = -262144
    ∧ (prod ⟨1232077, -262144⟩ ⟨512, -256⟩) = ⟨563714560, -449629440⟩
    ∧ blockReadExp (-8) [3 * 2 ^ 30, -(3 * 2 ^ 29)] = 2 := by
  decide +kernel

/-- 10, "one block to bits". -/
def blockEx : CxBlock :=
  ⟨[3, 3], [false, false] ++ List.replicate 14 true, ([100, 40, -60, 20, 8, -8] ++ List.replicate 18 0
    ++ [-41, 101, -20, -60, 8, 8] ++ List.replicate 18 0).toArray⟩

theorem test_codecBlock : cxRotation blockEx = 4
    ∧ (cxBestK ⟨0, 0⟩ (cxResidues ⟨0, 0⟩ blockEx none)).k = 4 ∧ (cxBestK ⟨0, 0⟩ (cxResidues ⟨0, 0⟩ blockEx none)).sum = 295
    ∧ (cxBestK ⟨1, 4⟩ (cxResidues ⟨1, 4⟩ blockEx none)).k = 0 ∧ (cxBestK ⟨1, 4⟩ (cxResidues ⟨1, 4⟩ blockEx none)).sum = 242
    ∧ (cxEncode 0 blockEx (fun _ => none)).1.length = 48 ∧ (cxEncode 0 blockEx (fun _ => none)).1.take 3 = [0x4A, 0x00, 0xFF] := by
  decide +kernel

/-- 11, "one downlink section and its control": eCPRI header, section fields and PRB 0. -/
theorem test_downlinkSection :
    let l : List Byte := [0x01, 0x23, 0, 0x80, 5, 0, 0, 0x60, 0, 0x10, 3, 0, 0, 0, 0x80, 0, 0, 0, 0, 0]
    let prb : List Byte := [4, 0x40, 0xC0] ++ bytes 22
    ecpriParse ([0x10, 0, 0, 0x46] ++ l ++ prb ++ [4] ++ bytes 24) = some (0, l ++ prb ++ [4] ++ bytes 24)
      ∧ msgBeat l = 0x05000060#32 ∧ secId l = 1 ∧ prbBlock 8 0 prb = ⟨4, false, 0, ⟨0x400000, -0x400000⟩ :: List.replicate 11 ⟨0, 0⟩⟩ := by
  decide +kernel

/-- 12, "packing a heart section": 122 stages, the last with 6 bytes. -/
theorem test_heartStages : (stagesOf (bytes 7686)).length = 122 ∧ ((stagesOf (bytes 7686)).getD 121 default).valid = 6
    ∧ ((stagesOf (bytes 7686)).getD 121 default).last = true ∧ ((stagesOf (bytes 7686)).headD default).first = true := by
  decide +kernel

/-- 13, "an asymmetric re-route": the increments of PATH_HOLD and of the slew at its limit. -/
theorem test_increments : (incFor (-8300)).toNat = 559235891637 ∧ (incFor (-8300 + clampR 100 (-800 / 8))).toNat = 559235835713 := by
  decide +kernel

/-- 14, "decoding a flacon address". -/
theorem test_flaconAddress : hbmAddr 0 41152512 = ⟨0, 12, 78, 15⟩ ∧ hbmAddr 3 41152512 = ⟨18, 5, 78, 0⟩
    ∧ (hbmAddr 0 (41152512 + 32)).pc = 1 := by
  decide

/-- 17, "an interrupted firmware update": the attempt word and the header of the record of three. -/
theorem test_bootRecord : attemptWord 5 4 2 18 = 0x0504800000000012#64
    ∧ bits (bootRecord 1 [attemptWord 5 4 2 18, attemptWord 5 4 2 18, attemptWord 5 4 2 18]).toNat 255 192 = 0x0103000000000000 := by
  decide

/-- 12, "shrinking a ring with packets in it": RD', WR', D and the 18 packets discarded. -/
theorem test_ringShrinks :
    let s : State := { rung 0 with sq := { (rung 0).sq with rings := [(5, ⟨40, 26, 50, 6⟩)] }, mem := State.reset.mem }
    ringState (ringResize 5 5 s) 5 = ⟨26, 26, 32, 5⟩ ∧ FMap.get 0 (ringResize 5 5 s).ctr (0x60A * 65536) = 18 := by
  decide +kernel

/-- 19, "the fenced cluster seen through BAR0": cluster 12's word at 0x1830. -/
theorem test_fencedWord :
    bar0Read { State.reset with bar0 := { State.reset.bar0 with words := [(unitKey 4 12, 0x85040008)] } } 0x1830 = 0x85040008 := by
  decide +kernel

end Sys2Proof.Tests
end

section
/-! The frames that the MAC receives, accepts, counts and hands on (R18, R266 to R269, R315). -/

namespace Sys2Proof.Machine
open Sys2Proof

/-! What `frameReceive` does, by what becomes of the frame -/

/-- The MAC's own test of the port and the mode. -/
theorem receives_iff (f : RxFrame) (s : State) :
    Receives f s ↔ (!portIsUp s f.port.val || s.nose.mode == .boot || s.nose.mode == .base) = false := by
  simp [Receives, and_assoc]

/-- The MAC's own test of the frame's kind. -/
theorem kindTaken_iff (f : RxFrame) (s : State) :
    KindTaken f s ↔ (!frameOk s f.port.val f.bytes
      || (((ethParts f.bytes).et == 0xAEFE || (ethParts f.bytes).et == 0x88B5) && !fronthaulOn s)
      || ((ethParts f.bytes).et == 0x88F7 && s.nose.mode == .sillage)) = false := by
  simp only [KindTaken, fronthaulOn, inService, Bool.or_eq_false_iff, Bool.and_eq_false_imp, Bool.not_eq_false',
    Bool.or_eq_true, beq_iff_eq, beq_eq_false_iff_ne, and_assoc, or_assoc]

theorem frameReceive_of_not_receives {f : RxFrame} {s : State} (use : PtpUse) (h : ¬ Receives f s) :
    frameReceive f use s = s := by
  rw [receives_iff, Bool.not_eq_false] at h
  exact if_pos h

theorem frameReceive_of_badFcs {f : RxFrame} {s : State} (use : PtpUse) (hr : Receives f s) (hf : f.fcsOk = false) :
    frameReceive f use s = count 0x904 f.port.val s := by
  rw [receives_iff] at hr
  simp [frameReceive, hr, hf]

theorem frameReceive_of_not_kindTaken {f : RxFrame} {s : State} (use : PtpUse) (hr : Receives f s) (hf : f.fcsOk = true)
    (hk : ¬ KindTaken f s) : frameReceive f use s = count 0x907 f.port.val s := by
  rw [receives_iff] at hr
  rw [kindTaken_iff, Bool.not_eq_false] at hk
  unfold frameReceive
  simp only [hr, hf, hk, Bool.not_true, Bool.false_eq_true, if_true, if_false]

/-- An accepted frame is counted with its bytes, then its EtherType says who takes it. -/
theorem frameReceive_of_frameTaken {et : Nat} {f : RxFrame} {s : State} (use : PtpUse) (h : FrameTaken et f s) :
    frameReceive f use s =
      if et = 0xAEFE then ecpriFrame f (ethParts f.bytes) (frameCounted f s)
      else if et = 0x88B6 then managementEntry f.port.val (ethParts f.bytes) (frameCounted f s)
      else if et = 0x88B5 then accordFrame (decide (s.nose.mode = .sillage)) f.port.val
        (rxStamp (frameCounted f s) f f.last) (ethParts f.bytes) f.bytes (frameCounted f s)
      else use f (frameCounted f s) := by
  obtain ⟨hr, hf, hk, rfl⟩ := h
  rw [receives_iff] at hr
  rw [kindTaken_iff] at hk
  unfold frameReceive
  simp only [hr, hf, hk, Bool.not_true, Bool.false_eq_true, if_false]
  rfl

/-! The rows that bring a frame -/

/-- The rows of `frameRows` that bring no PTP message. -/
def plainRows (f : RxFrame) : List Instr :=
  [.macFrameReject f, .ecpriIqSection f, .ecpriRtControl f, .ecpriDelayMeasurement f, .managementFrame f,
    .accordExchangeFrame f]

theorem exec_of_mem_plainRows {f : RxFrame} {i : Instr} (hi : i ∈ plainRows f) (s : State) :
    exec i s = .next (frameReceive f ptpDiscard s) := by
  simp only [plainRows, List.mem_cons, List.not_mem_nil, or_false] at hi
  rcases hi with rfl | rfl | rfl | rfl | rfl | rfl <;> rfl

/-- Every row that brings a frame is the MAC's receiving it: either a PTP frame in it is discarded, or it brings the
message `m`. -/
theorem exec_of_mem_frameRows {f : RxFrame} {m : PtpMsg} {a : PtpAnnounce} {i : Instr} (hi : i ∈ frameRows f m a) :
    ∃ use, (use = ptpDiscard ∨ ∃ act, use = ptpUse m act) ∧ ∀ s, exec i s = .next (frameReceive f use s) := by
  rw [show frameRows f m a = plainRows f ++ [.ptpAnnounce f m a, .ptpSync f m, .ptpFollowUp f m, .ptpDelayResp f m] from rfl,
    List.mem_append] at hi
  rcases hi with hi | hi
  · exact ⟨_, .inl rfl, exec_of_mem_plainRows hi⟩
  · simp only [List.mem_cons, List.not_mem_nil, or_false] at hi
    rcases hi with rfl | rfl | rfl | rfl
    · exact ⟨_, .inr ⟨announce f m a, rfl⟩, fun _ => rfl⟩
    · exact ⟨_, .inr ⟨syncMessage f m, rfl⟩, fun _ => rfl⟩
    · exact ⟨_, .inr ⟨followUp f m, rfl⟩, fun _ => rfl⟩
    · exact ⟨_, .inr ⟨delayResp f m, rfl⟩, fun _ => rfl⟩

/-- A message that the port or the subset does not take is discarded (R315). -/
theorem ptpUse_of_unsupported {f : RxFrame} {m : PtpMsg} {s : State} (act : State → State)
    (h : ptpOn s f.port.val = false ∨ m.supported = false ∨ m.domain.toNat ≠ ptpDomain s) :
    ptpUse m act f s = ptpDiscard f s := by
  refine if_neg fun hon => ?_
  simp only [Bool.and_eq_true, beq_iff_eq] at hon
  obtain ⟨⟨hp, hm⟩, hd⟩ := hon
  rcases h with h | h | h
  · exact Bool.false_ne_true (h.symm.trans hp)
  · exact Bool.false_ne_true (h.symm.trans hm)
  · exact h hd

/-- Settles O38: each row is `frameReceive`, whose outcome the frame's own lemmas give case by case. -/
theorem framesAreAccepted : Obligations.FramesAreAccepted := by
  intro f m a s p e u i hi
  obtain ⟨use, huse, hexec⟩ := exec_of_mem_frameRows hi
  simp only [hexec]
  refine ⟨fun hr => ?_, fun hr hf => ?_, fun hr hf hk => ?_, fun ht => ?_, fun ht => ?_, fun ht => ?_, fun ht hplain => ?_,
    fun ht hoff => ?_⟩
  · rw [frameReceive_of_not_receives use hr]
  · rw [frameReceive_of_badFcs use hr hf]
  · rw [frameReceive_of_not_kindTaken use hr hf hk]
  · rw [frameReceive_of_frameTaken use ht]; rfl
  · rw [frameReceive_of_frameTaken use ht]; rfl
  · rw [frameReceive_of_frameTaken use ht]; rfl
  · rw [← hexec, exec_of_mem_plainRows hplain, frameReceive_of_frameTaken ptpDiscard ht]; rfl
  · rw [frameReceive_of_frameTaken use ht]
    have hdiscard : use f u = ptpDiscard f u := by
      rcases huse with rfl | ⟨act, rfl⟩
      · rfl
      · exact ptpUse_of_unsupported act hoff
    exact congrArg _ hdiscard

end Sys2Proof.Machine
end

section
/-! Commands that wait for their S: TIME.STEP, FORMULA.ACTIVATE, MEM.THAW, SOUNDING.TABLE and the pair's own commands
(R36, R280, R321, R353, R364, R365, R380, R399). -/

namespace Sys2Proof.Machine
open Sys2Proof

/-- What looks at no part of the mailbox is the same once a command has been taken. -/
theorem Taken.reads {α : Type} {c : Src} {s v : State} (hv : Taken c s v) (f : State → α) (hf : ∀ u, f (withoutMail u) = f u) :
    f v = f s := withoutMail_same hv.mail.1 f hf

theorem Taken.mode {c : Src} {s v : State} (hv : Taken c s v) : v.nose.mode = s.nose.mode := hv.reads (·.nose.mode) fun _ => rfl
theorem Taken.checkS {c : Src} {s v : State} (hv : Taken c s v) (b : Stamp) : checkS b v = Machine.checkS b s :=
  hv.reads (Machine.checkS b) fun _ => rfl
theorem Taken.checkSZero {c : Src} {s v : State} (hv : Taken c s v) (b : Stamp) : checkSZero b v = Machine.checkSZero b s :=
  hv.reads (Machine.checkSZero b) fun _ => rfl

/-- The block is in a real-time mode. -/
theorem mode_cases_of_modesOL {m : Mode} (h : m ∈ modesOL) : m = .solo ∨ m = .lead := by
  simpa [modesOL] using h

theorem mem_modesYOL_of_modesOL {m : Mode} (h : m ∈ modesOL) : m ∈ modesYOL := by
  revert m; decide

theorem mem_modesYOLM_of_modesYOL {m : Mode} (h : m ∈ modesYOL) : m ∈ modesYOLM := by
  revert m; decide

theorem ne_sillage_of_modesYOL {m : Mode} (h : m ∈ modesYOL) : m ≠ .sillage := by
  revert m; decide

/-- In a real-time mode S is a slot boundary like that of any other command (R398). -/
theorem checkSZero_of_modesOL {s : State} (h : s.nose.mode ∈ modesOL) (b : Stamp) : checkSZero b s = checkS b s := by
  rcases mode_cases_of_modesOL h with h | h <;> simp [checkSZero, h]

/-- The state with the effects that wait thinned out. -/
def keepSched (p : Sched → Bool) (s : State) : State := { s with nose := { s.nose with sched := s.nose.sched.filter p } }

/-- A command that takes the place of earlier ones, which leave the list unless the lead must first ask its sillage. -/
theorem serve_pair_replacing {op : Nat} {h : Hdr} {modes : List Mode} {mode : State → Nat} {body : State → Reply × State}
    {s : State} (b : Stamp) (a : Act) (pay : List Fld) (g : State → State) (p : Sched → Bool) (ha : Accepts op h modes s)
    (hm : ∀ v, Taken h.src s v → mode v = stOk)
    (hb : ∀ v, Taken h.src s v → body v = acceptPair op h (.at b) a pay g (if s.nose.mode = .lead then v else keepSched p v)) :
    PairAccepted op h (.at b) a pay (if s.nose.mode = .lead then s else keepSched p s) (serve op h mode body s) := by
  by_cases hl : s.nose.mode = .lead
  · simp only [if_pos hl] at hb ⊢
    exact serve_pair (.at b) a pay g When.noConfusion ha hm hb
  · simp only [if_neg hl] at hb ⊢
    unfold PairAccepted
    rw [if_neg (by exact hl)]
    refine serve_set (f := fun u => scheduled (.at b) a (keepSched p u)) ha hm (fun v hv => ?_) (fun v hv => ?_)
      (fun u => ⟨rfl, rfl, rfl, rfl, rfl, rfl⟩)
    · rw [hb v hv, acceptPair, if_neg (by simpa [keepSched, hv.mode] using hl)]
      rfl
    · obtain ⟨ar, cc, ke, la, ct, rfl⟩ := hv.form
      rfl

/-! TIME.STEP, FORMULA.ACTIVATE and MEM.THAW -/

theorem timeModes_taken {c : Src} {s v : State} (h : s.nose.mode ∈ modesOL) (hv : Taken c s v) : timeModes v = stOk := by
  rcases mode_cases_of_modesOL h with h | h <;> simp [timeModes, inModes, modesYOL, hv.mode, h]

theorem thawModes_taken {c : Src} {s v : State} (h : s.nose.mode ∈ modesOL) (hv : Taken c s v) : thawModes v = stOk := by
  rcases mode_cases_of_modesOL h with h | h <;> simp [thawModes, inModes, modesYOLM, hv.mode, h]

theorem timeStep_realTime {h : Hdr} {b : Stamp} {f : BitVec 16} {ns : BitVec 32} {sec : BitVec 48} {s : State}
    (hm : s.nose.mode ∈ modesOL) (hns : ns.toNat < 1000000000) (hf : f.toNat < 16) (hc : checkTimeStep b s = stOk) :
    timeStep h b f ns sec s = acceptPair 0x2002 h (.at b) (.timeStep (stepDelta f ns sec)) [] id
      (if s.nose.mode = .lead then s else keepSched (fun e => !isStep e.act) s) := by
  have hfields : (decide (ns.toNat ≥ 1000000000) || decide (f.toNat ≥ 16)) = false := by
    simp only [Bool.or_eq_false_iff, decide_eq_false_iff_not]; omega
  unfold timeStep
  rcases mode_cases_of_modesOL hm with hm | hm <;> simp [hfields, hc, hm, keepSched]

theorem formulaActivate_realTime {h : Hdr} {b : Stamp} {f : Formula} {s : State} (hm : s.nose.mode ∈ modesOL)
    (hp : s.frm.pending = some f) (hs : checkS b s = stOk) (hmeets : activateMeets b s = stOk) (hc : activateCheck f s = stOk) :
    formulaActivate h b s = acceptPair 0x0402 h (.at b) .formulaActivate
      [.num 1 (switchKind (switchSeamless s.frm.active f)), .num 3 0] switchNow
      (if s.nose.mode = .lead then s else keepSched (fun e => !isActivate e.act) s) := by
  have hz := checkSZero_of_modesOL hm b
  have hne : stOk ≠ stBadField := by decide
  have hstandby : (s.nose.mode == .standby) = false := by rcases mode_cases_of_modesOL hm with h | h <;> rw [h] <;> rfl
  unfold formulaActivate
  simp [hz, hs, hp, hmeets, hc, hstandby, hne, keepSched, dropActivations]

theorem memThaw_realTime {h : Hdr} {b : Stamp} {s : State} (hm : s.nose.mode ∈ modesOL) (hr : s.mem.ready = true)
    (hs : checkS b s = stOk) : memThaw h b s = acceptPair 0x2206 h (.at b) .memThaw [] id s := by
  have hz := checkSZero_of_modesOL hm b
  have hne : stOk ≠ stBadField := by decide
  unfold memThaw
  rcases mode_cases_of_modesOL hm with hm | hm <;> simp [hz, hs, hr, hm, hne]

/-! SOUNDING.TABLE -/

theorem soundingTable_accepted {h : Hdr} {b : Stamp} {seq final : BitVec 8} {offset : BitVec 16} {data : List Byte} {s : State}
    (hf : final.toNat ≤ 1) (h1 : 1 ≤ data.length) (h4 : data.length % 4 = 0) (hmax : data.length ≤ 4064)
    (hend : offset.toNat + data.length ≤ 13104) (hs : checkS b s = stOk)
    (hroom : s.fhp.staged.length < 64 ∨ s.fhp.staged.any (fun e => e.1 == b && e.2.1 == seq.toNat) = true) :
    soundingTable h b seq final offset data s =
      if s.nose.mode = .lead then acceptPair 0x1A01 h (.at b) (.soundingTable seq (final == 1#8) offset data) [] id s
      else (.done stOk [] (some b) 0, stageSounding b seq (final == 1#8) offset data s) := by
  have hne : data.isEmpty = false := by
    rw [List.isEmpty_eq_false_iff]; rintro rfl; simp at h1
  have hfull : (!s.fhp.staged.any (fun e => e.1 == b && e.2.1 == seq.toNat) && decide (64 ≤ s.fhp.staged.length)) = false := by
    rcases hroom with hroom | hroom
    · rw [decide_eq_false (by omega), Bool.and_false]
    · rw [hroom]; rfl
  unfold soundingTable
  rw [if_neg (by simp [hne, h4]; omega)]
  simp [hs, hfull]

/-! The pair's own commands -/

theorem pairModes_taken {c : Src} {s v : State} {role : BitVec 8} (h : s.nose.mode ∈ [Mode.standby, .solo])
    (hsolo : s.nose.mode = .solo → role ≠ 1) (hv : Taken c s v) : pairModes role v = stOk := by
  have hm : s.nose.mode = .standby ∨ s.nose.mode = .solo := by simpa using h
  unfold pairModes
  rcases hm with hm | hm
  · simp [hv.mode, hm]
  · have := hsolo hm
    simp_all [hv.mode]

/-- The timing check of the active formula, as the commands of the pair make it. -/
theorem elim_pairTimingOk {o : Option Formula} (h : ∀ f, o = some f → pairTimingOk f = true) : o.elim true pairTimingOk = true := by
  cases o with
  | none => rfl
  | some f => exact h f rfl

theorem twinPair_accepted {id : BitVec 16} {index role : BitVec 8} {b : Stamp} {s : State} (hid : id ≠ 0) (hi : index.toNat ≤ 1)
    (hr : role.toNat ≤ 1) (hs : checkS b s = stOk)
    (hlead : role = 0 → helloMatches id index s = true ∧ ∀ f, s.frm.active = some f → pairTimingOk f = true) :
    twinPair id index role b s = (.done stOk [] (some b) 0, schedulePair id index role b s) := by
  unfold twinPair
  have hid' : id ≠ 0#16 := hid
  rw [if_neg (by simp only [hid', decide_false, Bool.false_or, Bool.or_eq_true, decide_eq_true_eq]; omega)]
  by_cases h0 : role = 0#8
  · obtain ⟨hello, ht⟩ := hlead h0
    simp [hs, hello, elim_pairTimingOk ht]
  · simp [hs, h0]

/-- What TWIN.REJOIN begins at its acceptance (R380). -/
def rejoinBegun (s : State) : State :=
  { s with twn := { s.twn with
    forwarding := true, fitness := .preparing, cause := 0, rejoinAt := some s.tb.lin, streamDone := false, joinAt := none
    ripenUntil := none } }

theorem twinRejoin_accepted {b : Stamp} {s : State} (hs : checkS b s = stOk)
    (ht : ∀ f, s.frm.active = some f → pairTimingOk f = true) (hc : canRejoin s = true) :
    twinRejoin b s = (.done stOk [] (some b) 0, schedule (.at b) .twinRejoin (sendPair 0x2802 .twinRejoin b (rejoinBegun s))) := by
  simp [twinRejoin, hs, elim_pairTimingOk ht, hc, rejoinBegun]

theorem twinUnpair_accepted {b : Stamp} {s : State} (hs : checkS b s = stOk) :
    twinUnpair b s = (.done stOk [] (some b) 0, schedule (.at b) .twinUnpair (sendPair 0x2804 .twinUnpair b s)) := by
  simp [twinUnpair, hs]

/-- A frame sent while TW is UP. -/
theorem sendTw_of_up {flags : Nat} {body : TwBody} {s : State} (h : s.twn.up = true) :
    sendTw flags body s = { s with
      twn := { s.twn with txSeq := s.twn.txSeq + 1 }
      outs := .tw (BitVec.ofNat 8 flags) s.twn.txSeq s.tb.beat body :: s.outs } := if_pos h

/-- While TW is DOWN nothing is sent. -/
theorem sendTw_of_down {flags : Nat} {body : TwBody} {s : State} (h : s.twn.up = false) : sendTw flags body s = s :=
  if_neg (by simp [h])

/-- A command to the sillage with its GO, while TW is UP: two frames. -/
theorem sendPair_of_up {op : Nat} {a : Act} {b : Stamp} {s : State} (h : s.twn.up = true) :
    sendPair op a b s = { s with
      twn := { s.twn with cmdSeq := s.twn.cmdSeq + 1, txSeq := s.twn.txSeq + 1 + 1 }
      outs := .tw 1 (s.twn.txSeq + 1) s.tb.beat (.command s.twn.cmdSeq (BitVec.ofNat 16 op) a true b)
        :: .tw 0 s.twn.txSeq s.tb.beat (.command s.twn.cmdSeq (BitVec.ofNat 16 op) a false 0) :: s.outs } := by
  simp only [sendPair, sendTw_of_up, h]
  rfl

theorem sendPair_of_down {op : Nat} {a : Act} {b : Stamp} {s : State} (h : s.twn.up = false) :
    sendPair op a b s = { s with twn := { s.twn with cmdSeq := s.twn.cmdSeq + 1 } } := by
  simp only [sendPair, sendTw_of_down, h]

/-- A command of the lead that tells the sillage at once, with its GO, waits for its own boundary, and changes the pair's
registers to `tw`. -/
theorem serve_told {op : Nat} {h : Hdr} {modes : List Mode} {mode : State → Nat} {body : State → Reply × State} {s : State}
    (b : Stamp) (a : Act) (tw : TwnSt) (ha : Accepts op h modes s) (hm : ∀ v, Taken h.src s v → mode v = stOk)
    (hb : ∀ v, Taken h.src s v →
      body v = (.done stOk [] (some b) 0, schedule (.at b) a (sendPair op a b { v with twn := tw }))) :
    MailOnly (scheduled (.at b) a (sendPair op a b { s with twn := tw })) (serve op h mode body s)
      ∧ Replied op h stOk [] (some b) 0 s (serve op h mode body s) := by
  refine serve_done (f := fun u => scheduled (.at b) a (sendPair op a b { u with twn := tw })) ha hm hb (fun v hv => ?_)
  obtain ⟨hmail, hp, hc, ht40, hports⟩ := hv.same
  have houts := hv.outs
  obtain ⟨ar, cc, ke, la, ct, rfl⟩ := hv.form
  cases hup : tw.up with
  | false =>
    rw [sendPair_of_down (by exact hup), sendPair_of_down (by exact hup)]
    exact ⟨⟨rfl, hmail.2.1, [], rfl, by simp⟩, hp, hc, ht40, hports⟩
  | true =>
    rw [sendPair_of_up (by exact hup), sendPair_of_up (by exact hup)]
    exact ⟨⟨rfl, hmail.2.1, [], rfl, by simp⟩, hp, hc, ht40, hports⟩

/-! The statement -/

/-- Settles O9: each command's body under its hypotheses is one equation, and the mailbox's rules serve it. -/
theorem commandsForS : Obligations.CommandsForS := by
  intro s h b
  refine ⟨fun f ns sec ha hns hf hc => ⟨_, rfl, ?_⟩, fun f ha hp hs hmeets hc => ⟨_, rfl, ?_⟩, fun ha hr hs => ⟨_, rfl, ?_⟩,
    fun seq final offset data ha hf h1 h4 hmax hend hs hroom => ⟨_, rfl, ?_⟩,
    fun id index role ha hsolo hid hi hr hs hlead => ⟨_, rfl, ?_⟩, fun ha hs => ⟨_, rfl, ?_⟩, fun ha hs ht hc => ⟨_, rfl, ?_⟩⟩
  all_goals have hmode := ha.2.2.2.1
  · refine serve_pair_replacing b _ [] id (fun e => !isStep e.act) ha (fun v hv => timeModes_taken hmode hv) (fun v hv => ?_)
    have hc' := (hv.reads (checkTimeStep b) fun _ => rfl).trans hc
    rw [timeStep_realTime (hv.mode ▸ hmode) hns hf hc', hv.mode]
  · refine serve_pair_replacing b _ _ switchNow (fun e => !isActivate e.act) ha
      (fun v hv => leadModes_taken (mem_modesYOLM_of_modesYOL (mem_modesYOL_of_modesOL hmode))
        (ne_sillage_of_modesYOL (mem_modesYOL_of_modesOL hmode)) hv) (fun v hv => ?_)
    rw [formulaActivate_realTime (hv.mode ▸ hmode) ((hv.reads (·.frm.pending) fun _ => rfl).trans hp) ((hv.checkS b).trans hs)
      ((hv.reads (activateMeets b) fun _ => rfl).trans hmeets) ((hv.reads (activateCheck f) fun _ => rfl).trans hc), hv.mode,
      hv.reads (·.frm.active) fun _ => rfl]
  · refine serve_pair (.at b) .memThaw [] id When.noConfusion ha (fun v hv => thawModes_taken hmode hv) (fun v hv => ?_)
    exact memThaw_realTime (hv.mode ▸ hmode) ((hv.reads (·.mem.ready) fun _ => rfl).trans hr) ((hv.checkS b).trans hs)
  · have hlead := fun v (hv : Taken h.src s v) =>
      leadModes_taken (mem_modesYOLM_of_modesYOL hmode) (ne_sillage_of_modesYOL hmode) hv
    have hbody := fun v (hv : Taken h.src s v) => soundingTable_accepted (h := h) (final := final) hf h1 h4 hmax hend
      ((hv.checkS b).trans hs) (by rw [show v.fhp.staged = s.fhp.staged from hv.reads (·.fhp.staged) fun _ => rfl]; exact hroom)
    split
    · rename_i hl
      have hpair := serve_pair (.at b) (.soundingTable seq (final == 1#8) offset data) [] id When.noConfusion ha hlead
        (fun v hv => (hbody v hv).trans (if_pos (hv.mode.trans hl)))
      rwa [PairAccepted, if_pos hl] at hpair
    · rename_i hl
      refine serve_set (f := stageSounding b seq (final == 1#8) offset data) ha hlead (fun v hv => ?_) (fun v hv => ?_)
        (fun u => ⟨rfl, rfl, rfl, rfl, rfl, rfl⟩)
      · exact (hbody v hv).trans (if_neg (by rw [hv.mode]; exact hl))
      · obtain ⟨ar, cc, ke, la, ct, rfl⟩ := hv.form
        rfl
  · refine serve_set (f := schedulePair id index role b) ha (fun v hv => pairModes_taken hmode hsolo hv) (fun v hv => ?_)
      (fun v hv => ?_) (fun u => ⟨rfl, rfl, rfl, rfl, rfl, rfl⟩)
    · refine twinPair_accepted hid hi hr ((hv.checkS b).trans hs) fun h0 => ?_
      rw [show helloMatches id index v = helloMatches id index s from hv.reads (helloMatches id index) fun _ => rfl,
        show v.frm.active = s.frm.active from hv.reads (·.frm.active) fun _ => rfl]
      exact hlead h0
    · obtain ⟨ar, cc, ke, la, ct, rfl⟩ := hv.form
      rfl
  · exact serve_told b .twinUnpair s.twn ha (fun v hv => inModes_taken hmode hv) (fun v hv => by
      rw [twinUnpair_accepted ((hv.checkS b).trans hs), ← hv.reads (·.twn) fun _ => rfl])
  · refine serve_told b .twinRejoin (rejoinBegun s).twn ha (fun v hv => inModes_taken hmode hv) (fun v hv => ?_)
    rw [twinRejoin_accepted ((hv.checkS b).trans hs)
      (by rw [show v.frm.active = s.frm.active from hv.reads (·.frm.active) fun _ => rfl]; exact ht)
      ((hv.reads canRejoin fun _ => rfl).trans hc)]
    have htwn : (rejoinBegun v).twn = (rejoinBegun s).twn := hv.reads (fun u => (rejoinBegun u).twn) fun _ => rfl
    rw [← htwn]
    rfl

end Sys2Proof.Machine
end

section
/-! FORMULA.LOAD: the chunks of a load (R35, R365, R400). -/

namespace Sys2Proof.Machine
open Sys2Proof

/-! A command that the lead sends to its sillage first -/

theorem acceptPair_of_lead {op : Nat} {h : Hdr} {w : When} {a : Act} {pay : List Fld} {g : State → State} {s : State}
    (hl : s.nose.mode = .lead) : acceptPair op h w a pay g s = (.later, toSillage op h w a pay s) := by
  unfold acceptPair
  rw [if_pos (by rw [hl]; rfl)]
  unfold toSillage sendTw
  dsimp only
  split <;> rfl

/-- What a lead tells its sillage does not look at the mailbox's own parts. -/
theorem toSillage_taken (op : Nat) (h : Hdr) (w : When) (a : Act) (pay : List Fld) {c : Src} {s v : State} (hv : Taken c s v) :
    MailOnly (toSillage op h w a pay s) (toSillage op h w a pay v) := by
  have hctr := hv.mail.2.1
  have houts := hv.outs
  obtain ⟨ar, cc, ke, la, ct, rfl⟩ := hv.form
  unfold toSillage
  dsimp only
  split <;> exact ⟨rfl, hctr, [], rfl, by simp⟩

/-- A command that in LEAD goes to the sillage first. -/
theorem serve_toSillage {op : Nat} {h : Hdr} {modes : List Mode} {mode : State → Nat} {body : State → Reply × State} {s : State}
    (w : When) (a : Act) (pay : List Fld) (g : State → State) (hl : s.nose.mode = .lead) (ha : Accepts op h modes s)
    (hm : ∀ v, Taken h.src s v → mode v = stOk) (hb : ∀ v, Taken h.src s v → body v = acceptPair op h w a pay g v) :
    MailOnly (toSillage op h w a pay s) (serve op h mode body s) :=
  serve_later ha hm (fun v hv => (hb v hv).trans (acceptPair_of_lead (hv.mode.trans hl)))
    (fun _ hv => toSillage_taken op h w a pay hv)

/-! A chunk in the pending slot -/

/-- A write to the Reservoir changes the memories alone. -/
theorem resWrite_eq (a : Nat) (b : List Byte) (s : State) : resWrite a b s = { s with mem := (resWrite a b s).mem } := by
  unfold resWrite resTaint
  dsimp only
  split <;> rfl

/-- A write to the Reservoir looks at the memories alone. -/
theorem resWrite_mem_congr (a : Nat) (b : List Byte) {s v : State} (h : v.mem = s.mem) :
    (resWrite a b v).mem = (resWrite a b s).mem := by
  unfold resWrite resTaint
  dsimp only
  rw [h]
  split <;> rfl

/-- A chunk in the pending slot changes the memories and the formula's registers alone. -/
theorem storeChunk_eq (offset total : Nat) (final : Bool) (data : List Byte) (s : State) :
    storeChunk offset total final data s = { s with
      mem := (resWrite (pendingBase s + offset) data s).mem
      frm := { s.frm with pending := none, load := some ⟨total, offset + data.length, final⟩ } } := by
  unfold storeChunk
  dsimp only
  rw [resWrite_eq]

theorem storeChunk_taken (offset total : Nat) (final : Bool) (data : List Byte) {c : Src} {s v : State} (hv : Taken c s v) :
    withoutMail (storeChunk offset total final data v) = withoutMail (storeChunk offset total final data s) := by
  rw [storeChunk_eq, storeChunk_eq, resWrite_mem_congr (s := s) (v := v) _ _ (hv.reads (·.mem) fun _ => rfl)]
  obtain ⟨ar, cc, ke, la, ct, rfl⟩ := hv.form
  rfl

theorem storeChunk_mailOnly (offset total : Nat) (final : Bool) (data : List Byte) {c : Src} {s v : State} (hv : Taken c s v) :
    MailOnly (storeChunk offset total final data s) (storeChunk offset total final data v) := by
  refine ⟨storeChunk_taken offset total final data hv, ?_, [], ?_, by simp⟩
  · rw [storeChunk_eq, storeChunk_eq]
    exact hv.mail.2.1
  · rw [storeChunk_eq, storeChunk_eq]
    exact hv.outs

/-- A long-running command that begins looks at no part of the mailbox but its list of jobs. -/
theorem MailOnly.jobBegun {u v : State} (hm : MailOnly u v) (op : Nat) (h : Hdr) (b : JobBody) :
    MailOnly (jobBegun op h b u) (Machine.jobBegun op h b v) := by
  have e : ∀ x, withoutMail (Machine.jobBegun op h b x) = withoutMail (Machine.jobBegun op h b (withoutMail x)) := fun _ => rfl
  exact ⟨by rw [e v, hm.1, ← e u], hm.2⟩

/-! The command -/

theorem formulaLoad_of_fields {h : Hdr} {offset total : BitVec 32} {final : BitVec 8} {data : List Byte} {s : State}
    (hf : final.toNat ≤ 1) (h1 : 1 ≤ data.length) (hmax : data.length ≤ 4068) :
    formulaLoad h offset total final data s =
      let st := chunkStatus offset.toNat total.toNat (final == 1) data.length s
      if st ≠ stOk then fails st (chunkFails offset.toNat total.toNat st s)
      else if s.nose.mode == .lead then acceptPair 0x0401 h .now (.formulaLoad offset total (final == 1) data) [] id s
      else if final == 1 then startJob 0x0401 h .verify (storeChunk offset.toNat total.toNat (final == 1) data s)
      else okWith [] (storeChunk offset.toNat total.toNat (final == 1) data s) := by
  have hne : data.isEmpty = false := by
    rw [List.isEmpty_eq_false_iff]; rintro rfl; simp at h1
  refine if_neg ?_
  simp only [hne, Bool.or_false, Bool.or_eq_true, decide_eq_true_eq]
  omega

theorem chunkStatus_taken (offset total : Nat) (final : Bool) (len : Nat) {c : Src} {s v : State} (hv : Taken c s v) :
    chunkStatus offset total final len v = chunkStatus offset total final len s :=
  hv.reads (chunkStatus offset total final len) fun _ => rfl

/-- A chunk that fails with ST_BAD_FIELD abandons the load, unless it would begin one with a TOTAL out of range. -/
theorem chunkFails_badField (offset total : BitVec 32) (s : State) :
    chunkFails offset.toNat total.toNat stBadField s =
      if offset = 0 ∧ totalOk total.toNat = false then s else { s with frm := { s.frm with load := none, pending := none } } := by
  have h0 : offset.toNat = 0 ↔ offset = 0 := by
    rw [← BitVec.toNat_inj]; rfl
  unfold chunkFails
  by_cases ho : offset = 0 <;> cases ht : totalOk total.toNat <;> simp [h0, ho, abandonLoad]

/-- Settles O14: the chunk's status decides between the failed load, the sillage, the verification and the stored chunk. -/
theorem formulaLoadStoresChunks : Obligations.FormulaLoadStoresChunks := by
  intro s h offset total final data ha hf h1 hmax
  have hmode := ha.2.2.2.1
  have hm := fun v (hv : Taken h.src s v) =>
    leadModes_taken (mem_modesYOLM_of_modesYOL hmode) (ne_sillage_of_modesYOL hmode) hv
  have hbody := fun v (hv : Taken h.src s v) => by
    have e := formulaLoad_of_fields (h := h) (offset := offset) (total := total) (s := v) hf h1 hmax
    rw [chunkStatus_taken _ _ _ _ hv] at e
    exact e
  refine ⟨fun hst => ⟨_, rfl, ?_⟩, fun hst => ⟨_, rfl, ?_⟩⟩
  · simp only [hst, ne_eq, not_true_eq_false, if_false] at hbody
    split
    · rename_i hl
      exact serve_toSillage .now _ [] id hl ha hm (fun v hv => (hbody v hv).trans (if_pos (by rw [hv.mode, hl]; rfl)))
    · rename_i hl
      have hbody := fun v (hv : Taken h.src s v) => (hbody v hv).trans (if_neg (by rw [hv.mode]; simpa using hl))
      split
      · rename_i h1
        subst h1
        refine serve_later (f := fun u => jobBegun 0x0401 h .verify (storeChunk offset.toNat total.toNat true data u)) ha hm hbody
          (fun v hv => ?_)
        exact (storeChunk_mailOnly _ _ _ _ hv).jobBegun _ _ _
      · rename_i h1
        have hfin : (final == 1) = false := by simpa using h1
        rw [hfin] at hbody
        exact serve_set (f := storeChunk offset.toNat total.toNat false data) ha hm hbody (fun v hv => storeChunk_taken _ _ _ _ hv)
          (fun u => by rw [storeChunk_eq]; exact ⟨rfl, rfl, rfl, rfl, rfl, rfl⟩)
  · have hne : stBadField ≠ stOk := by decide
    simp only [hst, if_pos hne, chunkFails_badField] at hbody
    refine serve_set (f := fun u => if offset = 0 ∧ totalOk total.toNat = false then u
      else { u with frm := { u.frm with load := none, pending := none } }) ha hm hbody (fun v hv => ?_) (fun u => ?_)
    · obtain ⟨ar, cc, ke, la, ct, rfl⟩ := hv.form
      split <;> rfl
    · split <;> exact ⟨rfl, rfl, rfl, rfl, rfl, rfl⟩

end Sys2Proof.Machine
end

section
/-! The jobs of fuses, verification, restore, self-tests and flash, at their end (R35, R353, R397, R400, R425, R445). -/

namespace Sys2Proof.Machine
open Sys2Proof

/-! Fuses -/

/-- Bits are left to program as long as one of them is 1 (R425). -/
theorem fuseSkip_isEmpty (bit : Nat) (l : List Bool) : (fuseSkip bit l).2.isEmpty = !l.any id := by
  induction l generalizing bit with
  | nil => rfl
  | cons x t ih => cases x with
    | true => rfl
    | false => exact (ih (bit + 1)).trans (by simp)

theorem fuseBitProgram_of_job {ok : Bool} {s : State} {j : Job} {region bit b : Nat} {l rest : List Bool} {x : Bool}
    (hj : jobOf 0x3902 s = some j) (hb : j.body = .fuse region bit l) (hl : fuseSkip bit l = (b, x :: rest)) :
    fuseBitProgram ok s =
      if ok then
        let u := { s with boot := { s.boot with fuses := fuseSet s.boot.fuses region b } }
        if (fuseSkip (b + 1) rest).2.isEmpty then endJob j stOk none [] u
        else { u with nose := { u.nose with jobs := u.nose.jobs.map (fun y =>
          if y == j then { y with body := .fuse region (fuseSkip (b + 1) rest).1 (fuseSkip (b + 1) rest).2 } else y) } }
      else endJob j stJobFailed none [] (raiseErr 0x08 0xD 0 1 (errDetail [(8, region), (16, b)]) s) := by
  simp only [fuseBitProgram, hj, hb, hl]

/-! Verification -/

theorem verifyComplete_of_job {s : State} {j : Job} (hj : jobOf 0x0401 s = some j) (hb : j.body = .verify) :
    verifyComplete s = endJob j (verifyPending s).1 none
      ((verifyPending s).2.1.elim [] (fun f => [.num 4 f.id.toNat, .num 2 f.revision.toNat, .num 2 0]))
      { (verifyPending s).2.2 with frm := { (verifyPending s).2.2.frm with load := none, pending := (verifyPending s).2.1 } } := by
  simp only [verifyComplete, hj, hb]
  cases (verifyPending s).2.1 <;> rfl

/-- An image that does not verify leaves no formula in the pending slot (R35). -/
theorem verifyPending_failed {s : State} (h : (verifyPending s).1 ≠ stOk) : (verifyPending s).2.1 = none := by
  unfold verifyPending at h ⊢
  cases hl : s.frm.load with
  | none => rfl
  | some l =>
    rw [hl] at h
    exact if_neg h

/-! Restore and self-tests -/

theorem memRestoreComplete_of_job {eyes8 eyesS : List (Nat × Nat)} {s : State} {j : Job} (hj : jobOf 0x2205 s = some j)
    (hb : j.body = .memRestore) :
    memRestoreComplete eyes8 eyesS s =
      if eyesOk eyes8 && eyesOk eyesS then
        endJob j stOk none [] (raiseEv 0x31 0xB [] { s with mem := { s.mem with ready := true, eyes8 := eyes8, eyesS := eyesS } })
      else endJob j stTrainFail none [] s := by
  simp only [memRestoreComplete, hj, hb]
  cases eyesOk eyes8 <;> cases eyesOk eyesS <;> rfl

theorem bistComplete_of_job {fails' : BitVec 32} {eyes8 eyesS : List (Nat × Nat)} {s : State} {j : Job} {target : BitVec 16}
    (hj : jobOf 0x3004 s = some j) (hb : j.body = .bist target) :
    bistComplete fails' eyes8 eyesS s =
      let k := target.toNat % 256
      let u := bistLeaves k (target.toNat / 256) eyes8 eyesS s
      let u := if k = 0x10 ∨ k = 0x11 then u else releaseFormulas u
      let result := if fails' = 0 then 0 else 1
      endJob j stOk none [.num 4 result, .num 4 fails'.toNat]
        (raiseEv 0x49 0xE [.num 2 target.toNat, .num 2 0, .num 4 result, .num 4 fails'.toNat] u) := by
  simp only [bistComplete, hj, hb, Bool.or_eq_true, decide_eq_true_eq]
  rfl

/-! Flash -/

/-- The end of a job leaves what is not the mailbox's. -/
theorem endJob_boot (j : Job) (st : Nat) (eff : Option Stamp) (pay : List Fld) (s : State) : (endJob j st eff pay s).boot = s.boot := by
  unfold endJob
  exact withoutMail_same ((respond_mailOnly ..).trans (serveUndefined_mailOnly _)).1 (·.boot) fun _ => rfl

/-- Bytes stored one after another from an address, in a sparse store. -/
def storeFrom {α : Type} (m : FMap α) (a : Nat) (l : List α) : FMap α := l.zipIdx.foldl (fun m p => FMap.set m (a + p.2) p.1) m

theorem storeFrom_append {α : Type} (m : FMap α) (a : Nat) (l : List α) (x : α) :
    storeFrom m a (l ++ [x]) = FMap.set (storeFrom m a l) (a + l.length) x := by
  simp [storeFrom, List.zipIdx_append]

theorem find_storeFrom {α : Type} (m : FMap α) (a k : Nat) (l : List α) :
    FMap.find (storeFrom m a l) k = if a ≤ k ∧ k < a + l.length then l[k - a]? else FMap.find m k := by
  induction l using List.reverseRecOn with
  | nil => exact (if_neg fun h => by simp at h; omega).symm
  | append_singleton l x ih =>
    rw [storeFrom_append]
    by_cases hk : k = a + l.length
    · subst hk
      simp
    · rw [find_set_ne _ _ hk, ih]
      by_cases hin : a ≤ k ∧ k < a + l.length
      · rw [if_pos hin, if_pos (by simp; omega), List.getElem?_append_left (by omega)]
      · rw [if_neg hin, if_neg (by simp; omega)]

/-- The flash as a write leaves it: its sectors undefined where they were erased first, then the data (R411, R426). -/
def flashWritten (off : Nat) (erase : Bool) (data : List Byte) (s : State) : State :=
  let v := if erase then flashUndefine off data.length s else s
  { v with boot := { v.boot with flash := storeFrom v.boot.flash off data } }

theorem flashWriteComplete_of_job {s : State} {j : Job} {off : Nat} {erase : Bool} {data : List Byte}
    (hj : jobOf 0x3801 s = some j) (hb : j.body = .flash off erase data) :
    flashWriteComplete s = endJob j stOk none [] (flashWritten off erase data s) := by
  simp only [flashWriteComplete, hj, hb]
  rfl

theorem flashWritten_boot_only (off : Nat) (erase : Bool) (data : List Byte) (s : State) :
    { flashWritten off erase data s with boot := s.boot } = s := by
  cases erase <;> rfl

theorem flashByte_congr {u v : State} (h : v.boot = u.boot) (a : Nat) : flashByte v a = flashByte u a := by
  unfold flashByte
  rw [h]

/-- A byte of the data reads as it was written. -/
theorem flashByte_flashWritten (erase : Bool) (s : State) {off i : Nat} {data : List Byte} (hi : i < data.length) :
    flashByte (flashWritten off erase data s) (off + i) = data.getD i 0 := by
  unfold flashByte flashWritten
  rw [find_storeFrom, if_pos (by omega)]
  simp [hi]

/-- Without ERASE every other byte stands. -/
theorem flashByte_flashWritten_outside (s : State) {off a : Nat} {data : List Byte} (ha : a < off ∨ off + data.length ≤ a) :
    flashByte (flashWritten off false data s) a = flashByte s a := by
  unfold flashByte flashWritten
  rw [find_storeFrom, if_neg (by omega)]
  rfl

/-- Settles O18: each job is found by its opcode, and its body says how it ends. -/
theorem deviceJobsComplete : Obligations.DeviceJobsComplete := by
  intro s j
  refine ⟨fun region bit l b x rest hj hb hl => ⟨?_, ?_⟩, fun hj hb st f u hv => ⟨?_, ?_⟩, fun eyes8 eyesS hj hb => ?_,
    fun target fails' eyes8 eyesS hj hb => ?_, fun off erase data hj hb => ?_⟩
  · refine congrArg _ ((fuseBitProgram_of_job hj hb hl).trans ?_)
    simp only [fuseSkip_isEmpty]
    cases rest.any id <;> rfl
  · exact congrArg _ (fuseBitProgram_of_job hj hb hl)
  · have e := verifyComplete_of_job hj hb
    rw [hv] at e
    exact congrArg _ e
  · intro hst
    have e := verifyPending_failed (s := s)
    rw [hv] at e
    exact e hst
  · exact congrArg _ (memRestoreComplete_of_job hj hb)
  · exact congrArg _ (bistComplete_of_job hj hb)
  · refine ⟨_, congrArg Host.Outcome.next (flashWriteComplete_of_job hj hb), ⟨_, rfl, fun i hi => ?_, flashWritten_boot_only off erase data s⟩,
      fun he a ha => ?_⟩
    · rw [flashByte_congr (endJob_boot ..), flashByte_flashWritten erase s hi]
    · subst he
      rw [flashByte_congr (endJob_boot ..), flashByte_flashWritten_outside s ha]

end Sys2Proof.Machine
end

section
/-! The course of a beat: programs that start, complete and overrun, moves, and the stages of the close-out (R23, R24, R32, R49
to R52, R174, R370, R456). -/

namespace Sys2Proof.Machine
open Sys2Proof

/-! Beat programs -/

theorem unitStart_of_budget {u i : Nat} {b : Budget} {s : State} (h : startBudget s u i = some b) :
    unitStart u i s = unitBegin u i { atOffset b.start s with frm := { (atOffset b.start s).frm with
      running := (atOffset b.start s).frm.running ++ [unitKey u i] } } := by
  simp only [unitStart, h, atOffset]

theorem unitStart_of_no_budget {u i : Nat} {s : State} (h : startBudget s u i = none) : unitStart u i s = s := by
  simp only [unitStart, h]

theorem unitComplete_of_done {u i : Nat} {b : Budget} {s : State} (hr : unitRunning s u i = true) (hd : programDone s u i = true)
    (hb : budgetOf s u i (linSymbol s.tb.lin) = some b) (ht : offsetNow s ≤ b.limit) :
    unitComplete u i s = unitFinish u i { noLonger u i s with frm := { (noLonger u i s).frm with
      completed := (noLonger u i s).frm.completed ++ [unitKey u i] } } := by
  refine if_pos ?_
  simp [hr, hd, hb, ht]

theorem unitComplete_of_not_running {u i : Nat} {s : State} (h : unitRunning s u i = false) : unitComplete u i s = s := by
  refine if_neg ?_
  simp [h]

theorem budgetOverrun_of_running {u i : Nat} {b : Budget} {s : State} (hr : unitRunning s u i = true)
    (hb : budgetOf s u i (linSymbol s.tb.lin) = some b) :
    budgetOverrun u i s =
      let v := noLonger u i (atOffset b.limit s)
      let w := unitStop u i { v with frm := { v.frm with overrun := v.frm.overrun ++ [unitKey u i] } }
      markSubst u i (raiseEv 0x09 0x5 [.num 1 u, .num 1 i] (count 0x500 0
        (makeVerdict 0x04 0x5 w.tb.beat (u * 2 ^ 60 + i * 2 ^ 52) w))) := by
  simp only [budgetOverrun, hr, hb, Bool.not_true, Bool.false_eq_true, if_false, Option.elim_some, atOffset, noLonger]

theorem budgetOverrun_of_not_running {u i : Nat} {s : State} (h : unitRunning s u i = false) : budgetOverrun u i s = s := by
  simp [budgetOverrun, h]

/-- Settles O28: each row is one function of the course of a beat, and each of its branches has its equation. -/
theorem beatProgramsRun : Obligations.BeatProgramsRun := by
  intro u i s
  refine ⟨fun b hb => ⟨_, rfl, unitStart_of_budget hb⟩, fun hn => congrArg _ (unitStart_of_no_budget hn),
    fun hr hd hb => ⟨_, rfl, ?_⟩, fun b hr hb => ⟨_, rfl, budgetOverrun_of_running hr hb⟩, fun hr => ⟨?_, ?_⟩⟩
  · obtain ⟨b, hb, ht⟩ := hb
    exact unitComplete_of_done hr hd hb ht
  · exact congrArg _ (unitComplete_of_not_running hr)
  · exact congrArg _ (budgetOverrun_of_not_running hr)

/-! Moves -/

theorem moveStart_of_due {idx : Nat} {m : Move} {s : State} (hm : moveNo s idx = some m) (he : s.frm.executing = true)
    (hr : inRupture s = false) (hn : s.frm.moving.contains idx = false) (hd : s.frm.moved.contains idx = false) :
    moveStart idx s = { atOffset m.start s with frm := { (atOffset m.start s).frm with
      moving := (atOffset m.start s).frm.moving ++ [idx] } } := by
  simp only [moveStart, hm, he, hr, hn, hd, Bool.not_true, Bool.or_false, Bool.false_eq_true, if_false, atOffset]

theorem moveEnd_of_ready {idx : Nat} {m : Move} {s : State} (hm : moveNo s idx = some m) (hn : s.frm.moving.contains idx = true)
    (hs : sourceReady s m = true) :
    moveEnd idx s =
      let r := moveRead m.src m.srcAddr (64 * m.len) (atOffset (m.start + m.len) s)
      let w := moveWrite m.dst m.dstAddr r.1.1 r.1.2 r.2
      { w with frm := { w.frm with moving := w.frm.moving.filter (fun i => i != idx), moved := w.frm.moved ++ [idx] } } := by
  simp only [moveEnd, hm, hn, hs, Bool.not_true, Bool.or_false, Bool.false_eq_true, if_false, atOffset]

theorem moveEnd_of_waiting {idx : Nat} {m : Move} {s : State} (hm : moveNo s idx = some m)
    (h : s.frm.moving.contains idx = false ∨ sourceReady s m = false) : moveEnd idx s = s := by
  simp only [moveEnd, hm]
  refine if_pos ?_
  rcases h with h | h
  · rw [h]; rfl
  · rw [h, Bool.not_false, Bool.or_true]

/-- Settles O30: a move's start and end are one equation each. -/
theorem movesCarryTheirBytes : Obligations.MovesCarryTheirBytes := by
  intro idx m s hm
  exact ⟨fun he hr hn hd => ⟨_, rfl, moveStart_of_due hm he hr hn hd⟩, fun hn hs => ⟨_, rfl, moveEnd_of_ready hm hn hs⟩,
    fun h => congrArg _ (moveEnd_of_waiting hm h)⟩

/-! The close-out -/

/-- The counter alone moves. -/
theorem advanceTo_eq (off : Nat) (s : State) : advanceTo off s = { s with tb := (advanceTo off s).tb } := by
  unfold advanceTo
  split <;> rfl

@[simp] theorem advanceTo_nose (off : Nat) (s : State) : (advanceTo off s).nose = s.nose := by rw [advanceTo_eq]
@[simp] theorem advanceTo_frm (off : Nat) (s : State) : (advanceTo off s).frm = s.frm := by rw [advanceTo_eq]
@[simp] theorem advanceTo_twn (off : Nat) (s : State) : (advanceTo off s).twn = s.twn := by rw [advanceTo_eq]
@[simp] theorem advanceTo_mem (off : Nat) (s : State) : (advanceTo off s).mem = s.mem := by rw [advanceTo_eq]
@[simp] theorem advanceTo_ctr (off : Nat) (s : State) : (advanceTo off s).ctr = s.ctr := by rw [advanceTo_eq]

theorem publish_of_stage {dev : List (Fin 15 × Fin 96 × UState)} {s : State} (h : s.frm.stage ≠ 0) : publish dev s = s :=
  if_pos (by simp [h])

theorem digestRecord_of_stage {s : State} (h0 : s.frm.stage ≠ 0) (h1 : s.frm.stage ≠ 1) : digestRecord s = s := by
  unfold digestRecord
  rw [publish_of_stage h0]
  exact if_pos h1

/-- The state in which the digest record is due: at its cycle, its stage behind it. -/
def digestDue (s : State) : State := { advanceTo 66048 s with frm := { (advanceTo 66048 s).frm with stage := 2 } }

/-- The record of the beat kept, with what went into it forgotten (R51, R381). -/
def digestKept (v : State) : State :=
  { v with
    frm := { v.frm with digest := some (digestNow v).1, digested := [] }
    twn := { v.twn with records := (digestNow v :: v.twn.records).take 64 } }

theorem digestRecord_at_stage_one {s : State} (h : s.frm.stage = 1) :
    digestRecord s = if s.frm.executing then digestKept (digestDue s) else digestDue s := by
  have hx : (digestDue s).frm.executing = s.frm.executing := by simp [digestDue]
  unfold digestRecord
  rw [publish_of_stage (by omega)]
  refine (if_neg (by omega)).trans ?_
  show (if !(digestDue s).frm.executing then digestDue s else digestKept (digestDue s)) = _
  rw [hx]
  cases s.frm.executing
  · exact (if_pos rfl).trans (if_neg (by decide)).symm
  · exact (if_neg (by decide)).trans (if_pos rfl).symm

theorem idleGuard_at_stage_two {s : State} (h : s.frm.stage = 2) :
    idleGuard s = resizeGuard (sealBeat (advanceTo 66560 { s with frm := { s.frm with stage := 3 } })) := by
  unfold idleGuard
  rw [digestRecord_of_stage (by omega) (by omega)]
  exact if_neg (by omega)

theorem idleGuard_of_stage_three {s : State} (h : s.frm.stage = 3) : idleGuard s = s := by
  unfold idleGuard
  rw [digestRecord_of_stage (by omega) (by omega)]
  exact if_pos (by omega)

/-- A device that does not lead seals nothing. -/
theorem sealBeat_of_not_lead {s : State} (h : s.nose.mode ≠ .lead) : sealBeat s = s :=
  if_pos (by simpa using h)

/-! The snapshot of the state words -/

/-- A store filled key by key holds the value of each key that the list gives once. -/
theorem find_foldl_set {α β : Type} (key : β → Nat) (val : β → α) {q : β} (m : FMap α) {l : List β} (hq : q ∈ l)
    (hinj : ∀ p ∈ l, key p = key q → p = q) :
    FMap.find (l.foldl (fun m p => FMap.set m (key p) (val p)) m) (key q) = some (val q) := by
  induction l using List.reverseRecOn with
  | nil => cases hq
  | append_singleton l x ih =>
    rw [List.foldl_append]
    show FMap.find (FMap.set _ (key x) (val x)) (key q) = _
    by_cases hx : key x = key q
    · rw [hinj x (by simp) hx]
      exact find_set_eq _ _ _
    · rw [find_set_ne _ _ (Ne.symm hx)]
      refine ih ?_ (fun p hp => hinj p (by simp [hp]))
      rcases List.mem_append.1 hq with hq | hq
      · exact hq
      · exact absurd (congrArg key (List.mem_singleton.1 hq).symm) hx

theorem unitInstances_le (u : Nat) : unitInstances u ≤ 96 := by
  unfold unitInstances
  split
  · omega
  · split <;> omega

theorem mem_wordList {u k : Nat} : (u, k) ∈ wordList ↔ u < 15 ∧ k < unitInstances u := by
  simp [wordList]

/-- The key of a state word names its unit and its place in it. -/
theorem unitKey_inj {u k v j : Nat} (hk : k < 128) (hj : j < 128) (h : unitKey u k = unitKey v j) : u = v ∧ k = j := by
  unfold unitKey at h
  omega

theorem find_writeWords (dev : List (Fin 15 × Fin 96 × UState)) (s : State) {u k : Nat} (hu : u < 15) (hk : k < unitInstances u) :
    FMap.find (writeWords dev s).bar0.words (unitKey u k) = some (publishWord s u k (publishedState dev s u k)) := by
  have hinj : ∀ p ∈ wordList, unitKey p.1 p.2 = unitKey u k → p = (u, k) := by
    rintro ⟨v, j⟩ hp he
    have hj := (mem_wordList.1 hp).2
    have := unitInstances_le u
    have := unitInstances_le v
    obtain ⟨rfl, rfl⟩ := unitKey_inj (by omega) (by omega) he
    rfl
  have hfind := find_foldl_set (fun p : Nat × Nat => unitKey p.1 p.2) (fun p => publishWord s p.1 p.2 (publishedState dev s p.1 p.2))
    (q := (u, k)) s.bar0.words (mem_wordList.2 ⟨hu, hk⟩) hinj
  simpa only [writeWords] using hfind

/-- Settles O31: each stage acts in its own stage alone, and moves on to the next. -/
theorem closeOutStages : Obligations.CloseOutStages := by
  refine ⟨fun dev s h0 hrun => ⟨_, rfl, ?_, ?_⟩, fun dev s => ⟨rfl, rfl, fun u k => find_writeWords dev s⟩,
    fun s h1 => ⟨_, rfl, ?_⟩, fun s h2 hm => ⟨_, rfl, ?_⟩, fun s h2 _ => ⟨_, rfl, idleGuard_at_stage_two h2⟩,
    fun s h3 => ⟨fun dev => ?_, ?_, ?_⟩⟩
  · exact if_neg (by simp [h0, hrun])
  · rw [show publish dev s = _ from if_neg (by simp [h0, hrun])]
    rfl
  · rw [digestRecord_at_stage_one h1]
    refine ⟨?_, fun he => ?_, fun he => ?_⟩
    · split <;> rfl
    · exact if_neg (by simp [he])
    · rw [if_pos he]
      refine ⟨rfl, rfl, ?_, by simp [digestKept, digestDue], by simp [digestKept, digestDue], by simp [digestKept, digestDue]⟩
      exact congrArg (fun l => (digestNow (digestDue s) :: l).take 64) (congrArg (·.records) (advanceTo_twn 66048 s))
  · rw [idleGuard_at_stage_two h2, sealBeat_of_not_lead (by simpa using hm)]
  · exact congrArg _ (publish_of_stage (by omega))
  · exact congrArg _ (digestRecord_of_stage (by omega) (by omega))
  · exact congrArg _ (idleGuard_of_stage_three h3)

end Sys2Proof.Machine
end

section
/-! eCPRI messages: counted, discarded, or filed in their window and forwarded (R40, R41, R270, R277, R294, R367). -/

namespace Sys2Proof.Machine
open Sys2Proof

/-! Rank order and eviction -/

theorem mem_insertRank (x : Item) (l : List Item) : x ∈ insertRank x l := by
  induction l with
  | nil => exact List.mem_singleton_self x
  | cons y t ih =>
    rw [insertRank]
    split
    · exact List.mem_cons_self
    · exact List.mem_cons_of_mem _ ih

/-- What the walk keeps and what it leaves are the ranking (R294). -/
theorem keepPrefix_append (cap : Nat) (limit : Nat → Nat) (bytes : Nat) (per : List (Nat × Nat)) (l : List Item) :
    (keepPrefix cap limit bytes per l).1 ++ (keepPrefix cap limit bytes per l).2 = l := by
  induction l generalizing bytes per with
  | nil => rfl
  | cons x t ih =>
    rw [keepPrefix]
    dsimp only
    split
    · rfl
    · exact congrArg (x :: ·) (ih _ _)

/-- A window that holds nothing beyond its bounds, and from which nothing was evicted, stays as it is. -/
theorem windowKeep_of_fits {w : Window} {s : State} (he : w.evicted = [])
    (hk : (keepPrefix ((sqPar s).winBeat.getD w.c 0) (sectionLimit w) 0 [] w.items).2 = []) :
    windowKeep w s = (w, countBy 0x608 w.c 0 s) := by
  have happ := keepPrefix_append ((sqPar s).winBeat.getD w.c 0) (sectionLimit w) 0 [] w.items
  rw [hk, List.append_nil] at happ
  obtain ⟨c, beat, items, depths, evicted⟩ := w
  dsimp only at he hk happ
  subst he
  simp only [windowKeep, List.any_nil, Bool.not_false, List.filter_true, List.filter_false, hk, happ, List.append_nil,
    List.length_nil]

/-! Windows -/

theorem windowOpen_c_beat (c : Nat) (b : Stamp) (l : List Window) (s : State) :
    (windowOpen c b l s).c = c ∧ (windowOpen c b l s).beat = b := by
  unfold windowOpen
  split
  · rename_i w hw
    simpa using List.find?_some hw
  · exact ⟨rfl, rfl⟩

/-! Filing -/

/-- A copy of an item that its beat holds is counted, and nothing is forwarded (R41, R367). -/
theorem fileItem_of_copy {shadow : Bool} {c : Nat} {b : Stamp} {it old : Item} {s : State} {w : Window}
    (hw : (windowsOf shadow s).find? (fun v => v.beat == b
      && v.items.any (fun i => i.control == it.control && i.queue == it.queue && i.ident == it.ident)) = some w)
    (ho : w.items.find? (fun i => i.control == it.control && i.queue == it.queue && i.ident == it.ident) = some old)
    (hb : old.bytes.drop 4 = it.bytes.drop 4) : fileItem shadow c b it s = (false, count 0x602 0 s) := by
  simp [fileItem, hw, ho, hb]

/-- The state with an item filed in rank order in the window of its carrier and beat, and nothing evicted. -/
def itemFiled (c : Nat) (b : Stamp) (it : Item) (s : State) : State :=
  let w := windowOpen c b s.sq.windows s
  countBy 0x608 c 0 { s with sq := { s.sq with
    windows := s.sq.windows.filter (fun v => !(v.c == c && v.beat == b)) ++ [{ w with items := insertRank it w.items }] } }

/-- An item of a new identity that fits stands in the window of its carrier and beat, in rank order. -/
theorem fileItem_of_new {c : Nat} {b : Stamp} {it : Item} {s : State}
    (hnew : ∀ v ∈ s.sq.windows, v.beat = b →
      v.items.any (fun i => i.control == it.control && i.queue == it.queue && i.ident == it.ident) = false)
    (he : (windowOpen c b s.sq.windows s).evicted = [])
    (hk : (keepPrefix ((sqPar s).winBeat.getD c 0) (sectionLimit (windowOpen c b s.sq.windows s)) 0 []
      (insertRank it (windowOpen c b s.sq.windows s).items)).2 = []) :
    fileItem false c b it s = (true, itemFiled c b it s) := by
  obtain ⟨hc, hb⟩ := windowOpen_c_beat c b s.sq.windows s
  have hnone : s.sq.windows.find? (fun v => v.beat == b
      && v.items.any (fun i => i.control == it.control && i.queue == it.queue && i.ident == it.ident)) = none := by
    rw [List.find?_eq_none]
    intro v hv h
    rw [Bool.and_eq_true, beq_iff_eq] at h
    exact Bool.false_ne_true ((hnew v hv h.1).symm.trans h.2)
  unfold fileItem windowsOf itemFiled
  dsimp only
  rw [if_neg (by decide), hnone]
  dsimp only
  generalize windowOpen c b s.sq.windows s = w at *
  subst hc hb
  rw [windowKeep_of_fits (w := { w with items := insertRank it w.items }) he hk]
  rfl

/-! The table "Ingress outcomes" (R41) -/

/-- The arrival lies beyond the horizon. -/
def beyondHorizon (s : State) (b : Stamp) : Prop := (sqPar s).horizon < beatDist s.tb.beat b ∧ beatDist s.tb.beat b < 36700160

/-- The arrival is past its admission instant, or its window is closed. -/
def pastAdmission (s : State) (c : Nat) (b : Stamp) (stamp : Int) : Prop :=
  admissionTime s c (linNear s b) ≤ stamp * 2 ^ 36 ∨ (4 * linNear s b + c) ∈ s.sq.closed

theorem admitItem_of_beyondHorizon {c : Nat} {b : Stamp} {it : Item} {s : State} (h : beyondHorizon s b) :
    admitItem false c b it s = (false, discardArrival it.queue it.ident b 2 s) := by
  obtain ⟨h1, h2⟩ := h
  simp [admitItem, h1, h2]

theorem admitItem_of_pastAdmission {c : Nat} {b : Stamp} {it : Item} {s : State} (hn : ¬ beyondHorizon s b)
    (h : pastAdmission s c b it.stamp) : admitItem false c b it s = (false, discardArrival it.queue it.ident b 1 s) := by
  unfold admitItem
  dsimp only
  rw [if_neg (by simpa [beyondHorizon] using hn), if_pos (by simpa [pastAdmission] using h)]
  rfl

theorem admitItem_of_onTime {c : Nat} {b : Stamp} {it : Item} {s : State} (hn : ¬ beyondHorizon s b)
    (h : ¬ pastAdmission s c b it.stamp) : admitItem false c b it s = fileItem false c b it s := by
  unfold admitItem
  dsimp only
  rw [if_neg (by simpa [beyondHorizon] using hn), if_neg (by simpa [pastAdmission] using h)]
  rfl

/-! The message -/

/-- The carrier that a section or control message names. -/
def msgCarrier (t : Nat) (l : List Byte) : Nat := if t = 2 then ctlCarrier l else secCarrier l

theorem messageArrive_of_bad {shadow : Bool} {p t : Nat} {stamp : Int} {l frame : List Byte} {s : State}
    (h : messageOk s p t l = false) : messageArrive shadow p t stamp l frame s = count 0x90A p s := by
  simp [messageArrive, h]

theorem messageArrive_of_badStamp {shadow : Bool} {p t : Nat} {stamp : Int} {l frame : List Byte} {s : State}
    (h : messageOk s p t l = true) (hs : stampValid (msgBeat l) = false) :
    messageArrive shadow p t stamp l frame s = count 0x605 0 s := by
  simp [messageArrive, h, hs]

/-- A message that is admitted is forwarded, any other is not (R367). -/
theorem messageArrive_of_admitItem {p t : Nat} {stamp : Int} {l frame : List Byte} {s v : State} {ok : Bool}
    (h : messageOk s p t l = true) (hs : stampValid (msgBeat l) = true)
    (hr : admitItem false (msgCarrier t l) (msgBeat l) (itemOf p t stamp l frame) s = (ok, v)) :
    messageArrive false p t stamp l frame s = if ok then forwardArrival p stamp frame v else v := by
  unfold messageArrive
  rw [if_neg (by simp [h]), if_neg (by simp [hs])]
  unfold msgCarrier at hr
  simp only [hr, Bool.not_false, Bool.and_true]

/-- An arrival is forwarded to a peer that mirrors; SQ is not touched. -/
theorem forwardArrival_cases (p : Nat) (stamp : Int) (frame : List Byte) (s : State) :
    (forwardArrival p stamp frame s).sq = s.sq
    ∧ (s.twn.forwarding = false → forwardArrival p stamp frame s = s)
    ∧ (s.twn.forwarding = true → s.twn.up = true → (forwardArrival p stamp frame s).outs
      = .tw 0 s.twn.txSeq s.tb.beat (.forward (BitVec.ofNat 4 p) false (BitVec.ofInt 36 stamp) frame) :: s.outs) := by
  unfold forwardArrival sendTwLead
  refine ⟨?_, fun h => ?_, fun h hu => ?_⟩
  · unfold sendTw
    split
    · split <;> rfl
    · rfl
  · rw [if_neg (by simp [h])]
  · rw [if_pos h, sendTw_of_up hu]
    rfl

/-! The statement -/

theorem mem_ecpriRows {f : RxFrame} {i : Instr} (hi : i ∈ [Instr.ecpriIqSection f, .ecpriRtControl f, .ecpriDelayMeasurement f]) :
    i ∈ plainRows f := by
  simp only [List.mem_cons, List.not_mem_nil, or_false] at hi
  rcases hi with rfl | rfl | rfl <;> simp [plainRows]

/-- An eCPRI row is the eCPRI message of a frame that was counted. -/
theorem exec_ecpriRow {f : RxFrame} {s : State} (ht : FrameTaken 0xAEFE f s) {i : Instr}
    (hi : i ∈ [Instr.ecpriIqSection f, .ecpriRtControl f, .ecpriDelayMeasurement f]) :
    exec i s = .next (ecpriFrame f (ethParts f.bytes) (frameCounted f s)) := by
  rw [exec_of_mem_plainRows (mem_ecpriRows hi), frameReceive_of_frameTaken ptpDiscard ht]
  rfl

theorem ecpriFrame_of_unparsed {f : RxFrame} {e : EthParts} {s : State} (h : ecpriParse e.body = none) :
    ecpriFrame f e s = count 0x90A f.port.val s := by
  simp only [ecpriFrame, h]

theorem ecpriFrame_of_message {f : RxFrame} {e : EthParts} {s : State} {t : Nat} {l : List Byte}
    (h : ecpriParse e.body = some (t, l)) (ht : t ≠ 5) :
    ecpriFrame f e s = messageArrive (s.nose.mode == .sillage) f.port.val t (rxStamp s f f.last) l f.bytes s := by
  simp only [ecpriFrame, h, if_neg ht]

/-- Settles O39: the message's own outcome decides, and a filed one is forwarded. -/
theorem messagesAreFiled : Obligations.MessagesAreFiled := by
  intro f s ht p u body i hi
  have hexec := exec_ecpriRow ht hi
  refine ⟨fun hb => hexec.trans (congrArg _ (ecpriFrame_of_unparsed hb)), fun t l hb h5 => ?_⟩
  intro c b x d early late same w
  rw [ecpriFrame_of_message hb h5] at hexec
  refine ⟨fun hbad => hexec.trans (congrArg _ (messageArrive_of_bad (s := u) hbad)),
    fun hok hstamp => hexec.trans (congrArg _ (messageArrive_of_badStamp (s := u) hok hstamp)), fun hok hstamp hmode => ?_⟩
  rw [show ((frameCounted f s).nose.mode == .sillage) = false by simpa [frameCounted] using hmode] at hexec
  have harrive := fun ok v (hr : admitItem false c b x u = (ok, v)) =>
    hexec.trans (congrArg _ (messageArrive_of_admitItem (s := u) hok hstamp hr))
  refine ⟨fun he => ?_, fun hn hl => ?_, fun hn hl v y hv hy hcopy => ?_, fun hn hl hnew hev hfits => ?_⟩
  · exact harrive _ _ (admitItem_of_beyondHorizon (s := u) he)
  · exact harrive _ _ (admitItem_of_pastAdmission (s := u) hn hl)
  · exact harrive _ _ ((admitItem_of_onTime (s := u) hn hl).trans (fileItem_of_copy (s := u) hv hy hcopy))
  · have hr := (admitItem_of_onTime (s := u) hn hl).trans (fileItem_of_new (s := u) hnew hev hfits)
    obtain ⟨hsq, hoff, hon⟩ := forwardArrival_cases p x.stamp f.bytes (itemFiled c b x u)
    refine ⟨_, harrive _ _ hr, hsq, mem_insertRank x w.items, fun h => ?_, fun h hup => hon h hup⟩
    exact ⟨congrArg (·.twn) (hoff h), congrArg (·.outs) (hoff h)⟩

end Sys2Proof.Machine
end

section
/-! Accord exchange frames at an anchor: rejected, late, duplicate or stored as a raw pair (R21, R41, R230, R285). -/

namespace Sys2Proof.Machine
open Sys2Proof

/-! The header of an accord frame -/

/-- The 24 bytes of the accord header. -/
def accHead (e : EthParts) : Nat := beAt e.body 0 24
/-- The sections that the header announces. -/
def accSecs (e : EthParts) : Option (List AccSection) := accSections (bits (accHead e) 103 96) (e.body.drop 24)
/-- The context of the layer that the header names. -/
def accCtx (s : State) (e : EthParts) : BitVec 128 := ctxOf s (bits (accHead e) 163 162) (bits (accHead e) 127 122)
/-- The air beat of the frame. -/
def accBeat (e : EthParts) : Stamp := BitVec.ofNat 32 (bits (accHead e) 95 64)

/-- The sections lie in the carrier, on whole resource block groups. -/
def accSectionsFit (s : State) (e : EthParts) (k : List AccSection) : Prop :=
  ∀ x ∈ k, x.p0 % 10 = 0 ∧ x.p0 + x.nblk ≤ (carrierOf s (bits (accHead e) 163 162)).nprb

/-- The header meets the rules of R285. -/
def accHeaderOk (s : State) (e : EthParts) : Prop :=
  24 ≤ e.body.length ∧ bits (accHead e) 191 188 = 1 ∧ bits (accHead e) 187 184 = 1
    ∧ (bits (accHead e) 182 176 = 0 ∧ bits (accHead e) 161 160 = 0 ∧ bits (accHead e) 145 144 = 0 ∧ bits (accHead e) 129 128 = 0
      ∧ bits (accHead e) 115 104 = 0 ∧ bits (accHead e) 31 0 = 0)
    ∧ bits (accHead e) 143 130 = s.nose.deviceId.toNat
    ∧ (ctxUlEn (accCtx s e) = true ∧ ctxMode (accCtx s e) = 2 ∧ ctxAccord (accCtx s e) = bits (accHead e) 175 164)
    ∧ bits (accHead e) 159 146 ∈ slotMembers s (ctxSlot (accCtx s e)) (bits (accHead e) 175 164)
    ∧ signed 6 (bits (accHead e) 121 116) = ctxAccSh (accCtx s e)
    ∧ 1 ≤ bits (accHead e) 103 96 ∧ bits (accHead e) 103 96 ≤ 12

/-- The frame meets the rules of R285, with the sections `k`. -/
def accordGood (s : State) (e : EthParts) (k : List AccSection) : Prop :=
  accHeaderOk s e ∧ accSecs e = some k ∧ accSectionsFit s e k

/-- The frame arrives past the deadline of its slot (R230). -/
def accordLate (s : State) (e : EthParts) (stamp : Int) : Bool :=
  (slotDeadline s (ctxSlot (accCtx s e))).any (fun dl => decide (deadlineTime s (linNear s (accBeat e)) dl ≤ stamp * 2 ^ 36))

/-- What becomes of a frame that meets the rules, at the anchor. -/
def accordFile (p : Nat) (stamp : Int) (e : EthParts) (frame : List Byte) (k : List AccSection) (s : State) : State :=
  let beat := accBeat e
  let slot := ctxSlot (accCtx s e)
  let s' := k.foldl (fun v x => fileAccord p slot (bits (accHead e) 159 146) (bits (accHead e) 163 162) (bits (accHead e) 127 122)
    beat (accordLate s e stamp) (ctxAccSh (accCtx s e)) (bitN (accHead e) 183) x v) s
  if s'.fhp.arrived.length = s.fhp.arrived.length then s' else forwardArrival p stamp frame s'

/-- The model's own test of the header and the sections. -/
def accordRefused (s : State) (e : EthParts) (k : List AccSection) : Bool :=
  let h := accHead e
  let ctx := accCtx s e
  let rsv := bits h 182 176 == 0 && bits h 161 160 == 0 && bits h 145 144 == 0 && bits h 129 128 == 0
    && bits h 115 104 == 0 && bits h 31 0 == 0
  let own := ctxUlEn ctx && ctxMode ctx == 2 && ctxAccord ctx == bits h 175 164
  decide (e.body.length < 24) || bits h 191 188 != 1 || bits h 187 184 != 1 || !rsv || bits h 143 130 != s.nose.deviceId.toNat
    || !own || !(slotMembers s (ctxSlot ctx) (bits h 175 164)).contains (bits h 159 146)
    || signed 6 (bits h 121 116) != ctxAccSh ctx
    || k.any (fun x => x.p0 % 10 != 0 || x.p0 + x.nblk > (carrierOf s (bits h 163 162)).nprb)

theorem accordRefused_eq_false {s : State} {e : EthParts} {k : List AccSection} (h1 : 1 ≤ bits (accHead e) 103 96)
    (h12 : bits (accHead e) 103 96 ≤ 12) : accordRefused s e k = false ↔ accHeaderOk s e ∧ accSectionsFit s e k := by
  simp [accordRefused, accHeaderOk, accSectionsFit, h1, h12, and_assoc]

theorem accordFrame_of_good {p : Nat} {stamp : Int} {e : EthParts} {frame : List Byte} {s : State} {k : List AccSection}
    (h : accordGood s e k) :
    accordFrame false p stamp e frame s =
      if !stampValid (accBeat e) then count 0x605 0 s
      else if decide ((sqPar s).horizon < beatDist s.tb.beat (accBeat e)) && decide (beatDist s.tb.beat (accBeat e) < 36700160) then
        discardArrival 0 0 (accBeat e) 2 s
      else accordFile p stamp e frame k s := by
  obtain ⟨hh, hk, hfit⟩ := h
  obtain ⟨h1, h12⟩ := hh.2.2.2.2.2.2.2.2
  have hr := (accordRefused_eq_false h1 h12).2 ⟨hh, hfit⟩
  unfold accordFrame
  extract_lets hd accord c l dev ctx n beat slot rsv own secs d late
  have hlate : late = accordLate s e stamp := by
    show (match slotDeadline s (ctxSlot (accCtx s e)) with | some dl => _ | none => _) = _
    unfold accordLate
    cases slotDeadline s (ctxSlot (accCtx s e)) <;> rfl
  have hn : ¬ (n = 0 ∨ 12 < n) := by
    have h1' : 1 ≤ n := h1
    have h12' : n ≤ 12 := h12
    omega
  rw [show secs = some k from (if_neg (by simpa using hn)).trans hk]
  show (if accordRefused s e k = true then _ else _) = _
  simp +zetaDelta only [hr, hlate, Bool.false_eq_true, if_false, accordFile, accHead, accCtx, accBeat]
  rfl

theorem accordFrame_of_not_good {p : Nat} {stamp : Int} {e : EthParts} {frame : List Byte} {s : State}
    (h : ∀ k, ¬ accordGood s e k) : accordFrame false p stamp e frame s = count 0x90C p s := by
  unfold accordFrame
  extract_lets hd accord c l dev ctx n beat slot rsv own secs
  by_cases hn : n = 0 ∨ 12 < n
  · rw [show secs = none from if_pos (by simpa using hn)]
  · rw [show secs = accSecs e from if_neg (by simpa using hn)]
    cases hk : accSecs e with
    | none => rfl
    | some k =>
      have h1 : 1 ≤ bits (accHead e) 103 96 := Nat.pos_of_ne_zero fun h0 => hn (.inl h0)
      have h12 : bits (accHead e) 103 96 ≤ 12 := Nat.le_of_not_lt fun h => hn (.inr h)
      refine if_pos ?_
      by_contra hb
      obtain ⟨hh, hfit⟩ := (accordRefused_eq_false h1 h12).1 ((Bool.not_eq_true _).mp hb)
      exact h k ⟨hh, hk, hfit⟩

/-! One section -/

theorem accordLate_iff {s : State} {e : EthParts} {stamp : Int} : accordLate s e stamp = true ↔
    ∃ d, slotDeadline s (ctxSlot (accCtx s e)) = some d ∧ deadlineTime s (linNear s (accBeat e)) d ≤ stamp * 2 ^ 36 := by
  simp only [accordLate, Option.any_eq_true, decide_eq_true_eq]

theorem resTaint_fhp (a n : Nat) (t : Bool) (s : State) : (resTaint a n t s).fhp = s.fhp := by
  unfold resTaint
  split <;> rfl

/-- A raw pair that is stored leaves the ports. -/
theorem storeRaw_fhp (slot dev c l lin : Nat) (accSh : Int) (taint : Bool) (x : AccSection) (s : State) :
    (storeRaw slot dev c l lin accSh taint x s).fhp = s.fhp := by
  unfold storeRaw
  dsimp only
  rw [countBy_fhp, resTaint_fhp, resWrite_fhp]

section
variable {p slot dev c l : Nat} {beat : Stamp} {late : Bool} {accSh : Int} {taint : Bool} {x : AccSection} {s : State}

theorem fileAccord_of_late (h : late = true ∨ (slot, dev, linNear s beat) ∈ s.fhp.late) :
    fileAccord p slot dev c l beat late accSh taint x s = count 0x40C slot s :=
  if_pos (by simpa using h)

theorem fileAccord_of_duplicate (h : ¬ (late = true ∨ (slot, dev, linNear s beat) ∈ s.fhp.late))
    (hd : (⟨slot, dev, beat, c, l, x.p0⟩ : Partial) ∈ s.fhp.arrived) :
    fileAccord p slot dev c l beat late accSh taint x s = count 0x90D p s :=
  (if_neg (by simpa using h)).trans (if_pos (by simpa using hd))

theorem fileAccord_of_new (h : ¬ (late = true ∨ (slot, dev, linNear s beat) ∈ s.fhp.late))
    (hd : (⟨slot, dev, beat, c, l, x.p0⟩ : Partial) ∉ s.fhp.arrived) :
    fileAccord p slot dev c l beat late accSh taint x s = storeRaw slot dev c l (linNear s beat) accSh taint x
      { s with fhp := { s.fhp with arrived := s.fhp.arrived ++ [⟨slot, dev, beat, c, l, x.p0⟩] } } :=
  (if_neg (by simpa using h)).trans (if_neg (by simpa using hd))

end

/-- A frame of one section is forwarded exactly when its section arrived. -/
theorem accordFile_singleton {p : Nat} {stamp : Int} {e : EthParts} {frame : List Byte} {x : AccSection} {s v : State}
    (h : fileAccord p (ctxSlot (accCtx s e)) (bits (accHead e) 159 146) (bits (accHead e) 163 162) (bits (accHead e) 127 122)
      (accBeat e) (accordLate s e stamp) (ctxAccSh (accCtx s e)) (bitN (accHead e) 183) x s = v) :
    accordFile p stamp e frame [x] s =
      if v.fhp.arrived.length = s.fhp.arrived.length then v else forwardArrival p stamp frame v := by
  subst h
  rfl

/-! The statement -/

/-- The row is the accord frame at the anchor, of a frame that was counted. -/
theorem exec_accordRow {f : RxFrame} {s : State} (ht : FrameTaken 0x88B5 f s) (hm : s.nose.mode ≠ .sillage) :
    exec (.accordExchangeFrame f) s = .next (accordFrame false f.port.val (rxStamp (frameCounted f s) f f.last)
      (ethParts f.bytes) f.bytes (frameCounted f s)) := by
  rw [exec_of_mem_plainRows (f := f) (by simp [plainRows]), frameReceive_of_frameTaken ptpDiscard ht, decide_eq_false hm]
  rfl

/-- Settles O41: the rules of R285 first, then the stamp, the horizon, and the section's own outcome. -/
theorem accordFramesAreFiled : Obligations.AccordFramesAreFiled := by
  intro f s ht hm
  have hexec := exec_accordRow ht hm
  intro p u e h accord c l dev beat ctx slot stamp secs early good
  have hgood : good ↔ ∃ k, accordGood u e k := by
    constructor
    · rintro ⟨h1, h2, h3, h4, h5, h6, h7, h8, h9, h10, k, hk, hfit⟩
      exact ⟨k, ⟨h1, h2, h3, h4, h5, h6, h7, h8, h9, h10⟩, hk, hfit⟩
    · rintro ⟨k, ⟨h1, h2, h3, h4, h5, h6, h7, h8, h9, h10⟩, hk, hfit⟩
      exact ⟨h1, h2, h3, h4, h5, h6, h7, h8, h9, h10, k, hk, hfit⟩
  have hgo := fun k (hk : accordGood u e k) =>
    hexec.trans (congrArg _ (accordFrame_of_good (p := p) (stamp := stamp) (frame := f.bytes) hk))
  have hvalid : ∀ v, stampValid beat = v → (!stampValid (accBeat e)) = !v := fun v hv => congrArg _ hv
  have hearly : early ↔ (decide ((sqPar u).horizon < beatDist u.tb.beat (accBeat e))
      && decide (beatDist u.tb.beat (accBeat e) < 36700160)) = true := by
    rw [Bool.and_eq_true, decide_eq_true_eq, decide_eq_true_eq]
    exact Iff.rfl
  refine ⟨fun hg => ?_, fun hg hv => ?_, fun hg hv he => ?_, fun x hg hv hn hx => ?_⟩
  · exact hexec.trans (congrArg _ (accordFrame_of_not_good fun k hk => hg (hgood.2 ⟨k, hk⟩)))
  · obtain ⟨k, hk⟩ := hgood.1 hg
    exact (hgo k hk).trans (congrArg _ (if_pos (hvalid _ hv)))
  · obtain ⟨k, hk⟩ := hgood.1 hg
    rw [hgo k hk, hvalid _ hv, if_neg (by decide), if_pos (hearly.1 he)]
    rfl
  · obtain ⟨k, hk⟩ := hgood.1 hg
    obtain rfl : k = [x] := Option.some.inj (hk.2.1.symm.trans hx)
    have hfile : exec (.accordExchangeFrame f) s = .next (accordFile p stamp e f.bytes [x] u) := by
      rw [hgo _ hk, hvalid _ hv, if_neg (by decide), if_neg (fun he => hn (hearly.2 he))]
    intro lin late r
    have hlate : late ↔ (accordLate u e stamp = true ∨ (slot, dev, lin) ∈ u.fhp.late) := by
      rw [accordLate_iff]
      exact Iff.rfl
    refine ⟨fun hl => ?_, fun hl hd => ?_, fun hl hd => ?_⟩
    · rw [hfile, accordFile_singleton (fileAccord_of_late (hlate.1 hl))]
      exact congrArg _ (if_pos rfl)
    · rw [hfile, accordFile_singleton (fileAccord_of_duplicate (fun h => hl (hlate.2 h)) hd)]
      exact congrArg _ (if_pos rfl)
    · rw [hfile, accordFile_singleton (fileAccord_of_new (fun h => hl (hlate.2 h)) hd), storeRaw_fhp, if_neg (by simp)]
      rfl

end Sys2Proof.Machine
end

section
/-! What the frames of a pair do once they are taken in their sequence (R48, R363, R365 to R372, R375, R380). -/

namespace Sys2Proof.Machine
open Sys2Proof

/-! Reception -/

theorem twReceive_of_taken {any : Bool} {h : TwHdr} {s : State} (ht : TwTaken any h s) : twReceive any h s = (true, twNoted h s) := by
  obtain ⟨hup, hrun, hcrc, hseq, hpair⟩ := ht
  have hgap : s.twn.rxSeq.any (fun q => q + 1 != h.seq) = false := by
    cases hq : s.twn.rxSeq with
    | none => rfl
    | some q => simpa using hseq q hq
  have hmine : (any || !(s.twn.role != 0#8 || s.twn.pairing.isSome) || h.pairId == s.twn.pairId) = true := by
    rcases hpair with hany | ⟨hr, hp⟩ | hid
    · simp [hany]
    · simp [hr, hp]
    · simp [hid]
  unfold twReceive
  rw [if_neg (by simp [hup, hrun])]
  dsimp only
  rw [if_neg (by simp [hcrc]), hgap]
  exact Prod.ext hmine rfl

/-- A frame that is taken does what it does in the state that noted its place. -/
theorem onFrame_of_taken {any : Bool} {h : TwHdr} {g : State → State} {s : State} (ht : TwTaken any h s) :
    onFrame any h g s = g (twNoted h s) := by
  unfold onFrame
  rw [twReceive_of_taken ht]
  rfl

theorem next_of_taken {any : Bool} {h : TwHdr} {g : State → State} {s v : State} (ht : TwTaken any h s) (e : g (twNoted h s) = v) :
    (.next (onFrame any h g s) : Host.Outcome State Fault Refusal) = .next v :=
  congrArg Host.Outcome.next ((onFrame_of_taken ht).trans e)

theorem mirrors_twNoted {h : TwHdr} {s : State} (hm : s.nose.mode = .sillage) : mirrors (twNoted h s) = true := by
  show (s.nose.mode == .sillage) = true
  rw [hm]; rfl

/-! HELLO -/

theorem addTrip_hello (t : Int) (s : State) : (addTrip t s).twn.hello = s.twn.hello := by
  unfold addTrip
  dsimp only
  split
  · rfl
  · split <;> rfl

theorem hello_kept (h : TwHdr) (p : HelloP) (s : State) : (hello h p s).twn.hello = some (p, h.stamp) := by
  unfold hello
  dsimp only
  split
  · rw [addTrip_hello]
  · rfl

/-- A HELLO that echoes nothing ends no round trip. -/
theorem hello_of_no_echo {h : TwHdr} {p : HelloP} {s : State} (he : p.echoT1 = 0) :
    hello h p s = { s with twn := { s.twn with hello := some (p, h.stamp) } } := by
  unfold hello
  dsimp only
  rw [he]
  rfl

/-! Forwarded arrivals and closes -/

section
variable {s : State} (hm : mirrors s = true)
include hm

theorem forwarded_of_message {port ty : Nat} {stamp : BitVec 36} {bytes l : List Byte} (hp : port < 2)
    (hb : ecpriParse (ethParts bytes).body = some (ty, l)) (h5 : ty ≠ 5) :
    forwarded port stamp bytes s = messageArrive false port ty (unwrap36 stamp.toNat s) l bytes s := by
  simp only [forwarded, hm, Bool.not_true, Bool.false_eq_true, if_false, if_pos hp, hb, if_neg h5]

theorem forwarded_of_accord {port : Nat} {stamp : BitVec 36} {bytes : List Byte} (hp : 2 ≤ port) :
    forwarded port stamp bytes s = accordFrame false port (unwrap36 stamp.toNat s) (ethParts bytes) bytes s := by
  simp only [forwarded, hm, Bool.not_true, Bool.false_eq_true, if_false, if_neg (Nat.not_lt.2 hp)]

theorem closeArrives_window {i : BitVec 8} {b : Stamp} (hv : stampValid b = true) (hi : i.toNat < 4) :
    closeArrives 1 i b s = closeInSillage i.toNat (linNear s b) s := by
  simp [closeArrives, hm, hv, hi]

theorem closeArrives_accord {i : BitVec 8} {b : Stamp} (hv : stampValid b = true) :
    closeArrives 2 i b s = accordClose i.toNat (linNear s b) s := by
  simp [closeArrives, hm, hv]

end

theorem closeArrives_badStamp {k i : BitVec 8} {b : Stamp} {s : State} (hv : stampValid b = false) : closeArrives k i b s = s :=
  if_pos (by simp [hv])

theorem closeInSillage_of_closed {c lin : Nat} {s : State} (h : s.sq.closed.contains (4 * lin + c) = true) :
    closeInSillage c lin s = s := if_pos h

/-- A window in service closes, and its shadow leaves with it. -/
theorem closeInSillage_in_service {c lin : Nat} {s : State} (h : s.sq.closed.contains (4 * lin + c) = false)
    (hl : s.frm.startBeat + (carrierOf s c).admitBeats < lin) :
    closeInSillage c lin s = { closeWindow c lin s with sq := { (closeWindow c lin s).sq with
      shadow := (closeWindow c lin s).sq.shadow.filter (fun w => !(w.c == c && w.beat == stampOfLin lin)) } } := by
  unfold closeInSillage
  rw [if_neg (by rw [h]; decide)]
  dsimp only
  rw [if_neg (by omega)]

/-! Verdicts -/

/-- The state with a record in the verdict log: older records leave the ring (R47). -/
def verdictLogged (v : Verdict) (s : State) : State :=
  { s with frm := { s.frm with
    vlog := s.frm.vlog.filter (fun p => decide (s.tb.lin < p.1 + 64)) ++ [(s.tb.lin, v)], vcount := s.frm.vcount + 1 } }

theorem logVerdict_of_room {v : Verdict} {s : State} (h : s.frm.vcount < 8192) : logVerdict v s = verdictLogged v s :=
  if_pos h

/-- A sillage that is preparing logs the lead's verdict and applies it. -/
theorem verdicts_of_preparing {beat : Stamp} {v : Verdict} {s : State} (hm : mirrors s = true) (hf : s.twn.fitness = .preparing)
    (hr : s.frm.vcount < 8192) (hb : beat ∉ s.twn.selfRuled) :
    verdicts beat [v] s = applyVerdict true v { verdictLogged v { s with frm := { s.frm with verdictSeq := v.seq + 1 } } with
      twn := { s.twn with leadV := s.twn.leadV ++ [v] } } := by
  have hlate : s.twn.selfRuled.contains beat = false := by simpa using hb
  have hj : judged (verdictLogged v { s with frm := { s.frm with verdictSeq := v.seq + 1 } }) = false := by
    show (s.twn.fitness == .fit || s.twn.fitness == .ripening) = false
    rw [hf]; rfl
  unfold verdicts
  rw [if_neg (by simp [hm])]
  dsimp only [List.foldl]
  unfold leadVerdict
  rw [logVerdict_of_room (by exact hr), hlate]
  dsimp only
  rw [hj]
  rfl

/-! The SEAL -/

theorem sealArrives_of_mirrors {rec : Digest} {dr : BitVec 64} {rip : Bool} {s : State} (hm : mirrors s = true) :
    sealArrives rec dr rip s =
      if rec.beat = s.tb.beat then (if s.twn.sealed_ then s else sealOpen rec dr rip s)
      else if s.twn.selfRuled.contains rec.beat then sealLate rec dr rip s else goUnfit 5 s :=
  if_neg (by simp [hm])

/-! COMMAND and ACK -/

/-- The sillage keeps a command of its lead that it may run, and acknowledges it. -/
theorem commandArrives_allowed {seq : BitVec 32} {a : Act} {b : Stamp} {s : State} (hm : mirrors s = true) (hc : checkAct a s = stOk) :
    commandArrives seq a false b s =
      sendTw 0 (.ack 1 0 seq) { s with twn := { s.twn with waiting := s.twn.waiting ++ [(seq, 0, a)] } } := by
  unfold commandArrives
  rw [if_neg (by simp [hm]), if_neg (by decide), hc]
  rfl

/-- A command of the lead that the sillage may not run is not kept; the ACK says why. -/
theorem commandArrives_refused {seq : BitVec 32} {a : Act} {b : Stamp} {s : State} (hm : mirrors s = true) (hc : checkAct a s ≠ stOk) :
    commandArrives seq a false b s = sendTw 0 (.ack 1 (BitVec.ofNat 16 (checkAct a s)) seq) s := by
  unfold commandArrives
  rw [if_neg (by simp [hm]), if_neg (by decide)]
  dsimp only
  rw [if_neg hc]

theorem commandArrives_go_unknown {seq : BitVec 32} {a : Act} {b : Stamp} {s : State} (hm : mirrors s = true)
    (hw : s.twn.waiting.find? (fun w => w.1 == seq) = none) : commandArrives seq a true b s = s := by
  unfold commandArrives
  rw [if_neg (by simp [hm]), if_pos rfl, hw]

theorem commandArrives_go {seq : BitVec 32} {a : Act} {b : Stamp} {s : State} {w : BitVec 32 × BitVec 16 × Act} (hm : mirrors s = true)
    (hw : s.twn.waiting.find? (fun w => w.1 == seq) = some w) :
    commandArrives seq a true b s =
      goCommand w.2.2 b { s with twn := { s.twn with waiting := s.twn.waiting.filter (fun w => w.1 != seq) } } := by
  unfold commandArrives
  rw [if_neg (by simp [hm]), if_pos rfl, hw]

/-! The lead's answer to an ACK -/

theorem ackArrives_of_no_job {st : BitVec 16} {n : BitVec 32} {s : State} (hm : s.nose.mode = .lead)
    (hj : waitingJob n s = none) : ackArrives 1 st n s = s := by
  unfold ackArrives
  rw [if_neg (by simp [hm]), if_pos (show (1 : BitVec 8) = 1#8 from rfl), hj]

section
variable {st : BitVec 16} {n : BitVec 32} {s : State} {j : Job} {a : Act} {w : When} {t : Int} {p : List Fld}
  (hm : s.nose.mode = .lead) (hj : waitingJob n s = some (j, a, w, t, p))
include hm hj

theorem ackArrives_in_time (h0 : st = 0) (hin : ackInTime a w t s = true) : ackArrives 1 st n s = leadProceeds j n a w p s := by
  unfold ackArrives
  rw [if_neg (by simp [hm]), if_pos (show (1 : BitVec 8) = 1#8 from rfl), hj]
  exact if_pos (by rw [hin, h0]; rfl)

theorem ackArrives_refused (hno : st ≠ 0 ∨ ackInTime a w t s = false) :
    ackArrives 1 st n s = endJob j stTwinRefused none [] s := by
  unfold ackArrives
  rw [if_neg (by simp [hm]), if_pos (show (1 : BitVec 8) = 1#8 from rfl), hj]
  exact if_neg (by rcases hno with h | h
                   · simp [show ¬ st = 0#16 from h]
                   · simp [h])

end

/-- The HANDOVER's ACK stands for the pending takeover. -/
theorem ackArrives_of_handover {s : State} {x : Stamp × BitVec 8} (hm : s.nose.mode = .lead) (hx : s.twn.handover = some x) :
    (ackArrives 2 0 s.twn.handoverSeq s).twn = { s.twn with handoverAck := true } := by
  unfold ackArrives
  rw [if_neg (by simp [hm]), if_neg (by decide), if_pos (by simp [hx]), if_pos (show (0 : BitVec 16) = 0#16 from rfl)]

theorem ackArrives_refused_handover {st : BitVec 16} {s : State} {x : Stamp × BitVec 8} (hm : s.nose.mode = .lead)
    (hx : s.twn.handover = some x) (hst : st ≠ 0) : ackArrives 2 st s.twn.handoverSeq s = abandonHandover s := by
  unfold ackArrives
  rw [if_neg (by simp [hm]), if_neg (by decide), if_pos (by simp [hx]), if_neg (show ¬ st = 0#16 from hst)]

/-! STATE and HANDOVER -/

theorem stateArrives_of_not_preparing {k : BitVec 8} {un : BitVec 4} {ad : BitVec 64} {d : List Byte} {s : State}
    (hf : s.twn.fitness ≠ .preparing) : stateArrives k un ad d s = s :=
  if_pos (by simp [hf])

theorem stateArrives_of_preparing {k : BitVec 8} {un : BitVec 4} {ad : BitVec 64} {d : List Byte} {s : State}
    (hm : mirrors s = true) (hf : s.twn.fitness = .preparing) :
    stateArrives k un ad d s =
      if k = 3#8 then { s with twn := { s.twn with streamDone := true } }
      else if k = 1#8 || k = 2#8 then applyState un.toNat ad.toNat d s
      else s :=
  if_neg (by simp [hm, hf])

/-- A sillage takes the boundary of a HANDOVER that is still to come, and acknowledges. -/
theorem handoverArrives_of_good {q : BitVec 32} {b : Stamp} {pl : BitVec 8} {s : State} (hm : mirrors s = true)
    (hv : stampValid b = true) (hs : stampSymbol b = 0) (h0 : beatDist s.tb.beat b ≠ 0) (hd : beatDist s.tb.beat b < 36700160) :
    handoverArrives q b pl s =
      sendTw 0 (.ack 2 0 q) { s with twn := { s.twn with handover := some (b, pl), handoverAck := true } } := by
  have hst : (if !stampValid b || stampSymbol b != 0 then stBadField
      else if beatDist s.tb.beat b = 0 || beatDist s.tb.beat b ≥ 36700160 then stTooLate else stOk) = stOk := by
    rw [if_neg (by simp [hv, hs]), if_neg (by simp only [Bool.or_eq_true, decide_eq_true_eq]; omega)]
  unfold handoverArrives
  rw [if_neg (by simp [hm])]
  dsimp only
  rw [hst]
  rfl

theorem handoverArrives_of_badStamp {q : BitVec 32} {b : Stamp} {pl : BitVec 8} {s : State} (hm : mirrors s = true)
    (h : stampValid b = false ∨ stampSymbol b ≠ 0) :
    handoverArrives q b pl s = sendTw 0 (.ack 2 (BitVec.ofNat 16 stBadField) q) s := by
  unfold handoverArrives
  rw [if_neg (by simp [hm])]
  dsimp only
  rw [if_pos (by rcases h with h | h <;> simp [h])]
  rfl

/-! HEARTBEAT and TIME -/

/-- The pair as a lead has it that follows its sillage's fitness `k`. -/
def following (k : BitVec 8) (f : Fitness) (s : State) : State :=
  { s with twn := { s.twn with peerFit := k, fitness := f, cause := 0 } }

section
variable {s : State} (hm : s.nose.mode = .lead)
include hm

theorem heartbeat_fit (c : BitVec 8) : heartbeat 0 c s = following 0 .fit s := if_neg (by simp [hm])
theorem heartbeat_preparing (c : BitVec 8) : heartbeat 1 c s = following 1 .preparing s := if_neg (by simp [hm])
theorem heartbeat_ripening (c : BitVec 8) : heartbeat 2 c s = following 2 .ripening s := if_neg (by simp [hm])

theorem heartbeat_unfit {c : BitVec 8} (hr : s.twn.rejoinAt = none) :
    heartbeat 3 c s = goUnfit c.toNat { s with twn := { s.twn with peerFit := 3 } } :=
  (if_neg (by simp [hm])).trans (if_neg (by simp [hr]))

end

theorem timeFrame_of_following {h : TwHdr} {x : BitVec 64} {s : State} (hf : followsLead s = true) :
    timeFrame h x s = { s with twn := { s.twn with thetas := s.twn.thetas
      ++ [mkRat (x + BitVec.ofNat 64 s.twn.dTw - twStamp h.stamp).toInt 16] } } :=
  if_neg (by simp [hf])

theorem timeFrame_of_not_following {h : TwHdr} {x : BitVec 64} {s : State} (hf : followsLead s = false) : timeFrame h x s = s :=
  if_pos (by simp [hf])

/-! The statement -/

/-- Settles O49: a taken frame does what its own function does in the state that noted its place, and each function has its
equations. -/
theorem twinFramesAct : Obligations.TwinFramesAct := by
  intro h s u
  refine ⟨fun p ht => ⟨_, next_of_taken ht rfl, hello_kept h p u, fun he => ?_⟩, fun ht hmode => ?_, fun ht hmode => ?_,
    fun ht x b => ⟨fun hf => ⟨_, next_of_taken ht (timeFrame_of_following hf), rfl⟩,
      fun hf => next_of_taken ht (timeFrame_of_not_following hf)⟩⟩
  · rw [hello_of_no_echo he]
    exact ⟨rfl, rfl⟩
  · have hm : mirrors u = true := mirrors_twNoted hmode
    have hup : s.twn.up = true := ht.1
    refine ⟨fun port mg st by_ ty l hp hb h5 => next_of_taken ht (forwarded_of_message hm hp hb h5),
      fun port mg st by_ hp => next_of_taken ht (forwarded_of_accord hm hp),
      fun i b hv hi => ⟨fun hc => ?_, fun hc hl => ?_⟩, fun i b hv => next_of_taken ht (closeArrives_accord hm hv),
      fun k i b hv => next_of_taken ht (closeArrives_badStamp hv),
      fun v hf hr hb => ⟨_, next_of_taken ht (verdicts_of_preparing hm hf hr hb), rfl, rfl, rfl⟩,
      fun rec dr nv rip => ⟨fun hb hs => ?_, fun hb hs => ?_, fun hb hs => ?_, fun hb hs => ?_⟩,
      fun n op a b => ⟨fun hc => ?_, fun hc => ?_, fun hw => next_of_taken ht (commandArrives_go_unknown hm hw),
        fun w hw => next_of_taken ht (commandArrives_go hm hw)⟩,
      fun k un cb ad d hf => next_of_taken ht (stateArrives_of_not_preparing hf),
      fun un cb ad d hf => ⟨?_, ?_, ?_⟩, fun b pl hv hs h0 hd => ?_, fun b pl hbad => ?_⟩
    · exact next_of_taken ht ((closeArrives_window hm hv hi).trans (closeInSillage_of_closed hc))
    · exact ⟨_, next_of_taken ht ((closeArrives_window hm hv hi).trans (closeInSillage_in_service hc hl)), rfl, rfl, rfl⟩
    · exact next_of_taken ht ((sealArrives_of_mirrors hm).trans ((if_pos hb).trans (if_pos hs)))
    · exact next_of_taken ht ((sealArrives_of_mirrors hm).trans ((if_pos hb).trans (if_neg (by simpa [u, twNoted] using hs))))
    · exact next_of_taken ht ((sealArrives_of_mirrors hm).trans ((if_neg hb).trans (if_pos (by simpa [u, twNoted] using hs))))
    · exact next_of_taken ht ((sealArrives_of_mirrors hm).trans ((if_neg hb).trans (if_neg (by simpa [u, twNoted] using hs))))
    · exact ⟨_, next_of_taken ht ((commandArrives_allowed hm hc).trans (sendTw_of_up hup)), rfl, rfl, rfl⟩
    · exact ⟨_, next_of_taken ht ((commandArrives_refused hm hc).trans (sendTw_of_up hup)), rfl, rfl⟩
    · exact next_of_taken ht (stateArrives_of_preparing hm hf)
    · exact next_of_taken ht (stateArrives_of_preparing hm hf)
    · exact next_of_taken ht (stateArrives_of_preparing hm hf)
    · exact ⟨_, next_of_taken ht ((handoverArrives_of_good hm hv hs h0 hd).trans (sendTw_of_up hup)), rfl, rfl, rfl⟩
    · exact ⟨_, next_of_taken ht ((handoverArrives_of_badStamp hm hbad).trans (sendTw_of_up hup)), rfl, rfl⟩
  · have hm : u.nose.mode = .lead := hmode
    refine ⟨fun c r lb => ⟨?_, ?_, ?_, fun hr => ?_⟩, fun st n hj => ?_, fun st n j a w t0 p hj => ⟨?_, ?_⟩, fun x hx => ⟨?_, ?_⟩⟩
    · exact ⟨_, next_of_taken ht (heartbeat_fit hm c), rfl, rfl, rfl⟩
    · exact ⟨_, next_of_taken ht (heartbeat_preparing hm c), rfl, rfl⟩
    · exact ⟨_, next_of_taken ht (heartbeat_ripening hm c), rfl, rfl⟩
    · exact next_of_taken ht (heartbeat_unfit hm hr)
    · exact next_of_taken ht (ackArrives_of_no_job (s := u) hm hj)
    · exact fun h0 hin => next_of_taken ht (ackArrives_in_time (s := u) hm hj h0 hin)
    · exact fun hno => next_of_taken ht (ackArrives_refused (s := u) hm hj hno)
    · have htwn := ackArrives_of_handover (s := u) hm hx
      exact ⟨_, next_of_taken ht rfl, congrArg TwnSt.handoverAck htwn, (congrArg TwnSt.handover htwn).trans hx⟩
    · intro st hst
      exact next_of_taken ht (ackArrives_refused_handover (s := u) hm hx hst)

end Sys2Proof.Machine
end

section
/-! A beat boundary in STANDBY: the close-out leaves the schedule and the time base, the next beat opens on the grid, and what
was scheduled for it takes effect (R25, R311, R325, R356, R399). -/

namespace Sys2Proof.Machine
open Sys2Proof

/-! What a quiet operation leaves, field by field -/

section
variable {s t : State} (h : QuietS s t)
include h

theorem QuietS.mode : t.nose.mode = s.nose.mode := congrArg (·.1) h.same
theorem QuietS.sched : t.nose.sched = s.nose.sched := congrArg (·.2.1) h.same
theorem QuietS.executing : t.frm.executing = s.frm.executing := congrArg (·.2.2.1) h.same
theorem QuietS.ruptureS : t.frm.ruptureS = s.frm.ruptureS := congrArg (·.2.2.2.1) h.same
theorem QuietS.stepWait : t.frm.stepWait = s.frm.stepWait := congrArg (·.2.2.2.2.1) h.same
theorem QuietS.loopRun : t.frm.loopRun = s.frm.loopRun := congrArg (·.2.2.2.2.2.1) h.same
theorem QuietS.running : t.frm.running = s.frm.running := congrArg (·.2.2.2.2.2.2.1) h.same
theorem QuietS.stage : t.frm.stage = s.frm.stage := congrArg (·.2.2.2.2.2.2.2.1) h.same
theorem QuietS.lin : t.tb.lin = s.tb.lin := congrArg (·.2.2.2.2.2.2.2.2.2.2.1) h.same
theorem QuietS.beat : t.tb.beat = s.tb.beat := congrArg (·.2.2.2.2.2.2.2.2.2.2.2.1) h.same
theorem QuietS.openT : t.tb.openT = s.tb.openT := congrArg (·.2.2.2.2.2.2.2.2.2.2.2.2.1) h.same
theorem QuietS.nextT : t.tb.nextT = s.tb.nextT := congrArg (·.2.2.2.2.2.2.2.2.2.2.2.2.2.1) h.same
theorem QuietS.par : t.tb.par = s.tb.par := congrArg (·.2.2.2.2.2.2.2.2.2.2.2.2.2.2.1) h.same
theorem QuietS.slots : t.twn.slots = s.twn.slots := congrArg (·.2.2.2.2.2.2.2.2.2.2.2.2.2.2.2.1) h.same
theorem QuietS.pins : t.pins = s.pins := congrArg (·.2.2.2.2.2.2.2.2.2.2.2.2.2.2.2.2) h.same

end

/-! The close-out -/

/-- The state with the open beat's close-out at stage `k`. -/
def atStage (k : Nat) (s : State) : State := { s with frm := { s.frm with stage := k } }

theorem QuietS.atStage {s t : State} (h : QuietS s t) (k : Nat) : QuietS (atStage k s) (atStage k t) := by
  have he := h.same
  simp only [Prod.mk.injEq] at he
  refine ⟨?_⟩
  simp only [Machine.atStage, Prod.mk.injEq]
  simp only [he, and_self]

/-- Of the parts that `QuietS` names, the stage of the close-out alone may have changed. -/
def Closing (s t : State) : Prop := ∃ k, QuietS (atStage k s) t

theorem QuietS.closing {s t : State} (h : QuietS s t) : Closing s t := ⟨s.frm.stage, h⟩

theorem Closing.trans {s t u : State} (h : Closing s t) (k : Closing t u) : Closing s u := by
  obtain ⟨i, hi⟩ := h
  obtain ⟨j, hj⟩ := k
  exact ⟨j, (hi.atStage j).trans hj⟩

theorem Closing.mode {s t : State} (h : Closing s t) : t.nose.mode = s.nose.mode := h.elim fun _ hk => hk.mode

/-- Without a program that runs, none is stopped. -/
theorem stopAll_of_none {s : State} (h : s.frm.running = []) : stopAll s = s := by rw [stopAll, h]; rfl

theorem publish_closing (dev : List (Fin 15 × Fin 96 × UState)) {s : State} (h : s.frm.running = []) : Closing s (publish dev s) := by
  unfold publish
  split
  · exact (QuietS.refl s).closing
  · rw [stopAll_of_none h]
    refine ⟨1, updateSummary_quietS (QuietS.atStage (closeVerdictsOfBeat_quietS ?_) 1)⟩
    exact foldl_quietS (fun _ _ hk => comparePublished_quietS _ _ _ hk) (writeWords_quietS _ (advanceTo_quietS _ (QuietS.refl s)))

theorem digestRecord_closing {s : State} (h : s.frm.running = []) : Closing s (digestRecord s) := by
  have hp := publish_closing [] h
  unfold digestRecord
  dsimp only
  generalize publish [] s = v at hp
  split
  · exact hp
  · have hdue : Closing v (digestDue v) := ⟨2, (advanceTo_quietS 66048 (QuietS.refl v)).atStage 2⟩
    split
    · exact hp.trans hdue
    · exact (hp.trans hdue).trans (QuietS.closing ⟨rfl⟩)

theorem idleGuard_closing {s : State} (h : s.frm.running = []) (hm : s.nose.mode ≠ .lead) : Closing s (idleGuard s) := by
  have hd := digestRecord_closing h
  unfold idleGuard
  dsimp only
  split
  · exact hd
  · have hq : QuietS (atStage 3 (digestRecord s)) (advanceTo 66560 (atStage 3 (digestRecord s))) := advanceTo_quietS _ (QuietS.refl _)
    refine hd.trans ⟨3, resizeGuard_quietS ?_⟩
    rw [show { digestRecord s with frm := { (digestRecord s).frm with stage := 3 } } = atStage 3 (digestRecord s) from rfl,
      sealBeat_of_not_lead (by rw [hq.mode]; exact hd.mode ▸ hm)]
    exact hq

theorem closeOut_closing {s : State} (h : s.frm.running = []) (hm : s.nose.mode ≠ .lead) : Closing s (closeOut s).2 := by
  have hg := idleGuard_closing h hm
  unfold closeOut
  dsimp only
  split
  · exact hg
  · exact hg.trans (QuietS.closing (raiseEv_quietS _ _ _ (count_quietS _ _ (advanceTo_quietS _ (QuietS.refl _)))))

/-! What is due at the boundary -/

/-- A change of the accord slots for a stamp, or time parameters for the next slot boundary. -/
def SlotsOrTime (e : Sched) : Prop := (∃ b k a m, e = ⟨.at b, .accordJoin k a m⟩) ∨ (∃ p, e = ⟨.nextSlot, .timeConfig p⟩)

/-- The state with the time parameters, the next boundary and the accord slots replaced. -/
def retimed (n : Int) (p : BitVec 512) (sl : FMap (BitVec 16 × List (BitVec 128))) (s : State) : State :=
  { s with tb := { s.tb with nextT := n, par := p }, twn := { s.twn with slots := sl } }

theorem QuietS.retimed {s t : State} (h : QuietS s t) (n : Int) (p : BitVec 512) (sl : FMap (BitVec 16 × List (BitVec 128))) :
    QuietS (retimed n p sl s) (retimed n p sl t) := by
  have he := h.same
  simp only [Prod.mk.injEq] at he
  refine ⟨?_⟩
  simp only [Machine.retimed, Prod.mk.injEq]
  simp only [he, and_self]

/-- New time parameters replace the old; where they move the frame they move the next boundary with it. -/
theorem applyAct_timeConfig (p : BitVec 512) (s : State) :
    ∃ n, applyAct (.timeConfig p) s = retimed n p s.twn.slots s := by
  show ∃ n, applyTimeConfig p s = _
  unfold applyTimeConfig
  dsimp only
  split
  · exact ⟨s.tb.nextT, rfl⟩
  · exact ⟨_, rfl⟩

theorem applyAct_slotsOrTime {e : Sched} (he : SlotsOrTime e) (s : State) : ∃ n p sl, applyAct e.act s = retimed n p sl s := by
  rcases he with ⟨b, k, a, m, rfl⟩ | ⟨p, rfl⟩
  · exact ⟨s.tb.nextT, s.tb.par, _, rfl⟩
  · obtain ⟨n, hn⟩ := applyAct_timeConfig p s
    exact ⟨n, p, _, hn⟩

theorem foldl_applyAct_slotsOrTime {l : List Sched} (hl : ∀ e ∈ l, SlotsOrTime e) (s : State) :
    ∃ n p sl, l.foldl (fun s e => applyAct e.act s) s = retimed n p sl s := by
  induction l generalizing s with
  | nil => exact ⟨s.tb.nextT, s.tb.par, s.twn.slots, rfl⟩
  | cons e l ih =>
    obtain ⟨n, p, sl, he⟩ := applyAct_slotsOrTime (hl e (by simp)) s
    obtain ⟨n', p', sl', hr⟩ := ih (fun e h => hl e (by simp [h])) (retimed n p sl s)
    exact ⟨n', p', sl', by rw [List.foldl_cons, he, hr]; rfl⟩

section
variable {e : Sched} (he : SlotsOrTime e)
include he

theorem SlotsOrTime.not_modeAct : isModeAct e.act = false := by rcases he with ⟨b, k, a, m, rfl⟩ | ⟨p, rfl⟩ <;> rfl
theorem SlotsOrTime.not_activate : isActivate e.act = false := by rcases he with ⟨b, k, a, m, rfl⟩ | ⟨p, rfl⟩ <;> rfl
theorem SlotsOrTime.not_step : isStep e.act = false := by rcases he with ⟨b, k, a, m, rfl⟩ | ⟨p, rfl⟩ <;> rfl
theorem SlotsOrTime.not_awaiting (led : Bool) : awaitsRejoin led e.act = false := by
  rcases he with ⟨b, k, a, m, rfl⟩ | ⟨p, rfl⟩ <;> rfl

end

theorem stepDue_of_slotsOrTime {s : State} (h : ∀ e ∈ s.nose.sched, SlotsOrTime e) : stepDue s = none := by
  refine List.findSome?_eq_none_iff.2 fun e he => ?_
  rcases h e he with ⟨b, k, a, m, rfl⟩ | ⟨p, rfl⟩ <;> rfl

/-- In STANDBY a pending takeover is at most forgotten. -/
theorem takeoverAt_of_standby {s : State} (hm : s.nose.mode = .standby) : QuietS s (takeoverAt s) := by
  unfold takeoverAt
  rw [hm]
  split
  · exact QuietS.refl s
  · exact quietS_ite (QuietS.refl s) ⟨rfl⟩

/-- What is not due at the open beat's boundary stays scheduled. -/
def keepLater (s : State) : State :=
  { s with nose := { s.nose with sched := s.nose.sched.filter (fun e => !dueNow s.tb.lin s.tb.beat e) } }

/-- Of accord changes and time parameters, those that are due are applied, in their order. -/
theorem applyDue_of_slotsOrTime (led : Bool) {s : State} (h : ∀ e ∈ s.nose.sched, SlotsOrTime e) :
    applyDue led s = (s.nose.sched.filter (dueNow s.tb.lin s.tb.beat)).foldl (fun s e => applyAct e.act s) (takeoverAt (keepLater s)) := by
  have hdue : s.nose.sched.filter (fun e => dueNow s.tb.lin s.tb.beat e && !awaitsRejoin led e.act)
      = s.nose.sched.filter (dueNow s.tb.lin s.tb.beat) :=
    List.filter_congr fun e he => by simp [(h e he).not_awaiting]
  have hlater : s.nose.sched.filter (fun e => !(dueNow s.tb.lin s.tb.beat e && !awaitsRejoin led e.act))
      = s.nose.sched.filter (fun e => !dueNow s.tb.lin s.tb.beat e) :=
    List.filter_congr fun e he => by simp [(h e he).not_awaiting]
  unfold applyDue
  dsimp only
  rw [stepDue_of_slotsOrTime h, hdue, hlater]
  generalize hl : s.nose.sched.filter (dueNow s.tb.lin s.tb.beat) = l
  have hall : ∀ e ∈ l, SlotsOrTime e := fun e he => h e (List.mem_of_mem_filter (hl ▸ he))
  have hmode : l.filter (fun e => isModeAct e.act) = [] := List.filter_eq_nil_iff.2 fun e he => by simp [(hall e he).not_modeAct]
  have hact : l.any (fun e => isActivate e.act) = false := by simpa using fun e he => (hall e he).not_activate
  have hrest : l.filter (fun e => !isModeAct e.act && !isActivate e.act && !isStep e.act) = l :=
    List.filter_eq_self.2 fun e he => by simp [(hall e he).not_modeAct, (hall e he).not_activate, (hall e he).not_step]
  rw [hmode, hact, hrest]
  rfl

/-! The units at the boundary -/

theorem working_of_not_executing {s : State} (h : s.frm.executing = false) : working s = false := by simp [working, h]

theorem endWork_of_not_executing {s : State} (h : s.frm.executing = false) : endWork s = s :=
  if_neg (by simp [working_of_not_executing h])

theorem beginWork_of_not_executing {s : State} (h : s.frm.executing = false) : beginWork s = s :=
  if_pos (by simp [working_of_not_executing h])

theorem idleUnits_of_not_executing {s : State} (h : s.frm.executing = false) : idleUnits s = s :=
  if_pos (by simp [working_of_not_executing h])

theorem prepareStart_of_none {s : State} (hl : s.frm.loopRun = none) (hs : ∀ e ∈ s.nose.sched, SlotsOrTime e) : prepareStart s = s := by
  refine if_neg ?_
  have hany : s.nose.sched.any (fun e => e.when == .at (stampOfLin (s.tb.lin + 1)) && isModeAct e.act) = false := by
    simpa using fun e he _ => (hs e he).not_modeAct
  simp [startsNext, hl, hany]

theorem loopRunStart_of_none {s : State} (hl : s.frm.loopRun = none) : loopRunStart s = s :=
  if_neg (by simp [hl])

theorem ruptureStages_of_none {s : State} (hr : s.frm.ruptureS = none) : ruptureStages s = s := by simp only [ruptureStages, hr]

theorem unitsAtBoundary_quietS {s : State} (he : s.frm.executing = false) (hr : s.frm.ruptureS = none) (hl : s.frm.loopRun = none)
    (hs : ∀ e ∈ s.nose.sched, SlotsOrTime e) : QuietS s (unitsAtBoundary s) := by
  have hf : QuietS s (frontEnds s) := frontEnds_quietS (QuietS.refl s)
  have hu := applySounding_quietS (frontEnds s).tb.beat (fencesAtBoundary_quietS hf)
  unfold unitsAtBoundary
  dsimp only
  rw [ruptureStages_of_none hr, prepareStart_of_none (hf.loopRun.trans hl) (hf.sched ▸ hs), loopRunStart_of_none (hf.loopRun.trans hl),
    beginWork_of_not_executing (hu.executing.trans he), idleUnits_of_not_executing (hu.executing.trans he)]
  exact hu

/-! The pins and the frames of the beat -/

/-- The state with `twin_alive[0]` low. -/
def aliveLow (s : State) : State := { s with pins := { s.pins with twinAlive0 := false } }

theorem toggleAlive_of_not_pair {s : State} (h : inPair s = false) : toggleAlive s = aliveLow s := by
  unfold toggleAlive
  rw [h]
  rfl

theorem QuietS.aliveLow {s t : State} (h : QuietS s t) : QuietS (aliveLow s) (aliveLow t) := by
  have he := h.same
  simp only [Prod.mk.injEq] at he
  refine ⟨?_⟩
  simp only [Machine.aliveLow, Prod.mk.injEq]
  simp only [he, and_self]

theorem beatOut_quietS (s : State) : QuietS s (beatOut s) := by
  unfold beatOut
  exact quietS_ite ⟨rfl⟩ (QuietS.refl s)

/-- In STANDBY, with TB_BEAT_OUT selecting every beat, `beat_out` rises as the beat opens (R325). -/
theorem beatOut_rises {s : State} (hm : s.nose.mode = .standby) (hp : timePar s 160 159 = 0) :
    .pulse .beatOut true s.tb.openT ∈ (beatOut s).outs := by
  unfold beatOut
  rw [if_pos (by simp [timePinsOn, hm, hp])]
  exact List.mem_cons_self

theorem beatFrames_quietS (t40 : Int) (s : State) : QuietS s (beatFrames t40 s) := by
  unfold beatFrames
  extract_lets leads u
  have hu : QuietS s u := quietS_ite (sendTw_quietS _ _ (QuietS.refl s)) (QuietS.refl s)
  exact quietS_ite (sendTw_quietS _ _ hu) hu

/-- A frame on TW is put out beside what was put out before. -/
theorem mem_outs_sendTw {o : Out} (flags : Nat) (body : TwBody) {s : State} (h : o ∈ s.outs) : o ∈ (sendTw flags body s).outs := by
  unfold sendTw
  split
  · exact List.mem_cons_of_mem _ h
  · exact h

theorem mem_outs_beatFrames {o : Out} (t40 : Int) {s : State} (h : o ∈ s.outs) : o ∈ (beatFrames t40 s).outs := by
  unfold beatFrames
  extract_lets leads u
  have hu : o ∈ u.outs := by
    unfold u
    split
    · exact mem_outs_sendTw _ _ h
    · exact h
  split
  · exact mem_outs_sendTw _ _ hu
  · exact hu

/-! The boundary -/

/-- STANDBY with no work under way, and nothing scheduled but accord changes and time parameters. -/
structure Resting (s : State) : Prop where
  mode : s.nose.mode = .standby
  executing : s.frm.executing = false
  ruptureS : s.frm.ruptureS = none
  stepWait : s.frm.stepWait = false
  loopRun : s.frm.loopRun = none
  running : s.frm.running = []
  sched : ∀ e ∈ s.nose.sched, SlotsOrTime e

theorem Resting.of_quietS {s t : State} (h : Resting s) (q : QuietS s t) : Resting t :=
  ⟨q.mode.trans h.mode, q.executing.trans h.executing, q.ruptureS.trans h.ruptureS, q.stepWait.trans h.stepWait,
    q.loopRun.trans h.loopRun, q.running.trans h.running, q.sched ▸ h.sched⟩

theorem Resting.of_closing {s t : State} (h : Resting s) (c : Closing s t) : Resting t := by
  obtain ⟨k, q⟩ := c
  exact Resting.of_quietS (s := atStage k s) ⟨h.mode, h.executing, h.ruptureS, h.stepWait, h.loopRun, h.running, h.sched⟩ q

theorem Resting.keepLater {s : State} (h : Resting s) : Resting (keepLater s) :=
  ⟨h.mode, h.executing, h.ruptureS, h.stepWait, h.loopRun, h.running, fun e he => h.sched e (List.mem_of_mem_filter he)⟩

theorem Resting.retimed {s : State} (h : Resting s) (n : Int) (p : BitVec 512) (sl : FMap (BitVec 16 × List (BitVec 128))) :
    Resting (retimed n p sl s) :=
  ⟨h.mode, h.executing, h.ruptureS, h.stepWait, h.loopRun, h.running, h.sched⟩

theorem selfRule_of_not_mirrors {s : State} (h : mirrors s = false) : selfRule s = s := if_pos (by simp [h])

/-- All that precedes the new beat: the cycles to the boundary, the close-out, and the end of a slot. -/
def beatClosed (s : State) : State :=
  let u := endWork (selfRule (closeOut (advanceToTime s.tb.nextT s)).2)
  if isSlotBeat (linAtTime u.tb.nextT u) then sicSlotEnd u else u

theorem beatClosed_closing {s : State} (h : Resting s) : Closing s (beatClosed s) := by
  have ha : QuietS s (advanceToTime s.tb.nextT s) := advanceToTime_quietS _ (QuietS.refl s)
  have hra := h.of_quietS ha
  have hc : Closing s (closeOut (advanceToTime s.tb.nextT s)).2 :=
    ha.closing.trans (closeOut_closing hra.running (by rw [hra.mode]; decide))
  have hrc := h.of_closing hc
  unfold beatClosed
  rw [selfRule_of_not_mirrors (by simp [mirrors, hrc.mode]), endWork_of_not_executing hrc.executing]
  dsimp only
  split
  · exact hc.trans (sicSlotEnd_quietS (QuietS.refl _)).closing
  · exact hc

/-- The grid depends on the time parameters alone. -/
theorem timePar_congr {s t : State} (h : t.tb.par = s.tb.par) (hi lo : Nat) : timePar t hi lo = timePar s hi lo := by
  rw [timePar, timePar, h]

theorem linAtTime_congr {s t : State} (h : t.tb.par = s.tb.par) (x : Int) : linAtTime x t = linAtTime x s := by
  rw [linAtTime, linAtTime, frameOffset, frameOffset, timePar_congr h]

theorem boundaryT_congr {s t : State} (h : t.tb.par = s.tb.par) (lin : Nat) : boundaryT t lin = boundaryT s lin := by
  rw [boundaryT, boundaryT, frameOffset, frameOffset, timePar_congr h]

/-- The next beat open, the peer's pins sampled. -/
def beatOpened (peerLead peerAlive : Bool) (s : State) : State :=
  samplePins peerLead peerAlive (openBeat (closeOut (advanceToTime s.tb.nextT s)).1 (beatClosed s))

/-- What the open beat is, by the state before its boundary. -/
structure Opened (peerLead peerAlive : Bool) (s w : State) : Prop where
  resting : Resting w
  sched : w.nose.sched = s.nose.sched
  lin : w.tb.lin = linAtTime s.tb.nextT s
  beat : w.tb.beat = stampOfLin (linAtTime s.tb.nextT s)
  openT : w.tb.openT = s.tb.nextT
  nextT : w.tb.nextT = boundaryT s (linAtTime s.tb.nextT s + 1)
  par : w.tb.par = s.tb.par
  slots : w.twn.slots = s.twn.slots
  stage : w.frm.stage = 0
  lead1 : w.pins.twinLead1 = peerLead
  alive1 : w.pins.twinAlive1 = peerAlive
  edge : peerAlive = s.pins.twinAlive1 → w.pins.aliveEdge = s.pins.aliveEdge

theorem opened_of_closing (peerLead peerAlive : Bool) (c : Nat) {s u : State} (h : Resting s) (hc : Closing s u) :
    Opened peerLead peerAlive s (samplePins peerLead peerAlive (openBeat c u)) := by
  have hr := h.of_closing hc
  obtain ⟨k, q⟩ := hc
  have hpar : u.tb.par = s.tb.par := q.par
  have hlin : linAtTime u.tb.nextT u = linAtTime s.tb.nextT s :=
    (linAtTime_congr hpar _).trans (congrArg (linAtTime · s) q.nextT)
  refine ⟨⟨hr.mode, hr.executing, hr.ruptureS, hr.stepWait, hr.loopRun, rfl, hr.sched⟩, q.sched, hlin, congrArg stampOfLin hlin,
    q.nextT, ?_, hpar, q.slots, rfl, rfl, rfl, fun ha => ?_⟩
  · show boundaryT u (linAtTime u.tb.nextT u + 1) = _
    rw [hlin, boundaryT_congr hpar]
  · have hp : u.pins = s.pins := q.pins
    show (if (peerAlive == u.pins.twinAlive1) = true then u.pins.aliveEdge else _) = _
    rw [hp, if_pos (by simp [ha])]

theorem beatOpened_opened (peerLead peerAlive : Bool) {s : State} (h : Resting s) :
    Opened peerLead peerAlive s (beatOpened peerLead peerAlive s) :=
  opened_of_closing peerLead peerAlive _ h (beatClosed_closing h)

/-- What follows the changes that were due leaves all but `twin_alive[0]`, and puts out `beat_out`. -/
theorem boundary_rest {v : State} (h : Resting v) (t40 : Int) :
    let t := updateSummary (beatFrames t40 (beatOut (prune (toggleAlive (unitsAtBoundary (ripen (detectSplit v)))))))
    QuietS (aliveLow v) t ∧ (timePar v 160 159 = 0 → .pulse .beatOut true v.tb.openT ∈ t.outs) := by
  have hd : detectSplit v = v := if_neg (by simp [h.mode])
  have hq : QuietS v (ripen v) := ripen_quietS (QuietS.refl v)
  have hrp := h.of_quietS hq
  have hu : QuietS v (unitsAtBoundary (ripen v)) :=
    hq.trans (unitsAtBoundary_quietS hrp.executing hrp.ruptureS hrp.loopRun hrp.sched)
  have hpair : inPair (unitsAtBoundary (ripen v)) = false := by simp [inPair, hu.mode, h.mode]
  have hp : QuietS (aliveLow v) (prune (aliveLow (unitsAtBoundary (ripen v)))) := prune_quietS hu.aliveLow
  dsimp only
  rw [hd, toggleAlive_of_not_pair hpair]
  generalize prune (aliveLow (unitsAtBoundary (ripen v))) = x at hp
  refine ⟨updateSummary_quietS (hp.trans ((beatOut_quietS _).trans (beatFrames_quietS _ _))), fun h0 => ?_⟩
  refine mem_outs_beatFrames t40 ?_
  have hrise := beatOut_rises (hp.mode.trans h.mode) ((timePar_congr (s := aliveLow v) hp.par 160 159).trans h0)
  rw [hp.openT] at hrise
  exact hrise

theorem beatBoundary_eq (peerLead peerAlive : Bool) {s : State} (hrun : beatsRun s = true) :
    beatBoundary peerLead peerAlive s = updateSummary (beatFrames (advanceToTime s.tb.nextT s).tb.t40
      (beatOut (prune (toggleAlive (unitsAtBoundary (ripen (detectSplit
        (applyDue (beatClosed s).pins.twinLead1 (endStepWait (beatOpened peerLead peerAlive s)))))))))) := by
  unfold beatBoundary
  rw [if_neg (by simp [hrun])]
  rfl

theorem endStepWait_of_none {s : State} (h : s.frm.stepWait = false) : endStepWait s = s := if_neg (by simp [h])

/-- A boundary in STANDBY: what is due is applied in the beat that opens, and the rest of the boundary leaves it so. -/
theorem beatBoundary_of_resting (peerLead peerAlive : Bool) {s : State} (hrun : beatsRun s = true) (h : Resting s) :
    let w := beatOpened peerLead peerAlive s
    let v := (s.nose.sched.filter (dueNow w.tb.lin w.tb.beat)).foldl (fun s e => applyAct e.act s) (takeoverAt (keepLater w))
    let t := beatBoundary peerLead peerAlive s
    QuietS (aliveLow v) t ∧ (timePar v 160 159 = 0 → .pulse .beatOut true v.tb.openT ∈ t.outs) := by
  have ho := beatOpened_opened peerLead peerAlive h
  intro w v t
  have hdue : ∀ led, applyDue led w = v := fun led => by
    rw [applyDue_of_slotsOrTime led ho.resting.sched]
    show (List.filter _ w.nose.sched).foldl _ _ = _
    rw [ho.sched]
  have hv : Resting v := by
    obtain ⟨n, p, sl, he⟩ := foldl_applyAct_slotsOrTime
      (l := s.nose.sched.filter (dueNow w.tb.lin w.tb.beat)) (fun e he => h.sched e (List.mem_of_mem_filter he)) (takeoverAt (keepLater w))
    have hk := ho.resting.keepLater
    show Resting (List.foldl _ _ _)
    rw [he]
    exact (hk.of_quietS (takeoverAt_of_standby hk.mode)).retimed n p sl
  have ht := beatBoundary_eq peerLead peerAlive hrun
  rw [endStepWait_of_none ho.resting.stepWait, hdue] at ht
  show QuietS (aliveLow v) (beatBoundary peerLead peerAlive s) ∧ (_ → _ ∈ (beatBoundary peerLead peerAlive s).outs)
  rw [ht]
  exact boundary_rest hv _

/-! What a boundary in STANDBY does, by what is due -/

theorem dueNow_at (lin : Nat) (b x : Stamp) (a : Act) : dueNow lin b ⟨.at x, a⟩ = (x == b) := rfl
theorem dueNow_nextSlot (lin : Nat) (b : Stamp) (a : Act) : dueNow lin b ⟨.nextSlot, a⟩ = isSlotBeat lin := rfl

/-- What is due at the boundary that ends the open beat. -/
def dueAtNext (s : State) : List Sched := s.nose.sched.filter (dueNow (linAtTime s.tb.nextT s) (stampOfLin (linAtTime s.tb.nextT s)))

section
variable {s : State} (peerLead peerAlive : Bool) (hrun : beatsRun s = true) (h : Resting s)
include hrun h

/-- Besides the time parameters, the next boundary and the slots, the boundary leaves what the opened beat holds. -/
theorem boundary_retimed : ∃ n p sl,
    QuietS (aliveLow (retimed n p sl (keepLater (beatOpened peerLead peerAlive s)))) (beatBoundary peerLead peerAlive s) := by
  have ho := beatOpened_opened peerLead peerAlive h
  have hb := (beatBoundary_of_resting peerLead peerAlive hrun h).1
  generalize beatOpened peerLead peerAlive s = w at *
  rw [ho.lin, ho.beat] at hb
  obtain ⟨n, p, sl, he⟩ := foldl_applyAct_slotsOrTime (l := dueAtNext s) (fun e he => h.sched e (List.mem_of_mem_filter he))
    (takeoverAt (keepLater w))
  have hk := takeoverAt_of_standby (s := keepLater w) ho.resting.mode
  exact ⟨n, p, sl, ((hk.retimed n p sl).aliveLow).trans (he ▸ hb)⟩

theorem boundary_of_nothing_due (hd : dueAtNext s = []) :
    let t := beatBoundary peerLead peerAlive s
    t.tb.nextT = boundaryT s (linAtTime s.tb.nextT s + 1) ∧ t.tb.par = s.tb.par ∧ t.twn.slots = s.twn.slots
    ∧ (timePar s 160 159 = 0 → .pulse .beatOut true s.tb.nextT ∈ t.outs) := by
  have ho := beatOpened_opened peerLead peerAlive h
  have hb := beatBoundary_of_resting peerLead peerAlive hrun h
  generalize beatOpened peerLead peerAlive s = w at *
  have hk := takeoverAt_of_standby (s := keepLater w) ho.resting.mode
  dsimp only at hb ⊢
  rw [ho.lin, ho.beat, show List.filter _ _ = [] from hd, List.foldl_nil] at hb
  generalize takeoverAt (keepLater w) = v at hb hk
  obtain ⟨q, hpulse⟩ := hb
  have hpar : v.tb.par = s.tb.par := hk.par.trans ho.par
  refine ⟨q.nextT.trans (hk.nextT.trans ho.nextT), q.par.trans hpar, q.slots.trans (hk.slots.trans ho.slots), fun h0 => ?_⟩
  have hout := hpulse ((timePar_congr hpar 160 159).trans h0)
  rwa [hk.openT.trans ho.openT] at hout

/-- One change is due: it applies to the slots and the parameters as they were. -/
theorem boundary_of_one_due {e : Sched} (hd : dueAtNext s = [e]) : ∃ v : State, v.twn.slots = s.twn.slots ∧ v.tb.par = s.tb.par
    ∧ QuietS (aliveLow (applyAct e.act v)) (beatBoundary peerLead peerAlive s) := by
  have ho := beatOpened_opened peerLead peerAlive h
  have hb := (beatBoundary_of_resting peerLead peerAlive hrun h).1
  generalize beatOpened peerLead peerAlive s = w at *
  have hk := takeoverAt_of_standby (s := keepLater w) ho.resting.mode
  rw [ho.lin, ho.beat, show List.filter _ _ = [e] from hd] at hb
  exact ⟨_, hk.slots.trans ho.slots, hk.par.trans ho.par, hb⟩

end

/-! The statement -/

/-- Settles O55: the boundary opens the beat of the grid, applies what was due, and leaves all else that the schedule, the time
base and the pins hold. -/
theorem boundariesOpenBeats : Obligations.BoundariesOpenBeats := by
  intro peerLead peerAlive s
  refine ⟨fun h => congrArg Host.Outcome.next (if_pos (by simp [h])), fun hrun hmode hexec hrupt hstep hloop hnone hsched => ?_⟩
  have hs : Resting s := ⟨hmode, hexec, hrupt, hstep, hloop, hnone, hsched⟩
  have ho := beatOpened_opened peerLead peerAlive hs
  obtain ⟨n, p, sl, q⟩ := boundary_retimed peerLead peerAlive hrun hs
  generalize beatOpened peerLead peerAlive s = w at *
  have hlater : (keepLater w).nose.sched
      = s.nose.sched.filter (fun e => !dueNow (linAtTime s.tb.nextT s) (stampOfLin (linAtTime s.tb.nextT s)) e) := by
    rw [← ho.beat, ← ho.lin, ← ho.sched]
    rfl
  refine ⟨_, rfl, q.lin.trans ho.lin, q.beat.trans ho.beat, q.openT.trans ho.openT, q.mode.trans ho.resting.mode,
    q.executing.trans ho.resting.executing, q.stage.trans ho.stage, q.running.trans ho.resting.running,
    (congrArg (·.twinLead1) q.pins).trans ho.lead1, (congrArg (·.twinAlive1) q.pins).trans ho.alive1,
    congrArg (·.twinAlive0) q.pins, fun ha => (congrArg (·.aliveEdge) q.pins).trans (ho.edge ha), q.sched.trans hlater,
    fun he => ?_, fun k a m he => ?_, fun b k a m hne he => ?_, fun pr he => ?_⟩
  · exact boundary_of_nothing_due peerLead peerAlive hrun hs (by rw [dueAtNext, he]; rfl)
  · obtain ⟨v, hslots, hpar, qv⟩ := boundary_of_one_due peerLead peerAlive hrun hs (e := ⟨_, .accordJoin k a m⟩)
      (by rw [dueAtNext, he, List.filter_singleton, dueNow_at, beq_self_eq_true]; rfl)
    exact ⟨qv.slots.trans (congrArg (FMap.set · k.toNat (a, m)) hslots), qv.par.trans hpar⟩
  · have hdue : dueNow (linAtTime s.tb.nextT s) (stampOfLin (linAtTime s.tb.nextT s)) ⟨.at b, .accordJoin k a m⟩ = false := by
      simp [dueNow_at, hne]
    obtain ⟨-, -, hslots, -⟩ := boundary_of_nothing_due peerLead peerAlive hrun hs
      (by rw [dueAtNext, he, List.filter_singleton, hdue]; rfl)
    exact ⟨hslots, (q.sched.trans hlater).trans (by rw [he, List.filter_singleton, hdue]; rfl)⟩
  · by_cases h14 : linAtTime s.tb.nextT s % 14 = 0
    · obtain ⟨v, -, -, qv⟩ := boundary_of_one_due peerLead peerAlive hrun hs (e := ⟨.nextSlot, .timeConfig pr⟩)
        (by rw [dueAtNext, he, List.filter_singleton, dueNow_nextSlot, isSlotBeat, h14]; rfl)
      obtain ⟨n', hn⟩ := applyAct_timeConfig pr v
      rw [if_pos h14]
      exact qv.par.trans (congrArg (·.tb.par) hn)
    · obtain ⟨-, hpar, -, -⟩ := boundary_of_nothing_due peerLead peerAlive hrun hs
        (by rw [dueAtNext, he, List.filter_singleton, dueNow_nextSlot, isSlotBeat, beq_eq_false_iff_ne.2 h14]; rfl)
      rw [if_neg h14]
      exact hpar

end Sys2Proof.Machine
end

section
/-! Mailbox commands that only report and mailbox commands of one register: the status reads, EVENT.MASK to LINK.ALIGN (R65,
R74, R243, R268, R302, R319, R326, R338, R364, R383, R400, R404, R406, R415). -/

namespace Sys2Proof.Machine
open Sys2Proof

/-! Status reads -/

/-- A command that reports what does not depend on the mailbox's own parts. -/
theorem serve_report {op : Nat} {h : Hdr} {modes : List Mode} {s : State} (report : State → List Fld) (ha : Accepts op h modes s)
    (hr : ∀ v, Taken h.src s v → report v = report s) :
    MailOnly s (serve op h (inModes modes) (fun u => okWith (report u) u) s)
      ∧ Replied op h stOk (report s) none 0 s (serve op h (inModes modes) (fun u => okWith (report u) u) s) :=
  read_done ha (fun _ hv => inModes_taken ha.2.2.2.1 hv) (fun v hv => by rw [okWith, hr v hv])

/-- Taking a command leaves a counter that is not one of the mailbox's. -/
theorem Taken.counter {c : Src} {s v : State} (hv : Taken c s v) {code idx : Nat} (hc : code ∉ mailCounters) (hi : idx < 65536) :
    counterGet v code idx = counterGet s code idx := by
  refine hv.mail.2.1 _ ?_
  rwa [show counterKey code idx / 65536 = code by unfold counterKey; omega]

/-- TWIN.STATUS reports the pair's registers and the counters of TWN, of which the mailbox owns none. -/
theorem twinStatus_taken {c : Src} {s v : State} (hv : Taken c s v) : twinStatus v = twinStatus s := by
  have hctr : (List.range 10).map (fun i => Fld.num 8 (counterGet v (0xC00 + i) 0))
      = (List.range 10).map (fun i => Fld.num 8 (counterGet s (0xC00 + i) 0)) := by
    refine List.map_congr_left fun i hi => ?_
    rw [hv.counter (by have := List.mem_range.1 hi; simp only [mailCounters, List.mem_cons, List.not_mem_nil, or_false]; omega)
      (by decide)]
  unfold twinStatus
  rw [hctr, hv.reads (·.twn) fun _ => rfl]

/-- Settles O1: each read reports what the mailbox's own parts have no share in. -/
theorem statusReadsReport : Obligations.StatusReadsReport := by
  intro s h
  refine ⟨fun ha => ⟨_, rfl, ?_⟩, fun ha => ⟨_, rfl, ?_⟩, fun ha => ⟨_, rfl, ?_⟩, fun ha => ⟨_, rfl, ?_⟩, fun ha => ⟨_, rfl, ?_⟩,
    fun ha => ⟨_, rfl, ?_⟩, fun ha => ⟨_, rfl, ?_⟩, fun ha => ⟨_, rfl, ?_⟩⟩
  · exact serve_report noseInfo ha fun v hv => hv.reads noseInfo fun _ => rfl
  · exact serve_report formulaStatus ha fun v hv => hv.reads formulaStatus fun _ => rfl
  · exact serve_report _ ha fun v hv => by rw [hv.reads (·.boot.records) fun _ => rfl]
  · exact serve_report _ ha fun v hv => List.map_congr_left fun e _ => by rw [hv.reads (laneStatus · e) fun _ => rfl]
  · exact serve_report _ ha fun v hv => List.map_congr_left fun p _ => by rw [hv.reads (portStatusWord · p) fun _ => rfl]
  · exact serve_report _ ha fun v hv => List.map_congr_left fun i _ => by rw [hv.reads (fifoOf · i) fun _ => rfl]
  · exact serve_report memStatus ha fun v hv => hv.reads memStatus fun _ => rfl
  · exact serve_report twinStatus ha fun v hv => twinStatus_taken hv

/-! Commands of one register -/

/-- A command whose whole effect is to write, whatever the mailbox's own parts hold. -/
theorem serve_write {op : Nat} {h : Hdr} {modes : List Mode} {mode : State → Nat} {body : State → Reply × State} {s : State}
    (f : State → State) (ha : Accepts op h modes s) (hm : ∀ v, Taken h.src s v → mode v = stOk)
    (hb : ∀ v, Taken h.src s v → body v = okWith [] (f v)) (hw : ∀ u, withoutMail (f (withoutMail u)) = withoutMail (f u))
    (hf : ∀ u, (f u).ctr = u.ctr ∧ (f u).outs = u.outs ∧ (f u).nose.rspProd = u.nose.rspProd
      ∧ (f u).nose.rspCons = u.nose.rspCons ∧ (f u).tb.t40 = u.tb.t40 ∧ (f u).fhp.ports = u.fhp.ports) :
    MailOnly (f s) (serve op h mode body s) ∧ Replied op h stOk [] none 0 s (serve op h mode body s) :=
  serve_set f ha hm hb (fun _ hv => hv.reads (fun u => withoutMail (f u)) hw) hf

theorem domainConfig_of_legal {d : BitVec 16} {s : State} (hd : d.toNat ≤ 16383) :
    domainConfig d s = okWith [] { s with nose := { s.nose with deviceId := BitVec.ofNat 14 d.toNat } } :=
  if_neg (by omega)

theorem modeReset_of_legal {scope : BitVec 8} {s : State} (hs : scope.toNat ≤ 1) :
    modeReset scope s
      = okWith [] { s with nose := { s.nose with resetDue := some (if s.nose.mode = .base then 0 else scope) } } := by
  unfold modeReset
  rw [if_neg (by omega)]
  simp only [beq_iff_eq]

theorem checkT_of_in_time {t16 : Int} {s : State} (h : now16 s + 160000 ≤ t16) : checkT t16 s = stOk :=
  if_neg (by omega)

theorem triggerArm_of_legal {pin pol : BitVec 8} {count : BitVec 16} {width : BitVec 32} {t : TInst} {period : BitVec 64} {s : State}
    (hpin : pin.toNat ≤ 7) (hpol : pol.toNat ≤ 1) (hw8 : 8 ≤ width.toNat) (hw : width.toNat ≤ 1000000) (ht : tinstOk t = true)
    (hp : period = 0 ∨ (2 * width.toNat ≤ period.toNat ∧ period.toNat ≤ 10000000000)) (hT : now16 s + 160000 ≤ tinst16 t) :
    triggerArm pin pol count width t period s = okWith [] { s with tb := { s.tb with triggers := (FMap.set s.tb.triggers pin.toNat
      ⟨tinst16 t * 2 ^ 36, width.toNat, period.toNat, count.toNat, pol == 1#8, 0⟩) } } := by
  have hp' : period.toNat = 0 ∨ (2 * width.toNat ≤ period.toNat ∧ period.toNat ≤ 10000000000) :=
    hp.imp_left fun h0 => by rw [h0]; rfl
  unfold triggerArm
  dsimp only
  rw [if_neg (by simp [ht]; omega), checkT_of_in_time hT]
  exact if_neg fun h => h rfl

theorem triggerDisarm_of_legal {pin : BitVec 8} {s : State} (hp : pin.toNat ≤ 7) :
    triggerDisarm pin s = okWith [] { s with tb := { s.tb with triggers := FMap.erase s.tb.triggers pin.toNat } } :=
  if_neg (by omega)

theorem timeAsymmetry_of_legal {port : BitVec 8} {a : BitVec 64} {s : State} (hp : port.toNat ≤ 1) (hlo : -16000000 ≤ a.toInt)
    (hhi : a.toInt ≤ 16000000) : timeAsymmetry port a s = okWith [] { s with tb := { s.tb with
      ptp := s.tb.ptp.modify port.toNat (fun p => { p with asymNext := some a.toInt }) } } :=
  if_neg (by simp only [Bool.or_eq_true, decide_eq_true_eq]; omega)

theorem ddRewind_of_retained {beat : Stamp} {s : State} (hb : stampValid beat = true) (hm : s.mem.st ≠ .frozen)
    (hr : isRetained s (linNear s beat) = true) : ddRewind beat s = okWith [] { s with dd := { s.dd with mark := some beat } } := by
  have hs : storeAway s = false := by simpa [storeAway] using hm
  simp [ddRewind, hb, hs, hr]

theorem linkAlign_of_legal {t : TInst} {pins : BitVec 16} {elements : BitVec 256} {s : State} (ht : tinstOk t = true)
    (he : s.nose.mode = .standby ∨ ∀ e < 256, elements.getLsbD e = true → inServiceLane s e = false)
    (hT : now16 s + 160000 ≤ tinst16 t) : linkAlign t pins elements s
      = okWith [] { s with lnk := { s.lnk with align := some (tinst16 t, pins, elements, false) } } := by
  have hserv : (s.nose.mode != .standby && (maskElements elements).any (inServiceLane s)) = false := by
    rcases he with hm | he
    · rw [hm]; rfl
    · rw [Bool.and_eq_false_iff]
      refine .inr (List.any_eq_false.2 fun e hmem => ?_)
      obtain ⟨hlt, hbit⟩ := List.mem_filter.1 hmem
      rw [he e (List.mem_range.1 hlt) hbit]
      exact Bool.false_ne_true
  simp [linkAlign, ht, hserv, checkT_of_in_time hT]

/-- In a mode of the lead's or of STANDBY a command that SILLAGE alone answers with ST_BAD_FIELD is let through. -/
theorem sillageModes_taken {c : Src} {s v : State} (h : s.nose.mode ∈ modesYOL) (hv : Taken c s v) :
    (if v.nose.mode == .sillage then stBadField else inModes modesYOL v) = stOk :=
  (if_neg (by rw [hv.mode]; simpa using ne_sillage_of_modesYOL h)).trans (inModes_taken h hv)

/-- Settles O5: under its hypotheses each command's body is one register written. -/
theorem registerCommandsWrite : Obligations.RegisterCommandsWrite := by
  intro s h
  refine ⟨fun mask ha => ⟨_, rfl, ?_⟩, fun d ha hd => ⟨_, rfl, ?_⟩, fun scope ha hs => ⟨_, rfl, ?_⟩,
    fun pin pol count width t period ha hpin hpol hw8 hw ht hp hT => ⟨_, rfl, ?_⟩, fun pin ha hpin => ⟨_, rfl, ?_⟩,
    fun port a ha hp hlo hhi => ⟨_, rfl, ?_⟩, fun beat ha hb hm hr => ⟨_, rfl, ?_⟩,
    fun t pins elements ha ht he hT => ⟨_, rfl, ?_⟩⟩
  all_goals
    have hmode := ha.2.2.2.1
    have hin := fun v (hv : Taken h.src s v) => inModes_taken hmode hv
  · exact serve_write (fun u => { u with nose := { u.nose with evtMask := mask } }) ha hin (fun _ _ => rfl) (fun _ => rfl)
      fun _ => ⟨rfl, rfl, rfl, rfl, rfl, rfl⟩
  · exact serve_write (fun u => { u with nose := { u.nose with deviceId := BitVec.ofNat 14 d.toNat } }) ha hin
      (fun _ _ => domainConfig_of_legal hd) (fun _ => rfl) fun _ => ⟨rfl, rfl, rfl, rfl, rfl, rfl⟩
  · exact serve_write (fun u => { u with nose := { u.nose with resetDue := some (if u.nose.mode = .base then 0 else scope) } }) ha
      hin (fun _ _ => modeReset_of_legal hs) (fun _ => rfl) fun _ => ⟨rfl, rfl, rfl, rfl, rfl, rfl⟩
  · refine serve_write (fun u => { u with tb := { u.tb with triggers := (FMap.set u.tb.triggers pin.toNat
      ⟨tinst16 t * 2 ^ 36, width.toNat, period.toNat, count.toNat, pol == 1#8, 0⟩) } }) ha hin (fun v hv => ?_) (fun _ => rfl)
      fun _ => ⟨rfl, rfl, rfl, rfl, rfl, rfl⟩
    exact triggerArm_of_legal hpin hpol hw8 hw ht hp ((hv.reads now16 fun _ => rfl).symm ▸ hT)
  · exact serve_write (fun u => { u with tb := { u.tb with triggers := FMap.erase u.tb.triggers pin.toNat } }) ha hin
      (fun _ _ => triggerDisarm_of_legal hpin) (fun _ => rfl) fun _ => ⟨rfl, rfl, rfl, rfl, rfl, rfl⟩
  · exact serve_write (fun u => { u with tb := { u.tb with
        ptp := u.tb.ptp.modify port.toNat (fun p => { p with asymNext := some a.toInt }) } }) ha hin
      (fun _ _ => timeAsymmetry_of_legal hp hlo hhi) (fun _ => rfl) fun _ => ⟨rfl, rfl, rfl, rfl, rfl, rfl⟩
  · refine serve_write (fun u => { u with dd := { u.dd with mark := some beat } }) ha hin (fun v hv => ?_) (fun _ => rfl)
      fun _ => ⟨rfl, rfl, rfl, rfl, rfl, rfl⟩
    exact ddRewind_of_retained hb (by rwa [hv.reads (·.mem.st) fun _ => rfl])
      ((hv.reads (fun u => isRetained u (linNear u beat)) fun _ => rfl).trans hr)
  · refine serve_write (fun u => { u with lnk := { u.lnk with align := some (tinst16 t, pins, elements, false) } }) ha
      (fun v hv => sillageModes_taken hmode hv) (fun v hv => ?_) (fun _ => rfl) fun _ => ⟨rfl, rfl, rfl, rfl, rfl, rfl⟩
    refine linkAlign_of_legal ht (he.imp hv.mode.trans fun he e hlt hbit => ?_) ((hv.reads now16 fun _ => rfl).symm ▸ hT)
    exact (hv.reads (inServiceLane · e) fun _ => rfl).trans (he e hlt hbit)

end Sys2Proof.Machine
end

section
/-! Commands that wait for the next slot boundary, and those of them and of S that the lead sends to its sillage first (R75, R76,
R154, R208, R215, R268, R305, R312, R365, R384, R399). -/

namespace Sys2Proof.Machine
open Sys2Proof

/-! The body of each command under its hypotheses -/

/-- A field that changes in STANDBY alone is let through in STANDBY, or where it does not change. -/
theorem standbyOnly_passes {s : State} {a b : Nat} (h : s.nose.mode = .standby ∨ a = b) :
    (s.nose.mode != .standby && a != b) = false := by
  rcases h with h | h <;> simp [h]

theorem timeConfig_of_legal {p : BitVec 512} {s : State} (hp : timeParOk p.toNat = true)
    (ho : s.nose.mode = .standby ∨ bits p.toNat 319 278 = frameOffset s) :
    timeConfig p s = accept .nextSlot (.timeConfig p) [] id s := by
  simp only [timeConfig, hp, standbyOnly_passes ho, Bool.not_true, Bool.false_eq_true, if_false]

theorem portConfig_of_legal {port : BitVec 8} {word : BitVec 128} {s : State} (hp : port.toNat ≤ 5)
    (hw : portWordOk port.toNat word.toNat = true)
    (ho : s.nose.mode = .standby ∨ bits word.toNat 58 50 = bits (portWord s port.toNat).toNat 58 50) :
    portConfig port word s = accept .nextSlot (.portConfig port word) [] id s := by
  unfold portConfig
  dsimp only
  rw [if_neg (by omega)]
  simp only [hw, standbyOnly_passes ho, Bool.not_true, Bool.false_eq_true, if_false]

theorem linkConfig_local_of_legal {h : Hdr} {e : BitVec 8} {word : BitVec 64} {s : State}
    (hw : linkWordStatus e.toNat 1 word s = stOk) : linkConfig h e 1 word s = accept .nextSlot (.linkConfig e 1 word) [] id s :=
  if_neg fun h => h hw

theorem linkConfig_shared_of_legal {h : Hdr} {e : BitVec 8} {word : BitVec 64} {s : State}
    (hw : linkWordStatus e.toNat 0 word s = stOk) :
    linkConfig h e 0 word s = acceptPair 0x1002 h .nextSlot (.linkConfig e 0 word) [] id s :=
  if_neg fun h => h hw

/-- LINK.SETUP that names the sample rate in force retrains no lane. -/
theorem linkSetup_of_same_rate {fs : BitVec 32} {lane : BitVec 8} {width : BitVec 16} {skew : BitVec 128} {s : State}
    (hlo : 491520 ≤ fs.toNat) (hhi : fs.toNat ≤ 984840) (hw8 : 8 ≤ width.toNat) (hw : width.toNat ≤ 256)
    (hfs : fs.toNat = s.lnk.fs) : linkSetup fs lane width skew s = accept .nextSlot (.linkSetup lane width skew) [] id s := by
  unfold linkSetup
  dsimp only
  rw [if_neg (by simp only [Bool.or_eq_true, decide_eq_true_eq]; omega), if_neg (by simp [hfs]), if_pos hfs]

theorem sicRetrain_of_legal {h : Hdr} {elements : BitVec 256} {carriers nl : BitVec 8} {s : State} (hc : carriers.toNat ≤ 15)
    (hn : nl.toNat ≤ 1) : sicRetrain h elements carriers nl s
      = acceptPair 0x1202 h .nextSlot (.sicRetrain elements carriers (nl == 1#8)) [] id s :=
  if_neg (by simp only [Bool.or_eq_true, decide_eq_true_eq]; omega)

theorem accordJoin_of_legal {h : Hdr} {slot : BitVec 8} {accord : BitVec 16} {b : Stamp} {members : List (BitVec 128)} {s : State}
    (hj : joinStatus slot accord members s = stOk) (hs : checkS b s = stOk) : accordJoin h slot accord b members s
      = acceptPair 0x2A01 h (.at b) (.accordJoin slot accord members) [] id s := by
  simp [accordJoin, hj, hs]

theorem accordLeave_of_legal {h : Hdr} {slot : BitVec 8} {b : Stamp} {s : State} (hl : leaveStatus slot s = stOk)
    (hs : checkS b s = stOk) : accordLeave h slot b s = acceptPair 0x2A02 h (.at b) (.accordLeave slot) [] id s := by
  simp [accordLeave, hl, hs]

theorem layerConfig_of_legal {h : Hdr} {b : Stamp} {items : List LayerItem} {s : State} (h1 : 1 ≤ items.length)
    (hmax : items.length ≤ 128) (hi : ∀ i ∈ items, i.carrier.toNat ≤ 3 ∧ i.layer.toNat ≤ 63) (hs : checkS b s = stOk)
    (hst : layerItemsStatus items s = stOk) :
    layerConfig h b items s = acceptPair 0x1401 h (.at b) (.layerConfig items) [] id s := by
  have hne : items.isEmpty = false := by
    rw [List.isEmpty_eq_false_iff]; rintro rfl; simp at h1
  have hfields : items.any (fun i => i.carrier.toNat > 3 || i.layer.toNat > 63) = false := by
    refine List.any_eq_false.2 fun i hmem => ?_
    have := hi i hmem
    simp only [Bool.or_eq_true, decide_eq_true_eq]
    omega
  unfold layerConfig
  rw [if_neg (by simpa [hne, hfields] using hmax)]
  simp [hs, hst]

theorem layerWeights_of_legal {h : Hdr} {b : Stamp} {carrier layer : BitVec 8} {firstQ nq : BitVec 16} {w : List (BitVec 32)}
    {s : State} (hc : carrier.toNat ≤ 3) (hl : layer.toNat ≤ 63) (h1 : 1 ≤ nq.toNat) (h3 : nq.toNat ≤ 3)
    (hq : firstQ.toNat + nq.toNat ≤ weightGroups s carrier.toNat) (hs : checkS b s = stOk) :
    layerWeights h b carrier layer firstQ nq w s
      = acceptPair 0x1402 h (.at b) (.layerWeights carrier layer firstQ w b) [] id s := by
  unfold layerWeights
  rw [if_neg (by simp only [Bool.or_eq_true, decide_eq_true_eq]; omega)]
  simp [hs]

theorem queueResize_of_legal {h : Hdr} {queue : BitVec 16} {depth : BitVec 8} {s : State} (hq : (queueOf s queue.toNat).isSome = true)
    (hlo : 3 ≤ depth.toNat) (hhi : depth.toNat ≤ 12) : queueResize h queue depth s
      = acceptPair 0x1C01 h (.at (stampOfLin (resizeBoundary s))) (.queueResize queue depth) [] id s := by
  have hnone : (queueOf s queue.toNat).isNone = false := by
    rw [Option.isNone_eq_false_iff]; exact hq
  refine if_neg ?_
  simp only [hnone, Bool.false_or, Bool.or_eq_true, decide_eq_true_eq]
  omega

/-! The statements -/

/-- Settles O7: each command under its hypotheses is accepted for the next slot boundary. -/
theorem slotBoundaryCommandsWait : Obligations.SlotBoundaryCommandsWait := by
  intro s h
  refine ⟨fun p ha hp ho => ⟨_, rfl, ?_⟩, fun port word ha hp hw ho => ⟨_, rfl, ?_⟩, fun e word ha hw => ⟨_, rfl, ?_⟩,
    fun fs lane width skew ha hlo hhi hw8 hw hfs => ⟨_, rfl, ?_⟩⟩
  all_goals
    have hmode := ha.2.2.2.1
    have hin := fun v (hv : Taken h.src s v) => inModes_taken hmode hv
  · refine serve_accept .nextSlot _ [] id When.noConfusion ha (fun v hv => sillageModes_taken hmode hv)
      fun v hv => timeConfig_of_legal hp (ho.imp hv.mode.trans fun ho => ?_)
    rw [hv.reads frameOffset fun _ => rfl, ho]
  · refine serve_accept .nextSlot _ [] id When.noConfusion ha hin
      fun v hv => portConfig_of_legal hp hw (ho.imp hv.mode.trans fun ho => ?_)
    rw [hv.reads (portWord · port.toNat) fun _ => rfl, ho]
  · exact serve_accept .nextSlot _ [] id When.noConfusion ha hin
      fun v hv => linkConfig_local_of_legal ((hv.reads (linkWordStatus e.toNat 1 word) fun _ => rfl).trans hw)
  · exact serve_accept .nextSlot _ [] id When.noConfusion ha hin
      fun v hv => linkSetup_of_same_rate hlo hhi hw8 hw (hfs.trans (hv.reads (·.lnk.fs) fun _ => rfl).symm)

/-- A command of the pair that SILLAGE refuses, in one of the other modes that take it. -/
theorem serve_pair_lead {op : Nat} {h : Hdr} {modes : List Mode} {body : State → Reply × State} {s : State} (w : When) (a : Act)
    (hw : w ≠ .now) (hsub : ∀ m ∈ modesYOL, m ∈ modes) (ha : Accepts op h modesYOL s)
    (hb : ∀ v, Taken h.src s v → body v = acceptPair op h w a [] id v) :
    PairAccepted op h w a [] s (serve op h (leadModes modes) body s) :=
  serve_pair w a [] id hw ha
    (fun _ hv => leadModes_taken (hsub _ ha.2.2.2.1) (ne_sillage_of_modesYOL ha.2.2.2.1) hv) hb

/-- Settles O8: each command under its hypotheses is one that the pair applies together. -/
theorem pairCommandsAccepted : Obligations.PairCommandsAccepted := by
  intro s h
  have hYOLM : ∀ m ∈ modesYOL, m ∈ modesYOLM := fun _ => mem_modesYOLM_of_modesYOL
  refine ⟨fun e word ha hw => ⟨_, rfl, ?_⟩, fun elements carriers nl ha hc hn => ⟨_, rfl, ?_⟩,
    fun slot accord b members ha hj hs => ⟨_, rfl, ?_⟩, fun slot b ha hl hs => ⟨_, rfl, ?_⟩,
    fun b items ha h1 hmax hi hs hst => ⟨_, rfl, ?_⟩, fun b carrier layer firstQ nq w ha hc hl h1 h3 hq hs => ⟨_, rfl, ?_⟩,
    fun queue depth ha hq hlo hhi => ⟨_, rfl, ?_⟩⟩
  · exact serve_pair_lead .nextSlot _ When.noConfusion hYOLM ha
      fun v hv => linkConfig_shared_of_legal ((hv.reads (linkWordStatus e.toNat 0 word) fun _ => rfl).trans hw)
  · exact serve_pair_lead .nextSlot _ When.noConfusion hYOLM ha fun _ _ => sicRetrain_of_legal hc hn
  · exact serve_pair_lead (.at b) _ When.noConfusion (fun _ => id) ha
      fun v hv => accordJoin_of_legal ((hv.reads (joinStatus slot accord members) fun _ => rfl).trans hj) ((hv.checkS b).trans hs)
  · exact serve_pair_lead (.at b) _ When.noConfusion (fun _ => id) ha
      fun v hv => accordLeave_of_legal ((hv.reads (leaveStatus slot) fun _ => rfl).trans hl) ((hv.checkS b).trans hs)
  · exact serve_pair_lead (.at b) _ When.noConfusion hYOLM ha fun v hv => layerConfig_of_legal h1 hmax hi ((hv.checkS b).trans hs)
      ((hv.reads (layerItemsStatus items) fun _ => rfl).trans hst)
  · refine serve_pair_lead (.at b) _ When.noConfusion hYOLM ha
      fun v hv => layerWeights_of_legal hc hl h1 h3 ?_ ((hv.checkS b).trans hs)
    rwa [hv.reads (weightGroups · carrier.toNat) fun _ => rfl]
  · refine serve_pair_lead (.at (stampOfLin (resizeBoundary s))) _ When.noConfusion hYOLM ha fun v hv => ?_
    rw [queueResize_of_legal (by rwa [hv.reads (queueOf · queue.toNat) fun _ => rfl]) hlo hhi,
      hv.reads resizeBoundary fun _ => rfl]

end Sys2Proof.Machine
end

section
/-! The lanes: how they train, how they are lost, and how the reference lane switches (R62, R64, R77 to R82). -/

namespace Sys2Proof.Machine
open Sys2Proof

/-! A lane read after a report, and after work on lanes one by one -/

@[simp] theorem raiseEv_lnk (code unit : Nat) (pay : List Fld) (s : State) : (raiseEv code unit pay s).lnk = s.lnk := by
  obtain ⟨-, -, -, -, h, -⟩ := (raiseEv_eventsOnly code unit pay s).units
  exact h

@[simp] theorem laneOf_raiseEv (code unit : Nat) (pay : List Fld) (s : State) (i : Nat) :
    laneOf (raiseEv code unit pay s) i = laneOf s i := by
  rw [laneOf, laneOf, raiseEv_lnk]

@[simp] theorem laneOf_count (code idx : Nat) (s : State) (i : Nat) : laneOf (count code idx s) i = laneOf s i := rfl

/-- A counter that does not belong to events, once an event was raised. -/
theorem counterGet_raiseEv {code idx : Nat} (hc : code ∉ eventCounters) (hi : idx < 65536) (c u : Nat) (pay : List Fld) (s : State) :
    counterGet (raiseEv c u pay s) code idx = counterGet s code idx := (raiseEv_eventsOnly c u pay s).counter hc hi

/-- Work on each lane of a list, which keeps `P` and turns lane `e` by `g e`. -/
theorem foldl_lanes {f : State → Nat → State} {g : Nat → Lane → Lane} {P : State → Prop} {s : State} (hs : P s)
    (hP : ∀ u e, P u → P (f u e)) (hf : ∀ u e, P u → laneOf (f u e) e = g e (laneOf u e))
    (hne : ∀ u e i, i ≠ e → laneOf (f u e) i = laneOf u i) {l : List Nat} (hl : l.Nodup) :
    P (l.foldl f s) ∧ ∀ i, laneOf (l.foldl f s) i = if i ∈ l then g i (laneOf s i) else laneOf s i := by
  induction l using List.reverseRecOn with
  | nil => exact ⟨hs, fun _ => rfl⟩
  | append_singleton l x ih =>
    obtain ⟨hl, hx⟩ : l.Nodup ∧ x ∉ l := by
      simpa [List.nodup_append, imp_not_comm] using hl
    obtain ⟨hp, hi⟩ := ih hl
    rw [List.foldl_append]
    refine ⟨hP _ _ hp, fun i => ?_⟩
    by_cases h : i = x
    · subst h
      rw [List.foldl_cons, List.foldl_nil, hf _ _ hp, hi, if_neg hx, if_pos (by simp)]
    · rw [List.foldl_cons, List.foldl_nil, hne _ _ _ h, hi]
      simp [h]

/-- Between `s` and `t` lanes alone changed. -/
def LanesOnly (s t : State) : Prop := t = { s with lnk := { s.lnk with lanes := t.lnk.lanes } }

theorem LanesOnly.refl (s : State) : LanesOnly s s := rfl

theorem LanesOnly.trans {s t u : State} (h : LanesOnly s t) (k : LanesOnly t u) : LanesOnly s u := by
  unfold LanesOnly at h k ⊢
  rw [k, h]

theorem LanesOnly.laneSet {s u : State} (h : LanesOnly s u) (e : Nat) (l : Lane) : LanesOnly s (laneSet e l u) := h.trans rfl

/-- What does not look at the lanes is the same. -/
theorem LanesOnly.reads {α : Type} {s t : State} (h : LanesOnly s t) (f : State → α)
    (hf : ∀ u l, f { u with lnk := { u.lnk with lanes := l } } = f u) : f t = f s := by
  rw [h]; exact hf s _

/-! Transmit lanes that start -/

/-- The lane that clocks the element's transmit lane holds its lock, and the transmit lane is enabled (R78). -/
def mayTransmit (s : State) (e : Nat) : Bool :=
  lwTxEn (laneWord s e) && (if txFromRef s e then refLocked s else (laneOf s e).locked)

/-- Between `s` and `t` only transmit lanes were started or stopped. -/
def TxOnly (s t : State) : Prop := LanesOnly s t ∧ ∀ i, ∃ b, laneOf t i = { laneOf s i with txActive := b }

theorem TxOnly.mayTransmit {s t : State} (h : TxOnly s t) (e : Nat) : mayTransmit t e = Machine.mayTransmit s e := by
  obtain ⟨ho, hl⟩ := h
  have hw : laneWord t e = laneWord s e := ho.reads (laneWord · e) fun _ _ => rfl
  have hr : t.lnk.ref = s.lnk.ref := ho.reads (·.lnk.ref) fun _ _ => rfl
  obtain ⟨b, he⟩ := hl e
  obtain ⟨c, href⟩ := hl s.lnk.ref.val
  have hfrom : txFromRef t e = txFromRef s e := by rw [txFromRef, txFromRef, hw, he]
  have hlock : refLocked t = refLocked s := by rw [refLocked, refLocked, hr, href]
  rw [Machine.mayTransmit, Machine.mayTransmit, hw, hfrom, hlock, he]

theorem txStart_eq (e : Nat) (s : State) : txStart e s =
    if (mayTransmit s e && !(laneOf s e).txActive) = true then laneSet e { laneOf s e with txActive := true } s else s := by
  rw [mayTransmit, Bool.and_right_comm]
  rfl

theorem laneOf_txStart_same (e : Nat) (s : State) :
    laneOf (txStart e s) e = { laneOf s e with txActive := (laneOf s e).txActive || mayTransmit s e } := by
  rw [txStart_eq]
  split
  · rename_i h
    rw [laneOf_laneSet, (Bool.and_eq_true_iff.1 h).1, Bool.or_true]
  · rename_i h
    have : ((laneOf s e).txActive || mayTransmit s e) = (laneOf s e).txActive := by
      revert h
      cases (laneOf s e).txActive <;> simp
    rw [this]

theorem laneOf_txStart_ne {e i : Nat} (s : State) (h : i ≠ e) : laneOf (txStart e s) i = laneOf s i := by
  rw [txStart_eq]
  split
  · exact laneOf_laneSet_ne _ _ h
  · rfl

theorem TxOnly.txStart {s u : State} (h : TxOnly s u) (e : Nat) : TxOnly s (txStart e u) := by
  refine ⟨?_, fun i => ?_⟩
  · rw [txStart_eq]
    split
    · exact h.1.laneSet _ _
    · exact h.1
  · obtain ⟨b, hb⟩ := h.2 i
    by_cases hi : i = e
    · subst hi
      exact ⟨_, by rw [laneOf_txStart_same, hb]⟩
    · exact ⟨b, by rw [laneOf_txStart_ne _ hi, hb]⟩

/-- Every transmit lane that may start does, and nothing else changes. -/
theorem txStartAll_txOnly (s : State) : TxOnly s (txStartAll s) ∧ ∀ i, i < 256 →
    laneOf (txStartAll s) i = { laneOf s i with txActive := (laneOf s i).txActive || mayTransmit s i } := by
  have h := foldl_lanes (f := fun s e => txStart e s)
    (g := fun e l => { l with txActive := l.txActive || mayTransmit s e }) (P := TxOnly s) (s := s) (l := List.range 256)
    ⟨.refl s, fun i => ⟨_, rfl⟩⟩ (fun u e hu => hu.txStart e) (fun u e hu => by rw [laneOf_txStart_same, hu.mayTransmit])
    (fun u e i hi => laneOf_txStart_ne u hi) List.nodup_range
  exact ⟨h.1, fun i hi => (h.2 i).trans (if_pos (List.mem_range.2 hi))⟩

/-! Training (R77, R78, R81) -/

theorem laneEmbLock_of_block {e : Nat} {s : State} (h : (laneOf s e).st = .block) : laneEmbLock e s
    = txStartAll (laneSet e { laneOf s e with st := .emb, locked := true, bad := 0, held := none } s) := by
  simp only [laneEmbLock, h]

theorem laneEmbLock_of_lost {e : Nat} {s : State} (h : (laneOf s e).st = .lost) (hl : (laneOf s e).locked = false) :
    laneEmbLock e s = txStartAll (laneSet e { laneOf s e with locked := true, relock := true, bad := 0, held := none } s) := by
  simp only [laneEmbLock, h, hl, Bool.false_eq_true, if_false]

/-- Lane `e` as it stands once it was set and the transmit lanes were started. -/
theorem laneOf_txStartAll_laneSet {e : Nat} (he : e < 256) (l : Lane) (s : State) :
    laneOf (txStartAll (laneSet e l s)) e = { l with txActive := l.txActive || mayTransmit (laneSet e l s) e } := by
  rw [(txStartAll_txOnly _).2 e he, laneOf_laneSet]

/-- A lane that holds its own lock may transmit on its own clock. -/
theorem mayTransmit_laneSet {e : Nat} {l : Lane} {s : State} (hw : lwTxEn (laneWord s e) = true) (hr : txFromRef s e = false)
    (hl : l.locked = true) (hx : l.txRef = (laneOf s e).txRef) : mayTransmit (laneSet e l s) e = true := by
  have hr' : txFromRef (laneSet e l s) e = false := by
    rw [← hr, txFromRef, txFromRef, laneOf_laneSet, hx]
    rfl
  rw [mayTransmit, hr', laneOf_laneSet, hl]
  exact (Bool.and_true _).trans hw

/-- The lanes that have not reached EMB when the time to train is over. -/
def shortLanes (s : State) : List Nat :=
  (List.range 256).filter (fun e => (laneOf s e).st == .cdr || (laneOf s e).st == .block)

/-- The transmit lane of `e`, where it is enabled, takes clock and framing from the reference lane. -/
def fallBack (s : State) (e : Nat) : State :=
  laneSet e { laneOf s e with txRef := (laneOf s e).txRef || lwTxEn (laneWord s e) } s

/-- The state at the end of training: the lanes short of EMB have fallen back, and the transmit lanes that may start do. -/
def trainingOver (s : State) : State :=
  txStartAll ((shortLanes s).foldl fallBack { s with lnk := { s.lnk with trainAt := none } })

theorem laneTrainTimeout_of_training {s : State} (h : s.lnk.trainAt.isSome = true) : laneTrainTimeout s =
    if (shortLanes s).isEmpty then trainingOver s else raiseEv 0x13 0x0 [.num 32 (elementMask (shortLanes s))] (trainingOver s) := by
  obtain ⟨t, ht⟩ := Option.isSome_iff_exists.1 h
  unfold laneTrainTimeout
  rw [ht]
  rfl

theorem laneTrainTimeout_of_no_training {s : State} (h : s.lnk.trainAt = none) : laneTrainTimeout s = s := by
  unfold laneTrainTimeout
  rw [h]

/-- The end of training changes lanes alone, and of a lane its transmit side alone. -/
theorem trainingOver_lanes (s : State) : LanesOnly { s with lnk := { s.lnk with trainAt := none } } (trainingOver s)
    ∧ ∀ i, i < 256 → (laneOf (trainingOver s) i).st = (laneOf s i).st ∧ (laneOf (trainingOver s) i).txRef
      = ((laneOf s i).txRef || (decide (i ∈ shortLanes s) && lwTxEn (laneWord s i))) := by
  obtain ⟨ho, hl⟩ := foldl_lanes (f := fallBack) (g := fun e l => { l with txRef := l.txRef || lwTxEn (laneWord s e) })
    (P := LanesOnly { s with lnk := { s.lnk with trainAt := none } }) (l := shortLanes s) (.refl _) (fun u e hu => hu.laneSet _ _)
    (fun u e hu => by rw [fallBack, laneOf_laneSet, hu.reads (laneWord · e) fun _ _ => rfl]; rfl)
    (fun u e i hi => laneOf_laneSet_ne _ _ hi) (List.nodup_range.filter _)
  obtain ⟨⟨hto, -⟩, htx⟩ := txStartAll_txOnly ((shortLanes s).foldl fallBack { s with lnk := { s.lnk with trainAt := none } })
  refine ⟨ho.trans hto, fun i hi => ?_⟩
  rw [trainingOver, htx i hi, hl i]
  by_cases hs : i ∈ shortLanes s
  · simp only [hs, decide_true, Bool.true_and]
    exact ⟨rfl, rfl⟩
  · simp only [hs, decide_false, Bool.false_and, Bool.or_false]
    exact ⟨rfl, rfl⟩

/-- Settles O33: each row's effect in each state of the lane, and what starting the transmit lanes leaves of a lane. -/
theorem lanesTrain : Obligations.LanesTrain := by
  intro e s
  refine ⟨fun h => ?_, fun h => ?_, fun h => ?_, fun h hl => ?_, fun h => ?_, fun h => ?_⟩
  · exact congrArg _ (if_pos (beq_iff_eq.2 h))
  · exact congrArg _ (if_neg (mt beq_iff_eq.1 h))
  · refine ⟨_, rfl, laneEmbLock_of_block h, ?_⟩
    simp only [laneEmbLock_of_block h, laneOf_txStartAll_laneSet e.isLt]
    exact ⟨trivial, trivial, fun hw hr => Bool.or_eq_true_iff.2 (.inr (mayTransmit_laneSet hw hr rfl rfl))⟩
  · refine ⟨_, rfl, ?_⟩
    simp only [laneEmbLock_of_lost h hl, laneOf_txStartAll_laneSet e.isLt, h, and_self]
  · refine ⟨_, rfl, ?_⟩
    obtain ⟨ho, hl⟩ := trainingOver_lanes s
    have hat : (trainingOver s).lnk.trainAt = none := ho.reads (·.lnk.trainAt) fun _ _ => rfl
    have hsame : (trainingOver s).nose = s.nose ∧ (trainingOver s).ctr = s.ctr ∧ (trainingOver s).outs = s.outs :=
      ⟨ho.reads (·.nose) fun _ _ => rfl, ho.reads (·.ctr) fun _ _ => rfl, ho.reads (·.outs) fun _ _ => rfl⟩
    rw [laneTrainTimeout_of_training h]
    by_cases hshort : shortLanes s = []
    · rw [if_pos (List.isEmpty_iff.2 hshort)]
      exact ⟨⟨hat, hl⟩, fun hne => absurd hshort hne, fun _ => hsame⟩
    · rw [if_neg (mt List.isEmpty_iff.1 hshort)]
      refine ⟨⟨by rw [raiseEv_lnk, hat], fun i hi => ?_⟩, fun _ => ⟨_, rfl⟩, fun hnil => absurd hnil hshort⟩
      rw [laneOf_raiseEv]
      exact hl i hi
  · exact congrArg _ (laneTrainTimeout_of_no_training h)

/-! Loss (R62, R80, R82) -/

@[simp] theorem laneSet_ref (e : Nat) (l : Lane) (s : State) : (laneSet e l s).lnk.ref = s.lnk.ref := rfl

@[simp] theorem releaseBlock_lnk (e : Nat) (l : List (BitVec 16 × BitVec 16)) (crcOk : Bool) (s : State) :
    (releaseBlock e l crcOk s).lnk = s.lnk :=
  congrArg (·.1) (releaseBlock_lnkStill e l crcOk (LnkStill.refl s)).same

@[simp] theorem lostLane_ref (e : Nat) (s : State) : (lostLane e s).lnk.ref = s.lnk.ref := by
  unfold lostLane
  dsimp only
  split
  · rw [releaseBlock_lnk, laneSet_ref]
  · rfl

/-- From ALIGNED or SERVICE a lane that loses its lock is LOST. -/
theorem loseLock_of_out {e err : Nat} {s : State} (h : (laneOf s e).st = .aligned ∨ (laneOf s e).st = .service) :
    loseLock e err s = laneLost e err s := by
  have hv : loseLock e err s = (let v := raiseEv 0x14 0x0 [.num 1 e, .num 1 err] (count 0x004 e (lostLane e s))
      if (laneOf s e).st == .service && v.lnk.ref.val == e then refSwitch v else v) := by
    unfold loseLock
    rcases h with h | h <;> simp only [h] <;> rfl
  rw [hv, laneLost]
  simp only [raiseEv_lnk, count_lnk, lostLane_ref, Bool.and_eq_true, beq_iff_eq]

/-- Short of that it trains again. -/
theorem loseLock_of_training {e err : Nat} {s : State} (h : (laneOf s e).st = .emb ∨ (laneOf s e).st = .block) :
    loseLock e err s = laneSet e { laneOf s e with locked := false, relock := false, bad := 0, held := none, st := .cdr } s := by
  unfold loseLock
  rcases h with h | h <;> simp only [h]

theorem loseLock_of_off {e err : Nat} {s : State} (h : (laneOf s e).st = .off) : loseLock e err s = s := by
  unfold loseLock
  simp only [h]

theorem elasticSlip_of_on {e : Nat} {s : State} (h : (laneOf s e).st ≠ .off) : elasticSlip e s = loseLock e 2 (count 0x003 e s) :=
  if_neg (mt beq_iff_eq.1 h)

theorem elasticSlip_of_off {e : Nat} {s : State} (h : (laneOf s e).st = .off) : elasticSlip e s = s :=
  if_pos (beq_iff_eq.2 h)

theorem laneRateFault_of_off {e : Nat} (ppm : BitVec 16) {s : State} (h : (laneOf s e).st = .off) : laneRateFault e ppm s = s :=
  if_pos (beq_iff_eq.2 h)

/-- A lane out of training that runs at a wrong rate is LOST. -/
theorem laneRateFault_of_out {e : Nat} (ppm : BitVec 16) {s : State}
    (h : (laneOf s e).st = .aligned ∨ (laneOf s e).st = .service) : laneRateFault e ppm s =
      (let v := raiseEv 0x10 0x0 [.num 1 e, .num 1 0, .num 2 ppm.toNat]
        (count 0x004 e (laneSet e { laneOf s e with rateFault := true, st := .lost } s))
       if (laneOf s e).st = .service ∧ s.lnk.ref.val = e then refSwitch v else v) := by
  unfold laneRateFault
  rcases h with h | h <;> simp [h]

/-- A lane in training that runs at a wrong rate keeps its state, and the fault stands against it. -/
theorem laneRateFault_of_training {e : Nat} (ppm : BitVec 16) {s : State}
    (h : (laneOf s e).st = .emb ∨ (laneOf s e).st = .block) : laneRateFault e ppm s =
      raiseEv 0x10 0x0 [.num 1 e, .num 1 0, .num 2 ppm.toNat] (laneSet e { laneOf s e with rateFault := true } s) := by
  unfold laneRateFault
  rcases h with h | h <;> simp [h]

/-- A lane that holds nothing and is not the reference in service: its loss is counted and reported, and that is all. -/
theorem laneLost_of_empty {e err : Nat} {s : State} (hh : (laneOf s e).held = none)
    (hr : ¬ ((laneOf s e).st = .service ∧ s.lnk.ref.val = e)) : laneLost e err s
      = raiseEv 0x14 0x0 [.num 1 e, .num 1 err] (count 0x004 e
        (laneSet e { laneOf s e with locked := false, relock := false, bad := 0, held := none, st := .lost } s)) := by
  simp [laneLost, lostLane, hh, if_neg hr]

/-- Settles O34: a lane's loss by the state it is in. -/
theorem lanesAreLost : Obligations.LanesAreLost := by
  intro e ppm s
  refine ⟨fun h => ⟨?_, ?_, ?_⟩, fun h => ⟨?_, ?_⟩, fun h => ⟨?_, ?_, ?_⟩, fun _ hh hr => ?_⟩
  · exact congrArg _ (loseLock_of_out h)
  · refine congrArg _ ((elasticSlip_of_on fun hoff => ?_).trans (loseLock_of_out h))
    rcases h with h | h <;> exact LaneSt.noConfusion (hoff.symm.trans h)
  · exact congrArg _ (laneRateFault_of_out ppm h)
  · exact congrArg _ (loseLock_of_training h)
  · exact congrArg _ (laneRateFault_of_training ppm h)
  · exact congrArg _ (loseLock_of_off h)
  · exact congrArg _ (elasticSlip_of_off h)
  · exact congrArg _ (laneRateFault_of_off ppm h)
  · rw [laneLost_of_empty hh hr]
    refine ⟨?_, fun i hi => ?_, ?_⟩
    · rw [laneOf_raiseEv, laneOf_count, laneOf_laneSet]
    · rw [laneOf_raiseEv, laneOf_count, laneOf_laneSet_ne _ _ hi]
    · rw [counterGet_raiseEv (by decide) (by omega)]
      exact counterGet_countBy 0x004 e.val 1 _

/-! The reference lane (R64, R79) -/

/-- The lane's fixed offset once the reference lies `o` later. -/
def rebase (o : Int) (s : State) (e : Nat) : State :=
  if (laneOf s e).indexed then laneSet e { laneOf s e with offset := (laneOf s e).offset - o } s else s

/-- Every lane's offset once the reference lies `o` later. -/
def rebaseAll (o : Int) (s : State) : State := (List.range 256).foldl (rebase o) s

theorem rebaseAll_eq (o : Int) (s : State) : (List.range 256).foldl (fun u e =>
    if (laneOf u e).indexed then laneSet e { laneOf u e with offset := (laneOf u e).offset - o } u else u) s = rebaseAll o s := rfl

/-- The lanes in the order in which they are asked to be the reference after lane `r`. -/
def lanesAfter (r : Nat) : List Nat := (List.range 255).map (fun i => (r + 1 + i) % 256)

/-- The state with lane `n` as the reference, and the boundaries of the lane before forgotten. -/
def withRef (n : Fin 256) (s : State) : State :=
  { s with lnk := { s.lnk with ref := n, refCheck := true }, tb := { s.tb with bounds := [] } }

@[simp] theorem laneOf_withRef (n : Fin 256) (s : State) (e : Nat) : laneOf (withRef n s) e = laneOf s e := rfl
@[simp] theorem counterGet_withRef (n : Fin 256) (s : State) (code idx : Nat) :
    counterGet (withRef n s) code idx = counterGet s code idx := rfl

theorem refSwitch_of_none {s : State} (h : (lanesAfter s.lnk.ref.val).find? (inServiceLane s) = none) : refSwitch s = s := by
  unfold refSwitch
  dsimp only
  rw [← lanesAfter, h]

theorem refSwitch_of_next {s : State} {n : Nat} (hn : n < 256)
    (h : (lanesAfter s.lnk.ref.val).find? (inServiceLane s) = some n) : refSwitch s = raiseEv 0x11 0x0
      [.num 1 s.lnk.ref.val, .num 1 n] (count 0x006 0 (withRef ⟨n, hn⟩ (rebaseAll (laneOf s n).offset s))) := by
  unfold refSwitch
  dsimp only
  rw [← lanesAfter, h]
  dsimp only
  rw [dif_pos hn, rebaseAll_eq]
  rfl

theorem find_lanesAfter_eq_none {r : Nat} {p : Nat → Bool} (h : ∀ i, 1 ≤ i → i ≤ 255 → p ((r + i) % 256) = false) :
    (lanesAfter r).find? p = none := by
  refine List.find?_eq_none.2 fun x hx => ?_
  obtain ⟨i, hi, rfl⟩ := List.mem_map.1 hx
  rw [Nat.add_assoc, h (1 + i) (by omega) (by have := List.mem_range.1 hi; omega)]
  exact Bool.false_ne_true

/-- The first lane after the reference, in ascending order and around, that meets `p`. -/
theorem find_lanesAfter_eq_some {r i : Nat} {p : Nat → Bool} (h1 : 1 ≤ i) (hi : i ≤ 255) (hp : p ((r + i) % 256) = true)
    (hfirst : ∀ j, 1 ≤ j → j < i → p ((r + j) % 256) = false) : (lanesAfter r).find? p = some ((r + i) % 256) := by
  have hfind : (List.range 255).find? (p ∘ fun i => (r + 1 + i) % 256) = some (i - 1) := by
    refine List.find?_range_eq_some.2 ⟨?_, List.mem_range.2 (by omega), fun j hj => ?_⟩
    · rwa [Function.comp_apply, show r + 1 + (i - 1) = r + i by omega]
    · rw [Function.comp_apply, Nat.add_assoc, hfirst (1 + j) (by omega) (by omega)]
      rfl
  rw [lanesAfter, List.find?_map, hfind, Option.map_some, show r + 1 + (i - 1) = r + i by omega]

theorem rebaseAll_lanes (o : Int) (s : State) : LanesOnly s (rebaseAll o s) ∧ ∀ e, e < 256 → laneOf (rebaseAll o s) e =
    if (laneOf s e).indexed then { laneOf s e with offset := (laneOf s e).offset - o } else laneOf s e := by
  have h := foldl_lanes (f := rebase o) (g := fun _ l => if l.indexed then { l with offset := l.offset - o } else l)
    (P := LanesOnly s) (s := s) (l := List.range 256) (.refl s)
    (fun u e hu => by unfold rebase; split; exacts [hu.laneSet _ _, hu])
    (fun u e _ => by unfold rebase; split; exacts [laneOf_laneSet _ _ _, rfl])
    (fun u e i hi => by unfold rebase; split; exacts [laneOf_laneSet_ne _ _ hi, rfl]) List.nodup_range
  exact ⟨h.1, fun e he => (h.2 e).trans (if_pos (List.mem_range.2 he))⟩

/-- Lane `n`, the next in service, becomes the reference: the offsets are re-based on it, the switch is counted and reported. -/
theorem refSwitch_to_next {s : State} {n : Nat} (hn : n < 256) (h : (lanesAfter s.lnk.ref.val).find? (inServiceLane s) = some n) :
    (refSwitch s).lnk.ref.val = n
    ∧ (∀ e, e < 256 → laneOf (refSwitch s) e = if (laneOf s e).indexed
        then { laneOf s e with offset := (laneOf s e).offset - (laneOf s n).offset } else laneOf s e)
    ∧ counterGet (refSwitch s) 0x006 0 = Nat.min (counterGet s 0x006 0 + 1) 65535
    ∧ ∃ u, refSwitch s = raiseEv 0x11 0x0 [.num 1 s.lnk.ref.val, .num 1 n] u := by
  obtain ⟨ho, hl⟩ := rebaseAll_lanes (laneOf s n).offset s
  rw [refSwitch_of_next hn h]
  refine ⟨by rw [raiseEv_lnk]; rfl, fun e he => ?_, ?_, _, rfl⟩
  · rw [laneOf_raiseEv, laneOf_count, laneOf_withRef, hl e he]
  · have hctr : counterGet (rebaseAll (laneOf s n).offset s) 0x006 0 = counterGet s 0x006 0 :=
      ho.reads (counterGet · 0x006 0) fun _ _ => rfl
    rw [counterGet_raiseEv (by decide) (by decide), count, counterGet_countBy, counterGet_withRef, hctr]
    rfl

/-- Settles O35: the first lane in service after the reference is found, or none. -/
theorem referenceSwitches : Obligations.ReferenceSwitches := by
  intro s
  refine ⟨fun h => refSwitch_of_none (find_lanesAfter_eq_none h), fun i h1 hi hp hfirst => ?_⟩
  exact refSwitch_to_next (Nat.mod_lt _ (by decide)) (find_lanesAfter_eq_some h1 hi hp hfirst)

end Sys2Proof.Machine
end

section
/-! Mailbox commands that return data: FILTER.READ, SIC.DEPTH, FLASH.READ and FUSE.READ (R99, R154, R400, R423). -/

namespace Sys2Proof.Machine
open Sys2Proof

/-! Pages -/

/-- Where the page after the one from `first` begins, of pages of `most` out of `total`; 0 after the last. -/
def nextPage (most total first : Nat) : Nat := if first + most < total then first + most else 0

/-- A page of what is left answers like a page of the most it may hold. -/
theorem nextPage_of_left (most total first : Nat) :
    (if first + Nat.min most (total - first) < total then first + Nat.min most (total - first) else 0)
      = nextPage most total first := by
  unfold nextPage
  rcases Nat.le_total most (total - first) with h | h
  · rw [show Nat.min most (total - first) = most from Nat.min_eq_left h]
  · rw [show Nat.min most (total - first) = total - first from Nat.min_eq_right h, if_neg (by omega), if_neg (by omega)]

/-- What is left after `first`, to a page's most, is all that the page takes. -/
theorem take_left_drop {α : Type} (l : List α) (most first : Nat) :
    (l.drop first).take (Nat.min most (l.length - first)) = (l.drop first).take most := by
  rw [← List.length_drop]
  exact List.take_eq_take_min.symm

/-! The commands' own answers -/

theorem filterRead_of_no_set {set : BitVec 8} (first : BitVec 16) (h : filterSet set.toNat = none) (s : State) :
    filterRead set first s = fails stBadField s := by
  simp only [filterRead, h]

theorem filterRead_of_beyond {set : BitVec 8} {first : BitVec 16} {l : List Int} (h : filterSet set.toNat = some l)
    (hf : l.length ≤ first.toNat) (s : State) : filterRead set first s = fails stBadField s := by
  simp only [filterRead, h, ge_iff_le, if_pos hf]

/-- The fields that FILTER.READ returns of a set: the count of all and of the page, the set's CRC, and the page. -/
def filterPage (l : List Int) (first : Nat) : List Fld :=
  [.num 2 l.length, .num 2 (Nat.min 1000 (l.length - first)), .num 4 (crc32 (l.flatMap (fun v => leBytes 4 (wrapN 32 v))))]
    ++ ((l.drop first).take (Nat.min 1000 (l.length - first))).map (sfld 4)

theorem filterRead_of_page {set : BitVec 8} {first : BitVec 16} {l : List Int} (h : filterSet set.toNat = some l)
    (hf : first.toNat < l.length) (s : State) :
    filterRead set first s = (.done stOk (filterPage l first.toNat) none (nextPage 1000 l.length first.toNat), s) := by
  rw [← nextPage_of_left]
  simp only [filterRead, h, ge_iff_le, if_neg (Nat.not_le.2 hf)]
  rfl

theorem sicDepth_of_page {c : BitVec 8} {first : BitVec 16} {s : State} (hc : c.toNat ≤ 3)
    (hf : first.toNat < (depthEntries s c.toNat).length) : sicDepth c first s =
      (.done stOk ([.num 2 (Nat.min 250 ((depthEntries s c.toNat).length - first.toNat)), .num 2 0]
        ++ (((depthEntries s c.toNat).drop first.toNat).take 250).map (fun v => .num 16 v)) none
        (nextPage 250 (depthEntries s c.toNat).length first.toNat), s) := by
  rw [← nextPage_of_left, ← take_left_drop]
  refine if_neg ?_
  simp only [Bool.or_eq_true, decide_eq_true_eq]
  omega

theorem sicDepth_of_badField {c : BitVec 8} {first : BitVec 16} {s : State}
    (h : ¬ (c.toNat ≤ 3 ∧ first.toNat < (depthEntries s c.toNat).length)) : sicDepth c first s = fails stBadField s := by
  refine if_pos ?_
  simp only [Bool.or_eq_true, decide_eq_true_eq]
  omega

theorem flashRead_of_fields {offset : BitVec 32} {n : BitVec 16}
    (h : 1 ≤ n.toNat ∧ n.toNat ≤ 4064 ∧ offset.toNat + n.toNat ≤ 2 ^ 32) (s : State) :
    flashRead offset n s = okWith [.str (flashBytes s offset.toNat n.toNat)] s := by
  refine if_neg ?_
  simp only [Bool.or_eq_true, decide_eq_true_eq]
  omega

theorem flashRead_of_badField {offset : BitVec 32} {n : BitVec 16}
    (h : ¬ (1 ≤ n.toNat ∧ n.toNat ≤ 4064 ∧ offset.toNat + n.toNat ≤ 2 ^ 32)) (s : State) :
    flashRead offset n s = fails stBadField s := by
  refine if_pos ?_
  simp only [Bool.or_eq_true, decide_eq_true_eq]
  omega

theorem fuseRead_of_region {region : BitVec 8} (h : region.toNat ≤ 5) (s : State) : fuseRead region s
    = okWith [.str (leBytes (fuseSize region.toNat / 8) (fuseValue s.boot.fuses region.toNat))] s :=
  if_neg (by omega)

theorem fuseRead_of_badField {region : BitVec 8} (h : ¬ region.toNat ≤ 5) (s : State) : fuseRead region s = fails stBadField s :=
  if_pos (by omega)

/-! The statement -/

/-- A command of the catalogue's modes whose body answers and leaves the state. -/
theorem serve_read {op : Nat} {h : Hdr} {modes : List Mode} {body : State → Reply × State} {s : State} {st : Nat}
    {pay : List Fld} {nx : Nat} (ha : Accepts op h modes s)
    (hb : ∀ v, Taken h.src s v → body v = (.done st pay none nx, v)) :
    MailOnly s (serve op h (inModes modes) body s) ∧ Replied op h st pay none nx s (serve op h (inModes modes) body s) :=
  read_done ha (fun _ hv => inModes_taken ha.2.2.2.1 hv) hb

/-- FILTER.READ looks at no part of the state: the set and the page decide what it answers (R99). -/
theorem filterRead_served {s : State} {h : Hdr} (set : BitVec 8) (first : BitVec 16) (ha : Accepts 0x1101 h modesYOLM s) :
    let t := serve 0x1101 h (inModes modesYOLM) (filterRead set first) s
    MailOnly s t ∧ (filterSet set.toNat = none → Replied 0x1101 h stBadField [] none 0 s t)
      ∧ (∀ l, filterSet set.toNat = some l → l.length ≤ first.toNat → Replied 0x1101 h stBadField [] none 0 s t)
      ∧ (∀ l, filterSet set.toNat = some l → first.toNat < l.length →
        Replied 0x1101 h stOk (filterPage l first.toNat) none (nextPage 1000 l.length first.toNat) s t) := by
  have hnone := fun hset => serve_read ha fun v _ => filterRead_of_no_set (set := set) first hset v
  have hbeyond := fun l hset hle => serve_read ha fun v _ => filterRead_of_beyond (set := set) (first := first) (l := l) hset hle v
  have hpage := fun l hset hlt => serve_read ha fun v _ => filterRead_of_page (set := set) (first := first) (l := l) hset hlt v
  refine ⟨?_, fun hset => (hnone hset).2, fun l hset hle => (hbeyond l hset hle).2, fun l hset hlt => (hpage l hset hlt).2⟩
  cases hset : filterSet set.toNat with
  | none => exact (hnone hset).1
  | some l =>
    rcases Nat.lt_or_ge first.toNat l.length with hlt | hle
    · exact (hpage l hset hlt).1
    · exact (hbeyond l hset hle).1

/-- Settles O4: each read's fields decide between its data and ST_BAD_FIELD, and its data are no part of the mailbox. -/
theorem dataReads : Obligations.DataReads := by
  intro s h
  refine ⟨fun set first ha => ⟨_, rfl, filterRead_served set first ha⟩, fun c first ha => ⟨_, rfl, ?_⟩,
    fun offset n ha => ⟨_, rfl, ?_⟩, fun region ha => ⟨_, rfl, ?_⟩⟩
  · have hdepth := fun v (hv : Taken h.src s v) => hv.reads (depthEntries · c.toNat) fun _ => rfl
    dsimp only
    split
    · rename_i hf
      refine serve_read ha fun v hv => ?_
      rw [← hdepth v hv] at hf ⊢
      exact sicDepth_of_page hf.1 hf.2
    · rename_i hf
      exact serve_read ha fun v hv => sicDepth_of_badField (by rwa [hdepth v hv])
  · split
    · rename_i hf
      refine serve_read ha fun v hv => (flashRead_of_fields hf v).trans ?_
      rw [hv.reads (flashBytes · offset.toNat n.toNat) fun _ => rfl]
      rfl
    · rename_i hf
      exact serve_read ha fun v _ => flashRead_of_badField hf v
  · split
    · rename_i hf
      refine serve_read ha fun v hv => (fuseRead_of_region hf v).trans ?_
      rw [hv.reads (·.boot.fuses) fun _ => rfl]
      rfl
    · rename_i hf
      exact serve_read ha fun v _ => fuseRead_of_badField hf v

end Sys2Proof.Machine
end

section
/-! The instructions of a cluster program at the program counter of a gang, and background programs (R157, R173, R174, R178,
R192 to R205, R247). -/

namespace Sys2Proof.Machine
open Sys2Proof

/-! One instruction of a gang -/

theorem noWait_noAccess (k : Nat) (bg : Bool) (s : State) : noWait k bg noAccess s := .inr fun _ _ => rfl

section
variable {op k : Nat} {bg : Bool} {w : AeW} {acc : Access} {cost : Cost} {body : Nat → State → State} {after : Ctx → Ctx}
  {s : State}

theorem aeExec_of_not_atPc (h : atPc s k bg op w = false) : aeExec op k bg w acc cost body after s = s :=
  if_pos (by rw [h]; rfl)

theorem aeExec_of_noWait (h : atPc s k bg op w = true) (hn : noWait k bg acc s) :
    aeExec op k bg w acc cost body after s = gangRun k bg cost body after s := by
  have hgo : (!bg && (gangOf s k).any (fun j => accessWaits s j (acc s j).1 (acc s j).2)) = false := by
    rcases hn with rfl | hn
    · rfl
    · exact Bool.and_eq_false_iff.2 (.inr (List.any_eq_false.2 fun j hj => by rw [hn j hj]; exact Bool.false_ne_true))
  unfold aeExec
  rw [if_neg (by rw [h]; exact Bool.false_ne_true)]
  exact if_neg (by rw [hgo]; exact Bool.false_ne_true)

theorem aeExec_of_wait (h : atPc s k false op w = true) (hn : ¬ noWait k false acc s) :
    aeExec op k false w acc cost body after s = (gangOf s k).foldl (fun u j => count 0x404 j u) s := by
  have hwait : (gangOf s k).any (fun j => accessWaits s j (acc s j).1 (acc s j).2) = true := by
    rw [← Bool.not_eq_false, List.any_eq_false]
    exact fun hall => hn (.inr fun j hj => Bool.eq_false_iff.2 (hall j hj))
  unfold aeExec
  rw [if_neg (by rw [h]; exact Bool.false_ne_true)]
  exact if_pos (by rw [hwait]; rfl)

/-! The same as the outcome of an instruction -/

theorem next_of_noWait (h : atPc s k bg op w = true) (hn : noWait k bg acc s) :
    (.next (aeExec op k bg w acc cost body after s) : Host.Outcome State Fault Refusal)
      = .next (gangRun k bg cost body after s) := congrArg _ (aeExec_of_noWait h hn)

theorem next_of_noAccess (h : atPc s k bg op w = true) :
    (.next (aeExec op k bg w noAccess cost body after s) : Host.Outcome State Fault Refusal)
      = .next (gangRun k bg cost body after s) := next_of_noWait h (noWait_noAccess k bg s)

theorem next_of_wait (h : atPc s k false op w = true) (hn : ¬ noWait k false acc s) :
    (.next (aeExec op k false w acc cost body after s) : Host.Outcome State Fault Refusal)
      = .next ((gangOf s k).foldl (fun u j => count 0x404 j u) s) := congrArg _ (aeExec_of_wait h hn)

theorem next_of_not_atPc (h : atPc s k bg op w = false) :
    (.next (aeExec op k bg w acc cost body after s) : Host.Outcome State Fault Refusal) = .next s :=
  congrArg _ (aeExec_of_not_atPc h)

end

/-! The statements -/

/-- Settles O20: at the program counter, with no member that waits, an instruction is one run of its gang. -/
theorem termWordsRun : Obligations.TermWordsRun := fun _ _ _ _ =>
  ⟨next_of_noAccess, next_of_noWait, next_of_noWait, next_of_noWait, next_of_noWait, next_of_noAccess, next_of_noAccess,
    next_of_noAccess, next_of_noAccess, next_of_noAccess, next_of_noWait, next_of_noWait⟩

/-- Settles O21: as for the instructions that make terms. -/
theorem cellWordsRun : Obligations.CellWordsRun := fun _ _ _ _ =>
  ⟨next_of_noWait, next_of_noWait, next_of_noWait, next_of_noWait, next_of_noWait, next_of_noWait, next_of_noWait⟩

/-- Settles O22: control instructions access no cell, so they never wait; a waiting instruction counts, one that is not at the
program counter does nothing. -/
theorem controlWordsRun : Obligations.ControlWordsRun := fun _ _ _ _ =>
  ⟨next_of_noAccess, next_of_noAccess, next_of_noAccess, next_of_noAccess, next_of_noAccess, next_of_noAccess, next_of_noAccess,
    next_of_noAccess, next_of_noAccess, next_of_noAccess, next_of_wait, next_of_wait, next_of_not_atPc, next_of_not_atPc⟩

/-! Job parts and suspension -/

theorem jobPartPlaced_of_waiting {k q : Nat} {j : RcJob} {d : DdPar} {s : State} (hd : ddPar s = some d)
    (hp : nextPart s k = some (j, q)) (hw : (clOf s k).jwait = true) (hh : hbmServes s = true) (hf : isFenced s 7 0 = false)
    (hr : isRetained s j.lin = true) : jobPartPlaced k s = placePart k j q d s := by
  simp [jobPartPlaced, hd, hp, hw, hh, hf, hr]

/-- Placing a part ends with the cluster leaving its wait. -/
theorem clOf_placePart (k q : Nat) (j : RcJob) (d : DdPar) (s : State) :
    (clOf (placePart k j q d s) k).jwait = false ∧ (clOf (placePart k j q d s) k).part = some ⟨j.c, j.lin, j.host, q⟩ := by
  unfold placePart
  extract_lets
  rw [clOf_clSet]
  exact ⟨rfl, rfl⟩

theorem bgSuspendRequest_of_enabled {k : Nat} {s : State} (he : (clEntry s k).bgEn = true) (hs : (clOf s k).suspended = false) :
    bgSuspendRequest k s = clSet k { clOf s k with suspReq := true } s := if_pos (by rw [he, hs]; rfl)

theorem bgSuspend_of_interruptible {k : Nat} {s : State} (hr : (clOf s k).suspReq = true) (hs : (clOf s k).suspended = false)
    (hi : interruptible (clOf s k) = true) :
    bgSuspend k s = count 0x405 k (clSet k { clOf s k with suspended := true, suspReq := false } s) :=
  if_pos (by rw [hr, hs, hi]; rfl)

/-- Settles O27: each act meets its conditions, and placing a part ends the wait. -/
theorem backgroundIsServed : Obligations.BackgroundIsServed := fun k s =>
  ⟨fun d j q hd hp hw hh hf hr =>
      ⟨_, rfl, jobPartPlaced_of_waiting hd hp hw hh hf hr, by
        rw [jobPartPlaced_of_waiting hd hp hw hh hf hr]
        exact clOf_placePart k.val q j d s⟩,
    fun he hs => congrArg _ (bgSuspendRequest_of_enabled he hs),
    fun hr hs hi => congrArg _ (bgSuspend_of_interruptible hr hs hi)⟩

end Sys2Proof.Machine
end

section
/-! The cells of a cluster: what a read and a write of one does, and what a stop and a commit leave (R159, R179, R180, R191). -/

namespace Sys2Proof.Machine
open Sys2Proof

/-! What the formula says of a cluster -/

section
variable {s t : State} (h : t.frm.active = s.frm.active)
include h

theorem clEntry_congr (k : Nat) : clEntry t k = clEntry s k := by unfold clEntry; rw [h]
theorem mayReach_congr (k : Nat) (bg y : Bool) (a : Nat) : mayReach t k bg y a = mayReach s k bg y a := by
  unfold mayReach inBgRange
  rw [clEntry_congr h]
theorem outRangeOf_congr (k : Nat) (y : Bool) (a : Nat) : outRangeOf t k y a = outRangeOf s k y a := by
  unfold outRangeOf
  rw [clEntry_congr h]
theorem heldRange_congr (r : OutRange) : heldRange t r = heldRange s r := by
  unfold heldRange substRule
  rw [h]

end

/-! What leaves the clusters and the formula alone -/

section
variable {s t u : State}

theorem AeStill.ae (h : AeStill s t) : t.ae = s.ae := congrArg Prod.fst h.same
theorem AeStill.active (h : AeStill s t) : t.frm.active = s.frm.active := congrArg Prod.snd h.same
theorem AeStill.trans (h : AeStill s t) (h' : AeStill t u) : AeStill s u := ⟨h'.same.trans h.same⟩
theorem AeStill.clOf (h : AeStill s t) (k : Nat) : clOf t k = clOf s k := by unfold Machine.clOf; rw [h.ae]
theorem AeStill.cellRaw (h : AeStill s t) (k : Nat) (y : Bool) (a : Nat) : cellRaw t k y a = cellRaw s k y a := by
  unfold Machine.cellRaw
  rw [h.clOf]

end

theorem markTaint_eq (k : Nat) (s : State) : ∃ l, markTaint k s = { s with frm := { s.frm with taint := l } } := by
  unfold markTaint
  split
  · exact ⟨s.frm.taint, rfl⟩
  · exact ⟨_, rfl⟩

theorem markTaint_aeStill (k : Nat) (s : State) : AeStill s (markTaint k s) := by
  obtain ⟨l, e⟩ := markTaint_eq k s
  exact e ▸ ⟨rfl⟩

@[simp] theorem markTaint_ctr (k : Nat) (s : State) : (markTaint k s).ctr = s.ctr := by
  obtain ⟨l, e⟩ := markTaint_eq k s
  exact e ▸ rfl

theorem markTaintIf_aeStill (c : Prop) [Decidable c] (k : Nat) (s : State) : AeStill s (if c then markTaint k s else s) :=
  aeStill_ite (markTaint_aeStill k s) (AeStill.refl s)

/-! What changes one cluster -/

/-- Between `s` and `t` cluster `k` became `c`; no other cluster changed, and the formula stayed. -/
structure Became (k : Nat) (c : Cluster) (s t : State) : Prop where
  cluster : clOf t k = c
  others : ∀ i, i ≠ k → clOf t i = clOf s i
  active : t.frm.active = s.frm.active

theorem Became.trans {k : Nat} {c d : Cluster} {s t u : State} (h : Became k c s t) (h' : Became k d t u) : Became k d s u :=
  ⟨h'.cluster, fun i hi => (h'.others i hi).trans (h.others i hi), h'.active.trans h.active⟩

theorem AeStill.became {s t : State} (h : AeStill s t) (k : Nat) : Became k (Machine.clOf s k) s t :=
  ⟨h.clOf k, fun i _ => h.clOf i, h.active⟩

theorem clSet_became (k : Nat) (c : Cluster) (s : State) : Became k c s (clSet k c s) :=
  ⟨clOf_clSet k c s, fun _ hi => clOf_clSet_ne c s hi, rfl⟩

/-! The cells of a cluster -/

/-- A stored cell of a cluster. -/
def rawIn (c : Cluster) (y : Bool) (a : Nat) : Cell := FMap.get cell0 (if y then c.y else c.x) a

/-- A cell of a cluster as a context sees it. -/
def seenIn (c : Cluster) (bg y : Bool) (a : Nat) : Cell :=
  (if bg then none else FMap.find c.commit (cellKey y a)).getD (rawIn c y a)

theorem cellRaw_eq (s : State) (k : Nat) (y : Bool) (a : Nat) : cellRaw s k y a = rawIn (clOf s k) y a := rfl
theorem cellView_eq (s : State) (k : Nat) (bg y : Bool) (a : Nat) : cellView s k bg y a = seenIn (clOf s k) bg y a := rfl

theorem seenIn_of_buffered {c : Cluster} {y : Bool} {a : Nat} {v : Cell} (h : FMap.find c.commit (cellKey y a) = some v) :
    seenIn c false y a = v := by
  unfold seenIn
  rw [if_neg Bool.false_ne_true, h]
  rfl

theorem seenIn_of_stored {c : Cluster} {bg y : Bool} {a : Nat} (h : bg = true ∨ FMap.find c.commit (cellKey y a) = none) :
    seenIn c bg y a = rawIn c y a := by
  unfold seenIn
  rcases h with rfl | h
  · rfl
  · rw [h, ite_self]
    rfl

/-- A cluster with one stored cell replaced. -/
def withCell (y : Bool) (a : Nat) (v : Cell) (c : Cluster) : Cluster :=
  if y then { c with y := FMap.put cell0 c.y a v } else { c with x := FMap.put cell0 c.x a v }

@[simp] theorem withCell_commit (y : Bool) (a : Nat) (v : Cell) (c : Cluster) : (withCell y a v c).commit = c.commit := by
  cases y <;> rfl
@[simp] theorem withCell_written (y : Bool) (a : Nat) (v : Cell) (c : Cluster) : (withCell y a v c).written = c.written := by
  cases y <;> rfl
@[simp] theorem withCell_fg (y : Bool) (a : Nat) (v : Cell) (c : Cluster) : (withCell y a v c).fg = c.fg := by cases y <;> rfl
@[simp] theorem withCell_bg (y : Bool) (a : Nat) (v : Cell) (c : Cluster) : (withCell y a v c).bg = c.bg := by cases y <;> rfl

theorem cellStore_became (k : Nat) (y : Bool) (a : Nat) (v : Cell) (s : State) :
    Became k (withCell y a v (clOf s k)) s (cellStore k y a v s) := clSet_became _ _ _

/-- A stored cell read after one was replaced. -/
theorem rawIn_withCell (c : Cluster) (y z : Bool) (a b : Nat) (v : Cell) :
    rawIn (withCell y a v c) z b = if z = y ∧ b = a then v else rawIn c z b := by
  unfold rawIn
  by_cases hb : b = a
  · subst hb
    cases y <;> cases z <;> simp [withCell]
  · cases y <;> cases z <;> simp [withCell, hb, get_put_ne]

theorem cellRaw_cellStore (k : Nat) (y z : Bool) (a b : Nat) (v : Cell) (s : State) :
    cellRaw (cellStore k y a v s) k z b = if z = y ∧ b = a then v else cellRaw s k z b := by
  rw [cellRaw_eq, (cellStore_became k y a v s).cluster]
  exact rawIn_withCell _ y z a b v

theorem cellRaw_cellStore_same (k : Nat) (y : Bool) (a : Nat) (v : Cell) (s : State) :
    cellRaw (cellStore k y a v s) k y a = v := by
  rw [cellRaw_cellStore, if_pos ⟨rfl, rfl⟩]

/-! One read (R159) -/

section
variable {k a : Nat} {bg y : Bool} {s : State}

theorem cellDeliver_of_sound (h : (cellRaw s k y a).ecc = 0) : cellDeliver k bg y a s = (cellRaw s k y a, s) := if_pos h

theorem cellDeliver_of_corrected (h : (cellRaw s k y a).ecc = 1) : cellDeliver k bg y a s
    = ({ cellRaw s k y a with ecc := 0 }, count 0x402 k (cellStore k y a { cellRaw s k y a with ecc := 0 } s)) := by
  unfold cellDeliver
  dsimp only
  rw [if_neg (by rw [h]; decide), if_pos h]

/-- An uncorrectable error is counted and reported; the clusters stay. -/
theorem uncorrectable_aeStill (d : BitVec 256) (s : State) (k : Nat) :
    AeStill s (raiseErr 0x03 4 k 3 d (count 0x403 k { s with fresh := s.fresh + 1 })) :=
  raiseErr_aeStill _ _ _ _ _ (count_aeStill _ _ ⟨rfl⟩)

theorem cellDeliver_of_uncorrectable (h : (cellRaw s k y a).ecc = 2) : cellDeliver k bg y a s
    = (cellMiss, raiseErr 0x03 4 k 3
      (errDetail [(1, if y then 1 else 0), (15, a), (7, (Config.freeValue 2 s.fresh).toNat), (1, if bg then 1 else 0)])
      (count 0x403 k { s with fresh := s.fresh + 1 })) := by
  unfold cellDeliver
  dsimp only
  rw [if_neg (by rw [h]; decide), if_neg (by rw [h]; decide)]

variable {pc : Nat}

theorem rangeError_aeStill (k : Nat) (bg y : Bool) (a pc : Nat) (s : State) : AeStill s (rangeError k bg y a pc s) :=
  raiseErr_aeStill _ _ _ _ _ (AeStill.refl s)

theorem cellRead_of_unreachable (h : mayReach s k bg y a = false) :
    cellRead k bg y pc a s = (cellMiss, rangeError k bg y a pc s) := if_pos (by rw [h]; rfl)

/-- The foreground reads its own write to a held range from the commit buffer. -/
theorem cellRead_of_buffered {v : Cell} (h : mayReach s k false y a = true)
    (hv : FMap.find (clOf s k).commit (cellKey y a) = some v) :
    cellRead k false y pc a s = (v, if v.taint && !false then markTaint k s else s) := by
  simp [cellRead, h, hv]

theorem cellRead_of_stored (h : mayReach s k bg y a = true) (hn : bg = true ∨ FMap.find (clOf s k).commit (cellKey y a) = none) :
    let r := cellDeliver k bg y a s
    cellRead k bg y pc a s = (r.1, if r.1.taint && !bg then markTaint k r.2 else r.2) := by
  have hc : (if bg then none else FMap.find (clOf s k).commit (cellKey y a)) = none := by
    rcases hn with rfl | hn
    · rfl
    · rw [hn, ite_self]
  simp [cellRead, h, hc]

end

/-! One write (R180, R184) -/

/-- A cluster with a cell in its commit buffer. -/
def withCommit (key : Nat) (v : Cell) (c : Cluster) : Cluster := { c with commit := FMap.set c.commit key v }

/-- A cluster that has noted a cell as written by its program. -/
def withWritten (key : Nat) (c : Cluster) : Cluster :=
  if c.written.contains key then c else { c with written := key :: c.written }

/-- The cluster that a write leaves: as it was where the cell is out of reach; for the background the cell stored; for the
foreground the cell in the commit buffer of a held range, or stored and noted outside the output ranges and in a range of
weights or estimates. -/
def afterWrite (s : State) (k : Nat) (bg y : Bool) (a : Nat) (v : Cell) (c : Cluster) : Cluster :=
  if !mayReach s k bg y a then c
  else if bg then withCell y a v c
  else match outRangeOf s k y a with
    | some r =>
      if heldRange s r then withCommit (cellKey y a) v c
      else withCell y a v (if r.kind = 3 ∨ r.kind = 4 then withWritten (cellKey y a) c else c)
    | none => withCell y a v (withWritten (cellKey y a) c)

theorem cellWrite_of_unreachable {k a : Nat} {bg y : Bool} {v : Cell} {s : State} {pc : Nat} (h : mayReach s k bg y a = false) :
    cellWrite k bg y pc a v s = rangeError k bg y a pc s := if_pos (by rw [h]; rfl)

/-- What a write does (R179, R180, R184, R191). -/
theorem cellWrite_became (k : Nat) (bg y : Bool) (pc a : Nat) (v : Cell) (s : State) :
    Became k (afterWrite s k bg y a v (clOf s k)) s (cellWrite k bg y pc a v s) := by
  unfold afterWrite
  split
  next h => exact (cellWrite_of_unreachable (by simpa using h)) ▸ (rangeError_aeStill k bg y a pc s).became k
  next h =>
    unfold cellWrite
    rw [if_neg h]
    split
    · exact cellStore_became k y a v s
    · extract_lets s1 c note
      have h1 : AeStill s s1 := markTaintIf_aeStill _ k s
      have hn : Became k (withWritten (cellKey y a) (clOf s k)) s (note s1) := by
        unfold withWritten
        rw [← h1.clOf k]
        unfold note
        split
        · exact ⟨rfl, fun i _ => h1.clOf i, h1.active⟩
        · exact (h1.became k).trans (clSet_became k _ s1)
      have stored : ∀ {d u}, Became k d s u → Became k (withCell y a v d) s (cellStore k y a v u) := fun hd =>
        hd.cluster ▸ hd.trans (cellStore_became k y a v _)
      rw [outRangeOf_congr h1.active]
      cases outRangeOf s k y a with
      | some r =>
        dsimp only
        rw [heldRange_congr h1.active]
        split
        · rw [← h1.clOf k]
          exact (h1.became k).trans (clSet_became k _ s1)
        · refine stored ?_
          split
          · exact hn
          · exact h1.became k
      | none => exact stored hn

section
variable {k a : Nat} {bg y : Bool} {v : Cell} {s : State}

theorem afterWrite_of_held {r : OutRange} (h : mayReach s k false y a = true) (ho : outRangeOf s k y a = some r)
    (hr : heldRange s r = true) (c : Cluster) : afterWrite s k false y a v c = withCommit (cellKey y a) v c := by
  simp [afterWrite, h, ho, hr]

theorem withWritten_eq (key : Nat) (c : Cluster) : ∃ l, withWritten key c = { c with written := l } := by
  unfold withWritten
  split
  · exact ⟨c.written, rfl⟩
  · exact ⟨_, rfl⟩

/-- Where the range is not held, the cell itself is replaced, and what the program wrote may be noted. -/
theorem afterWrite_of_stored (h : mayReach s k bg y a = true)
    (hn : bg = true ∨ ∀ r, outRangeOf s k y a = some r → heldRange s r = false) (c : Cluster) :
    ∃ l, afterWrite s k bg y a v c = withCell y a v { c with written := l } := by
  unfold afterWrite
  rw [if_neg (by rw [h]; exact Bool.false_ne_true)]
  obtain ⟨l, hl⟩ := withWritten_eq (cellKey y a) c
  rcases hn with rfl | hn
  · exact ⟨c.written, rfl⟩
  · split
    · exact ⟨c.written, rfl⟩
    · split
      next r hr =>
        rw [if_neg (by rw [hn r hr]; exact Bool.false_ne_true), hl]
        split
        · exact ⟨l, rfl⟩
        · exact ⟨c.written, rfl⟩
      next => exact ⟨l, by rw [hl]⟩

end

/-- Settles O26: reads and writes by the state of the cell and its range. -/
theorem cellAccessRules : Obligations.CellAccessRules := by
  intro k bg y pc cell v s _
  refine ⟨fun h => ?_, fun h he hn => ?_, fun h he hn => ?_, fun r h ho hr => ?_⟩
  · rw [cellRead_of_unreachable h, cellWrite_of_unreachable h]
    exact ⟨rfl, rfl⟩
  · rw [cellRead_of_stored h hn, cellDeliver_of_corrected he]
    refine ⟨rfl, ?_, ?_⟩
    · rw [(markTaintIf_aeStill _ k _).cellRaw]
      exact cellRaw_cellStore_same k y cell _ s
    · dsimp only
      split
      · exact markTaint_ctr k _
      · rfl
  · rw [cellRead_of_stored h hn, cellDeliver_of_uncorrectable he]
    dsimp only
    rw [if_neg (by simp [cellMiss])]
    exact ⟨rfl, (uncorrectable_aeStill _ s k).ae, _, rfl⟩
  · rw [cellRaw_eq, cellView_eq, (cellWrite_became k false y pc cell v s).cluster, afterWrite_of_held h ho hr]
    exact ⟨rfl, seenIn_of_buffered (find_set_eq _ _ _)⟩

/-! Many cells stored -/

/-- Cells stored in order. -/
def storeCells (j : Nat) (l : List ((Bool × Nat) × Cell)) (s : State) : State :=
  l.foldl (fun u p => cellStore j p.1.1 p.1.2 p.2 u) s

section
variable {j : Nat}

@[simp] theorem storeCells_frm (l : List ((Bool × Nat) × Cell)) (s : State) : (storeCells j l s).frm = s.frm := by
  induction l generalizing s with
  | nil => rfl
  | cons p t ih => exact ih _

theorem clOf_storeCells_ne {i : Nat} (h : i ≠ j) (l : List ((Bool × Nat) × Cell)) (s : State) :
    clOf (storeCells j l s) i = clOf s i := by
  induction l generalizing s with
  | nil => rfl
  | cons p t ih => exact (ih _).trans ((cellStore_became ..).others i h)

/-- What storing a cell does not look at, storing cells leaves. -/
theorem clOf_storeCells_field {α : Type} {f : Cluster → α} (hf : ∀ y a v c, f (withCell y a v c) = f c)
    (l : List ((Bool × Nat) × Cell)) (s : State) : f (clOf (storeCells j l s) j) = f (clOf s j) := by
  induction l generalizing s with
  | nil => rfl
  | cons p t ih =>
    refine (ih _).trans ?_
    rw [(cellStore_became ..).cluster, hf]

variable {l : List ((Bool × Nat) × Cell)} {q : Bool × Nat}

theorem cellRaw_storeCells_of_not_mem (h : ∀ p ∈ l, p.1 ≠ q) (s : State) :
    cellRaw (storeCells j l s) j q.1 q.2 = cellRaw s j q.1 q.2 := by
  induction l generalizing s with
  | nil => rfl
  | cons p t ih =>
    refine (ih (fun x hx => h x (List.mem_cons_of_mem p hx)) _).trans ?_
    rw [cellRaw_cellStore, if_neg]
    exact fun hq => h p List.mem_cons_self (Prod.ext hq.1.symm hq.2.symm)

theorem cellRaw_storeCells_of_mem {v : Cell} (hm : (q, v) ∈ l) (hu : ∀ p ∈ l, p.1 = q → p.2 = v) (s : State) :
    cellRaw (storeCells j l s) j q.1 q.2 = v := by
  induction l generalizing s with
  | nil => cases hm
  | cons p t ih =>
    by_cases ht : ∃ p ∈ t, p.1 = q
    · obtain ⟨r, hr, e⟩ := ht
      obtain rfl := hu r (List.mem_cons_of_mem p hr) e
      exact ih (e ▸ hr) (fun x hx => hu x (List.mem_cons_of_mem p hx)) _
    · have hp : p = (q, v) := by
        rcases List.mem_cons.1 hm with hp | hp
        · exact hp.symm
        · exact absurd ⟨_, hp, rfl⟩ ht
      subst hp
      exact (cellRaw_storeCells_of_not_mem (fun x hx e => ht ⟨x, hx, e⟩) _).trans (cellRaw_cellStore_same _ _ _ _ _)

end

/-! Keys of cells -/

/-- The cell that a key of the per-cluster cell lists names. -/
def cellOfKey (key : Nat) : Bool × Nat := (decide (32768 ≤ key), key % 32768)

theorem cellOfKey_cellKey (y : Bool) {a : Nat} (h : a < 32768) : cellOfKey (cellKey y a) = (y, a) := by
  cases y <;> simp [cellOfKey, cellKey] <;> omega

theorem cellKey_of_cellOfKey {y : Bool} {a key : Nat} (h : key < 65536) (e : cellOfKey key = (y, a)) : key = cellKey y a := by
  obtain ⟨rfl, rfl⟩ := Prod.mk.inj e
  unfold cellKey
  split
  next hy => have := of_decide_eq_true hy; omega
  next hy => have := of_decide_eq_false (Bool.eq_false_iff.2 hy); omega

/-! The stop of a cluster (R179) -/

/-- The cells of the output ranges that a stop replaces. -/
def substCells (s : State) (outs : List OutRange) : List (Bool × Nat) :=
  outs.flatMap (fun r => if r.kind = 0 || heldRange s r then [] else (List.range r.count).map (fun i => (r.y, r.first + i)))

theorem mem_substCells {s : State} {outs : List OutRange} {q : Bool × Nat} : q ∈ substCells s outs ↔
    ∃ r ∈ outs, r.kind ≠ 0 ∧ heldRange s r = false ∧ ∃ i, i < r.count ∧ q = (r.y, r.first + i) := by
  unfold substCells
  rw [List.mem_flatMap]
  refine exists_congr fun r => and_congr_right fun _ => ?_
  split
  next h =>
    refine iff_of_false List.not_mem_nil fun hr => ?_
    rw [decide_eq_false hr.1, hr.2.1] at h
    exact absurd h Bool.false_ne_true
  next h =>
    simp only [Bool.or_eq_true, decide_eq_true_eq, not_or, Bool.not_eq_true] at h
    simp only [List.mem_map, List.mem_range, eq_comm (a := q), ne_eq, h, not_false_eq_true, true_and]

/-- Every cell that a stop leaves as zero with MISS. -/
def stoppedCells (s : State) (j : Nat) : List (Bool × Nat) :=
  (clOf s j).written.map cellOfKey ++ substCells s (clEntry s j).outs

/-- These cells as a stop stores them. -/
def missCells (l : List (Bool × Nat)) : List ((Bool × Nat) × Cell) := l.map (fun q => (q, cellMiss))

theorem storeCells_append (j : Nat) (l m : List ((Bool × Nat) × Cell)) (s : State) :
    storeCells j (l ++ m) s = storeCells j m (storeCells j l s) := List.foldl_append

/-- Cells stopped one by one. -/
theorem foldl_stopCell {α : Type} (j : Nat) (f : α → Bool × Nat) (l : List α) (s : State) :
    l.foldl (fun u x => stopCell j (f x).1 (f x).2 u) s = storeCells j (missCells (l.map f)) s := by
  unfold storeCells missCells
  rw [List.foldl_map, List.foldl_map]
  rfl

theorem aeSubstOne_eq (j : Nat) (s : State) : aeSubstOne j s = storeCells j (missCells (substCells s (clEntry s j).outs)) s := by
  unfold aeSubstOne
  generalize (clEntry s j).outs = outs
  suffices h : ∀ u : State, u.frm.active = s.frm.active → outs.foldl (fun u r =>
      if r.kind = 0 || heldRange u r then u
      else (List.range r.count).foldl (fun u i => stopCell j r.y (r.first + i) u) u) u
        = storeCells j (missCells (substCells s outs)) u from h s rfl
  induction outs with
  | nil => exact fun _ _ => rfl
  | cons r t ih =>
    intro u hu
    have hcons : missCells (substCells s (r :: t)) = missCells (if r.kind = 0 || heldRange s r then []
        else (List.range r.count).map (fun i => (r.y, r.first + i))) ++ missCells (substCells s t) := by
      unfold substCells
      rw [List.flatMap_cons]
      exact List.map_append
    rw [List.foldl_cons, heldRange_congr hu, hcons, storeCells_append]
    split
    · exact ih u hu
    · rw [foldl_stopCell j (fun i => (r.y, r.first + i))]
      exact ih _ ((congrArg FrmSt.active (storeCells_frm _ u)).trans hu)

/-- Where a cluster stands once its unfinished program has been dropped. -/
def withoutProgram (c : Cluster) : Cluster :=
  { c with fg := ctxReset, commit := [], written := [], done := false, suspReq := false, suspended := false }

theorem dropVersions_clOf (s : State) (i : Nat) : clOf (dropVersions s) i = clOf s i := rfl

theorem substCells_congr {s t : State} (h : t.frm.active = s.frm.active) (outs : List OutRange) :
    substCells t outs = substCells s outs := by
  unfold substCells
  simp only [heldRange_congr h]

/-- The state of a stop once the cells written are zero with MISS. -/
def stopWritten (j : Nat) (s : State) : State := storeCells j (missCells ((clOf s j).written.map cellOfKey)) s

/-- A stop in three parts: the cells written, the program, the cells of the output ranges. -/
theorem clOf_aeStopOne (j i : Nat) (s : State) : clOf (aeStopOne j s) i =
    clOf (storeCells j (missCells (substCells s (clEntry s j).outs))
      (clSet j (withoutProgram (clOf (stopWritten j s) j)) (stopWritten j s))) i := by
  have hw : (clOf s j).written.foldl (fun u key => stopCell j (decide (32768 ≤ key)) (key % 32768) u) s = stopWritten j s :=
    foldl_stopCell j cellOfKey _ s
  have ha : (clSet j (withoutProgram (clOf (stopWritten j s) j)) (stopWritten j s)).frm.active = s.frm.active :=
    congrArg FrmSt.active (storeCells_frm _ s)
  rw [← substCells_congr ha, ← clEntry_congr ha, ← aeSubstOne_eq, ← hw]
  unfold aeStopOne
  dsimp only
  split
  · exact dropVersions_clOf _ i
  · rfl

theorem cellRaw_of_clOf {s t : State} {k : Nat} (h : clOf t k = clOf s k) (y : Bool) (a : Nat) :
    cellRaw t k y a = cellRaw s k y a := by
  unfold cellRaw
  rw [h]

/-- What does not touch the two memories of a cluster leaves its stored cells. -/
theorem cellRaw_clSet {k : Nat} {c : Cluster} {s : State} (hx : c.x = (clOf s k).x) (hy : c.y = (clOf s k).y) (y : Bool)
    (a : Nat) : cellRaw (clSet k c s) k y a = cellRaw s k y a := by
  unfold cellRaw
  rw [clOf_clSet, hx, hy]

theorem cellRaw_storeCells_miss (j : Nat) (l : List (Bool × Nat)) (q : Bool × Nat) (s : State) :
    cellRaw (storeCells j (missCells l) s) j q.1 q.2 = if q ∈ l then cellMiss else cellRaw s j q.1 q.2 := by
  unfold missCells
  split
  next h =>
    refine cellRaw_storeCells_of_mem (List.mem_map.2 ⟨q, h, rfl⟩) (fun p hp _ => ?_) s
    obtain ⟨x, -, rfl⟩ := List.mem_map.1 hp
    rfl
  next h =>
    refine cellRaw_storeCells_of_not_mem (fun p hp e => ?_) s
    obtain ⟨x, hx, rfl⟩ := List.mem_map.1 hp
    exact h (e ▸ hx)

theorem cellRaw_aeStopOne (j : Nat) (q : Bool × Nat) (s : State) :
    cellRaw (aeStopOne j s) j q.1 q.2 = if q ∈ stoppedCells s j then cellMiss else cellRaw s j q.1 q.2 := by
  rw [cellRaw_of_clOf (clOf_aeStopOne j j s), cellRaw_storeCells_miss,
    cellRaw_clSet (c := withoutProgram _) rfl rfl, stopWritten, cellRaw_storeCells_miss]
  unfold stoppedCells
  by_cases h : q ∈ substCells s (clEntry s j).outs
  · rw [if_pos h, if_pos (List.mem_append_right _ h)]
  · simp only [h, List.mem_append, or_false, if_false]

theorem aeStopOne_drops (j : Nat) (s : State) :
    (clOf (aeStopOne j s) j).commit = [] ∧ (clOf (aeStopOne j s) j).written = [] := by
  rw [clOf_aeStopOne, clOf_storeCells_field withCell_commit, clOf_storeCells_field withCell_written, clOf_clSet]
  exact ⟨rfl, rfl⟩

theorem clOf_aeStopOne_ne {i j : Nat} (h : i ≠ j) (s : State) : clOf (aeStopOne j s) i = clOf s i := by
  rw [clOf_aeStopOne, clOf_storeCells_ne h, clOf_clSet_ne _ _ h, stopWritten, clOf_storeCells_ne h]

/-! The commit of a cluster (R180) -/

theorem find_of_mem {α : Type} {m : FMap α} (hs : FMap.sorted m = true) {p : Nat × α} (hp : p ∈ m) :
    FMap.find m p.1 = some p.2 := by
  induction m with
  | nil => cases hp
  | cons q t ih =>
    obtain ⟨hlt, ht⟩ := sorted_cons.1 hs
    rcases List.mem_cons.1 hp with rfl | hp
    · exact if_pos rfl
    · exact (if_neg (Nat.ne_of_lt (hlt p hp))).trans (ih ht hp)

theorem mem_of_find {α : Type} {m : FMap α} {k : Nat} {v : α} (h : FMap.find m k = some v) : (k, v) ∈ m := by
  induction m with
  | nil => cases h
  | cons q t ih =>
    unfold FMap.find at h
    split at h
    next hk => cases h; subst hk; exact List.mem_cons_self
    next => exact List.mem_cons_of_mem q (ih h)

/-- A cluster whose commit buffer has gone to its cells. -/
def withoutCommit (c : Cluster) : Cluster := { c with commit := [], written := [] }

/-- The state of a commit once the buffer is in the cells. -/
def commitStored (j : Nat) (s : State) : State := storeCells j ((clOf s j).commit.map (fun p => (cellOfKey p.1, p.2))) s

theorem clOf_aeCommitOne (j i : Nat) (s : State) : clOf (aeCommitOne j s) i
    = clOf (clSet j (withoutCommit (clOf (commitStored j s) j)) (commitStored j s)) i := by
  have hc : (clOf s j).commit.foldl (fun u p => cellStore j (decide (32768 ≤ p.1)) (p.1 % 32768) p.2 u) s = commitStored j s := by
    unfold commitStored storeCells
    rw [List.foldl_map]
    rfl
  rw [← hc]
  unfold aeCommitOne
  dsimp only
  split
  · exact ((raiseEv_aeStill _ _ _ (count_aeStill _ _ (AeStill.refl _))).clOf i).trans rfl
  · rfl

/-- What the foreground sees of a cell is what the commit stores in it. -/
theorem cellRaw_commitStored {j a : Nat} {s : State} (hs : FMap.sorted (clOf s j).commit = true)
    (hk : ∀ p ∈ (clOf s j).commit, p.1 < 65536) (y : Bool) (ha : a < 32768) :
    cellRaw (commitStored j s) j y a = cellView s j false y a := by
  unfold cellView
  rw [if_neg Bool.false_ne_true]
  have hkey : ∀ p ∈ (clOf s j).commit.map (fun p => (cellOfKey p.1, p.2)), p.1 = (y, a) →
      FMap.find (clOf s j).commit (cellKey y a) = some p.2 := by
    intro p hp e
    obtain ⟨r, hr, rfl⟩ := List.mem_map.1 hp
    rw [← cellKey_of_cellOfKey (hk r hr) e]
    exact find_of_mem hs hr
  cases hf : FMap.find (clOf s j).commit (cellKey y a) with
  | none =>
    refine cellRaw_storeCells_of_not_mem (q := (y, a)) (fun p hp e => ?_) s
    rw [hkey p hp e] at hf
    cases hf
  | some v =>
    refine cellRaw_storeCells_of_mem (q := (y, a)) (List.mem_map.2 ⟨_, mem_of_find hf, ?_⟩) (fun p hp e => ?_) s
    · exact Prod.ext (cellOfKey_cellKey y ha) rfl
    · exact Option.some.inj ((hkey p hp e).symm.trans hf)

/-- Settles O29: a stop stores zero with MISS in exactly the cells written and the output ranges that are not held; a commit
stores its buffer. -/
theorem stopsAndCommits : Obligations.StopsAndCommits := by
  intro j s
  refine ⟨fun key hkey _ => ?_, fun y a ha hw hlt hr => ?_, aeStopOne_drops j s, fun i hi => clOf_aeStopOne_ne hi s,
    fun hs hk => ⟨fun y a ha => ?_, ?_, fun i hi => ?_⟩⟩
  · refine (cellRaw_aeStopOne j (cellOfKey key) s).trans (if_pos (List.mem_append.2 ?_))
    rcases hkey with hw | ⟨r, hr, hk, hh, i, hi, rfl, hlt⟩
    · exact .inl (List.mem_map_of_mem hw)
    · exact .inr (mem_substCells.2 ⟨r, hr, hk, hh, i, hi, cellOfKey_cellKey r.y hlt⟩)
  · refine (cellRaw_aeStopOne j (y, a) s).trans (if_neg fun hm => ?_)
    rcases List.mem_append.1 hm with hm | hm
    · obtain ⟨key, hm, e⟩ := List.mem_map.1 hm
      exact hw (cellKey_of_cellOfKey (hlt key hm) e ▸ hm)
    · obtain ⟨r, hr', hk, hh, i, hi, e⟩ := mem_substCells.1 hm
      obtain ⟨rfl, rfl⟩ := Prod.mk.inj e
      exact hr r hr' hk hh i hi rfl
  · rw [cellRaw_of_clOf (clOf_aeCommitOne j j s), cellRaw_clSet (c := withoutCommit _) rfl rfl,
      cellRaw_commitStored hs hk y ha]
  · rw [clOf_aeCommitOne, clOf_clSet]
    rfl
  · rw [clOf_aeCommitOne, clOf_clSet_ne _ _ hi, commitStored, clOf_storeCells_ne hi]

end Sys2Proof.Machine
end

section
/-! What an instruction leaves in the accumulators and the cells of its cluster (R165 to R172, R181, R190 to R200). -/

namespace Sys2Proof.Machine
open Sys2Proof

/-! Reads of cells that are reachable and sound -/

section
variable {s t : State} (h : AeStill s t)
include h

theorem AeStill.ctxGet (k : Nat) (bg : Bool) : ctxGet t k bg = ctxGet s k bg := by unfold Machine.ctxGet; rw [h.clOf]
theorem AeStill.clearsNow (k : Nat) (bg : Bool) (w : AeW) : clearsNow t k bg w = clearsNow s k bg w := by
  unfold Machine.clearsNow
  rw [h.ctxGet]
theorem AeStill.cellView (k : Nat) (bg y : Bool) (a : Nat) : cellView t k bg y a = cellView s k bg y a := by
  unfold Machine.cellView
  rw [h.clOf, h.cellRaw]
theorem AeStill.soundReads {k : Nat} {bg y : Bool} {l : List Nat} (hl : SoundReads s k bg y l) : SoundReads t k bg y l := by
  unfold SoundReads
  simp only [mayReach_congr h.active, h.clOf, h.cellRaw]
  exact hl

end

section
variable {s : State} {k : Nat} {bg y : Bool}

/-- A sound read delivers what the context sees and leaves the clusters as they were. -/
theorem cellRead_of_sound {a : Nat} (h : SoundReads s k bg y [a]) (pc : Nat) :
    (cellRead k bg y pc a s).1 = cellView s k bg y a ∧ AeStill s (cellRead k bg y pc a s).2 := by
  obtain ⟨hr, hs⟩ := h a List.mem_cons_self
  by_cases hb : bg = true ∨ FMap.find (clOf s k).commit (cellKey y a) = none
  · have he : (cellRaw s k y a).ecc = 0 := by
      rcases hs with ⟨rfl, hs⟩ | hs
      · rcases hb with hb | hb
        · cases hb
        · rw [hb] at hs; cases hs
      · exact hs
    rw [cellRead_of_stored hr hb, cellDeliver_of_sound he, cellView_eq, seenIn_of_stored hb]
    exact ⟨rfl, markTaintIf_aeStill _ k s⟩
  · rw [not_or, Bool.not_eq_true] at hb
    obtain ⟨rfl, hf⟩ := hb
    obtain ⟨v, hv⟩ := Option.ne_none_iff_exists'.1 hf
    rw [cellRead_of_buffered hr hv, cellView_eq, seenIn_of_buffered hv]
    exact ⟨rfl, markTaintIf_aeStill _ k s⟩

/-- One read of several: its cell is kept with those read before. -/
def readStep (k : Nat) (bg y : Bool) (pc : Nat) (p : Array Cell × State) (a : Nat) : Array Cell × State :=
  (p.1.push (cellRead k bg y pc a p.2).1, (cellRead k bg y pc a p.2).2)

/-- Sound reads deliver what the context sees, in order. -/
theorem cellsRead_of_sound {u : State} {l : List Nat} (hu : AeStill s u) (h : SoundReads s k bg y l) (pc : Nat) :
    (cellsRead k bg y pc l u).1 = (l.map (cellView s k bg y)).toArray ∧ AeStill s (cellsRead k bg y pc l u).2 := by
  suffices hgen : ∀ p : Array Cell × State, AeStill s p.2 →
      (l.foldl (readStep k bg y pc) p).1 = p.1 ++ (l.map (cellView s k bg y)).toArray
        ∧ AeStill s (l.foldl (readStep k bg y pc) p).2 by
    obtain ⟨h1, h2⟩ := hgen (#[], u) hu
    exact ⟨h1.trans (by simp), h2⟩
  induction l with
  | nil => exact fun p hp => ⟨by simp, hp⟩
  | cons a t ih =>
    intro p hp
    have ha : SoundReads s k bg y [a] := fun x hx => h x (List.mem_singleton.1 hx ▸ List.mem_cons_self)
    obtain ⟨h1, h2⟩ := cellRead_of_sound (hp.soundReads ha) pc
    obtain ⟨h3, h4⟩ := ih (fun x hx => h x (List.mem_cons_of_mem a hx)) (readStep k bg y pc p a) (hp.trans h2)
    refine ⟨h3.trans ?_, h4⟩
    unfold readStep
    rw [h1, hp.cellView]
    simp

end

theorem getD_toArray (l : List Cell) (i : Nat) : l.toArray.getD i cell0 = l.getD i cell0 := by simp

/-- The one coefficient of a TAP. -/
theorem coef_of_sound {s : State} {k p : Nat} {bg y : Bool} (h : SoundReads s k bg y [p]) (pc : Nat) :
    (cellsRead k bg y pc [p] s).1.getD 0 cell0 = cellView s k bg y p ∧ AeStill s (cellsRead k bg y pc [p] s).2 := by
  obtain ⟨v, a⟩ := cellsRead_of_sound (AeStill.refl s) h pc
  exact ⟨by rw [v]; rfl, a⟩

/-! Accumulators -/

/-- A read after the accumulator of every lane has been written. -/
theorem get_foldl_put {α : Type} [DecidableEq α] (d : α) (f : Nat → α) (base n q : Nat) (m : FMap α) :
    FMap.get d ((List.range n).foldl (fun m l => FMap.put d m (base + l) (f l)) m) q
      = if base ≤ q ∧ q < base + n then f (q - base) else FMap.get d m q := by
  induction n with
  | zero => rw [if_neg (by omega)]; rfl
  | succ n ih =>
    rw [List.range_succ, List.foldl_append]
    by_cases hq : q = base + n
    · subst hq
      rw [if_pos (by omega)]
      exact (get_put_eq d _ _ _).trans (by rw [Nat.add_sub_cancel_left])
    · refine (get_put_ne d _ _ hq).trans (ih.trans ?_)
      by_cases hin : base ≤ q ∧ q < base + n
      · rw [if_pos hin, if_pos (by omega)]
      · rw [if_neg hin, if_neg (by omega)]

theorem accGet_accAll {k : Nat} {bg : Bool} {a b l : Nat} {f : Nat → Acc} {s : State} (hl : l < 128) :
    accGet (ctxGet (accAll k bg a f s) k bg) b l = if b = a then f l else accGet (ctxGet s k bg) b l := by
  unfold accAll
  dsimp only
  rw [ctxGet_ctxSet]
  unfold accGet
  dsimp only
  rw [get_foldl_put acc0 f]
  by_cases hb : b = a
  · subst hb
    rw [if_pos (by omega), if_pos rfl, Nat.add_sub_cancel_left]
  · rw [if_neg (by omega), if_neg hb]

/-- Between `s` and `t` lane `l` of ACD took a term and of no other accumulator. -/
def TakesTerm (s t : State) (j : Nat) (bg : Bool) (w : AeW) (l : Nat) (m : Term) : Prop :=
  accGet (ctxGet t j bg) w.acd.val l = accTerm (clearsNow s j bg w) (accGet (ctxGet s j bg) w.acd.val l) m
    ∧ ∀ a, a < 8 → a ≠ w.acd.val → accGet (ctxGet t j bg) a l = accGet (ctxGet s j bg) a l

theorem addTerms_takes (j : Nat) (bg : Bool) (w : AeW) (m : Nat → Term) (s : State) {l : Nat} (hl : l < 128) :
    TakesTerm s (addTerms j bg w m s) j bg w l (m l) := by
  have h := markTaintIf_aeStill ((List.range 128).any (fun l => (m l).taint) && !bg) j s
  unfold addTerms
  refine ⟨(accGet_accAll hl).trans (if_pos rfl), fun a _ ha => ((accGet_accAll hl).trans (if_neg ha)).trans ?_⟩
  rw [h.ctxGet]

theorem TakesTerm.of_aeStill {s u t : State} {j : Nat} {bg : Bool} {w : AeW} {l : Nat} {m : Term} (h : AeStill s u)
    (ht : TakesTerm u t j bg w l m) : TakesTerm s t j bg w l m := by
  unfold TakesTerm at ht
  rwa [h.ctxGet, h.clearsNow] at ht

theorem TakesTerm.of_acc {s u t : State} {j : Nat} {bg : Bool} {w : AeW} {l : Nat} {m : Term} (ht : TakesTerm s u j bg w l m)
    (h : (ctxGet t j bg).acc = (ctxGet u j bg).acc) : TakesTerm s t j bg w l m := by
  unfold TakesTerm accGet at *
  rwa [h]

theorem postModify_acc (c : Ctx) (y raw : Bool) (mode r : Nat) : (postModify c y raw mode r).acc = c.acc := by
  unfold postModify
  dsimp only
  split <;> rfl

theorem postModifies_acc (k : Nat) (bg raw : Bool) (w : AeW) (s : State) :
    (ctxGet (postModifies k bg raw w s) k bg).acc = (ctxGet s k bg).acc := by
  unfold postModifies
  dsimp only
  rw [ctxGet_ctxSet, postModify_acc, postModify_acc]

/-- A term is taken after reads, before the pointers move. -/
theorem TakesTerm.between {s u : State} {j l : Nat} {bg raw : Bool} {w : AeW} {m : Nat → Term} (h : AeStill s u)
    (hl : l < 128) : TakesTerm s (postModifies j bg raw w (addTerms j bg w m u)) j bg w l (m l) :=
  ((addTerms_takes j bg w m u hl).of_aeStill h).of_acc (postModifies_acc j bg raw w _)

/-! Writes of cells -/

/-- A write leaves what neither storing a cell nor noting one looks at. -/
theorem afterWrite_field {α : Type} {f : Cluster → α} (hs : ∀ y a v c, f (withCell y a v c) = f c)
    (hw : ∀ l c, f { c with written := l } = f c) (hc : ∀ key v c, f (withCommit key v c) = f c)
    (s : State) (k : Nat) (bg y : Bool) (a : Nat) (v : Cell) (c : Cluster) : f (afterWrite s k bg y a v c) = f c := by
  cases hr : mayReach s k bg y a with
  | false => exact congrArg f (if_pos (by rw [hr]; rfl))
  | true =>
    by_cases hn : bg = true ∨ ∀ r, outRangeOf s k y a = some r → heldRange s r = false
    · obtain ⟨l, e⟩ := afterWrite_of_stored (v := v) hr hn c
      rw [e, hs, hw]
    · push Not at hn
      obtain ⟨hb, r, ho, hh⟩ := hn
      obtain rfl := Bool.eq_false_iff.2 hb
      rw [afterWrite_of_held hr ho (Bool.eq_true_of_not_eq_false hh), hc]

theorem ctxGet_cellsWrite (k : Nat) (bg b y : Bool) (pc : Nat) (l : List (Nat × Cell)) (s : State) :
    ctxGet (cellsWrite k b y pc l s) k bg = ctxGet s k bg := by
  unfold cellsWrite
  induction l generalizing s with
  | nil => rfl
  | cons p t ih =>
    refine (ih _).trans ?_
    unfold ctxGet
    rw [(cellWrite_became k b y pc p.1 p.2 s).cluster, afterWrite_field withCell_fg (fun _ _ => rfl) (fun _ _ _ => rfl),
      afterWrite_field withCell_bg (fun _ _ => rfl) (fun _ _ _ => rfl)]

/-! The terms -/

/-- The cell of a lane of a row that was read. -/
theorem getD_map_rowCells (f : Nat → Cell) (r : Nat) {l : Nat} (hl : l < 128) :
    (((rowCells r).map f).toArray).getD l cell0 = f ((rowCells r).getD l 0) := by
  rw [getD_toArray]
  simp [rowCells, hl]

theorem macBody_takes {bg : Bool} {w : AeW} {j l : Nat} {s : State} (hl : l < 128)
    (hx : SoundReads s j bg false (accessCells w.xm.val (pointerOf (ctxGet s j bg) false w.xr.val)))
    (hy : SoundReads s j bg true (accessCells w.ym.val (pointerOf (ctxGet s j bg) true w.yr.val))) :
    let x := (accessCells w.xm.val (pointerOf (ctxGet s j bg) false w.xr.val)).map (cellView s j bg false)
    let y := (accessCells w.ym.val (pointerOf (ctxGet s j bg) true w.yr.val)).map (cellView s j bg true)
    TakesTerm s (macBody bg w j s) j bg w l
      (macTerm w.j w.k w.n (laneCell w.xm.val x.toArray l) (laneCell w.ym.val y.toArray l)) := by
  dsimp only
  obtain ⟨vx, ax⟩ := cellsRead_of_sound (AeStill.refl s) hx (ctxGet s j bg).pc
  obtain ⟨vy, ay⟩ := cellsRead_of_sound ax hy (ctxGet s j bg).pc
  rw [← vx, ← vy]
  exact TakesTerm.between ay hl

/-- The source cells of an instruction whose memory K selects. -/
theorem selected_cells (w : AeW) (c : Ctx) : (if w.k then accessCells w.ym.val (pointerOf c true w.yr.val)
    else accessCells w.xm.val (pointerOf c false w.xr.val))
      = accessCells (if w.k then w.ym.val else w.xm.val) (pointerOf c w.k (if w.k then w.yr.val else w.xr.val)) := by
  cases w.k <;> rfl

/-- Settles O24: the reads leave the clusters alone, the terms enter every lane of ACD, and what follows leaves the
accumulators. -/
theorem lanesTakeTheirTerms : Obligations.LanesTakeTheirTerms := by
  intro bg w j s l hl
  refine ⟨macBody_takes hl, fun hx => ?_, fun hp hr => ?_, fun hr => ?_, fun clear src => ?_, fun a f => ?_⟩
  · dsimp only at hx ⊢
    rw [selected_cells] at hx ⊢
    obtain ⟨vx, ax⟩ := cellsRead_of_sound (AeStill.refl s) hx (ctxGet s j bg).pc
    rw [← vx]
    exact TakesTerm.between ax hl
  · obtain ⟨hcoef, ap⟩ := coef_of_sound hp (ctxGet s j bg).pc
    rw [← hcoef] at hr ⊢
    obtain ⟨vr, ar⟩ := cellsRead_of_sound ap hr (ctxGet s j bg).pc
    rw [← getD_map_rowCells (cellView s j bg false) _ hl, ← vr]
    refine TakesTerm.of_acc (t := tapBody bg w j s) (TakesTerm.of_aeStill ar
      (addTerms_takes j bg w (fun l => macTerm w.j false w.n (Array.getD _ l cell0) _) _ hl)) ?_
    refine (postModifies_acc j bg false w _).trans ?_
    split
    · rfl
    · rw [ctxGet_cellsWrite]
  · obtain ⟨va, aa⟩ := cellsRead_of_sound (AeStill.refl s) (fun a ha => hr a (List.mem_append_left _ ha)) (ctxGet s j bg).pc
    obtain ⟨vb, ab⟩ := cellsRead_of_sound aa (fun a ha => hr a (List.mem_append_right _ ha)) (ctxGet s j bg).pc
    have hlane := fun r => getD_map_rowCells (cellView s j bg (oneSide w).1) r hl
    rw [← hlane, ← hlane, ← va, ← vb]
    exact TakesTerm.between ab hl
  · have h := markTaintIf_aeStill ((List.range 128).any (fun l => (src l).taint) && !bg) j s
    refine ⟨(accGet_accAll hl).trans (if_pos rfl), fun a _ ha => ((accGet_accAll hl).trans (if_neg ha)).trans ?_⟩
    rw [h.ctxGet]
  · exact ⟨(accGet_accAll hl).trans (if_pos rfl), fun b _ hb => (accGet_accAll hl).trans (if_neg hb)⟩

end Sys2Proof.Machine
end

section
/-! What the instructions that write cells leave in the memories of their cluster (R169 to R172, R180, R181, R194 to R200). -/

namespace Sys2Proof.Machine
open Sys2Proof

/-! What leaves the cells of a cluster alone -/

/-- Between `s` and `t` cluster `k` kept its cells and its commit buffer, and the formula stayed. -/
structure CellsStill (k : Nat) (s t : State) : Prop where
  x : (clOf t k).x = (clOf s k).x
  y : (clOf t k).y = (clOf s k).y
  commit : (clOf t k).commit = (clOf s k).commit
  active : t.frm.active = s.frm.active

section
variable {k : Nat} {s t u : State}

theorem CellsStill.trans (h : CellsStill k s t) (h' : CellsStill k t u) : CellsStill k s u :=
  ⟨h'.x.trans h.x, h'.y.trans h.y, h'.commit.trans h.commit, h'.active.trans h.active⟩

theorem AeStill.cellsStill (h : AeStill s t) (k : Nat) : CellsStill k s t := by
  refine ⟨?_, ?_, ?_, h.active⟩ <;> rw [h.clOf]

theorem CellsStill.cellRaw (h : CellsStill k s t) (y : Bool) (a : Nat) : cellRaw t k y a = cellRaw s k y a := by
  unfold Machine.cellRaw
  rw [h.x, h.y]

theorem CellsStill.cellView (h : CellsStill k s t) (bg y : Bool) (a : Nat) : cellView t k bg y a = cellView s k bg y a := by
  unfold Machine.cellView
  rw [h.commit, h.cellRaw]

theorem CellsStill.commitHeld (h : CellsStill k s t) (hc : CommitHeld s k) : CommitHeld t k := by
  unfold CommitHeld
  simp only [h.commit, outRangeOf_congr h.active, heldRange_congr h.active]
  exact hc

theorem clSet_cellsStill {c : Cluster} (hx : c.x = (clOf s k).x) (hy : c.y = (clOf s k).y) (hc : c.commit = (clOf s k).commit) :
    CellsStill k s (clSet k c s) := by
  refine ⟨?_, ?_, ?_, rfl⟩ <;> rwa [clOf_clSet]

theorem ctxSet_cellsStill (k : Nat) (bg : Bool) (c : Ctx) (s : State) : CellsStill k s (ctxSet k bg c s) := by
  cases bg <;> exact clSet_cellsStill rfl rfl rfl

theorem postModifies_cellsStill (k : Nat) (bg raw : Bool) (w : AeW) (s : State) : CellsStill k s (postModifies k bg raw w s) :=
  ctxSet_cellsStill _ _ _ _

theorem addTerms_cellsStill (k : Nat) (bg : Bool) (w : AeW) (m : Nat → Term) (s : State) : CellsStill k s (addTerms k bg w m s) :=
  ((markTaintIf_aeStill _ k s).cellsStill k).trans (ctxSet_cellsStill _ _ _ _)

theorem roOverflow_cellsStill (k : Nat) (w : AeW) (l : List Acc) (s : State) : CellsStill k s (roOverflow k w l s) := by
  unfold roOverflow
  split
  · exact ((count_aeStill 0x400 k (AeStill.refl s)).cellsStill k).trans (clSet_cellsStill rfl rfl rfl)
  · exact (AeStill.refl s).cellsStill k

/-- A read-out that counts what overflowed and what saturated. -/
theorem counted_cellsStill (k n : Nat) (w : AeW) (l : List Acc) (s : State) :
    CellsStill k s (countBy 0x401 k n (roOverflow k w l s)) :=
  (roOverflow_cellsStill k w l s).trans ((countBy_aeStill (AeStill.refl _) 0x401 k n).cellsStill k)

end

/-! One write -/

theorem cellKey_inj {y z : Bool} {a b : Nat} (ha : a < 32768) (hb : b < 32768) : cellKey z b = cellKey y a ↔ z = y ∧ b = a := by
  refine ⟨fun h => ?_, fun h => by rw [h.1, h.2]⟩
  have e := congrArg cellOfKey h
  rw [cellOfKey_cellKey z hb, cellOfKey_cellKey y ha] at e
  exact Prod.mk.inj e

theorem seenIn_withCell {c : Cluster} {a : Nat} {bg y : Bool} (h : bg = true ∨ FMap.find c.commit (cellKey y a) = none)
    (v : Cell) (z : Bool) (b : Nat) : seenIn (withCell y a v c) bg z b = if z = y ∧ b = a then v else seenIn c bg z b := by
  by_cases hz : z = y ∧ b = a
  · obtain ⟨rfl, rfl⟩ := hz
    rw [seenIn_of_stored (by rwa [withCell_commit]), rawIn_withCell, if_pos ⟨rfl, rfl⟩]
    exact (if_pos ⟨rfl, rfl⟩).symm
  · unfold seenIn
    rw [withCell_commit, rawIn_withCell, if_neg hz, if_neg hz]

theorem find_withCommit {c : Cluster} {y z : Bool} {a b : Nat} (ha : a < 32768) (hb : b < 32768) (v : Cell) :
    FMap.find (withCommit (cellKey y a) v c).commit (cellKey z b)
      = if z = y ∧ b = a then some v else FMap.find c.commit (cellKey z b) := by
  unfold withCommit
  by_cases hz : z = y ∧ b = a
  · rw [if_pos hz, hz.1, hz.2, find_set_eq]
  · rw [if_neg hz, find_set_ne _ _ fun hk => hz ((cellKey_inj ha hb).1 hk)]

theorem seenIn_withCommit {c : Cluster} {y z : Bool} {a b : Nat} (ha : a < 32768) (hb : b < 32768) (v : Cell) :
    seenIn (withCommit (cellKey y a) v c) false z b = if z = y ∧ b = a then v else seenIn c false z b := by
  unfold seenIn
  rw [if_neg Bool.false_ne_true, find_withCommit ha hb]
  split <;> rfl

/-- Between `s` and `t` one cell of cluster `k` was written, as its context sees it. -/
structure WroteCell (s t : State) (k : Nat) (bg y : Bool) (a : Nat) (v : Cell) : Prop where
  view : ∀ z b, b < 32768 → cellView t k bg z b = if z = y ∧ b = a then v else cellView s k bg z b
  held : CommitHeld t k
  active : t.frm.active = s.frm.active

theorem cellWrite_wroteCell {k a : Nat} {bg y : Bool} {s : State} (hc : CommitHeld s k) (ha : a < 32768)
    (hr : mayReach s k bg y a = true) (pc : Nat) (v : Cell) : WroteCell s (cellWrite k bg y pc a v s) k bg y a v := by
  obtain ⟨hcl, -, hact⟩ := cellWrite_became k bg y pc a v s
  by_cases hn : bg = true ∨ ∀ r, outRangeOf s k y a = some r → heldRange s r = false
  · have hfree : bg = true ∨ FMap.find (clOf s k).commit (cellKey y a) = none := by
      refine hn.imp_right fun hn => Option.not_isSome_iff_eq_none.1 fun hf => ?_
      obtain ⟨r, ho, hh⟩ := hc y a ha hf
      exact Bool.false_ne_true ((hn r ho).symm.trans hh)
    obtain ⟨l, e⟩ := afterWrite_of_stored (v := v) hr hn (clOf s k)
    rw [e] at hcl
    refine ⟨fun z b _ => ?_, fun z b hb hf => ?_, hact⟩
    · rw [cellView_eq, hcl]
      exact seenIn_withCell (c := { clOf s k with written := l }) hfree v z b
    · rw [hcl, withCell_commit] at hf
      simp only [outRangeOf_congr hact, heldRange_congr hact]
      exact hc z b hb hf
  · push Not at hn
    obtain ⟨hb, r, ho, hh⟩ := hn
    obtain rfl := Bool.eq_false_iff.2 hb
    have hh := Bool.eq_true_of_not_eq_false hh
    rw [afterWrite_of_held hr ho hh] at hcl
    refine ⟨fun z b hb => ?_, fun z b hb hf => ?_, hact⟩
    · rw [cellView_eq, hcl, seenIn_withCommit ha hb]
      rfl
    · simp only [outRangeOf_congr hact, heldRange_congr hact]
      rw [hcl, find_withCommit ha hb] at hf
      by_cases hz : z = y ∧ b = a
      · exact ⟨r, by rw [hz.1, hz.2]; exact ho, hh⟩
      · rw [if_neg hz] at hf
        exact hc z b hb hf

/-! Writes in order -/

theorem cellAfter_cons (p : Nat × Cell) (l : List (Nat × Cell)) (a : Nat) (old : Cell) :
    cellAfter (p :: l) a old = cellAfter l a (if a = p.1 then p.2 else old) := by
  unfold cellAfter
  rw [List.reverse_cons, List.find?_append]
  cases l.reverse.find? (fun p => p.1 == a) with
  | some x => rfl
  | none =>
    by_cases h : a = p.1
    · simp [h]
    · simp [h, Ne.symm h]

/-- The cells may be written by a context. -/
def Reach (s : State) (k : Nat) (bg y : Bool) (l : List Nat) : Prop := ∀ a ∈ l, a < 32768 ∧ mayReach s k bg y a = true

theorem cellsWrite_wrote {k : Nat} {bg y : Bool} {l : List (Nat × Cell)} {s : State} (hc : CommitHeld s k)
    (hr : Reach s k bg y (l.map Prod.fst)) (pc : Nat) : Wrote s (cellsWrite k bg y pc l s) k bg y l := by
  induction l generalizing s with
  | nil => exact ⟨fun _ _ => rfl, fun _ _ => rfl⟩
  | cons p t ih =>
    obtain ⟨hp, hm⟩ := hr p.1 (List.mem_map_of_mem List.mem_cons_self)
    obtain ⟨hv, hc', ha⟩ := cellWrite_wroteCell hc hp hm pc p.2
    have hr' : Reach (cellWrite k bg y pc p.1 p.2 s) k bg y (t.map Prod.fst) := fun a h => by
      rw [mayReach_congr ha]
      exact hr a (by rw [List.map_cons]; exact List.mem_cons_of_mem _ h)
    obtain ⟨h1, h2⟩ := ih hc' hr'
    refine ⟨fun a hlt => (h1 a hlt).trans ?_, fun a hlt => (h2 a hlt).trans ?_⟩
    · rw [cellAfter_cons, hv y a hlt]
      simp only [true_and]
    · rw [hv (!y) a hlt, if_neg (by simp)]

/-- Cells are written after reads and before the pointers move. -/
theorem wrote_between {k pc : Nat} {bg y raw : Bool} {w : AeW} {l m : List (Nat × Cell)} {s u : State} (hc : CommitHeld s k)
    (hu : CellsStill k s u) (hl : l = m) (hr : Reach s k bg y (m.map Prod.fst)) :
    Wrote s (postModifies k bg raw w (cellsWrite k bg y pc l u)) k bg y m := by
  subst hl
  have hr' : Reach u k bg y (l.map Prod.fst) := fun a h => by
    rw [mayReach_congr hu.active]
    exact hr a h
  obtain ⟨h1, h2⟩ := cellsWrite_wrote (hu.commitHeld hc) hr' pc
  have hp := postModifies_cellsStill k bg raw w (cellsWrite k bg y pc l u)
  exact ⟨fun a ha => by rw [hp.cellView, h1 a ha, hu.cellView], fun a ha => by rw [hp.cellView, h2 a ha, hu.cellView]⟩

/-! The cells that are written -/

theorem Reach.zip {s : State} {k : Nat} {bg y : Bool} {l : List Nat} (h : Reach s k bg y l) (m : List Cell) :
    Reach s k bg y ((l.zip m).map Prod.fst) := fun a ha => by
  obtain ⟨p, hp, rfl⟩ := List.mem_map.1 ha
  exact h p.1 (List.of_mem_zip hp).1

/-- Cells written one by one at the addresses of a list. -/
theorem Reach.map {α : Type} {s : State} {k : Nat} {bg y : Bool} {l : List Nat} (h : Reach s k bg y l) {m : List α}
    {f : α → Nat × Cell} (hf : ∀ x ∈ m, (f x).1 ∈ l) : Reach s k bg y ((m.map f).map Prod.fst) := fun a ha => by
  obtain ⟨p, hp, rfl⟩ := List.mem_map.1 ha
  obtain ⟨x, hx, rfl⟩ := List.mem_map.1 hp
  exact h _ (hf x hx)

/-- Source and destination of a MOV, by K. -/
theorem movCells_eq (c : Ctx) (w : AeW) : movCells c w
    = (if w.k then accessCells w.ym.val (pointerOf c true w.yr.val) else accessCells w.xm.val (pointerOf c false w.xr.val),
      if w.k then accessCells w.xm.val (pointerOf c false w.xr.val) else accessCells w.ym.val (pointerOf c true w.yr.val)) := by
  unfold movCells
  cases w.k <;> rfl

/-- Settles O25: each body reads, then writes its list of cells; neither the counters, the accumulators nor the pointers that
it moves on the way touch a cell. -/
theorem cellsTakeTheirValues : Obligations.CellsTakeTheirValues := by
  intro bg w j s hc
  refine ⟨fun hp hr hw hk => ?_, fun seed hx hy => ?_, fun h => ?_, fun h => ?_, fun h => ?_, fun h => ?_, fun hs hd => ?_,
    fun hs hd => ?_, fun h => ?_⟩
  · obtain ⟨hcoef, ap⟩ := coef_of_sound hp (ctxGet s j bg).pc
    rw [← hcoef] at hr hw ⊢
    obtain ⟨vr, ar⟩ := cellsRead_of_sound ap hr (ctxGet s j bg).pc
    unfold tapBody
    dsimp only
    rw [hk, if_neg Bool.false_ne_true, vr]
    exact wrote_between hc ((ar.cellsStill j).trans (addTerms_cellsStill ..)) (by rw [List.map_map]; rfl) (Reach.zip hw _)
  · obtain ⟨vx, ax⟩ := cellsRead_of_sound (AeStill.refl s) hx (ctxGet s j bg).pc
    unfold seedBody
    dsimp only
    rw [vx]
    exact wrote_between hc (ax.cellsStill j) (by simp only [getD_toArray])
      (Reach.map hy fun p hp => List.fst_mem_of_mem_zipIdx hp)
  · exact wrote_between hc (counted_cellsStill ..) (by simp only [List.map_map]; rfl) (Reach.zip h _)
  · exact wrote_between hc (counted_cellsStill ..) (by simp only [List.map_map]; rfl)
      (Reach.map h fun p hp => (List.of_mem_zip hp).1)
  · exact wrote_between hc (counted_cellsStill ..) (by simp only [List.flatMap_map]) h
  · refine wrote_between hc (roOverflow_cellsStill ..) (by simp only [List.map_map]; rfl) fun a ha => ?_
    rw [List.map_append] at ha
    rcases List.mem_append.1 ha with ha | ha
    · exact Reach.zip (fun x hx => h x (List.mem_append_left _ hx)) _ a ha
    · exact Reach.zip (fun x hx => h x (List.mem_append_right _ hx)) _ a ha
  · obtain ⟨vs, as⟩ := cellsRead_of_sound (AeStill.refl s) hs (ctxGet s j bg).pc
    unfold movBody
    dsimp only
    rw [movCells_eq, vs]
    exact wrote_between hc (as.cellsStill j) (by simp only [getD_toArray])
      (Reach.map hd fun p hp => List.fst_mem_of_mem_zipIdx hp)
  · obtain ⟨vs, as⟩ := cellsRead_of_sound (AeStill.refl s) hs (ctxGet s j bg).pc
    unfold unpkBody
    dsimp only
    rw [vs]
    refine wrote_between hc ((as.trans (countBy_aeStill (AeStill.refl _) ..)).cellsStill j) ?_ (Reach.zip hd _)
    rw [List.map_map]
    refine congrArg (List.zip _) (List.map_congr_left fun l _ => ?_)
    simp only [getD_toArray, Function.comp_apply, apply_ite Prod.fst]
  · exact wrote_between hc ((AeStill.refl s).cellsStill j) rfl (Reach.map h fun _ hx => hx)

end Sys2Proof.Machine
end

section
/-! The members of a gang do not meet: an instruction's work in one cluster is a function of that cluster and the formula (R157,
R205). -/

namespace Sys2Proof.Machine
open Sys2Proof

/-! Two runs side by side -/

/-- From two states in which cluster `j` and the formula agree, the same work has led to `s` and `s'`: they still agree in
both, and the run from `s0` has changed no other cluster and not the formula. -/
structure Apart (j : Nat) (s0 s s' : State) : Prop where
  others : ∀ i, i ≠ j → clOf s i = clOf s0 i
  active : s.frm.active = s0.frm.active
  cluster : clOf s' j = clOf s j
  formula : s'.frm.active = s.frm.active

/-- Work that keeps runs side by side stays in its own cluster. -/
theorem ownCluster_of_apart {body : Nat → State → State}
    (h : ∀ {j s s'}, Apart j s s s' → Apart j s (body j s) (body j s')) : OwnCluster body := by
  intro j s
  obtain ⟨ho, ha, -, -⟩ := h (⟨fun _ _ => rfl, rfl, rfl, rfl⟩ : Apart j s s s)
  exact ⟨ho, ha, fun s' hc hf => (h ⟨fun _ _ => rfl, rfl, hc, hf⟩).cluster⟩

section
variable {j : Nat} {s0 s s' : State} (h : Apart j s0 s s')
include h

/-! What both runs read -/

theorem Apart.ctxGet (bg : Bool) : ctxGet s' j bg = ctxGet s j bg := by unfold Machine.ctxGet; rw [h.cluster]
theorem Apart.clearsNow (bg : Bool) (w : AeW) : clearsNow s' j bg w = clearsNow s j bg w := by
  unfold Machine.clearsNow
  rw [h.ctxGet]
theorem Apart.cellRaw (y : Bool) (a : Nat) : cellRaw s' j y a = cellRaw s j y a := cellRaw_of_clOf h.cluster y a
theorem Apart.cellView (bg y : Bool) (a : Nat) : cellView s' j bg y a = cellView s j bg y a := by
  rw [cellView_eq, h.cluster]
  rfl
theorem Apart.afterWrite (bg y : Bool) (a : Nat) (v : Cell) (c : Cluster) :
    afterWrite s' j bg y a v c = afterWrite s j bg y a v c := by
  unfold Machine.afterWrite
  simp only [mayReach_congr h.formula, outRangeOf_congr h.formula, heldRange_congr h.formula]

/-! What both runs do -/

theorem Apart.became {c : Cluster} {t t' : State} (ht : Became j c s t) (ht' : Became j c s' t') : Apart j s0 t t' :=
  ⟨fun i hi => (ht.others i hi).trans (h.others i hi), ht.active.trans h.active, ht'.cluster.trans ht.cluster.symm,
    ht'.active.trans (h.formula.trans ht.active.symm)⟩

theorem Apart.aeStill {t t' : State} (ht : AeStill s t) (ht' : AeStill s' t') : Apart j s0 t t' :=
  h.became (ht.became j) (h.cluster ▸ ht'.became j)

theorem Apart.clSet (c : Cluster) : Apart j s0 (clSet j c s) (clSet j c s') := h.became (clSet_became j c s) (clSet_became j c s')

theorem Apart.ctxSet (bg : Bool) (c : Ctx) : Apart j s0 (ctxSet j bg c s) (ctxSet j bg c s') := by
  unfold Machine.ctxSet
  rw [h.cluster]
  exact h.clSet _

theorem Apart.count (code idx n : Nat) : Apart j s0 (countBy code idx n s) (countBy code idx n s') :=
  h.aeStill (countBy_aeStill (AeStill.refl s) ..) (countBy_aeStill (AeStill.refl s') ..)

theorem Apart.markTaintIf (c : Prop) [Decidable c] :
    Apart j s0 (if c then markTaint j s else s) (if c then markTaint j s' else s') :=
  h.aeStill (markTaintIf_aeStill c j s) (markTaintIf_aeStill c j s')

theorem Apart.accAll (bg : Bool) (a : Nat) (f : Nat → Acc) : Apart j s0 (accAll j bg a f s) (accAll j bg a f s') := by
  unfold Machine.accAll
  dsimp only
  rw [h.ctxGet]
  exact h.ctxSet bg _

theorem Apart.addTerms (bg : Bool) (w : AeW) (m : Nat → Term) : Apart j s0 (addTerms j bg w m s) (addTerms j bg w m s') := by
  unfold Machine.addTerms
  dsimp only
  rw [h.ctxGet, h.clearsNow]
  exact (h.markTaintIf _).accAll bg _ _

theorem Apart.postModifies (bg raw : Bool) (w : AeW) : Apart j s0 (postModifies j bg raw w s) (postModifies j bg raw w s') := by
  unfold Machine.postModifies
  dsimp only
  rw [h.ctxGet]
  exact h.ctxSet bg _

theorem Apart.roOverflow (w : AeW) (l : List Acc) : Apart j s0 (roOverflow j w l s) (roOverflow j w l s') := by
  unfold Machine.roOverflow
  split
  · dsimp only
    have hc : Apart j s0 (Machine.count 0x400 j s) (Machine.count 0x400 j s') := h.count 0x400 j 1
    rw [hc.cluster]
    exact hc.clSet _
  · exact h

theorem Apart.cellWrite (bg y : Bool) (pc a : Nat) (v : Cell) :
    Apart j s0 (cellWrite j bg y pc a v s) (cellWrite j bg y pc a v s') := by
  have hw := cellWrite_became j bg y pc a v s'
  rw [h.afterWrite, h.cluster] at hw
  exact h.became (cellWrite_became j bg y pc a v s) hw

theorem Apart.cellDeliver (bg y : Bool) (a : Nat) : (cellDeliver j bg y a s').1 = (cellDeliver j bg y a s).1
    ∧ Apart j s0 (cellDeliver j bg y a s).2 (cellDeliver j bg y a s').2 := by
  have hcases : ∀ e : Fin 3, e = 0 ∨ e = 1 ∨ e = 2 := by decide
  have hr := h.cellRaw y a
  rcases hcases (Machine.cellRaw s j y a).ecc with he | he | he
  · rw [cellDeliver_of_sound he, cellDeliver_of_sound (hr ▸ he)]
    exact ⟨hr, h⟩
  · rw [cellDeliver_of_corrected he, cellDeliver_of_corrected (hr ▸ he), hr]
    refine ⟨rfl, Apart.count (Apart.became h (cellStore_became ..) ?_) _ _ _⟩
    rw [← h.cluster]
    exact cellStore_became ..
  · rw [cellDeliver_of_uncorrectable he, cellDeliver_of_uncorrectable (hr ▸ he)]
    exact ⟨rfl, h.aeStill (uncorrectable_aeStill ..) (uncorrectable_aeStill ..)⟩

theorem Apart.cellRead (bg y : Bool) (pc a : Nat) : (cellRead j bg y pc a s').1 = (cellRead j bg y pc a s).1
    ∧ Apart j s0 (cellRead j bg y pc a s).2 (cellRead j bg y pc a s').2 := by
  have hm := mayReach_congr h.formula j bg y a
  cases hr : mayReach s j bg y a with
  | false =>
    rw [cellRead_of_unreachable hr, cellRead_of_unreachable (hm.trans hr)]
    exact ⟨rfl, h.aeStill (rangeError_aeStill ..) (rangeError_aeStill ..)⟩
  | true =>
    by_cases hb : bg = true ∨ FMap.find (clOf s j).commit (cellKey y a) = none
    · rw [cellRead_of_stored hr hb, cellRead_of_stored (hm.trans hr) (by rwa [h.cluster])]
      obtain ⟨hv, ha⟩ := h.cellDeliver bg y a
      rw [hv]
      exact ⟨rfl, ha.markTaintIf _⟩
    · rw [not_or, Bool.not_eq_true] at hb
      obtain ⟨rfl, hf⟩ := hb
      obtain ⟨v, hv⟩ := Option.ne_none_iff_exists'.1 hf
      rw [cellRead_of_buffered hr hv, cellRead_of_buffered (hm.trans hr) (by rwa [h.cluster])]
      exact ⟨rfl, h.markTaintIf _⟩

end

section
variable {j : Nat} {s0 s s' : State}

theorem Apart.cellsWrite (h : Apart j s0 s s') (bg y : Bool) (pc : Nat) (l : List (Nat × Cell)) :
    Apart j s0 (cellsWrite j bg y pc l s) (cellsWrite j bg y pc l s') := by
  unfold Machine.cellsWrite
  induction l generalizing s s' with
  | nil => exact h
  | cons p t ih => exact ih (h.cellWrite bg y pc p.1 p.2)

theorem Apart.cellsRead (h : Apart j s0 s s') (bg y : Bool) (pc : Nat) (l : List Nat) :
    (cellsRead j bg y pc l s').1 = (cellsRead j bg y pc l s).1
      ∧ Apart j s0 (cellsRead j bg y pc l s).2 (cellsRead j bg y pc l s').2 := by
  suffices hgen : ∀ (d : Array Cell) (u u' : State), Apart j s0 u u' →
      (l.foldl (readStep j bg y pc) (d, u')).1 = (l.foldl (readStep j bg y pc) (d, u)).1
        ∧ Apart j s0 (l.foldl (readStep j bg y pc) (d, u)).2 (l.foldl (readStep j bg y pc) (d, u')).2 from hgen #[] s s' h
  induction l with
  | nil => exact fun _ _ _ hu => ⟨rfl, hu⟩
  | cons a t ih =>
    intro d u u' hu
    obtain ⟨hv, ha⟩ := hu.cellRead bg y pc a
    rw [List.foldl_cons, List.foldl_cons, readStep, readStep, hv]
    exact ih _ _ _ ha

end

/-! The instructions -/

theorem macBody_own (bg : Bool) (w : AeW) : OwnCluster (macBody bg w) := ownCluster_of_apart fun h => by
  unfold macBody
  dsimp only
  rw [h.ctxGet]
  obtain ⟨vx, hx⟩ := h.cellsRead bg false _ _
  obtain ⟨vy, hy⟩ := hx.cellsRead bg true _ _
  rw [vx, vy]
  exact (hy.addTerms bg w _).postModifies bg false w

theorem tapBody_own (bg : Bool) (w : AeW) : OwnCluster (tapBody bg w) := ownCluster_of_apart fun h => by
  unfold tapBody
  dsimp only
  rw [h.ctxGet]
  obtain ⟨vy, hy⟩ := h.cellsRead bg true _ _
  rw [vy]
  obtain ⟨vx, hx⟩ := hy.cellsRead bg false _ _
  rw [vx]
  refine Apart.postModifies ?_ bg false w
  split
  · exact hx.addTerms bg w _
  · exact (hx.addTerms bg w _).cellsWrite bg false _ _

theorem addsBody_own (bg : Bool) (w : AeW) : OwnCluster (addsBody bg w) := ownCluster_of_apart fun h => by
  unfold addsBody
  dsimp only
  rw [h.ctxGet]
  obtain ⟨vx, hx⟩ := h.cellsRead bg w.k _ _
  rw [vx]
  exact (hx.addTerms bg w _).postModifies bg false w

theorem addrBody_own (bg : Bool) (w : AeW) : OwnCluster (addrBody bg w) := ownCluster_of_apart fun h => by
  unfold addrBody
  dsimp only
  rw [h.ctxGet]
  obtain ⟨va, ha⟩ := h.cellsRead bg _ _ _
  obtain ⟨vb, hb⟩ := ha.cellsRead bg _ _ _
  rw [va, vb]
  exact (hb.addTerms bg w _).postModifies bg true w

theorem seedBody_own (seed : Nat → Option Nat) (bg : Bool) (w : AeW) : OwnCluster (seedBody seed bg w) :=
  ownCluster_of_apart fun h => by
    unfold seedBody
    dsimp only
    rw [h.ctxGet]
    obtain ⟨vx, hx⟩ := h.cellsRead bg false _ _
    rw [vx]
    simp only [h.cellView]
    exact (hx.cellsWrite bg true _ _).postModifies bg false w

theorem rdwBody_own (bg : Bool) (w : AeW) : OwnCluster (rdwBody bg w) := ownCluster_of_apart fun h => by
  unfold rdwBody
  dsimp only
  rw [h.ctxGet]
  exact (((h.roOverflow w _).count 0x401 _ _).cellsWrite bg _ _ _).postModifies bg false w

theorem rdcBody_own (bg : Bool) (w : AeW) : OwnCluster (rdcBody bg w) := ownCluster_of_apart fun h => by
  unfold rdcBody
  dsimp only
  simp only [h.ctxGet, h.cellView]
  exact (((h.roOverflow w _).count 0x401 _ _).cellsWrite bg _ _ _).postModifies bg false w

theorem rdbBody_own (bg : Bool) (w : AeW) : OwnCluster (rdbBody bg w) := ownCluster_of_apart fun h => by
  unfold rdbBody
  dsimp only
  rw [h.ctxGet]
  exact (((h.roOverflow w _).count 0x401 _ _).cellsWrite bg _ _ _).postModifies bg false w

theorem rdrBody_own (bg : Bool) (w : AeW) : OwnCluster (rdrBody bg w) := ownCluster_of_apart fun h => by
  unfold rdrBody
  dsimp only
  rw [h.ctxGet]
  exact ((h.roOverflow w _).cellsWrite bg _ _ _).postModifies bg true w

theorem movBody_own (bg : Bool) (w : AeW) : OwnCluster (movBody bg w) := ownCluster_of_apart fun h => by
  unfold movBody
  dsimp only
  rw [h.ctxGet]
  obtain ⟨v, hr⟩ := h.cellsRead bg w.k _ _
  rw [v]
  exact (hr.cellsWrite bg _ _ _).postModifies bg false w

theorem unpkBody_own (bg : Bool) (w : AeW) : OwnCluster (unpkBody bg w) := ownCluster_of_apart fun h => by
  unfold unpkBody
  dsimp only
  rw [h.ctxGet]
  obtain ⟨v, hr⟩ := h.cellsRead bg w.k _ _
  rw [v]
  exact ((hr.count 0x401 _ _).cellsWrite bg _ _ _).postModifies bg false w

theorem zeroBody_own (bg : Bool) (w : AeW) : OwnCluster (zeroBody bg w) := ownCluster_of_apart fun h => by
  unfold zeroBody
  dsimp only
  rw [h.ctxGet]
  exact (h.cellsWrite bg _ _ _).postModifies bg false w

/-! The gang -/

/-- What an instruction leaves behind in a member: its cycles, and where its program goes on. -/
theorem charge_own (bg : Bool) (cost : Cost) (after : Ctx → Ctx) :
    OwnCluster (fun j u => ctxSet j bg (after (charge (ctxGet u j bg) cost)) u) := ownCluster_of_apart fun h => by
  rw [h.ctxGet]
  exact h.ctxSet bg _

/-- Work done member by member: each member ends as if it had worked alone, and no other cluster changes. -/
theorem foldl_own {body : Nat → State → State} (hb : OwnCluster body) {l : List Nat} (hl : l.Nodup) (s : State) :
    (l.foldl (fun u j => body j u) s).frm.active = s.frm.active
      ∧ (∀ j ∈ l, clOf (l.foldl (fun u j => body j u) s) j = clOf (body j s) j)
      ∧ ∀ j, j ∉ l → clOf (l.foldl (fun u j => body j u) s) j = clOf s j := by
  induction l generalizing s with
  | nil => exact ⟨rfl, fun _ h => absurd h List.not_mem_nil, fun _ _ => rfl⟩
  | cons a t ih =>
    obtain ⟨hat, ht⟩ := List.nodup_cons.1 hl
    obtain ⟨ho, ha, -⟩ := hb a s
    obtain ⟨h1, h2, h3⟩ := ih ht (body a s)
    refine ⟨h1.trans ha, fun j hj => ?_, fun j hj => ?_⟩
    · by_cases hja : j = a
      · subst hja
        exact h3 j hat
      · refine (h2 j ((List.mem_cons.1 hj).resolve_left hja)).trans ?_
        exact (hb j s).2.2 _ (ho j hja) ha
    · rw [List.mem_cons, not_or] at hj
      exact (h3 j hj.2).trans (ho j hj.1)

theorem gangOf_nodup (s : State) (k : Nat) : (gangOf s k).Nodup :=
  List.Nodup.map (fun _ _ h => Nat.add_left_cancel h) List.nodup_range

/-- Settles O23: every body keeps two runs from agreeing clusters side by side; the members of a gang differ. -/
theorem gangMembersAreApart : Obligations.GangMembersAreApart := by
  refine ⟨fun bg w => ⟨macBody_own bg w, tapBody_own bg w, addsBody_own bg w, addrBody_own bg w, seedBody_own _ bg w,
    seedBody_own _ bg w, rdwBody_own bg w, rdcBody_own bg w, rdbBody_own bg w, rdrBody_own bg w, movBody_own bg w,
    unpkBody_own bg w, zeroBody_own bg w⟩, fun k bg cost body after s hb => ?_⟩
  have hl := gangOf_nodup s k
  obtain ⟨ha, hin, hout⟩ := foldl_own hb hl s
  obtain ⟨-, hin', hout'⟩ := foldl_own (charge_own bg cost after) hl ((gangOf s k).foldl (fun u j => body j u) s)
  refine ⟨fun j hj => (hin' j hj).trans ?_, fun j hj => (hout' j hj).trans (hout j hj)⟩
  exact (charge_own bg cost after j (body j s)).2.2 _ (hin j hj) (ha.trans (hb j s).2.1.symm)

end Sys2Proof.Machine
end

section
/-! The commands that clear: COUNTER.CLEAR and AE.STATUS (R170, R402). -/

namespace Sys2Proof.Machine
open Sys2Proof

/-! COUNTER.CLEAR -/

/-- The counters with those of a range at zero. -/
def rangeCleared (code first n : Nat) (m : FMap Nat) : FMap Nat :=
  (List.range n).foldl (fun m i => FMap.put 0 m (counterKey code first + i) 0) m

theorem foldl_counterClear1 (code first n : Nat) (s : State) :
    (List.range n).foldl (fun u i => counterClear1 code (first + i) u) s = { s with ctr := rangeCleared code first n s.ctr } := by
  unfold rangeCleared
  induction n with
  | zero => rfl
  | succ n ih =>
    rw [List.range_succ, List.foldl_append, List.foldl_append, ih]
    have hkey : counterKey code (first + n) = counterKey code first + n := (Nat.add_assoc _ _ _).symm
    simp only [List.foldl_cons, List.foldl_nil, counterClear1, hkey]

theorem get_rangeCleared (code first n k : Nat) (m : FMap Nat) : FMap.get 0 (rangeCleared code first n m) k
    = if counterKey code first ≤ k ∧ k < counterKey code first + n then 0 else FMap.get 0 m k :=
  get_foldl_put 0 (fun _ => 0) _ n k m

theorem counterClear_of_range {counter first n : BitVec 16} (h : counterRangeOk counter first n = true) (s : State) :
    counterClear counter first n s
      = okWith [] { s with ctr := rangeCleared counter.toNat first.toNat n.toNat s.ctr } := by
  unfold counterClear
  rw [if_pos h, foldl_counterClear1]

/-! AE.STATUS -/

/-- Clusters with OVF cleared in those that are listed. -/
def ovfCleared (l m : FMap Cluster) : FMap Cluster :=
  l.foldl (fun m p => FMap.put clusterReset m p.1 { FMap.get clusterReset m p.1 with ovf := false }) m

/-- The state with OVF clear in every cluster. -/
def withoutOvf (s : State) : State := { s with ae := { s.ae with clusters := ovfCleared s.ae.clusters s.ae.clusters } }

theorem foldl_clearOvf (l : FMap Cluster) (s : State) : l.foldl (fun u p => clSet p.1 { clOf u p.1 with ovf := false } u) s
    = { s with ae := { s.ae with clusters := ovfCleared l s.ae.clusters } } := by
  induction l generalizing s with
  | nil => rfl
  | cons p t ih => exact (ih _).trans rfl

theorem get_ovfCleared (l m : FMap Cluster) (k : Nat) : FMap.get clusterReset (ovfCleared l m) k
    = if k ∈ l.map Prod.fst then { FMap.get clusterReset m k with ovf := false } else FMap.get clusterReset m k := by
  unfold ovfCleared
  induction l generalizing m with
  | nil => rfl
  | cons p t ih =>
    rw [List.foldl_cons, ih, List.map_cons]
    by_cases hk : k = p.1
    · subst hk
      rw [get_put_eq, if_pos List.mem_cons_self, ite_self]
    · simp only [get_put_ne _ _ _ hk, List.mem_cons, hk, false_or]

/-- A key that is not listed reads the default. -/
theorem get_of_not_mem {α : Type} {d : α} {m : FMap α} {k : Nat} (h : k ∉ m.map Prod.fst) : FMap.get d m k = d := by
  induction m with
  | nil => rfl
  | cons p t ih =>
    rw [List.map_cons, List.mem_cons, not_or] at h
    exact (if_neg (Ne.symm h.1)).trans (ih h.2)

/-- A cluster that is not listed has OVF clear from reset. -/
theorem clOf_withoutOvf (s : State) (k : Nat) : clOf (withoutOvf s) k = { clOf s k with ovf := false } := by
  refine (get_ovfCleared _ _ k).trans ?_
  split
  · rfl
  · rename_i h
    unfold clOf
    rw [get_of_not_mem h]
    rfl

/-- The OVF flags as AE.STATUS reports them. -/
def ovfFlags (s : State) : Nat := sumN ((List.range 96).map (fun k => if (clOf s k).ovf then 2 ^ k else 0))

/-! The statement -/

/-- Settles O6: COUNTER.CLEAR writes its range of the counters alone, AE.STATUS the OVF flags alone. -/
theorem clearingCommands : Obligations.ClearingCommands := by
  intro s h
  refine ⟨fun counter first n ha hr => ⟨_, rfl, ?_⟩, fun ha => ⟨_, rfl, ?_⟩⟩
  · have hdone := serve_done (f := fun u => { u with ctr := rangeCleared counter.toNat first.toNat n.toNat u.ctr }) ha
      (fun v hv => inModes_taken ha.2.2.2.1 hv) (fun v _ => counterClear_of_range hr v) fun v hv => by
        obtain ⟨⟨hm, hc, ho⟩, hp, hcons, ht, hports⟩ := hv.same
        refine ⟨⟨hm, fun k hk => ?_, ho⟩, hp, hcons, ht, hports⟩
        rw [get_rangeCleared, get_rangeCleared]
        split
        · rfl
        · exact hc k hk
    obtain ⟨⟨hm, hc, -⟩, hrep⟩ := hdone
    exact ⟨hm, hrep, fun k hk => (hc k hk).trans (get_rangeCleared _ _ _ _ _)⟩
  · have hset := serve_set (mode := inModes modesYOLM) (body := fun u => okWith [.num 12 (ovfFlags u)] (withoutOvf u))
      withoutOvf ha
      (fun v hv => inModes_taken ha.2.2.2.1 hv) (fun v hv => by rw [okWith, hv.reads ovfFlags fun _ => rfl])
      (fun v hv => hv.reads (fun u => withoutMail (withoutOvf u)) fun _ => rfl) (fun _ => ⟨rfl, rfl, rfl, rfl, rfl, rfl⟩)
    have hbody : (fun u : State => okWith [.num 12 (ovfFlags u)]
        (u.ae.clusters.foldl (fun u p => clSet p.1 { clOf u p.1 with ovf := false } u) u))
        = fun u => okWith [.num 12 (ovfFlags u)] (withoutOvf u) := funext fun u => by rw [foldl_clearOvf]; rfl
    rw [← hbody] at hset
    obtain ⟨⟨hm, hc, ho⟩, hrep⟩ := hset
    have hae := withoutMail_same hm (·.ae) fun _ => rfl
    refine ⟨fun k => ?_, ?_, ⟨?_, hc, ho⟩, hrep⟩
    · rw [← clOf_withoutOvf]
      exact congrArg (fun a : AeSt => FMap.get clusterReset a.clusters k) hae
    · exact (congrArg (fun a : AeSt => { a with clusters := s.ae.clusters }) hae).trans rfl
    · exact (congrArg (fun u : State => { u with ae := s.ae }) hm).trans rfl

end Sys2Proof.Machine
end

section
/-! Accumulator parts: the true value under additions, and 128 products that cannot overflow (R165, R166, R170, R193). -/

namespace Sys2Proof.Machine
open Sys2Proof

/-! One addition (R166) -/

/-- A true value that the excursion can hold. -/
def Fits (v : Int) : Prop := -8 ≤ (v + 2 ^ 47) / 2 ^ 48 ∧ (v + 2 ^ 47) / 2 ^ 48 ≤ 7

/-- A term that may be added: 48 bits, or −2^47 negated. -/
def IsTerm (t : Int) : Prop := -2 ^ 47 ≤ t ∧ t ≤ 2 ^ 47

/-- The part holds the true value `v`, with the excursion clamped and LOST set where it was or where `v` does not fit. -/
def Holds (r : AccPart) (v : Int) (l : Bool) : Prop :=
  r.a = BitVec.ofInt 48 v ∧ r.x = max (-8) (min 7 ((v + 2 ^ 47) / 2 ^ 48)) ∧ (r.lost = true ↔ l = true ∨ ¬ Fits v)
    ∧ (Fits v → partValue r = v)

theorem clampI_eq (v : Int) : clampI (-8) 7 v = max (-8) (min 7 v) := by
  unfold clampI
  split
  · omega
  · split <;> omega

/-- A value within 48 bits and its excursion. -/
theorem fixExcursion_holds {a x : Int} (h1 : -2 ^ 47 ≤ a) (h2 : a < 2 ^ 47) (l : Bool) :
    Holds (fixExcursion a x l) (a + x * 2 ^ 48) l := by
  have hx : (a + x * 2 ^ 48 + 2 ^ 47) / 2 ^ 48 = x := by omega
  have hlost : (fixExcursion a x l).lost = true ↔ l = true ∨ ¬ (-8 ≤ x ∧ x ≤ 7) := by
    unfold fixExcursion
    simp only [Bool.or_eq_true, decide_eq_true_eq, or_assoc]
    refine or_congr_right ?_
    omega
  unfold Holds Fits
  rw [hx]
  refine ⟨?_, clampI_eq x, hlost, fun hf => ?_⟩
  · refine BitVec.eq_of_toInt_eq ?_
    unfold fixExcursion
    rw [BitVec.toInt_ofInt, BitVec.toInt_ofInt]
    norm_num [Int.bmod_def]
  · unfold partValue fixExcursion
    dsimp only
    rw [BitVec.toInt_ofInt, clampI_eq]
    norm_num [Int.bmod_def]
    omega

theorem partAdd_holds (p : AccPart) {t : Int} (ht : IsTerm t) : Holds (partAdd p t) (partValue p + t) p.lost := by
  obtain ⟨ht1, ht2⟩ := ht
  have ha1 := p.a.le_toInt
  have ha2 := p.a.toInt_lt
  have holds : ∀ a x : Int, -2 ^ 47 ≤ a → a < 2 ^ 47 → a + x * 2 ^ 48 = partValue p + t →
      Holds (fixExcursion a x p.lost) (partValue p + t) p.lost := fun a x h1 h2 e => e ▸ fixExcursion_holds h1 h2 p.lost
  unfold partAdd
  dsimp only
  unfold partValue at holds ⊢
  split
  · exact holds _ _ (by omega) (by omega) (by ring)
  · split
    · exact holds _ _ (by omega) (by omega) (by ring)
    · exact holds _ _ (by omega) (by omega) (by ring)

/-- The part that a whole accumulator part is added to, before its value enters. -/
theorem partAddPart_holds (neg : Bool) (p q : AccPart) : Holds (partAddPart neg p q)
    (if neg then partValue p - partValue q else partValue p + partValue q) (p.lost || q.lost) := by
  have hq1 := q.a.le_toInt
  have hq2 := q.a.toInt_lt
  unfold partAddPart
  cases neg with
  | false =>
    have h := partAdd_holds ⟨p.a, p.x + q.x, p.lost || q.lost⟩ (t := q.a.toInt) ⟨by omega, by omega⟩
    have e : partValue ⟨p.a, p.x + q.x, p.lost || q.lost⟩ + q.a.toInt = partValue p + partValue q := by
      unfold partValue
      ring
    rwa [e] at h
  | true =>
    have h := partAdd_holds ⟨p.a, p.x + -q.x, p.lost || q.lost⟩ (t := -q.a.toInt) ⟨by omega, by omega⟩
    have e : partValue ⟨p.a, p.x + -q.x, p.lost || q.lost⟩ + -q.a.toInt = partValue p - partValue q := by
      unfold partValue
      ring
    rwa [e] at h

/-! Many additions -/

theorem Holds.exact {r : AccPart} {v : Int} {l : Bool} (h : Holds r v l) (hf : Fits v) : partValue r = v ∧ r.lost = l := by
  obtain ⟨-, -, hl, hv⟩ := h
  refine ⟨hv hf, Bool.eq_iff_iff.2 (hl.trans ⟨fun h => h.resolve_right (not_not_intro hf), .inl⟩)⟩

theorem foldl_partAdd_exact {l : List Int} {p : AccPart} (ht : ∀ t ∈ l, IsTerm t)
    (hf : ∀ n, 1 ≤ n → n ≤ l.length → Fits (partValue p + (l.take n).sum)) :
    partValue (l.foldl partAdd p) = partValue p + l.sum ∧ (l.foldl partAdd p).lost = p.lost := by
  induction l generalizing p with
  | nil => exact ⟨(add_zero _).symm, rfl⟩
  | cons t l ih =>
    have h1 : Fits (partValue p + t) := by simpa using hf 1 (Nat.le_refl 1) (by simp)
    obtain ⟨hv, hl⟩ := (partAdd_holds p (ht t List.mem_cons_self)).exact h1
    obtain ⟨iv, il⟩ := ih (p := partAdd p t) (fun x hx => ht x (List.mem_cons_of_mem t hx)) fun n _ hn => by
      have h := hf (n + 1) (by omega) (by rw [List.length_cons]; omega)
      rwa [List.take_succ_cons, List.sum_cons, ← add_assoc, ← hv] at h
    exact ⟨by rw [List.foldl_cons, iv, hv, List.sum_cons, add_assoc], by rw [List.foldl_cons, il, hl]⟩

/-! 128 products (R165, R170) -/

theorem signed_bound (w v : Nat) (hw : 0 < w) : |signed w v| ≤ 2 ^ (w - 1) := by
  have hpow : (2 : Int) ^ w = 2 * 2 ^ (w - 1) := by rw [← pow_succ', Nat.sub_add_cancel hw]
  have hlt : ((v % 2 ^ w : Nat) : Int) < 2 ^ w := by exact_mod_cast Nat.mod_lt v (by positivity)
  rw [abs_le]
  unfold signed
  split
  next h =>
    have h' : ((v % 2 ^ w : Nat) : Int) < 2 ^ (w - 1) := by exact_mod_cast h
    omega
  next h =>
    have h' : (2 : Int) ^ (w - 1) ≤ ((v % 2 ^ w : Nat) : Int) := by exact_mod_cast Nat.le_of_not_lt h
    omega

/-- Both parts of a complex value are within a bound. -/
def Within (b : Int) (c : Cplx) : Prop := |c.i| ≤ b ∧ |c.q| ≤ b

theorem dataParts_within (w : BitVec 48) : Within (2 ^ 23) (dataParts w) :=
  ⟨signed_bound 24 _ (by omega), signed_bound 24 _ (by omega)⟩
theorem coefParts_within (w : BitVec 48) : Within (2 ^ 15) (coefParts w) :=
  ⟨signed_bound 16 _ (by omega), signed_bound 16 _ (by omega)⟩

theorem conjIf_within {b : Int} {c : Cplx} (h : Within b c) (j : Bool) : Within b (conjIf j c) := by
  cases j
  · exact h
  · exact ⟨h.1, (abs_neg c.q).trans_le h.2⟩

theorem prod_within {d c : Cplx} (hd : Within (2 ^ 23) d) (hc : Within (2 ^ 15) c) : Within (2 ^ 39) (prod d c) := by
  have hmul : ∀ x y : Int, |x| ≤ 2 ^ 23 → |y| ≤ 2 ^ 15 → |x * y| ≤ 2 ^ 38 := fun x y hx hy => by
    rw [abs_mul]
    exact (mul_le_mul hx hy (abs_nonneg y) (by norm_num)).trans (by norm_num)
  obtain ⟨di, dq⟩ := hd
  obtain ⟨ci, cq⟩ := hc
  constructor
  · exact (abs_sub _ _).trans ((add_le_add (hmul _ _ di ci) (hmul _ _ dq cq)).trans (by norm_num))
  · exact (abs_add_le _ _).trans ((add_le_add (hmul _ _ di cq) (hmul _ _ dq ci)).trans (by norm_num))

/-- A product of a data and a coefficient word, conjugated and negated as the flags say, has parts of at most 2^39. -/
theorem macTerm_within (j k n : Bool) (d c : Cell) : |(macTerm j k n d c).i| ≤ 2 ^ 39 ∧ |(macTerm j k n d c).q| ≤ 2 ^ 39 := by
  obtain ⟨hi, hq⟩ := prod_within (conjIf_within (dataParts_within d.word) j) (conjIf_within (coefParts_within c.word) k)
  cases n
  · exact ⟨hi, hq⟩
  · exact ⟨(abs_neg _).trans_le hi, (abs_neg _).trans_le hq⟩

theorem abs_sum_le {b : Int} {l : List Int} (h : ∀ t ∈ l, |t| ≤ b) : |l.sum| ≤ l.length * b := by
  induction l with
  | nil => simp
  | cons t l ih =>
    have h1 := h t List.mem_cons_self
    have h2 := ih fun x hx => h x (List.mem_cons_of_mem t hx)
    rw [List.sum_cons, List.length_cons, Nat.cast_succ, add_mul, one_mul, add_comm _ b]
    exact (abs_add_le _ _).trans (add_le_add h1 h2)

/-- 128 terms of at most 2^39 add up below 2^47, so no excursion is left. -/
theorem foldl_partAdd_small {l : List Int} (hlen : l.length ≤ 128) (hb : ∀ t ∈ l, |t| ≤ 2 ^ 39) :
    (l.foldl partAdd part0).a.toInt = l.sum ∧ partOver (l.foldl partAdd part0) = false := by
  have hsum : ∀ m : List Int, m.length ≤ 128 → (∀ t ∈ m, |t| ≤ 2 ^ 39) → -2 ^ 46 ≤ m.sum ∧ m.sum ≤ 2 ^ 46 := fun m hm ht => by
    have h := abs_le.1 (abs_sum_le ht)
    omega
  have h0 : partValue part0 = 0 := by decide
  have hfit : ∀ n, 1 ≤ n → n ≤ l.length → Fits (partValue part0 + (l.take n).sum) := fun n _ hn => by
    have h := hsum (l.take n) (by rw [List.length_take]; omega) fun t ht => hb t (List.mem_of_mem_take ht)
    unfold Fits
    omega
  obtain ⟨hv, hl⟩ := foldl_partAdd_exact (fun t ht => by have h := abs_le.1 (hb t ht); constructor <;> omega) hfit
  have hs := hsum l hlen hb
  have ha1 := (l.foldl partAdd part0).a.le_toInt
  have ha2 := (l.foldl partAdd part0).a.toInt_lt
  rw [h0, zero_add] at hv
  unfold partValue at hv
  have hx : (l.foldl partAdd part0).x = 0 := by omega
  refine ⟨by rw [hx] at hv; omega, ?_⟩
  unfold partOver
  rw [hx, hl]
  rfl

/-- Settles O60: one addition by the carry out of 48 bits, sums by induction on the terms, products by their bounds. -/
theorem accumulatorsFollowTheRule : Obligations.AccumulatorsFollowTheRule := by
  refine ⟨fun p _ ht => partAdd_holds p ht, fun p q => ⟨partAddPart_holds false p q, partAddPart_holds true p q⟩,
    fun p l ht hf => foldl_partAdd_exact ht hf, fun j k n l hlen => ?_⟩
  have hi := foldl_partAdd_small (l := (l.map (fun w => macTerm j k n w.1 w.2)).map (fun t => t.i)) (by simpa using hlen) (by
    simp only [List.mem_map, forall_exists_index, and_imp, forall_apply_eq_imp_iff₂]
    exact fun w _ => (macTerm_within j k n w.1 w.2).1)
  have hq := foldl_partAdd_small (l := (l.map (fun w => macTerm j k n w.1 w.2)).map (fun t => t.q)) (by simpa using hlen) (by
    simp only [List.mem_map, forall_exists_index, and_imp, forall_apply_eq_imp_iff₂]
    exact fun w _ => (macTerm_within j k n w.1 w.2).2)
  exact ⟨hi.1, hi.2, hq.1, hq.2⟩

end Sys2Proof.Machine
end

section
/-! The instruction word: encoding it and taking it apart undo each other (R188). -/

namespace Sys2Proof.Machine
open Sys2Proof

theorem bits_lt (v hi lo : Nat) : bits v hi lo < 2 ^ (hi + 1 - lo) := Nat.mod_lt _ (Nat.two_pow_pos _)

/-- A single bit is a field of one bit. -/
theorem toNat_bitN (v i : Nat) : (bitN v i).toNat = bits v i i := by
  unfold bitN bits
  rw [Nat.add_sub_cancel_left]
  rcases Nat.mod_two_eq_zero_or_one (v / 2 ^ i) with h | h <;> rw [pow_one, h] <;> rfl

theorem bitN_eq_of_bits {v i : Nat} {b : Bool} (h : bits v i i = b.toNat) : bitN v i = b := by
  rw [← toNat_bitN] at h
  cases b with
  | false => exact Bool.toNat_eq_zero.1 h
  | true => exact Bool.toNat_eq_one.1 h

/-- A field and the bits below it make the number up to the field's upper end. -/
theorem bits_mul_add_mod (v : Nat) {hi lo : Nat} (h : lo ≤ hi + 1) : bits v hi lo * 2 ^ lo + v % 2 ^ lo = v % 2 ^ (hi + 1) := by
  rw [← Nat.add_sub_cancel' h, pow_add, Nat.mod_mul, Nat.mul_comm, Nat.add_comm]
  rfl

/-! Encoding -/

/-- An instruction word as a number: each field at the weight of its lowest bit. -/
def wordValue (op : Nat) (w : AeW) : Nat :=
  op * 2 ^ 58 + w.acd.val * 2 ^ 55 + w.acs.val * 2 ^ 52 + w.c.toNat * 2 ^ 51 + w.n.toNat * 2 ^ 50 + w.j.toNat * 2 ^ 49
    + w.k.toNat * 2 ^ 48 + w.xm.val * 2 ^ 45 + w.xr.val * 2 ^ 42 + w.ym.val * 2 ^ 39 + w.yr.val * 2 ^ 36 + w.imm.toNat

theorem wordValue_lt {op : Nat} (hop : op < 64) (w : AeW) : wordValue op w < 2 ^ 64 := by
  have hc := w.c.toNat_le
  have hn := w.n.toNat_le
  have hj := w.j.toNat_le
  have hk := w.k.toNat_le
  unfold wordValue
  omega

theorem aeEncode_eq_ofNat (op : Nat) (w : AeW) : aeEncode op w = BitVec.ofNat 64 (wordValue op w) := by
  have weight : ∀ (b : Bool) (i : Nat), (if b then 2 ^ i else 0) = b.toNat * 2 ^ i := fun b i => by
    cases b
    · exact (Nat.zero_mul _).symm
    · exact (Nat.one_mul _).symm
  unfold aeEncode wordValue
  simp only [weight]

theorem toNat_aeEncode {op : Nat} (hop : op < 64) (w : AeW) : (aeEncode op w).toNat = wordValue op w := by
  rw [aeEncode_eq_ofNat, BitVec.toNat_ofNat, Nat.mod_eq_of_lt (wordValue_lt hop w)]

/-- Every field reads back: those below it are less than its weight, and those above it are multiples of the next. -/
theorem aeEncode_fields {op : Nat} (hop : op < 64) (w : AeW) :
    let v := (aeEncode op w).toNat
    bits v 63 58 = op ∧ bits v 57 55 = w.acd.val ∧ bits v 54 52 = w.acs.val ∧ bitN v 51 = w.c ∧ bitN v 50 = w.n
      ∧ bitN v 49 = w.j ∧ bitN v 48 = w.k ∧ bits v 47 45 = w.xm.val ∧ bits v 44 42 = w.xr.val ∧ bits v 41 39 = w.ym.val
      ∧ bits v 38 36 = w.yr.val ∧ bits v 35 0 = w.imm.toNat := by
  have hc := w.c.toNat_le
  have hn := w.n.toNat_le
  have hj := w.j.toNat_le
  have hk := w.k.toNat_le
  dsimp only
  rw [toNat_aeEncode hop]
  refine ⟨?_, ?_, ?_, bitN_eq_of_bits ?_, bitN_eq_of_bits ?_, bitN_eq_of_bits ?_, bitN_eq_of_bits ?_, ?_, ?_, ?_, ?_, ?_⟩ <;>
    simp only [bits, wordValue] <;> omega

/-! Decoding -/

theorem aeFields_aeEncode {op : Nat} (hop : op < 64) (w : AeW) : aeFields (aeEncode op w).toNat = w := by
  obtain ⟨-, hacd, hacs, hc, hn, hj, hk, hxm, hxr, hym, hyr, himm⟩ := aeEncode_fields hop w
  have himm' : BitVec.ofNat 36 (aeEncode op w).toNat = w.imm := BitVec.eq_of_toNat_eq (by
    rw [← himm, BitVec.toNat_ofNat, bits, pow_zero, Nat.div_one])
  unfold aeFields
  simp only [hacd, hacs, hc, hn, hj, hk, hxm, hxr, hym, hyr, himm', Fin.ofNat_val_eq_self]

theorem aeOp_aeEncode {op : Nat} (hop : op < 64) (w : AeW) : aeOp (aeEncode op w).toNat = op := (aeEncode_fields hop w).1

theorem aeEncode_injective {op op' : Nat} {w w' : AeW} (hop : op < 64) (hop' : op' < 64)
    (h : aeEncode op w = aeEncode op' w') : op = op' ∧ w = w' := by
  constructor
  · rw [← aeOp_aeEncode hop w, h, aeOp_aeEncode hop' w']
  · rw [← aeFields_aeEncode hop w, h, aeFields_aeEncode hop' w']

/-- A three-bit field keeps its value as an index below 8. -/
theorem val_ofNat_bits {hi lo : Nat} (h : hi + 1 - lo = 3) (v : Nat) : (Fin.ofNat 8 (bits v hi lo)).val = bits v hi lo :=
  Nat.mod_eq_of_lt ((bits_lt v hi lo).trans_eq (congrArg (2 ^ ·) h))

/-- The fields of a number below 2^64 make that number: each meets the next, and no bit lies outside them. -/
theorem wordValue_aeFields {v : Nat} (hv : v < 2 ^ 64) : wordValue (aeOp v) (aeFields v) = v := by
  have hop := bits_mul_add_mod v (hi := 63) (lo := 58) (by decide)
  have hacd := bits_mul_add_mod v (hi := 57) (lo := 55) (by decide)
  have hacs := bits_mul_add_mod v (hi := 54) (lo := 52) (by decide)
  have hc := bits_mul_add_mod v (hi := 51) (lo := 51) (by decide)
  have hn := bits_mul_add_mod v (hi := 50) (lo := 50) (by decide)
  have hj := bits_mul_add_mod v (hi := 49) (lo := 49) (by decide)
  have hk := bits_mul_add_mod v (hi := 48) (lo := 48) (by decide)
  have hxm := bits_mul_add_mod v (hi := 47) (lo := 45) (by decide)
  have hxr := bits_mul_add_mod v (hi := 44) (lo := 42) (by decide)
  have hym := bits_mul_add_mod v (hi := 41) (lo := 39) (by decide)
  have hyr := bits_mul_add_mod v (hi := 38) (lo := 36) (by decide)
  have htop : v % 2 ^ (63 + 1) = v := Nat.mod_eq_of_lt hv
  simp only [wordValue, aeOp, aeFields, toNat_bitN, val_ofNat_bits, BitVec.toNat_ofNat]
  linarith

theorem aeEncode_aeFields (v : BitVec 64) : aeEncode (aeOp v.toNat) (aeFields v.toNat) = v := by
  rw [aeEncode_eq_ofNat, wordValue_aeFields v.isLt, BitVec.ofNat_toNat, BitVec.setWidth_eq]

/-! The instruction at the program counter -/

theorem word_of_atPc {s : State} {k op : Nat} {bg : Bool} {w : AeW} (h : atPc s k bg op w = true) :
    FMap.get 0 (clOf s k).imem (ctxGet s k bg).pc = aeEncode op w :=
  eq_of_beq (Bool.and_eq_true_iff.1 h).2

/-- Settles O59: a word gives back the fields that made it, so no two instructions share one, and the fields of a word make it
again, so every word is one. -/
theorem instructionWordsAreExact : Obligations.InstructionWordsAreExact := by
  refine ⟨fun op w hop => aeEncode_fields hop w, fun op op' w w' hop hop' h => aeEncode_injective hop hop' h,
    fun v => ⟨_, _, bits_lt _ _ _, aeEncode_aeFields v⟩, fun s k bg op op' w w' hop hop' h h' => ?_⟩
  exact aeEncode_injective hop hop' ((word_of_atPc h).symm.trans (word_of_atPc h'))

end Sys2Proof.Machine
end

section
/-! Long-running commands: how RECOMBINE.RUN and the others begin, and how the host jobs end (R228, R233, R243, R261, R353, R375,
R397, R401, R412, R425, R445). -/

namespace Sys2Proof.Machine
open Sys2Proof

/-! Beginning -/

theorem mode_of_accepts {op : Nat} {h : Hdr} {modes : List Mode} {s : State} (ha : Accepts op h modes s) :
    s.nose.mode ∈ modes := by
  obtain ⟨-, -, -, hmode, -, -⟩ := ha
  exact hmode

/-- A command that the catalogue takes in this mode passes step 4 of R396. -/
theorem inModes_of_accepts {op : Nat} {h : Hdr} {modes : List Mode} {s : State} (ha : Accepts op h modes s) (v : State)
    (hv : Taken h.src s v) : inModes modes v = stOk := inModes_taken (mode_of_accepts ha) hv

/-- A command that only begins a long-running one wherever it is legal, which no part of the mailbox decides. -/
theorem serve_begins {op : Nat} {h : Hdr} {modes : List Mode} {mode : State → Nat} {body : State → Reply × State} {s : State}
    {b : JobBody} (legal : State → Prop) (ha : Accepts op h modes s) (hm : ∀ v, Taken h.src s v → mode v = stOk) (hs : legal s)
    (hl : ∀ u, legal (withoutMail u) = legal u) (hb : ∀ u, legal u → body u = startJob op h b u) :
    MailOnly (jobBegun op h b s) (serve op h mode body s) :=
  serve_job b ha hm fun v hv => hb v ((hv.reads legal hl).symm ▸ hs)

/-- A command whose response follows later, with an effect that may look at the mailbox's own parts. -/
theorem serve_later_taken {op : Nat} {h : Hdr} {modes : List Mode} {mode : State → Nat} {body : State → Reply × State} {s : State}
    {f : State → State} (ha : Accepts op h modes s) (hm : ∀ v, Taken h.src s v → mode v = stOk)
    (hb : ∀ v, Taken h.src s v → body v = (.later, f v)) : ∃ v, Taken h.src s v ∧ MailOnly (f v) (serve op h mode body s) := by
  have hv := takeHead_taken ⟨h.src, h.tag, BitVec.ofNat 16 op⟩ s
  refine ⟨_, hv, ?_⟩
  have hserve : serve op h mode body s
      = serveUndefined (answer op h (checked op h (mode (takeHead ⟨h.src, h.tag, BitVec.ofNat 16 op⟩ s)) body
        (takeHead ⟨h.src, h.tag, BitVec.ofNat 16 op⟩ s))) := if_pos ha.1
  rw [hserve, checked_accepts ha hv (hm _ hv) body, hb _ hv]
  exact serveUndefined_mailOnly _

/-! RECOMBINE.RUN (R228, R243) -/

/-- The host job of one air beat: the enabled uplink layers among those named, under the weight versions now in effect. -/
def makeHostJob (d : DdPar) (c : Nat) (layers : BitVec 64) (s : State) (b : Nat) : State :=
  makeJob d c b true (((List.range 64).filter (fun l => layers.getLsbD l && ctxUlEn (ctxBeat s c l b))).map
    (fun l => (l, versionAt s (ctxOf s c l) c l s.tb.lin))) s

/-- The retained air beats from `f` to `last`, in ascending order. -/
def retainedIn (s : State) (f last : Stamp) : List Nat :=
  (retained s).filter (fun b => decide (linNear s f ≤ b) && decide (b ≤ linNear s last))

theorem retainedIn_taken (f last : Stamp) {c : Src} {s v : State} (hv : Taken c s v) : retainedIn v f last = retainedIn s f last :=
  hv.reads (retainedIn · f last) fun _ => rfl

theorem recombineRun_of_legal {h : Hdr} {carrier mark : BitVec 8} {queue : BitVec 16} {first last f : Stamp} {layers : BitVec 64}
    {d : DdPar} {s : State} (hfields : jobFieldsOk s carrier.toNat queue.toNat = true)
    (hrange : rangeCheck s mark first last = stOk) (hd : ddPar s = some d) (hf : firstBeat s mark first = some f) :
    recombineRun h carrier mark queue first last layers s
      = startJob 0x1501 h (.recombine carrier.toNat queue.toNat f last layers)
        ((retainedIn s f last).foldl (makeHostJob d carrier.toNat layers) s) := by
  simp only [recombineRun, hfields, hrange, hd, hf]
  rfl

/-- What names a re-combining job: its carrier, its air beat and whether the host asked for it. -/
def jobKey (j : RcJob) : Nat × Nat × Bool := (j.c, j.lin, j.host)

/-- Every decision for a job puts one at the end of the list, whatever becomes of it. -/
theorem makeJob_jobKeys (d : DdPar) (c lin : Nat) (host : Bool) (vers : List (Nat × Stamp)) (s : State) :
    (makeJob d c lin host vers s).dd.jobs.map jobKey = s.dd.jobs.map jobKey ++ [(c, lin, host)] := by
  unfold makeJob
  extract_lets slots distinct bad frozen st todo job s1
  have hdd : s1.dd = s.dd := by
    unfold s1
    split <;> rfl
  rw [count_dd, hdd, List.map_append]
  rfl

theorem foldl_makeHostJob_jobKeys (d : DdPar) (c : Nat) (layers : BitVec 64) (beats : List Nat) (s : State) :
    (beats.foldl (makeHostJob d c layers) s).dd.jobs.map jobKey
      = s.dd.jobs.map jobKey ++ beats.map (fun b => (c, b, true)) := by
  induction beats generalizing s with
  | nil => exact (List.append_nil _).symm
  | cons b bs ih =>
    rw [List.foldl_cons, ih, makeHostJob, makeJob_jobKeys, List.append_assoc]
    rfl

/-- Settles O13: the body makes the jobs of the retained air beats one after another and leaves the response owed. -/
theorem recombineRunMakesJobs : Obligations.RecombineRunMakesJobs := by
  intro s h carrier mark queue first last f layers d ha hfields hrange hd hf
  have hbody : ∀ v, Taken h.src s v → recombineRun h carrier mark queue first last layers v
      = startJob 0x1501 h (.recombine carrier.toNat queue.toNat f last layers)
        ((retainedIn s f last).foldl (makeHostJob d carrier.toNat layers) v) := fun v hv => by
    rw [← retainedIn_taken f last hv]
    exact recombineRun_of_legal ((hv.reads (jobFieldsOk · carrier.toNat queue.toNat) fun _ => rfl).trans hfields)
      ((hv.reads (rangeCheck · mark first last) fun _ => rfl).trans hrange) ((hv.reads ddPar fun _ => rfl).trans hd)
      ((hv.reads (firstBeat · mark first) fun _ => rfl).trans hf)
  obtain ⟨v, hv, hmail⟩ := serve_later_taken
    (f := fun u => jobBegun 0x1501 h (.recombine carrier.toNat queue.toNat f last layers)
      ((retainedIn s f last).foldl (makeHostJob d carrier.toNat layers) u)) ha (inModes_of_accepts ha) hbody
  refine ⟨_, rfl, v, hv.took, hmail, ?_⟩
  have hjobs := foldl_makeHostJob_jobKeys d carrier.toNat layers (retainedIn s f last) v
  rw [hv.reads (·.dd) fun _ => rfl] at hjobs
  exact (congrArg (·.map jobKey) (withoutMail_same hmail.1 (·.dd.jobs) fun _ => rfl)).trans hjobs

/-! The host jobs' end (R401) -/

section
variable {op : Nat} {s : State} {j : Job} {c q : Nat} {a b : Stamp} {l : BitVec 64}

theorem hostJobComplete_of_recombine (hj : jobOf op s = some j) (hb : j.body = .recombine c q a b l) :
    hostJobComplete op s = recombineComplete j c q s := by
  simp only [hostJobComplete, hj, hb]

theorem hostJobComplete_of_csi (hj : jobOf op s = some j) (hb : j.body = .csi c q b l) :
    hostJobComplete op s = csiComplete j c q b l s := by
  simp only [hostJobComplete, hj, hb]

theorem hostJobComplete_of_ddFetch (hj : jobOf op s = some j) (hb : j.body = .ddFetch q a b) :
    hostJobComplete op s = fetchComplete j q a b s := by
  simp only [hostJobComplete, hj, hb]

theorem hostJobComplete_of_codec {dec res : Bool} {n src dst len : Nat} (hj : jobOf op s = some j)
    (hb : j.body = .codec dec res q n src dst len) : hostJobComplete op s = codecComplete j dec res q n src dst len s := by
  simp only [hostJobComplete, hj, hb]

/-- A job of the drydown that an event ended is answered with its RESULT. -/
theorem hostJobComplete_of_failed {r : Nat} (hop : op = 0x1601 ∨ op = 0x1702) (hj : jobOf op s = some j)
    (hb : j.body = .failed r) : hostJobComplete op s = jobReply j 0 r s := by
  simp only [hostJobComplete, hj, hb]
  rcases hop with rfl | rfl <;> rfl

end

/-- The sections of a re-combined air beat leave on the queue. -/
def sendReplay (q : Nat) (s : State) (x : RcJob) : State :=
  (replaySections x s).1.foldl (fun s b => addDue q (.aux b false) s) (replaySections x s).2

/-- The finished beats of a RECOMBINE.RUN on carrier `c`. -/
def recombined (s : State) (c : Nat) : List RcJob := s.dd.jobs.filter (fun x => x.host && x.c == c && x.st == .done)

theorem recombineComplete_of_ended {j : Job} {c q : Nat} {s : State}
    (hend : ∀ x ∈ s.dd.jobs, x.host = true → x.c = c → x.st ≠ .running) :
    recombineComplete j c q s = jobReply j (recombined s c).length 0
      (let u := (recombined s c).foldl (sendReplay q) s
       { u with dd := { u.dd with jobs := u.dd.jobs.filter (fun x => !x.host) } }) := by
  have hnone : ((s.dd.jobs.filter (fun x => x.host && x.c == c)).any (fun x => x.st == .running)) = false := by
    rw [List.any_filter, List.any_eq_false]
    intro x hx
    simpa using hend x hx
  have hdone : (s.dd.jobs.filter (fun x => x.host && x.c == c)).filter (fun x => x.st == .done) = recombined s c := by
    rw [List.filter_filter, recombined]
    exact List.filter_congr fun x _ => Bool.and_comm _ _
  simp only [recombineComplete, hnone, hdone]
  rfl

/-- The stored blocks of an air beat, none where no flacon holds it. -/
def storedBlocks (s : State) (x : Nat) : List (List Byte) :=
  (flaconOf s x).elim [] (fun i => (ulCarriers s).flatMap (fun c => (List.range (carrierOf s c).nprb).flatMap (fun p =>
    (List.range 16).map (fun g => codecEntry (stampOfLin x) c p g 0 (flaconRead s i (flaconBlock s c p g))))))

theorem fetchComplete_eq (j : Job) (q : Nat) (a b : Stamp) (s : State) :
    fetchComplete j q a b s = jobReply j ((retainedIn s a b).flatMap (storedBlocks s)).length 0
      (sendCodec q ((retainedIn s a b).flatMap (storedBlocks s)) s) := by
  have hblocks : storedBlocks s = fun x => match flaconOf s x with
      | none => []
      | some i => (ulCarriers s).flatMap (fun c => (List.range (carrierOf s c).nprb).flatMap (fun p => (List.range 16).map (fun g =>
          codecEntry (stampOfLin x) c p g 0 (flaconRead s i (flaconBlock s c p g))))) := by
    funext x
    unfold storedBlocks
    cases flaconOf s x <;> rfl
  rw [hblocks]
  rfl

/-- CODEC.RUN answers with what its loop has done. -/
theorem codecComplete_of_loop {j : Job} {dec res : Bool} {q n src dst len : Nat} {s u : State} {r : CodecRun}
    (hloop : codecLoop dec res (q != 0xFFFF) len n (⟨0, 0, 0, src, [], [], none⟩, s) = (r, u)) :
    codecComplete j dec res q n src dst len s =
      let result := if r.result = 0 ∧ 0 < r.raw then 1 else r.result
      endJob j (if result ≤ 1 then stOk else stJobFailed) none
        [.num 2 r.done, .num 2 r.raw, .num 1 result, .num 3 0, .num 4 (if q = 0xFFFF then dst + codecWritten r else 0)]
        (if r.result = 2 then count 0x702 0 (codecOutput res q dst r u) else codecOutput res q dst r u) := by
  simp only [codecComplete, hloop, Bool.and_eq_true, decide_eq_true_eq]

/-- Settles O19: the job's body says what completes it, and each completion is one equation. -/
theorem hostJobsComplete : Obligations.HostJobsComplete := by
  intro s j
  refine ⟨fun c q a b l hj hb hend => ?_, fun c q b l hj hb => ?_, fun q a b hj hb => ?_, fun dec res q n src dst len hj hb => ?_,
    fun op r hop hj hb => ?_⟩
  · exact congrArg _ ((hostJobComplete_of_recombine hj hb).trans (recombineComplete_of_ended hend))
  · exact congrArg _ (hostJobComplete_of_csi hj hb)
  · exact congrArg _ ((hostJobComplete_of_ddFetch hj hb).trans (fetchComplete_eq j q a b s))
  · exact ⟨_, _, rfl, congrArg _ ((hostJobComplete_of_codec hj hb).trans (codecComplete_of_loop rfl))⟩
  · exact congrArg _ (hostJobComplete_of_failed (hop.imp (congrArg BitVec.toNat) (congrArg BitVec.toNat)) hj hb)

/-! The other long-running commands -/

theorem csiExport_of_archived {h : Hdr} {carrier : BitVec 8} {queue : BitVec 16} {beat : Stamp} {layers : BitVec 64} {s : State}
    (hfields : jobFieldsOk s carrier.toNat queue.toNat = true) (hbeat : stampValid beat = true) (hstore : storeAway s = false)
    (hfence : isFenced s 7 0 = false)
    (hthere : ∃ l, l < 64 ∧ (FMap.find s.dd.archive (archiveKey carrier.toNat l (linNear s beat))).isSome = true) :
    csiExport h carrier queue beat layers s = startJob 0x1601 h (.csi carrier.toNat queue.toNat beat layers) s := by
  obtain ⟨l, hl, hfound⟩ := hthere
  have hany : (List.range 64).any
      (fun l => (FMap.find s.dd.archive (archiveKey carrier.toNat l (linNear s beat))).isSome) = true :=
    List.any_eq_true.2 ⟨l, List.mem_range.2 hl, hfound⟩
  simp [csiExport, hfields, hbeat, hstore, hfence, hany]

theorem ddFetch_of_range {h : Hdr} {mark : BitVec 8} {queue : BitVec 16} {first last : Stamp} {s : State}
    (hq : isEgress s 4 queue.toNat = true) (hrange : rangeCheck s mark first last = stOk) :
    ddFetch h mark queue first last s
      = startJob 0x1702 h (.ddFetch queue.toNat ((firstBeat s mark first).getD first) last) s := by
  simp [ddFetch, hq, hrange]

theorem codecRun_of_legal {h : Hdr} {op reserve : BitVec 8} {queue count : BitVec 16} {src dst n : BitVec 32} {s : State}
    (hop : op.toNat ≤ 1) (hres : reserve.toNat ≤ 1) (hmode : reserve = 1 ∨ s.nose.mode = .standby)
    (hq : queue = 0xFFFF ∨ isEgress s 4 queue.toNat = true)
    (hsrc : src.toNat + (if op = 0 then 1288 else 24) * count.toNat ≤ 0x4000000)
    (hdst : queue ≠ 0xFFFF ∨ dst.toNat + n.toNat ≤ 0x4000000) (hfence : isFenced s 7 0 = false) :
    codecRun h op reserve queue count src dst n s
      = startJob 0x1801 h (.codec (op == 1) (reserve == 1) queue.toNat count.toNat src.toNat dst.toNat n.toNat) s := by
  have hin : src.toNat + (if op == 0#8 then 1288 * count.toNat else 24 * count.toNat) ≤ 0x4000000 := by
    by_cases h0 : op = 0#8 <;> simpa [h0] using hsrc
  have hreserve : (reserve == 0#8 && s.nose.mode != .standby) = false := by
    rcases hmode with rfl | hmode
    · rfl
    · simp [hmode]
  have hqueue : ((queue != 0xFFFF#16) && !isEgress s 4 queue.toNat) = false := by
    rcases hq with rfl | hq
    · rfl
    · simp [hq]
  have hdest : (!(queue != 0xFFFF#16) && decide (dst.toNat + n.toNat > 0x4000000)) = false := by
    rcases hdst with hne | hdst
    · rw [show (queue != 0xFFFF#16) = true from bne_iff_ne.2 hne]; rfl
    · rw [decide_eq_false (by omega), Bool.and_false]
  unfold codecRun
  dsimp only
  rw [hreserve, hqueue, hdest, if_neg (by simp only [Bool.or_false, Bool.or_eq_true, decide_eq_true_eq]; omega), hfence]
  rfl

theorem memRestore_of_frozen {h : Hdr} {s : State} (hs : s.mem.st = .frozen) : memRestore h s = startJob 0x2205 h .memRestore s :=
  if_pos (by rw [hs]; rfl)

theorem bistRun_of_legal {h : Hdr} {target : BitVec 16} {s : State}
    (htarget : bistOk (target.toNat % 256) (target.toNat / 256) = true) (hloop : anyLoop s = false)
    (hmem : target.toNat % 256 ≠ 0x10 ∧ target.toNat % 256 ≠ 0x11 ∨ (s.mem.st ≠ .frozen ∧ s.mem.st ≠ .reset)) :
    bistRun h target s = startJob 0x3004 h (.bist target) s := by
  have haway : ((decide (target.toNat % 256 = 0x10) || decide (target.toNat % 256 = 0x11))
      && (s.mem.st == .frozen || s.mem.st == .reset)) = false := by
    rcases hmem with ⟨h8, hS⟩ | ⟨hf, hr⟩
    · rw [decide_eq_false h8, decide_eq_false hS]; rfl
    · simp [hf, hr]
  simp only [bistRun, htarget, hloop, haway]
  rfl

theorem flashWrite_of_legal {h : Hdr} {offset : BitVec 32} {erase : BitVec 8} {data : List Byte} (s : State)
    (herase : erase.toNat ≤ 1) (h1 : 1 ≤ data.length) (hmax : data.length ≤ 4064) (hend : offset.toNat + data.length ≤ 2 ^ 32) :
    flashWrite h offset erase data s = startJob 0x3801 h (.flash offset.toNat (erase == 1) data) s := by
  have hne : data.isEmpty = false := by
    rw [List.isEmpty_eq_false_iff]; rintro rfl; simp at h1
  refine if_neg ?_
  simp only [hne, Bool.or_false, Bool.or_eq_true, decide_eq_true_eq]
  omega

/-- FLASH.WRITE passes step 4 in STANDBY, and in BASE unless its fuse bars it (R423). -/
theorem flashModes_taken {c : Src} {s v : State} (hm : s.nose.mode ∈ [Mode.base, .standby])
    (hlock : s.nose.mode = .base → s.boot.sensed.policy.getLsbD 5 = false) (hv : Taken c s v) : flashModes v = stOk := by
  have hbar : (v.nose.mode == .base && v.boot.sensed.policy.getLsbD 5) = false := by
    rw [hv.mode, hv.reads (·.boot) fun _ => rfl]
    by_cases hb : s.nose.mode = .base
    · rw [hlock hb, Bool.and_false]
    · rw [beq_false_of_ne hb, Bool.false_and]
  rw [flashModes, hbar]
  exact inModes_taken hm hv

theorem fuseProgram_of_legal {h : Hdr} {region : BitVec 8} {bit count : BitVec 16} {bits' : List Byte} {s : State}
    (hregion : region.toNat ≤ 5) (hlock : fuseLocked s region.toNat = false) (h1 : 1 ≤ count.toNat) (hmax : count.toNat ≤ 1544)
    (hend : bit.toNat + count.toNat ≤ fuseSize region.toNat) (hbits : bits'.length = ceilDiv count.toNat 8) :
    fuseProgram h region bit count bits' s = startJob 0x3902 h (.fuse region.toNat bit.toNat
      ((List.range count.toNat).map (fun i => bitN (leNat bits') i))) s := by
  refine if_neg ?_
  simp only [hlock, hbits, Bool.or_false, Bool.or_eq_true, decide_eq_true_eq, ne_eq, not_true_eq_false, decide_false]
  omega

/-! TWIN.SWAP (R375) -/

theorem beginHandover_of_pending {planned : BitVec 8} {s : State} {x : Stamp × BitVec 8} (h : s.twn.handover = some x) :
    beginHandover planned s = s := by
  simp only [beginHandover, h]

/-- The registers of a takeover that the lead has named for boundary `b`. -/
def handoverBegun (b : Stamp) (planned : BitVec 8) (s : State) : State :=
  { s with twn := { s.twn with handover := some (b, planned), handoverAck := false, handoverSeq := s.twn.txSeq } }

theorem beginHandover_of_none {planned : BitVec 8} {s : State} (h : s.twn.handover = none) :
    beginHandover planned s = sendTw 0 (.handover (takeoverStamp s (s.tb.t40 + 50000 * 2 ^ 40)) planned)
      (handoverBegun (takeoverStamp s (s.tb.t40 + 50000 * 2 ^ 40)) planned s) := by
  simp only [beginHandover, h]
  rfl

/-- A takeover begins the same whatever the mailbox's own parts hold. -/
theorem beginHandover_taken (planned : BitVec 8) {c : Src} {s v : State} (hv : Taken c s v) :
    MailOnly (beginHandover planned s) (beginHandover planned v) := by
  have hhand : v.twn.handover = s.twn.handover := hv.reads (·.twn.handover) fun _ => rfl
  cases hs : s.twn.handover with
  | some x =>
    rw [beginHandover_of_pending hs, beginHandover_of_pending (hhand.trans hs)]
    exact hv.mail
  | none =>
    rw [beginHandover_of_none hs, beginHandover_of_none (hhand.trans hs),
      hv.reads (fun u => takeoverStamp u (u.tb.t40 + 50000 * 2 ^ 40)) fun _ => rfl]
    have hctr := hv.mail.2.1
    have houts := hv.outs
    obtain ⟨ar, cc, ke, la, ct, rfl⟩ := hv.form
    cases hup : s.twn.up with
    | false =>
      rw [sendTw_of_down (by exact hup), sendTw_of_down (by exact hup)]
      exact ⟨rfl, hctr, [], rfl, by simp⟩
    | true =>
      rw [sendTw_of_up (by exact hup), sendTw_of_up (by exact hup)]
      exact ⟨rfl, hctr, [], rfl, by simp⟩

/-- What TWIN.SWAP waits for, once a takeover is named. -/
def swapBody (s : State) : JobBody := .swap ((s.twn.handover.map (fun x => x.1)).getD 0) s.twn.handoverAck

theorem twinSwap_eq (h : Hdr) (s : State) :
    twinSwap h s = startJob 0x2803 h (swapBody (beginHandover 1 s)) (beginHandover 1 s) := rfl

theorem twinSwap_begins {h : Hdr} {modes : List Mode} {s : State} (ha : Accepts 0x2803 h modes s) :
    MailOnly (jobBegun 0x2803 h (swapBody (beginHandover 1 s)) (beginHandover 1 s))
      (serve 0x2803 h (inModes modes) (twinSwap h) s) := by
  refine serve_later (f := fun u => jobBegun 0x2803 h (swapBody (beginHandover 1 u)) (beginHandover 1 u)) ha
    (inModes_of_accepts ha) (fun v _ => twinSwap_eq h v) (fun v hv => ?_)
  have hmail := beginHandover_taken 1 hv
  rw [withoutMail_same hmail.1 swapBody fun _ => rfl]
  exact hmail.jobBegun _ _ _

/-! The statement -/

/-- Settles O12: each body begins its job where its conditions hold, and no part of the mailbox has a share in them. -/
theorem longCommandsBegin : Obligations.LongCommandsBegin := by
  intro s h
  refine ⟨fun carrier queue beat layers ha hfields hbeat hstore hfence hthere => ⟨_, rfl, ?_⟩,
    fun mark queue first last ha hq hrange => ⟨_, rfl, ?_⟩,
    fun op reserve queue count src dst n ha hop hres hmode hq hsrc hdst hfence => ⟨_, rfl, ?_⟩, fun ha hfrozen => ⟨_, rfl, ?_⟩,
    fun target ha htarget hloop hmem => ⟨_, rfl, ?_⟩, fun offset erase data ha hlock herase h1 hmax hend => ⟨_, rfl, ?_⟩,
    fun region bit count bits' ha hregion hlock h1 hmax hend hbits => ⟨_, rfl, ?_⟩, fun ha => ⟨_, rfl, twinSwap_begins ha⟩⟩
  · exact serve_begins
      (fun u => jobFieldsOk u carrier.toNat queue.toNat = true ∧ storeAway u = false ∧ isFenced u 7 0 = false
        ∧ ∃ l, l < 64 ∧ (FMap.find u.dd.archive (archiveKey carrier.toNat l (linNear u beat))).isSome = true)
      ha (inModes_of_accepts ha) ⟨hfields, hstore, hfence, hthere⟩ (fun _ => rfl)
      (fun u ⟨hfields, hstore, hfence, hthere⟩ => csiExport_of_archived hfields hbeat hstore hfence hthere)
  · exact serve_begins
      (fun u => isEgress u 4 queue.toNat = true ∧ rangeCheck u mark first last = stOk
        ∧ firstBeat u mark first = firstBeat s mark first)
      ha (inModes_of_accepts ha) ⟨hq, hrange, rfl⟩ (fun _ => rfl)
      (fun u ⟨hq, hrange, hfirst⟩ => (ddFetch_of_range hq hrange).trans (by rw [hfirst]))
  · exact serve_begins
      (fun u => (reserve = 1 ∨ u.nose.mode = .standby) ∧ (queue = 0xFFFF ∨ isEgress u 4 queue.toNat = true)
        ∧ isFenced u 7 0 = false)
      ha (inModes_of_accepts ha) ⟨hmode, hq, hfence⟩ (fun _ => rfl)
      (fun u ⟨hmode, hq, hfence⟩ => codecRun_of_legal hop hres hmode hq hsrc hdst hfence)
  · exact serve_begins (·.mem.st = .frozen) ha (inModes_of_accepts ha) hfrozen (fun _ => rfl) (fun _ => memRestore_of_frozen)
  · exact serve_begins
      (fun u => anyLoop u = false
        ∧ (target.toNat % 256 ≠ 0x10 ∧ target.toNat % 256 ≠ 0x11 ∨ (u.mem.st ≠ .frozen ∧ u.mem.st ≠ .reset)))
      ha (inModes_of_accepts ha) ⟨hloop, hmem⟩ (fun _ => rfl) (fun u ⟨hloop, hmem⟩ => bistRun_of_legal htarget hloop hmem)
  · exact serve_job _ ha (fun v hv => flashModes_taken (mode_of_accepts ha) hlock hv)
      (fun v _ => flashWrite_of_legal v herase h1 hmax hend)
  · exact serve_begins (fuseLocked · region.toNat = false) ha (inModes_of_accepts ha) hlock (fun _ => rfl)
      (fun u hlock => fuseProgram_of_legal hregion hlock h1 hmax hend hbits)

end Sys2Proof.Machine
end

section
/-! The reads of a part of the state: LEASE.STATUS, TIME.STATUS, MEM.DIAG, DD.STATUS and COUNTER.READ (R243, R328, R351, R389,
R400, R402). -/

namespace Sys2Proof.Machine
open Sys2Proof

/-! LEASE.STATUS -/

/-- Of the mailbox's own parts LEASE.STATUS reads the lease timer alone, which a command of the holder has restarted (R389). -/
theorem leaseStatus_taken {c : Src} {s v : State} (hv : Taken c s v) : leaseStatus v
    = leaseStatus { s with nose := { s.nose with leaseAt := if holdsLease c s then s.tb.t40 else s.nose.leaseAt } } :=
  (congrArg leaseStatus hv.took).trans rfl

/-! TIME.STATUS -/

/-- The port that TIME.STATUS reports: the one selected, or a free value. -/
def reportedPort (s : State) : Nat := s.tb.port.elim (wrapN 8 (Config.freeValue 1 s.fresh)) (fun p => p.val)

/-- The fields of TIME.STATUS (R328). -/
def timeReport (s : State) : List Fld :=
  [.num 1 (tbStateCode s.tb.st), .num 1 (reportedPort s), .num 2 s.tb.epoch.toNat, .num 1 s.tb.gmClass.toNat, .num 3 0,
   .num 6 (fullTime s.tb.t40).1.toNat, .num 4 (fullTime s.tb.t40).2.1.toNat, .num 2 ((fullTime s.tb.t40).2.2 / 2 ^ 36),
   .num 9 (tbCounter s).toNat, .num 7 0, sfld 8 (sixteenths s.tb.theta), sfld 8 (sixteenths s.tb.mpd),
   sfld 8 (sixteenths s.tb.mref), sfld 8 (roundRat (s.tb.fc * 65536)), sfld 8 (roundRat (s.tb.slew * 65536)),
   .num 6 s.tb.inc.toNat, .num 2 0, .num 8 s.tb.gm.toNat, sfld 8 (asymOf s 0), sfld 8 (asymOf s 1), .num 6 s.tb.ratio.toNat,
   .num 2 0]

/-- The free values are one further where no port is selected: TIME.STATUS has used one. -/
def portReported (s : State) : State := { s with fresh := s.fresh + (if s.tb.port.isSome then 0 else 1) }

theorem timeStatus_eq (s : State) : timeStatus s = okWith (timeReport s) (portReported s) := by
  unfold timeStatus timeReport reportedPort portReported
  cases s.tb.port <;> rfl

/-! MEM.DIAG -/

/-- The last 64 commands of a capture as MEM.DIAG returns them, oldest first. -/
def diagCommands (l : List HbmCmd) : List Fld :=
  (List.range 64).map fun i => match l[63 - i]? with
    | some c => .num 8 (Config.diagCommand c.code c.bank c.row c.col).toNat
    | none => .num 8 (Config.diagCommand 0 0 0 0).toNat

theorem length_diagCommands (l : List HbmCmd) : (diagCommands l).length = 64 := by
  rw [diagCommands, List.length_map, List.length_range]

/-- The fields of MEM.DIAG before the first freeze, made of one free value. -/
def freeDiag (x : Int) : List Fld :=
  [.num 1 (wrapN 8 x), .num 1 (wrapN 8 x), .num 1 (wrapN 8 x), .num 1 (wrapN 8 x), .num 2 (wrapN 16 x), .num 1 (wrapN 8 x),
   .num 1 0, .num 8 (wrapN 64 x)] ++ diagCommands []

/-- The state with one free value used. -/
def freeValueUsed (s : State) : State := { s with fresh := s.fresh + 1 }

theorem length_freeDiag (x : Int) : (freeDiag x).length = 72 := by
  rw [freeDiag, List.length_append, length_diagCommands]
  rfl

theorem memDiag_of_capture {s : State} {d : Diag} (h : s.mem.diag = some d) : memDiag s
    = okWith ([.num 1 d.cause.toNat, .num 1 d.pc, .num 1 d.sid, .num 1 d.bank, .num 2 d.row, .num 1 d.col, .num 1 0,
      .num 8 d.synd.toNat] ++ diagCommands d.cmds) s := by
  simp only [memDiag, h]
  rfl

theorem memDiag_of_no_capture {s : State} (h : s.mem.diag = none) :
    memDiag s = okWith (freeDiag (Config.freeValue 8 s.fresh)) (freeValueUsed s) := by
  simp only [memDiag, h]
  rfl

/-! DD.STATUS -/

/-- The fields of DD.STATUS (R243). -/
def ddReport (s : State) : List Fld :=
  [.num 2 s.dd.i, .num 2 s.dd.n, .num 4 ((retained s).head?.elim 0 (fun b => (stampOfLin b).toNat)),
   .num 4 ((retained s).getLast?.elim 0 (fun b => (stampOfLin b).toNat)), .num 4 (s.dd.mark.elim 0 (fun m => m.toNat)),
   .num 1 ((if (retained s).isEmpty then 0 else 1) + (if s.dd.mark.isSome then 2 else 0)), .num 3 0]

theorem ddStatus_of_frozen {s : State} (h : s.mem.st = .frozen) : ddStatus s = fails stUnavailable s :=
  if_pos (by simpa [storeAway] using h)

theorem ddStatus_of_not_frozen {s : State} (h : s.mem.st ≠ .frozen) : ddStatus s = okWith (ddReport s) s :=
  if_neg (by simpa [storeAway] using h)

/-! COUNTER.READ -/

/-- A counter as a command reads it: NOS_COMMANDS counts the command already. -/
theorem Taken.counterGet {c : Src} {s v : State} (hv : Taken c s v) (code idx : Nat) :
    counterGet v code idx = Machine.counterGet (count 0xD00 0 s) code idx :=
  congrArg (FMap.get 0 · (counterKey code idx)) hv.ctr

theorem counterRead_of_range {counter first n : BitVec 16} (h : counterRangeOk counter first n = true) (s : State) :
    counterRead counter first n s
      = okWith ((List.range n.toNat).map (fun i => .num 8 (counterGet s counter.toNat (first.toNat + i)))) s := if_pos h

theorem counterRead_beyond {counter first n : BitVec 16} (h : ¬ counterRangeOk counter first n = true) (s : State) :
    counterRead counter first n s = fails stBadField s := if_neg h

/-! The statement -/

/-- Settles O2: each read's fields are its report's, and the free values it uses are the only other thing that moves. -/
theorem stateReadsReport : Obligations.StateReadsReport := by
  intro s h
  refine ⟨fun ha => ⟨_, rfl, ?_⟩, fun ha => ⟨_, rfl, ?_⟩, fun ha => ⟨_, rfl, fun d hd => ?_, fun hd => ?_⟩,
    fun ha => ⟨_, rfl, ?_⟩, fun counter first n ha => ⟨_, rfl, ?_⟩⟩
  · exact serve_read ha fun v hv => by rw [okWith, leaseStatus_taken hv]
  · exact serve_set portReported ha (inModes_of_accepts ha)
      (fun v hv => by rw [timeStatus_eq, hv.reads timeReport fun _ => rfl]; rfl)
      (fun v hv => hv.reads (fun u => withoutMail (portReported u)) fun _ => rfl) fun _ => ⟨rfl, rfl, rfl, rfl, rfl, rfl⟩
  · obtain ⟨hmail, hrep⟩ := serve_read ha fun v hv => memDiag_of_capture ((hv.reads (·.mem.diag) fun _ => rfl).trans hd)
    exact ⟨hmail, _, length_diagCommands d.cmds, hrep⟩
  · obtain ⟨hmail, hrep⟩ := serve_set (body := memDiag) freeValueUsed ha (inModes_of_accepts ha)
      (fun v hv => by
        rw [memDiag_of_no_capture ((hv.reads (·.mem.diag) fun _ => rfl).trans hd), hv.reads (·.fresh) fun _ => rfl]; rfl)
      (fun v hv => hv.reads (fun u => withoutMail (freeValueUsed u)) fun _ => rfl) fun _ => ⟨rfl, rfl, rfl, rfl, rfl, rfl⟩
    exact ⟨hmail, _, length_freeDiag _, hrep⟩
  · have hst := fun v (hv : Taken h.src s v) => hv.reads (·.mem.st) fun _ => rfl
    split
    · rename_i hf
      exact serve_read ha fun v hv => ddStatus_of_frozen ((hst v hv).trans hf)
    · rename_i hf
      refine serve_read ha fun v hv => (ddStatus_of_not_frozen ((hst v hv).trans_ne hf)).trans ?_
      rw [hv.reads ddReport fun _ => rfl]
      rfl
  · split
    · rename_i hr
      refine serve_read ha fun v hv => (counterRead_of_range hr v).trans ?_
      simp only [hv.counterGet]
      rfl
    · rename_i hr
      exact serve_read ha fun v _ => counterRead_beyond hr v

end Sys2Proof.Machine
end

section
/-! The MAC's side of the egress rings, and the groups that DD's writer encodes (R240, R241, R269, R290 to R292, R303, R373). -/

namespace Sys2Proof.Machine
open Sys2Proof

/-! Rings, buffers and the MAC -/

theorem ringPop_of_empty {q : Nat} {s : State} (h : (ringState s q).d = 0) : ringPop q s = none := if_pos h

theorem ringPop_of_entry {q : Nat} {s : State} (h : 0 < (ringState s q).d) :
    ringPop q s = some (ringEntryAt s q (ringState s q).rd, ringPut q { ringState s q with
      rd := ((ringState s q).rd + 1) % 2 ^ (ringState s q).n, d := (ringState s q).d - 1 } s) := if_neg (by omega)

theorem not_mem_used_bufferFree (b : Nat) (s : State) : b ∉ (bufferFree b s).sq.used := by
  simp [bufferFree]

theorem find_erase_eq {α : Type} (m : FMap α) (k : Nat) : FMap.find (FMap.erase m k) k = none := by
  unfold FMap.erase
  induction m with
  | nil => rfl
  | cons p t ih =>
    rw [List.filter_cons]
    by_cases hk : p.1 = k
    · simp [hk, ih]
    · simp [hk, FMap.find, ih]

/-- A frame handed to a port that is UP is sent and counted. -/
theorem macSend_of_up {p len : Nat} {o : Out} {s : State} (h : portIsUp s p = true) :
    macSend p len o s = countBy 0x903 p (Nat.max 60 len + 4) (count 0x901 p (emit o s)) := if_pos h

/-- A frame handed to a port that is not UP is discarded and counted (R269). -/
theorem macSend_of_not_up {p len : Nat} {o : Out} {s : State} (h : portIsUp s p = false) :
    macSend p len o s = count 0x908 p s := if_neg (by simp [h])

/-! Taking a packet from its ring -/

/-- The MAC may take a packet from this queue: it is an egress queue, the device is no sillage, and the port is free. -/
def TakesFrom (q : Nat) (s : State) : Prop :=
  (isEgress s 3 q || isEgress s 4 q) = true ∧ s.nose.mode ≠ .sillage ∧ FMap.find s.sq.sending (egressPort s q) = none

/-- What the MAC of port `p` does with descriptor `d` of queue `q` (R290, R292). -/
def descriptorTaken (q p d : Nat) (s : State) : State :=
  let b := bufferOf s (bits d 95 64)
  let len := rdLe s.mem.res (bits d 95 64) 4
  if bitN d 0 || len = 0xFFFFFFFF then bufferFree b s
  else
    let y := regionRead 0 0xB 0 2 (bits d 95 64 + 64) len s
    let sent := macSend p len (.frame p y.1) y.2
    if portIsUp y.2 p then { sent with sq := { sent.sq with sending := FMap.set sent.sq.sending p (b, q, len) } }
    else bufferFree b sent

/-- A frame of queue `q` sent by port `p`: it is counted, and the port keeps its buffer until the last byte has left. -/
def frameSent (q p b len : Nat) (frame : List Byte) (s : State) : State :=
  let sent := countBy 0x903 p (Nat.max 60 len + 4) (count 0x901 p (emit (.frame p frame) s))
  { sent with sq := { sent.sq with sending := FMap.set sent.sq.sending p (b, q, len) } }

section
variable (q p b len : Nat) (frame : List Byte) (s : State)

@[simp] theorem frameSent_outs : (frameSent q p b len frame s).outs = .frame p frame :: s.outs := rfl
@[simp] theorem frameSent_mem : (frameSent q p b len frame s).mem = s.mem := rfl
@[simp] theorem frameSent_rings : (frameSent q p b len frame s).sq.rings = s.sq.rings := rfl
@[simp] theorem find_sending_frameSent : FMap.find (frameSent q p b len frame s).sq.sending p = some (b, q, len) :=
  find_set_eq _ _ _

end

theorem takesFrom_iff (q : Nat) (s : State) : TakesFrom q s
    ↔ (!(isEgress s 3 q || isEgress s 4 q) || s.nose.mode == .sillage || (FMap.find s.sq.sending (egressPort s q)).isSome)
      = false := by
  simp only [TakesFrom, Bool.or_eq_false_iff, Bool.not_eq_false', beq_eq_false_iff_ne, Option.isSome_eq_false_iff,
    Option.isNone_iff_eq_none, and_assoc]

theorem macTxPop_of_not_takesFrom {q : Nat} {s : State} (h : ¬ TakesFrom q s) : macTxPop q s = s := by
  rw [takesFrom_iff, Bool.not_eq_false] at h
  exact if_pos h

theorem macTxPop_of_empty {q : Nat} {s : State} (h : (ringState s q).d = 0) : macTxPop q s = s := by
  unfold macTxPop
  rw [ringPop_of_empty h]
  exact ite_self _

/-- A queue that the MAC may take from gives its oldest descriptor. -/
theorem macTxPop_of_takesFrom {q : Nat} {s : State} (h : TakesFrom q s) (hd : 0 < (ringState s q).d) :
    let r := ringState s q
    let x := regionRead 0 0xB 0 2 (ringEntryAt s q r.rd) 16 (ringPut q { r with rd := (r.rd + 1) % 2 ^ r.n, d := r.d - 1 } s)
    macTxPop q s = descriptorTaken q (egressPort s q) (leNat x.1) x.2 := by
  rw [takesFrom_iff] at h
  unfold macTxPop
  rw [ringPop_of_entry hd]
  exact if_neg (by simp only [h, Bool.false_eq_true, not_false_eq_true])

section
variable {q p d : Nat} {s : State}

/-- A void packet is only freed (R292, R303). -/
theorem descriptorTaken_of_void (h : bitN d 0 = true ∨ rdLe s.mem.res (bits d 95 64) 4 = 0xFFFFFFFF) :
    descriptorTaken q p d s = bufferFree (bufferOf s (bits d 95 64)) s :=
  if_pos (by simpa only [Bool.or_eq_true, decide_eq_true_eq] using h)

/-- A whole packet is sent while its port is UP. -/
theorem descriptorTaken_of_up (hv : bitN d 0 = false) (hl : rdLe s.mem.res (bits d 95 64) 4 ≠ 0xFFFFFFFF) :
    let len := rdLe s.mem.res (bits d 95 64) 4
    let y := regionRead 0 0xB 0 2 (bits d 95 64 + 64) len s
    portIsUp y.2 p = true → descriptorTaken q p d s = frameSent q p (bufferOf s (bits d 95 64)) len y.1 y.2 := by
  intro len y hup
  rw [frameSent, ← macSend_of_up hup]
  exact (if_neg (by simp [hv, hl])).trans (if_pos hup)

/-- A whole packet is discarded and counted while its port is not UP (R269). -/
theorem descriptorTaken_of_not_up (hv : bitN d 0 = false) (hl : rdLe s.mem.res (bits d 95 64) 4 ≠ 0xFFFFFFFF) :
    let y := regionRead 0 0xB 0 2 (bits d 95 64 + 64) (rdLe s.mem.res (bits d 95 64) 4) s
    portIsUp y.2 p = false →
    descriptorTaken q p d s = bufferFree (bufferOf s (bits d 95 64)) (count 0x908 p y.2) := by
  intro y hdown
  rw [← macSend_of_not_up (len := rdLe s.mem.res (bits d 95 64) 4) (o := .frame p y.1) hdown]
  exact (if_neg (by simp [hv, hl])).trans (if_neg (by simpa using hdown))

end

/-! The last byte of a frame -/

theorem macTxDone_of_idle {p : Nat} {s : State} (h : FMap.find s.sq.sending p = none) : macTxDone p s = s := by
  simp only [macTxDone, h]

theorem macTxDone_of_sending {p : Nat} {x : Nat × Nat × Nat} {s : State} (h : FMap.find s.sq.sending p = some x) :
    macTxDone p s = bufferFree x.1 { s with sq := { s.sq with sending := FMap.erase s.sq.sending p } } := by
  simp only [macTxDone, h]

/-! Encoding a group -/

/-- The blocks of group (c, g), the `k`-th of air beat `lin`, encoded into flacon `i`: the bytes coded so far and the state. -/
def groupCoded (d : DdPar) (i k c g lin coded : Nat) (s : State) : Nat × State :=
  (List.range (carrierOf s c).nprb).foldl (fun (a : Nat × State) p =>
    let e := ddEncodeBlock d i (d.inBase + 350208 * (k % 2)) c g lin p a.2
    (a.1 + e.1, e.2)) (coded, s)

theorem groupEncode_of_no_drydown {c g : Nat} {s : State} (h : ddPar s = none) : groupEncode c g s = s := by
  simp only [groupEncode, h]

/-- A group that the formula's beat does not have is not encoded. -/
theorem groupEncode_of_not_mem {c g : Nat} {s : State} (h : (c, g) ∉ ddGroups s) : groupEncode c g s = s := by
  have hidx : (ddGroups s).findIdx? (fun x => x == (c, g)) = none := by
    refine List.findIdx?_eq_none_iff.2 fun x hx => ?_
    rw [beq_eq_false_iff_ne]
    rintro rfl
    exact h hx
  unfold groupEncode
  cases ddPar s with
  | none => rfl
  | some d => simp only [hidx]

section
variable {c g k : Nat} {d : DdPar} {s : State} (hd : ddPar s = some d)
  (hidx : (ddGroups s).findIdx? (fun x => x == (c, g)) = some k) (hk : k ≠ 0)
include hd hidx hk

/-- A later group of a beat that the writer did not begin is discarded. -/
theorem groupEncode_of_not_begun (hw : s.dd.writing = none) : groupEncode c g s = s := by
  simp only [groupEncode, hd, hidx, if_neg hk, hw]

variable {i lin n coded : Nat} (hw : s.dd.writing = some (i, lin, n, coded))
include hw

/-- A group out of its order, or one that comes while DD or the codec is fenced, is discarded. -/
theorem groupEncode_of_discarded (h : n ≠ k ∨ isFenced s 8 0 = true ∨ isFenced s 7 0 = true) : groupEncode c g s = s := by
  simp only [groupEncode, hd, hidx, if_neg hk, hw]
  exact if_pos (by simpa only [Bool.or_eq_true, decide_eq_true_eq, or_assoc] using h)

/-- The group whose turn it is is encoded; the last one completes the flacon. -/
theorem groupEncode_of_turn (hn : n = k) (h8 : isFenced s 8 0 = false) (h7 : isFenced s 7 0 = false) :
    let r := groupCoded d i k c g lin coded s
    groupEncode c g s = if k + 1 = (ddGroups s).length then flaconComplete i lin r.1 r.2
      else { r.2 with dd := { r.2.dd with writing := some (i, lin, k + 1, r.1) } } := by
  simp only [groupEncode, hd, hidx, if_neg hk, hw]
  exact if_neg (by simp [hn, h8, h7])

end

/-! The statement -/

/-- Settles O45: the MAC's three answers to a descriptor, the buffer that the last byte frees, and the writer's order. -/
theorem packetsLeaveAndGroupsAreCoded : Obligations.PacketsLeaveAndGroupsAreCoded := by
  refine ⟨fun q s => ⟨fun h => ?_, fun hs hd => ?_⟩, fun p s => ⟨fun h => ?_, fun x hx => ?_⟩,
    fun c g s => ⟨fun h => ?_, fun d k hd hidx hk => ⟨fun hw => ?_, fun i lin n coded hw => ⟨fun h => ?_, ?_, ?_⟩⟩⟩⟩
  · exact congrArg Host.Outcome.next (h.elim macTxPop_of_not_takesFrom macTxPop_of_empty)
  · have hpop := macTxPop_of_takesFrom hs hd
    refine ⟨fun hvoid => ?_, fun hwhole hlen hup => ?_, fun hwhole hlen hdown => ?_⟩
    · exact congrArg Host.Outcome.next (hpop.trans (descriptorTaken_of_void hvoid))
    · refine ⟨_, congrArg Host.Outcome.next (hpop.trans (descriptorTaken_of_up hwhole hlen hup)), ?_⟩
      exact ⟨frameSent_outs .., find_sending_frameSent .., frameSent_mem .., frameSent_rings ..⟩
    · exact congrArg Host.Outcome.next (hpop.trans (descriptorTaken_of_not_up hwhole hlen hdown))
  · exact congrArg Host.Outcome.next (macTxDone_of_idle h)
  · exact ⟨_, congrArg Host.Outcome.next (macTxDone_of_sending hx), not_mem_used_bufferFree _ _, find_erase_eq _ _, rfl, rfl⟩
  · exact congrArg Host.Outcome.next (h.elim groupEncode_of_no_drydown groupEncode_of_not_mem)
  · exact congrArg Host.Outcome.next (groupEncode_of_not_begun hd hidx hk hw)
  · exact congrArg Host.Outcome.next (groupEncode_of_discarded hd hidx hk hw h)
  · intro hn h8 h7 hlast
    have hnext := (groupEncode_of_turn hd hidx hk hw hn h8 h7).trans (if_neg hlast)
    exact ⟨_, congrArg Host.Outcome.next hnext, rfl, rfl, rfl, rfl⟩
  · intro hn h8 h7 hlast
    exact congrArg Host.Outcome.next ((groupEncode_of_turn hd hidx hk hw hn h8 h7).trans (if_pos hlast))

end Sys2Proof.Machine
end

section
/-! One-way delay measurement: what answers a message, what reports the own request, and what is discarded (R282). -/

namespace Sys2Proof.Machine
open Sys2Proof

/-! A port read after a frame was sent or an event raised -/

@[simp] theorem portGet_macSend (p len : Nat) (o : Out) (s : State) (i : Nat) : portGet (macSend p len o s) i = portGet s i := by
  unfold macSend
  split <;> rfl

/-- A frame that a port sends is one more in FHP_TX_FRAMES. -/
theorem counterGet_macSend_of_up {p len : Nat} {o : Out} {s : State} (h : portIsUp s p = true) :
    counterGet (macSend p len o s) 0x901 p = Nat.min (counterGet s 0x901 p + 1) (2 ^ 48 - 1) := by
  rw [macSend_of_up h, counterGet_countBy_ne (by simp [counterKey])]
  exact counterGet_countBy 0x901 p 1 (emit o s)

/-- The counters of an accepted frame are not FHP_TX_FRAMES. -/
theorem counterGet_tx_frameCounted (f : RxFrame) (s : State) (p : Nat) (hp : p < 65536) :
    counterGet (frameCounted f s) 0x901 p = counterGet s 0x901 p := by
  have hi := f.port.isLt
  unfold frameCounted count
  rw [counterGet_countBy_ne (by unfold counterKey; omega), counterGet_countBy_ne (by unfold counterKey; omega)]

/-! The table "Delay measurement actions" -/

/-- Port `p` takes the status `v` and hands its MAC the delay message `o`. -/
def delaySent (p : Nat) (v : PortSt) (o : Out) (s : State) : State := macSend p (delayLen s p) o (portSet p v s)

@[simp] theorem portGet_delaySent (p : Nat) (v : PortSt) (o : Out) (s : State) : portGet (delaySent p v o s) p = v := by
  rw [delaySent, portGet_macSend, portGet_portSet]

section
variable {p : Nat} {v : PortSt} {s : State} (hup : portIsUp s p = true) (hv : v.st = (portGet s p).st)
include hup hv

theorem portIsUp_portSet_of_st : portIsUp (portSet p v s) p = true := by
  rw [portIsUp, portGet_portSet, hv]
  exact hup

theorem delaySent_outs (o : Out) : (delaySent p v o s).outs = o :: s.outs := by
  rw [delaySent, macSend_of_up (portIsUp_portSet_of_st hup hv)]
  rfl

theorem counterGet_delaySent (o : Out) :
    counterGet (delaySent p v o s) 0x901 p = Nat.min (counterGet s 0x901 p + 1) (2 ^ 48 - 1) :=
  counterGet_macSend_of_up (portIsUp_portSet_of_st hup hv)

end

/-- The measurement ID of a delay message. -/
def delayId (l : List Byte) : BitVec 8 := l.getD 0 0
/-- The action type of a delay message. -/
def delayAct (l : List Byte) : Nat := (l.getD 1 0).toNat

/-- What EV_DELAY_MEASURED carries: the port, the measurement ID, the own stamp and the peer's. -/
def delayReport (p : Nat) (tx : Int) (l : List Byte) : List Fld :=
  [.num 1 p, .num 1 (delayId l).toNat] ++ stampFlds tx ++ [.num 6 (beAt l 2 6), .num 4 (beAt l 8 4)]

section
variable {p : Nat} {src : Mac} {rx : Int} {l : List Byte} {s : State}

/-- A message too short for its fields (R270). -/
theorem delayMessage_of_short (hl : l.length < 20) : delayMessage p src rx l s = count 0x90A p s := if_pos hl

variable (hl : 20 ≤ l.length)
include hl

/-- A sillage sends nothing (R373), so that it discards the message. -/
theorem delayMessage_of_sillage (hm : s.nose.mode = .sillage) : delayMessage p src rx l s = count 0x90B p s := by
  unfold delayMessage
  rw [if_neg (by omega), if_pos (by simp [hm])]
  rfl

variable (hm : s.nose.mode ≠ .sillage)
include hm

/-- A message that is long enough is acted on by its action type. -/
theorem delayMessage_of_long : delayMessage p src rx l s =
    if delayAct l = 0 && !(portGet s p).measured then
      delaySent p { portGet s p with measured := true } (.delayMeas p src 2 (delayId l) rx) s
    else if delayAct l = 3 && !(portGet s p).measured then
      delaySent p { portGet s p with measured := true, request := some (delayId l, txStamp s p (now16 s)) }
        (.delayMeas p src 0 (delayId l) (txStamp s p (now16 s))) s
    else if delayAct l = 2 && (portGet s p).request.any (fun r => r.1 == delayId l) then
      raiseEv 0x22 0x9 (delayReport p (((portGet s p).request.map (fun r => r.2)).getD 0) l)
        (portSet p { portGet s p with request := none } s)
    else count 0x90B p s := by
  unfold delayMessage
  rw [if_neg (by omega), if_neg (by simp [hm])]
  rfl

/-- A request is answered with its receive stamp. -/
theorem delayMessage_of_request (ha : delayAct l = 0) (hv : (portGet s p).measured = false) :
    delayMessage p src rx l s
      = delaySent p { portGet s p with measured := true } (.delayMeas p src 2 (delayId l) rx) s := by
  rw [delayMessage_of_long hl hm]
  exact if_pos (by simp [ha, hv])

/-- A remote request makes the port send a request of its own, which it keeps. -/
theorem delayMessage_of_remoteRequest (ha : delayAct l = 3) (hv : (portGet s p).measured = false) :
    delayMessage p src rx l s
      = delaySent p { portGet s p with measured := true, request := some (delayId l, txStamp s p (now16 s)) }
        (.delayMeas p src 0 (delayId l) (txStamp s p (now16 s))) s := by
  rw [delayMessage_of_long hl hm, if_neg (by simp [ha])]
  exact if_pos (by simp [ha, hv])

/-- A response to the own request is reported, and the request is outstanding no more. -/
theorem delayMessage_of_response {tx : Int} (ha : delayAct l = 2) (hr : (portGet s p).request = some (delayId l, tx)) :
    delayMessage p src rx l s
      = raiseEv 0x22 0x9 (delayReport p tx l) (portSet p { portGet s p with request := none } s) := by
  rw [delayMessage_of_long hl hm, if_neg (by simp [ha]), if_neg (by simp [ha]), if_pos (by simp [ha, hr]), hr]
  rfl

/-- A message of another action type is discarded. -/
theorem delayMessage_of_otherAction (h0 : delayAct l ≠ 0) (h2 : delayAct l ≠ 2) (h3 : delayAct l ≠ 3) :
    delayMessage p src rx l s = count 0x90B p s := by
  rw [delayMessage_of_long hl hm, if_neg (by simp [h0]), if_neg (by simp [h3]), if_neg (by simp [h2])]

/-- A port that answered in this beat discards what asks for another answer. -/
theorem delayMessage_of_answered (ha : delayAct l = 0 ∨ delayAct l = 3) (hv : (portGet s p).measured = true) :
    delayMessage p src rx l s = count 0x90B p s := by
  have h2 : delayAct l ≠ 2 := by omega
  rw [delayMessage_of_long hl hm, if_neg (by simp [hv]), if_neg (by simp [hv]), if_neg (by simp [h2])]

/-- A response to no request of the port's own is discarded. -/
theorem delayMessage_of_strayResponse (ha : delayAct l = 2) (hr : ∀ tx, (portGet s p).request ≠ some (delayId l, tx)) :
    delayMessage p src rx l s = count 0x90B p s := by
  have hstray : (portGet s p).request.any (fun r => r.1 == delayId l) ≠ true := by
    rw [ne_eq, Option.any_eq_true]
    rintro ⟨⟨i, tx⟩, hreq, hi⟩
    have hi : i = delayId l := eq_of_beq hi
    exact hr tx (hi ▸ hreq)
  rw [delayMessage_of_long hl hm, if_neg (by simp [ha]), if_neg (by simp [ha]), if_neg (by simp [hstray])]

end

/-! The statement -/

theorem ecpriFrame_of_delay {f : RxFrame} {e : EthParts} {s : State} {l : List Byte} (h : ecpriParse e.body = some (5, l)) :
    ecpriFrame f e s = delayMessage f.port.val (BitVec.ofNat 48 e.src) (rxStamp s f f.sfd) l s := by
  simp only [ecpriFrame, h, if_true]

/-- Settles O40: the row is the delay message of an accepted frame, and the port of an accepted frame is UP, so that an answer
is sent. -/
theorem delaysAreMeasured : Obligations.DelaysAreMeasured := by
  intro f l s ht hb p u id act v src
  have hexec : exec (.ecpriDelayMeasurement f) s = .next (delayMessage p src (rxStamp u f f.sfd) l u) := by
    rw [exec_ecpriRow ht (by simp), ecpriFrame_of_delay hb]
  obtain ⟨⟨hup, -⟩, -⟩ := ht
  refine ⟨fun hl => hexec.trans (congrArg _ (delayMessage_of_short hl)),
    fun hl hm => hexec.trans (congrArg _ (delayMessage_of_sillage (s := u) hl hm)),
    fun hl hm => ⟨fun ha hv => ?_, fun ha hv => ?_, fun ha tx hr => ?_, ?_⟩⟩
  · refine ⟨_, hexec.trans (congrArg _ (delayMessage_of_request (s := u) hl hm ha hv)), portGet_delaySent .., ?_, ?_⟩
    · exact delaySent_outs (s := u) hup (by rfl) _
    · rw [counterGet_delaySent (s := u) hup (by rfl), counterGet_tx_frameCounted f s p (by omega)]
  · exact ⟨_, hexec.trans (congrArg _ (delayMessage_of_remoteRequest (s := u) hl hm ha hv)), portGet_delaySent ..,
      delaySent_outs (s := u) hup (by rfl) _⟩
  · exact ⟨_, hexec.trans (congrArg _ (delayMessage_of_response (s := u) hl hm ha hr)), rfl⟩
  · rintro (⟨h0, h2, h3⟩ | ⟨ha, hv⟩ | ⟨ha, hr⟩)
    · exact hexec.trans (congrArg _ (delayMessage_of_otherAction (s := u) hl hm h0 h2 h3))
    · exact hexec.trans (congrArg _ (delayMessage_of_answered (s := u) hl hm ha hv))
    · exact hexec.trans (congrArg _ (delayMessage_of_strayResponse (s := u) hl hm ha hr))

end Sys2Proof.Machine
end

section
/-! The management stream, and ports that come UP and go DOWN (R269, R394, R395). -/

namespace Sys2Proof.Machine
open Sys2Proof

/-! A command that arrives in band (R395) -/

/-- Two entries are of one command: the same channel, tag and opcode. -/
def sameCommand (src : Src) (tag : BitVec 32) (op : BitVec 16) (h : Head) : Bool :=
  h.src == src && h.tag == tag && h.opcode == op

/-- The kept command that an entry repeats. -/
def keptRepeat (src : Src) (tag : BitVec 32) (op : BitVec 16) (s : State) : Option Kept :=
  s.nose.kept.find? (fun k => k.src == src && k.tag == tag && k.opcode == op)

section
variable {src : Src} {p : Nat} {tag : BitVec 32} {op : BitVec 16} {s : State}

/-- A repeat of a command still in progress is counted and nothing else. -/
theorem inbandArrive_of_unanswered {k : Kept} (hk : keptRepeat src tag op s = some k) (hr : k.rsp = none) :
    inbandArrive src p tag op s = count 0xD05 0 s := by
  unfold keptRepeat at hk
  simp only [inbandArrive, hk, hr]

/-- A repeat of an answered command gets the kept response. -/
theorem inbandArrive_of_answered {k : Kept} {r : Response} (hk : keptRepeat src tag op s = some k) (hr : k.rsp = some r) :
    inbandArrive src p tag op s = sendRsp p r (count 0xD05 0 s) := by
  unfold keptRepeat at hk
  simp only [inbandArrive, hk, hr]

variable (hk : keptRepeat src tag op s = none)
include hk

/-- A repeat of a command that waits is counted and nothing else. -/
theorem inbandArrive_of_waiting (hw : s.nose.arrived.any (sameCommand src tag op) = true) :
    inbandArrive src p tag op s = count 0xD05 0 s := by
  unfold keptRepeat at hk
  simp only [inbandArrive, hk]
  exact if_pos hw

variable (hw : s.nose.arrived.any (sameCommand src tag op) = false)
include hw

/-- A seventeenth outstanding command is dropped. -/
theorem inbandArrive_of_seventeenth (ho : 16 ≤ outstanding src s) : inbandArrive src p tag op s = count 0xD06 0 s := by
  unfold keptRepeat at hk
  simp only [inbandArrive, hk]
  exact (if_neg (by rw [Bool.not_eq_true]; exact hw)).trans (if_pos ho)

/-- Any other command waits for the Nose. -/
theorem inbandArrive_of_new (ho : outstanding src s < 16) : inbandArrive src p tag op s
    = serveUndefined { s with nose := { s.nose with arrived := s.nose.arrived ++ [⟨src, tag, op⟩] } } := by
  unfold keptRepeat at hk
  simp only [inbandArrive, hk]
  exact (if_neg (by rw [Bool.not_eq_true]; exact hw)).trans (if_neg (by omega))

end

/-! The management header (R394) -/

/-- The header is of version 1 and kind 1, and the frame holds the entry, which holds a command's header. -/
def bringsCommand (e : EthParts) : Prop :=
  let h := beAt e.body 0 8
  bits h 63 60 = 1 ∧ bits h 59 56 = 1 ∧ 16 ≤ bits h 47 32 ∧ 8 + bits h 47 32 ≤ e.body.length

/-- The channel of a management frame: its port, its sender and its VLAN. -/
def entrySource (p : Nat) (e : EthParts) : Src :=
  .inband (if p = 0 then 0 else 1) (BitVec.ofNat 48 e.src) (BitVec.ofNat 12 (e.vid.getD 0))

/-- The model's own test of the header. -/
theorem bringsCommand_iff (e : EthParts) : bringsCommand e ↔
    (bits (beAt e.body 0 8) 63 60 != 1 || bits (beAt e.body 0 8) 59 56 != 1 || decide (bits (beAt e.body 0 8) 47 32 < 16)
      || decide (e.body.length < 8 + bits (beAt e.body 0 8) 47 32)) = false := by
  simp [bringsCommand, and_assoc]

theorem managementEntry_of_not_bringsCommand {p : Nat} {e : EthParts} {s : State} (h : ¬ bringsCommand e) :
    managementEntry p e s = count 0xD06 0 s := by
  rw [bringsCommand_iff, Bool.not_eq_false] at h
  exact if_pos h

theorem managementEntry_of_bringsCommand {p : Nat} {e : EthParts} {s : State} (h : bringsCommand e) :
    managementEntry p e s = inbandArrive (entrySource p e) p (BitVec.ofNat 32 (beAt e.body 8 4))
      (BitVec.ofNat 16 (beAt e.body 12 2)) s := by
  rw [bringsCommand_iff] at h
  exact if_neg (by rw [Bool.not_eq_true]; exact h)

theorem exec_managementFrame {f : RxFrame} {s : State} (ht : FrameTaken 0x88B6 f s) :
    exec (.managementFrame f) s = .next (managementEntry f.port.val (ethParts f.bytes) (frameCounted f s)) := by
  rw [exec_of_mem_plainRows (f := f) (by simp [plainRows]), frameReceive_of_frameTaken ptpDiscard ht]
  rfl

/-! Ports (R269) -/

@[simp] theorem portGet_raiseEv (code unit : Nat) (pay : List Fld) (s : State) (i : Nat) :
    portGet (raiseEv code unit pay s) i = portGet s i := by
  obtain ⟨-, -, -, -, -, -, -, -, -, -, -, hfhp, -⟩ := (raiseEv_eventsOnly code unit pay s).units
  rw [portGet, portGet, hfhp]

/-- Port `p` once it is DOWN, and its fall counted in FHP_LINK_DOWNS. -/
def portFallen (p : Nat) (hiSer : Bool) (s : State) : State :=
  count 0x909 p
    (portSet p { portGet s p with st := 3, aligned := hiSer, hiSer := hiSer, downs := (portGet s p).downs + 1 } s)

/-- A fall is one more in FHP_LINK_DOWNS. -/
theorem counterGet_portFallen (p : Nat) (b : Bool) (s : State) :
    counterGet (portFallen p b s) 0x909 p = Nat.min (counterGet s 0x909 p + 1) 65535 := counterGet_countBy 0x909 p 1 _

section
variable {p : Nat} {s : State}

theorem portUp_of_training_or_down (h : (portGet s p).st = 1 ∨ (portGet s p).st = 3) :
    portUp p s = raiseEv 0x20 0x9 [.num 1 p] (portSet p { portGet s p with st := 2, aligned := true, hiSer := false } s) :=
  if_pos (by simpa using h)

theorem portUp_of_off_or_up (h : (portGet s p).st = 0 ∨ (portGet s p).st = 2) : portUp p s = s :=
  if_neg (by rcases h with h | h <;> simp [h])

theorem portDown_of_up {b : Bool} (h : (portGet s p).st = 2) :
    portDown p b s = raiseEv 0x21 0x9 [.num 1 p] (portFallen p b s) := if_pos (by simp [h])

theorem portDown_of_off {b : Bool} (h : (portGet s p).st = 0) : portDown p b s = s :=
  (if_neg (by simp [h])).trans (if_pos (by simp [h]))

/-- A port that trains or is DOWN only shows what failed. -/
theorem portDown_of_training_or_down {b : Bool} (h : (portGet s p).st = 1 ∨ (portGet s p).st = 3) :
    portDown p b s = portSet p { portGet s p with aligned := (portGet s p).aligned && b, hiSer := b } s :=
  (if_neg (by rcases h with h | h <;> simp [h])).trans (if_neg (by rcases h with h | h <;> simp [h]))

end

/-! The statement -/

/-- Settles O42: the header decides whether a command arrives, what is kept and what waits decide what becomes of it; a
port's state decides what a change of its link does. -/
theorem entriesArriveAndPortsChange : Obligations.EntriesArriveAndPortsChange := by
  refine ⟨fun f s ht => ?_, fun p s => ⟨fun h => ?_, fun h => ?_, fun b h => ?_, fun b h => ?_, fun b h => ?_⟩⟩
  · intro p u e h good src tag op same
    have hexec := exec_managementFrame ht
    have harrive (hgood : good) : exec (.managementFrame f) s = .next (inbandArrive src p tag op u) :=
      hexec.trans (congrArg _ (managementEntry_of_bringsCommand hgood))
    refine ⟨fun hbad => hexec.trans (congrArg _ (managementEntry_of_not_bringsCommand hbad)),
      fun hgood k hk => ⟨fun hr => ?_, fun r hr => ?_⟩, fun hgood hk => ⟨fun hw => ?_, fun hw ho => ?_, fun hw ho => ?_⟩⟩
    · exact (harrive hgood).trans (congrArg _ (inbandArrive_of_unanswered (s := u) hk hr))
    · exact (harrive hgood).trans (congrArg _ (inbandArrive_of_answered (s := u) hk hr))
    · exact (harrive hgood).trans (congrArg _ (inbandArrive_of_waiting (s := u) hk hw))
    · exact (harrive hgood).trans (congrArg _ (inbandArrive_of_seventeenth (s := u) hk hw ho))
    · exact (harrive hgood).trans (congrArg _ (inbandArrive_of_new (s := u) hk hw ho))
  · refine ⟨_, congrArg Host.Outcome.next (portUp_of_training_or_down h), ?_, rfl⟩
    rw [portGet_raiseEv, portGet_portSet]
  · exact congrArg Host.Outcome.next (portUp_of_off_or_up h)
  · refine ⟨_, congrArg Host.Outcome.next (portDown_of_up h), ?_, ?_, portFallen p.val b s, rfl⟩
    · rw [portGet_raiseEv]
      exact portGet_portSet p.val _ s
    · rw [counterGet_raiseEv (by decide) (by omega), counterGet_portFallen]
  · exact congrArg Host.Outcome.next (portDown_of_off h)
  · exact congrArg Host.Outcome.next (portDown_of_training_or_down h)

end Sys2Proof.Machine
end

section
/-! PTP: the Announce that a port keeps, the master's offset and path delay, the exchange of a Delay_Req, and the loss of the
master (R315, R316, R318). -/

namespace Sys2Proof.Machine
open Sys2Proof

/-! PTP state of a port -/

theorem ptpOf_congr {s t : State} (h : t.tb = s.tb) (p : Nat) : ptpOf t p = ptpOf s p := by rw [ptpOf, ptpOf, h]

theorem fromMaster_congr {s t : State} (h : t.tb = s.tb) (p : Nat) (m : PtpMsg) : fromMaster p m t = fromMaster p m s := by
  rw [fromMaster, fromMaster, ptpOf_congr h, h]

theorem ptpOf_ptpSet {p : Nat} (v : PtpPort) {s : State} (hp : p < s.tb.ptp.length) : ptpOf (ptpSet p v s) p = v := by
  simp [ptpOf, ptpSet, hp]

/-- Where the PTP state of all ports is mapped, that of one port is. -/
theorem ptpOf_of_map {s t : State} {g : PtpPort → PtpPort} (h : t.tb.ptp = s.tb.ptp.map g) {i : Nat}
    (hi : i < s.tb.ptp.length) : ptpOf t i = g (ptpOf s i) := by
  simp [ptpOf, h, hi]

/-! A message that its port takes (R315) -/

@[simp] theorem frameCounted_tb (f : RxFrame) (s : State) : (frameCounted f s).tb = s.tb :=
  (countBy_tb ..).trans (count_tb ..)

/-- A PTP message of the own domain and subset, on a port that takes part, is used in the state that counted it. -/
theorem frameReceive_ptpUse {f : RxFrame} {m : PtpMsg} {s : State} (ht : FrameTaken 0x88F7 f s) (hon : ptpOn s f.port.val = true)
    (hm : m.supported = true) (hd : m.domain.toNat = ptpDomain s) (act : State → State) :
    frameReceive f (ptpUse m act) s = act (count 0xA00 f.port.val (frameCounted f s)) := by
  have hused : (ptpOn (frameCounted f s) f.port.val && m.supported
      && m.domain.toNat == ptpDomain (frameCounted f s)) = true := by
    rw [show ptpOn (frameCounted f s) f.port.val = true from hon, hm, hd]
    exact beq_self_eq_true (ptpDomain s)
  rw [frameReceive_of_frameTaken _ ht]
  exact if_pos hused

/-- Each row that brings a PTP message does what its own function does, in the state `u` that counted it. -/
theorem exec_ptpRows {f : RxFrame} {m : PtpMsg} {s u : State} (ht : FrameTaken 0x88F7 f s) (hon : ptpOn s f.port.val = true)
    (hm : m.supported = true) (hd : m.domain.toNat = ptpDomain s) (hu : count 0xA00 f.port.val (frameCounted f s) = u)
    (a : PtpAnnounce) :
    exec (.ptpAnnounce f m a) s = .next (announce f m a u) ∧ exec (.ptpSync f m) s = .next (syncMessage f m u)
      ∧ exec (.ptpFollowUp f m) s = .next (followUp f m u) ∧ exec (.ptpDelayResp f m) s = .next (delayResp f m u) :=
  have huse (act : State → State) : Host.Outcome.next (frameReceive f (ptpUse m act) s) = .next (act u) :=
    congrArg _ (hu ▸ frameReceive_ptpUse ht hon hm hd act)
  ⟨huse _, huse _, huse _, huse _⟩

section
variable {f : RxFrame} {m : PtpMsg} {a : PtpAnnounce} {s : State}

/-! Announce -/

theorem announce_of_worse {b : PtpAnnounce} {cb : BitVec 64} {t0 : Int} (h : (ptpOf s f.port.val).announce = some (b, cb, t0))
    (hc : cb ≠ m.clockId) (hb : betterMaster a m.clockId 0 b cb 0 = false) : announce f m a s = s := by
  simp [announce, h, hc, hb]

/-- The first Announce of a port, a new one of the sender it kept and a better one are kept. -/
theorem announce_of_best (h : ∀ b cb t0, (ptpOf s f.port.val).announce = some (b, cb, t0) →
      cb = m.clockId ∨ betterMaster a m.clockId 0 b cb 0 = true) :
    announce f m a s
      = reselect (ptpSet f.port.val { ptpOf s f.port.val with announce := some (a, m.clockId, rxStamp s f f.sfd) } s) := by
  unfold announce
  extract_lets p v keep
  refine if_pos ?_
  unfold keep
  split
  next b cb t0 hk => simpa using h b cb t0 hk
  next => rfl

/-! Sync, Follow_Up and Delay_Resp (R316) -/

theorem syncMessage_of_stranger (h : fromMaster f.port.val m s = false) : syncMessage f m s = s := by
  simp [syncMessage, h]

theorem syncMessage_of_twoStep (h : fromMaster f.port.val m s = true) (h2 : m.twoStep = true) :
    syncMessage f m s = ptpSet f.port.val
      { ptpOf s f.port.val with
        sync := some ⟨m.seq, rxStamp s f f.sfd, m.correction, (ptpOf s f.port.val).exchange⟩ } s := by
  simp [syncMessage, h, h2]

theorem syncMessage_of_oneStep (h : fromMaster f.port.val m s = true) (h1 : m.twoStep = false) :
    syncMessage f m s = syncValues m.time (rxStamp s f f.sfd) m.correction (ptpOf s f.port.val).exchange
      (ptpOf s f.port.val).asym s := by
  simp [syncMessage, h, h1]

theorem followUp_of_stranger (h : fromMaster f.port.val m s = false) : followUp f m s = s := by
  unfold followUp
  dsimp only
  split <;> simp [h]

theorem followUp_of_held {x : SyncHeld} (h : fromMaster f.port.val m s = true) (hx : (ptpOf s f.port.val).sync = some x)
    (hseq : x.seq = m.seq) : followUp f m s = syncValues m.time x.rx (x.corr + m.correction) x.ex (ptpOf s f.port.val).asym
      (ptpSet f.port.val { ptpOf s f.port.val with sync := none } s) := by
  simp [followUp, h, hx, hseq]

/-- A Follow_Up that follows no Sync held on its port does nothing. -/
theorem followUp_of_not_held (h : ∀ x, (ptpOf s f.port.val).sync = some x → x.seq ≠ m.seq) : followUp f m s = s := by
  unfold followUp
  dsimp only
  split
  next x hx => simp [h x hx]
  next => rfl

theorem delayResp_of_stranger (h : fromMaster f.port.val m s = false) : delayResp f m s = s := by
  unfold delayResp
  dsimp only
  split <;> simp [h]

theorem delayResp_of_answer {t3 : Int} (h : fromMaster f.port.val m s = true) (hus : m.forUs = true)
    (hr : (ptpOf s f.port.val).req = some (m.seq, t3)) :
    delayResp f m s = ptpSet f.port.val
      { ptpOf s f.port.val with req := none, exchange := some (t3, m.time, m.correction) } s := by
  simp [delayResp, h, hus, hr]

/-- A Delay_Resp for another receiver, or to no Delay_Req that waits, does nothing. -/
theorem delayResp_of_no_answer (h : m.forUs = false ∨ ∀ t3, (ptpOf s f.port.val).req ≠ some (m.seq, t3)) :
    delayResp f m s = s := by
  unfold delayResp
  dsimp only
  split
  next q t3 hr =>
    rcases h with hus | hno
    · simp [hus]
    · have hq : q ≠ m.seq := fun he => hno t3 (he ▸ hr)
      simp [hq]
  next => rfl

end

/-! Delay_Req -/

@[simp] theorem portIsUp_ptpSet (p : Nat) (v : PtpPort) (s : State) (i : Nat) : portIsUp (ptpSet p v s) i = portIsUp s i := rfl

@[simp] theorem ptpOf_macSend (p len : Nat) (o : Out) (s : State) (i : Nat) : ptpOf (macSend p len o s) i = ptpOf s i := by
  unfold macSend
  split <;> rfl

theorem macSend_outs_of_up {p len : Nat} {o : Out} {s : State} (h : portIsUp s p = true) :
    (macSend p len o s).outs = o :: s.outs := by
  rw [macSend_of_up h]
  rfl

theorem delayReqSend_of_selected {p : Fin 2} {x : Int} {s : State} (hon : ptpOn s p.val = true) (hp : s.tb.port = some p)
    (hup : portIsUp s p.val = true) :
    delayReqSend p x s = macSend p.val 58 (.delayReq p.val (ptpOf s p.val).nextSeq) (ptpSet p.val { ptpOf s p.val with
      req := some ((ptpOf s p.val).nextSeq, txStamp s p.val x), nextSeq := (ptpOf s p.val).nextSeq + 1 } s) :=
  if_pos (by simp [hon, hp, hup])

theorem delayReqSend_of_not_selected {p : Fin 2} {x : Int} {s : State}
    (h : ptpOn s p.val = false ∨ s.tb.port ≠ some p ∨ portIsUp s p.val = false) : delayReqSend p x s = s := by
  refine if_neg fun hsend => ?_
  simp only [Bool.and_eq_true, beq_iff_eq] at hsend
  obtain ⟨⟨hon, hp⟩, hup⟩ := hsend
  rcases h with h | h | h
  · exact Bool.false_ne_true (h.symm.trans hon)
  · exact h hp
  · exact Bool.false_ne_true (h.symm.trans hup)

/-! The loss of the master (R318) -/

@[simp] theorem raiseEv_tb (code unit : Nat) (pay : List Fld) (s : State) : (raiseEv code unit pay s).tb = s.tb := by
  obtain ⟨-, -, -, h, -⟩ := (raiseEv_eventsOnly code unit pay s).units
  exact h

/-- Entering a state of the discipline sets the state and leaves PTP on the ports. -/
theorem setTbState_tb (st : TbState) (s : State) : (setTbState st s).tb.st = st ∧ (setTbState st s).tb.ptp = s.tb.ptp := by
  unfold setTbState
  extract_lets old _ u _ v
  have hv : v.tb.st = st ∧ v.tb.ptp = s.tb.ptp := by
    unfold v
    split <;> exact ⟨rfl, rfl⟩
  split
  · exact hv
  · rw [raiseEv_tb]
    exact hv

@[simp] theorem setTbState_st (st : TbState) (s : State) : (setTbState st s).tb.st = st := (setTbState_tb st s).1

@[simp] theorem setTbState_ptp (st : TbState) (s : State) : (setTbState st s).tb.ptp = s.tb.ptp := (setTbState_tb st s).2

theorem tbLose_of_active {s : State} (h : tbActive s = true) : tbLose s = setTbState .holdover s := if_pos h

theorem tbLose_of_not_active {s : State} (h : tbActive s = false) : tbLose s = s := if_neg (by simp [h])

theorem tbLose_ptp (s : State) : (tbLose s).tb.ptp = s.tb.ptp := by
  unfold tbLose
  split
  · exact setTbState_ptp _ s
  · rfl

theorem announceTimeout_of_port {s : State} {p : Fin 2} (h : s.tb.port = some p) :
    announceTimeout s = reselect (ptpSet p.val { ptpOf s p.val with announce := none } s) := by
  simp only [announceTimeout, h]

theorem announceTimeout_of_no_port {s : State} (h : s.tb.port = none) : announceTimeout s = s := by
  simp only [announceTimeout, h]

/-! The selection (R315, R318) -/

/-- The Announce of the port that the BMCA selects. -/
def bmcaAnnounce (s : State) : Option (PtpAnnounce × BitVec 64 × Int) := (bmcaPort s).bind (fun p => (ptpOf s p.val).announce)
/-- Its grandmaster. -/
def bmcaGm (s : State) : BitVec 64 := (bmcaAnnounce s).elim 0 (fun x => x.1.gm)

/-- PTP of a port without its Sync, Delay_Req and exchange: they were the old master's. -/
def exchangeless (q : PtpPort) : PtpPort := { q with sync := none, req := none, exchange := none }

/-- The state with the old master lost, where there was one. -/
def masterLeft (s : State) : State := if s.tb.port.isSome then tbLose s else s

theorem masterLeft_ptp (s : State) : (masterLeft s).tb.ptp = s.tb.ptp := by
  unfold masterLeft
  split
  · exact tbLose_ptp s
  · rfl

theorem masterLeft_of_active {s : State} (hp : s.tb.port.isSome = true) (ha : tbActive s = true) :
    (masterLeft s).tb.st = .holdover := by
  rw [masterLeft, if_pos hp, tbLose_of_active ha, setTbState_st]

/-- The selection in effect, whether it is new or the old one. -/
theorem reselect_selects (s : State) : (reselect s).tb.port = bmcaPort s ∧ (reselect s).tb.gm = bmcaGm s
    ∧ (reselect s).tb.gmClass = (bmcaAnnounce s).elim 0 (fun x => x.1.clockClass) := by
  unfold reselect
  extract_lets p a gm cls
  split
  next h =>
    rw [Bool.and_eq_true, beq_iff_eq, beq_iff_eq] at h
    exact ⟨h.1.symm, h.2.symm, rfl⟩
  next => exact ⟨rfl, rfl, rfl⟩

theorem reselect_of_same {s : State} (hp : bmcaPort s = s.tb.port) (hg : bmcaGm s = s.tb.gm) :
    reselect s = { s with tb := { s.tb with gmClass := (bmcaAnnounce s).elim 0 (fun x => x.1.clockClass) } } := by
  have hgm : (((bmcaPort s).bind fun p => (ptpOf s p.val).announce).elim 0 fun x => x.1.gm) = s.tb.gm := hg
  exact if_pos (by rw [hgm]; simp [hp])

theorem reselect_of_changed {s : State} (h : bmcaPort s ≠ s.tb.port ∨ bmcaGm s ≠ s.tb.gm) :
    reselect s = { masterLeft s with tb := { (masterLeft s).tb with
      port := bmcaPort s, gm := bmcaGm s, gmClass := (bmcaAnnounce s).elim 0 (fun x => x.1.clockClass), values := []
      ptp := s.tb.ptp.map exchangeless } } := by
  rw [← masterLeft_ptp s]
  refine if_neg fun hsame => ?_
  rw [Bool.and_eq_true, beq_iff_eq, beq_iff_eq] at hsame
  obtain ⟨hp, hg⟩ := hsame
  exact h.elim (· hp) (· hg)

/-! The statement -/

/-- Settles O43: a message taken does in the state that counted it what its own function does, and each function has an
equation for each of its outcomes. -/
theorem ptpFollowsTheMaster : Obligations.PtpFollowsTheMaster := by
  refine ⟨fun f m a s ht hon hm hd => ?_, fun p x s => ?_, fun s => ?_, fun s => ?_⟩
  · intro p u v rx values
    obtain ⟨hann, hsync, hfollow, hresp⟩ := exec_ptpRows (u := u) ht hon hm hd rfl a
    have htb : u.tb = s.tb := (count_tb ..).trans (frameCounted_tb f s)
    have hv : v = ptpOf u p := (ptpOf_congr htb p).symm
    have hvalues (t1 t2 corr : Int) (ex : Option (Int × Int × Int)) (w : State) :
        syncValues t1 t2 corr ex v.asym w = values t1 t2 corr ex w := by cases ex <;> rfl
    rw [← fromMaster_congr htb]
    clear_value values v u
    subst hv
    refine ⟨fun b cb t0 hk hc hb => ?_, fun hbest => ?_, fun hno => ⟨?_, ?_, ?_⟩, fun hyes h2 => ?_, fun hyes h1 => ?_,
      fun h hyes hh hseq => ?_, fun hno => ?_, fun t3 hyes hus hr => ?_, fun hno => ?_⟩
    · exact hann.trans (congrArg _ (announce_of_worse hk hc hb))
    · exact hann.trans (congrArg _ (announce_of_best hbest))
    · exact hsync.trans (congrArg _ (syncMessage_of_stranger hno))
    · exact hfollow.trans (congrArg _ (followUp_of_stranger hno))
    · exact hresp.trans (congrArg _ (delayResp_of_stranger hno))
    · exact hsync.trans (congrArg _ (syncMessage_of_twoStep hyes h2))
    · rw [hsync, syncMessage_of_oneStep hyes h1, hvalues]
    · rw [hfollow, followUp_of_held hyes hh hseq, hvalues]
    · exact hfollow.trans (congrArg _ (followUp_of_not_held hno))
    · exact hresp.trans (congrArg _ (delayResp_of_answer hyes hus hr))
    · exact hresp.trans (congrArg _ (delayResp_of_no_answer hno))
  · have hexec : exec (.ptpDelayReqSend p x) s = .next (delayReqSend p x s) := rfl
    refine ⟨fun hon hp hup hlen => ⟨_, hexec, ?_⟩, fun h => hexec.trans (congrArg _ (delayReqSend_of_not_selected h))⟩
    dsimp only
    rw [delayReqSend_of_selected hon hp hup, ptpOf_macSend, ptpOf_ptpSet _ hlen,
      macSend_outs_of_up (by rwa [portIsUp_ptpSet]), ptpSet_outs]
    exact ⟨rfl, rfl⟩
  · exact ⟨fun p hp => congrArg Host.Outcome.next (announceTimeout_of_port hp),
      fun hp => congrArg Host.Outcome.next (announceTimeout_of_no_port hp),
      fun ha => ⟨_, congrArg Host.Outcome.next (tbLose_of_active ha), setTbState_st ..⟩,
      fun ha => congrArg Host.Outcome.next (tbLose_of_not_active ha)⟩
  · obtain ⟨hport, hgm, hclass⟩ := reselect_selects s
    refine ⟨hport, hgm, hclass, fun hp hg => ?_, fun h => ?_⟩
    · rw [reselect_of_same hp hg]
      exact ⟨rfl, rfl, rfl⟩
    · rw [reselect_of_changed h]
      exact ⟨rfl, masterLeft_of_active, fun i hi => ptpOf_of_map (g := exchangeless) rfl hi⟩

end Sys2Proof.Machine
end

section
/-! One step: what it keeps of the legal states, and the one command that has no next state (R334, R402, R404, R415, R423,
R431). -/

namespace Sys2Proof.Machine
open Sys2Proof

theorem step_of_idle {s : State} (h : s.pending = []) : step s = .next (idleCycle s) := by
  rw [step, h]

theorem step_of_front {s : State} {i : Instr} {rest : List Instr} (h : s.pending = i :: rest) :
    step s = exec i { s with pending := rest } := by
  rw [step, h]

/-- What waits in the queue is no part of the legal form. -/
theorem Canon.withPending {s : State} (h : Canon s) (l : List Instr) : Canon { s with pending := l } :=
  ⟨h.res, h.fe, h.cf, h.hbm, h.ctrWf, h.ctrMax, h.evt, h.log, h.records⟩

/-- A step goes on, unless the front of the queue is a request beyond the stack. -/
theorem step_acts (s : State) : (∃ t, step s = .next t)
    ∨ ∃ port write addr data rest, s.pending = .hbmRequest port write addr data :: rest ∧ 24 * 2 ^ 30 ≤ addr.toNat
      ∧ step s = .fault .noSuchAddress := by
  cases hp : s.pending with
  | nil => exact .inl ⟨_, step_of_idle hp⟩
  | cons i rest =>
    rw [step_of_front hp]
    rcases exec_acts i { s with pending := rest } with hnext | ⟨port, write, addr, data, rfl, ha, hf⟩
    · exact .inl hnext
    · exact .inr ⟨port, write, addr, data, rest, rfl, ha, hf⟩

/-- Settles O58: a step keeps what `Keeps` says, and of the commands the request beyond the stack alone has no next state. -/
theorem stepKeepsALegalState : Obligations.StepKeepsALegalState := by
  refine ⟨fun s t hc he => ?_, step_acts⟩
  obtain ⟨hpending, houts, hfresh, hfuses, hcanon⟩ := step_keeps he
  exact ⟨hcanon (hc.withPending _), hpending, houts, hfuses, hfresh⟩

end Sys2Proof.Machine
end

section
/-! The HBM controller's operations: what the panic update, a touch, a write and a freeze leave of the memory's parts (R343,
R344, R348 to R351). -/

namespace Sys2Proof.Machine
open Sys2Proof

/-! Panic (R344) -/

/-- Panic follows the staging levels in its two flags alone. -/
theorem panicUpdate_mem (s : State) : ∃ w r, (panicUpdate s).mem = { s.mem with panicW := w, panicR := r } := by
  unfold panicUpdate
  extract_lets kib w r m s1 s2
  refine ⟨w, r, ?_⟩
  have h2 : s2.mem = s1.mem := by
    unfold s2
    split <;> rfl
  split <;> exact h2

theorem panicUpdate_field {α : Type} (f : MemSt → α) (hf : ∀ m w r, f { m with panicW := w, panicR := r } = f m) (s : State) :
    f (panicUpdate s).mem = f s.mem := by
  obtain ⟨w, r, h⟩ := panicUpdate_mem s
  rw [h, hf]

@[simp] theorem panicUpdate_pcs (s : State) : (panicUpdate s).mem.pcs = s.mem.pcs := panicUpdate_field (·.pcs) (fun _ _ _ => rfl) s
@[simp] theorem panicUpdate_hbm (s : State) : (panicUpdate s).mem.hbm = s.mem.hbm := panicUpdate_field (·.hbm) (fun _ _ _ => rfl) s

/-! Pseudo-channels -/

theorem pcOf_congr {s t : State} (h : t.mem.pcs = s.mem.pcs) (p : Nat) : pcOf t p = pcOf s p := by rw [pcOf, pcOf, h]

@[simp] theorem pcOf_count (code idx : Nat) (s : State) (p : Nat) : pcOf (count code idx s) p = pcOf s p := rfl
@[simp] theorem pcOf_panicUpdate (s : State) (p : Nat) : pcOf (panicUpdate s) p = pcOf s p := pcOf_congr (panicUpdate_pcs s) p
@[simp] theorem bankOf_bankPut (b : Nat) (v : Bank) (p : PcSt) : bankOf (bankPut b v p) b = v := get_put_eq _ _ _ _

/-- What a change of every listed value leaves of it, it leaves of what any key holds. -/
theorem get_map_field {α β : Type} (d : α) (g : α → α) (f : α → β) (hf : ∀ x, f (g x) = f x) (m : FMap α) (k : Nat) :
    f (FMap.get d (m.map fun p => (p.1, g p.2)) k) = f (FMap.get d m k) := by
  induction m with
  | nil => rfl
  | cons p t ih =>
    simp only [List.map_cons, FMap.get]
    split
    · exact hf p.2
    · exact ih

/-! The touch that abandons an entry to self-refresh or ends one (R348) -/

/-- A pseudo-channel that has had one unit retired at the exit from self-refresh. -/
def unitRetired (p : PcSt) : PcSt := { p with debt := p.debt - 1, unit := 0, forced := false }

/-- A touch ends an idle self-refresh. -/
def touchWakes (s : State) : Bool := s.mem.st == .selfRefresh && s.mem.change.isNone

theorem hbmTouch_mem (s : State) : (hbmTouch s).mem = { s.mem with
    entering := false, lastReq := s.tb.t40
    st := if touchWakes s then .active else s.mem.st
    pcs := if touchWakes s then s.mem.pcs.map (fun p => (p.1, unitRetired p.2)) else s.mem.pcs } := by
  cases hw : touchWakes s <;> cases he : s.mem.entering
  all_goals
    rw [touchWakes] at hw
    simp [hbmTouch, srExit, unitRetired, he, hw]

theorem hbmTouch_field {α : Type} (f : MemSt → α)
    (hf : ∀ m e l st pcs, f { m with entering := e, lastReq := l, st := st, pcs := pcs } = f m) (s : State) :
    f (hbmTouch s).mem = f s.mem := by
  rw [hbmTouch_mem, hf]

theorem pcOf_hbmTouch_field {α : Type} (f : PcSt → α) (hf : ∀ p, f (unitRetired p) = f p) (s : State) (i : Nat) :
    f (pcOf (hbmTouch s) i) = f (pcOf s i) := by
  rw [pcOf, hbmTouch_mem]
  dsimp only
  split
  · exact get_map_field _ _ f hf _ _
  · rfl

@[simp] theorem queue_hbmTouch (s : State) (i : Nat) : (pcOf (hbmTouch s) i).queue = (pcOf s i).queue :=
  pcOf_hbmTouch_field (·.queue) (fun _ => rfl) s i
@[simp] theorem nextSeq_hbmTouch (s : State) (i : Nat) : (pcOf (hbmTouch s) i).nextSeq = (pcOf s i).nextSeq :=
  pcOf_hbmTouch_field (·.nextSeq) (fun _ => rfl) s i
@[simp] theorem orderAt_hbmTouch (s : State) (a : Nat) : orderAt (hbmTouch s) a = orderAt s a := by
  rw [orderAt, hbmTouch_field (·.regions) fun _ _ _ _ _ => rfl, orderAt]
@[simp] theorem hbmTouch_hbm (s : State) : (hbmTouch s).mem.hbm = s.mem.hbm := hbmTouch_field (·.hbm) (fun _ _ _ _ _ => rfl) s
@[simp] theorem hbmTouch_hbmGen (s : State) : (hbmTouch s).mem.hbmGen = s.mem.hbmGen :=
  hbmTouch_field (·.hbmGen) (fun _ _ _ _ _ => rfl) s
@[simp] theorem hbmTouch_rtr (s : State) : (hbmTouch s).mem.rtr = s.mem.rtr := hbmTouch_field (·.rtr) (fun _ _ _ _ _ => rfl) s
@[simp] theorem hbmTouch_tb (s : State) : (hbmTouch s).tb = s.tb := by
  unfold hbmTouch
  extract_lets m u v
  have hv : v.tb = u.tb := by
    unfold v
    split <;> rfl
  have hu : u.tb = s.tb := by
    unfold u
    split <;> rfl
  exact hv.trans hu

/-! The bytes of the stack -/

theorem hbmByte_congr {s t : State} (hm : t.mem.hbm = s.mem.hbm) (hg : t.mem.hbmGen = s.mem.hbmGen) (a : Nat) :
    hbmByte t a = hbmByte s a := by
  rw [hbmByte, hm, hg, hbmByte]

/-- A touch leaves the stack as the queued writes leave it. -/
@[simp] theorem hbmView_hbmTouch (s : State) (a : Nat) : hbmView (hbmTouch s) a = hbmView s a := by
  simp only [hbmView, orderAt_hbmTouch, queue_hbmTouch, hbmByte_congr (hbmTouch_hbm s) (hbmTouch_hbmGen s)]

theorem find_hbmStore (m : FMap Byte) (a k : Nat) (l : List Byte) :
    FMap.find (hbmStore m a l) k = if a ≤ k ∧ k < a + l.length then l[k - a]? else FMap.find m k := by
  induction l generalizing m a with
  | nil => exact (if_neg fun h => by simp at h; omega).symm
  | cons x t ih =>
    rw [hbmStore, ih]
    by_cases hk : k = a
    · subst hk
      rw [if_neg (by omega), find_set_eq, if_pos ⟨Nat.le_refl _, by simp⟩, Nat.sub_self]
      rfl
    · rw [find_set_ne _ _ hk]
      refine if_ctx_congr (by simp only [List.length_cons]; omega) (fun h => ?_) (fun _ => rfl)
      obtain ⟨j, hj⟩ : ∃ j, k - a = j + 1 := ⟨k - a - 1, by omega⟩
      rw [hj, List.getElem?_cons_succ, show k - (a + 1) = j by omega]

theorem hbmByte_hbmWrite_of_in {a i : Nat} {l : List Byte} (hi : i < l.length) (s : State) :
    hbmByte (hbmWrite a l s) (a + i) = l.getD i 0 := by
  have hfind : FMap.find (hbmWrite a l s).mem.hbm (a + i) = some l[i] := by
    rw [hbmWrite, find_hbmStore, if_pos ⟨by omega, by omega⟩, Nat.add_sub_cancel_left, List.getElem?_eq_getElem hi]
  rw [hbmByte, hfind, List.getD_eq_getElem?_getD, List.getElem?_eq_getElem hi]
  rfl

theorem hbmByte_hbmWrite_of_out {a k : Nat} {l : List Byte} (hk : k < a ∨ a + l.length ≤ k) (s : State) :
    hbmByte (hbmWrite a l s) k = hbmByte s k := by
  have hfind : FMap.find (hbmWrite a l s).mem.hbm k = FMap.find s.mem.hbm k :=
    (find_hbmStore ..).trans (if_neg (by omega))
  rw [hbmByte, hfind]
  rfl

/-! The freeze (R350, R351) -/

/-- A controller in service freezes, is not READY, and captures the cause. -/
theorem hbmFreeze_of_serving {s : State} (h : s.mem.st = .active ∨ s.mem.st = .selfRefresh) (cause : Nat)
    (loc : Option (Nat × HbmCmd × BitVec 64)) :
    (hbmFreeze cause loc s).mem.st = .frozen ∧ (hbmFreeze cause loc s).mem.ready = false
      ∧ ∃ d, (hbmFreeze cause loc s).mem.diag = some d ∧ d.cause = BitVec.ofNat 8 cause := by
  unfold hbmFreeze
  rw [if_neg (by rcases h with h | h <;> rw [h] <;> decide), if_neg (by rcases h with h | h <;> rw [h] <;> decide)]
  extract_lets fv v s1 d m s2 s3 s4 s5 s6
  have hd : d.cause = BitVec.ofNat 8 cause := by
    unfold d
    split <;> rfl
  have h3 : MemStill s2 s3 := by
    unfold s3
    exact raiseEv_memStill _ _ _ (count_memStill _ _ (MemStill.refl s2))
  have h5 : MemStill s2 s5 := captureFreeze_memStill (raiseErr_memStill _ _ _ _ _ h3)
  have hall : MemStill s2 (if inService s5 then
      (if s6.nose.mode == .sillage then goUnfit 6 s6 else ddFreeze s6.tb.lin s6) else s5) := by
    refine memStill_ite (memStill_ite ?_ ?_) h5
    · exact goUnfit_memStill _ (makeVerdict_memStill _ _ _ _ h5)
    · exact ddFreeze_memStill _ (makeVerdict_memStill _ _ _ _ h5)
  rw [hall.same]
  exact ⟨rfl, rfl, d, rfl, hd⟩

end Sys2Proof.Machine
end

section
/-! The host's memory commands: MEM.READ, MEM.WRITE, MEM.CONFIG and MEM.FREEZE (R336, R337, R350, R351). -/

namespace Sys2Proof.Machine
open Sys2Proof

/-- What looks at no part of the mailbox is the same once a command has been taken. -/
theorem Took.reads {α : Type} {c : Src} {s v : State} (hv : Took c s v) (f : State → α) (hf : ∀ u, f (withoutMail u) = f u) :
    f v = f s := by
  refine withoutMail_same ?_ f hf
  rw [hv]
  rfl

/-- A command that answered left in the memory what its effect did there. -/
theorem Done.mem {op st : Nat} {h : Hdr} {pay : List Fld} {f : State → State} {s t : State} (hd : Done op h st pay f s t)
    (P : MemSt → Prop) (hP : ∀ v, Took h.src s v → P (f v).mem) : P t.mem := by
  obtain ⟨v, hv, hmail, -⟩ := hd
  rw [withoutMail_same hmail.1 (·.mem) fun _ => rfl]
  exact hP v hv

/-- A command of the mailbox whose effect is `Still` answers at once. -/
theorem serve_still {op st : Nat} {h : Hdr} {modes : List Mode} {body : State → Reply × State} {s : State} {pay : List Fld}
    {f : State → State} (ha : Accepts op h modes s) (hb : ∀ v, Taken h.src s v → body v = (.done st pay none 0, f v))
    (hf : ∀ v, Still v (f v)) : Done op h st pay f s (serve op h (inModes modes) body s) := by
  refine serve_took f ha (inModes_of_accepts ha) hb fun v => ?_
  have hsame := (hf v).same
  simp only [answering, Prod.mk.injEq] at hsame
  obtain ⟨hprod, hcons, ht, hports⟩ := hsame
  exact ⟨hprod, hcons, ht, fun _ => hports⟩

/-! The bodies of accepted commands -/

section
variable {s : State} {addr : BitVec 64} {n : BitVec 16}

theorem memRead_of_legal (h1 : 1 ≤ n.toNat) (hn : n.toNat ≤ 4064) (hreach : hostReach s addr.toNat n.toNat = true)
    (hs : hbmServes s = true) : memRead addr n s
      = okWith [.str ((List.range n.toNat).map (fun i => hbmView s (addr.toNat + i)))] (hbmTouch s) := by
  simp [memRead, hreach, hs, show ¬ n.toNat < 1 by omega, show ¬ 4064 < n.toNat by omega]

theorem memWrite_of_legal {data : List Byte} (h1 : 1 ≤ n.toNat) (hn : n.toNat ≤ 4064) (hlen : data.length = n.toNat)
    (hreach : hostReach s addr.toNat n.toNat = true) (hs : hbmServes s = true) : memWrite addr n data s
      = okWith [] (hbmWrite addr.toNat data (overlayWrites addr.toNat data (hbmTouch s))) := by
  simp [memWrite, hreach, hs, hlen, show ¬ n.toNat < 1 by omega, show ¬ 4064 < n.toNat by omega]

end

section
variable {s : State} {regions : BitVec 256} {par : BitVec 128}

/-- A MEM.CONFIG whose tables obey their ranges and hold the rings of both formula slots. -/
structure ConfigLegal (regions : BitVec 256) (par : BitVec 128) (frm : FrmSt) : Prop where
  table : regionsOk regions = true
  params : memParOk par.toNat = true
  active : ∀ f, frm.active = some f → ringFits regions f = true
  pending : ∀ f, frm.pending = some f → ringFits regions f = true

theorem startFreqChange_field {α : Type} (f : MemSt → α) (hf : ∀ m c e, f { m with change := c, entering := e } = f m)
    (rate : BitVec 2) (s : State) : f (startFreqChange rate s).mem = f s.mem := by
  unfold startFreqChange
  split
  · rfl
  · exact hf _ _ _

theorem memConfig_of_legal (h : ConfigLegal regions par s.frm) : memConfig regions par s = okWith [] (memConfig regions par s).2
    ∧ (memConfig regions par s).2.mem.regions = regions ∧ (memConfig regions par s).2.mem.par = par := by
  have hfits : ∀ f : Option Formula, (∀ x, f = some x → ringFits regions x = true) → f.all (ringFits regions) = true := by
    rintro (_ | x) hx
    · rfl
    · exact hx x rfl
  unfold memConfig
  extract_lets fits changed wipe s1 m s2
  have hactive : fits s.frm.active = true := hfits _ h.active
  have hpending : fits s.frm.pending = true := hfits _ h.pending
  rw [if_neg (by simp [hactive, hpending, h.table, h.params])]
  refine ⟨rfl, ?_, ?_⟩
  · exact (startFreqChange_field (·.regions) (fun _ _ _ => rfl) _ _).trans (panicUpdate_field (·.regions) (fun _ _ _ => rfl) _)
  · exact (startFreqChange_field (·.par) (fun _ _ _ => rfl) _ _).trans (panicUpdate_field (·.par) (fun _ _ _ => rfl) _)

end

/-! The statement -/

theorem memRead_done {s : State} {h : Hdr} {addr : BitVec 64} {n : BitVec 16} (ha : Accepts 0x2207 h modesYOLM s)
    (h1 : 1 ≤ n.toNat) (hn : n.toNat ≤ 4064) (hreach : hostReach s addr.toNat n.toNat = true) (hs : hbmServes s = true) :
    Completes (.memRead h addr n) s
      (Done 0x2207 h stOk [.str ((List.range n.toNat).map (fun i => hbmView s (addr.toNat + i)))] hbmTouch s) := by
  refine ⟨_, rfl, serve_still ha (fun v hv => ?_) fun v => hbmTouch_still (Still.refl v)⟩
  have hview : hbmView v = hbmView s := hv.reads hbmView fun _ => rfl
  rw [← hview]
  exact memRead_of_legal h1 hn ((hv.reads (hostReach · addr.toNat n.toNat) fun _ => rfl).trans hreach)
    ((hv.reads hbmServes fun _ => rfl).trans hs)

theorem memWrite_done {s : State} {h : Hdr} {addr : BitVec 64} {n : BitVec 16} {data : List Byte}
    (ha : Accepts 0x2208 h modesYOL s) (h1 : 1 ≤ n.toNat) (hn : n.toNat ≤ 4064) (hlen : data.length = n.toNat)
    (hreach : hostReach s addr.toNat n.toNat = true) (hs : hbmServes s = true) :
    Completes (.memWrite h addr n data) s fun t =>
      Done 0x2208 h stOk [] (fun v => hbmWrite addr.toNat data (overlayWrites addr.toNat data (hbmTouch v))) s t
      ∧ (∀ i, i < n.toNat → hbmByte t (addr.toNat + i) = data.getD i 0)
      ∧ (∀ a, a < addr.toNat ∨ addr.toNat + n.toNat ≤ a → hbmByte t a = hbmByte s a) := by
  have hdone := serve_still (body := memWrite addr n data) ha
    (fun v hv => memWrite_of_legal h1 hn hlen ((hv.reads (hostReach · addr.toNat n.toNat) fun _ => rfl).trans hreach)
      ((hv.reads hbmServes fun _ => rfl).trans hs))
    fun v => hbmWrite_still (overlayWrites_still _ _ (hbmTouch_still (Still.refl v))) _ _
  obtain ⟨hhbm, hgen⟩ := hdone.mem (fun m => m.hbm = hbmStore s.mem.hbm addr.toNat data ∧ m.hbmGen = s.mem.hbmGen) fun v hv => by
    rw [← hv.reads (·.mem) fun _ => rfl, ← hbmTouch_hbm v, ← hbmTouch_hbmGen v]
    exact ⟨rfl, rfl⟩
  have hbyte : ∀ a, hbmByte (serve 0x2208 h (inModes modesYOL) (memWrite addr n data) s) a
      = hbmByte (hbmWrite addr.toNat data s) a := hbmByte_congr hhbm hgen
  refine ⟨_, rfl, hdone, fun i hi => ?_, fun a ho => ?_⟩
  · exact (hbyte _).trans (hbmByte_hbmWrite_of_in (by omega) s)
  · exact (hbyte _).trans (hbmByte_hbmWrite_of_out (by omega) s)

/-- Settles O15: each command's body is its effect and its answer; the bytes written read back and no others change. -/
theorem memoryCommandsAct : Obligations.MemoryCommandsAct := by
  intro s h
  refine ⟨fun addr n ha h1 hn hreach hs => memRead_done ha h1 hn hreach hs,
    fun addr n data ha h1 hn hlen hreach hs => memWrite_done ha h1 hn hlen hreach hs,
    fun regions par ha hr hp hactive hpending => ⟨_, rfl, ?_⟩, fun ha => ⟨_, rfl, ?_⟩⟩
  · have hlegal : ConfigLegal regions par s.frm := ⟨hr, hp, hactive, hpending⟩
    have hdone := serve_still (body := memConfig regions par) ha
      (fun v hv => (memConfig_of_legal (hv.reads (·.frm) (fun _ => rfl) ▸ hlegal)).1) fun v => memConfig_still _ _ (Still.refl v)
    exact ⟨hdone, hdone.mem (fun m => m.regions = regions ∧ m.par = par)
      fun v hv => (memConfig_of_legal (hv.reads (·.frm) (fun _ => rfl) ▸ hlegal)).2⟩
  · have hdone := serve_still (body := fun u => okWith [] (hbmFreeze 5 none u)) ha (fun _ _ => rfl)
      fun v => hbmFreeze_still _ _ (Still.refl v)
    exact ⟨hdone, fun hst => hdone.mem (fun m => m.st = .frozen ∧ m.ready = false ∧ ∃ d, m.diag = some d ∧ d.cause = 5)
      fun v hv => hbmFreeze_of_serving (by rwa [hv.reads (·.mem) fun _ => rfl]) 5 none⟩

end Sys2Proof.Machine
end

section
/-! The HBM controller's requests: how one is queued, what a pseudo-channel issues next, and the return of a read (R334, R335,
R341 to R347, R350). -/

namespace Sys2Proof.Machine
open Sys2Proof

/-! The arrival of a request (R341, R343) -/

section
variable {port : Fin 5} {w : Bool} {a : Nat} {data : List Byte} {s : State}

theorem hbmRequest_of_out_of_service (h : ¬ (s.mem.st = .active ∨ s.mem.st = .selfRefresh)) : hbmRequest port w a data s = s := by
  rw [hbmRequest, if_pos (by simpa using h)]

/-- RTR has no room for 32 more bytes. -/
theorem hbmRequest_of_no_room (h : port = 1 ∧ w = false ∧ 1048576 < s.mem.rtr + 32) : hbmRequest port w a data s = s := by
  rw [hbmRequest]
  split
  · rfl
  · rw [if_pos (by simpa using ⟨⟨h.1, h.2.1⟩, h.2.2⟩)]

/-- The request as it is queued at the pseudo-channel of its address. -/
def queuedRequest (port : Fin 5) (w : Bool) (a : Nat) (data : List Byte) (s : State) : HbmReq :=
  let d := hbmAddr (orderAt s (a / 32 * 32)) (a / 32 * 32)
  ⟨(pcOf s d.pc).nextSeq, port, w, a / 32 * 32, d.bank, d.row, d.col, data.take 32, s.tb.t40, false⟩

/-- A request in service joins one queue, and of the memory's other parts only what a touch and the staging level move. -/
theorem hbmRequest_queues (hs : s.mem.st = .active ∨ s.mem.st = .selfRefresh)
    (hr : ¬ (port = 1 ∧ w = false ∧ 1048576 < s.mem.rtr + 32)) :
    let t := hbmRequest port w a data s
    let d := hbmAddr (orderAt s (a / 32 * 32)) (a / 32 * 32)
    (pcOf t d.pc).queue = (pcOf s d.pc).queue ++ [queuedRequest port w a data s]
    ∧ (∀ p, p ≠ d.pc → (pcOf t p).queue = (pcOf s p).queue) ∧ t.mem.hbm = s.mem.hbm ∧ t.mem.lastReq = s.tb.t40
    ∧ t.mem.entering = false ∧ t.mem.rtr = s.mem.rtr + (if port = 1 ∧ w = false then 32 else 0) := by
  unfold hbmRequest
  rw [if_neg (by simpa [or_iff_not_imp_left] using hs), if_neg (by simpa [and_assoc] using hr)]
  extract_lets touched a' d0 p r b hazard enter p1 p2 s1 s2 m t d
  have hd : d0 = d := by
    unfold d0 touched
    rw [orderAt_hbmTouch]
  have hreq : r = queuedRequest port w a data s := by
    simp only [r, p, hd, touched, nextSeq_hbmTouch, hbmTouch_tb]
    rfl
  have hp2 : p2.queue = p.queue ++ [r] := by
    unfold p2
    split <;> rfl
  have hs2 : s2.mem = s1.mem := by
    unfold s2
    split <;> rfl
  have ht : ∀ {α : Type} (f : MemSt → α), (∀ m l w r, f { m with rtr := l, panicW := w, panicR := r } = f m) →
      f t.mem = f s1.mem := by
    intro α f hf
    rw [← hs2]
    unfold t
    split
    · exact (panicUpdate_field f (fun m w r => hf m m.rtr w r) _).trans (hf s2.mem _ s2.mem.panicW s2.mem.panicR)
    · rfl
  have hpc : ∀ i, pcOf t i = pcOf s1 i := pcOf_congr (ht (·.pcs) fun _ _ _ _ => rfl)
  refine ⟨?_, fun i hi => ?_, ?_, ?_, ?_, ?_⟩
  · rw [hpc, ← hd, pcOf_pcSet, hp2, hreq]
    exact congrArg (· ++ _) (queue_hbmTouch s _)
  · rw [hpc, pcOf_pcSet_ne _ _ (hd ▸ hi)]
    exact queue_hbmTouch s i
  · exact (ht (·.hbm) fun _ _ _ _ => rfl).trans (hbmTouch_hbm s)
  · exact (ht (·.lastReq) fun _ _ _ _ => rfl).trans (congrArg MemSt.lastReq (hbmTouch_mem s))
  · exact (ht (·.entering) fun _ _ _ _ => rfl).trans (congrArg MemSt.entering (hbmTouch_mem s))
  · by_cases hread : port = 1 ∧ w = false
    · have hstaged : t = panicUpdate { s2 with mem := { s2.mem with rtr := s2.mem.rtr + 32 } } := if_pos (by simpa using hread)
      rw [hstaged, panicUpdate_field (·.rtr) fun _ _ _ => rfl, if_pos hread, hs2]
      exact congrArg (· + 32) (hbmTouch_rtr s)
    · have hplain : t = s2 := if_neg (by simpa using hread)
      rw [hplain, hs2, if_neg hread]
      exact hbmTouch_rtr s

end

/-! What a pseudo-channel issues (R341, R342, R345 to R349) -/

section
variable {pc : Nat} {s : State}

/-- The controller issues refreshes and requests: it is ACTIVE and, unless requests are queued, neither enters self-refresh
nor waits to enter it. -/
def Issues (s : State) : Prop :=
  s.mem.st = .active ∧ (hbmBusy s = true ∨ s.mem.entering = false ∧ s.mem.change = none)

/-- A refresh of a pseudo-channel is due: a forced unit goes on, panic has let the debt reach 8, or there is debt and no
panic. -/
abbrev RefreshDue (s : State) (v : PcSt) : Prop :=
  refreshReady s v = true
    ∧ (((v.unit ≠ 0 ∧ v.forced = true) ∨ (inPanic s = true ∧ 8 ≤ v.debt)) ∨ (1 ≤ v.debt ∧ inPanic s = false))

theorem commandIssue_of_not_active (h : s.mem.st ≠ .active) : commandIssue pc s = s := by
  rw [commandIssue, if_pos (by simpa using h)]

theorem commandIssue_of_entering (h : s.mem.st = .active) (he : s.mem.entering = true) (hb : hbmBusy s = false)
    (hpc : pc ≠ 0) : commandIssue pc s = s := by
  simp [commandIssue, h, he, hb, hpc]

/-- The entry to self-refresh commits with the command to pseudo-channel 0. -/
theorem commandIssue_commits (h : s.mem.st = .active) (he : s.mem.entering = true) (hb : hbmBusy s = false) :
    (commandIssue 0 s).mem.st = .selfRefresh ∧ (commandIssue 0 s).mem.entering = false
      ∧ (commandIssue 0 s).mem.hbm = s.mem.hbm := by
  simp [commandIssue, h, he, hb]

theorem commandIssue_of_change (h : s.mem.st = .active) (he : s.mem.entering = false) (hb : hbmBusy s = false)
    (hc : s.mem.change ≠ none) : commandIssue pc s = { s with mem := { s.mem with entering := true } } := by
  simp [commandIssue, h, he, hb, Option.isSome_iff_ne_none.2 hc]

theorem Issues.gates (hi : Issues s) : (!(s.mem.st == .active)) = false ∧ (s.mem.entering && !hbmBusy s) = false
    ∧ (s.mem.change.isSome && !s.mem.entering && !hbmBusy s) = false := by
  obtain ⟨ha, hb | ⟨he, hc⟩⟩ := hi
  · simp [ha, hb]
  · simp [ha, he, hc]

theorem commandIssue_of_owed (hi : Issues s) {b : Nat} {x : Bank}
    (ho : (pcOf s pc).banks.find? (fun b => b.2.neighbour.isSome) = some (b, x)) :
    commandIssue pc s = issueNeighbour pc b (x.neighbour.getD 0) s := by
  obtain ⟨h1, h2, h3⟩ := hi.gates
  simp [commandIssue, h1, h2, h3, ho]

/-- With no neighbour refresh owed a refresh that is due comes before the first eligible request. -/
theorem commandIssue_of_none_owed (hi : Issues s) (ho : (pcOf s pc).banks.find? (fun b => b.2.neighbour.isSome) = none) :
    commandIssue pc s = if RefreshDue s (pcOf s pc) then issueRefresh pc s
      else (firstRequest s (pcOf s pc)).elim s (fun r => issueRequest pc r s) := by
  obtain ⟨h1, h2, h3⟩ := hi.gates
  have hdue : ((pcOf s pc).unit != 0 && (pcOf s pc).forced || inPanic s && decide ((pcOf s pc).debt ≥ 8))
        && refreshReady s (pcOf s pc)
      ∨ (decide ((pcOf s pc).debt ≥ 1) && !inPanic s && refreshReady s (pcOf s pc)) = true ↔ RefreshDue s (pcOf s pc) := by
    simp only [RefreshDue, Bool.and_eq_true, Bool.or_eq_true, bne_iff_ne, decide_eq_true_eq, Bool.not_eq_true']
    tauto
  simp only [commandIssue, h1, h2, h3, ho]
  cases firstRequest s (pcOf s pc)
  all_goals exact (ite_or ..).symm.trans (if_congr hdue rfl rfl)

theorem issueNeighbour_pc (b row : Nat) (s : State) : (pcOf (issueNeighbour pc b row s) pc).last.head? = some ⟨4, b, row, 0⟩
    ∧ (bankOf (pcOf (issueNeighbour pc b row s) pc) b).neighbour = none := by
  rw [issueNeighbour, pcOf_count, pcOf_pcSet]
  exact ⟨rfl, congrArg Bank.neighbour (bankOf_bankPut ..)⟩

/-- A refresh takes the unit's bank: its row closes, and the unit goes on to the next bank or retires. -/
theorem issueRefresh_pc (pc : Nat) (s : State) :
    let v := pcOf s pc
    let u := pcOf (issueRefresh pc s) pc
    u.last.head? = some ⟨3, v.unit, 0, 0⟩ ∧ u.refAt = some s.tb.t40 ∧ (bankOf u v.unit).row = none
    ∧ (issueRefresh pc s).mem.hbm = s.mem.hbm
    ∧ (v.unit = 47 → u.unit = 0 ∧ u.debt = v.debt - 1) ∧ (v.unit ≠ 47 → u.unit = v.unit + 1 ∧ u.debt = v.debt) := by
  unfold issueRefresh
  extract_lets p begins forced b p1 p2 s1 u
  have hu : u = p2 := by
    unfold u
    split <;> exact pcOf_pcSet ..
  have hbank : (bankOf p1 p.unit).row = none := congrArg Bank.row (bankOf_bankPut ..)
  rw [hu]
  by_cases hunit : p.unit = 47
  · have hp2 : p2 = { p1 with unit := 0, debt := p.debt - 1, forced := false } := if_pos (by omega)
    rw [hp2]
    exact ⟨rfl, rfl, hbank, by split <;> rfl, fun _ => ⟨rfl, rfl⟩, fun h => absurd hunit h⟩
  · have hp2 : p2 = { p1 with unit := p.unit + 1 } := if_neg (by omega)
    rw [hp2]
    exact ⟨rfl, rfl, hbank, by split <;> rfl, fun h => absurd h hunit, fun _ => ⟨rfl, rfl⟩⟩

/-- A request that issues: the command is logged, a write leaves the queue, a read waits for its return. -/
theorem issueRequest_pc (pc : Nat) (r : HbmReq) (s : State) :
    let v := pcOf s pc
    let u := pcOf (issueRequest pc r s) pc
    u.last.head? = some ⟨if r.write then 2 else 1, r.bank, r.row, r.col⟩
    ∧ u.queue = (if r.write then v.queue.filter (fun q => q.seq != r.seq)
      else v.queue.map (fun q => if q.seq = r.seq then { q with issued := true } else q))
    ∧ (issueRequest pc r s).mem.hbm = (if r.write then (hbmWrite r.addr r.data s).mem.hbm else s.mem.hbm) := by
  unfold issueRequest
  extract_lets p b b1 queue waiting b2 p1 s1 s2 m u
  have hu : u = p1 := by
    unfold u
    split
    · split
      · exact (pcOf_panicUpdate _ _).trans (pcOf_pcSet ..)
      · exact pcOf_pcSet ..
    · exact pcOf_pcSet ..
  rw [hu]
  refine ⟨rfl, rfl, ?_⟩
  split
  · split
    · exact panicUpdate_hbm _
    · rfl
  · rfl

end

/-! The return of a read (R340, R346, R350) -/

section
variable {pc : Nat} {syn : BitVec 64} {s : State}

/-- The state with an issued request off its queue, and with a read of RTR its bytes off the staging level. -/
def readTaken (pc : Nat) (r : HbmReq) (s : State) : State :=
  let w := pcSet pc { pcOf s pc with queue := (pcOf s pc).queue.filter (fun q => q.seq != r.seq) } s
  if r.port = 1 then panicUpdate { w with mem := { w.mem with rtr := w.mem.rtr - 32 } } else w

theorem readReturn_of_none_issued (bad : Bool) (h : (pcOf s pc).queue.find? (fun q => q.issued) = none) :
    readReturn pc syn bad s = s := by
  simp only [readReturn, h]

theorem readReturn_of_issued (bad : Bool) {r : HbmReq} (h : (pcOf s pc).queue.find? (fun q => q.issued) = some r) :
    readReturn pc syn bad s = if bad then hbmFreeze 1 (some (pc, ⟨1, r.bank, r.row, r.col⟩, syn)) (readTaken pc r s)
      else if syn ≠ 0 then count 0xB02 pc (readTaken pc r s) else readTaken pc r s := by
  simp only [readReturn, h, readTaken, bne_iff_ne]

end

/-! The statement -/

theorem exec_hbmRequest (port : Fin 5) (w : Bool) (a : BitVec 35) (data : List Byte) (s : State) :
    let serves := s.mem.st = .active ∨ s.mem.st = .selfRefresh
    let room := ¬ (port = 1 ∧ w = false ∧ 1048576 < s.mem.rtr + 32)
    (24 * 2 ^ 30 ≤ a.toNat → exec (.hbmRequest port w a data) s = .fault .noSuchAddress)
    ∧ (a.toNat < 24 * 2 ^ 30 → exec (.hbmRequest port w a data) s = .next (hbmRequest port w a.toNat data s)
      ∧ (¬ serves ∨ ¬ room → hbmRequest port w a.toNat data s = s)) := by
  refine ⟨fun h => if_pos h, fun h => ⟨if_neg (Nat.not_le.2 h), ?_⟩⟩
  rintro (hs | hr)
  · exact hbmRequest_of_out_of_service hs
  · exact hbmRequest_of_no_room (not_not.1 hr)

/-- Settles O46: a request joins its queue, a pseudo-channel's next command is chosen in order, and a read is checked as it
returns. -/
theorem hbmServesRequests : Obligations.HbmServesRequests := by
  refine ⟨fun port w a data s => ?_, fun p s => ?_, fun p syn s => ?_⟩
  · obtain ⟨hfault, hnext⟩ := exec_hbmRequest port w a data s
    refine ⟨hfault, fun ha hno => ?_, fun ha hs hr => ⟨_, (hnext ha).1, hbmRequest_queues hs hr⟩⟩
    rw [(hnext ha).1, (hnext ha).2 hno]
  · have hexec : exec (.hbmCommandIssue p) s = .next (commandIssue p.val s) := rfl
    dsimp only
    rw [hexec]
    refine ⟨fun h => congrArg _ (commandIssue_of_not_active h), fun h he hb hp => ⟨_, hexec, ?_⟩,
      fun h he hb hp => congrArg _ (commandIssue_of_entering h he hb hp),
      fun h he hb hc => congrArg _ (commandIssue_of_change h he hb hc), fun hi b x ho => ⟨_, hexec, ?_⟩,
      fun hi ho hd => ⟨_, hexec, ?_⟩, fun hi ho hd hf => ?_, fun hi ho hd r hf => ⟨_, hexec, ?_⟩⟩
    · rw [hp]
      exact commandIssue_commits h he hb
    · rw [commandIssue_of_owed hi ho]
      exact ⟨rfl, issueNeighbour_pc ..⟩
    · rw [commandIssue_of_none_owed hi ho, if_pos hd]
      exact issueRefresh_pc ..
    · rw [commandIssue_of_none_owed hi ho, if_neg hd, hf]
      rfl
    · rw [commandIssue_of_none_owed hi ho, if_neg hd, hf]
      obtain ⟨hlast, hqueue, hhbm⟩ := issueRequest_pc p.val r s
      exact ⟨hlast, fun hw => ⟨hhbm.trans (if_pos hw), hqueue.trans (if_pos hw)⟩,
        fun hw => ⟨hhbm.trans (if_neg (by simp [hw])), hqueue.trans (if_neg (by simp [hw]))⟩⟩
  · have hexec : ∀ bad, exec (.hbmReadReturn p syn bad) s = .next (readReturn p.val syn bad s) := fun _ => rfl
    dsimp only
    refine ⟨fun bad h => congrArg Host.Outcome.next (readReturn_of_none_issued bad h), fun r h => ⟨fun h0 => ?_, fun h0 => ?_, ?_⟩⟩
    · rw [hexec, readReturn_of_issued false h, if_neg Bool.false_ne_true, if_neg (not_not.2 h0)]
      rfl
    · rw [hexec, readReturn_of_issued false h, if_neg Bool.false_ne_true, if_pos h0]
      rfl
    · rw [hexec, readReturn_of_issued true h, if_pos rfl]
      rfl

end Sys2Proof.Machine
end

section
/-! A step as the front command (R396), and the frames of the twin link in their sequence (R360, R362, R372). -/

namespace Sys2Proof.Machine
open Sys2Proof

/-- Settles O56: a step with no command waiting idles, and any other carries out the front command. -/
theorem stepTakesTheFront : Obligations.StepTakesTheFront :=
  fun _ hs => ⟨step_of_idle hs, fun _ _ => step_of_front rfl⟩

/-! What comes off TW -/

/-- The state with the frame's place in the sequence noted, and a frame lost where the sequence has a gap. -/
def twSequenced (h : TwHdr) (s : State) : State :=
  if s.twn.rxSeq.any (fun q => q + 1 != h.seq) then lostFrame (twNoted h s) else twNoted h s

/-- The frame is the pair's own, or `any` takes it whatever pair it names. -/
def TwMine (any : Bool) (h : TwHdr) (s : State) : Prop :=
  any = true ∨ (s.twn.role = 0#8 ∧ s.twn.pairing = none) ∨ h.pairId = s.twn.pairId

section
variable {any : Bool} {h : TwHdr} {g : State → State} {s : State}

theorem onFrame_of_deaf (hd : s.twn.up = false ∨ beatsRun s = false) : onFrame any h g s = s := by
  have hrec : twReceive any h s = (false, s) := if_pos (by rcases hd with h | h <;> simp [h])
  rw [onFrame, hrec]
  rfl

theorem onFrame_of_badCrc (hup : s.twn.up = true) (hrun : beatsRun s = true) (hcrc : h.crcOk = false) :
    onFrame any h g s = lostFrame { s with twn := { s.twn with rxSeq := s.twn.rxSeq.map (· + 1) } } := by
  simp [onFrame, twReceive, hup, hrun, hcrc]

/-- A frame with a good CRC notes its place; whether its row acts is a matter of the pair it names. -/
theorem twReceive_of_goodCrc (hup : s.twn.up = true) (hrun : beatsRun s = true) (hcrc : h.crcOk = true) :
    twReceive any h s = (any || !((twSequenced h s).twn.role != 0#8 || (twSequenced h s).twn.pairing.isSome)
      || h.pairId == (twSequenced h s).twn.pairId, twSequenced h s) := by
  unfold twReceive
  rw [if_neg (by simp [hup, hrun])]
  dsimp only
  rw [if_neg (by simp [hcrc])]
  rfl

theorem twMine_iff : (any || !(s.twn.role != 0#8 || s.twn.pairing.isSome) || h.pairId == s.twn.pairId) = true ↔ TwMine any h s := by
  simp [TwMine, or_assoc]

theorem onFrame_of_mine (hup : s.twn.up = true) (hrun : beatsRun s = true) (hcrc : h.crcOk = true)
    (hm : TwMine any h (twSequenced h s)) : onFrame any h g s = g (twSequenced h s) := by
  rw [onFrame, twReceive_of_goodCrc hup hrun hcrc]
  exact if_pos (twMine_iff.2 hm)

theorem onFrame_of_foreign (hup : s.twn.up = true) (hrun : beatsRun s = true) (hcrc : h.crcOk = true)
    (hm : ¬ TwMine any h (twSequenced h s)) : onFrame any h g s = twSequenced h s := by
  rw [onFrame, twReceive_of_goodCrc hup hrun hcrc]
  exact if_neg (mt twMine_iff.1 hm)

end

/-- Rows that carry out `onFrame` meet what every frame of TW meets. -/
theorem twRows_of_onFrame {h : TwHdr} {l : List (Instr × Bool × (State → State))}
    (hl : ∀ x ∈ l, ∀ s, exec x.1 s = .next (onFrame x.2.1 h x.2.2 s)) : TwRows h l := by
  intro x hx s
  rw [hl x hx s]
  exact ⟨fun hd => congrArg _ (onFrame_of_deaf hd), fun hup hrun hcrc => congrArg _ (onFrame_of_badCrc hup hrun hcrc),
    fun hup hrun hcrc => ⟨fun hm => congrArg _ (onFrame_of_mine hup hrun hcrc hm),
      fun hm => congrArg _ (onFrame_of_foreign hup hrun hcrc hm)⟩⟩

theorem lostFrame_of_sillage {s : State} (hm : s.nose.mode = .sillage) : lostFrame s = goUnfit 2 (count 0xC02 0 s) :=
  if_pos (by rw [count_nose, hm]; rfl)

theorem lostFrame_of_not_sillage {s : State} (hm : s.nose.mode ≠ .sillage) : lostFrame s = count 0xC02 0 s :=
  if_neg (by simpa using hm)

/-- Settles O48: the eleven rows are `onFrame` of what their frame does. -/
theorem twinFramesAreTaken : Obligations.TwinFramesAreTaken := by
  refine ⟨fun h p port mg st36 by_ k i c b l rec dr x y nv rip go t72 sq op st a u4 => twRows_of_onFrame ?_,
    fun s => ⟨lostFrame_of_sillage, lostFrame_of_not_sillage⟩⟩
  simp only [List.forall_mem_cons]
  exact ⟨fun _ => rfl, fun _ => rfl, fun _ => rfl, fun _ => rfl, fun _ => rfl, fun _ => rfl, fun _ => rfl, fun _ => rfl,
    fun _ => rfl, fun _ => rfl, fun _ => rfl, by simp⟩

end Sys2Proof.Machine
end

section
/-! Record reads by sequence number (R478), and the end of a long-running command (R389, R397). -/

namespace Sys2Proof.Machine
open Sys2Proof

/-! Records -/

section
variable {held : List (BitVec 32 × List Fld)} {newest first : BitVec 32} {n : Nat}

theorem readRecords_of_held {a c : List (BitVec 32 × List Fld)} {r : BitVec 32 × List Fld} (ha : ∀ x ∈ a, x.1 ≠ first)
    (hr : r.1 = first) : readRecords (a ++ r :: c) newest first n = (stOk, ((r :: c).take n).flatMap (fun x => x.2)) := by
  have hdrop : (a ++ r :: c).dropWhile (fun x => x.1 != first) = r :: c := by
    rw [List.dropWhile_append_of_pos (by simpa using ha), List.dropWhile_cons_of_neg (by simp [hr])]
  rw [readRecords, if_pos (by simp [hr]), hdrop]

theorem readRecords_of_not_held (hn : ∀ r ∈ held, r.1 ≠ first) : readRecords held newest first n
    = if 1 ≤ (first - newest).toNat ∧ (first - newest).toNat ≤ 2 ^ 31 - 1 then (stOk, []) else (stNotRetained, []) := by
  have hany : held.any (fun r => r.1 == first) = false := List.any_eq_false.2 fun r hr => by simpa using hn r hr
  rw [readRecords, if_neg (by simp [hany])]

theorem readRecords_of_ahead (hn : ∀ r ∈ held, r.1 ≠ first) (h1 : 1 ≤ (first - newest).toNat)
    (h2 : (first - newest).toNat ≤ 2 ^ 31 - 1) : readRecords held newest first n = (stOk, []) := by
  rw [readRecords_of_not_held hn, if_pos ⟨h1, h2⟩]

theorem readRecords_of_lost (hn : ∀ r ∈ held, r.1 ≠ first)
    (hd : (first - newest).toNat = 0 ∨ 2 ^ 31 - 1 < (first - newest).toNat) :
    readRecords held newest first n = (stNotRetained, []) := by
  rw [readRecords_of_not_held hn, if_neg (by omega)]

/-- A command that answers with what `readRecords` gives reads by sequence number. -/
theorem readsFrom_of_replied {op : Nat} {h : Hdr} {s t : State}
    (hr : Replied op h (readRecords held newest first n).1 (readRecords held newest first n).2 none 0 s t) :
    ReadsFrom held newest first n op h s t := by
  refine ⟨?_, fun hn h1 h2 => ?_, fun hn hd => ?_⟩
  · rintro a _ rfl ha ⟨r, c, rfl, hf⟩
    rwa [readRecords_of_held ha hf] at hr
  · rwa [readRecords_of_ahead hn h1 h2] at hr
  · rwa [readRecords_of_lost hn hd] at hr

end

/-- A record read whose records and newest number do not depend on the mailbox's own parts. -/
theorem serve_records {op limit : Nat} {h : Hdr} {modes : List Mode} {s : State} {first : BitVec 32} {n : BitVec 16}
    (held : State → List (BitVec 32 × List Fld)) (newest : State → BitVec 32) (ha : Accepts op h modes s)
    (h1 : 1 ≤ n.toNat) (hn : n.toNat ≤ limit) (hheld : ∀ u, held (withoutMail u) = held u)
    (hnew : ∀ u, newest (withoutMail u) = newest u) {t : State}
    (ht : t = serve op h (inModes modes) (fun u => readCmd (held u) (newest u) first n limit u) s) :
    MailOnly s t ∧ ReadsFrom (held s) (newest s) first n.toNat op h s t := by
  subst ht
  have hread := read_done (body := fun u => readCmd (held u) (newest u) first n limit u) ha (inModes_of_accepts ha) fun v hv => by
    rw [readCmd, if_neg (by simp; omega), hv.reads held hheld, hv.reads newest hnew]
  exact ⟨hread.1, readsFrom_of_replied hread.2⟩

/-- Settles O3: the verdict log, the event ring and the error log are not the mailbox's, and each command reads its own by
`readRecords`. -/
theorem recordReads : Obligations.RecordReads := by
  intro s h first n h1
  refine ⟨fun ha hn => ⟨_, rfl, serve_records heldVerdicts (fun u => u.frm.verdictSeq - 1) ha h1 hn (fun _ => rfl) (fun _ => rfl) rfl⟩,
    fun ha hn => ⟨_, rfl, serve_records heldEvents (fun u => u.nose.evtSeq - 1) ha h1 hn (fun _ => rfl) (fun _ => rfl) rfl⟩,
    fun ha hn => ⟨_, rfl, serve_records heldErrors (fun u => u.err.index - 1) ha h1 hn (fun _ => rfl) (fun _ => rfl) rfl⟩⟩

/-! Responses -/

/-- A response that finds room in the ring stays in its slot while the mailbox goes on. -/
theorem find_serveUndefined_respond (tag : BitVec 32) (op : Nat) (a : BitVec 32) (st : Nat) (eff : Option Stamp) (nx : Nat)
    (pay : List Fld) {u : State} (room : rspHeld u < 64) :
    FMap.find (serveUndefined (respond .pcie tag op a st eff nx pay u)).nose.rspRing (u.nose.rspProd.toNat % 64)
      = some ⟨.pcie, tag, BitVec.ofNat 16 op, BitVec.ofNat 16 st, eff, a, nx, pay⟩ := by
  obtain ⟨hcons, hpcie, -⟩ := respond_rsp .pcie tag op a st eff nx pay u
  obtain ⟨hprod, hring⟩ := hpcie rfl
  generalize respond .pcie tag op a st eff nx pay u = z at *
  have hback : z.nose.rspProd - BitVec.ofNat 16 1 = u.nose.rspProd := by rw [hprod]; simp
  have hheld : rspHeld z = rspHeld u + 1 := by
    unfold rspHeld at room ⊢
    rw [hprod, hcons]
    bv_omega
  have hslot := answerUndefined_slot z.nose.arrived.length (s := z) (d := 1) (Nat.le_refl _) (by omega) (by omega)
    (by rw [hback, hring]; exact find_set_eq _ _ _)
  rw [hback] at hslot
  exact hslot.choose_spec.1

/-- A response to a port that is UP leaves as a frame, and the mailbox goes on. -/
theorem mem_serveUndefined_respond {p : Fin 2} (m : Mac) (w : BitVec 12) (tag : BitVec 32) (op : Nat) (a : BitVec 32) (st : Nat)
    (eff : Option Stamp) (nx : Nat) (pay : List Fld) {u : State} (hup : portIsUp u p.val = true) :
    .rspFrame p.val ⟨.inband p m w, tag, BitVec.ofNat 16 op, BitVec.ofNat 16 st, eff, a, nx, pay⟩
      ∈ (serveUndefined (respond (.inband p m w) tag op a st eff nx pay u)).outs := by
  obtain ⟨-, -, l, hl, -⟩ := serveUndefined_mailOnly (respond (.inband p m w) tag op a st eff nx pay u)
  rw [hl]
  refine List.mem_append_right _ ?_
  unfold respond
  extract_lets r v
  have hv : v.fhp = u.fhp := by
    unfold v
    split <;> rfl
  refine sendRsp_mem ?_ r
  rw [← hup, portIsUp, portIsUp, portGet, portGet, ← hv]

/-- Settles O17: the response of an ended job goes out as any response does, in the state that no longer lists the job. -/
theorem endedJobIsAnswered : Obligations.EndedJobIsAnswered := by
  intro s j st eff pay
  refine ⟨(respond_mailOnly ..).trans (serveUndefined_mailOnly _), ?_⟩
  have hop : BitVec.ofNat 16 j.opcode.toNat = j.opcode := by simp
  unfold endJob
  rcases hsrc : j.src with _ | ⟨p, m, w⟩
  · intro r room
    have hslot := find_serveUndefined_respond j.tag j.opcode.toNat j.arrivalNs st eff 0 pay
      (u := { s with nose := { s.nose with jobs := s.nose.jobs.erase j } }) room
    rwa [hop] at hslot
  · intro r hup
    have hsent := mem_serveUndefined_respond m w j.tag j.opcode.toNat j.arrivalNs st eff 0 pay
      (u := { s with nose := { s.nose with jobs := s.nose.jobs.erase j } }) hup
    rwa [hop] at hsent

end Sys2Proof.Machine
end

section
/-! The lease: who may take it, and what a change of holder counts, reports and leaves alone (R388 to R390, R404, R453). -/

namespace Sys2Proof.Machine
open Sys2Proof

/-! What a command leaves once it has answered -/

/-- What does not depend on the mailbox's own parts is, after a command that answered, what the command's effect made of it. -/
theorem Done.reads {α : Type} {op st : Nat} {h : Hdr} {pay : List Fld} {f : State → State} {s t : State} {x : α}
    (hd : Done op h st pay f s t) (g : State → α) (hg : ∀ u, g (withoutMail u) = g u)
    (hx : ∀ v, Took h.src s v → g (f v) = x) : g t = x := by
  obtain ⟨v, hv, hmail, -⟩ := hd
  rw [withoutMail_same hmail.1 g hg]
  exact hx v hv

/-! A change of holder -/

theorem reportLost_eventsOnly (s : State) : EventsOnly s (reportLost s) := by
  unfold reportLost
  split
  · exact EventsOnly.refl s
  · exact EventsOnly.trans (b := { s with nose := { s.nose with evtLost := 0 } }) ⟨rfl, fun _ _ => rfl, [], rfl, by simp⟩
      (writeEvent_eventsOnly ..)

theorem reportLost_lease (s : State) : (reportLost s).nose.lease = s.nose.lease := by
  unfold reportLost
  split
  · rfl
  · exact writeEvent_lease ..

/-- The state with the lease changed and the change counted. -/
def leaseChanged (l : Option (BitVec 64 × Src)) (s : State) : State := count 0xD07 0 { s with nose := { s.nose with lease := l } }

/-- The state with the change of the lease reported by EV_LEASE. -/
def leaseTold (l : Option (BitVec 64 × Src)) (reason : Nat) (s : State) : State :=
  raiseEv 0x03 0xD [.num 8 (leaseHolderId s).toNat, .num 8 (l.elim 0 (fun x => x.1)).toNat,
    .num 1 (l.elim 0xFF (fun x => channelCode x.2)), .num 1 reason] (leaseChanged l s)

section
variable {l : Option (BitVec 64 × Src)} {reason : Nat} {s : State}

theorem leaseTold_eventsOnly : EventsOnly (leaseChanged l s) (leaseTold l reason s) := raiseEv_eventsOnly ..

theorem leaseTold_lease : (leaseTold l reason s).nose.lease = l := raiseEv_lease ..

theorem setLease_of_same (h : s.nose.lease = l) : setLease l reason s = s := if_pos h

theorem setLease_to_pcie (h : s.nose.lease ≠ l) (hp : ∃ i, l = some (i, .pcie)) :
    setLease l reason s = updateLeaseRegs (leaseTold l reason s) := by
  obtain ⟨i, rfl⟩ := hp
  exact if_neg h

theorem setLease_to_other (h : s.nose.lease ≠ l) (hp : ¬ ∃ i, l = some (i, .pcie)) :
    setLease l reason s = updateLeaseRegs (reportLost (leaseTold l reason s)) := by
  rw [setLease, if_neg h]
  rcases l with _ | ⟨i, _ | ⟨p, m, v⟩⟩
  · rfl
  · exact absurd ⟨i, rfl⟩ hp
  · rfl

/-- A change of holder raises events, and then the registers follow. -/
theorem setLease_of_change (h : s.nose.lease ≠ l) :
    ∃ u, EventsOnly (leaseChanged l s) u ∧ u.nose.lease = l ∧ setLease l reason s = updateLeaseRegs u := by
  by_cases hp : ∃ i, l = some (i, .pcie)
  · exact ⟨_, leaseTold_eventsOnly, leaseTold_lease, setLease_to_pcie h hp⟩
  · exact ⟨_, leaseTold_eventsOnly.trans (reportLost_eventsOnly _), (reportLost_lease _).trans leaseTold_lease,
      setLease_to_other h hp⟩

@[simp] theorem setLease_lease (l : Option (BitVec 64 × Src)) (reason : Nat) (s : State) : (setLease l reason s).nose.lease = l := by
  by_cases h : s.nose.lease = l
  · rw [setLease_of_same h, h]
  · obtain ⟨u, -, hu, e⟩ := setLease_of_change (reason := reason) h
    rw [e]
    exact hu

/-- No unit, formula or configuration changes with the lease (R390). -/
theorem setLease_frame (l : Option (BitVec 64 × Src)) (reason : Nat) (s : State) :
    { setLease l reason s with nose := s.nose, bar0 := s.bar0, ctr := s.ctr, outs := s.outs } = s := by
  by_cases h : s.nose.lease = l
  · rw [setLease_of_same h]
  · obtain ⟨u, hu, -, e⟩ := setLease_of_change (reason := reason) h
    rw [e]
    exact congrArg (fun w : State => { w with nose := s.nose, bar0 := s.bar0, ctr := s.ctr, outs := s.outs }) hu.1

/-- A register of the Nose that is neither the lease nor one of the event ring's stays with a change of the lease. -/
theorem setLease_nose_field {α : Type} (g : NoseSt → α)
    (hg : ∀ n l r p c q k m, g { n with
      lease := l, evtRing := r, evtProd := p, evtCons := c, evtSeq := q, evtLost := k, msixDue := m } = g n)
    (l : Option (BitVec 64 × Src)) (reason : Nat) (s : State) : g (setLease l reason s).nose = g s.nose := by
  by_cases h : s.nose.lease = l
  · rw [setLease_of_same h]
  · obtain ⟨u, hu, -, e⟩ := setLease_of_change (reason := reason) h
    have hwithout : ∀ w : State, g (withoutEvents w).nose = g w.nose := fun w => hg w.nose w.nose.lease [] 0 0 0 0 0
    rw [e]
    calc g u.nose = g (withoutEvents u).nose := (hwithout u).symm
      _ = g (withoutEvents (leaseChanged l s)).nose := congrArg (fun w : State => g w.nose) hu.1
      _ = g (leaseChanged l s).nose := hwithout _
      _ = g s.nose := hg s.nose l s.nose.evtRing _ _ _ _ _

end

/-! LEASE.ACQUIRE -/

/-- The three cases in which LEASE.ACQUIRE succeeds (R390). -/
def MayAcquire (src : Src) (holder : BitVec 64) (force : BitVec 8) (s : State) : Prop :=
  s.nose.lease = none ∨ s.nose.lease = some (holder, src) ∨ (force = 1 ∧ src = .pcie)

section
variable {h : Hdr} {holder : BitVec 64} {ms : BitVec 32} {force : BitVec 8} {s : State}

theorem leaseAcquire_of_fields (h0 : holder ≠ 0) (h1 : 100 ≤ ms.toNat) (h2 : ms.toNat ≤ 60000) (hf : force.toNat ≤ 1) :
    leaseAcquire h holder ms force s =
      if s.nose.lease.isNone || s.nose.lease == some (holder, h.src) || (force == 1#8 && h.src == .pcie) then
        okWith [.num 8 (leaseHolderId s).toNat] (setLease (some (holder, h.src))
          (if s.nose.lease.isSome && !(s.nose.lease == some (holder, h.src)) then 3 else 0)
          { s with nose := { s.nose with timeoutMs := ms.toNat, leaseAt := s.tb.t40 } })
      else fails stBusy s := by
  unfold leaseAcquire
  dsimp only
  rw [if_neg (by simpa using ⟨⟨⟨h0, h1⟩, h2⟩, hf⟩)]

theorem leaseAcquire_succeeds (h0 : holder ≠ 0) (h1 : 100 ≤ ms.toNat) (h2 : ms.toNat ≤ 60000) (hf : force.toNat ≤ 1)
    (hm : MayAcquire h.src holder force s) : leaseAcquire h holder ms force s =
      okWith [.num 8 (leaseHolderId s).toNat] (setLease (some (holder, h.src))
        (if s.nose.lease = none ∨ s.nose.lease = some (holder, h.src) then 0 else 3)
        { s with nose := { s.nose with timeoutMs := ms.toNat, leaseAt := s.tb.t40 } }) := by
  have hreason : (if s.nose.lease.isSome && !(s.nose.lease == some (holder, h.src)) then 3 else 0)
      = if s.nose.lease = none ∨ s.nose.lease = some (holder, h.src) then 0 else 3 := by
    rw [← ite_not]
    refine if_congr ?_ rfl rfl
    simp [Option.isSome_iff_ne_none, or_iff_not_imp_left]
  rw [leaseAcquire_of_fields h0 h1 h2 hf, hreason]
  exact if_pos (by simpa [MayAcquire, or_assoc] using hm)

theorem leaseAcquire_busy (h0 : holder ≠ 0) (h1 : 100 ≤ ms.toNat) (h2 : ms.toNat ≤ 60000) (hf : force.toNat ≤ 1)
    (hm : ¬ MayAcquire h.src holder force s) : leaseAcquire h holder ms force s = fails stBusy s := by
  rw [leaseAcquire_of_fields h0 h1 h2 hf]
  exact if_neg (by simpa [MayAcquire, or_assoc] using hm)

theorem leaseAcquire_done (ha : Accepts 0x0101 h modesBYOLM s) (h0 : holder ≠ 0) (h1 : 100 ≤ ms.toNat) (h2 : ms.toNat ≤ 60000)
    (hf : force.toNat ≤ 1) (hm : MayAcquire h.src holder force s) :
    Done 0x0101 h stOk [.num 8 (leaseHolderId s).toNat] (fun v => setLease (some (holder, h.src))
      (if s.nose.lease = none ∨ s.nose.lease = some (holder, h.src) then 0 else 3)
      { v with nose := { v.nose with timeoutMs := ms.toNat, leaseAt := v.tb.t40 } }) s
      (serve 0x0101 h (inModes modesBYOLM) (leaseAcquire h holder ms force) s) := by
  refine serve_still ha (fun v hv => ?_) fun v => setLease_still _ _ (Still.mk' (Still.refl v) rfl)
  have hlease : v.nose.lease = s.nose.lease := hv.reads (·.nose.lease) fun _ => rfl
  have hid : leaseHolderId v = leaseHolderId s := hv.reads leaseHolderId fun _ => rfl
  rw [leaseAcquire_succeeds h0 h1 h2 hf (by rwa [MayAcquire, hlease]), hid, hlease]
  rfl

theorem leaseAcquire_refused (ha : Accepts 0x0101 h modesBYOLM s) (h0 : holder ≠ 0) (h1 : 100 ≤ ms.toNat)
    (h2 : ms.toNat ≤ 60000) (hf : force.toNat ≤ 1) (hm : ¬ MayAcquire h.src holder force s) {t : State}
    (ht : t = serve 0x0101 h (inModes modesBYOLM) (leaseAcquire h holder ms force) s) :
    MailOnly s t ∧ Replied 0x0101 h stBusy [] none 0 s t ∧ t.nose.lease = s.nose.lease := by
  subst ht
  obtain ⟨hmail, hrep⟩ := read_done (body := leaseAcquire h holder ms force) ha (inModes_of_accepts ha) fun v hv =>
    leaseAcquire_busy h0 h1 h2 hf (by rwa [MayAcquire, hv.reads (·.nose.lease) fun _ => rfl])
  exact ⟨hmail, hrep, withoutMail_same hmail.1 (·.nose.lease) fun _ => rfl⟩

theorem leaseRelease_done (ha : Accepts 0x0102 h modesBYOLM s) : Done 0x0102 h stOk [] (setLease none 1) s
    (serve 0x0102 h (inModes modesBYOLM) (fun u => okWith [] (setLease none 1 u)) s) :=
  serve_still ha (fun _ _ => rfl) fun v => setLease_still none 1 (Still.refl v)

end

/-- Settles O10: each command's body is its effect and its answer, and `setLease` says what a change of holder does. -/
theorem leaseIsTakenAndFreed : Obligations.LeaseIsTakenAndFreed := by
  refine ⟨fun s h => ⟨fun holder ms force ha h0 h1 h2 hf => ⟨fun hm => ?_, fun hm => ⟨_, rfl, ?_⟩⟩, fun ha => ?_,
    ⟨_, rfl, rfl, setLease_lease none 2 s⟩, ⟨_, rfl, rfl⟩⟩, fun s l reason => ⟨setLease_of_same, fun hne => ?_⟩⟩
  · have hdone := leaseAcquire_done ha h0 h1 h2 hf hm
    refine ⟨_, rfl, hdone, hdone.reads (·.nose.lease) (fun _ => rfl) fun v _ => setLease_lease _ _ _,
      hdone.reads (·.nose.timeoutMs) (fun _ => rfl) fun v _ => ?_⟩
    exact setLease_nose_field (·.timeoutMs) (fun _ _ _ _ _ _ _ _ => rfl) _ _ _
  · exact leaseAcquire_refused ha h0 h1 h2 hf hm rfl
  · have hdone := leaseRelease_done ha
    exact ⟨_, rfl, hdone, hdone.reads (·.nose.lease) (fun _ => rfl) fun v _ => setLease_lease none 1 v⟩
  · exact ⟨leaseTold l reason s, rfl, setLease_to_pcie hne, setLease_to_other hne, setLease_lease l reason s,
      setLease_frame l reason s⟩

end Sys2Proof.Machine
end

section
/-! MODE.ENTER: the modes it leaves and enters (R399, R416 to R420). -/

namespace Sys2Proof.Machine
open Sys2Proof

/-! The four forms of the command -/

section
variable {s : State}

theorem modeEnter_leaves_base (hm : s.nose.mode = .base) :
    modeEnter 2 0 s = okWith [] { s with nose := { s.nose with resetDue := some 2 } } := by
  unfold modeEnter
  rw [hm]
  exact if_neg (not_not.2 rfl)

theorem modeEnter_to_base (hm : s.nose.mode = .standby) : modeEnter 1 0 s = okWith [] (enterBase s) := by
  unfold modeEnter
  rw [hm]
  exact if_neg (not_not.2 rfl)

theorem modeEnter_to_solo (hm : s.nose.mode = .standby) (hc : soloCheck s = stOk) :
    modeEnter 3 0 s = accept (.at (stampOfLin (slot28 s))) (.modeEnter .solo) [] id s := by
  unfold modeEnter
  rw [hm]
  exact (if_neg (not_not.2 rfl)).trans (if_neg (not_not.2 hc))

theorem modeEnter_leaves_solo {b : Stamp} (hm : s.nose.mode = .solo) (hc : checkS b s = stOk) (hb : boundaryTaken b s = false) :
    modeEnter 2 b s = accept (.at b) (.modeEnter .standby) [] id s := by
  unfold modeEnter
  rw [hm]
  exact (if_neg (not_not.2 hc)).trans (if_neg (by simp [hb]))

end

/-! BASE entered from STANDBY -/

/-- BASE as it is entered: the lease free, nothing scheduled, every pin of the pair low, no lane, TW down (R418). -/
def AtBase (s : State) : Prop :=
  s.nose.mode = .base ∧ s.nose.lease = none ∧ s.nose.sched = [] ∧ s.pins.leadSel = false ∧ s.pins.twinLead0 = false
    ∧ s.pins.twinAlive0 = false ∧ s.lnk.lanes = [] ∧ s.twn.up = false

/-- What the event ring's registers and the lease have no share in, a change of the lease leaves. -/
theorem AtBase.of_setLease {reason : Nat} {w : State} (hmode : w.nose.mode = .base) (hsched : w.nose.sched = [])
    (hpins : w.pins.leadSel = false ∧ w.pins.twinLead0 = false ∧ w.pins.twinAlive0 = false) (hlanes : w.lnk.lanes = [])
    (hup : w.twn.up = false) : AtBase (setLease none reason w) := by
  have hframe := setLease_frame none reason w
  have hp : (setLease none reason w).pins = w.pins := congrArg (·.pins) hframe
  have hl : (setLease none reason w).lnk = w.lnk := congrArg (·.lnk) hframe
  have ht : (setLease none reason w).twn = w.twn := congrArg (·.twn) hframe
  rw [AtBase, setLease_lease, setLease_nose_field (·.mode) (fun _ _ _ _ _ _ _ _ => rfl),
    setLease_nose_field (·.sched) (fun _ _ _ _ _ _ _ _ => rfl), hp, hl, ht]
  exact ⟨hmode, rfl, hsched, hpins.1, hpins.2.1, hpins.2.2, hlanes, hup⟩

/-- The last of entering BASE is to free the lease, in a state that is at BASE otherwise and answers as `s` does over PCIe. -/
theorem enterBase_eq_setLease (s : State) : ∃ w, enterBase s = setLease none 5 w ∧ AtBase (setLease none 5 w)
    ∧ w.nose.rspProd = s.nose.rspProd ∧ w.nose.rspCons = s.nose.rspCons ∧ w.tb.t40 = s.tb.t40 := by
  unfold enterBase
  extract_lets v u n l f m tw w
  have hv : Still s v := still_ite (stopService_still (Still.refl s)) (Still.refl s)
  have hu : Still s u := evMode_still _ _ _ (baseState_still (captureEndAll_still (gatePins_still hv)))
  have hsame := hu.same
  simp only [answering, Prod.mk.injEq] at hsame
  obtain ⟨hprod, hcons, ht, -⟩ := hsame
  have hboot := (evMode_bootS .standby .base 1 (BootS.refl (baseState (captureEndAll (gatePins v))))).same
  have hcap := (captureEndAll_bootS (BootS.refl (gatePins v))).same
  simp only [Prod.mk.injEq] at hboot hcap
  obtain ⟨-, -, -, -, -, hmode, -, -, -, -, -, -, -, hpins⟩ := hboot
  obtain ⟨-, -, -, -, -, -, -, -, -, -, -, -, -, hgated⟩ := hcap
  have hlow : w.pins = (gatePins v).pins := hpins.trans hgated
  exact ⟨w, rfl, AtBase.of_setLease hmode rfl (by rw [hlow]; exact ⟨rfl, rfl, rfl⟩) rfl rfl, hprod, hcons, ht⟩

theorem enterBase_atBase (s : State) : AtBase (enterBase s) := by
  obtain ⟨w, e, hbase, -⟩ := enterBase_eq_setLease s
  rwa [e]

/-- Entering BASE leaves the response ring's indexes and the time as they were. -/
theorem enterBase_answering (s : State) : (enterBase s).nose.rspProd = s.nose.rspProd
    ∧ (enterBase s).nose.rspCons = s.nose.rspCons ∧ (enterBase s).tb.t40 = s.tb.t40 := by
  obtain ⟨w, e, -, hprod, hcons, ht⟩ := enterBase_eq_setLease s
  have hsame := (setLease_still none 5 (Still.refl w)).same
  simp only [answering, Prod.mk.injEq] at hsame
  obtain ⟨p, c, t, -⟩ := hsame
  rw [e]
  exact ⟨p.trans hprod, c.trans hcons, t.trans ht⟩

/-! The statement -/

/-- A mode from which MODE.ENTER is taken passes step 4 of R396. -/
theorem modesBYO_taken {h : Hdr} {m : Mode} {s v : State} (ha : Accepts 0x0301 h [m] s) (hm : m ∈ modesBYO)
    (hv : Taken h.src s v) : inModes modesBYO v = stOk :=
  inModes_taken (by rwa [List.mem_singleton.1 (mode_of_accepts ha)]) hv

/-- Settles O11: each form of MODE.ENTER is a reset made due, BASE entered, or an effect scheduled for its boundary. -/
theorem modeEnterAsCommanded : Obligations.ModeEnterAsCommanded := by
  intro s h
  have mode_of : ∀ {m v}, Accepts 0x0301 h [m] s → Taken h.src s v → v.nose.mode = m := fun ha hv =>
    hv.mode.trans (List.mem_singleton.1 (mode_of_accepts ha))
  refine ⟨fun ha => ⟨_, rfl, ?_⟩, fun ha hp => ⟨_, rfl, ?_⟩, fun ha hc => ⟨_, rfl, ?_⟩, fun b ha hc hb => ⟨_, rfl, ?_⟩⟩
  · exact serve_write (fun u => { u with nose := { u.nose with resetDue := some 2 } }) ha
      (fun v hv => modesBYO_taken ha (by decide) hv) (fun v hv => modeEnter_leaves_base (mode_of ha hv)) (fun _ => rfl)
      fun _ => ⟨rfl, rfl, rfl, rfl, rfl, rfl⟩
  · have hdone : Done 0x0301 h stOk [] enterBase s (serve 0x0301 h (inModes modesBYO) (modeEnter 1 0) s) :=
      serve_took enterBase ha (fun v hv => modesBYO_taken ha (by decide) hv)
        (fun v hv => modeEnter_to_base (mode_of ha hv)) fun v => by
          obtain ⟨hprod, hcons, ht⟩ := enterBase_answering v
          exact ⟨hprod, hcons, ht, fun hne => absurd hp hne⟩
    exact ⟨hdone, of_eq_true (hdone.reads AtBase (fun _ => rfl) fun v _ => eq_true (enterBase_atBase v))⟩
  · refine serve_accept (.at (stampOfLin (slot28 s))) (.modeEnter .solo) [] id (by simp) ha
      (fun v hv => modesBYO_taken ha (by decide) hv) fun v hv => ?_
    rw [modeEnter_to_solo (mode_of ha hv) ((hv.reads soloCheck fun _ => rfl).trans hc), hv.reads slot28 fun _ => rfl]
  · exact serve_accept (.at b) (.modeEnter .standby) [] id (by simp) ha (fun v hv => modesBYO_taken ha (by decide) hv)
      fun v hv => modeEnter_leaves_solo (mode_of ha hv) ((hv.checkS b).trans hc)
        ((hv.reads (boundaryTaken b) fun _ => rfl).trans hb)

end Sys2Proof.Machine
end

section
/-! LOOPBACK.SET, CAPTURE.START and CAPTURE.STOP (R439, R441, R442, R444). -/

namespace Sys2Proof.Machine
open Sys2Proof

/-! LOOPBACK.SET -/

/-- A loopback that its formula and the self-tests allow (R439). -/
def LoopAllowed (path depth : BitVec 8) (s : State) : Prop :=
  ¬ (path = 0 ∧ 4 ≤ depth.toNat ∧ s.frm.active = none) ∧ (depth = 0 ∨ (jobOf 0x3004 s).isNone = true)

theorem loopbackSet_of_legal {path depth : BitVec 8} {mask : BitVec 256} {s : State} (hp : path.toNat ≤ 3)
    (hd : depth.toNat ≤ loopDepths path.toNat)
    (hm : loopWhole path.toNat depth.toNat = true ∨ mask.toNat < 2 ^ loopItems path.toNat) (hl : LoopAllowed path depth s) :
    loopbackSet path depth mask s = okWith [] (loopRunUpdate (setLoops path.toNat depth.toNat mask s)) := by
  obtain ⟨hformula, hbist⟩ := hl
  have hfields : (decide (path.toNat > 3) || decide (depth.toNat > loopDepths path.toNat)
      || (!loopWhole path.toNat depth.toNat && decide (mask.toNat ≥ 2 ^ loopItems path.toNat))) = false := by
    rcases hm with hm | hm <;> simp [hm] <;> omega
  have hactive : (decide (path.toNat = 0) && decide (depth.toNat ≥ 4) && s.frm.active.isNone) = false := by
    rw [Bool.eq_false_iff]
    intro h
    simp only [Bool.and_eq_true, decide_eq_true_eq, Option.isNone_iff_eq_none] at h
    obtain ⟨⟨h0, h4⟩, hnone⟩ := h
    exact hformula ⟨BitVec.eq_of_toNat_eq h0, h4, hnone⟩
  have htest : depth.toNat = 0 ∨ bistTarget s = none := by
    rcases hbist with rfl | hnone
    · exact .inl rfl
    · rw [bistTarget, Option.isNone_iff_eq_none.1 hnone]
      exact .inr rfl
  unfold loopbackSet
  dsimp only
  rw [if_neg (Bool.eq_false_iff.1 hfields), if_neg (Bool.eq_false_iff.1 hactive)]
  exact if_neg (by rcases htest with h | h <;> simp [h])

/-! CAPTURE.START -/

/-- A capture that may be armed on channel `n`: T is ahead, its region holds it, and the channel is the lower free one. -/
def CaptureFits (point index : BitVec 16) (dest : BitVec 8) (t : TInst) (words : BitVec 32) (offset : BitVec 64) (n : Nat)
    (s : State) : Prop :=
  checkT (tinst16 t) s = stOk
    ∧ (dest = 1 → s.mem.st ≠ .frozen ∧ s.mem.st ≠ .reset ∧ ∃ b l, regionOfKind s.mem.regions 3 = some (b, l) ∧
        offset.toNat + 128 + roundUp (words.toNat * captureWordBytes s point.toNat index.toNat) 64 ≤ l)
    ∧ [0, 1].find? (fun n => !captureBusy s n) = some n

/-- The state with a capture armed on a channel; the stages its buffer still holds stay. -/
def captureArmed (point index : BitVec 16) (dest : BitVec 8) (t : TInst) (words : BitVec 32) (offset : BitVec 64) (n : Nat)
    (s : State) : State :=
  capSet n { capReset with
    active := true, point := point, index := index, dest := if dest = 1 then 1 else 0, t := tinst16 t
    words := words.toNat, offset := offset.toNat, buf := (capGet s n).buf } s

theorem captureStart_of_legal {point index : BitVec 16} {dest : BitVec 8} {t : TInst} {words : BitVec 32} {offset : BitVec 64}
    {m n : Nat} {s : State} (hp : captureIndexes point.toNat = some m) (hi : index.toNat < m) (hd : dest.toNat ≤ 1)
    (ht : tinstOk t = true) (hf : CaptureFits point index dest t words offset n s) :
    captureStart point index dest t words offset s = okWith [] (captureArmed point index dest t words offset n s) := by
  obtain ⟨hT, hregion, hfree⟩ := hf
  have hfields : ((captureIndexes point.toNat).all (fun n => decide (n ≤ index.toNat)) || decide (dest.toNat > 1) || !tinstOk t)
      = false := by
    simp [hp, ht]
    omega
  unfold captureStart
  dsimp only
  rw [if_neg (Bool.eq_false_iff.1 hfields)]
  have hroom : (decide (dest = 1) && !(regionOfKind s.mem.regions 3).any (fun r => decide (offset.toNat
      + (128 + roundUp (words.toNat * captureWordBytes s point.toNat index.toNat) 64) ≤ r.2))) = false := by
    by_cases h1 : dest = 1
    · obtain ⟨-, -, b, l, hr, hl⟩ := hregion h1
      simp only [hr, Option.any_some, Bool.and_eq_false_imp, Bool.not_eq_false', decide_eq_true_eq]
      intro _
      omega
    · rw [decide_eq_false h1, Bool.false_and]
  have hserves : (decide (dest = 1) && (s.mem.st == .frozen || s.mem.st == .reset)) = false := by
    by_cases h1 : dest = 1
    · obtain ⟨hfrozen, hreset, -⟩ := hregion h1
      simp [hfrozen, hreset]
    · rw [decide_eq_false h1, Bool.false_and]
  rw [if_neg (Bool.eq_false_iff.1 hroom), if_neg (not_not.2 hT),
    if_neg (Bool.eq_false_iff.1 hserves), hfree]
  rfl

/-! CAPTURE.STOP -/

/-- The channel on which a capture of this point and index runs. -/
def captureOf (point index : BitVec 16) (s : State) : Option Nat :=
  [0, 1].find? (fun n => (capGet s n).active && (capGet s n).point == point && (capGet s n).index == index)

theorem captureStop_of_running {point index : BitVec 16} {n : Nat} {s : State} (hn : captureOf point index s = some n) :
    captureStop point index s = okWith [.num 4 (capGet s n).done] (captureEnd n 1 s) := by
  unfold captureStop
  rw [show [0, 1].find? _ = some n from hn]

/-- Settles O16: each command's body is its effect and its answer, wherever its fields are legal. -/
theorem testCommandsAct : Obligations.TestCommandsAct := by
  intro s h
  refine ⟨fun path depth mask ha hp hd hm hformula hbist => ⟨_, rfl, ?_⟩,
    fun point index dest t words offset m n ha hp hi hd ht hT hregion hfree => ⟨_, rfl, ?_⟩,
    fun point index n ha hn => ⟨_, rfl, ?_⟩⟩
  · refine serve_still ha (fun v hv => ?_) fun v => loopRunUpdate_still (setLoops_still _ _ _ (Still.refl v))
    have hl : LoopAllowed path depth v := (hv.reads (LoopAllowed path depth) fun _ => rfl).mpr ⟨hformula, hbist⟩
    exact loopbackSet_of_legal hp hd hm hl
  · have hfits : CaptureFits point index dest t words offset n s := ⟨hT, hregion, hfree⟩
    exact serve_write (captureArmed point index dest t words offset n) ha (inModes_of_accepts ha)
      (fun v hv => captureStart_of_legal hp hi hd ht ((hv.reads (CaptureFits point index dest t words offset n) fun _ => rfl).mpr hfits))
      (fun _ => rfl) fun _ => ⟨rfl, rfl, rfl, rfl, rfl, rfl⟩
  · refine serve_still ha (fun v hv => ?_) fun v => captureEnd_still n 1 (Still.refl v)
    rw [captureStop_of_running ((hv.reads (captureOf point index) fun _ => rfl).trans hn), hv.reads (capGet · n) fun _ => rfl]
    rfl

end Sys2Proof.Machine
end

section
/-! Captures: the header, the packing, the truncation and the drain of a channel (R442 to R444), and the checkers of the
pattern loopbacks (R440). -/

namespace Sys2Proof.Machine
open Sys2Proof

/-! Stages enter the FIFO -/

/-- Raising an event leaves the captures and checkers. -/
theorem EventsOnly.tst {s t : State} (h : EventsOnly s t) : t.tst = s.tst := congrArg (·.tst) h.1

/-- A channel with the owed stages that its FIFO has room for entered. -/
def captureMoved (c : Capture) : Capture :=
  { c with fifo := c.fifo ++ c.owed.take (32 - c.fifo.length), owed := c.owed.drop (32 - c.fifo.length) }

@[simp] theorem captureMoved_stages (c : Capture) : (captureMoved c).fifo ++ (captureMoved c).owed = c.fifo ++ c.owed := by
  simp [captureMoved]

theorem captureFlush_of_running {n : Nat} {s : State} (h : (capGet s n).ending = none) :
    captureFlush n s = capSet n (captureMoved (capGet s n)) s := by
  unfold captureFlush
  extract_lets c room d
  have hd : d.ending = none := h
  rw [hd]
  cases d.owed <;> rfl

/-- What does not look at whether a capture runs or ends is, after a flush, that of the channel with its stages moved. -/
theorem captureFlush_field {α : Type} (f : Capture → α) (hf : ∀ c a e, f { c with active := a, ending := e } = f c)
    (n : Nat) (s : State) : f (capGet (captureFlush n s) n) = f (captureMoved (capGet s n)) := by
  unfold captureFlush
  extract_lets c room d
  split
  · rw [capGet, (raiseEv_eventsOnly ..).tst]
    exact (congrArg f (capGet_capSet ..)).trans (hf d _ _)
  · exact congrArg f (capGet_capSet ..)

section
variable (n : Nat) (c : Capture) (s : State)

theorem captureFlush_capSet_stages : (capGet (captureFlush n (capSet n c s)) n).fifo ++ (capGet (captureFlush n (capSet n c s)) n).owed
    = c.fifo ++ c.owed := by
  rw [captureFlush_field (fun d => d.fifo ++ d.owed) fun _ _ _ => rfl, captureMoved_stages, capGet_capSet]

theorem captureFlush_capSet_buf : (capGet (captureFlush n (capSet n c s)) n).buf = c.buf := by
  rw [captureFlush_field (·.buf) fun _ _ _ => rfl, capGet_capSet, captureMoved]

theorem captureFlush_capSet_out : (capGet (captureFlush n (capSet n c s)) n).out = c.out := by
  rw [captureFlush_field (·.out) fun _ _ _ => rfl, capGet_capSet, captureMoved]

end

theorem captureFlush_mem (n : Nat) (s : State) : (captureFlush n s).mem = s.mem := by
  unfold captureFlush
  extract_lets c room d
  split
  · exact (raiseEv_memStill _ _ _ (capSet_memStill n _ (MemStill.refl s))).same
  · rfl

/-! Packing -/

theorem stageOf_data_length (b : List Byte) (first last : Bool) : (stageOf b first last).data.length = 64 := by
  simp [stageOf]

theorem stageOf_data_of_full {b : List Byte} (hb : b.length = 64) (first last : Bool) : (stageOf b first last).data = b := by
  simp [stageOf, ← hb]

/-- Cutting a byte string into stages loses no byte and changes no order. -/
theorem fullStages_data (k : Nat) (l : List Byte) : (fullStages k l).1.flatMap (fun g => g.data) ++ (fullStages k l).2 = l := by
  induction k generalizing l with
  | zero => rfl
  | succ k ih =>
    rw [fullStages]
    split
    · rfl
    · next hl =>
      rw [List.flatMap_cons, stageOf_data_of_full (by simp; omega), List.append_assoc, ih, List.take_append_drop]

theorem fullStages_rest (k : Nat) (l : List Byte) (hk : l.length < 64 * (k + 1)) : (fullStages k l).2.length < 64 := by
  induction k generalizing l with
  | zero => exact hk
  | succ k ih =>
    rw [fullStages]
    split
    · assumption
    · exact ih _ (by rw [List.length_drop]; omega)

/-- A channel that has packed one more word. -/
def capturePacked (w : List Byte) (c : Capture) : Capture :=
  let r := fullStages ((c.partial_ ++ w).length / 64) (c.partial_ ++ w)
  { c with partial_ := r.2, owed := c.owed ++ r.1, done := c.done + 1 }

theorem capturePacked_partial_lt (w : List Byte) (c : Capture) : (capturePacked w c).partial_.length < 64 :=
  fullStages_rest _ _ (by omega)

theorem capturePacked_data (w : List Byte) (c : Capture) :
    ((capturePacked w c).fifo ++ (capturePacked w c).owed).flatMap (fun g => g.data) ++ (capturePacked w c).partial_
      = (c.fifo ++ c.owed).flatMap (fun g => g.data) ++ c.partial_ ++ w := by
  have hcut := fullStages_data ((c.partial_ ++ w).length / 64) (c.partial_ ++ w)
  simp only [capturePacked, List.flatMap_append, List.append_assoc, hcut]

/-! The header (R443) -/

theorem byteOf_add (v j k : Nat) : byteOf v (j + k) = byteOf (v / 2 ^ (8 * j)) k := by
  rw [byteOf, byteOf, Nat.div_div_eq_div_mul, ← Nat.pow_add, Nat.mul_add]

theorem byteOf_congr {v w i : Nat} (h : v / 2 ^ (8 * i) % 256 = w / 2 ^ (8 * i) % 256) : byteOf v i = byteOf w i :=
  BitVec.eq_of_toNat_eq (by simpa [byteOf] using h)

/-- The first four bytes of a header hold its two top fields. -/
theorem beBytes_take_four {p i r : Nat} (hi : i < 2 ^ 16) (hr : r < 2 ^ 480) :
    (beBytes 64 (p * 2 ^ 496 + i * 2 ^ 480 + r)).take 4 = beBytes 2 p ++ beBytes 2 i := by
  have hp : (p * 2 ^ 496 + i * 2 ^ 480 + r) / 2 ^ (8 * 62) = p := by omega
  have hpi : (p * 2 ^ 496 + i * 2 ^ 480 + r) / 2 ^ (8 * 60) = p * 65536 + i := by omega
  generalize p * 2 ^ 496 + i * 2 ^ 480 + r = v at *
  have htake : (beBytes 64 v).take 4 = [byteOf v (62 + 1), byteOf v (62 + 0), byteOf v (60 + 1), byteOf v (60 + 0)] := rfl
  have hp2 : beBytes 2 p ++ beBytes 2 i = [byteOf p 1, byteOf p 0, byteOf i 1, byteOf i 0] := rfl
  rw [htake, hp2, byteOf_add v 62, byteOf_add v 62, byteOf_add v 60, byteOf_add v 60, hp, hpi,
    byteOf_congr (v := p * 65536 + i) (w := i) (i := 1) (by omega), byteOf_congr (v := p * 65536 + i) (w := i) (i := 0) (by omega)]

theorem wrapN_lt (w : Nat) (v : Int) : wrapN w v < 2 ^ w := by
  have h0 : (0 : Int) < 2 ^ w := by positivity
  rw [wrapN, Int.toNat_lt (Int.emod_nonneg v h0.ne')]
  exact_mod_cast Int.emod_lt_of_pos v h0

theorem captureHeader_take_four (c : Capture) (len : Nat) (s : State) :
    (captureHeader c len s).1.take 4 = beBytes 2 c.point.toNat ++ beBytes 2 c.index.toNat := by
  unfold captureHeader
  extract_lets a b v
  have h1 := wrapN_lt 8 a.1
  have h2 := wrapN_lt 32 b.1
  have h3 := v.tb.epoch.isLt
  have h4 := v.tb.beat.isLt
  have h5 := (nowNs v).isLt
  rw [← beBytes_take_four c.index.isLt (r := wrapN 8 a.1 * 2 ^ 472 + v.tb.epoch.toNat * 2 ^ 456 + v.tb.beat.toNat * 2 ^ 424
    + (nowNs v).toNat * 2 ^ 392 + wrapN 32 b.1 * 2 ^ 360 + c.words % 2 ^ 32 * 2 ^ 328) (by omega)]
  simp only [Nat.add_assoc]

theorem beBytes_length (n v : Nat) : (beBytes n v).length = n := by simp [beBytes, leBytes]

theorem captureHeader_length (c : Capture) (len : Nat) (s : State) : (captureHeader c len s).1.length = 64 := beBytes_length 64 _

/-! The operations of a channel -/

/-- The channel's capture runs, and no END has been decided. -/
def CaptureRuns (c : Capture) : Prop := c.active = true ∧ c.ending = none

theorem not_captureRuns_iff {c : Capture} : ¬ CaptureRuns c ↔ c.active = false ∨ c.ending.isSome = true := by
  rw [CaptureRuns, not_and_or, Bool.not_eq_true, Option.isSome_iff_ne_none]

section
variable {n : Nat} {s : State}

theorem captureBegin_of_not_armed (h : ¬ CaptureRuns (capGet s n) ∨ (capGet s n).begun = true) : captureBegin n s = s := by
  refine if_pos ?_
  rcases h with hr | hb
  · rcases not_captureRuns_iff.1 hr with ha | he
    · simp [ha]
    · simp [he]
  · simp [hb]

/-- An armed capture begins with its header stage. -/
theorem captureBegin_of_armed (hr : CaptureRuns (capGet s n)) (hb : (capGet s n).begun = false) (hf : (capGet s n).fifo = [])
    (ho : (capGet s n).owed = []) (hw : (capGet s n).words ≠ 0) : ∃ b : List Byte, b.length = 64
      ∧ b.take 4 = beBytes 2 (capGet s n).point.toNat ++ beBytes 2 (capGet s n).index.toNat
      ∧ capGet (captureBegin n s) n = { capGet s n with begun := true, fifo := [stageOf b true false], owed := [] } := by
  obtain ⟨hact, hend⟩ := hr
  unfold captureBegin
  extract_lets c v h u
  have hu : capGet u n = { c with begun := true, fifo := [stageOf h.1 true false], owed := [] } := by
    have hset : (capGet (capSet n { c with begun := true, owed := c.owed ++ [stageOf h.1 true false] } h.2) n).ending = none := by
      rw [capGet_capSet]
      exact hend
    unfold u
    rw [captureFlush_of_running hset, capGet_capSet, capGet_capSet, captureMoved]
    simp [show c.fifo = [] from hf, show c.owed = [] from ho]
  refine ⟨h.1, captureHeader_length .., captureHeader_take_four .., ?_⟩
  rw [if_neg (by simp [c, hact, hb, hend]), if_neg hw, hu]

theorem captureWord_of_not_begun {w : List Byte} (h : ¬ CaptureRuns (capGet s n) ∨ (capGet s n).begun = false) :
    captureWord n w s = s := by
  refine if_pos ?_
  rcases h with hr | hb
  · rcases not_captureRuns_iff.1 hr with ha | he
    · simp [ha]
    · simp [he]
  · simp [hb]

theorem captureWord_of_full {w : List Byte} (hr : CaptureRuns (capGet s n)) (hb : (capGet s n).begun = true)
    (hf : 32 ≤ (capGet s n).fifo.length) : captureWord n w s = captureEnd n 2 s := by
  unfold captureWord
  exact (if_neg (by simp [hr.1, hr.2, hb])).trans (if_pos hf)

/-- A word is packed behind what came before, and the last one ends the capture. -/
theorem captureWord_of_room {w : List Byte} (hr : CaptureRuns (capGet s n)) (hb : (capGet s n).begun = true)
    (hf : (capGet s n).fifo.length < 32) : ∃ u, capGet u n = captureMoved (capturePacked w (capGet s n))
      ∧ captureWord n w s = if (capGet s n).done + 1 = (capGet s n).words then captureEnd n 0 u else u := by
  refine ⟨_, ?_, (if_neg (by simp [hr.1, hr.2, hb])).trans (if_neg (by omega))⟩
  rw [captureFlush_of_running (by rw [capGet_capSet]; exact hr.2), capGet_capSet, capGet_capSet]
  rfl

theorem captureDrain_of_empty (hf : (capGet s n).fifo = []) : captureDrain n s = s := by
  rw [captureDrain, hf]

section
variable {h : Stage} {r : List Stage} (hf : (capGet s n).fifo = h :: r)
include hf

theorem captureDrain_to_buffer (hd : (capGet s n).dest = 0) (hb : (capGet s n).buf.length < 4096) : captureDrain n s
    = captureFlush n (capSet n { capGet s n with fifo := r, buf := (capGet s n).buf ++ [h] } s) := by
  rw [captureDrain, hf]
  exact (if_pos hd).trans (if_neg (by omega))

theorem captureDrain_of_full_buffer (hd : (capGet s n).dest = 0) (hb : 4096 ≤ (capGet s n).buf.length) :
    captureDrain n s = s := by
  rw [captureDrain, hf]
  exact (if_pos hd).trans (if_pos hb)

theorem captureDrain_to_region (hd : (capGet s n).dest = 1) (hs : s.mem.st = .active ∨ s.mem.st = .selfRefresh) : captureDrain n s
    = captureFlush n (capSet n { capGet s n with fifo := r, out := (capGet s n).out + 64 }
      (hbmWrite ((regionOfKind s.mem.regions 3).elim 0 (fun g => g.1) + (capGet s n).offset + (capGet s n).out) h.data s)) := by
  rw [captureDrain, hf]
  exact (if_neg (by rw [hd]; decide)).trans (if_pos (by rcases hs with hs | hs <;> simp [hs]))

end

end

/-! Checkers (R440) -/

section
variable {c : Checker} {ok : Bool}

theorem checkUnit_of_unlocked (hl : c.locked = false) : (checkUnit ok c).locked = (ok && decide (64 ≤ c.good + 1))
    ∧ ((checkUnit ok c).locked = false → (checkUnit ok c).good = if ok then c.good + 1 else 0) := by
  cases ok
  · simp [checkUnit, hl]
  · by_cases h : 64 ≤ c.good + 1 <;> simp [checkUnit, hl, h]

theorem checkUnit_of_locked (hl : c.locked = true) :
    ((checkUnit ok c).locked = false ↔ 64 ≤ c.errs + if ok then 0 else 1)
    ∧ ((checkUnit ok c).locked = true → c.units + 1 < 1024 →
      (checkUnit ok c).units = c.units + 1 ∧ (checkUnit ok c).errs = c.errs + if ok then 0 else 1)
    ∧ ((checkUnit ok c).locked = true → 1024 ≤ c.units + 1 → (checkUnit ok c).units = 0 ∧ (checkUnit ok c).errs = 0) := by
  have hunit : checkUnit ok c = if 64 ≤ c.errs + (if ok then 0 else 1) then checkerReset
      else if 1024 ≤ c.units + 1 then { c with units := 0, errs := 0 }
      else { c with units := c.units + 1, errs := c.errs + (if ok then 0 else 1) } := by
    simp [checkUnit, hl]
  by_cases he : 64 ≤ c.errs + if ok then 0 else 1
  · rw [hunit, if_pos he]
    simp [checkerReset, he]
  · rw [hunit, if_neg he]
    by_cases hw : 1024 ≤ c.units + 1
    · rw [if_pos hw]
      simp [hl, he]
      omega
    · rw [if_neg hw]
      simp [hl, he]
      omega

end

section
variable {path item : Nat} {ok : Bool} {s : State}

theorem loopbackUnit_of_no_pattern (h : patternLoop s path item = false) : loopbackUnit path item ok s = s :=
  if_pos (by simp [h])

/-- The state with a unit counted where its checker is locked, and as an error where it does not match. -/
def unitCounted (path item : Nat) (ok : Bool) (s : State) : State :=
  let k := loopCounters path item
  if (FMap.get checkerReset s.tst.checkers (loopKey path item)).locked then count k.1 k.2.2 (if ok then s else count k.2.1 k.2.2 s)
  else s

theorem unitCounted_eq (path item : Nat) (ok : Bool) (s : State) :
    unitCounted path item ok s = { s with ctr := (unitCounted path item ok s).ctr } := by
  unfold unitCounted
  cases ok <;> cases (FMap.get checkerReset s.tst.checkers (loopKey path item)).locked <;> rfl

theorem loopbackUnit_of_pattern (h : patternLoop s path item = true) : loopbackUnit path item ok s =
    { s with
      ctr := (unitCounted path item ok s).ctr
      tst := { s.tst with
        checkers := FMap.put checkerReset s.tst.checkers (loopKey path item)
          (checkUnit ok (FMap.get checkerReset s.tst.checkers (loopKey path item))) } } := by
  have hunit : loopbackUnit path item ok s = { unitCounted path item ok s with tst := { (unitCounted path item ok s).tst with
      checkers := FMap.put checkerReset (unitCounted path item ok s).tst.checkers (loopKey path item)
        (checkUnit ok (FMap.get checkerReset s.tst.checkers (loopKey path item))) } } := if_neg (by simp [h])
  rw [hunit, unitCounted_eq]

end

/-! The statement -/

/-- Settles O52: the header, the packing and the drain are what each operation's lemma says of its channel, and a unit of a
pattern is `checkUnit`. -/
theorem capturesAndCheckers : Obligations.CapturesAndCheckers := by
  refine ⟨fun ch s => ⟨fun h => congrArg _ (captureBegin_of_not_armed h), fun hr hb hf ho hw => ⟨_, rfl, ?_⟩,
    fun w => ⟨fun h => congrArg _ (captureWord_of_not_begun h), fun hr hb hf => congrArg _ (captureWord_of_full hr hb hf),
      fun hr hb hf hlast => ⟨_, rfl, ?_⟩, fun hr hb hf hlast => ⟨_, rfl, ?_⟩⟩,
    fun hf => congrArg _ (captureDrain_of_empty hf), fun h r hf => ⟨fun hd hb => ⟨_, rfl, ?_⟩,
      fun hd hb => congrArg _ (captureDrain_of_full_buffer hf hd hb), fun hd hs => ⟨_, rfl, ?_⟩⟩⟩,
    fun path item ok s => ⟨fun h => congrArg _ (loopbackUnit_of_no_pattern h), fun h => ⟨_, rfl, ?_⟩⟩⟩
  · obtain ⟨b, hlen, hfour, hcap⟩ := captureBegin_of_armed hr hb hf ho hw
    rw [hcap]
    refine ⟨rfl, rfl, _, rfl, rfl, stageOf_data_length .., ?_⟩
    rw [stageOf_data_of_full hlen]
    exact hfour
  · obtain ⟨u, hcap, hword⟩ := captureWord_of_room (w := w) hr hb hf
    rw [hword, if_neg hlast]
    dsimp only
    rw [hcap, captureMoved_stages]
    exact ⟨rfl, hr.1, capturePacked_partial_lt .., capturePacked_data ..⟩
  · obtain ⟨u, hcap, hword⟩ := captureWord_of_room (w := w) hr hb hf
    refine ⟨u, ?_, hword.trans (if_pos hlast)⟩
    rw [hcap]
    exact hlast
  · rw [captureDrain_to_buffer hf hd hb]
    exact ⟨captureFlush_capSet_buf .., captureFlush_capSet_stages ..⟩
  · rw [captureDrain_to_region hf hd hs]
    exact ⟨captureFlush_capSet_stages .., captureFlush_capSet_out .., congrArg (·.hbm) (captureFlush_mem ..)⟩
  · rw [loopbackUnit_of_pattern h]
    dsimp only
    rw [get_put_eq]
    refine ⟨fun hl => ⟨?_, checkUnit_of_unlocked hl⟩, fun hl => ⟨?_, checkUnit_of_locked hl⟩, rfl, rfl, rfl⟩
    · rw [unitCounted, if_neg (by simp [hl])]
    · rw [unitCounted, if_pos hl]

end Sys2Proof.Machine
end

section
/-! Host accesses of BAR0: doorbells, consume indexes, write-one-to-clear, the time snapshot, capture pops, scratch and MSI-X
registers, and the MSI-X messages (R392, R450, R453, R454, R457, R458). -/

namespace Sys2Proof.Machine
open Sys2Proof

/-! The command doorbell (R392, R453) -/

/-- An entry stays announced while fewer than `want` PCIe entries stand before it. -/
def keepAnnounced (want : Nat) (p : List Head × Nat) (h : Head) : List Head × Nat :=
  if h.src == .pcie then (if p.2 < want then (p.1 ++ [h], p.2 + 1) else p) else (p.1 ++ [h], p.2)

theorem mem_foldl_keepAnnounced {want : Nat} {l : List Head} {p : List Head × Nat} {x : Head}
    (hx : x ∈ (l.foldl (keepAnnounced want) p).1) : x ∈ p.1 ∨ x ∈ l := by
  induction l generalizing p with
  | nil => exact .inl hx
  | cons h t ih =>
    rcases ih hx with hp | ht
    · have hkept : x ∈ p.1 ∨ x = h := by
        unfold keepAnnounced at hp
        split at hp
        · split at hp
          · simpa using hp
          · exact .inl hp
        · simpa using hp
      exact hkept.imp_right fun e => by rw [e]; exact List.mem_cons_self
    · exact .inr (List.mem_cons_of_mem h ht)

section
variable {i : BitVec 16} {l : List (BitVec 32 × BitVec 16)} {s : State}

theorem cmdDoorbell_of_not_ready (h : s.nose.mbxReady = false) : cmdDoorbell i l s = s := if_pos (by simp [h])

theorem cmdDoorbell_of_overfull (h : s.nose.mbxReady = true) (hi : 64 < (i - s.nose.cmdCons).toNat) :
    cmdDoorbell i l s = count 0xD02 0 s := by
  unfold cmdDoorbell
  exact (if_neg (by simp [h])).trans (if_pos hi)

/-- A doorbell within the ring takes back entries that it no longer announces, or announces new ones behind the others. -/
theorem cmdDoorbell_of_legal (h : s.nose.mbxReady = true) (hi : (i - s.nose.cmdCons).toNat ≤ 64) :
    ∃ a, cmdDoorbell i l s = serveUndefined { s with nose := { s.nose with cmdProd := i, arrived := a } }
      ∧ ((i - s.nose.cmdCons).toNat ≤ (s.nose.cmdProd - s.nose.cmdCons).toNat → ∀ x ∈ a, x ∈ s.nose.arrived)
      ∧ ((s.nose.cmdProd - s.nose.cmdCons).toNat < (i - s.nose.cmdCons).toNat → a = s.nose.arrived
        ++ (List.range ((i - s.nose.cmdCons).toNat - (s.nose.cmdProd - s.nose.cmdCons).toNat)).map
          (fun j => ⟨.pcie, (l.getD j (0, 0)).1, (l.getD j (0, 0)).2⟩)) := by
  refine ⟨_, (if_neg (by simp [h])).trans (if_neg (by omega)), fun hle x hx => ?_, fun hlt => if_neg (by omega)⟩
  rw [if_pos hle] at hx
  exact (mem_foldl_keepAnnounced hx).resolve_left List.not_mem_nil

/-! The consume indexes (R453) -/

theorem rspConsume_of_not_ready (h : s.nose.mbxReady = false) : rspConsume i s = s := if_pos (by simp [h])

theorem rspConsume_of_beyond (h : s.nose.mbxReady = true)
    (hi : (s.nose.rspProd - s.nose.rspCons).toNat < (i - s.nose.rspCons).toNat) : rspConsume i s = count 0xD02 0 s := by
  unfold rspConsume
  exact (if_neg (by simp [h])).trans (if_pos hi)

theorem rspConsume_of_legal (h : s.nose.mbxReady = true)
    (hi : (i - s.nose.rspCons).toNat ≤ (s.nose.rspProd - s.nose.rspCons).toNat) :
    rspConsume i s = serveUndefined { s with nose := { s.nose with rspCons := i } } := by
  unfold rspConsume
  exact (if_neg (by simp [h])).trans (if_neg (by omega))

/-- The lease is held over PCIe. -/
def pcieHolds (s : State) : Bool :=
  match s.nose.lease with
  | some (_, .pcie) => true
  | _ => false

theorem pcieHolds_iff : pcieHolds s = true ↔ ∃ w, s.nose.lease = some (w, .pcie) := by
  unfold pcieHolds
  rcases s.nose.lease with _ | ⟨w, _ | ⟨p, m, v⟩⟩ <;> simp

theorem evtConsume_eq (i : BitVec 16) (s : State) : evtConsume i s =
    if !s.nose.mbxReady || !pcieHolds s then s
    else if (i - s.nose.evtCons).toNat > evtHeld s then count 0xD02 0 s
    else if i != s.nose.evtCons then reportLost { s with nose := { s.nose with evtCons := i } }
    else { s with nose := { s.nose with evtCons := i } } := rfl

theorem evtConsume_of_ignored (h : s.nose.mbxReady = false ∨ ¬ ∃ w, s.nose.lease = some (w, .pcie)) : evtConsume i s = s := by
  rw [← pcieHolds_iff, Bool.not_eq_true] at h
  rw [evtConsume_eq]
  exact if_pos (by rcases h with h | h <;> simp [h])

theorem evtConsume_of_beyond (h : s.nose.mbxReady = true) (hp : ∃ w, s.nose.lease = some (w, .pcie))
    (hi : evtHeld s < (i - s.nose.evtCons).toNat) : evtConsume i s = count 0xD02 0 s := by
  rw [evtConsume_eq, if_neg (by simp [h, pcieHolds_iff.2 hp]), if_pos hi]

theorem evtConsume_of_legal (h : s.nose.mbxReady = true) (hp : ∃ w, s.nose.lease = some (w, .pcie))
    (hi : (i - s.nose.evtCons).toNat ≤ evtHeld s) : evtConsume i s =
      if i = s.nose.evtCons then { s with nose := { s.nose with evtCons := i } }
      else reportLost { s with nose := { s.nose with evtCons := i } } := by
  rw [evtConsume_eq, if_neg (by simp [h, pcieHolds_iff.2 hp]), if_neg (by omega), ← ite_not]
  simp

end

/-- An event reported to a holder on PCIe leaves its consume index. -/
theorem reportLost_evtCons {s : State} (hp : ∃ w, s.nose.lease = some (w, .pcie)) :
    (reportLost s).nose.evtCons = s.nose.evtCons := by
  obtain ⟨w, hw⟩ := hp
  unfold reportLost
  split
  · rfl
  · simp [writeEvent, hw]

/-! Write-one-to-clear, the snapshot and the capture pops (R454, R457, R458) -/

theorem w1c_getLsbD {w : Nat} (x : BitVec w) (v : BitVec 32) {b : Nat} (hb : b < w) :
    (x &&& ~~~(v.setWidth w)).getLsbD b = (x.getLsbD b && !v.getLsbD b) := by
  simp [hb]

theorem snapshotTake_of_ignored {v : BitVec 32} {s : State} (h : v.getLsbD 0 = false ∨ s.tb.run = false) : snapshotTake v s = s :=
  if_neg (by rcases h with h | h <;> rw [h] <;> simp)

/-- The registers that TAKE latches. -/
def snapshotTaken (s : State) : Bar0St :=
  { s.bar0 with
    tsValid := true, tsTakes := s.bar0.tsTakes + 1, tsCounter := tbCounter s, tsSec := (fullTime s.tb.t40).1
    tsNs := (fullTime s.tb.t40).2.1, tsEpoch := s.tb.epoch, tsBeat := s.tb.beat
    tsState := BitVec.ofNat 3 (tbStateCode s.tb.st), tsCycle := BitVec.ofNat 17 s.tb.cyc }

theorem snapshotTake_of_take {v : BitVec 32} {s : State} (hv : v.getLsbD 0 = true) (hr : s.tb.run = true) :
    snapshotTake v s = { s with bar0 := snapshotTaken s } := if_pos (by simp [hv, hr])

theorem tbStateCode_lt (st : TbState) : tbStateCode st < 2 ^ 3 := by cases st <;> decide

section
variable {ch : Fin 2} {v : BitVec 32} {s : State}

theorem capturePop_of_no_pop (hv : v.getLsbD 0 = false) : capturePop ch v s = s := if_pos (by rw [hv]; rfl)

theorem capturePop_of_empty (hv : v.getLsbD 0 = true) (hb : (capGet s ch.val).buf = []) :
    capturePop ch v s = { s with bar0 := { s.bar0 with status := s.bar0.status ||| 0b100#3 } } := by
  unfold capturePop
  rw [if_neg (by simp [hv])]
  dsimp only
  rw [hb]

theorem capturePop_of_stage {h : Stage} {r : List Stage} (hv : v.getLsbD 0 = true) (hb : (capGet s ch.val).buf = h :: r) :
    capturePop ch v s = capSet ch.val { capGet s ch.val with buf := r } s := by
  unfold capturePop
  rw [if_neg (by simp [hv])]
  dsimp only
  rw [hb]

end

/-! Word writes (R450) -/

section
variable {o z : Nat} {v : BitVec 64} {s : State}

theorem bar0Write_of_bad_access (h4 : ¬ (z = 4 ∧ o % 4 = 0)) (h8 : ¬ (z = 8 ∧ o % 8 = 0)) :
    bar0Write o z v s = { s with bar0 := { s.bar0 with status := s.bar0.status ||| 1#3 } } := (if_neg h4).trans (if_neg h8)

theorem bar0Write_word (hz : z = 4) (ho : o % 4 = 0) : bar0Write o z v s = bar0Word o (v.setWidth 32) s := if_pos ⟨hz, ho⟩

theorem bar0Write_pair (hz : z = 8) (ho : o % 8 = 0) : bar0Write o z v s
    = bar0Word (o + 4) (BitVec.ofNat 32 (v.toNat / 2 ^ 32)) (bar0Word o (v.setWidth 32) s) :=
  (if_neg (by omega)).trans (if_pos ⟨hz, ho⟩)

end

/-- Registers that only the block writes: a write is ignored. -/
def readOnlyWords : List Nat := [0x0000, 0x0010, 0x0020, 0x0104, 0x0108, 0x0110, 0x0200, 0x0300, 0x0404, 0x0504, 0x0F00, 0x1000]

theorem readOnlyWords_aligned : ∀ o ∈ readOnlyWords, o % 4 = 0 := by decide

theorem bar0Word_of_readOnly (w : BitVec 32) (s : State) : ∀ o ∈ readOnlyWords, bar0Word o w s = s := by
  simp only [readOnlyWords, List.forall_mem_cons]
  exact ⟨rfl, rfl, rfl, rfl, rfl, rfl, rfl, rfl, rfl, rfl, rfl, rfl, by simp⟩

/-! Scratch registers -/

/-- A number with the 32 bits from bit `sh` on replaced. -/
def put32 (old sh v : Nat) : Nat := old - old / 2 ^ sh % 2 ^ 32 * 2 ^ sh + v * 2 ^ sh

section
variable (old sh : Nat) {v : Nat}

theorem put32_eq : put32 old sh v = 2 ^ sh * (2 ^ 32 * (old / 2 ^ sh / 2 ^ 32) + v) + old % 2 ^ sh := by
  have hlow := Nat.div_add_mod old (2 ^ sh)
  have hmid := Nat.div_add_mod (old / 2 ^ sh) (2 ^ 32)
  unfold put32
  generalize hm : old / 2 ^ sh % 2 ^ 32 = m at *
  generalize hh : old / 2 ^ sh / 2 ^ 32 = hi at *
  generalize hl : old % 2 ^ sh = lo at *
  generalize hq : 2 ^ sh = q at *
  rw [← hmid] at hlow
  rw [← hlow, Nat.mul_add q, Nat.mul_add q, Nat.mul_comm m q, Nat.mul_comm v q]
  omega

theorem put32_div (hv : v < 2 ^ 32) : put32 old sh v / 2 ^ sh % 2 ^ 32 = v := by
  rw [put32_eq, Nat.mul_add_div (by positivity), Nat.div_eq_of_lt (Nat.mod_lt _ (by positivity)), Nat.add_zero, Nat.mul_add_mod,
    Nat.mod_eq_of_lt hv]

theorem put32_div_above (hv : v < 2 ^ 32) : put32 old sh v / 2 ^ (sh + 32) = old / 2 ^ (sh + 32) := by
  rw [Nat.pow_add, ← Nat.div_div_eq_div_mul, ← Nat.div_div_eq_div_mul, put32_eq, Nat.mul_add_div (by positivity),
    Nat.div_eq_of_lt (Nat.mod_lt _ (by positivity)), Nat.add_zero, Nat.mul_add_div (by positivity), Nat.div_eq_of_lt hv, Nat.add_zero]

theorem put32_mod_below : put32 old sh v % 2 ^ sh = old % 2 ^ sh := by
  rw [put32_eq, Nat.mul_add_mod, Nat.mod_mod]

end

/-- The 32-bit field of a number from a bit on depends on no bit above it. -/
theorem field32_of_mod {a b n sh : Nat} (hn : n + 32 ≤ sh) (h : a % 2 ^ sh = b % 2 ^ sh) :
    a / 2 ^ n % 2 ^ 32 = b / 2 ^ n % 2 ^ 32 := by
  have hcut : ∀ x : Nat, x / 2 ^ n % 2 ^ 32 = x % 2 ^ sh % 2 ^ (n + 32) / 2 ^ n := fun x => by
    rw [Nat.mod_mod_of_dvd x (Nat.pow_dvd_pow 2 hn), Nat.pow_add, Nat.mod_mul_right_div_self]
  rw [hcut, hcut, h]

/-- A field of 32 bits that is put leaves the other fields of 32 bits. -/
theorem put32_div_other (old : Nat) {v i j : Nat} (hv : v < 2 ^ 32) (h : i ≠ j) :
    put32 old (32 * j) v / 2 ^ (32 * i) % 2 ^ 32 = old / 2 ^ (32 * i) % 2 ^ 32 := by
  rcases Nat.lt_or_gt_of_ne h with hlt | hgt
  · exact field32_of_mod (by omega) (put32_mod_below old (32 * j))
  · rw [show 32 * i = (32 * j + 32) + 32 * (i - j - 1) by omega, Nat.pow_add, ← Nat.div_div_eq_div_mul, ← Nat.div_div_eq_div_mul,
      put32_div_above old _ hv]

/-- The state with scratch register `j` written. -/
def scratchPut (j : Nat) (w : BitVec 32) (s : State) : State :=
  { s with bar0 := { s.bar0 with scratch := BitVec.ofNat 256 (put32 s.bar0.scratch.toNat (32 * j) w.toNat) } }

theorem bar0Word_scratch {j : Nat} (hj : j < 8) (w : BitVec 32) (s : State) : bar0Word (0x3000 + 4 * j) w s = scratchPut j w s := by
  unfold bar0Word
  simp (disch := omega) only [if_neg, if_pos]
  rw [show 8 * (0x3000 + 4 * j - 0x3000) = 32 * j by omega]
  rfl

theorem bar0Read_scratch {j : Nat} (hj : j < 8) (s : State) :
    bar0Read s (0x3000 + 4 * j) = BitVec.ofNat 32 (s.bar0.scratch.toNat / 2 ^ (32 * j)) := by
  unfold bar0Read
  simp (disch := omega) only [if_neg, if_pos]
  rw [show 8 * (0x3000 + 4 * j - 0x3000) = 32 * j by omega]

/-- What a field of a scratch register reads after a write. -/
theorem bar0Read_scratchPut {i j : Nat} (hi : i < 8) (w : BitVec 32) (s : State) :
    bar0Read (scratchPut j w s) (0x3000 + 4 * i)
      = BitVec.ofNat 32 (put32 s.bar0.scratch.toNat (32 * j) w.toNat / 2 ^ (32 * i)) := by
  rw [bar0Read_scratch hi]
  refine BitVec.eq_of_toNat_eq ?_
  simp only [scratchPut, BitVec.toNat_ofNat]
  exact field32_of_mod (sh := 256) (by omega) (Nat.mod_mod _ _)

theorem bar0Read_scratchPut_same {j : Nat} (hj : j < 8) (w : BitVec 32) (s : State) :
    bar0Read (scratchPut j w s) (0x3000 + 4 * j) = w := by
  rw [bar0Read_scratchPut hj]
  exact BitVec.eq_of_toNat_eq (put32_div _ _ w.isLt)

theorem bar0Read_scratchPut_other {i j : Nat} (hi : i < 8) (h : i ≠ j) (w : BitVec 32) (s : State) :
    bar0Read (scratchPut j w s) (0x3000 + 4 * i) = bar0Read s (0x3000 + 4 * i) := by
  rw [bar0Read_scratchPut hi, bar0Read_scratch hi]
  exact BitVec.eq_of_toNat_eq (put32_div_other _ w.isLt h)

/-! The MSI-X table and its messages (R392) -/

/-- The state with a word of the MSI-X table written. -/
def msixPut (o : Nat) (w : BitVec 32) (s : State) : State :=
  { s with bar0 := { s.bar0 with msixTable := FMap.set s.bar0.msixTable (o - 0xF000) w } }

theorem bar0Word_msix {o : Nat} (h1 : 0xF000 ≤ o) (h2 : o < 0xF020) (w : BitVec 32) (s : State) :
    bar0Word o w s = msixPut o w s := by
  unfold bar0Word
  simp (disch := omega) only [if_neg, if_pos]
  rfl

theorem bar0Read_msixPut {o : Nat} (h1 : 0xF000 ≤ o) (h2 : o < 0xF020) (w : BitVec 32) (s : State) :
    bar0Read (msixPut o w s) o = w := by
  unfold bar0Read
  simp (disch := omega) only [if_neg, if_pos]
  exact get_set_eq ..

/-- A message of a vector may leave: none left yet, or the last one left at least a microsecond ago. -/
def msixFree (v : Nat) (s : State) : Prop := s.nose.msixAt.getD v 0 = 0 ∨ s.tb.t40 - s.nose.msixAt.getD v 0 ≥ 1000 * 2 ^ 40

section
variable {v : Nat} {s : State}

theorem msixMessage_sends (hd : s.nose.msixDue.getLsbD v = true) (hm : (msixWord s (16 * v + 12)).getLsbD 0 = false)
    (hf : msixFree v s) : msixMessage v s = emit (.msix v) { s with nose := { s.nose with
      msixDue := s.nose.msixDue &&& ~~~(BitVec.ofNat 2 (2 ^ v)), msixAt := s.nose.msixAt.set v s.tb.t40 } } := by
  refine if_pos ?_
  rcases hf with hf | hf
  · rw [hd, hm, hf]
    rfl
  · rw [hd, hm, decide_eq_true hf]
    simp

theorem msixMessage_waits (h : s.nose.msixDue.getLsbD v = false ∨ (msixWord s (16 * v + 12)).getLsbD 0 = true
    ∨ (s.nose.msixAt.getD v 0 ≠ 0 ∧ s.tb.t40 - s.nose.msixAt.getD v 0 < 1000 * 2 ^ 40 ∧ s.tb.run = true)) :
    msixMessage v s = s := by
  refine if_neg ?_
  rcases h with h | h | ⟨h0, hlt, hr⟩
  · rw [h]
    simp
  · rw [h]
    simp
  · rw [hr, decide_eq_false h0, decide_eq_false (not_le.2 hlt)]
    simp

end

/-- The pending bits of the vectors once a message of one has left. -/
theorem msixDue_cleared (d : BitVec 2) (v : Nat) {w : Nat} (hw : w < 2) :
    (d &&& ~~~(BitVec.ofNat 2 (2 ^ v))).getLsbD w = (d.getLsbD w && !decide (v = w)) := by
  simp only [BitVec.getLsbD_and, BitVec.getLsbD_not, BitVec.getLsbD_ofNat, Nat.testBit_two_pow, hw, decide_true, Bool.true_and]

/-! The statement -/

/-- Settles O53: each access is what its register's lemma says. -/
theorem hostRegistersAct : Obligations.HostRegistersAct := by
  intro s
  refine ⟨fun i l => ⟨fun h => congrArg _ (cmdDoorbell_of_not_ready h), fun h hi => congrArg _ (cmdDoorbell_of_overfull h hi),
      fun h hi => ⟨_, rfl, ?_⟩⟩,
    fun i => ⟨fun h => congrArg _ (rspConsume_of_not_ready h), fun h hi => congrArg _ (rspConsume_of_beyond h hi),
      fun h hi => ⟨_, rfl, ?_⟩⟩,
    fun i => ⟨fun h => congrArg _ (evtConsume_of_ignored h), fun h hp hi => congrArg _ (evtConsume_of_beyond h hp hi),
      fun h hp hi => ⟨_, rfl, ?_⟩⟩,
    fun v => ⟨_, rfl, _, rfl, fun b hb => w1c_getLsbD _ v hb⟩, fun v => ⟨_, rfl, _, rfl, fun b hb => w1c_getLsbD _ v hb⟩,
    fun v => ⟨fun h => congrArg _ (snapshotTake_of_ignored h), fun hv hr => ⟨_, rfl, ?_⟩⟩,
    fun ch v => ⟨fun hv => congrArg _ (capturePop_of_no_pop hv), fun hv hb => congrArg _ (capturePop_of_empty hv hb),
      fun h r hv hb => ⟨_, rfl, ?_⟩⟩,
    fun o z v => ⟨fun h4 h8 => congrArg _ (bar0Write_of_bad_access h4 h8), fun j ho hz => ⟨_, rfl, ?_⟩,
      fun h1 h2 ho hz => ⟨_, rfl, ?_⟩, fun hz ho => ?_, fun ho hz => ⟨_, rfl, bar0Write_pair hz ho⟩⟩,
    fun v hlen => ⟨fun hd hm hf => ⟨_, rfl, ?_⟩, fun h => congrArg _ (msixMessage_waits h)⟩⟩
  · obtain ⟨a, ht, hback, hnew⟩ := cmdDoorbell_of_legal (l := l) h hi
    have hmail := serveUndefined_mailOnly { s with nose := { s.nose with cmdProd := i, arrived := a } }
    rw [← ht] at hmail
    exact ⟨a, hmail, withoutMail_same hmail.1 (·.nose.cmdProd) fun _ => rfl, hback, hnew⟩
  · have hmail := serveUndefined_mailOnly { s with nose := { s.nose with rspCons := i } }
    rw [← rspConsume_of_legal h hi] at hmail
    exact ⟨hmail, withoutMail_same hmail.1 (·.nose.rspCons) fun _ => rfl⟩
  · rw [evtConsume_of_legal h hp hi]
    split
    · exact ⟨EventsOnly.refl _, rfl, fun _ => rfl⟩
    · next hne =>
      exact ⟨reportLost_eventsOnly _, reportLost_evtCons (s := { s with nose := { s.nose with evtCons := i } }) hp,
        fun hl => if_pos (hl.resolve_left hne)⟩
  · rw [snapshotTake_of_take hv hr]
    exact ⟨rfl, rfl, rfl, rfl, rfl, rfl, rfl, Nat.mod_eq_of_lt (tbStateCode_lt s.tb.st), rfl, rfl, _, rfl⟩
  · rw [capturePop_of_stage hv hb]
    exact ⟨capGet_capSet .., rfl⟩
  · rw [ho, bar0Write_word hz (by omega), bar0Word_scratch j.isLt]
    exact ⟨bar0Read_scratchPut_same j.isLt _ s,
      fun i hi => bar0Read_scratchPut_other i.isLt (Fin.val_ne_of_ne hi) _ s, _, rfl⟩
  · rw [bar0Write_word hz ho, bar0Word_msix h1 h2]
    exact ⟨bar0Read_msixPut h1 h2 _ s, _, rfl⟩
  · exact congrArg _ ((bar0Write_word hz (readOnlyWords_aligned _ ho)).trans (bar0Word_of_readOnly _ s _ ho))
  · rw [msixMessage_sends hd hm hf]
    refine ⟨rfl, (msixDue_cleared _ v.val v.isLt).trans (by simp), fun w hw => ?_, ?_⟩
    · exact (msixDue_cleared _ v.val w.isLt).trans (by simp [Fin.val_ne_of_ne hw.symm])
    · have hset := List.getElem?_set_self (a := s.tb.t40) (show v.val < s.nose.msixAt.length by omega)
      simp [hset]

end Sys2Proof.Machine
end
